-- ==== Sys2Proof/Word.lean ====
section
/-! DEFINITION. The word types of the block (00_scope.md, Notation) and their plainest arithmetic. -/

namespace Sys2Proof

/-- A byte of a row, a message or a register image. -/
abbrev Byte := BitVec 8
/-- A 16-bit code (BF16, FP16) or count. -/
abbrev Half := BitVec 16
/-- A 32-bit word: a register, an FP32 code. -/
abbrev Word := BitVec 32
/-- A 64-bit word: S, G, V, a scalar register, an FP64 code. -/
abbrev DWord := BitVec 64
/-- A 64 B line, byte 0 in bits [7:0]. -/
abbrev Line := BitVec 512

end Sys2Proof
end

