-- ==== Sys2Proof/Syntax.lean ====
section
/-! DEFINITION. The commands of the block: one constructor of `Instr` for each row of spec/opcode_table.json. The
operands are what the step takes from outside the block: the word written, the message received, the instruction's
fields, the outcome that a device or a port reports. -/

namespace Sys2Proof

/-- The predicate fields of a Sarenina instruction (R185, R186): it executes when p[pr] XOR pn is 1. -/
structure Pred where
  pn : Bool
  pr : BitVec 3
  deriving DecidableEq, Repr

/-- The header of a fabric message (R214) without KIND, which the command itself gives; `port` is the fabric port on
which it arrived. -/
structure MsgHdr where
  ver   : BitVec 4
  vc    : BitVec 2
  src   : Half
  dst   : Half
  epoch : Half
  step  : DWord
  q     : Half
  role  : BitVec 4
  index : Word
  len   : Word
  deriving DecidableEq, Repr

/-- A message received from the fabric (R214, R215), and the VC 0 requests of its source that the block had not answered when it came
(R216 check 7, R224; log entry 17). -/
structure Msg where
  port       : BitVec 3
  hdr        : MsgHdr
  payload    : List Byte
  unanswered : Nat
  deriving DecidableEq, Repr

/-- One line of a write request with its 64-bit byte mask (R383). -/
structure LineWrite where
  data : Line
  mask : DWord
  deriving DecidableEq, Repr

/-- An operand, and how many attempts of one burst of the work it asks for fail on a device's link (R269, R292; log entry 14). -/
structure Linked (α : Type) where
  val       : α
  linkFails : Nat
  deriving DecidableEq, Repr

/-- A request on the debug port (R359, R385). -/
inductive DebugReq where
  | regRead (off : Half)
  | regWrite (off : Half) (v : Word)
  | regionRead (region : BitVec 6) (offset : BitVec 42) (lines : Nat)
  | regionWrite (region : BitVec 6) (offset : BitVec 42) (data : List LineWrite)
  deriving DecidableEq, Repr

/-- What PHY training finds at one device (R267, R293): whether it answers, passes NRZ training, stands in clamshell
mode, its density in Gb, its PX-B identification word (none when the reads disagree), PAM3 training and loopback. -/
structure TrainResult where
  responds  : Bool
  nrzOk     : Bool
  clamshell : Bool
  density   : Nat
  pxb       : Option Word
  pam3Ok    : Bool
  loopOk    : Bool
  deriving DecidableEq, Repr

/-- The first failing pattern and decoder of the start-up checker test (R379, R380). -/
structure CheckFail where
  pattern : Byte
  unit    : Byte
  deriving DecidableEq, Repr

/-- The five waits watched against STALL_LIMIT (R76). -/
inductive Watch where
  | openVerdict
  | sealVerdict
  | tierMove
  | seqStart
  | emissionCredit
  deriving DecidableEq, Repr

/-- The registers whose writes are checked against the whole set of partitions (R412, R413). -/
inductive RegulatorReg where
  | partition (n : BitVec 3)
  | srcmapLo
  | srcmapHi
  deriving DecidableEq, Repr

/-- The commands: every row of spec/opcode_table.json. -/
inductive Instr where
  /-- GO (R52): A write of GO = 1 at a step boundary latches VARIANT, LSE and SEED and starts open; at any other time it is ignored and sets GO_REFUSED. -/
  | go (v : Word)
  /-- SG_SET (R53): Copies SET_S and SET_G into S and G in bring-up stage 4 with no plan loaded; otherwise it is ignored and sets SG_REFUSED. -/
  | sgSet (v : Word)
  /-- LOAD (R167): Starts loading the plan image in region SRCREG through the load stages, or fails at once with LOAD_CODE 0x04. -/
  | load (v : Word)
  /-- SWAP (R182): A LOAD with SWAP = 1 verifies a new image while steps continue, and sets up a pending swap at SWAP_STEP. -/
  | swap (v : Word)
  /-- LOAD_VERIFY_DONE (R167): The last load stage ends: a first load writes the entries, ODIG and the hot cache lines and sets LSTATE 2, or the load fails with its code. -/
  | loadVerifyDone
  /-- SWAP_TAKE_EFFECT (R183): At the boundary where S reaches SWAP_STEP, after verification ends, the block installs the new plan or drops the swap. -/
  | swapTakeEffect
  /-- COLL_POST (R205): The control core posts collective instance q; the post is latched, ignored, or sets BADPOST. -/
  | collPost (q : Half)
  /-- CNT_GO (R228): Starts a count exchange: the block forms its record from the count area and sends CNT_UP, or sets CNT_REFUSED. -/
  | cntGo (v : Word)
  /-- TRAIN (R293): Outside Run, trains every device through the training stages; in Run it is ignored. -/
  | train (v : Word)
  /-- TRAINING_DONE (R293): Training of the devices ends, setting TCAUSE and TSTATE. -/
  | trainingDone (found : List TrainResult)
  /-- HOLD_CLR (R337): Ends the step-boundary hold when the shard-loss list is empty and the cause allows it; otherwise sets REP_REFUSED. -/
  | holdClr (v : Word)
  /-- CLOVER_GO (R340): Enters Clover mode: unloads the plan, stops the plan units and serves devices as P-devices. -/
  | cloverGo (v : Word)
  /-- MAPOUT_GO (R338): Requests the map-out of channel MCH of device MDEV, at the next boundary in Run or at once outside Run. -/
  | mapoutGo (v : Word)
  /-- CHANNEL_MAPOUT (R338): Maps out the channel, disables host-held regions that name it, or loses the shards of plan-held regions and enters the hold. -/
  | channelMapout
  /-- TABLD_GO (R339): Requests a reload of the seed table and remap entries of MDEV's BSU group at the next step boundary. -/
  | tabldGo (v : Word)
  /-- YGO (R332): Makes a waiting Yarrow pass act on YVERD: commit with YNSQ, skip, or abandon. -/
  | ygo (v : Word)
  /-- RM_WRITE (R342): Writes RM_ENT[0 to 3] of the selected bank to its remap record, the controller and the BSU. -/
  | rmWrite (v : Word)
  /-- ST_GO (R375): Requests a self-test of class ST_CLASS, taken at once or deferred to the next step boundary. -/
  | stGo (v : Word)
  /-- SELF_TEST_START (R375): A pending self-test request is taken: its conditions are checked, then the test runs or ends with a code. -/
  | selfTestStart
  /-- SELF_TEST_DONE (R375): A self-test ends: ST_SIG, ST_EXP, ST_INST and ST_CODE are written, ST_DONE is set and PX_IRQ[7] is raised. -/
  | selfTestDone (sigs : List Word)
  /-- XGO (R309): Requests an export of shard XSHARD, taken at the next step boundary. -/
  | xgo (v : Word)
  /-- XIMP (R313): Requests an import of a shard record, taken at the next step boundary. -/
  | ximp (v : Word)
  /-- EXPORT_RUN (R311): The export engine writes the header, body, unit trailer and digest of the shard record, or halts on an uncorrectable line. -/
  | exportRun
  /-- IMPORT_RUN (R313): A two-pass import checks the record, then writes the rows and unit records and adjusts ODIG. -/
  | importRun
  /-- RGO (R317): Requests a replay of recorded commits, taken as an export is taken. -/
  | rgo (v : Word)
  /-- REPLAY_RUN (R317): The replay engine reruns each recorded pass in scratch rows and compares the digests. -/
  | replayRun
  /-- ZGO (R366): Requests zeroization of region ZREG, taken at the next step boundary or refused. -/
  | zgo (v : Word)
  /-- ZEROIZE_RUN (R367): Zeroizes every row of the region by zero-row sequences or by CSU writes. -/
  | zeroizeRun (linkFails : Nat)
  /-- ZEROIZE_DONE (R369): Zeroization ends with ZCODE from ZSKIP and ZERR, and sets ZDONE. -/
  | zeroizeDone
  /-- LC_ADV (R355): Requests a lifecycle advance to LC_TGT, sent to the root of trust or refused with LC_CODE. -/
  | lcAdv (v : Word)
  /-- DBG_REQ (R360): A write of DBG_REQ lowers the debug level at once, or raises it according to lifecycle, possibly through the root of trust. -/
  | dbgReq (v : Word)
  /-- PWR_REQ (R344): Requests Run, Idle or Harebell; Run from Idle and Harebell exit are taken at once, the rest at the next step boundary. -/
  | pwrReq (v : Word)
  /-- IDLE_ENTRY (R345): The block enters Idle at a step boundary, powering down the layer engine. -/
  | idleEntry
  /-- HAREBELL_ENTRY (R347): At a step boundary the block ends debug, drains the buffer, signals not-ready, copies to the keeper, self-refreshes the devices and sets PSTATE 2. -/
  | harebellEntry
  /-- HAREBELL_EXIT (R352): Restores the core from the keeper, runs the checker test, retrains the PHY, loads remap entries and enters the requested state with no plan. -/
  | harebellExit (checker : Option CheckFail) (found : List TrainResult)
  /-- PC_CLR (R414): Sets every performance counter to zero. -/
  | pcClr (v : Word)
  /-- REGION_ENTRY_WRITE (R40): A write to a region-table entry is checked and accepted, or refused as a whole with REF_CODE. -/
  | regionEntryWrite (entry : BitVec 6) (word : BitVec 2) (v : Word)
  /-- INIT (R43): An enable with INIT = 1 writes tail sector 3 of every row of the region while INIT_PEND is set. -/
  | init (entry : BitVec 6)
  /-- INIT_DONE (R43): Initialization of a region ends, its INIT_PEND bit clears, and the entry becomes usable. -/
  | initDone (entry : BitVec 6)
  /-- REGULATOR_WRITE (R412): A write to a partition register or SRCMAP is checked against the whole set and accepted or refused with REG_CODE. -/
  | regulatorWrite (r : RegulatorReg) (v : Word)
  /-- PORT_FAIL_CLEAR (R211): Clearing PORT_FAIL returns the port to the rotations, or the bit sets again while the fabric still reports a failure. -/
  | portFailClear (v : Word)
  /-- THALT_CLEAR (R306): Clearing THALT at a step boundary resumes the tier channel; at other times it has no effect. -/
  | thaltClear (v : Word)
  /-- BRK_HIT_CLEAR (R362): Clearing BRK_HIT releases the GO held at the break step. -/
  | brkHitClear (v : Word)
  /-- PAIR_LO_READ (R402): A read of the _LO word of a block-written pair latches the other words for that port. -/
  | pairLoRead (off : Half)
  /-- REGISTER_WRITE (R400): A write to a register with no behaviour of its own acts on each field by its access code. -/
  | registerWrite (off : Half) (v : Word)
  /-- HOST_REGION_RD (R385): A control-port region read of 1 to 64 lines under the host class, checked as R420 gives. -/
  | hostRegionRd (region : BitVec 6) (offset : BitVec 42) (lines : Linked Nat)
  /-- HOST_REGION_WR (R385): A control-port region write under the host class, merged by the line code. -/
  | hostRegionWr (region : BitVec 6) (offset : BitVec 42) (data : Linked (List LineWrite))
  /-- DEBUG_REQUEST (R359): A debug-port register or region request, served within the limits of the debug level or refused with DBG_REFUSED. -/
  | debugRequest (req : DebugReq)
  /-- ENGINE_RD (R383): An engine reads 1 to 64 lines of a region, with a POISON bit per line. -/
  | engineRd (port : BitVec 3) (engine : BitVec 4) (region : BitVec 6) (offset : BitVec 42) (lines : Nat) (linkFails : Nat)
  /-- ENGINE_WR (R383): An engine writes 1 to 64 lines with byte masks, merged under R24. -/
  | engineWr (port : BitVec 3) (engine : BitVec 4) (region : BitVec 6) (offset : BitVec 42) (data : List LineWrite) (linkFails : Nat)
  /-- ENGINE_AADD (R260): An engine's atomic add, executed by the BSU or the CSU, optionally returning the old value. -/
  | engineAadd (port : BitVec 3) (engine : BitVec 4) (region : BitVec 6) (offset : BitVec 42) (form : BitVec 2) (operand : DWord) (ret : Bool)
  /-- KEND (R249): A kernel-end request completes once every earlier write of the engine is visible on the chip. -/
  | kend (port : BitVec 3) (engine : BitVec 4)
  /-- ENGINE_TOKEN_CREDIT (R384): The engines of a port take token credit back, letting the next token pass and freeing the held receive buffer. -/
  | engineTokenCredit (port : BitVec 3) (n : BitVec 7)
  /-- NOP (R192): Does nothing. -/
  | nop (p : Pred)
  /-- BR (R192): Branches to the target when its predicate holds. -/
  | br (p : Pred) (t : Word)
  /-- CALL (R192): Pushes the return index and jumps, trapping on stack overflow. -/
  | call (p : Pred) (t : Word)
  /-- RET (R192): Pops the return index, trapping on an empty stack. -/
  | ret (p : Pred)
  /-- JT (R192): Jumps into a table of n branches by a constant index. -/
  | jt (p : Pred) (ra : BitVec 4) (n : Word)
  /-- LOOP (R192): Decrements a constant count and branches while it is nonzero. -/
  | loop (p : Pred) (ra : BitVec 4) (t : Word)
  /-- STEPEND (R195): Waits for instances, moves, records, commit and layer work, checks the step conditions, and brings the step to its boundary. -/
  | stepend (p : Pred)
  /-- LI (R196): Loads a sign-extended immediate. -/
  | li (p : Pred) (rd : BitVec 4) (imm : Word)
  /-- LHI (R196): Sets the upper 32 bits of a register from the immediate. -/
  | lhi (p : Pred) (rd : BitVec 4) (imm : Word)
  /-- MOV (R196): Copies a scalar register. -/
  | mov (p : Pred) (rd : BitVec 4) (ra : BitVec 4)
  /-- ADD (R196): Adds modulo 2^64. -/
  | add (p : Pred) (rd : BitVec 4) (ra : BitVec 4) (rb : BitVec 4)
  /-- ADDI (R196): Adds a sign-extended immediate. -/
  | addi (p : Pred) (rd : BitVec 4) (ra : BitVec 4) (imm : Word)
  /-- SUB (R196): Subtracts modulo 2^64. -/
  | sub (p : Pred) (rd : BitVec 4) (ra : BitVec 4) (rb : BitVec 4)
  /-- MUL (R196): Multiplies, keeping the low 64 bits. -/
  | mul (p : Pred) (rd : BitVec 4) (ra : BitVec 4) (rb : BitVec 4)
  /-- AND (R196): Bitwise and. -/
  | and (p : Pred) (rd : BitVec 4) (ra : BitVec 4) (rb : BitVec 4)
  /-- OR (R196): Bitwise or. -/
  | or (p : Pred) (rd : BitVec 4) (ra : BitVec 4) (rb : BitVec 4)
  /-- XOR (R196): Bitwise exclusive or. -/
  | xor (p : Pred) (rd : BitVec 4) (ra : BitVec 4) (rb : BitVec 4)
  /-- SHL (R196): Logical shift left by a register count. -/
  | shl (p : Pred) (rd : BitVec 4) (ra : BitVec 4) (rb : BitVec 4)
  /-- SHR (R196): Logical shift right by a register count. -/
  | shr (p : Pred) (rd : BitVec 4) (ra : BitVec 4) (rb : BitVec 4)
  /-- SHLI (R196): Logical shift left by an immediate count. -/
  | shli (p : Pred) (rd : BitVec 4) (ra : BitVec 4) (imm : Word)
  /-- SHRI (R196): Logical shift right by an immediate count. -/
  | shri (p : Pred) (rd : BitVec 4) (ra : BitVec 4) (imm : Word)
  /-- CMPEQ (R196): Sets a predicate on equality. -/
  | cmpeq (p : Pred) (pd : BitVec 3) (ra : BitVec 4) (rb : BitVec 4)
  /-- CMPNE (R196): Sets a predicate on inequality. -/
  | cmpne (p : Pred) (pd : BitVec 3) (ra : BitVec 4) (rb : BitVec 4)
  /-- CMPLT (R196): Signed less-than compare. -/
  | cmplt (p : Pred) (pd : BitVec 3) (ra : BitVec 4) (rb : BitVec 4)
  /-- CMPLE (R196): Signed less-or-equal compare. -/
  | cmple (p : Pred) (pd : BitVec 3) (ra : BitVec 4) (rb : BitVec 4)
  /-- CMPLTU (R196): Unsigned less-than compare. -/
  | cmpltu (p : Pred) (pd : BitVec 3) (ra : BitVec 4) (rb : BitVec 4)
  /-- CMPLEU (R196): Unsigned less-or-equal compare. -/
  | cmpleu (p : Pred) (pd : BitVec 3) (ra : BitVec 4) (rb : BitVec 4)
  /-- CMPEQI (R196): Compares with a sign-extended immediate for equality. -/
  | cmpeqi (p : Pred) (pd : BitVec 3) (ra : BitVec 4) (imm : Word)
  /-- CMPLTUI (R196): Unsigned compare with a zero-extended immediate. -/
  | cmpltui (p : Pred) (pd : BitVec 3) (ra : BitVec 4) (imm : Word)
  /-- PAND (R196): Predicate and. -/
  | pand (p : Pred) (pd : BitVec 3) (pa : BitVec 3) (pb : BitVec 3)
  /-- POR (R196): Predicate or. -/
  | por (p : Pred) (pd : BitVec 3) (pa : BitVec 3) (pb : BitVec 3)
  /-- PNOT (R196): Predicate not. -/
  | pnot (p : Pred) (pd : BitVec 3) (pa : BitVec 3)
  /-- PMOV (R196): Moves a predicate into a scalar register as 0 or 1. -/
  | pmov (p : Pred) (rd : BitVec 4) (pa : BitVec 3)
  /-- RDK (R197): Reads a step constant by key. -/
  | rdk (p : Pred) (rd : BitVec 4) (key : Word)
  /-- VDIG (R196): Reads digit b of V. -/
  | vdig (p : Pred) (rd : BitVec 4) (b : Word)
  /-- LIA (R198): Loads a region and offset into an address register. -/
  | lia (p : Pred) (ad : BitVec 3) (imm : Word)
  /-- ADDAI (R198): Adds an immediate to an address offset. -/
  | addai (p : Pred) (ad : BitVec 3) (ar : BitVec 3) (imm : Word)
  /-- ADDA (R198): Adds a register to an address offset. -/
  | adda (p : Pred) (ad : BitVec 3) (ar : BitVec 3) (rb : BitVec 4)
  /-- SECT (R198): Points an address register at a section of the loaded image. -/
  | sect (p : Pred) (ad : BitVec 3) (typ : Word)
  /-- MOVA (R198): Copies an address register into a scalar register. -/
  | mova (p : Pred) (rd : BitVec 4) (ar : BitVec 3)
  /-- LD (R200): Loads from a region as data, returning 0 on an uncorrectable line. -/
  | ld (p : Pred) (rd : BitVec 4) (ar : BitVec 3) (sz : BitVec 2) (imm : Word)
  /-- LDC (R198): Loads a constant from a BW = 0 section, trapping on an uncorrectable line. -/
  | ldc (p : Pred) (rd : BitVec 4) (ar : BitVec 3) (sz : BitVec 2) (imm : Word)
  /-- ST (R199): Stores to an activation, spare or writable plan region. -/
  | st (p : Pred) (rs : BitVec 4) (ar : BitVec 3) (sz : BitVec 2) (imm : Word)
  /-- AADD (R200): Atomic 8 B integer add by the sequencer. -/
  | aadd (p : Pred) (rs : BitVec 4) (ar : BitVec 3) (imm : Word)
  /-- AADDF (R200): Atomic FP32 add by the sequencer, with flush set. -/
  | aaddf (p : Pred) (rs : BitVec 4) (ar : BitVec 3) (imm : Word)
  /-- RCR (R201): Reads a control register as data. -/
  | rcr (p : Pred) (rd : BitVec 4) (off : Word)
  /-- WCR (R201): Writes a program mailbox register. -/
  | wcr (p : Pred) (rs : BitVec 4) (off : Word)
  /-- OPEN (R203): Checks V and the pool demand, sends the local open record, and waits for the verdict. -/
  | openStep (p : Pred)
  /-- SEAL (R203): Waits for arrival to end, sends the local seal record, and waits for the verdict. -/
  | sealStep (p : Pred)
  /-- CSET (R204): Takes the step's instance list and checks the latched posts. -/
  | cset (p : Pred) (ar : BitVec 3) (n : Word)
  /-- COLL (R203): Begins collective instance q from its descriptor once R179 allows. -/
  | coll (p : Pred) (ar : BitVec 3) (q : Word)
  /-- COLL_BEGIN (R179): A waiting instance begins once lower q have begun, a group slot and an arrival place are free, and its post has arrived. -/
  | collBegin
  /-- CWAIT (R203): Waits until instance q has ended. -/
  | cwait (p : Pred) (q : Word)
  /-- COMMIT (R206): Starts the layer list and the commit list of the step. -/
  | commit (p : Pred)
  /-- CDONE (R188): Waits until every commit-list row is at rest and all layer work has been handed off or abandoned. -/
  | cdone (p : Pred)
  /-- BSUTAB (R206): Loads the seed table into every BSU of the devices named. -/
  | bsutab (p : Pred) (ra : BitVec 4) (ar : BitVec 3)
  /-- BSUST (R206): Reads the status word of one BSU as data. -/
  | bsust (p : Pred) (rd : BitVec 4) (ra : BitVec 4)
  /-- LWAIT (R206): Waits until every layer has DSTATE = 2 or has been abandoned. -/
  | lwait (p : Pred)
  /-- FCLR (R207): Clears the sticky reports named by kind. -/
  | fclr (p : Pred) (ra : BitVec 4) (kind : Word)
  /-- FRD (R207): Reads a group's flag bits as data. -/
  | frd (p : Pred) (rd : BitVec 4) (ra : BitVec 4)
  /-- TMOV (R208): Queues residency entries for the tier mover. -/
  | tmov (p : Pred) (ar : BitVec 3) (n : Word)
  /-- TWAIT (R208): Waits until every queued move has ended. -/
  | twait (p : Pred)
  /-- REC (R315): Arms record mode for the selected rows of the step. -/
  | recArm (p : Pred) (ar : BitVec 3) (n : Word)
  /-- HSH (R209): Computes the record digest of a memory range. -/
  | hsh (p : Pred) (rd : BitVec 4) (ar : BitVec 3) (len : Word)
  /-- ODIG (R209): Reads this block's counter digest. -/
  | odig (p : Pred) (rd : BitVec 4)
  /-- DMIX (R209): Computes the digest term t of two values. -/
  | dmix (p : Pred) (rd : BitVec 4) (ra : BitVec 4) (rb : BitVec 4)
  /-- ICACHE_FILL (R177): A missed code line arrives into an unlocked way or the bypass buffer, and issue resumes. -/
  | icacheFill
  /-- GREQ (R222): A grant request for a slot, answered by GRANT, DEFER or NACK within the bound. -/
  | greq (m : Msg)
  /-- MARK (R225): A zero-count marker closes its slot, is acknowledged, or is deferred. -/
  | mark (m : Msg)
  /-- GRANT (R215): A grant answer received for a request of this block. -/
  | grant (m : Msg)
  /-- DEFER (R215): A defer answer received, with its retry hint. -/
  | defer (m : Msg)
  /-- ACK (R215): An acknowledgement received for a MARK or a SKIP. -/
  | ack (m : Msg)
  /-- NACK (R422): A refusal received; it is counted in NACK_IN and may give up a destination. -/
  | nack (m : Msg)
  /-- CONTRIB (R224): A granted contribution is checked and placed in the arrival pool. -/
  | contrib (m : Msg)
  /-- CONTRIB_ADD (R63): A waiting contribution is added into its sector at its place in schedule order, closing its slot. -/
  | contribAdd (slot : Linked Word) (residueFaults : Nat)
  /-- SECTOR_CLOSE_READ (R64): When a sector's last slot in schedule order closed by a marker, the close read is issued once every slot has closed. -/
  | sectorCloseRead (sector : Nat)
  /-- SECTOR_SUMMARY_FOLD (R65): A sector summary is folded into FINITE and NORMSQ in sector-close order. -/
  | sectorSummaryFold
  /-- ARRIVAL_END (R66): Every slot and touched sector has closed; the block reads BSU status with CLR and sends its local seal record. -/
  | arrivalEnd
  /-- CHUNK (R239): A received chunk is written under the region's remote-write permission and its token passed on, or refused with BAD. -/
  | chunk (m : Msg)
  /-- TOKEN (R239): A chunk-ready token is passed to the engine ports in its ENGMASK. -/
  | token (m : Msg)
  /-- SKIP (R240): A skip notice is acknowledged and passed to the engine ports in its ENGMASK. -/
  | skip (m : Msg)
  /-- ECREQ (R237): A credit request, answered by ECRED when a receive buffer is free, or deferred. -/
  | ecreq (m : Msg)
  /-- ECRED (R237): A credit received lets one chunk and its token go to that destination. -/
  | ecred (m : Msg)
  /-- OPEN_UP (R232): A child's open record, combined with the others; the node posts upward once all have arrived. -/
  | openUp (m : Msg)
  /-- OPEN_DN (R57): The combined open record is forwarded to the children and evaluated into the verdict. -/
  | openDn (m : Msg)
  /-- SEAL_UP (R232): A child's seal record, combined as R67 gives. -/
  | sealUp (m : Msg)
  /-- SEAL_DN (R67): The combined seal record is forwarded and evaluated into commit or skip; NORMSQ is delivered. -/
  | sealDn (m : Msg)
  /-- CNT_UP (R228): A child's count record, summed field by field. -/
  | cntUp (m : Msg)
  /-- CNT_DN (R228): The combined count vector is written to the count area; CNT_DONE is set and PX_IRQ[3] raised. -/
  | cntDn (m : Msg)
  /-- RWR (R257): A remote write, applied in order and answered with RWACK. -/
  | rwr (m : Linked Msg)
  /-- RRD (R257): A remote read, answered with RRSP or RWACK. -/
  | rrd (m : Linked Msg)
  /-- RRSP (R242): A read response received for a remote read of this block. -/
  | rrsp (m : Msg)
  /-- RWACK (R242): A remote write acknowledgement or status received. -/
  | rwack (m : Msg)
  /-- SCHEDULE_EVAL (R137): The schedule engine evaluates the variant's curves during arrival, and eta, eta_wd and eta_ds are computed. -/
  | scheduleEval
  /-- COMMIT_ENTRY_START (R283): A commit-list entry in the start window starts once its pair, timing, constants and moves allow it. -/
  | commitEntryStart (entry : Linked Nat)
  /-- CSU_PASS (R288): The controller-side unit executes a pass through ordinary row accesses in phase batches. -/
  | csuPass (entry : Nat) (phases : Nat)
  /-- SEQ_BOUND_END (R279): At a sequence's bound the block reads its result with STRD and folds it, or logs an overrun. -/
  | seqBoundEnd (d : BitVec 5) (c : BitVec 2) (k : BitVec 3) (busy : Bool)
  /-- RESULT_REREAD (R279): Every 40 ns after an overrun the result is read again until it is no longer BUSY. -/
  | resultReread (d : BitVec 5) (c : BitVec 2) (k : BitVec 3) (busy : Bool)
  /-- TRUST_RATIO (R123): After a group's last scan the trust ratio and eta_trust are computed. -/
  | trustRatio (group : Half)
  /-- LAYER_WORK_START (R154): The layer engine takes the next touched layer: reads gradients, updates factors, refreshes roots and forms the direction. -/
  | layerWorkStart
  /-- DIRECTION_COMPLETE (R155): The direction is complete in scratch; DSTATE = 1 and DSTEP are written, selectors flip, and the copy into the sectors starts. -/
  | directionComplete
  /-- DIRECTION_COPY_DONE (R155): The copy into the sectors ends, DSTATE = 2 is written, and the apply-direction rows may start. -/
  | directionCopyDone
  /-- REDUCTION_RELEASE (R70): After every row of a reduction row is at rest, its tail sector 3 is rewritten with the VALID bits clear. -/
  | reductionRelease (row : Nat)
  /-- CHUNK_READ (R238): An eligible chunk is read once into a send buffer by long-burst reads. -/
  | chunkRead (q : Half)
  /-- CHUNK_SEND (R238): A chunk and its token go to a destination holding credit, in list order. -/
  | chunkSend (q : Half) (dest : Half)
  /-- SKIP_NOTICE_SEND (R240): Under skip, an emission instance sends a notice in place of each chunk, in list order. -/
  | skipNoticeSend (q : Half) (dest : Half)
  /-- STEP_BOUNDARY (R73): Once rows, tokens or notices, moves and records have ended, S and G advance, ODIG and the conversion fields update, and boundary actions are taken. -/
  | stepBoundary
  /-- REMAP_APPLY (R326): A lasting line is moved into the lowest free remap slot, and the record, controller, BSU and REMAP flag are updated. -/
  | remapApply
  /-- TABLE_RELOAD (R339): At a boundary the block reloads a BSU group's seed table and remap entries. -/
  | tableReload
  /-- MOVE_IN_START (R300): An IN entry's turn comes: its journal entry is written, or a bad entry is skipped into TBADENT. -/
  | moveInStart
  /-- MOVE_IN_ROW (R300): A far row is read, re-coded under its near tag and written with FAR clear. -/
  | moveInRow
  /-- MOVE_OUT (R301): A moved-in row's move-out starts when it becomes due, writing the far image if the row was committed. -/
  | moveOut
  /-- MOVE_OUT_DONE (R301): A move-out's far writes complete; FAR is set in the near row and the journal entry closes after the IN's last row. -/
  | moveOutDone
  /-- COPY_MOVE (R302): A COPY entry moves row-unit data between a region and the tier window. -/
  | copyMove
  /-- TIER_READ_COMPLETION (R300): A CXL MemRd completion returns far data. -/
  | tierReadCompletion (slot : Word) (line : BitVec 5) (data : Line) (poison : Bool) (error : Bool)
  /-- TIER_WRITE_COMPLETION (R295): A CXL MemWr completion marks the far write as done. -/
  | tierWriteCompletion (slot : Word) (error : Bool)
  /-- RECORD_WRITE (R316): Before an armed row's first entry starts, its record is written. -/
  | recordWrite (entry : Nat)
  /-- YARROW_RESOLVE_COMMIT (R333): Yarrow restores units, recomputes constants, reruns scans, layers and moves, and resolves each row by phase and epoch. -/
  | yarrowResolveCommit
  /-- YARROW_REEMIT (R334): After entering Run, the resolved step's emission is sent again before GO is accepted. -/
  | yarrowReemit
  /-- SCRUB_ROW (R322): When a channel is idle the scrubber reads one row, rewriting corrected lines and recording the lap. -/
  | scrubRow (d : BitVec 5)
  /-- STALL_LIMIT_PASSED (R76): A watched wait passes STALL_LIMIT; STALLED is set and a step event raised, and the wait continues. -/
  | stallLimitPassed (w : Watch)
  /-- REGULATOR_WINDOW (R410): A new 1 µs regulator window starts with a fresh budget and the pending settings. -/
  | regulatorWindow
  /-- TEMP_READING (R281): A device temperature reading takes or releases the thermal steps. -/
  | tempReading (d : BitVec 5) (celsius : Byte)
  /-- REFRESH_DUE (R287): A per-bank refresh falls due and is issued, or postponed behind a sequence. -/
  | refreshDue (d : BitVec 5) (c : BitVec 2) (b : BitVec 4)
  /-- CHANNEL_RETRAIN (R293): Every 64 ms the PHY retrains one channel to track drift. -/
  | channelRetrain (d : BitVec 5) (c : BitVec 2)
  /-- TICK_CHECK (R387): Over each 1,000 reference periods the tick is measured, and TICK_OK is set or cleared with PX_IRQ[0]. -/
  | tickCheck (advance : Nat)
  /-- HB_TEMP_SAMPLE (R351): Every 1 ms in Harebell the keeper samples the core-die temperature and may set HB_THERM. -/
  | hbTempSample (celsius : Byte)
  /-- ACTP (R271): Activate-pair opens rows of a bank pair and starts a sequence. -/
  | actp (d : BitVec 5) (c : BitVec 2) (w : BitVec 48)
  /-- ACCW (R275): Accumulate-write adds 160 values into a reduction sector, returning the sums on close. -/
  | accw (d : BitVec 5) (c : BitVec 2) (w : BitVec 48) (data : Linked (List Byte)) (residueFaults : Nat)
  /-- CMTR (R274): Commit-row executes a single or apply pass of a state row in a BSU. -/
  | cmtr (d : BitVec 5) (c : BitVec 2) (w : BitVec 48) (consts : Line) (row : Line) (linkFails : Nat)
  /-- SCNR (R274): Scan-row executes a scan pass and returns the row partials. -/
  | scnr (d : BitVec 5) (c : BitVec 2) (w : BitVec 48) (consts : Line) (row : Line) (linkFails : Nat)
  /-- ATAD (R270): BSU atomic add into one word of a line. -/
  | atad (d : BitVec 5) (c : BitVec 2) (w : BitVec 48) (operand : Linked DWord)
  /-- TBLD (R270): Loads the seed table or a bank's remap entries into a BSU. -/
  | tbld (d : BitVec 5) (c : BitVec 2) (w : BitVec 48) (data : Linked (List Byte))
  /-- BIST (R376): Runs a BSU self-test, or with READ = 1 returns its signature. -/
  | bist (d : BitVec 5) (c : BitVec 2) (w : BitVec 48) (sig : Word)
  /-- STRD (R277): Reads a BSU's status, result or identity, optionally clearing the sticky bits. -/
  | strd (d : BitVec 5) (c : BitVec 2) (w : BitVec 48)
  /-- POWER_ON (R394): Power-on clears the keeper and starts bring-up when PX_RST_N rises. -/
  | powerOn
  /-- COLD_RESET (R394): PX_RST_N low clears the keeper and every register, ends the step, and puts the devices into self-refresh. -/
  | coldReset
  /-- WARM_RESET (R394): PX_WRST_N low resets the core while keeping the keeper items. -/
  | warmReset
  /-- VCORE_GOOD_LOSS (R394): PX_VCORE_GOOD low outside Harebell acts as a warm reset. -/
  | vcoreGoodLoss
  /-- VKEEP_GOOD_LOSS (R394): PX_VKEEP_GOOD low loses the keeper and acts as power-on. -/
  | vkeepGoodLoss
  /-- VPHY_GOOD_LOSS (R394): PX_VPHY_GOOD low outside Harebell acts as PX_RST_N low. -/
  | vphyGoodLoss
  /-- KEEPER_SELF_REFRESH (R394): 400 ns after a reset the keeper puts every powered device into self-refresh. -/
  | keeperSelfRefresh
  /-- RESET_RELEASE (R396): Release of reset starts bring-up: the fuses and keeper are read and the checker test runs. -/
  | resetRelease (memkept : Bool) (checker : Option CheckFail)
  /-- DEVICE_SETUP (R396): Loads the remap records and, with ZPEND set, completes the advance to Spent, then enters stage 4. -/
  | deviceSetup
  /-- ENTER_RUN (R397): Once LSTATE, BOUND, TICK_OK, YSTATE and TUP allow it, the block moves from stage 6 to Run. -/
  | enterRun
  /-- TOPO_DIGEST (R386): A digest is taken on a rising edge of PX_TOPO_VLD; before Run it is bound at once. -/
  | topoDigest (digest : DWord)
  /-- PORT_FAILED (R211): The fabric declares a port failed; PORT_FAIL is set and the port leaves the rotations. -/
  | portFailed (port : BitVec 3)
  /-- ROT_ANSWER (R388): The root of trust answers a plan-mark, debug or lifecycle request carrying the current tag. -/
  | rotAnswer (tag : Byte) (accept : Bool)
  deriving DecidableEq, Repr

end Sys2Proof
end

