-- ==== Sys2Proof/WellFormed.lean ====
section
/-! DEFINITION. Which commands are well formed: the conditions on a single Sarenina instruction (R186, R187, R196, R197,
R201, R207, R209), the action bit of a register write that starts an action (R400), and the lengths of lists. -/

namespace Sys2Proof

/-- R186: PR = 0 with PN = 1 is refused at load. -/
def Pred.wf (p : Pred) : Bool := !(p.pr == 0 && p.pn)

/-- A message's payload has the length its header gives (R214). -/
def Msg.wf (m : Msg) : Bool := m.payload.length == m.hdr.len.toNat

/-- The commands that can arise; for Sarenina, those that load stage 5 accepts one by one (R187). -/
def Instr.wf : Instr → Bool
  | .go v | .sgSet v | .cntGo v | .train v | .holdClr v | .mapoutGo v | .ygo v | .rmWrite v | .stGo v | .xgo v | .rgo v
  | .zgo v => v.getLsbD 31
  | .load v => v.getLsbD 31 && !v.getLsbD 30
  | .swap v => v.getLsbD 31 && v.getLsbD 30
  | .cloverGo v | .tabldGo v | .ximp v | .pcClr v => v.getLsbD 30
  | .lcAdv v => v.getLsbD 27
  | .thaltClear v => v.getLsbD 29
  | .brkHitClear v => v.getLsbD 30
  | .trainingDone found | .harebellExit _ found => found.length == 24
  | .greq m | .mark m | .grant m | .defer m | .ack m | .nack m | .contrib m | .chunk m | .token m | .skip m | .ecreq m
  | .ecred m | .openUp m | .openDn m | .sealUp m | .sealDn m | .cntUp m | .cntDn m | .rrsp m | .rwack m => m.wf
  | .rwr m | .rrd m => m.val.wf
  | .accw _ _ w data _ => data.val.length == (if w.getLsbD 36 then 640 else 320)
  | .tbld _ _ w data => data.val.length == (if w.getLsbD 38 then 32 else 512)
  | .csuPass _ phases => phases == 1 || phases == 2 || phases == 3
  | .nop p | .ret p | .stepend p | .openStep p | .sealStep p | .commit p | .cdone p | .lwait p | .twait p => p.wf
  | .br p _ | .call p _ | .loop p _ _ => p.wf
  | .jt p _ n => p.wf && decide (1 ≤ n.toNat ∧ n.toNat ≤ 4096)
  | .li p _ _ | .lhi p _ _ | .mov p _ _ | .pnot p _ _ | .pmov p _ _ | .lia p _ _ | .mova p _ _ | .bsust p _ _ | .frd p _ _
  | .odig p _ | .bsutab p _ _ => p.wf
  | .add p _ _ _ | .addi p _ _ _ | .sub p _ _ _ | .mul p _ _ _ | .and p _ _ _ | .or p _ _ _ | .xor p _ _ _ | .shl p _ _ _
  | .shr p _ _ _ | .cmpeq p _ _ _ | .cmpne p _ _ _ | .cmplt p _ _ _ | .cmple p _ _ _ | .cmpltu p _ _ _ | .cmpleu p _ _ _
  | .cmpeqi p _ _ _ | .cmpltui p _ _ _ | .pand p _ _ _ | .por p _ _ _ | .addai p _ _ _ | .adda p _ _ _ | .aadd p _ _ _
  | .aaddf p _ _ _ | .dmix p _ _ _ => p.wf
  | .shli p _ _ n | .shri p _ _ n => p.wf && decide (n.toNat < 64)
  | .rdk p _ key => p.wf && decide (key.toNat ≤ 11)
  | .vdig p _ b => p.wf && decide (b.toNat < 24)
  | .sect p _ typ => p.wf && decide (1 ≤ typ.toNat ∧ typ.toNat ≤ 0x14)
  | .ld p _ _ _ _ | .ldc p _ _ _ _ | .st p _ _ _ _ => p.wf
  | .rcr p _ off => p.wf && decide (off.toNat % 4 = 0 ∧ off.toNat < 0x10000)
  | .wcr p _ off => p.wf && decide (off.toNat % 4 = 0 ∧ 0x08C0 ≤ off.toNat ∧ off.toNat ≤ 0x08FC)
  | .cset p _ _ | .coll p _ _ | .cwait p _ | .tmov p _ _ | .recArm p _ _ => p.wf
  | .fclr p ra kind => p.wf && decide (kind.toNat ≤ 5) && (kind.toNat % 2 == 0 || ra == 0)
  | .hsh p _ _ len => p.wf && decide (len.toNat ≠ 0 ∧ len.toNat % 64 = 0)
  | .loadVerifyDone | .swapTakeEffect | .collPost _ | .channelMapout | .selfTestStart | .selfTestDone _ | .exportRun
  | .importRun | .replayRun | .zeroizeRun _ | .zeroizeDone | .dbgReq _ | .pwrReq _ | .idleEntry | .harebellEntry
  | .regionEntryWrite _ _ _ | .init _ | .initDone _ | .regulatorWrite _ _ | .portFailClear _ | .pairLoRead _
  | .registerWrite _ _ | .hostRegionRd _ _ _ | .hostRegionWr _ _ _ | .debugRequest _ | .engineRd _ _ _ _ _ _
  | .engineWr _ _ _ _ _ _ | .engineAadd _ _ _ _ _ _ _ | .kend _ _ | .engineTokenCredit _ _ | .collBegin | .icacheFill
  | .contribAdd _ _ | .sectorCloseRead _ | .sectorSummaryFold | .arrivalEnd | .scheduleEval | .commitEntryStart _
  | .seqBoundEnd _ _ _ _ | .resultReread _ _ _ _ | .trustRatio _ | .layerWorkStart | .directionComplete
  | .directionCopyDone | .reductionRelease _ | .chunkRead _ | .chunkSend _ _ | .skipNoticeSend _ _ | .stepBoundary
  | .remapApply | .tableReload | .moveInStart | .moveInRow | .moveOut | .moveOutDone | .copyMove
  | .tierReadCompletion _ _ _ _ _ | .tierWriteCompletion _ _ | .recordWrite _ | .yarrowResolveCommit | .yarrowReemit
  | .scrubRow _ | .stallLimitPassed _ | .regulatorWindow | .tempReading _ _ | .refreshDue _ _ _ | .channelRetrain _ _
  | .tickCheck _ | .hbTempSample _ | .actp _ _ _ | .cmtr _ _ _ _ _ _ | .scnr _ _ _ _ _ _ | .atad _ _ _ _ | .bist _ _ _ _
  | .strd _ _ _ | .powerOn | .coldReset | .warmReset | .vcoreGoodLoss | .vkeepGoodLoss | .vphyGoodLoss
  | .keeperSelfRefresh | .resetRelease _ _ | .deviceSetup | .enterRun | .topoDigest _ | .portFailed _
  | .rotAnswer _ _ => true

end Sys2Proof
end

