-- ==== Sys2Proof/Decode.lean ====
section
/-! DEFINITION. The words of the block's commands. No row of spec/opcode_table.json gives bits, so `decodeTableWord`
reads none. The Sarenina instructions that the sequencer issues have 64-bit words of their own (R185): `sarEncode` writes
them and `sarDecode` reads them, refusing what load stage 5 refuses of a single word (R187). -/

namespace Sys2Proof

/-- The command that a word spells by the bits of the opcode table: the table gives bits for no row (log entry 13). -/
def decodeTableWord (_nbits _w : Nat) : Option Instr := none

/-- The instruction word of R185: OPC [63:56], PN [55], PR [54:52], RD [51:48], RA [47:44], RB [43:40], AR [39:37],
SZ [36:35], zero [34:32], IMM [31:0]. -/
def sarWord (opc : Byte) (p : Pred) (rd ra rb : BitVec 4) (ar : BitVec 3) (sz : BitVec 2) (imm : Word) : DWord :=
  opc ++ (BitVec.ofBool p.pn ++ (p.pr ++ (rd ++ (ra ++ (rb ++ (ar ++ (sz ++ ((0 : BitVec 3) ++ imm))))))))

/-- The word of a Sarenina instruction; none for a command that is no instruction. Opcodes of R192, R196, R198, R201,
R203, R206 to R209. -/
def sarEncode (i : Instr) : Option DWord :=
  match i with
  | .nop p => some (sarWord 0x00 p 0 0 0 0 0 0)
  | .br p t => some (sarWord 0x01 p 0 0 0 0 0 t)
  | .call p t => some (sarWord 0x02 p 0 0 0 0 0 t)
  | .ret p => some (sarWord 0x03 p 0 0 0 0 0 0)
  | .jt p ra n => some (sarWord 0x04 p 0 ra 0 0 0 n)
  | .loop p ra t => some (sarWord 0x05 p 0 ra 0 0 0 t)
  | .stepend p => some (sarWord 0x06 p 0 0 0 0 0 0)
  | .li p rd imm => some (sarWord 0x10 p rd 0 0 0 0 imm)
  | .lhi p rd imm => some (sarWord 0x11 p rd 0 0 0 0 imm)
  | .mov p rd ra => some (sarWord 0x12 p rd ra 0 0 0 0)
  | .add p rd ra rb => some (sarWord 0x13 p rd ra rb 0 0 0)
  | .addi p rd ra imm => some (sarWord 0x14 p rd ra 0 0 0 imm)
  | .sub p rd ra rb => some (sarWord 0x15 p rd ra rb 0 0 0)
  | .mul p rd ra rb => some (sarWord 0x16 p rd ra rb 0 0 0)
  | .and p rd ra rb => some (sarWord 0x17 p rd ra rb 0 0 0)
  | .or p rd ra rb => some (sarWord 0x18 p rd ra rb 0 0 0)
  | .xor p rd ra rb => some (sarWord 0x19 p rd ra rb 0 0 0)
  | .shl p rd ra rb => some (sarWord 0x1A p rd ra rb 0 0 0)
  | .shr p rd ra rb => some (sarWord 0x1B p rd ra rb 0 0 0)
  | .shli p rd ra imm => some (sarWord 0x1C p rd ra 0 0 0 imm)
  | .shri p rd ra imm => some (sarWord 0x1D p rd ra 0 0 0 imm)
  | .cmpeq p pd ra rb => some (sarWord 0x20 p (pd.setWidth 4) ra rb 0 0 0)
  | .cmpne p pd ra rb => some (sarWord 0x21 p (pd.setWidth 4) ra rb 0 0 0)
  | .cmplt p pd ra rb => some (sarWord 0x22 p (pd.setWidth 4) ra rb 0 0 0)
  | .cmpltu p pd ra rb => some (sarWord 0x23 p (pd.setWidth 4) ra rb 0 0 0)
  | .cmple p pd ra rb => some (sarWord 0x24 p (pd.setWidth 4) ra rb 0 0 0)
  | .cmpleu p pd ra rb => some (sarWord 0x25 p (pd.setWidth 4) ra rb 0 0 0)
  | .cmpeqi p pd ra imm => some (sarWord 0x26 p (pd.setWidth 4) ra 0 0 0 imm)
  | .cmpltui p pd ra imm => some (sarWord 0x27 p (pd.setWidth 4) ra 0 0 0 imm)
  | .pand p pd pa pb => some (sarWord 0x28 p (pd.setWidth 4) (pa.setWidth 4) (pb.setWidth 4) 0 0 0)
  | .por p pd pa pb => some (sarWord 0x29 p (pd.setWidth 4) (pa.setWidth 4) (pb.setWidth 4) 0 0 0)
  | .pnot p pd pa => some (sarWord 0x2A p (pd.setWidth 4) (pa.setWidth 4) 0 0 0 0)
  | .pmov p rd pa => some (sarWord 0x2B p rd (pa.setWidth 4) 0 0 0 0)
  | .rdk p rd key => some (sarWord 0x30 p rd 0 0 0 0 key)
  | .vdig p rd b => some (sarWord 0x31 p rd 0 0 0 0 b)
  | .lia p ad imm => some (sarWord 0x38 p (ad.setWidth 4) 0 0 0 0 imm)
  | .addai p ad ar imm => some (sarWord 0x39 p (ad.setWidth 4) 0 0 ar 0 imm)
  | .adda p ad ar rb => some (sarWord 0x3A p (ad.setWidth 4) 0 rb ar 0 0)
  | .sect p ad typ => some (sarWord 0x3B p (ad.setWidth 4) 0 0 0 0 typ)
  | .mova p rd ar => some (sarWord 0x3C p rd 0 0 ar 0 0)
  | .ld p rd ar sz imm => some (sarWord 0x40 p rd 0 0 ar sz imm)
  | .ldc p rd ar sz imm => some (sarWord 0x41 p rd 0 0 ar sz imm)
  | .st p rs ar sz imm => some (sarWord 0x42 p rs 0 0 ar sz imm)
  | .aadd p rs ar imm => some (sarWord 0x43 p rs 0 0 ar 0 imm)
  | .aaddf p rs ar imm => some (sarWord 0x44 p rs 0 0 ar 0 imm)
  | .rcr p rd off => some (sarWord 0x48 p rd 0 0 0 0 off)
  | .wcr p rs off => some (sarWord 0x49 p rs 0 0 0 0 off)
  | .openStep p => some (sarWord 0x50 p 0 0 0 0 0 0)
  | .sealStep p => some (sarWord 0x51 p 0 0 0 0 0 0)
  | .cset p ar n => some (sarWord 0x52 p 0 0 0 ar 0 n)
  | .coll p ar q => some (sarWord 0x53 p 0 0 0 ar 0 q)
  | .cwait p q => some (sarWord 0x54 p 0 0 0 0 0 q)
  | .commit p => some (sarWord 0x60 p 0 0 0 0 0 0)
  | .cdone p => some (sarWord 0x61 p 0 0 0 0 0 0)
  | .bsutab p ra ar => some (sarWord 0x62 p 0 ra 0 ar 0 0)
  | .bsust p rd ra => some (sarWord 0x63 p rd ra 0 0 0 0)
  | .lwait p => some (sarWord 0x68 p 0 0 0 0 0 0)
  | .fclr p ra kind => some (sarWord 0x70 p 0 ra 0 0 0 kind)
  | .frd p rd ra => some (sarWord 0x71 p rd ra 0 0 0 0)
  | .tmov p ar n => some (sarWord 0x78 p 0 0 0 ar 0 n)
  | .twait p => some (sarWord 0x79 p 0 0 0 0 0 0)
  | .recArm p ar n => some (sarWord 0x7A p 0 0 0 ar 0 n)
  | .hsh p rd ar len => some (sarWord 0x7C p rd 0 0 ar 0 len)
  | .odig p rd => some (sarWord 0x7D p rd 0 0 0 0 0)
  | .dmix p rd ra rb => some (sarWord 0x7E p rd ra rb 0 0 0)
  | _ => none

/-- The instruction that a word's opcode names, its fields cut out of the word. -/
def sarCandidate (w : DWord) : Option Instr :=
  match (w.extractLsb' 56 8).toNat with
  | 0x00 => some (.nop ⟨w.getLsbD 55, w.extractLsb' 52 3⟩)
  | 0x01 => some (.br ⟨w.getLsbD 55, w.extractLsb' 52 3⟩ (w.extractLsb' 0 32))
  | 0x02 => some (.call ⟨w.getLsbD 55, w.extractLsb' 52 3⟩ (w.extractLsb' 0 32))
  | 0x03 => some (.ret ⟨w.getLsbD 55, w.extractLsb' 52 3⟩)
  | 0x04 => some (.jt ⟨w.getLsbD 55, w.extractLsb' 52 3⟩ (w.extractLsb' 44 4) (w.extractLsb' 0 32))
  | 0x05 => some (.loop ⟨w.getLsbD 55, w.extractLsb' 52 3⟩ (w.extractLsb' 44 4) (w.extractLsb' 0 32))
  | 0x06 => some (.stepend ⟨w.getLsbD 55, w.extractLsb' 52 3⟩)
  | 0x10 => some (.li ⟨w.getLsbD 55, w.extractLsb' 52 3⟩ (w.extractLsb' 48 4) (w.extractLsb' 0 32))
  | 0x11 => some (.lhi ⟨w.getLsbD 55, w.extractLsb' 52 3⟩ (w.extractLsb' 48 4) (w.extractLsb' 0 32))
  | 0x12 => some (.mov ⟨w.getLsbD 55, w.extractLsb' 52 3⟩ (w.extractLsb' 48 4) (w.extractLsb' 44 4))
  | 0x13 => some (.add ⟨w.getLsbD 55, w.extractLsb' 52 3⟩ (w.extractLsb' 48 4) (w.extractLsb' 44 4) (w.extractLsb' 40 4))
  | 0x14 => some (.addi ⟨w.getLsbD 55, w.extractLsb' 52 3⟩ (w.extractLsb' 48 4) (w.extractLsb' 44 4) (w.extractLsb' 0 32))
  | 0x15 => some (.sub ⟨w.getLsbD 55, w.extractLsb' 52 3⟩ (w.extractLsb' 48 4) (w.extractLsb' 44 4) (w.extractLsb' 40 4))
  | 0x16 => some (.mul ⟨w.getLsbD 55, w.extractLsb' 52 3⟩ (w.extractLsb' 48 4) (w.extractLsb' 44 4) (w.extractLsb' 40 4))
  | 0x17 => some (.and ⟨w.getLsbD 55, w.extractLsb' 52 3⟩ (w.extractLsb' 48 4) (w.extractLsb' 44 4) (w.extractLsb' 40 4))
  | 0x18 => some (.or ⟨w.getLsbD 55, w.extractLsb' 52 3⟩ (w.extractLsb' 48 4) (w.extractLsb' 44 4) (w.extractLsb' 40 4))
  | 0x19 => some (.xor ⟨w.getLsbD 55, w.extractLsb' 52 3⟩ (w.extractLsb' 48 4) (w.extractLsb' 44 4) (w.extractLsb' 40 4))
  | 0x1A => some (.shl ⟨w.getLsbD 55, w.extractLsb' 52 3⟩ (w.extractLsb' 48 4) (w.extractLsb' 44 4) (w.extractLsb' 40 4))
  | 0x1B => some (.shr ⟨w.getLsbD 55, w.extractLsb' 52 3⟩ (w.extractLsb' 48 4) (w.extractLsb' 44 4) (w.extractLsb' 40 4))
  | 0x1C => some (.shli ⟨w.getLsbD 55, w.extractLsb' 52 3⟩ (w.extractLsb' 48 4) (w.extractLsb' 44 4) (w.extractLsb' 0 32))
  | 0x1D => some (.shri ⟨w.getLsbD 55, w.extractLsb' 52 3⟩ (w.extractLsb' 48 4) (w.extractLsb' 44 4) (w.extractLsb' 0 32))
  | 0x20 => some (.cmpeq ⟨w.getLsbD 55, w.extractLsb' 52 3⟩ (w.extractLsb' 48 3) (w.extractLsb' 44 4) (w.extractLsb' 40 4))
  | 0x21 => some (.cmpne ⟨w.getLsbD 55, w.extractLsb' 52 3⟩ (w.extractLsb' 48 3) (w.extractLsb' 44 4) (w.extractLsb' 40 4))
  | 0x22 => some (.cmplt ⟨w.getLsbD 55, w.extractLsb' 52 3⟩ (w.extractLsb' 48 3) (w.extractLsb' 44 4) (w.extractLsb' 40 4))
  | 0x23 => some (.cmpltu ⟨w.getLsbD 55, w.extractLsb' 52 3⟩ (w.extractLsb' 48 3) (w.extractLsb' 44 4) (w.extractLsb' 40 4))
  | 0x24 => some (.cmple ⟨w.getLsbD 55, w.extractLsb' 52 3⟩ (w.extractLsb' 48 3) (w.extractLsb' 44 4) (w.extractLsb' 40 4))
  | 0x25 => some (.cmpleu ⟨w.getLsbD 55, w.extractLsb' 52 3⟩ (w.extractLsb' 48 3) (w.extractLsb' 44 4) (w.extractLsb' 40 4))
  | 0x26 => some (.cmpeqi ⟨w.getLsbD 55, w.extractLsb' 52 3⟩ (w.extractLsb' 48 3) (w.extractLsb' 44 4) (w.extractLsb' 0 32))
  | 0x27 => some (.cmpltui ⟨w.getLsbD 55, w.extractLsb' 52 3⟩ (w.extractLsb' 48 3) (w.extractLsb' 44 4) (w.extractLsb' 0 32))
  | 0x28 => some (.pand ⟨w.getLsbD 55, w.extractLsb' 52 3⟩ (w.extractLsb' 48 3) (w.extractLsb' 44 3) (w.extractLsb' 40 3))
  | 0x29 => some (.por ⟨w.getLsbD 55, w.extractLsb' 52 3⟩ (w.extractLsb' 48 3) (w.extractLsb' 44 3) (w.extractLsb' 40 3))
  | 0x2A => some (.pnot ⟨w.getLsbD 55, w.extractLsb' 52 3⟩ (w.extractLsb' 48 3) (w.extractLsb' 44 3))
  | 0x2B => some (.pmov ⟨w.getLsbD 55, w.extractLsb' 52 3⟩ (w.extractLsb' 48 4) (w.extractLsb' 44 3))
  | 0x30 => some (.rdk ⟨w.getLsbD 55, w.extractLsb' 52 3⟩ (w.extractLsb' 48 4) (w.extractLsb' 0 32))
  | 0x31 => some (.vdig ⟨w.getLsbD 55, w.extractLsb' 52 3⟩ (w.extractLsb' 48 4) (w.extractLsb' 0 32))
  | 0x38 => some (.lia ⟨w.getLsbD 55, w.extractLsb' 52 3⟩ (w.extractLsb' 48 3) (w.extractLsb' 0 32))
  | 0x39 => some (.addai ⟨w.getLsbD 55, w.extractLsb' 52 3⟩ (w.extractLsb' 48 3) (w.extractLsb' 37 3) (w.extractLsb' 0 32))
  | 0x3A => some (.adda ⟨w.getLsbD 55, w.extractLsb' 52 3⟩ (w.extractLsb' 48 3) (w.extractLsb' 37 3) (w.extractLsb' 40 4))
  | 0x3B => some (.sect ⟨w.getLsbD 55, w.extractLsb' 52 3⟩ (w.extractLsb' 48 3) (w.extractLsb' 0 32))
  | 0x3C => some (.mova ⟨w.getLsbD 55, w.extractLsb' 52 3⟩ (w.extractLsb' 48 4) (w.extractLsb' 37 3))
  | 0x40 => some (.ld ⟨w.getLsbD 55, w.extractLsb' 52 3⟩ (w.extractLsb' 48 4) (w.extractLsb' 37 3) (w.extractLsb' 35 2) (w.extractLsb' 0 32))
  | 0x41 => some (.ldc ⟨w.getLsbD 55, w.extractLsb' 52 3⟩ (w.extractLsb' 48 4) (w.extractLsb' 37 3) (w.extractLsb' 35 2) (w.extractLsb' 0 32))
  | 0x42 => some (.st ⟨w.getLsbD 55, w.extractLsb' 52 3⟩ (w.extractLsb' 48 4) (w.extractLsb' 37 3) (w.extractLsb' 35 2) (w.extractLsb' 0 32))
  | 0x43 => some (.aadd ⟨w.getLsbD 55, w.extractLsb' 52 3⟩ (w.extractLsb' 48 4) (w.extractLsb' 37 3) (w.extractLsb' 0 32))
  | 0x44 => some (.aaddf ⟨w.getLsbD 55, w.extractLsb' 52 3⟩ (w.extractLsb' 48 4) (w.extractLsb' 37 3) (w.extractLsb' 0 32))
  | 0x48 => some (.rcr ⟨w.getLsbD 55, w.extractLsb' 52 3⟩ (w.extractLsb' 48 4) (w.extractLsb' 0 32))
  | 0x49 => some (.wcr ⟨w.getLsbD 55, w.extractLsb' 52 3⟩ (w.extractLsb' 48 4) (w.extractLsb' 0 32))
  | 0x50 => some (.openStep ⟨w.getLsbD 55, w.extractLsb' 52 3⟩)
  | 0x51 => some (.sealStep ⟨w.getLsbD 55, w.extractLsb' 52 3⟩)
  | 0x52 => some (.cset ⟨w.getLsbD 55, w.extractLsb' 52 3⟩ (w.extractLsb' 37 3) (w.extractLsb' 0 32))
  | 0x53 => some (.coll ⟨w.getLsbD 55, w.extractLsb' 52 3⟩ (w.extractLsb' 37 3) (w.extractLsb' 0 32))
  | 0x54 => some (.cwait ⟨w.getLsbD 55, w.extractLsb' 52 3⟩ (w.extractLsb' 0 32))
  | 0x60 => some (.commit ⟨w.getLsbD 55, w.extractLsb' 52 3⟩)
  | 0x61 => some (.cdone ⟨w.getLsbD 55, w.extractLsb' 52 3⟩)
  | 0x62 => some (.bsutab ⟨w.getLsbD 55, w.extractLsb' 52 3⟩ (w.extractLsb' 44 4) (w.extractLsb' 37 3))
  | 0x63 => some (.bsust ⟨w.getLsbD 55, w.extractLsb' 52 3⟩ (w.extractLsb' 48 4) (w.extractLsb' 44 4))
  | 0x68 => some (.lwait ⟨w.getLsbD 55, w.extractLsb' 52 3⟩)
  | 0x70 => some (.fclr ⟨w.getLsbD 55, w.extractLsb' 52 3⟩ (w.extractLsb' 44 4) (w.extractLsb' 0 32))
  | 0x71 => some (.frd ⟨w.getLsbD 55, w.extractLsb' 52 3⟩ (w.extractLsb' 48 4) (w.extractLsb' 44 4))
  | 0x78 => some (.tmov ⟨w.getLsbD 55, w.extractLsb' 52 3⟩ (w.extractLsb' 37 3) (w.extractLsb' 0 32))
  | 0x79 => some (.twait ⟨w.getLsbD 55, w.extractLsb' 52 3⟩)
  | 0x7A => some (.recArm ⟨w.getLsbD 55, w.extractLsb' 52 3⟩ (w.extractLsb' 37 3) (w.extractLsb' 0 32))
  | 0x7C => some (.hsh ⟨w.getLsbD 55, w.extractLsb' 52 3⟩ (w.extractLsb' 48 4) (w.extractLsb' 37 3) (w.extractLsb' 0 32))
  | 0x7D => some (.odig ⟨w.getLsbD 55, w.extractLsb' 52 3⟩ (w.extractLsb' 48 4))
  | 0x7E => some (.dmix ⟨w.getLsbD 55, w.extractLsb' 52 3⟩ (w.extractLsb' 48 4) (w.extractLsb' 44 4) (w.extractLsb' 40 4))
  | _ => none

/-- The instruction a word spells: the opcode is one of the chapter, every field it does not use is zero and register
fields are within range (its own word is `w` again), and its entry allows its operands (R186, R187). -/
def sarDecode (w : DWord) : Option Instr :=
  match sarCandidate w with
  | some i => if sarEncode i = some w ∧ i.wf = true then some i else none
  | none => none

end Sys2Proof
end

