-- ==== Sys2Proof/Machine/RegMap.lean ====
section
/-! DEFINITION. The register map (R11, R408): every field of every register of the control-port window, from the
tables of R38, R39, R51, R184, R202, R246, R294, R318, R341, R342, R372, R381, R398, R413 and R415. A field is named as
the manual names it; the fields of a region-table entry bear the prefix R_, and PC_LO and PC_HI are the words of the
performance counters. -/

namespace Sys2Proof.Machine

/-- The access codes (00_scope.md, Notation; R400). -/
inductive Access where
  | rd | rw | wo | w1c
  deriving DecidableEq, Repr

/-- One field of one register: its offset in the window, its bits [hi:lo], its value after a cold reset and its access
code. -/
structure Field where
  off   : Nat
  hi    : Nat
  lo    : Nat
  reset : Nat
  acc   : Access
  deriving DecidableEq, Repr

/-- The key under which a field's value is held: offset and low bit name a field uniquely. -/
def Field.key (f : Field) : Nat := f.off * 32 + f.lo

/-- The width of a field in bits. -/
def Field.width (f : Field) : Nat := f.hi + 1 - f.lo

/-- A row of the register map: a field, and for a register array its stride and its number of elements. -/
structure FieldRow where
  field  : Field
  stride : Nat
  count  : Nat
  deriving DecidableEq, Repr

/-- Element `i` of a row. -/
def FieldRow.at (r : FieldRow) (i : Nat) : Field := { r.field with off := r.field.off + r.stride * i }

/-- The reset words of the regulator partitions (R413). -/
def partitionReset (n : Nat) : Nat × Nat :=
  match n with
  | 0 => (0x100, 0x60) | 1 => (0x40, 0x10) | 2 => (0x100, 0x80) | 3 => (0x80, 0x08) | 4 => (0x10, 0x04)
  | _ => (0x100, 0)

/-- R38: region enabled -/
def Reg.R_EN (i : Nat) : Field := ⟨0x1000 + 16 * i, 31, 31, 0x0, .rw⟩
/-- R38: write 1 in the write that sets EN from 0 to 1 to initialize every row of the region (R43); ignored in a write that leaves EN = 0; refused with code 0x0B in a write to an entry already enabled (R40) -/
def Reg.R_INIT (i : Nat) : Field := ⟨0x1000 + 16 * i, 30, 30, 0x0, .wo⟩
/-- R38: class code, as in the class table -/
def Reg.R_CLASS (i : Nat) : Field := ⟨0x1000 + 16 * i, 29, 27, 0x0, .rw⟩
/-- R38: 0 correcting; 1 detect-only -/
def Reg.R_CODE (i : Nat) : Field := ⟨0x1000 + 16 * i, 26, 26, 0x0, .rw⟩
/-- R38: 0 explicit; 1 interleaved; 2 bound; 3 — -/
def Reg.R_PLACE (i : Nat) : Field := ⟨0x1000 + 16 * i, 25, 24, 0x0, .rw⟩
/-- R38: reduction regions: FP32 sums -/
def Reg.R_G16W (i : Nat) : Field := ⟨0x1000 + 16 * i, 23, 23, 0x0, .rw⟩
/-- R38: engine port of an interleaved region -/
def Reg.R_PORT (i : Nat) : Field := ⟨0x1000 + 16 * i, 22, 20, 0x0, .rw⟩
/-- R38: bound weight regions: slot lines L (1, 2, 3 or 5); must equal L of the FMT of every shard that uses the region (R29) -/
def Reg.R_SLOT (i : Nat) : Field := ⟨0x1000 + 16 * i, 19, 17, 0x0, .rw⟩
/-- R38: state: bound weight region -/
def Reg.R_LINK_B (i : Nat) : Field := ⟨0x1000 + 16 * i, 11, 6, 0x0, .rw⟩
/-- R38: state: reduction region; reduction and bound weight: owning state region -/
def Reg.R_LINK_A (i : Nat) : Field := ⟨0x1000 + 16 * i, 5, 0, 0x0, .rw⟩
/-- R38: bit d: device d -/
def Reg.R_DEVMASK (i : Nat) : Field := ⟨0x1004 + 16 * i, 23, 0, 0x0, .rw⟩
/-- R38: [29] write, [28] read -/
def Reg.R_PERM_HOST (i : Nat) : Field := ⟨0x1008 + 16 * i, 29, 28, 0x0, .rw⟩
/-- R38: [27] write, [26] read -/
def Reg.R_PERM_DEBUG (i : Nat) : Field := ⟨0x1008 + 16 * i, 27, 26, 0x0, .rw⟩
/-- R38: [25] write, [24] read -/
def Reg.R_PERM_TIER (i : Nat) : Field := ⟨0x1008 + 16 * i, 25, 24, 0x0, .rw⟩
/-- R38: [23] write, [22] read -/
def Reg.R_PERM_REMOTE (i : Nat) : Field := ⟨0x1008 + 16 * i, 23, 22, 0x0, .rw⟩
/-- R38: [21] write, [20] read -/
def Reg.R_PERM_ENGINE (i : Nat) : Field := ⟨0x1008 + 16 * i, 21, 20, 0x0, .rw⟩
/-- R38: bit 4+b: bank b -/
def Reg.R_BANKMASK (i : Nat) : Field := ⟨0x1008 + 16 * i, 19, 4, 0x0, .rw⟩
/-- R38: bit c: channel c -/
def Reg.R_CHMASK (i : Nat) : Field := ⟨0x1008 + 16 * i, 3, 0, 0x0, .rw⟩
/-- R38: last row, inclusive -/
def Reg.R_LASTROW (i : Nat) : Field := ⟨0x100C + 16 * i, 30, 16, 0x0, .rw⟩
/-- R38: first row -/
def Reg.R_FIRSTROW (i : Nat) : Field := ⟨0x100C + 16 * i, 14, 0, 0x0, .rw⟩
/-- R39: an initialization is running -/
def Reg.BUSY : Field := ⟨0x1400, 31, 31, 0x0, .rd⟩
/-- R39: an entry write has been refused since last cleared -/
def Reg.REFUSED : Field := ⟨0x1400, 30, 30, 0x0, .w1c⟩
/-- R39: entry of the most recent refusal -/
def Reg.REF_ENTRY : Field := ⟨0x1400, 29, 24, 0x0, .rd⟩
/-- R39: code of the most recent refusal -/
def Reg.REF_CODE : Field := ⟨0x1400, 23, 16, 0x0, .rd⟩
/-- R39: bit n: entry n initializing, n = 0 to 31 -/
def Reg.INIT_PEND_LO : Field := ⟨0x1408, 31, 0, 0x0, .rd⟩
/-- R39: bit n: entry 32+n initializing -/
def Reg.INIT_PEND_HI : Field := ⟨0x140C, 31, 0, 0x0, .rd⟩
/-- R51: write 1 to start a step with the header below -/
def Reg.GO : Field := ⟨0x0800, 31, 31, 0x0, .wo⟩
/-- R51: variant index V, bits [31:0] -/
def Reg.VARIANT_LO : Field := ⟨0x0808, 31, 0, 0x0, .rw⟩
/-- R51: variant index V, bits [63:32] -/
def Reg.VARIANT_HI : Field := ⟨0x080C, 31, 0, 0x0, .rw⟩
/-- R51: loss-scale exponent e, two's complement; contributions arrive multiplied by 2^e -/
def Reg.LSE : Field := ⟨0x0810, 7, 0, 0x0, .rw⟩
/-- R51: step seed, bits [31:0] -/
def Reg.SEED_LO : Field := ⟨0x0818, 31, 0, 0x0, .rw⟩
/-- R51: step seed, bits [63:32] -/
def Reg.SEED_HI : Field := ⟨0x081C, 31, 0, 0x0, .rw⟩
/-- R51: S, bits [31:0]: the running step, or the next at a boundary -/
def Reg.STEP_LO : Field := ⟨0x0820, 31, 0, 0x0, .rd⟩
/-- R51: S, bits [63:32] -/
def Reg.STEP_HI : Field := ⟨0x0824, 31, 0, 0x0, .rd⟩
/-- R51: G, bits [31:0] -/
def Reg.GSTEP_LO : Field := ⟨0x0828, 31, 0, 0x0, .rd⟩
/-- R51: G, bits [63:32] -/
def Reg.GSTEP_HI : Field := ⟨0x082C, 31, 0, 0x0, .rd⟩
/-- R51: 0 boundary; 1 open; 2 arrival; 3 seal; 4 commit, also while emission overlaps it; 5 emission, once every commit-list entry and all layer work have ended; 6 skip; 7 held; 8 to 15 — -/
def Reg.PHASE : Field := ⟨0x0830, 31, 28, 0x0, .rd⟩
/-- R51: a bounded wait has passed STALL_LIMIT and continues -/
def Reg.STALLED : Field := ⟨0x0830, 27, 27, 0x0, .rd⟩
/-- R51: step-boundary hold in force; every open is refused -/
def Reg.HELD : Field := ⟨0x0830, 26, 26, 0x0, .rd⟩
/-- R51: last step: 0 none; 1 committed; 2 skipped; 3 refused -/
def Reg.OUTCOME : Field := ⟨0x0830, 25, 24, 0x0, .rd⟩
/-- R51: GO was written outside a step boundary -/
def Reg.GO_REFUSED : Field := ⟨0x0830, 23, 23, 0x0, .w1c⟩
/-- R51: reason bits of the last verdict; cleared by GO -/
def Reg.REASON : Field := ⟨0x0834, 15, 0, 0x0, .rd⟩
/-- R51: this block's counter digest, bits [31:0] -/
def Reg.ODIG_LO : Field := ⟨0x0838, 31, 0, 0x0, .rd⟩
/-- R51: bits [63:32] -/
def Reg.ODIG_HI : Field := ⟨0x083C, 31, 0, 0x0, .rd⟩
/-- R51: bound on a watched wait, in units of 1,024 ticks -/
def Reg.STALL_LIMIT : Field := ⟨0x0840, 31, 0, 0x20000, .rw⟩
/-- R51: global tick of event i, bits [31:0] -/
def Reg.STAMP_LO (i : Nat) : Field := ⟨0x0848 + 8 * i, 31, 0, 0x0, .rd⟩
/-- R51: bits [63:32] -/
def Reg.STAMP_HI (i : Nat) : Field := ⟨0x084C + 8 * i, 31, 0, 0x0, .rd⟩
/-- R51: clip class n, FP64 sum from the last seal verdict, bits [31:0] -/
def Reg.NORMSQ_LO (i : Nat) : Field := ⟨0x0880 + 8 * i, 31, 0, 0x0, .rd⟩
/-- R51: bits [63:32] -/
def Reg.NORMSQ_HI (i : Nat) : Field := ⟨0x0884 + 8 * i, 31, 0, 0x0, .rd⟩
/-- R51: write 1 to set S and G from SET_S and SET_G (R53) -/
def Reg.SG_SET : Field := ⟨0x0900, 31, 31, 0x0, .wo⟩
/-- R51: an SG_SET was ignored -/
def Reg.SG_REFUSED : Field := ⟨0x0900, 30, 30, 0x0, .w1c⟩
/-- R51: S to be set, bits [31:0] -/
def Reg.SET_S_LO : Field := ⟨0x0908, 31, 0, 0x0, .rw⟩
/-- R51: bits [63:32] -/
def Reg.SET_S_HI : Field := ⟨0x090C, 31, 0, 0x0, .rw⟩
/-- R51: G to be set, bits [31:0] -/
def Reg.SET_G_LO : Field := ⟨0x0910, 31, 0, 0x0, .rw⟩
/-- R51: bits [63:32] -/
def Reg.SET_G_HI : Field := ⟨0x0914, 31, 0, 0x0, .rw⟩
/-- R184: write 1 to load the image in SRCREG -/
def Reg.LOAD : Field := ⟨0x0400, 31, 31, 0x0, .wo⟩
/-- R184: with LOAD: the load is a swap (R182) -/
def Reg.SWAP : Field := ⟨0x0400, 30, 30, 0x0, .wo⟩
/-- R184: staging region -/
def Reg.SRCREG : Field := ⟨0x0400, 5, 0, 0x0, .rw⟩
/-- R184: 0 no plan; 1 verifying; 2 loaded; 3 loaded, swap pending; 4 trapped -/
def Reg.LSTATE : Field := ⟨0x0404, 31, 28, 0x0, .rd⟩
/-- R184: an ignored post was written to COLL_POST -/
def Reg.BADPOST : Field := ⟨0x0404, 27, 27, 0x0, .w1c⟩
/-- R184: result of the last load (R167) -/
def Reg.LOAD_CODE : Field := ⟨0x0404, 23, 16, 0x0, .rd⟩
/-- R184: R180; cleared by reset -/
def Reg.TRAP_CAUSE : Field := ⟨0x0404, 15, 8, 0x0, .rd⟩
/-- R184: TYPE of the section that LOAD_DETAIL points into, or 0 (R423) -/
def Reg.LOAD_SECT : Field := ⟨0x0404, 7, 0, 0x0, .rd⟩
/-- R184: the offending item (R423) -/
def Reg.LOAD_DETAIL : Field := ⟨0x0408, 31, 0, 0x0, .rd⟩
/-- R184: instruction index at the trap -/
def Reg.TRAP_PC : Field := ⟨0x040C, 31, 0, 0x0, .rd⟩
/-- R184: cause detail: q, address offset or line -/
def Reg.TRAP_INFO : Field := ⟨0x0410, 31, 0, 0x0, .rd⟩
/-- R184: loaded plan identifier, bits [31:0] -/
def Reg.PLAN_ID_LO : Field := ⟨0x0418, 31, 0, 0x0, .rd⟩
/-- R184: bits [63:32] -/
def Reg.PLAN_ID_HI : Field := ⟨0x041C, 31, 0, 0x0, .rd⟩
/-- R184: step at which a swap takes effect, bits [31:0] -/
def Reg.SWAP_STEP_LO : Field := ⟨0x0420, 31, 0, 0x0, .rw⟩
/-- R184: bits [63:32] -/
def Reg.SWAP_STEP_HI : Field := ⟨0x0424, 31, 0, 0x0, .rw⟩
/-- R184: plan identifier of the pending image, bits [31:0] -/
def Reg.PEND_ID_LO : Field := ⟨0x0428, 31, 0, 0x0, .rd⟩
/-- R184: bits [63:32] -/
def Reg.PEND_ID_HI : Field := ⟨0x042C, 31, 0, 0x0, .rd⟩
/-- R184: post collective instance q -/
def Reg.COLL_POST : Field := ⟨0x0430, 15, 0, 0x0, .wo⟩
/-- R184: lowest q of the step not yet begun -/
def Reg.COLL_NEXT : Field := ⟨0x0434, 31, 16, 0x0, .rd⟩
/-- R184: collective groups active, 0 to 16 -/
def Reg.COLL_ACTIVE : Field := ⟨0x0434, 4, 0, 0x0, .rd⟩
/-- R184: current instruction index; readable in debug level Watch and above -/
def Reg.SEQ_PC : Field := ⟨0x0438, 31, 0, 0x0, .rd⟩
/-- R202: mailbox i, bits [31:0], for i = 0 to 7 -/
def Reg.MBOX_LO (i : Nat) : Field := ⟨0x08C0 + 8 * i, 31, 0, 0x0, .rw⟩
/-- R202: mailbox i, bits [63:32] -/
def Reg.MBOX_HI (i : Nat) : Field := ⟨0x08C4 + 8 * i, 31, 0, 0x0, .rw⟩
/-- R246: the topology digest binds (R243) -/
def Reg.BOUND : Field := ⟨0x5000, 31, 31, 0x0, .rd⟩
/-- R246: bound through a degraded slice -/
def Reg.SLICE : Field := ⟨0x5000, 30, 30, 0x0, .rd⟩
/-- R246: slice entry that binds -/
def Reg.SLICE_IX : Field := ⟨0x5000, 29, 24, 0x0, .rd⟩
/-- R246: bit n: fabric port fn up -/
def Reg.PORT_UP : Field := ⟨0x5000, 7, 0, 0x0, .rd⟩
/-- R246: bit n: the fabric declared fn failed; clearing it returns fn to the rotations as R211 gives -/
def Reg.PORT_FAIL : Field := ⟨0x5004, 7, 0, 0x0, .w1c⟩
/-- R246: digest from the fabric, bits [31:0] -/
def Reg.TOPO_LO : Field := ⟨0x5008, 31, 0, 0x0, .rd⟩
/-- R246: bits [63:32] -/
def Reg.TOPO_HI : Field := ⟨0x500C, 31, 0, 0x0, .rd⟩
/-- R246: start a count exchange (R228) -/
def Reg.CNT_GO : Field := ⟨0x5010, 31, 31, 0x0, .wo⟩
/-- R246: a count exchange is running -/
def Reg.CNT_BUSY : Field := ⟨0x5010, 30, 30, 0x0, .rd⟩
/-- R246: the combined vector has been written -/
def Reg.CNT_DONE : Field := ⟨0x5010, 29, 29, 0x0, .w1c⟩
/-- R246: a CNT_GO was ignored -/
def Reg.CNT_REFUSED : Field := ⟨0x5010, 28, 28, 0x0, .w1c⟩
/-- R246: region of the count area -/
def Reg.CNT_REG : Field := ⟨0x5010, 5, 0, 0x0, .rw⟩
/-- R246: dense offset of the count area, bits [31:0] -/
def Reg.CNT_OFF_LO : Field := ⟨0x5014, 31, 0, 0x0, .rw⟩
/-- R246: bits [41:32] -/
def Reg.CNT_OFF_HI : Field := ⟨0x5018, 9, 0, 0x0, .rw⟩
/-- R246: retry hint sent in DEFER, ticks -/
def Reg.DEFER_HINT : Field := ⟨0x5020, 15, 0, 0x3E8, .rw⟩
/-- R246: round-robin weight of remote responses -/
def Reg.REMOTE_WEIGHT : Field := ⟨0x5024, 31, 24, 0x10, .rw⟩
/-- R246: epoch of remote kinds -/
def Reg.REMOTE_EPOCH : Field := ⟨0x5024, 15, 0, 0x0, .rw⟩
/-- R246: refusals with code 0x03 -/
def Reg.REF_EPOCH : Field := ⟨0x5030, 31, 0, 0x0, .rw⟩
/-- R246: refusals with codes 0x01 and 0x02 -/
def Reg.REF_STEP : Field := ⟨0x5034, 31, 0, 0x0, .rw⟩
/-- R246: refusals with other codes -/
def Reg.REF_OTHER : Field := ⟨0x5038, 31, 0, 0x0, .rw⟩
/-- R246: DEFER answers sent -/
def Reg.DEFERS : Field := ⟨0x503C, 31, 0, 0x0, .rw⟩
/-- R246: failed residue checks (R227) -/
def Reg.RESFAULTS : Field := ⟨0x5040, 31, 0, 0x0, .rw⟩
/-- R246: NACKs received -/
def Reg.NACK_IN : Field := ⟨0x5044, 31, 0, 0x0, .rw⟩
/-- R246: code of the last refusal -/
def Reg.LREF_CODE : Field := ⟨0x5048, 31, 24, 0x0, .rd⟩
/-- R246: KIND refused -/
def Reg.LREF_KIND : Field := ⟨0x5048, 23, 16, 0x0, .rd⟩
/-- R246: SRC of the refused message -/
def Reg.LREF_SRC : Field := ⟨0x5048, 15, 0, 0x0, .rd⟩
/-- R246: INDEX of the refused message -/
def Reg.LREF_INDEX : Field := ⟨0x504C, 31, 0, 0x0, .rd⟩
/-- R246: lowest unclosed slot index of the step; all ones when none -/
def Reg.ARR_NEXT : Field := ⟨0x5050, 31, 0, 0xFFFFFFFF, .rd⟩
/-- R294: write 1 outside Run to train all devices (R293) -/
def Reg.TRAIN : Field := ⟨0x8000, 31, 31, 0x0, .wo⟩
/-- R294: 0 untrained; 1 training; 2 trained; 3 failed -/
def Reg.TSTATE : Field := ⟨0x8000, 30, 28, 0x0, .rd⟩
/-- R294: data rate (R291); takes effect at the next training -/
def Reg.RATE : Field := ⟨0x8000, 1, 0, 0x3, .rw⟩
/-- R294: bit d: device d present -/
def Reg.PRESENT : Field := ⟨0x8004, 23, 0, 0x0, .rd⟩
/-- R294: bit d: device d is a U-device -/
def Reg.UDEV : Field := ⟨0x8008, 23, 0, 0x0, .rd⟩
/-- R294: bit d: device d is 32 Gb -/
def Reg.DENS32 : Field := ⟨0x800C, 23, 0, 0x0, .rd⟩
/-- R294: bit d: BSU group of d to be out of service from the next step boundary -/
def Reg.OOS_REQ : Field := ⟨0x8010, 23, 0, 0x0, .rw⟩
/-- R294: bit d: BSU group of d out of service -/
def Reg.OOS : Field := ⟨0x8014, 23, 0, 0x0, .rd⟩
/-- R294: bit d: R281 step in force -/
def Reg.HOT85 : Field := ⟨0x8018, 23, 0, 0x0, .rd⟩
/-- R294: bit d: R281 step in force -/
def Reg.HOT95 : Field := ⟨0x801C, 23, 0, 0x0, .rd⟩
/-- R294: bit d: R281 step in force -/
def Reg.HOT105 : Field := ⟨0x8020, 23, 0, 0x0, .rd⟩
/-- R294: device d, last reading, °C, two's complement -/
def Reg.TEMP (i : Nat) : Field := ⟨0x8040 + 4 * i, 31, 24, 0x0, .rd⟩
/-- R294: PX-B revision; 0 for a P-device -/
def Reg.PXB_REV (i : Nat) : Field := ⟨0x8040 + 4 * i, 23, 16, 0x0, .rd⟩
/-- R294: training cause (R293) -/
def Reg.TCAUSE (i : Nat) : Field := ⟨0x8040 + 4 * i, 15, 12, 0x0, .rd⟩
/-- R294: postponed refreshes (R287) -/
def Reg.REFPOST : Field := ⟨0x80A0, 31, 0, 0x0, .rw⟩
/-- R294: sequences that overran their bound (R279) -/
def Reg.OVERRUN : Field := ⟨0x80A4, 31, 0, 0x0, .rw⟩
/-- R294: burst retries (R292) -/
def Reg.LINKRETRY : Field := ⟨0x80A8, 31, 0, 0x0, .rw⟩
/-- R294: bursts failed after retry -/
def Reg.LINKERR : Field := ⟨0x80AC, 31, 0, 0x0, .rw⟩
/-- R294: tUCS single or apply, ns -/
def Reg.TUCS_APPLY : Field := ⟨0x8100, 31, 16, 0xF0, .rd⟩
/-- R294: tUCS scan, ns -/
def Reg.TUCS_SCAN : Field := ⟨0x8100, 15, 0, 0x78, .rd⟩
/-- R294: tUCS with remap, ns -/
def Reg.TUCS_REMAP : Field := ⟨0x8104, 31, 16, 0x190, .rd⟩
/-- R294: tUSS after a start of 4 units, ns; one quarter of it per unit of a lighter start (R278) -/
def Reg.TUSS : Field := ⟨0x8104, 15, 0, 0xF, .rd⟩
/-- R294: tUAW limit at or below 95 °C, units -/
def Reg.TUAW_UNITS : Field := ⟨0x8108, 31, 16, 0xF0, .rd⟩
/-- R294: UCONC -/
def Reg.UCONC : Field := ⟨0x8108, 15, 8, 0x10, .rd⟩
/-- R318: tier port enabled (R296) -/
def Reg.TEN : Field := ⟨0x0200, 31, 31, 0x0, .rw⟩
/-- R318: far-tier port reports its link and window ready -/
def Reg.TUP : Field := ⟨0x0200, 30, 30, 0x0, .rd⟩
/-- R318: tier channel halted (R306) -/
def Reg.THALT : Field := ⟨0x0200, 29, 29, 0x0, .w1c⟩
/-- R318: rows queued or moving -/
def Reg.TQUEUED : Field := ⟨0x0200, 15, 0, 0x0, .rd⟩
/-- R318: window size in 2 KiB slots -/
def Reg.TIER_SLOTS : Field := ⟨0x0204, 31, 0, 0x0, .rw⟩
/-- R318: window base, bits [31:11] -/
def Reg.TIER_BASE_LO : Field := ⟨0x0208, 31, 11, 0x0, .rw⟩
/-- R318: bits [63:32] -/
def Reg.TIER_BASE_HI : Field := ⟨0x020C, 31, 0, 0x0, .rw⟩
/-- R318: rows moved in -/
def Reg.TMOVES : Field := ⟨0x0210, 31, 0, 0x0, .rw⟩
/-- R318: rows written out -/
def Reg.TOUTS : Field := ⟨0x0214, 31, 0, 0x0, .rw⟩
/-- R318: commit-list entries that waited (R304) -/
def Reg.TLATE : Field := ⟨0x0218, 31, 0, 0x0, .rw⟩
/-- R318: entries skipped (R303) -/
def Reg.TBADENT : Field := ⟨0x021C, 31, 0, 0x0, .rw⟩
/-- R318: ordinary accesses to FAR rows (R305) -/
def Reg.TNRES : Field := ⟨0x0220, 31, 0, 0x0, .rw⟩
/-- R318: far slot of the failed move -/
def Reg.THALT_SLOT : Field := ⟨0x0224, 31, 0, 0x0, .rd⟩
/-- R318: 0 uncorrectable line; 1 far-tag address fault; 2 CXL poison; 3 CXL error completion -/
def Reg.THALT_CAUSE : Field := ⟨0x0228, 1, 0, 0x0, .rd⟩
/-- R318: request an export -/
def Reg.XGO : Field := ⟨0x0300, 31, 31, 0x0, .wo⟩
/-- R318: request an import -/
def Reg.XIMP : Field := ⟨0x0300, 30, 30, 0x0, .wo⟩
/-- R318: a request is pending or running -/
def Reg.XBUSY : Field := ⟨0x0300, 29, 29, 0x0, .rd⟩
/-- R318: a request has ended -/
def Reg.XDONE : Field := ⟨0x0300, 28, 28, 0x0, .w1c⟩
/-- R318: CONTENT of an export, 0 to 2 -/
def Reg.XCONT : Field := ⟨0x0300, 27, 24, 0x0, .rw⟩
/-- R318: result, as below -/
def Reg.XCODE : Field := ⟨0x0300, 23, 16, 0x0, .rd⟩
/-- R318: shard -/
def Reg.XSHARD : Field := ⟨0x0300, 15, 0, 0x0, .rw⟩
/-- R318: the other end is the tier window -/
def Reg.XFAR : Field := ⟨0x0304, 31, 31, 0x0, .rw⟩
/-- R318: region of the other end -/
def Reg.XREG : Field := ⟨0x0304, 5, 0, 0x0, .rw⟩
/-- R318: dense offset, bits [31:0]; far slot when XFAR -/
def Reg.XOFF_LO : Field := ⟨0x0308, 31, 0, 0x0, .rw⟩
/-- R318: bits [41:32] -/
def Reg.XOFF_HI : Field := ⟨0x030C, 9, 0, 0x0, .rw⟩
/-- R318: bytes of the last record -/
def Reg.XLEN : Field := ⟨0x0310, 31, 0, 0x0, .rd⟩
/-- R318: digest of the last record, bits [31:0] -/
def Reg.XDIG_LO : Field := ⟨0x0318, 31, 0, 0x0, .rd⟩
/-- R318: bits [63:32] -/
def Reg.XDIG_HI : Field := ⟨0x031C, 31, 0, 0x0, .rd⟩
/-- R318: request a replay -/
def Reg.RGO : Field := ⟨0x0320, 31, 31, 0x0, .wo⟩
/-- R318: a replay is pending or running -/
def Reg.RBUSY : Field := ⟨0x0320, 30, 30, 0x0, .rd⟩
/-- R318: a replay has ended -/
def Reg.RDONE : Field := ⟨0x0320, 29, 29, 0x0, .w1c⟩
/-- R318: 0 CSU; 1 BSU (RDEV, RCH, RK) -/
def Reg.RUNIT : Field := ⟨0x0320, 28, 28, 0x0, .rw⟩
/-- R318: result, as below -/
def Reg.RCODE : Field := ⟨0x0320, 23, 16, 0x0, .rd⟩
/-- R318: region of the records -/
def Reg.RREG : Field := ⟨0x0320, 5, 0, 0x0, .rw⟩
/-- R318: first record index -/
def Reg.RFIRST : Field := ⟨0x0324, 31, 0, 0x0, .rw⟩
/-- R318: records -/
def Reg.RCOUNT : Field := ⟨0x0328, 31, 0, 0x0, .rw⟩
/-- R318: scratch device -/
def Reg.RDEV : Field := ⟨0x032C, 31, 27, 0x0, .rw⟩
/-- R318: scratch channel -/
def Reg.RCH : Field := ⟨0x032C, 26, 25, 0x0, .rw⟩
/-- R318: scratch pair -/
def Reg.RK : Field := ⟨0x032C, 24, 22, 0x0, .rw⟩
/-- R318: scratch row -/
def Reg.RROW : Field := ⟨0x032C, 14, 0, 0x0, .rw⟩
/-- R318: S of the records replayed, bits [31:0] -/
def Reg.RSTEP_LO : Field := ⟨0x0330, 31, 0, 0x0, .rw⟩
/-- R318: bits [63:32] -/
def Reg.RSTEP_HI : Field := ⟨0x0334, 31, 0, 0x0, .rw⟩
/-- R318: digest mismatches -/
def Reg.RMISS : Field := ⟨0x0338, 31, 0, 0x0, .rd⟩
/-- R318: records skipped -/
def Reg.RSKIP : Field := ⟨0x033C, 31, 0, 0x0, .rd⟩
/-- R318: index of the first mismatch -/
def Reg.RFMISS : Field := ⟨0x0340, 31, 0, 0x0, .rd⟩
/-- R318: rows recorded in the last step -/
def Reg.RECROWS : Field := ⟨0x0344, 31, 0, 0x0, .rd⟩
/-- R341: write 1 to end the hold (R337) -/
def Reg.HOLD_CLR : Field := ⟨0x2000, 31, 31, 0x0, .wo⟩
/-- R341: write 1 to enter Clover mode (R340) -/
def Reg.CLOVER_GO : Field := ⟨0x2000, 30, 30, 0x0, .wo⟩
/-- R341: remap lasting lines without host action -/
def Reg.AUTOREMAP : Field := ⟨0x2000, 29, 29, 0x1, .rw⟩
/-- R341: Clover mode in force -/
def Reg.CLOVER : Field := ⟨0x2000, 28, 28, 0x0, .rd⟩
/-- R341: an event of CLASS 0x02 to 0x06 logged -/
def Reg.UE_ANY : Field := ⟨0x2000, 27, 27, 0x0, .w1c⟩
/-- R341: a corrected event counted -/
def Reg.CE_ANY : Field := ⟨0x2000, 26, 26, 0x0, .w1c⟩
/-- R341: scrubber enabled -/
def Reg.SCRUB_EN : Field := ⟨0x2000, 25, 25, 0x1, .rw⟩
/-- R341: R336; 0 when the block is not held -/
def Reg.HOLD_CAUSE : Field := ⟨0x2000, 23, 16, 0x0, .rd⟩
/-- R341: sequence number of the last entry written; 0 before the first (R321) -/
def Reg.LOG_SEQ : Field := ⟨0x2004, 31, 0, 0x0, .rd⟩
/-- R341: corrected events -/
def Reg.CE_TOTAL : Field := ⟨0x2008, 31, 0, 0x0, .rw⟩
/-- R341: events of CLASS 0x02 to 0x06 -/
def Reg.UE_TOTAL : Field := ⟨0x200C, 31, 0, 0x0, .rw⟩
/-- R341: lines rewritten by the scrubber -/
def Reg.SCRUB_FIX : Field := ⟨0x2010, 31, 0, 0x0, .rw⟩
/-- R341: rewrites dropped (R253) -/
def Reg.SCRUB_DROP : Field := ⟨0x2014, 31, 0, 0x0, .rw⟩
/-- R341: events without a tracking entry -/
def Reg.TRK_DROP : Field := ⟨0x2018, 31, 0, 0x0, .rw⟩
/-- R341: lasting lines not remapped (R327) -/
def Reg.REMAP_FULL : Field := ⟨0x201C, 31, 0, 0x0, .rw⟩
/-- R341: ticks of the last complete lap, bits [31:0] -/
def Reg.LAP_LO : Field := ⟨0x2020, 31, 0, 0x0, .rd⟩
/-- R341: bits [63:32] -/
def Reg.LAP_HI : Field := ⟨0x2024, 31, 0, 0x0, .rd⟩
/-- R341: scrubber position: device -/
def Reg.SPOS_DEV : Field := ⟨0x2028, 31, 27, 0x0, .rd⟩
/-- R341: channel -/
def Reg.SPOS_CH : Field := ⟨0x2028, 26, 25, 0x0, .rd⟩
/-- R341: bank -/
def Reg.SPOS_BANK : Field := ⟨0x2028, 24, 21, 0x0, .rd⟩
/-- R341: row -/
def Reg.SPOS_ROW : Field := ⟨0x2028, 20, 6, 0x0, .rd⟩
/-- R341: bit d: device d flagged (R325, R327) -/
def Reg.REVIEW : Field := ⟨0x202C, 23, 0, 0x0, .w1c⟩
/-- R341: bit d: a BSU of d overran (R279) -/
def Reg.BSU_REVIEW : Field := ⟨0x2030, 23, 0, 0x0, .w1c⟩
/-- R341: map out MCH of MDEV (R338) -/
def Reg.MAPOUT_GO : Field := ⟨0x2034, 31, 31, 0x0, .wo⟩
/-- R341: reload the tables of MDEV's BSU group -/
def Reg.TABLD_GO : Field := ⟨0x2034, 30, 30, 0x0, .wo⟩
/-- R341: a repair is pending -/
def Reg.REP_BUSY : Field := ⟨0x2034, 29, 29, 0x0, .rd⟩
/-- R341: a repair or HOLD_CLR was refused -/
def Reg.REP_REFUSED : Field := ⟨0x2034, 28, 28, 0x0, .w1c⟩
/-- R341: device -/
def Reg.MDEV : Field := ⟨0x2034, 12, 8, 0x0, .rw⟩
/-- R341: channel -/
def Reg.MCH : Field := ⟨0x2034, 1, 0, 0x0, .rw⟩
/-- R341: bit 4·d + c: channel c of device d mapped out, d = 0 to 7 -/
def Reg.MAPPED_LO : Field := ⟨0x2038, 31, 0, 0x0, .rd⟩
/-- R341: the same for d = 8 to 15 -/
def Reg.MAPPED_MID : Field := ⟨0x203C, 31, 0, 0x0, .rd⟩
/-- R341: the same for d = 16 to 23 -/
def Reg.MAPPED_HI : Field := ⟨0x2040, 31, 0, 0x0, .rd⟩
/-- R341: 0 no log; 1 running; 2 waiting for a verdict; 3 done; 4 failed -/
def Reg.YSTATE : Field := ⟨0x2044, 31, 28, 0x0, .rd⟩
/-- R341: LOGSTATE found in the step-log header (R332) -/
def Reg.YLSTATE : Field := ⟨0x2044, 27, 24, 0x0, .rd⟩
/-- R341: R335 -/
def Reg.YCODE : Field := ⟨0x2044, 23, 16, 0x0, .rd⟩
/-- R341: act on YVERD (R332) -/
def Reg.YGO : Field := ⟨0x2048, 31, 31, 0x0, .wo⟩
/-- R341: send the resolved step's emission again (R334) -/
def Reg.YEMIT : Field := ⟨0x2048, 30, 30, 0x1, .rw⟩
/-- R341: 1 commit; 2 skip; 3 abandon -/
def Reg.YVERD : Field := ⟨0x2048, 17, 16, 0x0, .rw⟩
/-- R341: REASON bits sent in skip notices -/
def Reg.YREASON : Field := ⟨0x2048, 15, 0, 0x0, .rw⟩
/-- R341: region of the step log -/
def Reg.YLOG_REG : Field := ⟨0x204C, 31, 26, 0x0, .rw⟩
/-- R341: first row unit of the step log -/
def Reg.YLOG_UNIT : Field := ⟨0x2050, 31, 0, 0x0, .rw⟩
/-- R341: NORMSQ[n] for a commit verdict, bits [31:0], n = 0 to 7 -/
def Reg.YNSQ_LO (i : Nat) : Field := ⟨0x2058 + 8 * i, 31, 0, 0x0, .rw⟩
/-- R341: bits [63:32] -/
def Reg.YNSQ_HI (i : Nat) : Field := ⟨0x205C + 8 * i, 31, 0, 0x0, .rw⟩
/-- R341: device d: corrected events in the current window -/
def Reg.DEVCE (i : Nat) : Field := ⟨0x20A0 + 4 * i, 15, 0, 0x0, .rd⟩
/-- R341: shard-loss list overflowed -/
def Reg.SHL_OVF : Field := ⟨0x2100, 31, 31, 0x0, .rd⟩
/-- R341: entries in the list, 0 to 16 -/
def Reg.SHL_N : Field := ⟨0x2100, 4, 0, 0x0, .rd⟩
/-- R341: HOLD_CAUSE code of the loss -/
def Reg.SHL_CAUSE (i : Nat) : Field := ⟨0x2140 + 4 * i, 31, 24, 0x0, .rd⟩
/-- R341: lost shard, i = 0 to 15 -/
def Reg.SHL_SHARD (i : Nat) : Field := ⟨0x2140 + 4 * i, 15, 0, 0x0, .rd⟩
/-- R341: entry n: sequence number -/
def Reg.E_SEQ (i : Nat) : Field := ⟨0x2200 + 32 * i, 31, 0, 0x0, .rd⟩
/-- R341: global tick, bits [31:0] -/
def Reg.E_TICK_LO (i : Nat) : Field := ⟨0x2204 + 32 * i, 31, 0, 0x0, .rd⟩
/-- R341: bits [63:32] -/
def Reg.E_TICK_HI (i : Nat) : Field := ⟨0x2208 + 32 * i, 31, 0, 0x0, .rd⟩
/-- R341: CLASS (R319, R321) -/
def Reg.E_CLASS (i : Nat) : Field := ⟨0x220C + 32 * i, 31, 24, 0x0, .rd⟩
/-- R341: SRC (R321) -/
def Reg.E_SRC (i : Nat) : Field := ⟨0x220C + 32 * i, 23, 20, 0x0, .rd⟩
/-- R341: device -/
def Reg.E_DEV (i : Nat) : Field := ⟨0x2210 + 32 * i, 31, 27, 0x0, .rd⟩
/-- R341: channel -/
def Reg.E_CH (i : Nat) : Field := ⟨0x2210 + 32 * i, 26, 25, 0x0, .rd⟩
/-- R341: bank -/
def Reg.E_BANK (i : Nat) : Field := ⟨0x2210 + 32 * i, 24, 21, 0x0, .rd⟩
/-- R341: row -/
def Reg.E_ROW (i : Nat) : Field := ⟨0x2210 + 32 * i, 20, 6, 0x0, .rd⟩
/-- R341: line -/
def Reg.E_LINE (i : Nat) : Field := ⟨0x2210 + 32 * i, 5, 1, 0x0, .rd⟩
/-- R341: location fields valid -/
def Reg.E_LOCV (i : Nat) : Field := ⟨0x2210 + 32 * i, 0, 0, 0x0, .rd⟩
/-- R341: syndrome bytes, x^3 in [31:24] -/
def Reg.E_SYND (i : Nat) : Field := ⟨0x2214 + 32 * i, 31, 0, 0x0, .rd⟩
/-- R341: shard, far slot, q or device count, as the class gives -/
def Reg.E_INFO (i : Nat) : Field := ⟨0x2218 + 32 * i, 31, 0, 0x0, .rd⟩
/-- R341: region of the line -/
def Reg.E_REGION (i : Nat) : Field := ⟨0x221C + 32 * i, 5, 0, 0x0, .rd⟩
/-- R342: device -/
def Reg.RM_DEV : Field := ⟨0x3000, 28, 24, 0x0, .rw⟩
/-- R342: device-local bank index 16·c + b -/
def Reg.RM_BANK : Field := ⟨0x3000, 5, 0, 0x0, .rw⟩
/-- R342: write RM_ENT[0 to 3] to the record, the controller and the BSU -/
def Reg.RM_WRITE : Field := ⟨0x3004, 31, 31, 0x0, .wo⟩
/-- R342: a mirror write is running -/
def Reg.RM_BUSY : Field := ⟨0x3004, 30, 30, 0x0, .rd⟩
/-- R342: a mirror write was refused -/
def Reg.RM_REFUSED : Field := ⟨0x3004, 29, 29, 0x0, .w1c⟩
/-- R342: valid entries of the selected bank, 0 to 4 -/
def Reg.RM_USED : Field := ⟨0x3004, 2, 0, 0x0, .rd⟩
/-- R342: entry n valid, n = 0 to 3 -/
def Reg.RM_VALID (i : Nat) : Field := ⟨0x3010 + 4 * i, 31, 31, 0x0, .rw⟩
/-- R342: home row -/
def Reg.RM_ROW (i : Nat) : Field := ⟨0x3010 + 4 * i, 30, 16, 0x0, .rw⟩
/-- R342: home line -/
def Reg.RM_LINE (i : Nat) : Field := ⟨0x3010 + 4 * i, 15, 11, 0x0, .rw⟩
/-- R342: valid entries in the block -/
def Reg.RM_TOTAL : Field := ⟨0x3020, 31, 0, 0x0, .rd⟩
/-- R372: part number -/
def Reg.PART : Field := ⟨0x4800, 31, 16, 0x24, .rd⟩
/-- R372: core revision -/
def Reg.CORE_REV : Field := ⟨0x4800, 15, 8, 0x1, .rd⟩
/-- R372: PHY revision -/
def Reg.PHY_REV : Field := ⟨0x4800, 7, 0, 0x1, .rd⟩
/-- R372: unique identity, bits [31:0] -/
def Reg.UID_LO : Field := ⟨0x4804, 31, 0, 0x0, .rd⟩
/-- R372: bits [63:32] -/
def Reg.UID_HI : Field := ⟨0x4808, 31, 0, 0x0, .rd⟩
/-- R372: 0 Open; 1 Sealed; 2 Spent; 3 — -/
def Reg.LCS : Field := ⟨0x480C, 31, 30, 0x0, .rd⟩
/-- R372: advance to Spent begun (R357) -/
def Reg.ZPEND : Field := ⟨0x480C, 29, 29, 0x0, .rd⟩
/-- R372: an advance is pending or running -/
def Reg.LC_BUSY : Field := ⟨0x480C, 28, 28, 0x0, .rd⟩
/-- R372: request an advance to LC_TGT -/
def Reg.LC_ADV : Field := ⟨0x480C, 27, 27, 0x0, .wo⟩
/-- R372: 1 Sealed; 2 Spent -/
def Reg.LC_TGT : Field := ⟨0x480C, 26, 25, 0x0, .wo⟩
/-- R372: an advance was refused -/
def Reg.LC_REFUSED : Field := ⟨0x480C, 24, 24, 0x0, .w1c⟩
/-- R372: R355 -/
def Reg.LC_CODE : Field := ⟨0x480C, 23, 16, 0x0, .rd⟩
/-- R372: a LOAD was ignored in Spent -/
def Reg.LOADREF : Field := ⟨0x480C, 15, 15, 0x0, .w1c⟩
/-- R372: 0 Quiet; 1 Watch; 2 Reach; 3 — -/
def Reg.DBG_LVL : Field := ⟨0x4810, 31, 30, 0x0, .rd⟩
/-- R372: level requested (R360) -/
def Reg.DBG_REQ : Field := ⟨0x4810, 29, 28, 0x0, .rw⟩
/-- R372: awaiting the root of trust -/
def Reg.DBG_PEND : Field := ⟨0x4810, 27, 27, 0x0, .rd⟩
/-- R372: a debug request was refused -/
def Reg.DBG_REFUSED : Field := ⟨0x4810, 26, 26, 0x0, .w1c⟩
/-- R372: a session ended -/
def Reg.DBG_ENDED : Field := ⟨0x4810, 25, 25, 0x0, .w1c⟩
/-- R372: break step, bits [31:0] -/
def Reg.BRK_STEP_LO : Field := ⟨0x4814, 31, 0, 0x0, .rw⟩
/-- R372: bits [63:32] -/
def Reg.BRK_STEP_HI : Field := ⟨0x4818, 31, 0, 0x0, .rw⟩
/-- R372: break enabled (R362) -/
def Reg.BRK_EN : Field := ⟨0x481C, 31, 31, 0x0, .rw⟩
/-- R372: GO held at the break -/
def Reg.BRK_HIT : Field := ⟨0x481C, 30, 30, 0x0, .w1c⟩
/-- R372: 0 Run; 1 Idle; 2 Harebell; 3 — -/
def Reg.PSTATE : Field := ⟨0x4820, 31, 30, 0x0, .rd⟩
/-- R372: state requested (R344) -/
def Reg.PWR_REQ : Field := ⟨0x4820, 29, 28, 0x0, .rw⟩
/-- R372: a request or transition is running -/
def Reg.PWR_BUSY : Field := ⟨0x4820, 27, 27, 0x0, .rd⟩
/-- R372: a request was refused -/
def Reg.PWR_REFUSED : Field := ⟨0x4820, 26, 26, 0x0, .w1c⟩
/-- R372: R346; 0x07 keeper lost (R352) -/
def Reg.PWR_CODE : Field := ⟨0x4820, 23, 16, 0x0, .rd⟩
/-- R372: layer engine powered -/
def Reg.LE_ON : Field := ⟨0x4820, 15, 15, 0x0, .rd⟩
/-- R372: temperature above HB_TLIMIT in Harebell -/
def Reg.HB_THERM : Field := ⟨0x4824, 31, 31, 0x0, .w1c⟩
/-- R372: core-die limit, °C -/
def Reg.HB_TLIMIT : Field := ⟨0x4824, 7, 0, 0x69, .rw⟩
/-- R372: zeroize region ZREG -/
def Reg.ZGO : Field := ⟨0x482C, 31, 31, 0x0, .wo⟩
/-- R372: zeroization running -/
def Reg.ZBUSY : Field := ⟨0x482C, 30, 30, 0x0, .rd⟩
/-- R372: a zeroization ended -/
def Reg.ZDONE : Field := ⟨0x482C, 29, 29, 0x0, .w1c⟩
/-- R372: a request was refused -/
def Reg.ZREFUSED : Field := ⟨0x482C, 28, 28, 0x0, .w1c⟩
/-- R372: R366, R369; 0x01 region disabled; 0x02 plan-held -/
def Reg.ZCODE : Field := ⟨0x482C, 23, 16, 0x0, .rd⟩
/-- R372: region -/
def Reg.ZREG : Field := ⟨0x482C, 5, 0, 0x0, .rw⟩
/-- R372: rows zeroized by the last request -/
def Reg.ZROWS : Field := ⟨0x4830, 31, 0, 0x0, .rd⟩
/-- R372: bursts failed after retry -/
def Reg.ZERR : Field := ⟨0x4834, 31, 0, 0x0, .rw⟩
/-- R372: rows skipped on mapped-out channels -/
def Reg.ZSKIP : Field := ⟨0x4838, 31, 0, 0x0, .rw⟩
/-- R372: a request awaits its answer -/
def Reg.ROT_BUSY : Field := ⟨0x4840, 31, 31, 0x0, .rd⟩
/-- R372: R370 -/
def Reg.ROT_KIND : Field := ⟨0x4840, 30, 28, 0x0, .rd⟩
/-- R372: sequencer window selector (R362) -/
def Reg.DSEL : Field := ⟨0x4850, 4, 0, 0x0, .rw⟩
/-- R372: selected value, bits [31:0]; zero below Reach -/
def Reg.DDATA_LO : Field := ⟨0x4858, 31, 0, 0x0, .rd⟩
/-- R372: bits [63:32] -/
def Reg.DDATA_HI : Field := ⟨0x485C, 31, 0, 0x0, .rd⟩
/-- R381: request a test (R375) -/
def Reg.ST_GO : Field := ⟨0x4000, 31, 31, 0x0, .wo⟩
/-- R381: a test is running -/
def Reg.ST_BUSY : Field := ⟨0x4000, 30, 30, 0x0, .rd⟩
/-- R381: a request waits for the step boundary -/
def Reg.ST_PEND : Field := ⟨0x4000, 29, 29, 0x0, .rd⟩
/-- R381: a request has ended -/
def Reg.ST_DONE : Field := ⟨0x4000, 28, 28, 0x0, .w1c⟩
/-- R381: R373 -/
def Reg.ST_CLASS : Field := ⟨0x4000, 27, 24, 0x0, .rw⟩
/-- R381: R375 -/
def Reg.ST_CODE : Field := ⟨0x4000, 23, 16, 0x0, .rd⟩
/-- R381: device, classes 6 and 7 -/
def Reg.ST_DEV : Field := ⟨0x4000, 12, 8, 0x0, .rw⟩
/-- R381: signature of the first mismatching instance, or the matching signature -/
def Reg.ST_SIG : Field := ⟨0x4004, 31, 0, 0x0, .rd⟩
/-- R381: expected signature of the class -/
def Reg.ST_EXP : Field := ⟨0x4008, 31, 0, 0x0, .rd⟩
/-- R381: first mismatching instance: decoder 4·d + c, pool, reducer, BSU 8·c + k or channel -/
def Reg.ST_INST : Field := ⟨0x400C, 15, 0, 0x0, .rd⟩
/-- R381: row under test, class 6 -/
def Reg.ST_ROW : Field := ⟨0x4010, 14, 0, 0x0, .rw⟩
/-- R381: bit d: BSU test passed since the group left service (R377) -/
def Reg.BSUPASS : Field := ⟨0x4014, 23, 0, 0x0, .rd⟩
/-- R381: start-up checker test ended -/
def Reg.CHK_DONE : Field := ⟨0x4018, 31, 31, 0x0, .rd⟩
/-- R381: start-up checker test failed -/
def Reg.CHK_FAIL : Field := ⟨0x4018, 30, 30, 0x0, .rd⟩
/-- R381: first failing pattern -/
def Reg.CHK_PAT : Field := ⟨0x4018, 23, 16, 0x0, .rd⟩
/-- R381: failing decoder, 4·d + c -/
def Reg.CHK_UNIT : Field := ⟨0x4018, 15, 8, 0x0, .rd⟩
/-- R381: tests run to their end -/
def Reg.ST_RUNS : Field := ⟨0x401C, 31, 0, 0x0, .rw⟩
/-- R398: bring-up stage (R396) -/
def Reg.BSTAGE : Field := ⟨0x0000, 31, 28, 0x0, .rd⟩
/-- R398: bring-up stopped by a failure in BSTAGE -/
def Reg.BFAIL : Field := ⟨0x0000, 27, 27, 0x0, .rd⟩
/-- R398: stage 6 waits for: [26] plan, [25] binding, [24] tick, [23] Yarrow or tier -/
def Reg.BWAIT : Field := ⟨0x0000, 26, 23, 0x0, .rd⟩
/-- R398: cause of the last reset, as R394 gives: 0x01 after power-on, 0x02 after PX_RST_N -/
def Reg.RST_CAUSE : Field := ⟨0x0000, 22, 16, 0x1, .rd⟩
/-- R398: PX_MEMKEPT as sampled at the release of the reset -/
def Reg.MEMKEPT : Field := ⟨0x0000, 15, 15, 0x0, .rd⟩
/-- R398: PX_VCORE_GOOD -/
def Reg.VCORE_OK : Field := ⟨0x0004, 31, 31, 0x0, .rd⟩
/-- R398: PX_VPHY_GOOD -/
def Reg.VPHY_OK : Field := ⟨0x0004, 30, 30, 0x0, .rd⟩
/-- R398: PX_VKEEP_GOOD -/
def Reg.VKEEP_OK : Field := ⟨0x0004, 29, 29, 0x0, .rd⟩
/-- R398: R387 -/
def Reg.TICK_OK : Field := ⟨0x0004, 28, 28, 0x0, .rd⟩
/-- R398: core-die junction, °C, two's complement -/
def Reg.TJ_CORE : Field := ⟨0x0004, 7, 0, 0x0, .rd⟩
/-- R398: bit n set each time the block raises PX_IRQ[n] -/
def Reg.IRQ_STAT : Field := ⟨0x0008, 7, 0, 0x0, .w1c⟩
/-- R398: PX_IRQ[n] is high while IRQ_STAT bit n and IRQ_EN bit n are both set -/
def Reg.IRQ_EN : Field := ⟨0x000C, 7, 0, 0xFF, .rw⟩
/-- R398: global tick at the read, bits [31:0] -/
def Reg.TICK_LO : Field := ⟨0x0010, 31, 0, 0x0, .rd⟩
/-- R398: bits [63:32]; latched when TICK_LO is read -/
def Reg.TICK_HI : Field := ⟨0x0014, 31, 0, 0x0, .rd⟩
/-- R413: cap, in 1/256 of B; 256 for none -/
def Reg.CAP (i : Nat) : Field := ⟨0x1800 + 16 * i, 24, 16, (partitionReset i).1, .rw⟩
/-- R413: guaranteed share, in 1/256 of B -/
def Reg.GUAR (i : Nat) : Field := ⟨0x1800 + 16 * i, 8, 0, (partitionReset i).2, .rw⟩
/-- R413: sectors charged in the last complete window -/
def Reg.LASTUSE (i : Nat) : Field := ⟨0x1804 + 16 * i, 19, 0, 0x0, .rd⟩
/-- R413: windows in which the partition reached its cap -/
def Reg.CAPHIT (i : Nat) : Field := ⟨0x1808 + 16 * i, 31, 0, 0x0, .rw⟩
/-- R413: bits [3s+2:3s]: partition of source s, s = 0 to 7 -/
def Reg.SRCMAP_LO : Field := ⟨0x1880, 23, 0, 0x0, .rw⟩
/-- R413: bits [3(s−8)+2 : 3(s−8)]: partition of source s, s = 8 to 15 -/
def Reg.SRCMAP_HI : Field := ⟨0x1884, 23, 0, 0x8DA489, .rw⟩
/-- R413: a regulator write was refused -/
def Reg.REG_REFUSED : Field := ⟨0x1888, 31, 31, 0x0, .w1c⟩
/-- R413: R412 -/
def Reg.REG_CODE : Field := ⟨0x1888, 23, 16, 0x0, .rd⟩
/-- R413: B of the window in progress -/
def Reg.BUDGET : Field := ⟨0x188C, 19, 0, 0x0, .rd⟩
/-- R415: counters frozen -/
def Reg.PC_FREEZE : Field := ⟨0x6000, 31, 31, 0x0, .rw⟩
/-- R415: write 1 to clear every counter -/
def Reg.PC_CLR : Field := ⟨0x6000, 30, 30, 0x0, .wo⟩
/-- R415: sectors charged to regulator partition n, bits [31:0] -/
def Reg.PSECT_LO (i : Nat) : Field := ⟨0x6100 + 8 * i, 31, 0, 0x0, .rw⟩
/-- R415: bits [63:32] -/
def Reg.PSECT_HI (i : Nat) : Field := ⟨0x6104 + 8 * i, 31, 0, 0x0, .rw⟩
/-- R415: performance counter i, LO word -/
def Reg.PC_LO (i : Nat) : Field := ⟨0x6010 + 8 * i, 31, 0, 0x0, .rw⟩
/-- R415: performance counter i, HI word -/
def Reg.PC_HI (i : Nat) : Field := ⟨0x6014 + 8 * i, 31, 0, 0x0, .rw⟩

/-- The region block of R11, row by row. -/
def regRows_region : List FieldRow :=
  [⟨Reg.R_EN 0, 16, 64⟩,
   ⟨Reg.R_INIT 0, 16, 64⟩,
   ⟨Reg.R_CLASS 0, 16, 64⟩,
   ⟨Reg.R_CODE 0, 16, 64⟩,
   ⟨Reg.R_PLACE 0, 16, 64⟩,
   ⟨Reg.R_G16W 0, 16, 64⟩,
   ⟨Reg.R_PORT 0, 16, 64⟩,
   ⟨Reg.R_SLOT 0, 16, 64⟩,
   ⟨Reg.R_LINK_B 0, 16, 64⟩,
   ⟨Reg.R_LINK_A 0, 16, 64⟩,
   ⟨Reg.R_DEVMASK 0, 16, 64⟩,
   ⟨Reg.R_PERM_HOST 0, 16, 64⟩,
   ⟨Reg.R_PERM_DEBUG 0, 16, 64⟩,
   ⟨Reg.R_PERM_TIER 0, 16, 64⟩,
   ⟨Reg.R_PERM_REMOTE 0, 16, 64⟩,
   ⟨Reg.R_PERM_ENGINE 0, 16, 64⟩,
   ⟨Reg.R_BANKMASK 0, 16, 64⟩,
   ⟨Reg.R_CHMASK 0, 16, 64⟩,
   ⟨Reg.R_LASTROW 0, 16, 64⟩,
   ⟨Reg.R_FIRSTROW 0, 16, 64⟩,
   ⟨Reg.BUSY, 0, 1⟩,
   ⟨Reg.REFUSED, 0, 1⟩,
   ⟨Reg.REF_ENTRY, 0, 1⟩,
   ⟨Reg.REF_CODE, 0, 1⟩,
   ⟨Reg.INIT_PEND_LO, 0, 1⟩,
   ⟨Reg.INIT_PEND_HI, 0, 1⟩]

/-- The step block of R11, row by row. -/
def regRows_step : List FieldRow :=
  [⟨Reg.GO, 0, 1⟩,
   ⟨Reg.VARIANT_LO, 0, 1⟩,
   ⟨Reg.VARIANT_HI, 0, 1⟩,
   ⟨Reg.LSE, 0, 1⟩,
   ⟨Reg.SEED_LO, 0, 1⟩,
   ⟨Reg.SEED_HI, 0, 1⟩,
   ⟨Reg.STEP_LO, 0, 1⟩,
   ⟨Reg.STEP_HI, 0, 1⟩,
   ⟨Reg.GSTEP_LO, 0, 1⟩,
   ⟨Reg.GSTEP_HI, 0, 1⟩,
   ⟨Reg.PHASE, 0, 1⟩,
   ⟨Reg.STALLED, 0, 1⟩,
   ⟨Reg.HELD, 0, 1⟩,
   ⟨Reg.OUTCOME, 0, 1⟩,
   ⟨Reg.GO_REFUSED, 0, 1⟩,
   ⟨Reg.REASON, 0, 1⟩,
   ⟨Reg.ODIG_LO, 0, 1⟩,
   ⟨Reg.ODIG_HI, 0, 1⟩,
   ⟨Reg.STALL_LIMIT, 0, 1⟩,
   ⟨Reg.STAMP_LO 0, 8, 6⟩,
   ⟨Reg.STAMP_HI 0, 8, 6⟩,
   ⟨Reg.NORMSQ_LO 0, 8, 8⟩,
   ⟨Reg.NORMSQ_HI 0, 8, 8⟩,
   ⟨Reg.SG_SET, 0, 1⟩,
   ⟨Reg.SG_REFUSED, 0, 1⟩,
   ⟨Reg.SET_S_LO, 0, 1⟩,
   ⟨Reg.SET_S_HI, 0, 1⟩,
   ⟨Reg.SET_G_LO, 0, 1⟩,
   ⟨Reg.SET_G_HI, 0, 1⟩,
   ⟨Reg.MBOX_LO 0, 8, 8⟩,
   ⟨Reg.MBOX_HI 0, 8, 8⟩]

/-- The sequencer block of R11, row by row. -/
def regRows_sequencer : List FieldRow :=
  [⟨Reg.LOAD, 0, 1⟩,
   ⟨Reg.SWAP, 0, 1⟩,
   ⟨Reg.SRCREG, 0, 1⟩,
   ⟨Reg.LSTATE, 0, 1⟩,
   ⟨Reg.BADPOST, 0, 1⟩,
   ⟨Reg.LOAD_CODE, 0, 1⟩,
   ⟨Reg.TRAP_CAUSE, 0, 1⟩,
   ⟨Reg.LOAD_SECT, 0, 1⟩,
   ⟨Reg.LOAD_DETAIL, 0, 1⟩,
   ⟨Reg.TRAP_PC, 0, 1⟩,
   ⟨Reg.TRAP_INFO, 0, 1⟩,
   ⟨Reg.PLAN_ID_LO, 0, 1⟩,
   ⟨Reg.PLAN_ID_HI, 0, 1⟩,
   ⟨Reg.SWAP_STEP_LO, 0, 1⟩,
   ⟨Reg.SWAP_STEP_HI, 0, 1⟩,
   ⟨Reg.PEND_ID_LO, 0, 1⟩,
   ⟨Reg.PEND_ID_HI, 0, 1⟩,
   ⟨Reg.COLL_POST, 0, 1⟩,
   ⟨Reg.COLL_NEXT, 0, 1⟩,
   ⟨Reg.COLL_ACTIVE, 0, 1⟩,
   ⟨Reg.SEQ_PC, 0, 1⟩]

/-- The exchange block of R11, row by row. -/
def regRows_exchange : List FieldRow :=
  [⟨Reg.BOUND, 0, 1⟩,
   ⟨Reg.SLICE, 0, 1⟩,
   ⟨Reg.SLICE_IX, 0, 1⟩,
   ⟨Reg.PORT_UP, 0, 1⟩,
   ⟨Reg.PORT_FAIL, 0, 1⟩,
   ⟨Reg.TOPO_LO, 0, 1⟩,
   ⟨Reg.TOPO_HI, 0, 1⟩,
   ⟨Reg.CNT_GO, 0, 1⟩,
   ⟨Reg.CNT_BUSY, 0, 1⟩,
   ⟨Reg.CNT_DONE, 0, 1⟩,
   ⟨Reg.CNT_REFUSED, 0, 1⟩,
   ⟨Reg.CNT_REG, 0, 1⟩,
   ⟨Reg.CNT_OFF_LO, 0, 1⟩,
   ⟨Reg.CNT_OFF_HI, 0, 1⟩,
   ⟨Reg.DEFER_HINT, 0, 1⟩,
   ⟨Reg.REMOTE_WEIGHT, 0, 1⟩,
   ⟨Reg.REMOTE_EPOCH, 0, 1⟩,
   ⟨Reg.REF_EPOCH, 0, 1⟩,
   ⟨Reg.REF_STEP, 0, 1⟩,
   ⟨Reg.REF_OTHER, 0, 1⟩,
   ⟨Reg.DEFERS, 0, 1⟩,
   ⟨Reg.RESFAULTS, 0, 1⟩,
   ⟨Reg.NACK_IN, 0, 1⟩,
   ⟨Reg.LREF_CODE, 0, 1⟩,
   ⟨Reg.LREF_KIND, 0, 1⟩,
   ⟨Reg.LREF_SRC, 0, 1⟩,
   ⟨Reg.LREF_INDEX, 0, 1⟩,
   ⟨Reg.ARR_NEXT, 0, 1⟩]

/-- The devices block of R11, row by row. -/
def regRows_devices : List FieldRow :=
  [⟨Reg.TRAIN, 0, 1⟩,
   ⟨Reg.TSTATE, 0, 1⟩,
   ⟨Reg.RATE, 0, 1⟩,
   ⟨Reg.PRESENT, 0, 1⟩,
   ⟨Reg.UDEV, 0, 1⟩,
   ⟨Reg.DENS32, 0, 1⟩,
   ⟨Reg.OOS_REQ, 0, 1⟩,
   ⟨Reg.OOS, 0, 1⟩,
   ⟨Reg.HOT85, 0, 1⟩,
   ⟨Reg.HOT95, 0, 1⟩,
   ⟨Reg.HOT105, 0, 1⟩,
   ⟨Reg.TEMP 0, 4, 24⟩,
   ⟨Reg.PXB_REV 0, 4, 24⟩,
   ⟨Reg.TCAUSE 0, 4, 24⟩,
   ⟨Reg.REFPOST, 0, 1⟩,
   ⟨Reg.OVERRUN, 0, 1⟩,
   ⟨Reg.LINKRETRY, 0, 1⟩,
   ⟨Reg.LINKERR, 0, 1⟩,
   ⟨Reg.TUCS_APPLY, 0, 1⟩,
   ⟨Reg.TUCS_SCAN, 0, 1⟩,
   ⟨Reg.TUCS_REMAP, 0, 1⟩,
   ⟨Reg.TUSS, 0, 1⟩,
   ⟨Reg.TUAW_UNITS, 0, 1⟩,
   ⟨Reg.UCONC, 0, 1⟩]

/-- The tier block of R11, row by row. -/
def regRows_tier : List FieldRow :=
  [⟨Reg.TEN, 0, 1⟩,
   ⟨Reg.TUP, 0, 1⟩,
   ⟨Reg.THALT, 0, 1⟩,
   ⟨Reg.TQUEUED, 0, 1⟩,
   ⟨Reg.TIER_SLOTS, 0, 1⟩,
   ⟨Reg.TIER_BASE_LO, 0, 1⟩,
   ⟨Reg.TIER_BASE_HI, 0, 1⟩,
   ⟨Reg.TMOVES, 0, 1⟩,
   ⟨Reg.TOUTS, 0, 1⟩,
   ⟨Reg.TLATE, 0, 1⟩,
   ⟨Reg.TBADENT, 0, 1⟩,
   ⟨Reg.TNRES, 0, 1⟩,
   ⟨Reg.THALT_SLOT, 0, 1⟩,
   ⟨Reg.THALT_CAUSE, 0, 1⟩,
   ⟨Reg.XGO, 0, 1⟩,
   ⟨Reg.XIMP, 0, 1⟩,
   ⟨Reg.XBUSY, 0, 1⟩,
   ⟨Reg.XDONE, 0, 1⟩,
   ⟨Reg.XCONT, 0, 1⟩,
   ⟨Reg.XCODE, 0, 1⟩,
   ⟨Reg.XSHARD, 0, 1⟩,
   ⟨Reg.XFAR, 0, 1⟩,
   ⟨Reg.XREG, 0, 1⟩,
   ⟨Reg.XOFF_LO, 0, 1⟩,
   ⟨Reg.XOFF_HI, 0, 1⟩,
   ⟨Reg.XLEN, 0, 1⟩,
   ⟨Reg.XDIG_LO, 0, 1⟩,
   ⟨Reg.XDIG_HI, 0, 1⟩,
   ⟨Reg.RGO, 0, 1⟩,
   ⟨Reg.RBUSY, 0, 1⟩,
   ⟨Reg.RDONE, 0, 1⟩,
   ⟨Reg.RUNIT, 0, 1⟩,
   ⟨Reg.RCODE, 0, 1⟩,
   ⟨Reg.RREG, 0, 1⟩,
   ⟨Reg.RFIRST, 0, 1⟩,
   ⟨Reg.RCOUNT, 0, 1⟩,
   ⟨Reg.RDEV, 0, 1⟩,
   ⟨Reg.RCH, 0, 1⟩,
   ⟨Reg.RK, 0, 1⟩,
   ⟨Reg.RROW, 0, 1⟩,
   ⟨Reg.RSTEP_LO, 0, 1⟩,
   ⟨Reg.RSTEP_HI, 0, 1⟩,
   ⟨Reg.RMISS, 0, 1⟩,
   ⟨Reg.RSKIP, 0, 1⟩,
   ⟨Reg.RFMISS, 0, 1⟩,
   ⟨Reg.RECROWS, 0, 1⟩]

/-- The errorLog block of R11, row by row. -/
def regRows_errorLog : List FieldRow :=
  [⟨Reg.HOLD_CLR, 0, 1⟩,
   ⟨Reg.CLOVER_GO, 0, 1⟩,
   ⟨Reg.AUTOREMAP, 0, 1⟩,
   ⟨Reg.CLOVER, 0, 1⟩,
   ⟨Reg.UE_ANY, 0, 1⟩,
   ⟨Reg.CE_ANY, 0, 1⟩,
   ⟨Reg.SCRUB_EN, 0, 1⟩,
   ⟨Reg.HOLD_CAUSE, 0, 1⟩,
   ⟨Reg.LOG_SEQ, 0, 1⟩,
   ⟨Reg.CE_TOTAL, 0, 1⟩,
   ⟨Reg.UE_TOTAL, 0, 1⟩,
   ⟨Reg.SCRUB_FIX, 0, 1⟩,
   ⟨Reg.SCRUB_DROP, 0, 1⟩,
   ⟨Reg.TRK_DROP, 0, 1⟩,
   ⟨Reg.REMAP_FULL, 0, 1⟩,
   ⟨Reg.LAP_LO, 0, 1⟩,
   ⟨Reg.LAP_HI, 0, 1⟩,
   ⟨Reg.SPOS_DEV, 0, 1⟩,
   ⟨Reg.SPOS_CH, 0, 1⟩,
   ⟨Reg.SPOS_BANK, 0, 1⟩,
   ⟨Reg.SPOS_ROW, 0, 1⟩,
   ⟨Reg.REVIEW, 0, 1⟩,
   ⟨Reg.BSU_REVIEW, 0, 1⟩,
   ⟨Reg.MAPOUT_GO, 0, 1⟩,
   ⟨Reg.TABLD_GO, 0, 1⟩,
   ⟨Reg.REP_BUSY, 0, 1⟩,
   ⟨Reg.REP_REFUSED, 0, 1⟩,
   ⟨Reg.MDEV, 0, 1⟩,
   ⟨Reg.MCH, 0, 1⟩,
   ⟨Reg.MAPPED_LO, 0, 1⟩,
   ⟨Reg.MAPPED_MID, 0, 1⟩,
   ⟨Reg.MAPPED_HI, 0, 1⟩,
   ⟨Reg.YSTATE, 0, 1⟩,
   ⟨Reg.YLSTATE, 0, 1⟩,
   ⟨Reg.YCODE, 0, 1⟩,
   ⟨Reg.YGO, 0, 1⟩,
   ⟨Reg.YEMIT, 0, 1⟩,
   ⟨Reg.YVERD, 0, 1⟩,
   ⟨Reg.YREASON, 0, 1⟩,
   ⟨Reg.YLOG_REG, 0, 1⟩,
   ⟨Reg.YLOG_UNIT, 0, 1⟩,
   ⟨Reg.YNSQ_LO 0, 8, 8⟩,
   ⟨Reg.YNSQ_HI 0, 8, 8⟩,
   ⟨Reg.DEVCE 0, 4, 24⟩,
   ⟨Reg.SHL_OVF, 0, 1⟩,
   ⟨Reg.SHL_N, 0, 1⟩,
   ⟨Reg.SHL_CAUSE 0, 4, 16⟩,
   ⟨Reg.SHL_SHARD 0, 4, 16⟩,
   ⟨Reg.E_SEQ 0, 32, 64⟩,
   ⟨Reg.E_TICK_LO 0, 32, 64⟩,
   ⟨Reg.E_TICK_HI 0, 32, 64⟩,
   ⟨Reg.E_CLASS 0, 32, 64⟩,
   ⟨Reg.E_SRC 0, 32, 64⟩,
   ⟨Reg.E_DEV 0, 32, 64⟩,
   ⟨Reg.E_CH 0, 32, 64⟩,
   ⟨Reg.E_BANK 0, 32, 64⟩,
   ⟨Reg.E_ROW 0, 32, 64⟩,
   ⟨Reg.E_LINE 0, 32, 64⟩,
   ⟨Reg.E_LOCV 0, 32, 64⟩,
   ⟨Reg.E_SYND 0, 32, 64⟩,
   ⟨Reg.E_INFO 0, 32, 64⟩,
   ⟨Reg.E_REGION 0, 32, 64⟩]

/-- The remap block of R11, row by row. -/
def regRows_remap : List FieldRow :=
  [⟨Reg.RM_DEV, 0, 1⟩,
   ⟨Reg.RM_BANK, 0, 1⟩,
   ⟨Reg.RM_WRITE, 0, 1⟩,
   ⟨Reg.RM_BUSY, 0, 1⟩,
   ⟨Reg.RM_REFUSED, 0, 1⟩,
   ⟨Reg.RM_USED, 0, 1⟩,
   ⟨Reg.RM_VALID 0, 4, 4⟩,
   ⟨Reg.RM_ROW 0, 4, 4⟩,
   ⟨Reg.RM_LINE 0, 4, 4⟩,
   ⟨Reg.RM_TOTAL, 0, 1⟩]

/-- The security block of R11, row by row. -/
def regRows_security : List FieldRow :=
  [⟨Reg.PART, 0, 1⟩,
   ⟨Reg.CORE_REV, 0, 1⟩,
   ⟨Reg.PHY_REV, 0, 1⟩,
   ⟨Reg.UID_LO, 0, 1⟩,
   ⟨Reg.UID_HI, 0, 1⟩,
   ⟨Reg.LCS, 0, 1⟩,
   ⟨Reg.ZPEND, 0, 1⟩,
   ⟨Reg.LC_BUSY, 0, 1⟩,
   ⟨Reg.LC_ADV, 0, 1⟩,
   ⟨Reg.LC_TGT, 0, 1⟩,
   ⟨Reg.LC_REFUSED, 0, 1⟩,
   ⟨Reg.LC_CODE, 0, 1⟩,
   ⟨Reg.LOADREF, 0, 1⟩,
   ⟨Reg.DBG_LVL, 0, 1⟩,
   ⟨Reg.DBG_REQ, 0, 1⟩,
   ⟨Reg.DBG_PEND, 0, 1⟩,
   ⟨Reg.DBG_REFUSED, 0, 1⟩,
   ⟨Reg.DBG_ENDED, 0, 1⟩,
   ⟨Reg.BRK_STEP_LO, 0, 1⟩,
   ⟨Reg.BRK_STEP_HI, 0, 1⟩,
   ⟨Reg.BRK_EN, 0, 1⟩,
   ⟨Reg.BRK_HIT, 0, 1⟩,
   ⟨Reg.PSTATE, 0, 1⟩,
   ⟨Reg.PWR_REQ, 0, 1⟩,
   ⟨Reg.PWR_BUSY, 0, 1⟩,
   ⟨Reg.PWR_REFUSED, 0, 1⟩,
   ⟨Reg.PWR_CODE, 0, 1⟩,
   ⟨Reg.LE_ON, 0, 1⟩,
   ⟨Reg.HB_THERM, 0, 1⟩,
   ⟨Reg.HB_TLIMIT, 0, 1⟩,
   ⟨Reg.ZGO, 0, 1⟩,
   ⟨Reg.ZBUSY, 0, 1⟩,
   ⟨Reg.ZDONE, 0, 1⟩,
   ⟨Reg.ZREFUSED, 0, 1⟩,
   ⟨Reg.ZCODE, 0, 1⟩,
   ⟨Reg.ZREG, 0, 1⟩,
   ⟨Reg.ZROWS, 0, 1⟩,
   ⟨Reg.ZERR, 0, 1⟩,
   ⟨Reg.ZSKIP, 0, 1⟩,
   ⟨Reg.ROT_BUSY, 0, 1⟩,
   ⟨Reg.ROT_KIND, 0, 1⟩,
   ⟨Reg.DSEL, 0, 1⟩,
   ⟨Reg.DDATA_LO, 0, 1⟩,
   ⟨Reg.DDATA_HI, 0, 1⟩]

/-- The selfTest block of R11, row by row. -/
def regRows_selfTest : List FieldRow :=
  [⟨Reg.ST_GO, 0, 1⟩,
   ⟨Reg.ST_BUSY, 0, 1⟩,
   ⟨Reg.ST_PEND, 0, 1⟩,
   ⟨Reg.ST_DONE, 0, 1⟩,
   ⟨Reg.ST_CLASS, 0, 1⟩,
   ⟨Reg.ST_CODE, 0, 1⟩,
   ⟨Reg.ST_DEV, 0, 1⟩,
   ⟨Reg.ST_SIG, 0, 1⟩,
   ⟨Reg.ST_EXP, 0, 1⟩,
   ⟨Reg.ST_INST, 0, 1⟩,
   ⟨Reg.ST_ROW, 0, 1⟩,
   ⟨Reg.BSUPASS, 0, 1⟩,
   ⟨Reg.CHK_DONE, 0, 1⟩,
   ⟨Reg.CHK_FAIL, 0, 1⟩,
   ⟨Reg.CHK_PAT, 0, 1⟩,
   ⟨Reg.CHK_UNIT, 0, 1⟩,
   ⟨Reg.ST_RUNS, 0, 1⟩]

/-- The global block of R11, row by row. -/
def regRows_global : List FieldRow :=
  [⟨Reg.BSTAGE, 0, 1⟩,
   ⟨Reg.BFAIL, 0, 1⟩,
   ⟨Reg.BWAIT, 0, 1⟩,
   ⟨Reg.RST_CAUSE, 0, 1⟩,
   ⟨Reg.MEMKEPT, 0, 1⟩,
   ⟨Reg.VCORE_OK, 0, 1⟩,
   ⟨Reg.VPHY_OK, 0, 1⟩,
   ⟨Reg.VKEEP_OK, 0, 1⟩,
   ⟨Reg.TICK_OK, 0, 1⟩,
   ⟨Reg.TJ_CORE, 0, 1⟩,
   ⟨Reg.IRQ_STAT, 0, 1⟩,
   ⟨Reg.IRQ_EN, 0, 1⟩,
   ⟨Reg.TICK_LO, 0, 1⟩,
   ⟨Reg.TICK_HI, 0, 1⟩]

/-- The regulator block of R11, row by row. -/
def regRows_regulator : List FieldRow :=
  [⟨Reg.CAP 0, 16, 8⟩,
   ⟨Reg.GUAR 0, 16, 8⟩,
   ⟨Reg.LASTUSE 0, 16, 8⟩,
   ⟨Reg.CAPHIT 0, 16, 8⟩,
   ⟨Reg.SRCMAP_LO, 0, 1⟩,
   ⟨Reg.SRCMAP_HI, 0, 1⟩,
   ⟨Reg.REG_REFUSED, 0, 1⟩,
   ⟨Reg.REG_CODE, 0, 1⟩,
   ⟨Reg.BUDGET, 0, 1⟩]

/-- The counters block of R11, row by row. -/
def regRows_counters : List FieldRow :=
  [⟨Reg.PC_FREEZE, 0, 1⟩,
   ⟨Reg.PC_CLR, 0, 1⟩,
   ⟨Reg.PSECT_LO 0, 8, 8⟩,
   ⟨Reg.PSECT_HI 0, 8, 8⟩,
   ⟨Reg.PC_LO 0, 8, 25⟩,
   ⟨Reg.PC_HI 0, 8, 25⟩]

/-- The rows of the block of the window (R11) that holds offset `off`. -/
def regRowsAt (off : Nat) : List FieldRow :=
  if off < 0x200 then regRows_global else if off < 0x400 then regRows_tier
  else if off < 0x800 then regRows_sequencer else if off < 0x1000 then regRows_step
  else if off < 0x1800 then regRows_region else if off < 0x2000 then regRows_regulator
  else if off < 0x3000 then regRows_errorLog else if off < 0x4000 then regRows_remap
  else if off < 0x4800 then regRows_selfTest else if off < 0x5000 then regRows_security
  else if off < 0x6000 then regRows_exchange else if off < 0x8000 then regRows_counters
  else regRows_devices

/-- The element of a row that lies at offset `off`, if the row covers it. -/
def FieldRow.covers (r : FieldRow) (off : Nat) : Option Field :=
  if r.stride = 0 then (if off = r.field.off then some r.field else none)
  else if off < r.field.off then none
  else if (off - r.field.off) % r.stride = 0 ∧ (off - r.field.off) / r.stride < r.count then
    some (if r.field.off = 0x1800 ∧ r.field.lo = 16 then Reg.CAP ((off - r.field.off) / r.stride)
      else if r.field.off = 0x1800 then Reg.GUAR ((off - r.field.off) / r.stride)
      else r.at ((off - r.field.off) / r.stride))
  else none

/-- Every field of the register at offset `off`; none where the index of R408 lists no register. -/
def regFields (off : Nat) : List Field := (regRowsAt off).filterMap (FieldRow.covers · off)

end Sys2Proof.Machine
end

