-- ==== Sys2Proof/Config.lean ====
section
/-! DEFINITION. What one part fixes and the manual leaves open, and the free values: constants with no body, so that no
proof can see what they are. -/

namespace Sys2Proof

/-- The unique identity in the fuses (R372, reset "fused"): each part has its own (log entry 4). -/
opaque Config.fusedUid : DWord

/-- A free value: `freeValue n` is the n-th value that the manual leaves open (log entry 6). -/
opaque Config.freeValue : Nat → DWord

/-- The core-die junction temperature that TJ_CORE shows at a time, °C in two's complement (R391, R398; log entry 28). -/
opaque Config.coreTemp : Nat → Byte

/-- The direction that R144 leaves open where the sum of the squares of the gradient is not finite: by the gradient's elements and the
element's number (log entry 67). -/
opaque Config.openDirection : List Word → Nat → Word

/-- The response words of an instance of a self-test class, which the manual does not give (R378; log entry 100). -/
opaque Config.testResponses : Nat → Nat → List Word

end Sys2Proof
end

