-- ==== Sys2Proof/Machine/State.lean ====
section
/-! DEFINITION. The state of the block as plain data: the register file, the device rows, the loaded plan, the running
step, the exchange, the bank-side units, the tier, the requests that wait for a boundary, and the queue of commands. -/

namespace Sys2Proof.Machine

/-- The register file (R408): (key, value) for every field whose value differs from its reset value, keys rising. -/
abbrev RegFile := List (Nat × Nat)

/-- A row of a device (R12). -/
structure RowLoc where
  dev  : Nat
  ch   : Nat
  bank : Nat
  row  : Nat
  deriving DecidableEq, Repr

/-- A line of a row, by its home location (R19). -/
structure LineLoc where
  loc  : RowLoc
  line : Nat
  deriving DecidableEq, Repr

/-- The sticky arithmetic flags of a group and the conversion's NONFIN (R90, R276). -/
structure Flags where
  nonfin   : Bool
  invalid  : Bool
  overflow : Bool
  flushed  : Bool
  deriving DecidableEq, Repr

/-- No flag set. -/
def Flags.clear : Flags := ⟨false, false, false, false⟩

/-- The clock: model time in ns and the global tick PX_TICK (R387). -/
structure Clock where
  time    : Nat
  tick    : Nat
  ticking : Bool
  deriving DecidableEq, Repr

/-- Pins (R382): resets held low, PX_MEMKEPT as sampled, PX_F_RDY, PX_F_FAIL, PX_TIER_RDY, PX_TIER_UP (log entry 21);
devices in self-refresh and the time at which the keeper puts them there after a reset (R329, R394). -/
structure Pins where
  rstLow    : Bool
  wrstLow   : Bool
  memkept   : Bool
  fRdy      : Nat
  fFail     : Nat
  tierRdy   : Bool
  tierUp    : Bool
  selfRef   : Bool
  selfRefAt : Option Nat
  deriving DecidableEq, Repr

/-- One-time fuses (R349, R354, R357). -/
structure Fuses where
  lcs   : Nat
  zpend : Bool
  uid   : DWord
  deriving DecidableEq, Repr

/-- The commit-phase summary that Harebell entry leaves in the keeper (R349). -/
structure KeeperSummary where
  logState : Nat
  s        : Nat
  deriving DecidableEq, Repr

/-- A changed 32 B sector still in the write-combining buffer: its address and what the device still holds (R25). -/
structure WcbSector where
  addr : Nat
  old  : List Byte
  deriving DecidableEq, Repr

/-- A remap entry of a bank as the controller holds it (R45). -/
structure RemapEntry where
  dev   : Nat
  bank  : Nat
  slot  : Nat
  row   : Nat
  line  : Nat
  deriving DecidableEq, Repr

/-- An entry of the tracking table (R324). -/
structure Track where
  line  : LineLoc
  count : Nat
  first : Nat
  armed : Bool
  deriving DecidableEq, Repr

/-- What the error paths keep beside the registers (R322 to R327, R336). -/
structure FaultState where
  remap     : List RemapEntry
  tracks    : List Track
  ceWindow  : List (Nat × Nat)
  lasting   : List LineLoc
  scrubPos  : List (Nat × Nat)
  lapStart  : Nat
  lapDone   : List Nat
  holdNext  : List Nat
  deriving DecidableEq, Repr

/-! ### The plan -/

/-- The header of a plan image (R161). -/
structure PlanHeader where
  planId    : Nat
  imageLen  : Nat
  markLen   : Nat
  cfg       : Nat
  topo      : Nat
  pxbRev    : Nat
  sched     : Nat
  ngroup    : Nat
  nlayer    : Nat
  nshard    : Nat
  stepEntry : Nat
  hotLen    : Nat
  unitReg   : Nat
  nunit     : Nat
  nblock    : Nat
  blockNo   : Nat
  insnLimit : Nat
  deriving DecidableEq, Repr

/-- A section of the image (R162, R163) with its bytes. -/
structure Section where
  typ   : Nat
  bw    : Bool
  off   : Nat
  bytes : List Byte
  deriving DecidableEq, Repr

/-- The plan-set fields of a group descriptor (R110). -/
structure GroupCfg where
  rule    : Nat
  clipen  : Bool
  clipcls : Nat
  ukind   : Nat
  bc      : Bool
  flush   : Bool
  schedix : Nat
  offset  : Int
  lr      : Word
  beta1   : Word
  beta2   : Word
  eps     : Word
  wd      : Word
  clipmax : Word
  trust   : Word
  dscale  : Word
  deriving DecidableEq, Repr

/-- A group: its plan-set fields, the block-set fields of its descriptor (R90, R110), and the constants omb1 and omb2
computed at plan load (R115). -/
structure Group where
  cfg    : GroupCfg
  flags  : Flags
  eta    : Word
  clip   : Word
  trustv : Word
  omb1   : Word
  omb2   : Word
  deriving DecidableEq, Repr

/-- The plan-set fields of a shard descriptor (R103, R166). -/
structure ShardCfg where
  margin   : Nat
  rmode    : Nat
  fmt      : Nat
  tensorId : Nat
  base     : Nat
  cb       : List Half
  sregion  : Nat
  firstu   : Nat
  nrows    : Nat
  elems    : Nat
  group0   : Nat
  deriving DecidableEq, Repr

/-- A shard: plan-set fields, block-set conversion fields (R103, R104) and the saturations counted in the running step. -/
structure Shard where
  cfg      : ShardCfg
  satcnt   : Nat
  xexp     : Int
  nonfin   : Bool
  amax     : Word
  amaxLast : Word
  stepSat  : Nat
  touched  : Bool
  deriving DecidableEq, Repr

/-- The plan-set fields of a layer descriptor (R141). -/
structure LayerCfg where
  mrule     : Nat
  niter     : Nat
  nroot     : Nat
  coef      : Nat
  group     : Nat
  rows      : Nat
  cols      : Nat
  rootint   : Nat
  rootphase : Nat
  shard     : Nat
  freg      : Nat
  sreg      : Nat
  srow      : Nat
  frow      : Nat
  betaf     : Word
  epsf      : Word
  rthr      : Word
  deriving DecidableEq, Repr

/-- A layer: plan-set fields and the block-set status (R141). -/
structure Layer where
  cfg    : LayerCfg
  dstate : Nat
  fsel   : Bool
  rselL  : Bool
  rselR  : Bool
  okL    : Bool
  okR    : Bool
  rootfb : Bool
  zerog  : Bool
  dstep  : Nat
  residL : Word
  residR : Word
  deriving DecidableEq, Repr

/-- A sub-variant record (R170). -/
structure SubVariant where
  ceOff : Nat
  ceN   : Nat
  clOff : Nat
  clN   : Nat
  eeOff : Nat
  eeN   : Nat
  elOff : Nat
  elN   : Nat
  asOff : Nat
  asN   : Nat
  lyOff : Nat
  lyN   : Nat
  poolBase : Nat
  poolLim  : Nat
  demOff   : Nat
  deriving DecidableEq, Repr

/-- A bundle of the variant table (R169): radix and sub-variant records in digit order. -/
structure Bundle where
  radix : Nat
  subs  : List SubVariant
  deriving DecidableEq, Repr

/-- The control-tree section (R230). -/
structure Tree where
  parent    : Nat
  tepoch    : Nat
  cmode     : Nat
  nexpt     : Nat
  roleEpoch : List Nat
  children  : List Nat
  deriving DecidableEq, Repr

/-- A far-homed shard (R297). -/
structure FarShard where
  shard : Nat
  slot0 : Nat
  deriving DecidableEq, Repr

/-- A loaded or pending plan: the image's region, its header and sections, and its parsed tables. -/
structure Plan where
  region   : Nat
  hdr      : PlanHeader
  sections : List Section
  regions  : List (Nat × List Nat)
  devices  : List Nat
  groups   : List Group
  shards   : List Shard
  layers   : List Layer
  base     : SubVariant
  bundles  : List Bundle
  tree     : Tree
  slices   : List Nat
  odig     : List (Nat × Nat)
  far      : List FarShard
  jreg     : Nat
  junit    : Nat
  deriving DecidableEq, Repr

/-- A load in progress (R167, R182): staging region, swap or not, the root of trust's answer. -/
structure LoadRun where
  region : Nat
  swap   : Bool
  answer : Option Bool
  deriving DecidableEq, Repr

/-- The plan side of the state. -/
structure PlanState where
  plan    : Option Plan
  pend    : Option Plan
  load    : Option LoadRun
  deriving DecidableEq, Repr

/-! ### The sequencer -/

/-- What a waiting instruction waits for (R188). -/
inductive SeqWait where
  | openVerdict | sealArrival | sealVerdict | coll (q : Nat) | cwait (q : Nat) | cdone | lwait | twait | stepend
  deriving DecidableEq, Repr

/-- The sequencer's machine state (R172), its wait (R188), and the phase facts its rules test (R190). -/
structure Seq where
  s        : List DWord
  a        : List (BitVec 48)
  p        : List Bool
  pc       : Nat
  stack    : List Nat
  count    : Nat
  running  : Bool
  trapped  : Bool
  wait     : Option SeqWait
  openRun  : Bool
  openV    : Nat
  sealRun  : Bool
  sealV    : Nat
  commitRun : Bool
  cdoneOk  : Bool
  deriving DecidableEq, Repr

/-- The instruction cache (R177): lines held (line number, locked), the bypass buffer, and the line awaited. -/
structure ICache where
  lines  : List (Nat × Bool)
  bypass : Option Nat
  miss   : Option Nat
  deriving DecidableEq, Repr

/-! ### The running step -/

/-- A commit-list entry (R113). -/
structure CommitEntry where
  loc    : RowLoc
  pool   : Nat
  pass   : Nat
  usplit : Nat
  npar   : Nat
  unit   : Nat
  group  : Nat
  shard  : Nat
  deriving DecidableEq, Repr

/-- The result of a pass (R276). -/
structure RowResult where
  amax  : Word
  pw    : Word
  px    : Word
  satn  : Nat
  flags : Flags
  corr  : Nat
  uex   : Bool
  uel   : Nat
  epoch : Nat
  phase : Nat
  deriving DecidableEq, Repr

/-- Where a commit-list entry stands in its step. -/
inductive EntryPhase where
  | waiting | started | executed | atRest | unchanged
  deriving DecidableEq, Repr

/-- A commit-list entry of the running step: MASK (R130), EPOCH before the commit (R330), its result, whether its result
has been folded, whether its record is written (R316), the phases the CSU has handed over (R329) and the operand lines
of its pass (R272, R273), with the reduction row of its sequence;
and, for the controller-side unit, what the rows that its pass writes held before. -/
structure EntrySt where
  e        : CommitEntry
  st       : EntryPhase
  mask     : Nat
  epoch0   : Option Nat
  result   : Option RowResult
  folded   : Bool
  recorded : Bool
  csuPhase : Nat
  consts   : Line
  operand  : Line
  prow     : Nat
  saved    : List Host.Cell
  late     : Bool
  deriving DecidableEq, Repr

/-- A slot entry of the arrival schedule (R220). -/
structure SlotEntry where
  src    : Nat
  shard  : Nat
  frow   : Nat
  nsec   : Nat
  firstr : Bool
  runit  : Bool
  plim   : Nat
  tgrp   : Nat
  deriving DecidableEq, Repr

/-- Where a slot stands (R63, R222, R225). -/
inductive SlotPhase where
  | open_ | granted | arrived | added | marked
  deriving DecidableEq, Repr

/-- A slot of the step: entry, state, and the contribution that waits for its place. -/
structure SlotSt where
  e    : SlotEntry
  st   : SlotPhase
  data : List Byte
  deriving DecidableEq, Repr

/-- A touched reduction sector (R64, R65, R221): its state row and pool index, its group and shard, padding, the slots that
cover it in schedule order, whether it is closed, its summary, whether that is folded, and the OR of presence masks. -/
structure SectorSt where
  loc     : RowLoc
  pool    : Nat
  group   : Nat
  npar    : Nat
  slots   : List Nat
  closed  : Bool
  summary : Option (Bool × DWord)
  folded  : Bool
  mask    : Nat
  deriving DecidableEq, Repr

/-- A begun collective instance (R203, R219). -/
structure Inst where
  q        : Nat
  emission : Bool
  role     : Nat
  portmask : Nat
  weight   : Nat
  cgrp     : Nat
  poolch   : Nat
  items    : List Nat
  halted   : Bool
  ended    : Bool
  deriving DecidableEq, Repr

/-- A destination record (R234). -/
structure DestRec where
  block   : Nat
  engmask : Nat
  region  : Nat
  base    : Nat
  deriving DecidableEq, Repr

/-- An emission-list entry (R233) with its destination set. -/
structure ChunkEntry where
  shard : Nat
  nrows : Nat
  frow  : Nat
  doff  : Nat
  dests : List DestRec
  deriving DecidableEq, Repr

/-- A chunk of the step: entry, the data once read, HALT, and the destination records already served, by their index. -/
structure ChunkSt where
  e    : ChunkEntry
  data : Option (List Byte)
  halt : Bool
  sent : List Nat
  deriving DecidableEq, Repr

/-- The group constants of the step (R115) and the sums of its scan partials (R122). -/
structure GroupK where
  group    : Nat
  sched    : Option Word
  eta      : Word
  etaWd    : Word
  etaDs    : Word
  clip     : Word
  etaTrust : Option Word
  sumW     : DWord
  sumX     : DWord
  deriving DecidableEq, Repr

/-- The constants of a touched unit (R117) and its record before the step (R330). -/
structure UnitK where
  unit  : Nat
  bc1   : Word
  bc2   : Word
  count : Nat
  pow1  : Word
  pow2  : Word
  deriving DecidableEq, Repr

/-- Where a layer of the step stands (R154, R155, R158). -/
inductive LayerPhase where
  | waiting | formed | scratch | sectors | abandoned
  deriving DecidableEq, Repr

/-- A touched layer of the step: its index in the layer table, where it stands, which factors and roots changed, whether a
refresh fell back, and whether the gradient was all zero. -/
structure LayerSt where
  ix      : Nat
  st      : LayerPhase
  factors : Bool
  rootL   : Bool
  rootR   : Bool
  rootfb  : Bool
  zerog   : Bool
  deriving DecidableEq, Repr

/-- A record-selection entry armed for the step (R315). -/
structure RecSel where
  shard : Nat
  dreg  : Nat
  frow  : Nat
  nrows : Nat
  dunit : Nat
  deriving DecidableEq, Repr

/-- The header of the running step, latched at GO (R52). -/
structure StepHeader where
  v    : Nat
  lse  : Int
  seed : Nat
  s    : Nat
  g    : Nat
  deriving DecidableEq, Repr

/-- The local seal record as it builds up (R65, R67). -/
structure LocalSeal where
  finite   : Bool
  resfault : Bool
  poison   : Bool
  arrfault : Bool
  normsq   : List DWord
  sent     : Bool
  deriving DecidableEq, Repr

/-- The running step (R48); `csetAt` is the plan offset of the instance list (R330); `xexps` are the XEXPs of a step whose emission is
sent again (R105, R334). -/
structure StepState where
  hdr      : StepHeader
  entries  : List EntrySt
  chunks   : List ChunkSt
  slots    : List SlotSt
  sectors  : List SectorSt
  layers   : List LayerSt
  lseal    : LocalSeal
  arrEnd   : Bool
  cset     : Option (List (Nat × Bool))
  csetAt   : Nat
  posts    : List Nat
  insts    : List Inst
  groupK   : List GroupK
  unitK    : List UnitK
  released : List RowLoc
  armed    : List RecSel
  goHeld   : Bool
  cntHeld  : Bool
  skipIssued : Bool
  xexps    : List Int
  deriving DecidableEq, Repr

/-! ### The exchange -/

/-- A record of the control tree held at this node: kind (the UP kind of R215), child, S, payload (R217, R232). -/
structure UpRec where
  kind    : Nat
  child   : Nat
  step    : Nat
  payload : List Byte
  deriving DecidableEq, Repr

/-- A request of this block that has no answer yet (R217), with the time of a retry after DEFER. -/
structure Unanswered where
  kind  : Nat
  dst   : Nat
  q     : Nat
  role  : Nat
  index : Nat
  step  : Nat
  retry : Option Nat
  deriving DecidableEq, Repr

/-- A count exchange in progress (R228): region and offset latched. -/
structure CntRun where
  region : Nat
  offset : Nat
  deriving DecidableEq, Repr

/-- A token or skip notice on its way to an engine port (R384): kind 0x21 or 0x22, source, INDEX, descriptor or notice
bytes, and whether it holds a receive buffer. -/
structure Token where
  kind   : Nat
  src    : Nat
  index  : Nat
  body   : List Byte
  buffer : Bool
  deriving DecidableEq, Repr

/-- The token channel of an engine port (R384): credit left and tokens waiting for credit. -/
structure TokenPort where
  credit : Nat
  queue  : List Token
  deriving DecidableEq, Repr

/-- A record of the control tree that waits for a port, every port having failed (R211). -/
structure HeldRec where
  kind    : Nat
  dst     : Nat
  step    : Nat
  payload : List Byte
  deriving DecidableEq, Repr

/-- The exchange's state; `credits` lists, for each emission credit held, its destination, and `granted`, for each receive
buffer granted, its source (R237); `own` holds this node's records until they are combined, `upSent` the UP kinds whose DN it awaits (R232);
`topo` is a digest that waits for the boundary, `topoSeen` that the fabric has reported one (R244). -/
structure Exchange where
  ups       : List UpRec
  own       : List UpRec
  upSent    : List Nat
  requests  : List Unanswered
  credits   : List Nat
  givenUp   : List (Nat × Nat)
  cnt       : Option CntRun
  granted   : List Nat
  badChunks : List (Nat × Nat)
  ports     : List TokenPort
  topo      : Option Nat
  topoSeen  : Bool
  held      : List HeldRec
  deriving DecidableEq, Repr

/-! ### Bank-side units and device timing -/

/-- A bank-side unit (R267 to R277): tables, sticky status bits, result, test signature; and the flags of a held result that the
block read before it loaded the unit's tables (R331, R333; log entry 125). -/
structure Bsu where
  seed     : List Byte
  remap    : List Word
  remapHi  : List Word
  res      : Bool
  tout     : Bool
  ue       : Bool
  xref     : Bool
  bistDone : Bool
  bistPass : Bool
  corr     : Nat
  result   : Option RowResult
  sig      : Word
  accw     : Bool
  held     : Flags
  deriving DecidableEq, Repr

/-- A sequence that holds a pair (R271, R279). -/
structure SeqFl where
  dev   : Nat
  ch    : Nat
  k     : Nat
  sb    : Nat
  row   : Nat
  prow  : Nat
  opn   : Nat
  start : Nat
  bound : Nat
  weight : Nat
  entry : Option Nat
  ran   : Bool
  overran : Bool
  deriving DecidableEq, Repr

/-- Devices: BSUs by index 32·d + 8·c + k, sequences in flight, recent starts (device, time in quarter ns, weight),
postponed refreshes (R287), pairs with a refresh due. -/
structure DeviceState where
  bsus    : List (Nat × Bsu)
  seqs    : List SeqFl
  starts  : List (Nat × Nat × Nat)
  refresh : List (Nat × Nat × Nat)
  deriving DecidableEq, Repr

/-- The bandwidth regulators' running window (R410): its start, its budget B, the charge by partition, the partitions that have
reached their cap, the settings in force, and the data rate of the last training (R291, R294). -/
structure Regulators where
  start  : Nat
  budget : Nat
  rate   : Nat
  charge : List Nat
  capped : List Nat
  caps   : List Nat
  map    : List Nat
  deriving DecidableEq, Repr

/-! ### Far tier -/

/-- A queued residency entry (R299) and its first two words, how far it has come, its journal place, and the far writes of a COPY not yet completed. -/
structure Move where
  op     : Nat
  loc    : RowLoc
  region : Nat
  nrows  : Nat
  fslot  : Nat
  funit  : Nat
  w0     : Word
  w1     : Word
  begun  : Bool
  done   : Nat
  jix    : Nat
  left   : Nat
  deriving DecidableEq, Repr

/-- Far data that has returned: slot, 64 B piece, data, poison (R295). -/
structure FarPiece where
  slot   : Nat
  piece  : Nat
  data   : Line
  poison : Bool
  deriving DecidableEq, Repr

/-- Where a moved-in row stands (R301). -/
inductive MovedPhase where
  | near | due | writing | out | failed
  deriving DecidableEq, Repr

/-- A row moved in during the step. -/
structure MovedRow where
  loc       : RowLoc
  fslot     : Nat
  jix       : Nat
  committed : Bool
  st        : MovedPhase
  left      : Nat
  deriving DecidableEq, Repr

/-- An entry of the move journal (R307), with the first two words of its IN. -/
structure JournalEntry where
  loc   : RowLoc
  nrows : Nat
  fslot : Nat
  opn   : Bool
  w0    : Word
  w1    : Word
  deriving DecidableEq, Repr

/-- The tier mover. -/
structure TierState where
  queue   : List Move
  pieces  : List FarPiece
  moved   : List MovedRow
  dueQ    : List RowLoc
  journal : List JournalEntry
  tmovs   : Nat
  deriving DecidableEq, Repr

/-! ### Step log and Yarrow -/

/-- A unit record before the commit (R330). -/
structure LogUnit where
  id    : Nat
  count : Nat
  pow1  : Word
  pow2  : Word
  deriving DecidableEq, Repr

/-- Where the parts of the step log begin, in bytes from its start, and where the last one ends (R330; log entry 10). -/
structure LogParts where
  epochs : Nat
  units  : Nat
  trust  : Nat
  moves  : Nat
  last   : Nat
  deriving DecidableEq, Repr

/-- The step log (R330), as the block holds what it has written to or read from device memory. -/
structure StepLog where
  region   : Nat
  unit     : Nat
  logState : Nat
  planId   : Nat
  s        : Nat
  g        : Nat
  v        : Nat
  lse      : Int
  seed     : Nat
  normsq   : List DWord
  parts    : LogParts
  csetOff  : Nat
  csetN    : Nat
  epochs   : List (Option (Nat × Nat))
  units    : List LogUnit
  trust    : List (Nat × Word)
  moves    : List (Nat × Nat)
  deriving DecidableEq, Repr

/-- The step whose emission Yarrow sends again (R334), with the XEXP of each shard that was in force in it (R105). -/
structure Reemit where
  commit : Bool
  reason : Nat
  xexps  : List Int
  deriving DecidableEq, Repr

/-- The Yarrow pass between its steps (R332 to R334). -/
structure YarrowState where
  verdict : Option Nat
  reemit  : Option Reemit
  deriving DecidableEq, Repr

/-! ### Requests that wait for a boundary -/

/-- An export or import request (R309), with its settings as latched when it is taken; `phase` is 0 before it runs, 1 while far
pieces are read for it, 3 while an import's second pass reads them again, 2 while its far writes complete; the far pieces concerned are `pieces` from slot `slot0` on. -/
structure XReq where
  imp    : Bool
  cont   : Nat
  shard  : Nat
  far    : Bool
  reg    : Nat
  off    : Nat
  phase  : Nat
  slot0  : Nat
  pieces : Nat
  left   : Nat
  failed : Bool
  deriving DecidableEq, Repr

/-- A replay request (R317). -/
structure RReq where
  bsu   : Bool
  reg   : Nat
  first : Nat
  count : Nat
  loc   : RowLoc
  step  : Nat
  deriving DecidableEq, Repr

/-- A self-test request (R375), and whether it runs. -/
structure StReq where
  cls     : Nat
  dev     : Nat
  row     : Nat
  running : Bool
  deriving DecidableEq, Repr

/-- A zeroization (R366): its region, whether its rows have been run. -/
structure ZReq where
  region : Nat
  ran    : Bool
  deriving DecidableEq, Repr

/-- Live repairs (R338, R339); `remap` adds entries (slot, row, line) to a bank (R342), `service` makes OOS follow OOS_REQ. -/
inductive Repair where
  | service
  | mapout (dev ch : Nat)
  | tables (dev : Nat)
  | remap (dev bank : Nat) (ents : List (Nat × Nat × Nat))
  deriving DecidableEq, Repr

/-- A root-of-trust request (R370, R388). -/
structure RotReq where
  kind : Nat
  item : Nat
  tag  : Nat
  deriving DecidableEq, Repr

/-- An advance to Spent that was refused for a mapped-out channel (R355): not refused; refused; refused and a cold reset has come
since, so that the same request is taken. -/
inductive SpentRetry where
  | none | refused | afterReset
  deriving DecidableEq, Repr

/-- An initialization in progress (R43): its entry, the words of the write that began it, and whether its rows have been
written. -/
structure InitRun where
  entry : Nat
  words : List Nat
  ran   : Bool
  deriving DecidableEq, Repr

/-- Requests and the root of trust. -/
structure Requests where
  inits    : List InitRun
  x        : Option XReq
  r        : Option RReq
  st       : Option StReq
  z        : Option ZReq
  repairs  : List Repair
  power    : Option Nat
  lc       : Option Nat
  lcMapped : SpentRetry
  rot      : Option RotReq
  rotQueue : List RotReq
  rotTag   : Nat
  deriving DecidableEq, Repr

/-- A watched wait, what waits (an entry of the commit list, a chunk and its destination, 0 for a verdict), the time it began, and
whether it has passed STALL_LIMIT (R76). -/
structure Waiting where
  watch  : Watch
  key    : Nat
  since  : Nat
  marked : Bool
  deriving DecidableEq, Repr

/-! ### What the block sends -/

/-- One line of a read response: data, none where the line gives none, and POISON (R383). -/
structure LineResp where
  data   : Option Line
  poison : Bool
  deriving DecidableEq, Repr

/-- Everything the block sends at its ports, in order (R382; log entry 7). -/
inductive Out where
  /-- a fabric message: port, KIND, header, payload -/
  | msg (port : Nat) (kind : Nat) (hdr : MsgHdr) (payload : List Byte)
  /-- a message of the block to itself, which never leaves it (R213) -/
  | own (kind : Nat) (hdr : MsgHdr) (payload : List Byte)
  /-- a response at an engine port: port, engine, status, lines, old value of an atomic add -/
  | engine (port engine status : Nat) (lines : List LineResp) (old : Option DWord)
  /-- completion of a kernel-end request -/
  | kernelEnd (port engine : Nat)
  /-- a region response at the control port -/
  | host (status : Nat) (lines : List LineResp)
  /-- a register read's value at the control port -/
  | reg (off : Nat) (v : Word)
  /-- a register value or region response at the debug port -/
  | debugReg (off : Nat) (v : Word)
  | debug (status : Nat) (lines : List LineResp)
  /-- a token or skip notice passed to an engine port -/
  | token (port : Nat) (t : Token)
  /-- a request to the root of trust: kind, tag, numbers sent, digest and mark bytes -/
  | rot (kind tag : Nat) (items : List Nat) (bytes : List Byte)
  /-- CXL.mem requests: MemRd of a 64 B piece, MemWr of a 64 B piece -/
  | tierRead (slot piece : Nat)
  | tierWrite (slot piece : Nat) (data : Line)
  /-- a device's answer on DQ to an extended command that returns data -/
  | device (dev ch : Nat) (data : List Byte)
  deriving DecidableEq, Repr

/-- The state of the block. -/
structure State where
  pending  : List Instr
  regs     : RegFile
  cpLatch  : List (Nat × Word)
  dbgLatch : List (Nat × Word)
  clock    : Clock
  pins     : Pins
  fuses    : Fuses
  keeper   : Option KeeperSummary
  mem      : List Host.Cell
  wcb      : List WcbSector
  fault    : FaultState
  plan     : PlanState
  seq      : Seq
  icache   : ICache
  step     : StepState
  exch     : Exchange
  dev      : DeviceState
  regul    : Regulators
  tier     : TierState
  log      : Option StepLog
  yarrow   : YarrowState
  req      : Requests
  waits    : List Waiting
  freeCtr  : Nat
  out      : List Out
  deriving DecidableEq, Repr

/-- Why the machine stops with a fault. -/
inductive Fault where
  /-- Raised by ACTP, ACCW, CMTR, SCNR, ATAD, TBLD, BIST and STRD addressed to a device number from 24 to 31: the
  geometry has devices d0 to d23 only (R12). Safe: the block sends no such command. -/
  | noSuchDevice (dev : Nat)
  deriving DecidableEq, Repr

/-- Why a command is refused. -/
inductive Refusal where
  /-- A command that has no meaning in this model yet; raised by Machine/Dispatch.lean only. Safe: nothing is claimed
  of a run that meets it. -/
  | notModelled (mnemonic : String)
  deriving DecidableEq, Repr

/-- The sequencer before the first GO (R172 gives its values at GO; before it, log entry 8). -/
def Seq.idle : Seq where
  s := List.replicate 16 0
  a := List.replicate 8 0
  p := true :: List.replicate 7 false
  pc := 0
  stack := []
  count := 0
  running := false
  trapped := false
  wait := none
  openRun := false
  openV := 0
  sealRun := false
  sealV := 0
  commitRun := false
  cdoneOk := false

/-- A local seal record with nothing folded (R65). -/
def LocalSeal.empty : LocalSeal where
  finite := true
  resfault := false
  poison := false
  arrfault := false
  normsq := List.replicate 8 0
  sent := false

/-- No step has run. -/
def StepState.empty : StepState where
  hdr := ⟨0, 0, 0, 0, 0⟩
  entries := []
  chunks := []
  slots := []
  sectors := []
  layers := []
  lseal := LocalSeal.empty
  arrEnd := false
  cset := none
  csetAt := 0
  posts := []
  insts := []
  groupK := []
  unitK := []
  released := []
  armed := []
  goHeld := false
  cntHeld := false
  skipIssued := false
  xexps := []

/-- The exchange with nothing held; every engine port has its 64 entries of token credit (R384; log entry 121). -/
def Exchange.empty : Exchange where
  ups := []
  own := []
  upSent := []
  requests := []
  credits := []
  givenUp := []
  cnt := none
  granted := []
  badChunks := []
  ports := List.replicate 8 ⟨64, []⟩
  topo := none
  topoSeen := false
  held := []

/-- No sequence in flight, no table loaded (log entry 121). -/
def DeviceState.empty : DeviceState := ⟨[], [], [], []⟩

/-- The regulators at reset: the partition words of R413 and SRCMAP's reset values (R409; log entry 121). -/
def Regulators.reset : Regulators where
  start := 0
  budget := 0
  rate := 3
  charge := List.replicate 8 0
  capped := []
  caps := [0x100, 0x40, 0x100, 0x80, 0x10, 0x100, 0x100, 0x100]
  map := [0, 0, 0, 0, 0, 0, 0, 0, 1, 1, 2, 2, 2, 3, 3, 4]

/-- No move queued, no row moved in (log entry 121). -/
def TierState.empty : TierState := ⟨[], [], [], [], [], 0⟩

/-- No request pending (log entry 121). -/
def Requests.empty : Requests where
  inits := []
  x := none
  r := none
  st := none
  z := none
  repairs := []
  power := none
  lc := none
  lcMapped := .none
  rot := none
  rotQueue := []
  rotTag := 0

/-- No error seen (log entry 121). -/
def FaultState.empty : FaultState := ⟨[], [], [], [], [], 0, [], []⟩

/-- The machine after power-on with PX_RST_N still low (R394, R396 stage 0): every register at its Reset column value
(R404; RST_CAUSE 0x01, the power-on itself), nothing loaded, nothing in flight, no row written (log entries 4, 5, 21). -/
def State.reset : State where
  pending := []
  regs := []
  cpLatch := []
  dbgLatch := []
  clock := ⟨0, 0, true⟩
  pins := ⟨true, false, false, 0, 0, false, false, false, none⟩
  fuses := ⟨0, false, Config.fusedUid⟩
  keeper := none
  mem := []
  wcb := []
  fault := FaultState.empty
  plan := ⟨none, none, none⟩
  seq := Seq.idle
  icache := ⟨[], none, none⟩
  step := StepState.empty
  exch := Exchange.empty
  dev := DeviceState.empty
  regul := Regulators.reset
  tier := TierState.empty
  log := none
  yarrow := ⟨none, none⟩
  req := Requests.empty
  waits := []
  freeCtr := 0
  out := []

end Sys2Proof.Machine
end

