-- ==== Sys2Proof/Machine/Ops.lean ====
section
/-! DEFINITION. The named operations over registers, device bytes, the clock, interrupts and the error log. -/

namespace Sys2Proof.Machine

/-! ### Sparse maps in canonical form -/

/-- The value under key `k`, if the map lists one. -/
def sparseFind {α : Type} (l : List (Nat × α)) (k : Nat) : Option α := (l.find? (fun c => c.1 == k)).map (·.2)

/-- Insert in rising key order. -/
def sparseInsert {α : Type} : List (Nat × α) → Nat → α → List (Nat × α)
  | [], k, v => [(k, v)]
  | c :: t, k, v => if c.1 < k then c :: sparseInsert t k v else (k, v) :: c :: t

/-- Put `v` under key `k`, or drop the key when `v` is what an unlisted key reads as. -/
def sparsePut {α : Type} [DecidableEq α] (dflt : α) (l : List (Nat × α)) (k : Nat) (v : α) : List (Nat × α) :=
  if v = dflt then l.filter (fun c => c.1 != k) else sparseInsert (l.filter (fun c => c.1 != k)) k v

/-! ### Registers -/

/-- The value of a field. -/
def State.get (s : State) (f : Field) : Nat := (sparseFind s.regs f.key).getD f.reset

/-- Set a field, keeping the bits that fit its width. -/
def State.set (s : State) (f : Field) (v : Nat) : State :=
  { s with regs := sparsePut f.reset s.regs f.key (v % 2 ^ f.width) }

/-- A one-bit field as a Bool. -/
def State.flag (s : State) (f : Field) : Bool := s.get f != 0

/-- Set a one-bit field. -/
def State.setFlag (s : State) (f : Field) (b : Bool) : State := s.set f b.toNat

/-- Bit `n` of a field that holds one bit per port, device or line. -/
def State.bit (s : State) (f : Field) (n : Nat) : Bool := (s.get f).testBit n

/-- Set or clear bit `n` of such a field. -/
def State.setBit (s : State) (f : Field) (n : Nat) (b : Bool) : State :=
  s.set f (if b then (s.get f) ||| 2 ^ n else (s.get f) - (if (s.get f).testBit n then 2 ^ n else 0))

/-- A _LO/_HI pair as one value (R402). -/
def State.get64 (s : State) (lo hi : Field) : Nat := s.get lo + 2 ^ 32 * s.get hi

/-- Write both words of a pair. -/
def State.set64 (s : State) (lo hi : Field) (v : Nat) : State := (s.set lo (v % 2 ^ 32)).set hi (v / 2 ^ 32 % 2 ^ 32)

/-- Count `n` events in a 32-bit counter, which saturates (R246, R294, R318, R341). -/
def State.bump (s : State) (f : Field) (n : Nat) : State := s.set f (min (s.get f + n) 0xFFFFFFFF)

/-- The value of the register at `off`, its fields at their bits; bits without a field read zero (R11, R399). -/
def State.wordAt (s : State) (off : Nat) : Nat :=
  (regFields off).foldl (fun acc f => if f.acc = .wo then acc else acc + s.get f * 2 ^ f.lo) 0

/-- Bits [hi:lo] of a number. -/
def bits (v hi lo : Nat) : Nat := v / 2 ^ lo % 2 ^ (hi + 1 - lo)

/-- R400: a write acts on each rw and w1c field of the register by its access code; wo and rd fields are left. -/
def State.writeFields (s : State) (off : Nat) (v : Nat) : State :=
  (regFields off).foldl (fun s f =>
    match f.acc with
    | .rw => s.set f (bits v f.hi f.lo)
    | .w1c => s.set f ((s.get f) - ((s.get f) &&& bits v f.hi f.lo))
    | .rd | .wo => s) s

/-! ### Outputs and free values -/

/-- The block sends something at one of its ports (log entry 7). -/
def State.emit (s : State) (o : Out) : State := { s with out := s.out ++ [o] }

/-- Draw a value that the manual leaves open (log entry 6). -/
def State.free (s : State) : DWord × State := (Config.freeValue s.freeCtr, { s with freeCtr := s.freeCtr + 1 })

/-! ### Interrupts, performance counters, clock -/

/-- Raise PX_IRQ[n]: set its IRQ_STAT bit (R398, R407). -/
def State.raise (s : State) (n : Nat) : State := s.setBit Reg.IRQ_STAT n true

/-- PX_IRQ[n] is high while its status and enable bits are both set (R398). -/
def State.irq (s : State) (n : Nat) : Bool := s.bit Reg.IRQ_STAT n && s.bit Reg.IRQ_EN n

/-- The performance counters count (R414): in Run and Idle, Clover mode included, while PC_FREEZE is clear (log entry 117). -/
def State.counting (s : State) : Bool :=
  !s.flag Reg.PC_FREEZE && (s.get Reg.BSTAGE == 7 || s.get Reg.BSTAGE == 8) && s.get Reg.PSTATE != 2

/-- Count `n` events in performance counter `i` (R414, R415), saturating. -/
def State.perf (s : State) (i n : Nat) : State :=
  if !s.counting then s
  else s.set64 (Reg.PC_LO i) (Reg.PC_HI i) (min (s.get64 (Reg.PC_LO i) (Reg.PC_HI i) + n) (2 ^ 64 - 1))

/-- The layer engine holds a layer (R154; counter T_LE). -/
def State.layerHeld (s : State) : Bool := s.step.layers.any (fun l => l.st == .formed || l.st == .scratch)

/-- `n` nanoseconds pass: the clock and, while it advances, the tick; tick-based counters follow while TICK_OK is set
(R387, R414; log entry 3). -/
def State.pass (s : State) (n : Nat) : State :=
  let s1 := { s with clock := { s.clock with
    time := s.clock.time + n
    tick := if s.clock.ticking then (s.clock.tick + n) % 2 ^ 64 else s.clock.tick } }
  if s.flag Reg.TICK_OK && s.clock.ticking then
    let s2 := if s.get Reg.PHASE = 2 then s1.perf 20 n else s1
    let s3 := if s.get Reg.PHASE = 4 || s.get Reg.PHASE = 5 then s2.perf 21 n else s2
    if s.layerHeld then s3.perf 22 n else s3
  else s1

/-- Move the clock to time `t`, if it is not there yet (log entry 3). -/
def State.advance (s : State) (t : Nat) : State := if s.clock.time < t then s.pass (t - s.clock.time) else s

/-- Take stamp `i` of the step (R51). -/
def State.stamp (s : State) (i : Nat) : State := s.set64 (Reg.STAMP_LO i) (Reg.STAMP_HI i) s.clock.tick

/-! ### The error log -/

/-- SRC codes of the error log (R321). -/
inductive ErrSrc where
  | scrubber | engine | remote | host | debug | sequencer | bsu | csu | reducer | layer | emission | exportImport
  | replay | tier | yarrow | other
  deriving DecidableEq, Repr

/-- The number of a SRC code. -/
def ErrSrc.code : ErrSrc → Nat
  | .scrubber => 0 | .engine => 1 | .remote => 2 | .host => 3 | .debug => 4 | .sequencer => 5 | .bsu => 6 | .csu => 7
  | .reducer => 8 | .layer => 9 | .emission => 10 | .exportImport => 11 | .replay => 12 | .tier => 13 | .yarrow => 14
  | .other => 15

/-- What an error-log entry tells beside its class and source (R341). -/
structure ErrInfo where
  line   : Option LineLoc
  synd   : Nat
  info   : Nat
  region : Nat
  deriving DecidableEq, Repr

/-- An entry without location (log entry 86). -/
def ErrInfo.plain (info : Nat) : ErrInfo := ⟨none, 0, info, 0⟩

/-- Write the next entry of the ring (R321): sequence numbers rise from 1 modulo 2^32, entry n holds the number
congruent to n modulo 64. -/
def State.logEntry (s : State) (cls : Nat) (src : ErrSrc) (e : ErrInfo) : State :=
  let q := (s.get Reg.LOG_SEQ + 1) % 2 ^ 32
  let n := q % 64
  let s := s.set Reg.LOG_SEQ q
  let s := s.set (Reg.E_SEQ n) q
  let s := s.set64 (Reg.E_TICK_LO n) (Reg.E_TICK_HI n) s.clock.tick
  let s := (s.set (Reg.E_CLASS n) cls).set (Reg.E_SRC n) src.code
  let l := e.line.getD ⟨⟨0, 0, 0, 0⟩, 0⟩
  let s := (s.set (Reg.E_DEV n) l.loc.dev).set (Reg.E_CH n) l.loc.ch
  let s := (s.set (Reg.E_BANK n) l.loc.bank).set (Reg.E_ROW n) l.loc.row
  let s := (s.set (Reg.E_LINE n) l.line).setFlag (Reg.E_LOCV n) e.line.isSome
  let s := (s.set (Reg.E_SYND n) e.synd).set (Reg.E_INFO n) e.info
  s.set (Reg.E_REGION n) e.region

/-- An open class of the error log: one of 0x01 to 0x11 (R321; log entry 17). -/
def openClass (v : DWord) : Nat := v.toNat % 17 + 1

/-- Log an event of class `cls` (R319, R321, R341): the entry, UE_ANY and UE_TOTAL for classes 0x02 to 0x06, PX_IRQ[4]
for 0x02 to 0x0E and 0x11, PX_IRQ[5] for 0x0F and 0x10. -/
def State.log_ (s : State) (cls : Nat) (src : ErrSrc) (e : ErrInfo) : State :=
  let s := s.logEntry cls src e
  let s := if 2 ≤ cls ∧ cls ≤ 6 then (s.setFlag Reg.UE_ANY true).bump Reg.UE_TOTAL 1 else s
  if (2 ≤ cls ∧ cls ≤ 0x0E) ∨ cls = 0x11 then s.raise 4 else if cls = 0x0F ∨ cls = 0x10 then s.raise 5 else s

/-! ### Device bytes -/

/-- What an unlisted byte of a device row reads as: its power-on contents, which R44 leaves open (log entry 1). -/
def memDefault : Byte := 0

/-- The byte at an address. -/
def memRead (m : List Host.Cell) (a : Nat) : Byte := (sparseFind m a).getD memDefault

/-- Write one byte, keeping the canonical form. -/
def memWrite (m : List Host.Cell) (a : Nat) (b : Byte) : List Host.Cell := sparsePut memDefault m a b

/-- `n` bytes from `a`. -/
def memReads (m : List Host.Cell) (a n : Nat) : List Byte := (List.range n).map (fun i => memRead m (a + i))

/-- Write bytes from `a` on. -/
def memWrites (m : List Host.Cell) (a : Nat) (bs : List Byte) : List Host.Cell :=
  match bs with
  | [] => m
  | b :: t => memWrites (memWrite m a b) (a + 1) t

/-- The canonical form: addresses strictly rising, no entry equal to the unlisted value. -/
def memWf (m : List Host.Cell) : Bool :=
  (m.map (·.1)).Pairwise (· < ·) && m.all (fun c => c.2 != memDefault)

/-- The address of byte 0 of a row (R12, R14): rows are 2 KiB, 32,768 to a bank, 16 banks, 4 channels, 24 devices. -/
def RowLoc.addr (l : RowLoc) : Nat := (((l.dev * 4 + l.ch) * 16 + l.bank) * 32768 + l.row) * 2048

/-- A little-endian number in bytes. -/
def leNat : List Byte → Nat
  | [] => 0
  | b :: t => b.toNat + 256 * leNat t

/-- The `n` little-endian bytes of a number. -/
def leBytes (n : Nat) (v : Nat) : List Byte :=
  match n with
  | 0 => []
  | k + 1 => BitVec.ofNat 8 v :: leBytes k (v / 256)

/-- A 64 B line as its bytes, byte 0 first. -/
def bytesOfLine (l : Line) : List Byte := leBytes 64 l.toNat

/-- 64 bytes as a line. -/
def lineOfBytes (bs : List Byte) : Line := BitVec.ofNat 512 (leNat bs)

/-- The number in bytes `off` to `off + n - 1` of a byte list; missing bytes are zero. -/
def leAt (bs : List Byte) (off n : Nat) : Nat := leNat ((bs.drop off).take n)

/-- A sub-list of bytes filled up with zero bytes to `n`. -/
def takePad (n : Nat) (bs : List Byte) : List Byte := bs.take n ++ List.replicate (n - bs.length) 0

/-- Replace bytes `off` on of a list by `new`. -/
def spliceBytes (bs : List Byte) (off : Nat) (new : List Byte) : List Byte :=
  bs.take off ++ new ++ bs.drop (off + new.length)

/-- Note the device's old bytes of a sector that a write leaves in the write-combining buffer (R25, R250). -/
def wcbNote (m : List Host.Cell) (w : List WcbSector) (sector : Nat) : List WcbSector :=
  if w.any (fun x => x.addr == sector * 32) then w else w ++ [⟨sector * 32, memReads m (sector * 32) 32⟩]

/-- Write bytes of a row through the write-combining buffer: visible at once (R250), each changed sector noted until it is
written through. -/
def State.putBuffered (s : State) (a : Nat) (bs : List Byte) : State :=
  { s with
    wcb := (List.range ((a + bs.length + 31) / 32 - a / 32)).foldl (fun w i => wcbNote s.mem w (a / 32 + i)) s.wcb
    mem := memWrites s.mem a bs }

/-- Write bytes of a row through to the device. -/
def State.putThrough (s : State) (a : Nat) (bs : List Byte) : State :=
  { s with
    mem := memWrites s.mem a bs
    wcb := s.wcb.filter (fun x => decide (x.addr + 32 ≤ a ∨ a + bs.length ≤ x.addr)) }

/-- The bank index 16·c + b of R13 and the bank pair of an address's row. -/
def bankOfAddr (a : Nat) : Nat := a / 2048 / 32768

/-- R285: write through every changed line of the pair (d, c, k). -/
def State.flushPair (s : State) (d c k : Nat) : State :=
  { s with wcb := s.wcb.filter (fun x => bankOfAddr x.addr / 2 != (d * 4 + c) * 8 + k) }

/-- Write through everything the buffer holds (R347 step 2). -/
def State.flushAll (s : State) : State := { s with wcb := [] }

/-- The changed sectors of the row at `a`, in the order in which they reach the device: every data sector, every check sector, tail
sector 3 last, whatever the order in which they were changed (R25). -/
def wcbOfRow (w : List WcbSector) (row : Nat) : List WcbSector :=
  let mine := w.filter (fun x => x.addr / 2048 == row)
  mine.filter (fun x => x.addr % 2048 < 0x780)
    ++ mine.filter (fun x => 0x780 ≤ x.addr % 2048 && x.addr % 2048 < 0x7E0)
    ++ mine.filter (fun x => 0x7E0 ≤ x.addr % 2048)

/-- A reset meets the buffer: of each row's changed sectors a prefix, of open length, has reached the device; the rest
leave the device's old bytes (R25; log entry 11). -/
def State.dropBuffer (s : State) : State :=
  let rows := (s.wcb.map (fun x => x.addr / 2048)).eraseDups
  let s' := rows.foldl (fun (s' : State) r =>
    let secs := wcbOfRow s.wcb r
    let (v, s') := s'.free
    let lost := secs.drop (v.toNat % (secs.length + 1))
    { s' with mem := lost.foldl (fun m x => memWrites m x.addr x.old) s'.mem }) s
  { s' with wcb := [] }

end Sys2Proof.Machine
end

