-- ==== Sys2Proof/Machine/Code.lean ====
section
/-! DEFINITION. The codes that protect a row: the metadata code (R17), the correcting line code (R18 to R20), the
detect-only code (R21), and the row-metadata word's fields (R15). -/

namespace Sys2Proof.Machine

/-! ### GF(2^8) -/

/-- Multiply by α = 0x02 modulo x^8 + x^4 + x^3 + x^2 + 1 (R18), on a byte's number. -/
def gfDouble (a : Nat) : Nat := (2 * a) ^^^ (a / 128 * 0x11D)

/-- The product of `a` and the polynomial whose coefficients are the low `n` bits of `b`. -/
def gfMulBits : Nat → Nat → Nat → Nat
  | 0, _, _ => 0
  | n + 1, a, b => if b = 0 then 0 else (b % 2 * a) ^^^ gfMulBits n (gfDouble a) (b / 2)

/-- The product in GF(2^8). -/
def gfMul (a b : Byte) : Byte := BitVec.ofNat 8 (gfMulBits 8 a.toNat b.toNat)

/-- The powers of α from α^0 on. -/
def gfPowers : Nat → Byte → List Byte
  | 0, _ => []
  | n + 1, a => a :: gfPowers n (gfMul a 2)

/-! ### The correcting code -/

/-- A remainder of the division by g(x): the coefficients of x^3, x^2, x^1, x^0. -/
structure Rem where
  r3 : Byte
  r2 : Byte
  r1 : Byte
  r0 : Byte
  deriving DecidableEq, Repr

/-- One message byte through the division by g(x) = (x + 1)(x + α)(x + α^2)(x + α^3)
= x^4 + 0x0F x^3 + 0x36 x^2 + 0x78 x + 0x40. -/
def rsShift (r : Rem) (m : Byte) : Rem :=
  let f := m ^^^ r.r3
  ⟨r.r2 ^^^ gfMul f 0x0F, r.r1 ^^^ gfMul f 0x36, r.r0 ^^^ gfMul f 0x78, gfMul f 0x40⟩

/-- The check word of a remainder: x^3 in bits [31:24], x^0 in bits [7:0] (R18). -/
def Rem.word (r : Rem) : Word := r.r3 ++ (r.r2 ++ (r.r1 ++ r.r0))

/-- The address tag of a line (R19). -/
def LineLoc.tag (l : LineLoc) : Word :=
  BitVec.ofNat 32 ((((16 * l.loc.ch + l.loc.bank) % 64 * 32768 + l.loc.row % 32768) * 32 + l.line % 32) * 64
    + l.loc.dev % 32 * 2)

/-- The bytes of a word, most significant first. -/
def bytesBE (w : Word) : List Byte :=
  [w.extractLsb' 24 8, w.extractLsb' 16 8, w.extractLsb' 8 8, w.extractLsb' 0 8]

/-- The check word of a line under a tag (R18). -/
def rsCheck (tag : Word) (line : List Byte) : Word :=
  ((bytesBE tag ++ line).foldl rsShift ⟨0, 0, 0, 0⟩).word

/-- What a decode finds (R20, R21). -/
inductive LineStatus where
  | clean
  | corrected
  | uncorrectable
  | addrFault
  deriving DecidableEq, Repr

/-- A decoded line: status, data, syndrome word (stored check word XOR the one computed from the stored data, log
entry 18). -/
structure Decoded where
  status : LineStatus
  data   : List Byte
  synd   : Word
  deriving DecidableEq, Repr

/-- S_i, the codeword's value at `x` (Horner's rule). -/
def rsEval (x : Byte) (code : List Byte) : Byte := code.foldl (fun acc c => gfMul acc x ^^^ c) 0

/-- The codeword position, counted from x^71, of a single error with these syndromes, if there is one: α^p is S1 / S0,
S2 / S1 and S3 / S2. -/
def rsLocate (s0 s1 s2 s3 : Byte) : Option Nat :=
  ((gfPowers 72 1).findIdx? (fun x => gfMul s0 x = s1 && gfMul s1 x = s2 && gfMul s2 x = s3)).map (71 - ·)

/-- Decode a line of a correcting row (R20; log entry 18). -/
def rsDecode (tag : Word) (line : List Byte) (check : Word) : Decoded :=
  let synd := check ^^^ rsCheck tag line
  if synd = 0 then ⟨.clean, line, 0⟩
  else
    let code := bytesBE tag ++ line ++ bytesBE check
    let s0 := rsEval 1 code
    let bad : Decoded := ⟨.uncorrectable, line, synd⟩
    if s0 = 0 then bad
    else match rsLocate s0 (rsEval 2 code) (rsEval 4 code) (rsEval 8 code) with
      | none => bad
      | some p =>
        if p < 4 then ⟨.addrFault, line, synd⟩
        else ⟨.corrected, line.set (p - 4) (line.getD (p - 4) 0 ^^^ s0), synd⟩

/-! ### The detect-only code -/

/-- One bit step of CRC-8 with polynomial x^8 + x^2 + x + 1, most significant bit first (R21). -/
def crc8Bits : Nat → Byte → Byte
  | 0, c => c
  | n + 1, c => crc8Bits n ((c <<< 1) ^^^ (if c.getLsbD 7 then 0x07 else 0))

/-- CRC-8 of a byte string, initial value 0 (R21). -/
def crc8 (bs : List Byte) : Byte := bs.foldl (fun c b => crc8Bits 8 (c ^^^ b)) 0

/-- The CRC of quarter `q` of a line under its tag. -/
def quarterCrc (tag : Word) (line : List Byte) (q : Nat) : Byte := crc8 (bytesBE tag ++ (line.drop (16 * q)).take 16)

/-- The check word of a detect-only line: byte q covers line bytes 16q to 16q + 15 (R21). -/
def detectCheck (tag : Word) (line : List Byte) : Word :=
  quarterCrc tag line 3 ++ (quarterCrc tag line 2 ++ (quarterCrc tag line 1 ++ quarterCrc tag line 0))

/-- Decode a line of a detect-only row: never corrected (R21; log entry 18). -/
def detectDecode (tag : Word) (line : List Byte) (check : Word) : Decoded :=
  let synd := check ^^^ detectCheck tag line
  if synd = 0 then ⟨.clean, line, 0⟩ else ⟨.uncorrectable, line, synd⟩

/-! ### The checker's patterns -/

/-- The tag of checker pattern `i` (R379). -/
def patternTag (i : Nat) : Word := BitVec.ofNat 32 (0x5A000000 + 64 * i)

/-- The data of checker pattern `i` (R379). -/
def patternData (i : Nat) : List Byte := (List.range 64).map (fun n => BitVec.ofNat 8 (29 * i + 7 * n + 0x3C))

/-- Symbol `s` of a line and its check word XOR `v` (R379): line symbols (R19) to 127, then those of the check word. -/
def flipSymbol (x : List Byte × Word) (s v : Nat) : List Byte × Word :=
  if s < 128 then (x.1.set (s / 2) (x.1.getD (s / 2) 0 ^^^ BitVec.ofNat 8 (v * 16 ^ (s % 2))), x.2)
  else (x.1, x.2 ^^^ BitVec.ofNat 32 (v * 16 ^ (s - 128)))

/-- Checker pattern `i`, encoded, altered and decoded, gives the outcome of R379. -/
def patternOk (i : Nat) : Bool :=
  let tag := patternTag i
  let d := patternData i
  let x := (d, rsCheck tag d)
  let found (t : Word) (y : List Byte × Word) : Decoded := rsDecode t y.1 y.2
  if i < 16 then found tag x == ⟨.clean, d, 0⟩
  else if i < 40 then
    let r := found tag (flipSymbol x (11 * i % 136) (i % 15 + 1))
    r.status == .corrected && r.data == d
  else if i < 56 then
    let s1 := 11 * i % 128
    (found tag (flipSymbol (flipSymbol x s1 (i % 15 + 1)) ((s1 + 70) % 128) ((i + 7) % 15 + 1))).status == .uncorrectable
  else if i < 60 then (found (tag ^^^ BitVec.ofNat 32 (2 ^ (i - 50))) x).status == .addrFault
  else
    let n := 16 * (i - 61)
    let y := if i = 60 then d else d.set n (d.getD n 0 ^^^ 1)
    let r := detectDecode tag y (detectCheck tag d)
    (List.range 4).all (fun q => (r.synd.extractLsb' (8 * q) 8 != 0) == (decide (60 < i) && q == i - 61))

/-- The first checker pattern whose outcome differs from R379. -/
def firstBadPattern : Option Nat := (List.range 64).find? (fun i => !patternOk i)

/-! ### The row-metadata word -/

/-- The positions p(0) to p(55): the integers from 3 to 62 that are not powers of two (R17). -/
def metaPositions : List Nat := (List.range 63).filter (fun n => 3 ≤ n && n != 4 && n != 8 && n != 16 && n != 32)

/-- The XOR of the positions of the set data bits: bit j is check bit c_j (R17). -/
def metaCheckBits (w : DWord) : Nat :=
  (metaPositions.zipIdx.foldl (fun acc pi => if w.getLsbD pi.2 then acc ^^^ pi.1 else acc) 0)

/-- Parity of the low `n` bits. -/
def parityLow (n : Nat) (w : DWord) : Bool := (List.range n).foldl (fun acc i => acc ^^ w.getLsbD i) false

/-- The metadata word with data bits [55:0] of `w`, its check bits and its parity (R17); bit 63 is written 0 (R15). -/
def metaEncode (w : DWord) : DWord :=
  let d := w &&& 0x00FFFFFFFFFFFFFF
  let c := d ||| BitVec.ofNat 64 (metaCheckBits d * 2 ^ 56)
  if parityLow 62 c then c ||| 0x4000000000000000 else c

/-- Decode a stored metadata word: the corrected word and whether a bit was corrected; none when uncorrectable (R17). -/
def metaDecode (w : DWord) : Option (DWord × Bool) :=
  let synd := metaCheckBits w ^^^ (w.extractLsb' 56 6).toNat
  let odd := parityLow 62 w != w.getLsbD 62
  if odd then
    if synd = 0 then some (w ^^^ 0x4000000000000000, true)
    else match metaPositions.idxOf? synd with
      | some i => some (w ^^^ BitVec.ofNat 64 (2 ^ i), true)
      | none => if synd < 63 then some (w ^^^ BitVec.ofNat 64 (2 ^ (56 + synd.log2)), true) else none
  else if synd = 0 then some (w, false) else none

/-- The fields of the row-metadata word that the block uses (R15). -/
structure Meta where
  kind   : Nat
  zeroed : Bool
  far    : Bool
  record : Bool
  remap  : Bool
  epoch  : Nat
  phase  : Nat
  valid  : Nat
  deriving DecidableEq, Repr

/-- The fields of a decoded word; reserved bits are ignored (R15). -/
def Meta.ofWord (w : DWord) : Meta where
  kind := (w.extractLsb' 44 4).toNat
  zeroed := w.getLsbD 43
  far := w.getLsbD 42
  record := w.getLsbD 41
  remap := w.getLsbD 40
  epoch := (w.extractLsb' 32 8).toNat
  phase := (w.extractLsb' 30 2).toNat
  valid := (w.extractLsb' 0 30).toNat

/-- The stored word of a row's metadata, reserved bits 0, with its code (R15, R17). -/
def Meta.toWord (m : Meta) : DWord :=
  metaEncode (BitVec.ofNat 64 (m.kind % 16 * 2 ^ 44 + m.zeroed.toNat * 2 ^ 43 + m.far.toNat * 2 ^ 42
    + m.record.toNat * 2 ^ 41 + m.remap.toNat * 2 ^ 40 + m.epoch % 256 * 2 ^ 32 + m.phase % 4 * 2 ^ 30
    + m.valid % 2 ^ 30))

/-- A row with nothing valid, of class `kind` (R43). -/
def Meta.fresh (kind : Nat) : Meta := ⟨kind, false, false, false, false, 0, 0, 0⟩

end Sys2Proof.Machine
end

