-- ==== Sys2Proof/Machine/Operands.lean ====
section
/-! DEFINITION. The operand forms: a region and a dense offset as a place in a device (R32, R33), the region that names a
row, the population, and the limits of a region (R36, R420). -/

namespace Sys2Proof.Machine

/-! ### The population -/

/-- Device `d` is present (R293). -/
def State.present (s : State) (d : Nat) : Bool := s.bit Reg.PRESENT d

/-- Rows of each bank of device `d` (R12). -/
def State.bankRows (s : State) (d : Nat) : Nat := if s.bit Reg.DENS32 d then 32768 else 24576

/-- The spare row of every bank of device `d` (R12, R45). -/
def State.spareRow (s : State) (d : Nat) : Nat := s.bankRows d - 1

/-- Channel `c` of device `d` is mapped out (R338, R341). -/
def State.mappedOut (s : State) (d c : Nat) : Bool :=
  if d < 8 then s.bit Reg.MAPPED_LO (4 * d + c)
  else if d < 16 then s.bit Reg.MAPPED_MID (4 * (d - 8) + c)
  else s.bit Reg.MAPPED_HI (4 * (d - 16) + c)

/-- Mark channel `c` of device `d` mapped out. -/
def State.setMappedOut (s : State) (d c : Nat) : State :=
  if d < 8 then s.setBit Reg.MAPPED_LO (4 * d + c) true
  else if d < 16 then s.setBit Reg.MAPPED_MID (4 * (d - 8) + c) true
  else s.setBit Reg.MAPPED_HI (4 * (d - 16) + c) true

/-- Device `d` is a U-device whose BSU group is in service (R268); in Clover mode every device is a P-device (R340). -/
def State.inService (s : State) (d : Nat) : Bool :=
  s.bit Reg.UDEV d && !s.bit Reg.OOS d && !s.flag Reg.CLOVER

/-! ### Region entries -/

/-- The class codes of R31. -/
inductive RegionClass where
  | state | reduction | weight | frozen | factor | plan | activation | spare
  deriving DecidableEq, Repr

/-- The class that a code names. -/
def RegionClass.ofCode (n : Nat) : RegionClass :=
  match n with
  | 0 => .state | 1 => .reduction | 2 => .weight | 3 => .frozen | 4 => .factor | 5 => .plan | 6 => .activation
  | _ => .spare

/-- A region entry as its four words, word 0 first (R38). -/
abbrev RegionWords := List Nat

/-- The words of entry `n` as they stand. -/
def State.regionWords (s : State) (n : Nat) : RegionWords :=
  (List.range 4).map (fun w => s.wordAt (0x1000 + 16 * n + 4 * w))

/-- A field [hi:lo] of word `w` of an entry. -/
def RegionWords.fld (e : RegionWords) (w hi lo : Nat) : Nat := bits (e.getD w 0) hi lo

/-- The entry's region is enabled. -/
def RegionWords.en (e : RegionWords) : Bool := e.fld 0 31 31 == 1
/-- CLASS. -/
def RegionWords.cls (e : RegionWords) : RegionClass := .ofCode (e.fld 0 29 27)
/-- CODE = 1, detect-only. -/
def RegionWords.detect (e : RegionWords) : Bool := e.fld 0 26 26 == 1
/-- PLACE. -/
def RegionWords.place (e : RegionWords) : Nat := e.fld 0 25 24
/-- G16W. -/
def RegionWords.g16w (e : RegionWords) : Bool := e.fld 0 23 23 == 1
/-- PORT. -/
def RegionWords.port (e : RegionWords) : Nat := e.fld 0 22 20
/-- SLOT. -/
def RegionWords.slot (e : RegionWords) : Nat := e.fld 0 19 17
/-- LINK_B. -/
def RegionWords.linkB (e : RegionWords) : Nat := e.fld 0 11 6
/-- LINK_A. -/
def RegionWords.linkA (e : RegionWords) : Nat := e.fld 0 5 0
/-- DEVMASK. -/
def RegionWords.devmask (e : RegionWords) : Nat := e.fld 1 23 0
/-- BANKMASK. -/
def RegionWords.bankmask (e : RegionWords) : Nat := e.fld 2 19 4
/-- CHMASK. -/
def RegionWords.chmask (e : RegionWords) : Nat := e.fld 2 3 0
/-- LASTROW. -/
def RegionWords.lastrow (e : RegionWords) : Nat := e.fld 3 30 16
/-- FIRSTROW. -/
def RegionWords.firstrow (e : RegionWords) : Nat := e.fld 3 14 0

/-- The requester classes of R36. -/
inductive Requester where
  | engine | remote | tier | debug | host
  deriving DecidableEq, Repr

/-- The two permission bits (write, read) of a requester, in word 2 of an entry. -/
def RegionWords.perm (e : RegionWords) : Requester → Nat
  | .engine => e.fld 2 21 20
  | .remote => e.fld 2 23 22
  | .tier => e.fld 2 25 24
  | .debug => e.fld 2 27 26
  | .host => e.fld 2 29 28

/-- The entry grants reads, or writes, to a requester. -/
def RegionWords.grants (e : RegionWords) (q : Requester) (write : Bool) : Bool := (e.perm q).testBit write.toNat

/-- The numbers of the set bits among the low `n` bits of a mask, ascending. -/
def onBits (n mask : Nat) : List Nat := (List.range n).filter (fun i => mask.testBit i)

/-- An entry names a row. -/
def RegionWords.names (e : RegionWords) (l : RowLoc) : Bool :=
  e.devmask.testBit l.dev && e.chmask.testBit l.ch && e.bankmask.testBit l.bank
    && decide (e.firstrow ≤ l.row) && decide (l.row ≤ e.lastrow)

/-- The number of rows of a region. -/
def RegionWords.rows (e : RegionWords) : Nat :=
  (e.lastrow + 1 - e.firstrow) * (onBits 16 e.bankmask).length * (onBits 4 e.chmask).length * (onBits 24 e.devmask).length

/-- The logical size of a region: 1,920 B times its row count (R33). -/
def RegionWords.size (e : RegionWords) : Nat := 1920 * e.rows

/-- Row unit `u` of a region (R32): in an interleaved region the device varies fastest, then channel, bank and row; in every
other the row, then bank, channel and device. -/
def RegionWords.unitRow (e : RegionWords) (u : Nat) : RowLoc :=
  let ds := onBits 24 e.devmask
  let cs := onBits 4 e.chmask
  let bs := onBits 16 e.bankmask
  let nr := e.lastrow + 1 - e.firstrow
  if e.place = 1 then
    let u1 := u / ds.length
    let u2 := u1 / cs.length
    ⟨ds.getD (u % ds.length) 0, cs.getD (u1 % cs.length) 0, bs.getD (u2 % bs.length) 0, e.firstrow + u2 / bs.length⟩
  else
    let u1 := u / nr
    let u2 := u1 / bs.length
    ⟨ds.getD (u2 / cs.length) 0, cs.getD (u2 % cs.length) 0, bs.getD (u1 % bs.length) 0, e.firstrow + u % nr⟩

/-- The line that dense offset `o` of a region selects (R33). -/
def RegionWords.lineAt (e : RegionWords) (o : Nat) : LineLoc := ⟨e.unitRow (o / 1920), o % 1920 / 64⟩

/-- Every row of a region, in its enumeration. -/
def RegionWords.allRows (e : RegionWords) : List RowLoc := (List.range e.rows).map e.unitRow

/-- Entry `n` is enabled. -/
def State.enabled (s : State) (n : Nat) : Bool := s.flag (Reg.R_EN n)

/-- The enabled region that names a row; entries never overlap (R40). -/
def State.regionOf (s : State) (l : RowLoc) : Option Nat :=
  (List.range 64).find? (fun n => s.enabled n && (s.regionWords n).names l)

/-- A row is a state row when an enabled region of class state names it (R16). -/
def State.isStateRow (s : State) (l : RowLoc) : Bool :=
  match s.regionOf l with
  | some n => (s.regionWords n).cls = .state
  | none => false

/-- A row of a detect-only region (R21). -/
def State.isDetectRow (s : State) (l : RowLoc) : Bool :=
  match s.regionOf l with
  | some n => (s.regionWords n).detect
  | none => false

/-- Entry `n` is initializing (R39, R43). -/
def State.initPending (s : State) (n : Nat) : Bool :=
  if n < 32 then s.bit Reg.INIT_PEND_LO n else s.bit Reg.INIT_PEND_HI (n - 32)

/-- Set or clear entry `n`'s INIT_PEND bit. -/
def State.setInitPending (s : State) (n : Nat) (b : Bool) : State :=
  if n < 32 then s.setBit Reg.INIT_PEND_LO n b else s.setBit Reg.INIT_PEND_HI (n - 32) b

/-- A region that is being zeroized (R366). -/
def State.zeroizing (s : State) (n : Nat) : Bool :=
  match s.req.z with
  | some z => z.region == n && s.flag Reg.ZBUSY
  | none => false

/-- The partner of a bank (R12). -/
def partnerBank (b : Nat) : Nat := if b % 2 = 0 then b + 1 else b - 1

/-- The same row number in another bank and row. -/
def RowLoc.at (l : RowLoc) (bank row : Nat) : RowLoc := ⟨l.dev, l.ch, bank, row⟩

/-- The bank pair of a row. -/
def RowLoc.pair (l : RowLoc) : Nat := l.bank / 2

/-- The device-local bank index (R13). -/
def RowLoc.bankIx (l : RowLoc) : Nat := 16 * l.ch + l.bank

/-- The row address word of R113 (+0x0): DEV [31:27], CH [26:25], BANK [24:21], ROW [20:6]. -/
def RowLoc.word (l : RowLoc) : Nat := l.dev * 2 ^ 27 + l.ch * 2 ^ 25 + l.bank * 2 ^ 21 + l.row * 2 ^ 6

/-- The row that such a word names. -/
def RowLoc.ofWord (w : Nat) : RowLoc := ⟨bits w 31 27, bits w 26 25, bits w 24 21, bits w 20 6⟩

/-! ### Checks of R420 -/

/-- The answer to a region request's checks (R420). -/
inductive RegionCheck where
  | ok | notReady | permission | beyond
  deriving DecidableEq, Repr

/-- A class 1 self-test is running (R374). -/
def State.class1Running (s : State) : Bool :=
  match s.req.st with
  | some r => r.cls == 1 && r.running
  | none => false

/-- Checks 1 to 3 of R420 for a request of `len` bytes at dense offset `off`; before stage 4 of bring-up nothing is served
(R396; log entry 79). -/
def State.checkRegion (s : State) (q : Requester) (write : Bool) (n off len : Nat) : RegionCheck :=
  let e := s.regionWords n
  if !e.en || decide (s.get Reg.BSTAGE < 4) || s.initPending n || s.zeroizing n
      || (s.class1Running && (q = .engine || q = .remote || q = .tier)) then .notReady
  else if !e.grants q write then .permission
  else if e.size < off + len then .beyond
  else .ok

/-! ### Sections of a plan -/

/-- The bytes of a section of a plan. -/
def Plan.section (p : Plan) (t : Nat) : List Byte := ((p.sections.find? (·.typ == t)).map (·.bytes)).getD []

/-- The seed table (R91). -/
def Plan.seedTable (p : Plan) : List Byte := p.section 0x09

end Sys2Proof.Machine
end

