-- ==== Sys2Proof/Machine/Rows.lean ====
section
/-! DEFINITION. Reading and writing rows and lines: the metadata word, valid bits, remapped lines, merging writes (R14 to
R25, R45, R46), and what an error met on the way does: the error log, the tracking table and the device counts (R319 to
R327). -/

namespace Sys2Proof.Machine

/-! ### Sector counts and regulators -/

/-- The number of channels of present devices that are not mapped out (R410). -/
def State.openChannels (s : State) : Nat :=
  ((List.range 24).filter s.present).foldl (fun n d => n + ((List.range 4).filter (fun c => !s.mappedOut d c)).length) 0

/-- B of a window that starts now (R410), at the rate of the last training. -/
def State.budget (s : State) : Nat := s.openChannels * [875, 1000, 1125, 1250].getD s.regul.rate 0

/-- The next regulator window (R410, R412): the window in progress ends, LASTUSE shows its charges, and the next one starts with its
budget and the settings as written. -/
def State.newWindow (s : State) : State :=
  let s := (List.range 8).foldl (fun s n => s.set (Reg.LASTUSE n) (min (s.regul.charge.getD n 0) 0xFFFFF)) s
  let m := s.get Reg.SRCMAP_LO + s.get Reg.SRCMAP_HI * 2 ^ 24
  { s with regul := { s.regul with
      start := s.regul.start + 1000
      budget := s.budget
      charge := List.replicate 8 0
      capped := []
      caps := (List.range 8).map (fun n => s.get (Reg.CAP n))
      map := (List.range 16).map (fun i => m / 8 ^ i % 8) } }

/-- The partition of a source of pin traffic, as in force in the window (R409, R410). -/
def State.partitionOf (s : State) (src : Nat) : Nat := s.regul.map.getD src 0 % 8

/-- Charge `n` sectors to a partition; the first charge of a window that reaches the partition's cap counts in CAPHIT (R410,
R413; log entries 117, 122). -/
def State.chargePartition (s : State) (p n : Nat) : State :=
  let now := s.regul.charge.getD p 0 + n
  let cap := s.regul.caps.getD p 256
  let s := { s with regul := { s.regul with charge := s.regul.charge.set p now } }
  if n != 0 && cap != 256 && !s.regul.capped.contains p && decide (cap * s.regul.budget / 256 ≤ now) then
    { s with regul := { s.regul with capped := s.regul.capped ++ [p] } }.bump (Reg.CAPHIT p) 1
  else s

/-- The partition of a source has reached its cap in the window (R411; log entry 122). -/
def State.capReached (s : State) (src : Nat) : Bool :=
  let p := s.partitionOf src
  let cap := s.regul.caps.getD p 256
  cap != 256 && s.regul.budget != 0 && decide (cap * s.regul.budget / 256 ≤ s.regul.charge.getD p 0)

/-- A request of a source passes its regulator: where the partition's charge has reached its cap, the request is admitted in the
next window (R411; log entry 122). -/
def State.regulate (s : State) (src : Nat) : State :=
  if s.capReached src then (s.advance (s.regul.start + 1000)).newWindow else s

/-- Count and charge `rd` sectors read and `wr` sectors written by source `src`, `times` each (R410, R415). -/
def State.chargeSectors (s : State) (src rd wr times : Nat) : State :=
  let p := s.partitionOf src
  let n := (rd + wr) * times
  let s := (s.perf 13 rd).perf 14 wr
  let s := if !s.counting then s
    else s.set64 (Reg.PSECT_LO p) (Reg.PSECT_HI p) (min (s.get64 (Reg.PSECT_LO p) (Reg.PSECT_HI p) + n) (2 ^ 64 - 1))
  let s := if src < 8 then s.perf (if times = 1 then 15 else 16) (rd + wr) else s
  s.chargePartition p n

/-- A request of source `src` passes its regulator and moves its sectors (R410, R411). -/
def State.charge (s : State) (src rd wr times : Nat) : State := (s.regulate src).chargeSectors src rd wr times

/-- The sectors that an access to some lines of a newly opened row reads: two for each valid line, tail sector 3, and the
check sector of each valid line (R25; log entry 16). -/
def rowSectors (lines : List Nat) (valid : Nat) : Nat :=
  let ls := lines.filter (fun l => valid.testBit l)
  2 * ls.length + 1 + ((ls.map (· / 8)).filter (· != 3)).eraseDups.length

/-! ### Metadata -/

/-- The row's metadata as its readers take it; none when it is uncorrectable, or PHASE is 3 in a state row (R16, R17). -/
def State.rowMeta (s : State) (l : RowLoc) : Option Meta :=
  match metaDecode (BitVec.ofNat 64 (leNat (memReads s.mem (l.addr + 0x7F8) 8))) with
  | none => none
  | some (w, _) =>
    let m := Meta.ofWord w
    if s.isStateRow l then (if m.phase = 3 then none else some m)
    else some { m with phase := 0, epoch := 0, far := false }

/-- How a write reaches the device: through the write-combining buffer, or written through. -/
inductive WriteMode where
  | buffered | through
  deriving DecidableEq, Repr

/-- Put bytes of a row, from byte `off` of it on; a mapped-out channel receives no command (R338). -/
def State.put (s : State) (w : WriteMode) (l : RowLoc) (off : Nat) (bs : List Byte) : State :=
  if s.mappedOut l.dev l.ch then s
  else match w with
    | .buffered => s.putBuffered (l.addr + off) bs
    | .through => s.putThrough (l.addr + off) bs

/-- Write a row's metadata word. PHASE, EPOCH and FAR are written 0 outside state rows (R16). -/
def State.putMeta (s : State) (w : WriteMode) (l : RowLoc) (m : Meta) : State :=
  let m := if s.isStateRow l then m else { m with phase := 0, epoch := 0, far := false }
  s.put w l 0x7F8 (leBytes 8 m.toWord.toNat)

/-! ### Lines -/

/-- Where a line is held: in its own place, or in the remap slot of its bank that names it (R45, R46). A line whose slot was
itself replaced is held in the later slot (R327; log entry 80). -/
def State.lineHome (s : State) (x : LineLoc) : RowLoc × Nat :=
  let es := s.fault.remap.filter (fun e => e.dev == x.loc.dev && e.bank == x.loc.bankIx && e.row == x.loc.row
    && e.line == x.line)
  match es.getLast? with
  | some e => (x.loc.at x.loc.bank (s.spareRow x.loc.dev), e.slot)
  | none => (x.loc, x.line)

/-- The stored bytes and check word of a line. -/
def State.lineStored (s : State) (x : LineLoc) : List Byte × Word :=
  let (r, k) := s.lineHome x
  (memReads s.mem (r.addr + 64 * k) 64, BitVec.ofNat 32 (leNat (memReads s.mem (r.addr + 0x780 + 4 * k) 4)))

/-- What a reader of a line meets. -/
inductive LineVal where
  /-- VALID is clear: 64 zero bytes (R22) -/
  | zero
  /-- decoded clean -/
  | good (data : List Byte)
  /-- corrected (class 0x01), with its syndrome -/
  | fixed (data : List Byte) (synd : Word)
  /-- uncorrectable: the error class and its syndrome -/
  | bad (cls : Nat) (synd : Word)
  /-- a detect-only mismatch (class 0x04): the data as stored, marked poisoned -/
  | poison (data : List Byte) (synd : Word)
  /-- a line of a state row with FAR set (R305) -/
  | far
  deriving DecidableEq, Repr

/-- A corrected line. -/
def LineVal.isFixed : LineVal → Bool
  | .fixed _ _ => true
  | .zero | .good _ | .bad _ _ | .poison _ _ | .far => false

/-- The contents of a line (R20 to R22, R305). A line on a mapped-out channel cannot be read (log entry 19). -/
def State.lineVal (s : State) (x : LineLoc) : LineVal :=
  if s.mappedOut x.loc.dev x.loc.ch then .bad 0x06 0
  else match s.rowMeta x.loc with
    | none => .bad 0x05 0
    | some m =>
      if m.far then .far
      else if !m.valid.testBit x.line then .zero
      else
        let (d, c) := s.lineStored x
        if s.isDetectRow x.loc then
          let r := detectDecode x.tag d c
          if r.status = .clean then .good d else .poison d r.synd
        else
          let r := rsDecode x.tag d c
          match r.status with
          | .clean => .good d
          | .corrected => .fixed r.data r.synd
          | .uncorrectable => .bad 0x02 r.synd
          | .addrFault => .bad 0x03 r.synd

/-- The bytes a reader of good data gets, if any. -/
def LineVal.bytes? : LineVal → Option (List Byte)
  | .zero => some (List.replicate 64 0)
  | .good d => some d
  | .fixed d _ => some d
  | .bad _ _ => none
  | .poison _ _ => none
  | .far => none

/-! ### What errors do -/

/-- An error-log entry that names a line (R341). -/
def State.lineInfo (s : State) (x : LineLoc) (synd info : Nat) : ErrInfo := ⟨some x, synd, info, (s.regionOf x.loc).getD 0⟩

/-- The corrected-event count of the line's device (R325; log entry 87). -/
def State.countDevice (s : State) (a : ErrSrc) (d : Nat) : State :=
  let t := s.clock.tick
  let start := (sparseFind s.fault.ceWindow d).getD 0
  let fresh := decide (start + 2 ^ 36 ≤ t)
  let n := if fresh then 1 else min (s.get (Reg.DEVCE d) + 1) 65535
  let s := if fresh then
      { s with fault := { s.fault with ceWindow := sparseInsert (s.fault.ceWindow.filter (·.1 != d)) d t } } else s
  let s := s.set (Reg.DEVCE d) n
  if n = 4096 then (s.setBit Reg.REVIEW d true).log_ 0x0E a ⟨none, 0, n, 0⟩ else s

/-- A corrected event on line `x` (R321, R324, R325). -/
def State.corrected (s : State) (a : ErrSrc) (x : LineLoc) (synd : Word) : State :=
  let s := (s.bump Reg.CE_TOTAL 1).setFlag Reg.CE_ANY true
  let t := s.clock.tick
  let info := s.lineInfo x synd.toNat 0
  let putTracks (s : State) (ts : List Track) : State := { s with fault := { s.fault with tracks := ts } }
  match s.fault.tracks.find? (fun e => e.line == x) with
  | some e =>
    if !e.armed then s
    else
      let old := decide (e.first + 2 ^ 31 ≤ t)
      let e' : Track := ⟨x, if old then 1 else e.count + 1, if old then t else e.first, false⟩
      if e'.count < 3 then
        (putTracks s (s.fault.tracks.map (fun f => if f.line == x then e' else f))).countDevice a x.loc.dev
      else
        let s := putTracks s (s.fault.tracks.filter (fun f => f.line != x))
        let s := if s.flag Reg.AUTOREMAP then { s with fault := { s.fault with lasting := s.fault.lasting ++ [x] } } else s
        ((s.log_ 0x01 a info).log_ 0x0B a info).countDevice a x.loc.dev
  | none =>
    let ts := if s.fault.tracks.length < 256 then some s.fault.tracks
      else match s.fault.tracks.find? (fun e => decide (e.first + 2 ^ 31 ≤ t)) with
        | some e => some (s.fault.tracks.filter (fun f => f.line != e.line))
        | none => none
    match ts with
    | some ts => ((putTracks s (ts ++ [⟨x, 1, t, false⟩])).log_ 0x01 a info).countDevice a x.loc.dev
    | none => (s.bump Reg.TRK_DROP 1).countDevice a x.loc.dev

/-- What meeting a line's contents reports (R319, R305; log entry 18). -/
def State.noteLine (s : State) (a : ErrSrc) (x : LineLoc) (v : LineVal) : State :=
  match v with
  | .zero | .good _ => s
  | .fixed _ sy => s.corrected a x sy
  | .bad c sy => s.log_ c a (s.lineInfo x sy.toNat 0)
  | .poison _ sy => s.log_ 0x04 a (s.lineInfo x sy.toNat 0)
  | .far => s.bump Reg.TNRES 1

/-- Read a line and report what it holds. -/
def State.readLine (s : State) (a : ErrSrc) (x : LineLoc) : LineVal × State :=
  let v := s.lineVal x
  (v, s.noteLine a x v)

/-- Any write to a line arms its tracking entry (R324). -/
def State.arm (s : State) (x : LineLoc) : State :=
  { s with fault := { s.fault with tracks := s.fault.tracks.map (fun t => if t.line == x then { t with armed := true } else t) } }

/-- Store a line's data and check word where the line is held (R18, R21, R45). -/
def State.storeLine (s : State) (w : WriteMode) (x : LineLoc) (data : List Byte) : State :=
  let (r, k) := s.lineHome x
  let c := if s.isDetectRow x.loc then detectCheck x.tag data else rsCheck x.tag data
  ((s.put w r (64 * k) data).put w r (0x780 + 4 * k) (leBytes 4 c.toNat)).arm x

/-- The metadata after a line of the row has been written: VALID set, ZEROED clear (R15, R23). -/
def Meta.afterWrite (m : Meta) (line : Nat) : Meta := { m with valid := m.valid ||| 2 ^ line, zeroed := false }

/-- Write a whole line of a row whose metadata reads as `m` (log entry 91). -/
def State.putLine (s : State) (w : WriteMode) (x : LineLoc) (m : Meta) (data : List Byte) : State :=
  (s.storeLine w x data).putMeta w x.loc (m.afterWrite x.line)

/-- Replace the bytes of `old` that the mask selects. -/
def mergeBytes (old new : List Byte) (mask : Nat) : List Byte :=
  (List.range 64).map (fun i => if mask.testBit i then new.getD i 0 else old.getD i 0)

/-- A mask of all 64 bytes. -/
def fullMask : Nat := 2 ^ 64 - 1

/-- Write bytes of a line (R24): a whole line replaces what was there; a partial write merges into corrected contents, and
is refused on an uncorrectable or mismatched line; a row whose metadata is uncorrectable, that is FAR, or whose channel is
mapped out takes no write. The answer tells whether the write was done (log entries 19, 91). -/
def State.writeLine (s : State) (a : ErrSrc) (w : WriteMode) (x : LineLoc) (data : List Byte) (mask : Nat) :
    Bool × State :=
  match s.rowMeta x.loc with
  | none => (false, s.noteLine a x (.bad 0x05 0))
  | some m =>
    if s.mappedOut x.loc.dev x.loc.ch then (false, s.noteLine a x (.bad 0x06 0))
    else if m.far then (false, s.noteLine a x .far)
    else if mask = fullMask then (true, s.putLine w x m data)
    else
      let v := s.lineVal x
      match v.bytes? with
      | some old => (true, (s.noteLine a x v).putLine w x m (mergeBytes old data mask))
      | none => (false, s.noteLine a x v)

/-- The valid bits of a row, none if its metadata cannot be read. -/
def State.validBits (s : State) (l : RowLoc) : Nat :=
  match s.rowMeta l with
  | some m => m.valid
  | none => 0

/-- Write lines of a row whole, and its metadata word last (R25, R328). -/
def State.putLines (s : State) (w : WriteMode) (l : RowLoc) (lines : List (Nat × List Byte)) (m : Meta) : State :=
  let s := lines.foldl (fun s p => s.storeLine w ⟨l, p.1⟩ p.2) s
  s.putMeta w l { m with valid := lines.foldl (fun v p => v ||| 2 ^ p.1) m.valid }

/-- Tail sector 3 with check words 24 to 29 zero and a fresh metadata word (R43). -/
def State.initRow (s : State) (l : RowLoc) (kind : Nat) : State :=
  s.put .through l 0x7E0 (List.replicate 24 0 ++ leBytes 8 (Meta.fresh kind).toWord.toNat)

/-- The slots of a row's remapped lines, data and check words zero; the remap entries stay (R367). -/
def State.zeroSlots (s : State) (l : RowLoc) : State :=
  let es := s.fault.remap.filter (fun e => e.dev == l.dev && e.bank == l.bankIx && e.row == l.row)
  let sp := l.at l.bank (s.spareRow l.dev)
  es.foldl (fun s e => (s.put .through sp (64 * e.slot) (List.replicate 64 0)).put .through sp (0x780 + 4 * e.slot)
    (List.replicate 4 0)) s

/-- Every line and check word of a row zero, its remapped lines too, with ZEROED set and KIND kept in its metadata (R273,
R367). -/
def State.zeroRow (s : State) (l : RowLoc) : State :=
  let kind := match s.rowMeta l, s.regionOf l with
    | some m, _ => m.kind
    | none, some n => (s.regionWords n).fld 0 29 27
    | none, none => 0
  (s.zeroSlots l).put .through l 0 (List.replicate 2040 0
    ++ leBytes 8 { Meta.fresh kind with zeroed := true }.toWord.toNat)

end Sys2Proof.Machine
end

