-- ==== Sys2Proof/Machine/Hold.lean ====
section
/-! DEFINITION. The step boundary, the step-boundary hold and the shard-loss list (R50, R336, R337), and what the modes of the
block serve (R351, R358). -/

namespace Sys2Proof.Machine

/-- The block is in Run (R396): BSTAGE 7. -/
def State.inRun (s : State) : Bool := s.get Reg.BSTAGE == 7

/-- No step is in flight (R50, R51). -/
def State.atBoundary (s : State) : Bool := s.get Reg.PHASE == 0 || s.get Reg.PHASE == 7

/-- A step is running. -/
def State.inStep (s : State) : Bool := !s.atBoundary

/-- PSTATE is 2 (R351). -/
def State.harebell (s : State) : Bool := s.get Reg.PSTATE == 2

/-- An exit from Harebell has failed in its core start or its training (R353; log entry 104). -/
def State.exitFailed (s : State) : Bool := s.get Reg.RST_CAUSE == 0x05 && s.flag Reg.BFAIL && decide (s.get Reg.BSTAGE < 3)

/-- Only a cold reset follows (R353, R380): the checker test or an exit from Harebell has failed. -/
def State.coldOnly (s : State) : Bool := s.flag Reg.CHK_FAIL || s.exitFailed

/-- The lifecycle state is Spent (R354). -/
def State.spent (s : State) : Bool := s.fuses.lcs == 2

/-- A reset is held: PX_RST_N or PX_WRST_N is low. -/
def State.inReset (s : State) : Bool := s.pins.rstLow || s.pins.wrstLow

/-- A plan is loaded (LSTATE 2, 3, or 4 on a trap). -/
def State.planLoaded (s : State) : Bool := s.plan.plan.isSome

/-- The sequencer is trapped (R181). -/
def State.trapped (s : State) : Bool := s.seq.trapped

/-- S and G (R49). -/
def State.stepS (s : State) : Nat := s.get64 Reg.STEP_LO Reg.STEP_HI
/-- G. -/
def State.stepG (s : State) : Nat := s.get64 Reg.GSTEP_LO Reg.GSTEP_HI

/-- Enter the hold for a cause, or let 0x08 and 0x0A replace the cause of a hold in force (R336; log entry 36). -/
def State.enterHold (s : State) (cause : Nat) : State :=
  if s.flag Reg.HELD then (if cause = 0x08 || cause = 0x0A then s.set Reg.HOLD_CAUSE cause else s)
  else
    let s := ((s.setFlag Reg.HELD true).set Reg.HOLD_CAUSE cause).raise 5
    if s.atBoundary then s.set Reg.PHASE 7 else s

/-- A cause of the hold arises: a trap enters it at once, any other at the next step boundary, or at once at one (R336). -/
def State.holdFor (s : State) (cause : Nat) : State :=
  if cause = 0x0A then
    let s := s.enterHold cause
    { s with fault := { s.fault with holdNext := [] } }
  else if s.inStep then { s with fault := { s.fault with holdNext := s.fault.holdNext ++ [cause] } }
  else s.enterHold cause

/-- The causes that waited for the boundary take effect, in the order in which they arose (R336). -/
def State.takeHolds (s : State) : State :=
  let cs := s.fault.holdNext
  cs.foldl State.enterHold { s with fault := { s.fault with holdNext := [] } }

/-- The shards in the shard-loss list. -/
def State.lostShards (s : State) : List Nat := (List.range (s.get Reg.SHL_N)).map (fun i => s.get (Reg.SHL_SHARD i))

/-- Log the loss of a shard and enter it in the list, where it keeps its first place (R337). -/
def State.listLoss (s : State) (src : ErrSrc) (shard cause : Nat) : State :=
  let s := s.log_ 0x0F src (ErrInfo.plain shard)
  let n := s.get Reg.SHL_N
  if s.lostShards.contains shard then s
  else if n < 16 then ((s.set (Reg.SHL_SHARD n) shard).set (Reg.SHL_CAUSE n) cause).set Reg.SHL_N (n + 1)
  else s.setFlag Reg.SHL_OVF true

/-- A shard is lost: list it and hold (R336, R337; log entry 56). -/
def State.loseShard (s : State) (src : ErrSrc) (shard cause : Nat) : State := (s.listLoss src shard cause).holdFor cause

/-- Remove the entries of shards that satisfy `p` from the shard-loss list. -/
def State.dropLosses (s : State) (p : Nat → Bool) : State :=
  let keep := ((List.range (s.get Reg.SHL_N)).map (fun i => (s.get (Reg.SHL_SHARD i), s.get (Reg.SHL_CAUSE i)))).filter
    (fun e => !p e.1)
  let s := (List.range 16).foldl (fun s i =>
    let e := keep.getD i (0, 0)
    (s.set (Reg.SHL_SHARD i) e.1).set (Reg.SHL_CAUSE i) e.2) s
  s.set Reg.SHL_N keep.length

/-- HOLD_CLR may end the hold (R337). -/
def State.holdMayEnd (s : State) : Bool :=
  s.get Reg.SHL_N == 0 && !s.flag Reg.SHL_OVF && s.get Reg.YSTATE != 2 && s.get Reg.HOLD_CAUSE != 0x08
    && s.get Reg.HOLD_CAUSE != 0x0A

/-- The hold ends. -/
def State.endHold (s : State) : State :=
  let s := (s.setFlag Reg.HELD false).set Reg.HOLD_CAUSE 0
  if s.get Reg.PHASE = 7 then s.set Reg.PHASE 0 else s

/-- POISON: an uncorrectable or address fault on a state row or reduction sector of the step before the local seal record is
sent (R67). -/
def State.poison (s : State) : State :=
  if s.step.lseal.sent then s
  else { s with step := { s.step with lseal := { s.step.lseal with poison := true } } }

/-- A row is a state row or a reduction row of the running step. -/
def State.rowOfStep (s : State) (l : RowLoc) : Bool :=
  s.inStep && (s.step.entries.any (fun e => e.e.loc == l) || s.step.sectors.any (fun x =>
    x.loc.dev == l.dev && x.loc.ch == l.ch && partnerBank x.loc.bank == l.bank && (s.regionOf l).any (fun n =>
      (s.regionWords n).cls = .reduction)))

end Sys2Proof.Machine
end

