-- ==== Sys2Proof/Machine/Regions.lean ====
section
/-! DEFINITION. The region table: the checks on an entry (R31, R34 to R36, R40, R47, R419), writing an entry, and
initialization (R41 to R43). -/

namespace Sys2Proof.Machine

/-- The ceiling of a class for a requester: bit 1 write, bit 0 read (R36). -/
def permCeiling (c : RegionClass) (q : Requester) : Nat :=
  match c, q with
  | .state, .engine => 1 | .state, .remote => 0 | .state, .tier => 3 | .state, .debug => 1 | .state, .host => 1
  | .reduction, .engine => 0 | .reduction, .remote => 0 | .reduction, .tier => 0 | .reduction, .debug => 1
  | .reduction, .host => 1
  | .weight, .engine => 3 | .weight, .remote => 3 | .weight, .tier => 3 | .weight, .debug => 1 | .weight, .host => 3
  | .frozen, .engine => 1 | .frozen, .remote => 1 | .frozen, .tier => 3 | .frozen, .debug => 1 | .frozen, .host => 3
  | .factor, .engine => 1 | .factor, .remote => 0 | .factor, .tier => 3 | .factor, .debug => 1 | .factor, .host => 3
  | .plan, .engine => 0 | .plan, .remote => 0 | .plan, .tier => 0 | .plan, .debug => 1 | .plan, .host => 3
  | .activation, .engine => 3 | .activation, .remote => 3 | .activation, .tier => 3 | .activation, .debug => 1
  | .activation, .host => 3
  | .spare, .engine => 0 | .spare, .remote => 0 | .spare, .tier => 0 | .spare, .debug => 0 | .spare, .host => 0

/-- Placement allowed for a class (R31). -/
def placeAllowed (c : RegionClass) (place : Nat) : Bool :=
  match c with
  | .state | .reduction | .plan | .spare => place == 0
  | .weight => place == 1 || place == 2
  | .frozen | .factor | .activation => place == 1

/-- A bound weight region (R31). -/
def RegionWords.bound (e : RegionWords) : Bool := decide (e.cls = .weight) && e.place == 2

/-- Fields set where the class does not use them, or a SLOT that is not 1, 2, 3 or 5 (R40, code 0x09). -/
def RegionWords.misused (e : RegionWords) : Bool :=
  (e.g16w && decide (e.cls ≠ .reduction))
    || (if e.bound then !([1, 2, 3, 5].contains e.slot) else e.slot != 0)
    || (e.place != 1 && e.port != 0)
    || (e.linkA != 0 && !(decide (e.cls = .state) || decide (e.cls = .reduction) || e.bound))
    || (e.linkB != 0 && decide (e.cls ≠ .state))

/-- A permission above the class ceiling (R36). -/
def RegionWords.overCeiling (e : RegionWords) : Bool :=
  [Requester.engine, .remote, .tier, .debug, .host].any (fun q =>
    let p := e.perm q
    let c := permCeiling e.cls q
    (p.testBit 0 && !c.testBit 0) || (p.testBit 1 && !c.testBit 1))

/-- The bits of every pair of a bank mask exchanged (R35). -/
def swapPairs (mask : Nat) : Nat :=
  (onBits 16 mask).foldl (fun a b => a + 2 ^ partnerBank b) 0

/-- The two regions have a row in common. -/
def RegionWords.overlaps (e f : RegionWords) : Bool :=
  (e.devmask &&& f.devmask) != 0 && (e.chmask &&& f.chmask) != 0 && (e.bankmask &&& f.bankmask) != 0
    && decide (max e.firstrow f.firstrow ≤ min e.lastrow f.lastrow)

/-- R35 between a state region and a region linked to it. -/
def RegionWords.partners (st x : RegionWords) : Bool :=
  st.devmask == x.devmask && st.chmask == x.chmask && swapPairs st.bankmask == x.bankmask && !st.overlaps x

/-- The links of entry `n` against the enabled entries of a table (R419): true when they hold. A reduction or bound entry whose LINK_A
names itself or an enabled entry of another class fails too (log entry 129). -/
def linksHold (tab : Nat → RegionWords) (n : Nat) (e : RegionWords) : Bool :=
  match e.cls with
  | .state =>
    [e.linkA, e.linkB].all (fun k => k == n || !(tab k).en || (e.partners (tab k) && (tab k).linkA == n))
  | .reduction => !(tab e.linkA).en || ((tab e.linkA).partners e && (tab e.linkA).linkA == n)
  | .weight =>
    if e.place = 2 then !(tab e.linkA).en || ((tab e.linkA).partners e && (tab e.linkA).linkB == n) else true
  | .frozen | .factor | .plan | .activation | .spare => true

/-- State rows in each bank that the enabled state entries of a table give a device's channel and bank (R47). -/
def stateRowsIn (tab : Nat → RegionWords) (d c b : Nat) : Nat :=
  ((List.range 64).map (fun k =>
    let f := tab k
    if f.en && decide (f.cls = .state) && f.devmask.testBit d && f.chmask.testBit c && f.bankmask.testBit b then
      f.lastrow + 1 - f.firstrow else 0)).sum

/-- R47: some bank of the entry would hold more state rows than 85 % of its rows. -/
def State.overStateCeiling (s : State) (tab : Nat → RegionWords) (e : RegionWords) : Bool :=
  decide (e.cls = .state) && (onBits 24 e.devmask).any (fun d => (onBits 4 e.chmask).any (fun c =>
    (onBits 16 e.bankmask).any (fun b => decide (s.bankRows d * 85 / 100 < stateRowsIn tab d c b))))

/-- The entry's own conditions, its population, and its relations to the other enabled entries of `tab`, which holds it
under number `n`: the first refusal code in the order of R40. -/
def State.entryRefusal (s : State) (tab : Nat → RegionWords) (n : Nat) (e : RegionWords) : Option Nat :=
  let ds := onBits 24 e.devmask
  if e.detect && decide (e.cls ≠ .activation) then some 0x04
  else if !placeAllowed e.cls e.place
      || (s.flag Reg.CLOVER && (decide (e.cls = .state) || decide (e.cls = .reduction) || decide (e.cls = .plan) || e.bound))
    then some 0x05
  else if e.misused then some 0x09
  else if e.overCeiling then some 0x0D
  else if e.lastrow < e.firstrow || ds.any (fun d => !s.present d || decide (s.bankRows d ≤ e.lastrow)) then some 0x03
  else if ds.any (fun d => decide (s.spareRow d ≤ e.lastrow)) then some 0x02
  else if ds.any (fun d => (onBits 4 e.chmask).any (fun c => s.mappedOut d c)) then some 0x0C
  else if e.place = 1 && (e.devmask == 0 || !ds.all (fun d => d / 3 == e.port)) then some 0x06
  else if !linksHold tab n e then some 0x07
  else if (List.range 64).any (fun k => k != n && (tab k).en && e.overlaps (tab k)) then some 0x01
  else if s.overStateCeiling tab e then some 0x08
  else none

/-- The region table with entry `n` as given. -/
def State.tableWith (s : State) (n : Nat) (e : RegionWords) : Nat → RegionWords :=
  fun k => if k = n then e else s.regionWords k

/-- The entry is held by the loaded plan: one of its region entries, or its staging region (R41, R167). -/
def State.planHeld (s : State) (n : Nat) : Bool :=
  match s.plan.plan with
  | some p => p.region == n || p.regions.any (fun r => r.1 == n)
  | none => false

/-- The entry's word `w` replaced by `v`, INIT not kept and bits without a field zero (R38). -/
def RegionWords.withWord (e : RegionWords) (w v : Nat) : RegionWords :=
  e.set w (match w with
    | 0 => v &&& 0xBFFE0FFF
    | 1 => v &&& 0x00FFFFFF
    | 2 => v &&& 0x3FFFFFFF
    | _ => v &&& 0x7FFF7FFF)

/-- Everything but EN and the PERM fields (R40, code 0x0B). -/
def RegionWords.fixedPart (e : RegionWords) : List Nat :=
  [e.getD 0 0 &&& 0x7FFFFFFF, e.getD 1 0, e.getD 2 0 &&& 0x000FFFFF, e.getD 3 0]

/-- The refusal of a write that makes entry `n` read as `e`; `init` is the INIT bit written (R40; log entry 78). -/
def State.writeRefusal (s : State) (n : Nat) (e : RegionWords) (init : Bool) : Option Nat :=
  let old := s.regionWords n
  if s.planHeld n then some 0x0A
  else if old.en && (init || old.fixedPart != e.fixedPart) then some 0x0B
  else if e.en then s.entryRefusal (s.tableWith n e) n e
  else none

/-- Put the four words of an entry into the register file. -/
def State.putRegion (s : State) (n : Nat) (e : RegionWords) : State :=
  (List.range 4).foldl (fun s w => s.writeFields (0x1000 + 16 * n + 4 * w) (e.getD w 0)) s

/-- An enabled entry begins to initialize, under its words as they stand (R43). One that is still at work on the entry, disabled
since, starts again with them (log entry 126). -/
def State.beginInit (s : State) (n : Nat) : State :=
  let j : InitRun := ⟨n, s.regionWords n, false⟩
  let s := (s.setInitPending n true).setFlag Reg.BUSY true
  { s with req := { s.req with inits := s.req.inits.filter (fun i => i.entry != n) ++ [j] } }

/-- Disable an entry, its rows untouched (R42). -/
def State.disableRegion (s : State) (n : Nat) : State := s.setFlag (Reg.R_EN n) false

/-- A refused entry write (R40). -/
def State.refuseEntry (s : State) (n code : Nat) : State :=
  ((s.setFlag Reg.REFUSED true).set Reg.REF_ENTRY n).set Reg.REF_CODE code

/-- A write of word `w` of entry `n` (R40 to R43). -/
def State.writeEntry (s : State) (n w v : Nat) : State :=
  let e := (s.regionWords n).withWord w v
  let init := w == 0 && v.testBit 30
  match s.writeRefusal n e init with
  | some c => s.refuseEntry n c
  | none =>
    let was := s.enabled n
    let s := s.putRegion n e
    if init && e.en && !was then s.beginInit n else s

/-- INIT: tail sector 3 of every row that the words give (R43). -/
def State.initRegion (s : State) (e : RegionWords) : State :=
  e.allRows.foldl (fun s l => s.initRow l (e.fld 0 29 27)) s

/-- Some entry is initializing. -/
def State.anyInit (s : State) : Bool := s.get Reg.INIT_PEND_LO != 0 || s.get Reg.INIT_PEND_HI != 0

end Sys2Proof.Machine
end

