-- ==== Sys2Proof/Machine/Access.lean ====
section
/-! DEFINITION. The control-port window as its ports see it: which registers are served (R351, R358, R405), what a read
returns (R399 to R402, with the fields that show other state), and what a write does by access code (R400). -/

namespace Sys2Proof.Machine

/-- The blocks of the window that a Spent part does not serve (R358): region, sequencer, step-status, fabric, far-tier and
export. -/
def spentBlocked (off : Nat) : Bool :=
  (0x0200 ≤ off && off < 0x1800) || (0x5000 ≤ off && off < 0x6000)

/-- The register at `off` is served: not while a reset is held, in Harebell the keeper's block only, in Spent what R358
leaves (R405); after an exit from Harebell that failed every register shows what happened (R353). -/
def State.served (s : State) (off : Nat) : Bool :=
  !s.inReset && off % 4 == 0
    && (if s.harebell && !s.exitFailed then decide (0x4800 ≤ off ∧ off ≤ 0x48FF) else !(s.spent && spentBlocked off))

/-- PORT_UP: the ports that can answer and that the fabric has not declared failed (log entry 22). -/
def State.portUp (s : State) : Nat := s.pins.fRdy - (s.pins.fRdy &&& s.pins.fFail)

/-- The remap entries of a bank in slot order (R45). -/
def State.bankEntries (s : State) (d bank : Nat) : List RemapEntry :=
  s.fault.remap.filter (fun e => e.dev == d && e.bank == bank)

/-- The value of the sequencer-window selection (R362; log entry 28). -/
def State.windowValue (s : State) : Nat :=
  let n := s.get Reg.DSEL
  if s.get Reg.DBG_LVL < 2 then 0
  else if n < 16 then (s.seq.s.getD n 0).toNat
  else if n < 24 then (s.seq.a.getD (n - 16) 0).toNat
  else if n = 24 then (s.seq.p.zipIdx.map (fun b => if b.1 then 2 ^ b.2 else 0)).sum
  else 0

/-- The lowest q of the step not yet begun; all ones once every one has begun (R184, log entry 23). -/
def State.collNext (s : State) : Nat :=
  match s.step.cset with
  | none => 0
  | some l => ((l.map (·.1)).find? (fun q => !s.step.insts.any (fun i => i.q == q))).getD 0xFFFF

/-- The active collective groups (R179): those of begun instances of which one has not ended. -/
def State.activeGroups (s : State) : List Nat :=
  ((s.step.insts.filter (fun i => !i.ended)).map (·.cgrp)).eraseDups

/-- A slot has closed (R63). -/
def SlotSt.closed (x : SlotSt) : Bool := x.st == .added || x.st == .marked

/-- The lowest unclosed slot of the step; all ones when there is none (R246). -/
def State.arrNext (s : State) : Nat :=
  if s.inStep then (s.step.slots.findIdx? (fun x => !x.closed)).getD 0xFFFFFFFF else 0xFFFFFFFF

/-- Rows queued or moving (R318): rows of queued moves not yet moved, and moved-in rows not yet out. -/
def State.tierQueued (s : State) : Nat :=
  (s.tier.queue.map (fun m => m.nrows - m.done)).sum
    + (s.tier.moved.filter (fun r => r.st == .due || r.st == .writing)).length

/-- BWAIT: the conditions of stage 6 that do not hold (R397, R398). -/
def State.bwait (s : State) : Nat :=
  let far := match s.plan.plan with
    | some p => !p.far.isEmpty
    | none => false
  if s.get Reg.BSTAGE != 6 then 0
  else (s.get Reg.LSTATE != 2).toNat * 8 + (!s.flag Reg.BOUND).toNat * 4 + (!s.flag Reg.TICK_OK).toNat * 2
    + (s.get Reg.YSTATE == 1 || s.get Reg.YSTATE == 2 || (far && !s.pins.tierUp)).toNat

/-- A mirror write that waits for the boundary (R342). -/
def Repair.isRemap : Repair → Bool
  | .remap _ _ _ => true
  | .service | .mapout _ _ | .tables _ => false

/-- A field as a read shows it: the stored value, or the state that the field reports (log entry 28). -/
def State.view (s : State) (f : Field) : Nat :=
  if f = Reg.TICK_LO then s.clock.tick % 2 ^ 32
  else if f = Reg.TICK_HI then s.clock.tick / 2 ^ 32 % 2 ^ 32
  else if f = Reg.BWAIT then s.bwait
  else if f = Reg.TJ_CORE then (Config.coreTemp s.clock.time).toNat
  else if f = Reg.TUP then s.pins.tierUp.toNat
  else if f = Reg.TQUEUED then s.tierQueued % 2 ^ 16
  else if f = Reg.XBUSY then s.req.x.isSome.toNat
  else if f = Reg.RBUSY then s.req.r.isSome.toNat
  else if f = Reg.COLL_NEXT then s.collNext
  else if f = Reg.COLL_ACTIVE then s.activeGroups.length
  else if f = Reg.SEQ_PC then (if s.get Reg.DBG_LVL = 0 then 0 else s.seq.pc)
  else if f = Reg.BUDGET then s.regul.budget
  else if f = Reg.REP_BUSY then (!s.req.repairs.isEmpty).toNat
  else if f = Reg.RM_BUSY then (s.req.repairs.any Repair.isRemap).toNat
  else if f = Reg.RM_USED then
    ((s.bankEntries (s.get Reg.RM_DEV) (s.get Reg.RM_BANK)).map (·.slot)).eraseDups.length
  else if f = Reg.RM_TOTAL then s.fault.remap.length
  else if f = Reg.ST_BUSY then (s.req.st.any (·.running)).toNat
  else if f = Reg.ST_PEND then (s.req.st.any (!·.running)).toNat
  else if f = Reg.UID_LO then s.fuses.uid.toNat % 2 ^ 32
  else if f = Reg.UID_HI then s.fuses.uid.toNat / 2 ^ 32
  else if f = Reg.LCS then s.fuses.lcs
  else if f = Reg.ZPEND then s.fuses.zpend.toNat
  else if f = Reg.LC_BUSY then s.req.lc.isSome.toNat
  else if f = Reg.PWR_BUSY then s.req.power.isSome.toNat
  else if f = Reg.ROT_BUSY then s.req.rot.isSome.toNat
  else if f = Reg.ROT_KIND then (s.req.rot.map (·.kind)).getD 0
  else if f = Reg.DDATA_LO then s.windowValue % 2 ^ 32
  else if f = Reg.DDATA_HI then s.windowValue / 2 ^ 32 % 2 ^ 32
  else if f = Reg.PORT_UP then s.portUp
  else if f = Reg.CNT_BUSY then s.exch.cnt.isSome.toNat
  else if f = Reg.ARR_NEXT then s.arrNext
  else s.get f

/-- The register at `off` as a read returns it: wo fields and bits without a field read zero, an offset that is not served
or not a multiple of 4 reads zero (R11, R399, R405). -/
def State.readWord (s : State) (off : Nat) : Nat :=
  if s.served off then
    (regFields off).foldl (fun acc f => if f.acc = .wo then acc else acc + s.view f * 2 ^ f.lo) 0
  else 0

/-- The other words that a read of a block-written pair's _LO word latches (R402; log entry 24). -/
def latchPartners (off : Nat) : List Nat :=
  if off = 0x0010 || off = 0x0418 || off = 0x0428 || off = 0x0820 || off = 0x0828 || off = 0x0838 || off = 0x2020
      || off = 0x0318 || off = 0x1408 || off = 0x4804 || off = 0x4858 || off = 0x5008
      || (0x0848 ≤ off && off ≤ 0x0870 && off % 8 = 0) || (0x0880 ≤ off && off ≤ 0x08B8 && off % 8 = 0)
      || (0x2204 ≤ off && off ≤ 0x29E4 && off % 32 = 4) || (0x6010 ≤ off && off ≤ 0x60D0 && off % 8 = 0)
      || (0x6100 ≤ off && off ≤ 0x6138 && off % 8 = 0) then [off + 4]
  else if off = 0x2038 then [off + 4, off + 8]
  else []

/-- A read of the register at `off` at a port with the given latched words: the value, and the port's latched words after
(R399, R402); one that is not served reads as zero (R405; log entry 116). -/
def State.readPort (s : State) (latch : List (Nat × Word)) (off : Nat) : Word × List (Nat × Word) :=
  if !s.served off then (0, latch)
  else match sparseFind latch off with
  | some v => (v, latch.filter (·.1 != off))
  | none =>
    (BitVec.ofNat 32 (s.readWord off),
      (latchPartners off).map (fun o => (o, BitVec.ofNat 32 (s.readWord o)))
        ++ latch.filter (fun e => !(latchPartners off).contains e.1))

/-- A register read at the control port: the value goes out, the pair's other words are latched. -/
def State.cpRead (s : State) (off : Nat) : State :=
  let (v, l) := s.readPort s.cpLatch off
  { s with cpLatch := l }.emit (.reg off v)

/-- A write of `v` to the register at `off` with the work `act` that it starts: an offset that is not served ignores the
write; the fields act by their access codes first (R400). -/
def State.onWrite (s : State) (off : Nat) (v : Word) (act : State → State) : State :=
  if s.served off then act (s.writeFields off v.toNat) else s

/-- Do `f` when bit `n` of the word written is set (R400: a 0 is no request). -/
def whenBit (v : Word) (n : Nat) (f : State → State) (s : State) : State := if v.getLsbD n then f s else s

end Sys2Proof.Machine
end

