-- ==== Sys2Proof/Machine/Flags.lean ====
section
/-! DEFINITION. The sticky arithmetic flags (R90) and the computations that carry them. -/

namespace Sys2Proof.Machine

/-- A computation in the defined arithmetic: it may set sticky flags (R90). -/
abbrev Fp := StateM Flags

/-- INVALID: an operation produced NaN from operands that were not NaN (R90). -/
def fpInvalid : Fp Unit := modify (fun f => { f with invalid := true })

/-- OVERFLOW: a finite operation or an unscale produced an infinity (R90). -/
def fpOverflow : Fp Unit := modify (fun f => { f with overflow := true })

/-- FLUSHED: an operand or a nonzero result was flushed to zero (R90). -/
def fpFlushed : Fp Unit := modify (fun f => { f with flushed := true })

/-- NONFIN: a non-finite master was emitted (R100). -/
def fpNonfin : Fp Unit := modify (fun f => { f with nonfin := true })

/-- Both sets of flags. -/
def Flags.or (a b : Flags) : Flags :=
  ⟨a.nonfin || b.nonfin, a.invalid || b.invalid, a.overflow || b.overflow, a.flushed || b.flushed⟩

/-- The FLAGS bits of a result sector: [3] NONFIN, [2] INVALID, [1] OVERFLOW, [0] FLUSHED (R276). -/
def Flags.code (f : Flags) : Nat :=
  f.nonfin.toNat * 8 + f.invalid.toNat * 4 + f.overflow.toNat * 2 + f.flushed.toNat

/-- Run a computation from no flags: its result and the flags it sets. -/
def Fp.go {α : Type} (x : Fp α) : α × Flags := x Flags.clear

end Sys2Proof.Machine
end

