-- ==== Sys2Proof/Machine/Fp.lean ====
section
/-! DEFINITION. The defined arithmetic (R77 to R93): FP32 codes as 32-bit words, the adder in any significand width, the
multiplier, scaling, selection and comparison, conversions, and the reciprocal square root with its derived operations. -/

namespace Sys2Proof.Machine

/-! ### Codes -/

/-- Sign bit of an FP32 code. -/
def fpSign (a : Word) : Bool := a.getLsbD 31
/-- Exponent field. -/
def fpExpField (a : Word) : Nat := (a.extractLsb' 23 8).toNat
/-- Mantissa field. -/
def fpMant (a : Word) : Nat := (a.extractLsb' 0 23).toNat
/-- A NaN (R78). -/
def fpIsNaN (a : Word) : Bool := fpExpField a == 255 && fpMant a != 0
/-- An infinity (R78). -/
def fpIsInf (a : Word) : Bool := fpExpField a == 255 && fpMant a == 0
/-- A zero of either sign. -/
def fpIsZero (a : Word) : Bool := fpExpField a == 0 && fpMant a == 0
/-- A subnormal. -/
def fpIsSub (a : Word) : Bool := fpExpField a == 0 && fpMant a != 0
/-- Neither infinite nor NaN. -/
def fpIsFinite (a : Word) : Bool := fpExpField a != 255

/-- The canonical NaN (R79). -/
def fpNaN : Word := 0x7FC00000
/-- A code with sign `s` and the other 31 bits `v`. -/
def fpCode (s : Bool) (v : Nat) : Word := BitVec.ofNat 32 (s.toNat * 2 ^ 31 + v % 2 ^ 31)
/-- Zero with a sign. -/
def fpZero (s : Bool) : Word := fpCode s 0
/-- Infinity with a sign. -/
def fpInf (s : Bool) : Word := fpCode s 0x7F800000
/-- 1.0. -/
def fpOne : Word := 0x3F800000

/-- The 24-bit significand and the exponent of a finite code: value = m · 2^(e − 23) (R85). -/
def fpSigExp (a : Word) : Nat × Int :=
  if fpExpField a = 0 then (fpMant a, -126) else (2 ^ 23 + fpMant a, (fpExpField a : Int) - 127)

/-- The bit length of a number. -/
def bitLen (n : Nat) : Nat := if n = 0 then 0 else n.log2 + 1

/-- `t / 2^k` rounded half to even. -/
def roundHalfEven (t k : Nat) : Nat :=
  let q := t / 2 ^ k
  let r := t % 2 ^ k
  if k = 0 then t
  else if 2 ^ (k - 1) < r || (r == 2 ^ (k - 1) && q % 2 == 1) then q + 1 else q

/-- R87, for significands of `p` bits: round t · 2^k with sign s. -/
def fpFinishP (p : Nat) (flush : Bool) (s : Bool) (t : Nat) (k : Int) : Fp Word := do
  let top : Int := (bitLen t : Int) - 1 + k
  if flush && decide (top < -126) then
    fpFlushed
    return fpZero s
  let e := max top (-126)
  let sh := k - e + ((p : Int) - 1)
  let r := if 0 ≤ sh then t * 2 ^ sh.toNat else roundHalfEven t (-sh).toNat
  let c := (e + 126).toNat * 2 ^ 23 + r * 2 ^ (24 - p)
  if 0x7F800000 ≤ c then
    fpOverflow
    return fpInf s
  return fpCode s c

/-- finish of R87 in FP32. -/
def fpFinish (flush : Bool) (s : Bool) (t : Nat) (k : Int) : Fp Word := fpFinishP 24 flush s t k

/-- R87: a subnormal operand is replaced by zero of its sign when flush is set. -/
def fpOperand (flush : Bool) (a : Word) : Fp Word :=
  if flush && fpIsSub a then do
    fpFlushed
    return fpZero (fpSign a)
  else pure a

/-! ### Add, subtract, multiply, scale -/

/-- R85 on finite nonzero operands, with significands of `p` bits. -/
def fpAddFinite (p : Nat) (flush : Bool) (a b : Word) : Fp Word :=
  let (ma0, ea0) := fpSigExp a
  let (mb0, eb0) := fpSigExp b
  let ma0 := ma0 / 2 ^ (24 - p)
  let mb0 := mb0 / 2 ^ (24 - p)
  let swap := decide (ea0 < eb0) || (ea0 == eb0 && decide (ma0 < mb0))
  let (sa, ma, ea) := if swap then (fpSign b, mb0, eb0) else (fpSign a, ma0, ea0)
  let (sb, mb, eb) := if swap then (fpSign a, ma0, ea0) else (fpSign b, mb0, eb0)
  let x := ma * 8
  let y := mb * 8 / 2 ^ (ea - eb).toNat
  let t := if sa = sb then x + y else x - y
  if t = 0 then pure (fpZero false) else fpFinishP p flush sa t (ea - (p + 2))

/-- Add with significands of `p` bits: R85 with the special cases of R88. -/
def fpAddP (p : Nat) (flush : Bool) (a b : Word) : Fp Word := do
  let a ← fpOperand flush a
  let b ← fpOperand flush b
  if fpIsNaN a || fpIsNaN b then return fpNaN
  if fpIsInf a && fpIsInf b then
    if fpSign a = fpSign b then return a
    fpInvalid
    return fpNaN
  if fpIsInf a then return a
  if fpIsInf b then return b
  if fpIsZero a && fpIsZero b then return fpZero (fpSign a && fpSign b)
  if fpIsZero a then return b
  if fpIsZero b then return a
  fpAddFinite p flush a b

/-- add(a, b) (R85). -/
def fpAdd (flush : Bool) (a b : Word) : Fp Word := fpAddP 24 flush a b

/-- Change the sign, then make a NaN canonical (R88). -/
def fpNeg (a : Word) : Word := if fpIsNaN a then fpNaN else a ^^^ 0x80000000
/-- Clear the sign, then make a NaN canonical (R88). -/
def fpAbs (a : Word) : Word := if fpIsNaN a then fpNaN else a &&& 0x7FFFFFFF

/-- sub(a, b) = add(a, neg(b)) (R85). -/
def fpSub (flush : Bool) (a b : Word) : Fp Word := fpAdd flush a (fpNeg b)

/-- mul(a, b) (R86, R88). -/
def fpMul (flush : Bool) (a b : Word) : Fp Word := do
  let a ← fpOperand flush a
  let b ← fpOperand flush b
  if fpIsNaN a || fpIsNaN b then return fpNaN
  let s := fpSign a ^^ fpSign b
  if (fpIsInf a && fpIsZero b) || (fpIsZero a && fpIsInf b) then
    fpInvalid
    return fpNaN
  if fpIsInf a || fpIsInf b then return fpInf s
  if fpIsZero a || fpIsZero b then return fpZero s
  let (ma, ea) := fpSigExp a
  let (mb, eb) := fpSigExp b
  let p := ma * mb
  let k := bitLen p - 27
  fpFinish flush s (p / 2 ^ k) (ea + eb - 46 + k)

/-- scale(x, n): exact, through finish only where the result leaves the normal range (R86, R87). -/
def fpScale (flush : Bool) (x : Word) (n : Int) : Fp Word := do
  if fpIsNaN x then return fpNaN
  let x ← fpOperand flush x
  if fpIsInf x || fpIsZero x then return x
  let (m, e) := fpSigExp x
  fpFinish flush (fpSign x) m (e - 23 + n)

/-! ### Selection and comparison -/

/-- An order-preserving image of a code that is no NaN; −0 lies below +0. -/
def fpKey (a : Word) : Int := if fpSign a then -1 - ((a &&& 0x7FFFFFFF).toNat : Int) else (a.toNat : Int)

/-- max(a, b) (R88). -/
def fpMax (a b : Word) : Word := if fpIsNaN a || fpIsNaN b then fpNaN else if fpKey a < fpKey b then b else a
/-- min(a, b) (R88). -/
def fpMin (a b : Word) : Word := if fpIsNaN a || fpIsNaN b then fpNaN else if fpKey b < fpKey a then b else a

/-- a < b: exact, −0 equals +0, false with a NaN (R88). -/
def fpLt (a b : Word) : Bool :=
  !fpIsNaN a && !fpIsNaN b && !(fpIsZero a && fpIsZero b) && decide (fpKey a < fpKey b)
/-- a ≤ b. -/
def fpLe (a b : Word) : Bool :=
  !fpIsNaN a && !fpIsNaN b && ((fpIsZero a && fpIsZero b) || decide (fpKey a ≤ fpKey b))

/-! ### Conversions -/

/-- BF16 to FP32 (R89). -/
def fpOfBf16 (flush : Bool) (h : Half) : Fp Word := do
  let a : Word := h ++ (0 : Half)
  if fpIsNaN a then return fpNaN
  fpOperand flush a

/-- An unsigned integer of up to 64 bits, rounded half to even to 24 significant bits (R89). -/
def fpOfNat (n : Nat) : Word :=
  if n = 0 then fpZero false
  else
    let e := bitLen n - 1
    let r := if e ≤ 23 then n * 2 ^ (23 - e) else roundHalfEven n (e - 23)
    fpCode false ((e + 126) * 2 ^ 23 + r)

/-- Significand and exponent of a finite FP64 code: value = m · 2^e. -/
def f64SigExp (a : DWord) : Nat × Int :=
  let ef := (a.extractLsb' 52 11).toNat
  let m := (a.extractLsb' 0 52).toNat
  if ef = 0 then (m, -1074) else (2 ^ 52 + m, (ef : Int) - 1075)

/-- Exponent field all ones. -/
def f64Special (a : DWord) : Bool := (a.extractLsb' 52 11).toNat == 2047
/-- An FP64 NaN. -/
def f64IsNaN (a : DWord) : Bool := f64Special a && (a.extractLsb' 0 52).toNat != 0
/-- The FP64 NaN that an FP64 operation gives. -/
def f64NaN : DWord := 0x7FF8000000000000

/-- Round t · 2^k to FP64, half to even (IEEE 754 binary64). -/
def f64Round (s : Bool) (t : Nat) (k : Int) : DWord :=
  if t = 0 then BitVec.ofNat 64 (s.toNat * 2 ^ 63)
  else
    let e := max ((bitLen t : Int) - 1 + k) (-1022)
    let sh := k - e + 52
    let r := if 0 ≤ sh then t * 2 ^ sh.toNat else roundHalfEven t (-sh).toNat
    let c := min ((e + 1022).toNat * 2 ^ 52 + r) 0x7FF0000000000000
    BitVec.ofNat 64 (s.toNat * 2 ^ 63 + c)

/-- FP32 to FP64, exact (R89). -/
def f64OfFp (a : Word) : DWord :=
  if fpIsNaN a then f64NaN
  else if fpIsInf a then BitVec.ofNat 64 ((fpSign a).toNat * 2 ^ 63 + 0x7FF0000000000000)
  else
    let (m, e) := fpSigExp a
    f64Round (fpSign a) m (e - 23)

/-- FP64 addition, round to nearest even. -/
def f64Add (a b : DWord) : DWord :=
  if f64IsNaN a || f64IsNaN b then f64NaN
  else if f64Special a && f64Special b then (if a = b then a else f64NaN)
  else if f64Special a then a
  else if f64Special b then b
  else
    let (ma, ea) := f64SigExp a
    let (mb, eb) := f64SigExp b
    let k := min ea eb
    let va : Int := (if a.getLsbD 63 then -1 else 1) * (ma * 2 ^ (ea - k).toNat : Nat)
    let vb : Int := (if b.getLsbD 63 then -1 else 1) * (mb * 2 ^ (eb - k).toNat : Nat)
    let v := va + vb
    if v = 0 then BitVec.ofNat 64 ((a.getLsbD 63 && b.getLsbD 63).toNat * 2 ^ 63)
    else f64Round (decide (v < 0)) v.natAbs k

/-- FP64 multiplication, round to nearest even. -/
def f64Mul (a b : DWord) : DWord :=
  let s := a.getLsbD 63 ^^ b.getLsbD 63
  if f64IsNaN a || f64IsNaN b then f64NaN
  else if f64Special a || f64Special b then
    if (f64Special a && (f64SigExp b).1 == 0) || (f64Special b && (f64SigExp a).1 == 0) then f64NaN
    else BitVec.ofNat 64 (s.toNat * 2 ^ 63 + 0x7FF0000000000000)
  else
    let (ma, ea) := f64SigExp a
    let (mb, eb) := f64SigExp b
    f64Round s (ma * mb) (ea + eb)

/-- FP64 to FP32 (R89). -/
def fpOfF64 (flush : Bool) (a : DWord) : Fp Word :=
  if f64IsNaN a then pure fpNaN
  else if f64Special a then pure (fpInf (a.getLsbD 63))
  else
    let (m, e) := f64SigExp a
    if m = 0 then pure (fpZero (a.getLsbD 63)) else fpFinish flush (a.getLsbD 63) m e

/-! ### Reciprocal square root and what rests on it -/

/-- Entry `i` of a seed table of 512 bytes (R91). -/
def seedAt (seed : List Byte) (i : Nat) : Nat := leAt seed (2 * i) 2

/-- `S` is the standard entry i: the largest S with (2S − 1)² · n_i ≤ 2^42 (R91). -/
def seedStandard (i S : Nat) : Bool :=
  let n := (1 + i / 128) * (257 + 2 * (i % 128))
  decide ((2 * S - 1) ^ 2 * n ≤ 2 ^ 42) && decide (2 ^ 42 < (2 * S + 1) ^ 2 * n)

/-- One round of the rsqrt sequence (R92). -/
def rsqrtRound (c y : Word) : Fp Word := do
  let t ← fpMul false y y
  let t ← fpMul false t c
  let t ← fpSub false 0x3FC00000 t
  fpMul false y t

/-- rsqrt of a positive finite x (R92). -/
def rsqrtPositive (seed : List Byte) (x : Word) : Fp Word := do
  let (m, e0) := fpSigExp x
  let sh := 24 - bitLen m
  let m := m * 2 ^ sh
  let e : Int := e0 - sh
  let h := (e % 2).toNat
  let c := fpCode false ((126 + h) * 2 ^ 23 + (m - 2 ^ 23))
  let i := 128 * h + (m - 2 ^ 23) / 2 ^ 16
  let y0 ← fpFinish false false (seedAt seed i) (-16)
  let y1 ← rsqrtRound c y0
  let y2 ← rsqrtRound c y1
  fpScale false y2 (-((e - h) / 2))

/-- rsqrt (R92, R93); rsqrt of a zero sets no flag (log entry 128). -/
def fpRsqrt (seed : List Byte) (flush : Bool) (x : Word) : Fp Word := do
  if fpIsNaN x then return fpNaN
  let x ← fpOperand flush x
  if fpIsZero x then return fpInf false
  if fpSign x then
    fpInvalid
    return fpNaN
  if fpIsInf x then return fpZero false
  rsqrtPositive seed x

/-- sqrt (R93). -/
def fpSqrt (seed : List Byte) (flush : Bool) (x : Word) : Fp Word := do
  if fpIsNaN x then return fpNaN
  let x ← fpOperand flush x
  if fpIsZero x then return fpZero false
  if fpSign x then
    fpInvalid
    return fpNaN
  if fpIsInf x then return x
  let r ← rsqrtPositive seed x
  fpMul flush x r

/-- recip (R93). -/
def fpRecip (seed : List Byte) (flush : Bool) (x : Word) : Fp Word := do
  if fpIsNaN x then return fpNaN
  let x ← fpOperand flush x
  if fpIsZero x then
    fpOverflow
    return fpInf (fpSign x)
  if fpIsInf x then return fpZero (fpSign x)
  let r ← rsqrtPositive seed (fpAbs x)
  let y ← fpMul flush r r
  return (if fpSign x then fpNeg y else y)

/-- div(a, b) = mul(a, recip(b)) (R93). -/
def fpDiv (seed : List Byte) (flush : Bool) (a b : Word) : Fp Word := do
  let r ← fpRecip seed flush b
  fpMul flush a r

/-- floor(log2 |x|) of a finite nonzero code. -/
def fpLog2 (x : Word) : Int :=
  let (m, e) := fpSigExp x
  (bitLen m : Int) - 1 + e - 23

end Sys2Proof.Machine
end

