-- ==== Sys2Proof/Machine/Emit.lean ====
section
/-! DEFINITION. Emission conversion: rounding to a target grid, the generator, MX blocks, BF16, Q2 and Q1, and the layout of
a weight slot (R29, R94 to R102, R416). -/

namespace Sys2Proof.Machine

/-! ### Rounding to a target grid -/

/-- The rounding modes of R95; the RMODE code 3 is refused at load (R103). -/
inductive RMode where
  | nearestEven | towardZero | stochastic
  deriving DecidableEq, Repr

/-- The mode that RMODE names. -/
def RMode.ofCode (n : Nat) : RMode := match n with | 1 => .towardZero | 2 => .stochastic | _ => .nearestEven

/-- A target grid: mantissa width, smallest normal exponent, the largest finite code without its sign, the bit of the sign
(R77, R78). -/
structure Grid where
  mb   : Nat
  emin : Int
  top  : Nat
  sbit : Nat
  deriving DecidableEq, Repr

/-- BF16. -/
def gridBf16 : Grid := ⟨7, -126, 0x7F7F, 15⟩
/-- FP16. -/
def gridFp16 : Grid := ⟨10, -14, 0x7BFF, 15⟩

/-- R95: place the value (−1)^s · t · 2^k, t > 0, on a grid, with draw `u`: the code, and whether it saturated. -/
def Grid.place (g : Grid) (mode : RMode) (s : Bool) (t : Nat) (k : Int) (u : Nat) : Nat × Bool :=
  let e := max ((bitLen t : Int) - 1 + k) g.emin
  let sh := k - (e - g.mb)
  let r := if 0 ≤ sh then t * 2 ^ sh.toNat
    else
      let n := (-sh).toNat
      let lo := t / 2 ^ n
      match mode with
      | .nearestEven => roundHalfEven t n
      | .towardZero => lo
      | .stochastic => if 2 ^ 24 ≤ t % 2 ^ n * 2 ^ 24 / 2 ^ n + u then lo + 1 else lo
  let c := (e - g.emin).toNat * 2 ^ g.mb + r
  (s.toNat * 2 ^ g.sbit + min c g.top, decide (g.top < c))

/-- Place a finite FP32 value times 2^n; a zero keeps its sign. -/
def Grid.placeFp (g : Grid) (mode : RMode) (x : Word) (n : Int) (u : Nat) : Nat × Bool :=
  let (m, e) := fpSigExp x
  if m = 0 then ((fpSign x).toNat * 2 ^ g.sbit, false) else g.place mode (fpSign x) m (e - 23 + n) u

/-! ### The generator -/

/-- One round of R97. -/
def drawRound (x key : Word) (r : Nat) : Word :=
  let x := (x ^^^ key) + BitVec.ofNat 32 (r * 0x5B1D2C79)
  let x := x * 0x9D3B6A45
  x ^^^ (x >>> 15)

/-- draw(k, t, n, g): 24 bits (R97). -/
def draw (k : DWord) (t : Word) (n : Nat) (g : Word) : Nat :=
  let x := drawRound (BitVec.ofNat 32 n) (k.extractLsb' 0 32) 1
  let x := drawRound x (k.extractLsb' 32 32 ^^^ BitVec.ofNat 32 (n / 2 ^ 32 % 2 ^ 16)) 2
  let x := drawRound x t 3
  (drawRound x g 4 >>> 8).toNat

/-! ### Formats -/

/-- The emission formats, by FMT (R103). -/
inductive EmFmt where
  | bf16 | e4m3 | e5m2 | e3m2 | e2m3 | e2m1 | q2 | q1
  deriving DecidableEq, Repr

/-- The format that an FMT code names; codes 8 to 15 are refused at load (R103). -/
def EmFmt.ofCode (n : Nat) : EmFmt :=
  match n with
  | 0 => .bf16 | 1 => .e4m3 | 2 => .e5m2 | 3 => .e3m2 | 4 => .e2m3 | 5 => .e2m1 | 6 => .q2 | _ => .q1

/-- Width of an element code in bits (R29). -/
def EmFmt.width : EmFmt → Nat
  | .bf16 => 16 | .e4m3 => 8 | .e5m2 => 8 | .e3m2 => 6 | .e2m3 => 6 | .e2m1 => 4 | .q2 => 2 | .q1 => 1

/-- Width of a block scale or magnitude in bits (R29). -/
def EmFmt.scaleWidth : EmFmt → Nat
  | .bf16 => 0 | .q1 => 16 | .e4m3 => 8 | .e5m2 => 8 | .e3m2 => 8 | .e2m3 => 8 | .e2m1 => 8 | .q2 => 8

/-- Slot lines L (R29). -/
def EmFmt.lines : EmFmt → Nat
  | .bf16 => 5 | .e4m3 => 3 | .e5m2 => 3 | .e3m2 => 2 | .e2m3 => 2 | .e2m1 => 2 | .q2 => 1 | .q1 => 1

/-- The element grid and Emax of an MX format (R77, R78). -/
def EmFmt.mx : EmFmt → Grid × Int
  | .e4m3 => (⟨3, -6, 0x7E, 7⟩, 8)
  | .e5m2 => (⟨2, -14, 0x7B, 7⟩, 15)
  | .e3m2 => (⟨2, -2, 0x1F, 5⟩, 4)
  | .e2m3 => (⟨3, 0, 0x1F, 5⟩, 2)
  | .e2m1 => (⟨1, 0, 0x7, 3⟩, 2)
  | .bf16 => (gridBf16, 127)
  | .q2 => (gridBf16, 127)
  | .q1 => (gridBf16, 127)

/-! ### Blocks -/

/-- What the conversion of a block gives: 32 element codes, the scale or magnitude, its saturations. -/
structure BlockOut where
  codes : List Nat
  scale : Nat
  sat   : Nat
  deriving DecidableEq, Repr

/-- Clamp an exponent to the E8M0 range (R98, R101). -/
def clampExp (s : Int) : Int := max (-127) (min s 127)

/-- The largest magnitude of a list of finite values (R98). -/
def amaxOf (ws : List Word) : Word := ws.foldl (fun a w => fpMax a (fpAbs w)) (fpZero false)

/-- An MX block (R98, R100): `ws` are its non-padding masters, `us` their draws. -/
def convertMx (f : EmFmt) (mode : RMode) (ws : List Word) (us : List Nat) : Fp BlockOut := do
  if ws.any (fun w => !fpIsFinite w) then
    fpNonfin
    return ⟨List.replicate 32 0, 0xFF, 0⟩
  let (g, emax) := f.mx
  let a := amaxOf ws
  let s := if fpIsZero a then 0 else clampExp (fpLog2 a - emax)
  let cs := (ws.zip us).map (fun p => g.placeFp mode p.1 (-s) p.2)
  return ⟨cs.map (·.1) ++ List.replicate (32 - ws.length) 0, (s + 127).toNat, (cs.filter (·.2)).length⟩

/-- A BF16 block: no scale (R99, R100). -/
def convertBf16 (mode : RMode) (ws : List Word) (us : List Nat) : Fp BlockOut := do
  let cs := (ws.zip us).map (fun p =>
    if fpIsNaN p.1 then (0x7FC0, false)
    else if fpIsInf p.1 then ((fpSign p.1).toNat * 2 ^ 15 + 0x7F80, false)
    else gridBf16.placeFp mode p.1 0 p.2)
  if ws.any (fun w => !fpIsFinite w) then fpNonfin
  return ⟨cs.map (·.1) ++ List.replicate (32 - ws.length) 0, 0, (cs.filter (·.2)).length⟩

/-- A finite FP16 code as significand and exponent: value = m · 2^e. -/
def fp16SigExp (h : Half) : Nat × Int :=
  let ef := (h.extractLsb' 10 5).toNat
  let m := (h.extractLsb' 0 10).toNat
  if ef = 0 then (m, -24) else (2 ^ 10 + m, (ef : Int) - 25)

/-- An FP16 code that is finite. -/
def fp16IsFinite (h : Half) : Bool := (h.extractLsb' 10 5).toNat != 31

/-- A finite FP16 value in units of 2^-24. -/
def fp16Units (h : Half) : Int :=
  let (m, e) := fp16SigExp h
  (if h.getLsbD 15 then -1 else 1) * (m * 2 ^ (e + 24).toNat : Nat)

/-- floor(log2 |c|) of the codebook entry of largest magnitude. -/
def codebookLog2 (cb : List Half) : Int :=
  (bitLen (cb.foldl (fun a c => max a (fp16Units c).natAbs) 0) : Int) - 25

/-- The index k that minimizes |w − c_k|, the lowest on a tie; w = ±t · 2^k (R101). -/
def nearestIndex (cb : List Half) (w : Word) (n : Int) : Nat :=
  let (m, e) := fpSigExp w
  let e := e - 23 + n
  let lo := min e (-24)
  let v : Int := (if fpSign w then -1 else 1) * (m * 2 ^ (e - lo).toNat : Nat)
  let d := cb.map (fun c => (v - fp16Units c * 2 ^ (-24 - lo).toNat).natAbs)
  d.idxOf (d.foldl min (d.headD 0))

/-- A Q2 block (R100, R101). -/
def convertQ2 (cb : List Half) (ws : List Word) : Fp BlockOut := do
  if ws.any (fun w => !fpIsFinite w) then
    fpNonfin
    return ⟨List.replicate 32 0, 0xFF, 0⟩
  let a := amaxOf ws
  let s := if fpIsZero a then 0 else clampExp (fpLog2 a - codebookLog2 cb)
  return ⟨ws.map (fun w => nearestIndex cb w (-s)) ++ List.replicate (32 - ws.length) 0, (s + 127).toNat, 0⟩

/-- A Q1 block (R100, R102). A sum that overflows saturates the magnitude (log entry 20). -/
def convertQ1 (flush : Bool) (xexp : Int) (ws : List Word) : Fp BlockOut := do
  if ws.any (fun w => !fpIsFinite w) then
    fpNonfin
    return ⟨List.replicate 32 0, 0x7E00, 0⟩
  let sum ← (ws.map fpAbs ++ List.replicate (32 - ws.length) (fpZero false)).foldlM (fun a w => fpAdd flush a w)
    (fpZero false)
  let (c, sat) := if fpIsInf sum then (gridFp16.top, true) else gridFp16.placeFp .nearestEven sum (-5 - xexp) 0
  return ⟨ws.map (fun w => (fpSign w).toNat) ++ List.replicate (32 - ws.length) 0, c, sat.toNat⟩

/-- What a conversion needs beside the masters (R103, R273). -/
structure ConvCfg where
  fmt    : EmFmt
  mode   : RMode
  flush  : Bool
  xexp   : Int
  cb     : List Half
  seed   : DWord
  tensor : Word
  elem0  : Nat
  glo    : Word
  deriving DecidableEq, Repr

/-- Convert MX block `q` of a row of `npar` parameters: the block's codes and the maximum of its finite masters (R104). -/
def convertBlock (c : ConvCfg) (npar q : Nat) (masters : List Word) : Fp (BlockOut × Word) := do
  let raw := ((masters.take npar).drop (32 * q)).take 32
  let ws ← raw.mapM (fun w => fpOperand c.flush w)
  let us := (List.range ws.length).map (fun i => draw c.seed c.tensor (c.elem0 + 32 * q + i) c.glo)
  let out ← match c.fmt with
    | .bf16 => convertBf16 c.mode ws us
    | .q2 => convertQ2 c.cb ws
    | .q1 => convertQ1 c.flush c.xexp ws
    | f => convertMx f c.mode ws us
  return (out, amaxOf (ws.filter fpIsFinite))

/-! ### The weight slot -/

/-- Element codes as a bit string, element 0 lowest (R29). -/
def packCodes (w : Nat) : List Nat → Nat
  | [] => 0
  | c :: t => c % 2 ^ w + 2 ^ w * packCodes w t

/-- The bits of a slot that belong to block `q`: its element codes and its scale (R29). -/
def EmFmt.blockBits (f : EmFmt) (q : Nat) : Nat :=
  (2 ^ (32 * f.width) - 1) * 2 ^ (32 * f.width * q)
    + (2 ^ f.scaleWidth - 1) * 2 ^ (160 * f.width + f.scaleWidth * q)

/-- The contents of a slot for block `q`. -/
def EmFmt.blockVal (f : EmFmt) (q : Nat) (b : BlockOut) : Nat :=
  packCodes f.width b.codes * 2 ^ (32 * f.width * q) + b.scale % 2 ^ f.scaleWidth * 2 ^ (160 * f.width + f.scaleWidth * q)

/-- The MX blocks that a mask selects. -/
def maskBlocks (mask : Nat) : List Nat := (List.range 5).filter (fun q => mask.testBit q)

/-- The bits of the blocks that a mask selects. -/
def EmFmt.maskBits (f : EmFmt) (mask : Nat) : Nat := (maskBlocks mask).foldl (fun a q => a + f.blockBits q) 0

/-- Bits of line `i` of a bit string of lines. -/
def lineBits (v i : Nat) : Nat := v / 2 ^ (512 * i) % 2 ^ 512

/-- The slot lines that a pass writes: those holding bits of a committed block; with every block committed, all of them
(log entry 64). -/
def EmFmt.slotWritten (f : EmFmt) (mask : Nat) : List Nat :=
  (List.range f.lines).filter (fun i => mask % 32 == 31 || lineBits (f.maskBits mask) i != 0)

/-- The slot lines that a pass must read first: written lines that hold bits of a block that keeps its codes (R130;
log entry 64). -/
def EmFmt.slotKept (f : EmFmt) (mask : Nat) : List Nat :=
  (f.slotWritten mask).filter (fun i => lineBits (f.maskBits (31 - mask % 32)) i != 0)

end Sys2Proof.Machine
end

