-- ==== Sys2Proof/Machine/Rules.lean ====
section
/-! DEFINITION. The element rules (R107 to R126) and the pass of a row: operand lines, what a pass reads, the values it
writes and the phases in which it writes them (R272 to R276, R328). -/

namespace Sys2Proof.Machine

/-! ### Operand lines -/

/-- The constants of a pass (R272). -/
structure PassConst where
  eta   : Word
  etaWd : Word
  etaX  : Word
  omb1  : Word
  omb2  : Word
  clip  : Word
  beta1 : Word
  beta2 : Word
  eps   : Word
  wd    : Word
  seed  : DWord
  glo   : Word
  lse   : Int
  flush : Bool
  cb    : List Half
  deriving DecidableEq, Repr

/-- The row operands of a pass (R273). -/
structure PassRow where
  rule   : Nat
  pass   : Nat
  fmt    : Nat
  rmode  : Nat
  g16w   : Bool
  slot   : Nat
  sect   : Nat
  npar   : Nat
  xexp   : Int
  mask   : Nat
  wrow   : Nat
  tensor : Word
  elem0  : Nat
  bc1    : List Word
  bc2    : List Word
  deriving DecidableEq, Repr

/-- The field [hi:lo] of the word at byte `off` of a line. -/
def lineFld (l : Line) (off hi lo : Nat) : Nat := bits (l.toNat / 2 ^ (8 * off)) hi lo

/-- The word at byte `off` of a line. -/
def lineWord (l : Line) (off : Nat) : Word := l.extractLsb' (8 * off) 32

/-- Words laid out from byte `off` on. -/
def wordsAt (off : Nat) : List Word → Nat
  | [] => 0
  | w :: t => w.toNat * 2 ^ (8 * off) + wordsAt (off + 4) t

/-- Two's complement of a small integer in `n` bits. -/
def twos (n : Nat) (v : Int) : Nat := (v % 2 ^ n).toNat

/-- The integer that `n` bits of two's complement stand for. -/
def ofTwos (n : Nat) (v : Nat) : Int := if v < 2 ^ (n - 1) then v else (v : Int) - 2 ^ n

/-- The constant line (R272). -/
def PassConst.line (c : PassConst) : Line :=
  BitVec.ofNat 512 (wordsAt 0 [c.eta, c.etaWd, c.etaX, c.omb1, c.omb2, c.clip, c.beta1, c.beta2, c.eps, c.wd,
      c.seed.extractLsb' 0 32, c.seed.extractLsb' 32 32, c.glo, BitVec.ofNat 32 (twos 8 c.lse * 2 ^ 24 + c.flush.toNat),
      c.cb.getD 1 0 ++ c.cb.getD 0 0, c.cb.getD 3 0 ++ c.cb.getD 2 0])

/-- The constants that a constant line holds (R272). -/
def PassConst.ofLine (l : Line) : PassConst where
  eta := lineWord l 0x00
  etaWd := lineWord l 0x04
  etaX := lineWord l 0x08
  omb1 := lineWord l 0x0C
  omb2 := lineWord l 0x10
  clip := lineWord l 0x14
  beta1 := lineWord l 0x18
  beta2 := lineWord l 0x1C
  eps := lineWord l 0x20
  wd := lineWord l 0x24
  seed := lineWord l 0x2C ++ lineWord l 0x28
  glo := lineWord l 0x30
  lse := ofTwos 8 (lineFld l 0x34 31 24)
  flush := lineFld l 0x34 0 0 == 1
  cb := [l.extractLsb' 448 16, l.extractLsb' 464 16, l.extractLsb' 480 16, l.extractLsb' 496 16]

/-- The row operand line (R273). -/
def PassRow.line (r : PassRow) : Line :=
  BitVec.ofNat 512 (
    (r.rule * 2 ^ 28 + r.pass * 2 ^ 26 + r.fmt * 2 ^ 22 + r.rmode * 2 ^ 20 + r.g16w.toNat * 2 ^ 19 + r.slot * 2 ^ 14
      + r.sect * 2 ^ 11 + r.npar)
    + (twos 8 r.xexp * 2 ^ 24 + r.mask) * 2 ^ 32 + r.wrow * 2 ^ 64 + r.tensor.toNat * 2 ^ 96
    + r.elem0 % 2 ^ 48 * 2 ^ 128 + wordsAt 0x18 (r.bc1.take 5) + wordsAt 0x2C (r.bc2.take 5))

/-- The row operands that a row operand line holds (R273). -/
def PassRow.ofLine (l : Line) : PassRow where
  rule := lineFld l 0 31 28
  pass := lineFld l 0 27 26
  fmt := lineFld l 0 25 22
  rmode := lineFld l 0 21 20
  g16w := lineFld l 0 19 19 == 1
  slot := lineFld l 0 18 14
  sect := lineFld l 0 13 11
  npar := lineFld l 0 7 0
  xexp := ofTwos 8 (lineFld l 4 31 24)
  mask := lineFld l 4 4 0
  wrow := lineFld l 8 14 0
  tensor := lineWord l 0x0C
  elem0 := lineFld l 0x10 47 0
  bc1 := (List.range 5).map (fun q => lineWord l (0x18 + 4 * q))
  bc2 := (List.range 5).map (fun q => lineWord l (0x2C + 4 * q))

/-! ### The sequences for one position -/

/-- One parameter: master and moments (R26). -/
structure Elem where
  w : Word
  m : Word
  v : Word
  deriving DecidableEq, Repr

/-- Divide, with the seed table in force (R93). -/
def PassConst.div (c : PassConst) (seed : List Byte) (a b : Word) : Fp Word := fpDiv seed c.flush a b

/-- add under the group's FLUSH. -/
def PassConst.add (c : PassConst) (a b : Word) : Fp Word := fpAdd c.flush a b
/-- sub under the group's FLUSH. -/
def PassConst.sub (c : PassConst) (a b : Word) : Fp Word := fpSub c.flush a b
/-- mul under the group's FLUSH. -/
def PassConst.mul (c : PassConst) (a b : Word) : Fp Word := fpMul c.flush a b

/-- "wd ≠ 0" (R118). -/
def PassConst.decays (c : PassConst) : Bool := !fpIsZero c.wd

/-- The prologue (R118): unscale, then clip. -/
def PassConst.prologue (c : PassConst) (x : Word) : Fp Word := do
  let g ← fpScale c.flush x (-c.lse)
  c.mul g c.clip

/-- g := add(g, mul(wd, w)) when wd ≠ 0. -/
def PassConst.couple (c : PassConst) (g w : Word) : Fp Word :=
  if c.decays then do
    let d ← c.mul c.wd w
    c.add g d
  else pure g

/-- u := add(u, mul(eta_wd, w)) when wd ≠ 0. -/
def PassConst.decouple (c : PassConst) (u w : Word) : Fp Word :=
  if c.decays then do
    let d ← c.mul c.etaWd w
    c.add u d
  else pure u

/-- add(mul(a, x), mul(b, y)). -/
def PassConst.mix (c : PassConst) (a x b y : Word) : Fp Word := do
  let p ← c.mul a x
  let q ← c.mul b y
  c.add p q

/-- sgd (R119). -/
def PassConst.sgd (c : PassConst) (g : Word) (e : Elem) : Fp Elem := do
  let g ← c.couple g e.w
  let u ← c.mul c.eta g
  return { e with w := ← c.sub e.w u }

/-- heavy_ball (R119). -/
def PassConst.heavyBall (c : PassConst) (g : Word) (e : Elem) : Fp Elem := do
  let g ← c.couple g e.w
  let p ← c.mul c.beta1 e.m
  let m ← c.add p g
  let u ← c.mul c.eta m
  return { e with w := ← c.sub e.w u, m := m }

/-- nesterov (R119). -/
def PassConst.nesterov (c : PassConst) (g : Word) (e : Elem) : Fp Elem := do
  let g ← c.couple g e.w
  let p ← c.mul c.beta1 e.m
  let m ← c.add p g
  let q ← c.mul c.beta1 m
  let d ← c.add g q
  let u ← c.mul c.eta d
  return { e with w := ← c.sub e.w u, m := m }

/-- The new moments of adam and of the LAMB candidate (R120, R122). -/
def PassConst.moments (c : PassConst) (g : Word) (e : Elem) : Fp (Word × Word) := do
  let m ← c.mix c.beta1 e.m c.omb1 g
  let gg ← c.mul g g
  let v ← c.mix c.beta2 e.v c.omb2 gg
  return (m, v)

/-- div(mul(m, bc1), add(sqrt(mul(v, bc2)), eps)) (R120, R122). -/
def PassConst.quotient (c : PassConst) (seed : List Byte) (m v bc1 bc2 : Word) : Fp Word := do
  let mh ← c.mul m bc1
  let vh ← c.mul v bc2
  let r ← fpSqrt seed c.flush vh
  let d ← c.add r c.eps
  c.div seed mh d

/-- The master of adam (R120) from the new moments; `coupled` is rule 3. -/
def PassConst.adamMaster (c : PassConst) (seed : List Byte) (coupled : Bool) (m v bc1 bc2 w : Word) : Fp Word := do
  let d ← c.quotient seed m v bc1 bc2
  let u ← c.mul c.eta d
  let u ← if coupled then pure u else c.decouple u w
  c.sub w u

/-- adam (R120). -/
def PassConst.adam (c : PassConst) (seed : List Byte) (coupled : Bool) (bc1 bc2 g : Word) (e : Elem) : Fp Elem := do
  let g ← if coupled then c.couple g e.w else pure g
  let (m, v) ← c.moments g e
  return ⟨← c.adamMaster seed coupled m v bc1 bc2 e.w, m, v⟩

/-- sgn (R121). -/
def fpSgn (c : Word) : Word :=
  if fpIsNaN c then fpNaN else if fpIsZero c then fpZero false else if fpSign c then 0xBF800000 else fpOne

/-- lion (R121). -/
def PassConst.lion (c : PassConst) (g : Word) (e : Elem) : Fp Elem := do
  let k ← c.mix c.beta1 e.m c.omb1 g
  let u ← c.mul c.eta (fpSgn k)
  let u ← c.decouple u e.w
  let w ← c.sub e.w u
  return { e with w := w, m := ← c.mix c.beta2 e.m c.omb2 g }

/-- lamb_candidate (R122): m1, v1, r. -/
def PassConst.lambCandidate (c : PassConst) (seed : List Byte) (bc1 bc2 g : Word) (e : Elem) : Fp (Word × Word × Word) := do
  let (m, v) ← c.moments g e
  let r ← c.quotient seed m v bc1 bc2
  return (m, v, ← c.couple r e.w)

/-- lamb_apply (R122). -/
def PassConst.lambApply (c : PassConst) (seed : List Byte) (bc1 bc2 g : Word) (e : Elem) : Fp Elem := do
  let (m, v, r) ← c.lambCandidate seed bc1 bc2 g e
  let u ← c.mul c.etaX r
  return ⟨← c.sub e.w u, m, v⟩

/-- lars_apply (R122). -/
def PassConst.larsApply (c : PassConst) (g : Word) (e : Elem) : Fp Elem := do
  let u ← c.couple g e.w
  let m ← c.mix c.beta1 e.m c.etaX u
  return { e with w := ← c.sub e.w m, m := m }

/-- apply_direction (R125). -/
def PassConst.applyDirection (c : PassConst) (delta : Word) (e : Elem) : Fp Elem := do
  let u ← c.mul c.etaX delta
  let u ← c.decouple u e.w
  return { e with w := ← c.sub e.w u }

/-- accumulate_only (R126). -/
def PassConst.accumulateOnly (c : PassConst) (g : Word) (e : Elem) : Fp Elem := do
  return { e with m := ← c.add e.m g }

/-- The new values of one position under a single or apply pass (R118 to R126; log entry 63). -/
def PassConst.apply (c : PassConst) (seed : List Byte) (rule : Nat) (bc1 bc2 x : Word) (e : Elem) : Fp Elem := do
  if rule = 8 then c.applyDirection x e
  else
    let g ← c.prologue x
    match rule with
    | 0 => c.sgd g e
    | 1 => c.heavyBall g e
    | 2 => c.nesterov g e
    | 3 => c.adam seed true bc1 bc2 g e
    | 4 => c.adam seed false bc1 bc2 g e
    | 5 => c.lion g e
    | 6 => c.lambApply seed bc1 bc2 g e
    | 7 => c.larsApply g e
    | _ => c.accumulateOnly g e

/-- What a scan pass adds at one position: the squares for sw and for sr or sg (R122; log entry 63). -/
def PassConst.scan (c : PassConst) (seed : List Byte) (rule : Nat) (bc1 bc2 x : Word) (e : Elem) : Fp (Word × Word) := do
  let g ← c.prologue x
  let y ← if rule = 6 then do
      let (_, _, r) ← c.lambCandidate seed bc1 bc2 g e
      pure r
    else pure g
  return (← c.mul e.w e.w, ← c.mul y y)

/-- The master rolled forward from new moments as read (R333): a pass found at PHASE 1, its rule not Lion. -/
def PassConst.rollForward (c : PassConst) (seed : List Byte) (rule : Nat) (bc1 bc2 x : Word) (e : Elem) : Fp Word := do
  match rule with
  | 1 =>
    let u ← c.mul c.eta e.m
    c.sub e.w u
  | 2 =>
    let g ← c.prologue x
    let g ← c.couple g e.w
    let q ← c.mul c.beta1 e.m
    let d ← c.add g q
    let u ← c.mul c.eta d
    c.sub e.w u
  | 3 => c.adamMaster seed true e.m e.v bc1 bc2 e.w
  | 4 => c.adamMaster seed false e.m e.v bc1 bc2 e.w
  | 6 =>
    let r ← c.quotient seed e.m e.v bc1 bc2
    let r ← c.couple r e.w
    let u ← c.mul c.etaX r
    c.sub e.w u
  | 7 => c.sub e.w e.m
  | 9 => pure e.w
  | _ =>
    let e' ← c.apply seed rule bc1 bc2 x e
    pure e'.w

/-! ### What a rule reads and writes -/

/-- State lines that a pass of the rule reads (R107). -/
def ruleReads (rule : Nat) : List Nat :=
  match rule with
  | 0 | 8 => List.range 10
  | 1 | 2 | 5 | 7 => List.range 20
  | 3 | 4 | 6 => List.range 30
  | 9 => (List.range 10).map (· + 10)
  | _ => []

/-- Moment lines that a single or apply pass of the rule writes. -/
def ruleMoments (rule : Nat) : List Nat := (ruleReads rule).filter (10 ≤ ·)

/-- Master lines that a single or apply pass of the rule writes (log entry 63). -/
def ruleMasters (rule : Nat) : List Nat := (ruleReads rule).filter (· < 10)

/-- The rule writes a weight slot (R107). -/
def ruleSlot (rule : Nat) : Bool := rule < 9

/-! ### A row -/

/-- The 4-byte words of a byte string. -/
def wordsOf : List Byte → List Word
  | a :: b :: c :: d :: t => (d ++ (c ++ (b ++ a))) :: wordsOf t
  | _ => []

/-- The 2-byte words of a byte string. -/
def halvesOf : List Byte → List Half
  | a :: b :: t => (b ++ a) :: halvesOf t
  | _ => []

/-- Words as bytes, little-endian. -/
def bytesOfWords (ws : List Word) : List Byte := ws.flatMap (fun w => leBytes 4 w.toNat)

/-- What a pass found and what it writes. -/
structure PassOut where
  corr    : Nat
  uel     : Nat
  uex     : Bool
  reads   : List (LineLoc × LineVal)
  moments : List (Nat × List Byte)
  masters : List (Nat × List Byte)
  slot    : List (Nat × List Byte)
  amax    : Word
  pw      : Word
  px      : Word
  satn    : Nat
  flags   : Flags
  deriving DecidableEq, Repr

/-- A pass that writes nothing. -/
def PassOut.none : PassOut := ⟨0, 0, false, [], [], [], [], 0, 0, 0, 0, Flags.clear⟩

/-- The bits of the lines whose value satisfies `p`. -/
def lineMask (vs : List (LineLoc × LineVal)) (p : LineVal → Bool) : Nat :=
  vs.foldl (fun a x => if p x.2 then a ||| 2 ^ x.1.line else a) 0

/-- A line that denies its reader good data (R320). -/
def LineVal.isBad : LineVal → Bool
  | .zero | .good _ | .fixed _ _ => false
  | .bad _ _ | .poison _ _ | .far => true

/-- Read lines of a row. -/
def State.peekLines (s : State) (l : RowLoc) (ls : List Nat) : List (LineLoc × LineVal) :=
  ls.map (fun i => (⟨l, i⟩, s.lineVal ⟨l, i⟩))

/-- The bytes of lines all of which read good. -/
def goodBytes (vs : List (LineLoc × LineVal)) : List Byte := vs.flatMap (fun x => (x.2.bytes?).getD (List.replicate 64 0))

/-- The lines of a reduction sector (R28). -/
def sectorLines (g16w : Bool) (sect : Nat) : List Nat :=
  if g16w then (List.range 10).map (· + 10 * sect) else (List.range 5).map (· + 5 * sect)

/-- The lines of a sector of a reduction row (R28). -/
def sectorLocs (red : RowLoc) (g16w : Bool) (sect : Nat) : List LineLoc := (sectorLines g16w sect).map (fun i => ⟨red, i⟩)

/-- The 160 values of a sector (R28), BF16 values in the upper half of a word. -/
def sectorValues (g16w : Bool) (bs : List Byte) : List Word :=
  if g16w then wordsOf bs else (halvesOf bs).map (fun h => h ++ (0 : Half))

/-- A value of a sector as FP32 (R89). -/
def sectorValue (g16w flush : Bool) (x : Word) : Fp Word :=
  if g16w then pure x else fpOfBf16 flush (x.extractLsb' 16 16)

/-- The parameters of a state row from its 30 lines, lines not read standing as zero. -/
def elemsOf (lines : List (Nat × List Byte)) : List Elem :=
  let at_ (i : Nat) : List Byte := (sparseFind lines i).getD (List.replicate 64 0)
  let part (o : Nat) : List Word := wordsOf ((List.range 10).flatMap (fun i => at_ (o + i)))
  ((part 0).zip ((part 10).zip (part 20))).map (fun p => ⟨p.1, p.2.1, p.2.2⟩)

/-- The lines `ls` of a state row that holds the parameters `es`. -/
def linesOfElems (es : List Elem) (ls : List Nat) : List (Nat × List Byte) :=
  let ms := bytesOfWords (es.map (·.w)) ++ bytesOfWords (es.map (·.m)) ++ bytesOfWords (es.map (·.v))
  ls.map (fun i => (i, (ms.drop (64 * i)).take 64))

/-- MX block of a position. -/
def blockOf (j : Nat) : Nat := j / 32

/-- The elements of the row after a single or apply pass: committed positions by the rule, padding positions of committed
blocks +0, the rest as read (R27, R130; log entry 64). -/
def newElems (c : PassConst) (r : PassRow) (seed : List Byte) (xs : List Word) (es : List Elem) : Fp (List Elem) :=
  ((List.range 160).zip (es.zip xs)).mapM (fun p =>
    let (j, e, x) := p
    if !r.mask.testBit (blockOf j) then pure e
    else if r.npar ≤ j then pure ⟨0, 0, 0⟩
    else do
      let x ← sectorValue r.g16w c.flush x
      c.apply seed r.rule (r.bc1.getD (blockOf j) 0) (r.bc2.getD (blockOf j) 0) x e)

/-- The conversion settings of a pass. -/
def convCfg (c : PassConst) (r : PassRow) : ConvCfg where
  fmt := .ofCode r.fmt
  mode := .ofCode r.rmode
  flush := c.flush
  xexp := r.xexp
  cb := c.cb
  seed := c.seed
  tensor := r.tensor
  elem0 := r.elem0
  glo := c.glo

/-- The slot as a bit string after the committed blocks have been rewritten, with AMAX and the saturations. -/
def newSlot (c : PassConst) (r : PassRow) (old : Nat) (masters : List Word) : Fp (Nat × Word × Nat) := do
  let cfg := convCfg c r
  let outs ← (maskBlocks r.mask).mapM (fun q => do
    let (b, a) ← convertBlock cfg r.npar q masters
    pure (q, b, a))
  let kept := old &&& cfg.fmt.maskBits (31 - r.mask % 32)
  return (outs.foldl (fun v o => v + cfg.fmt.blockVal o.1 o.2.1) kept,
    outs.foldl (fun a o => fpMax a o.2.2) (fpZero false),
    outs.foldl (fun n o => n + o.2.1.sat) 0)

/-- The bytes of slot line `i` of a bit string. -/
def slotLineBytes (v i : Nat) : List Byte := leBytes 64 (lineBits v i)

/-- The partial sums of a scan pass: positions in ascending order, padding excluded (R122). -/
def scanSums (c : PassConst) (r : PassRow) (seed : List Byte) (xs : List Word) (es : List Elem) : Fp (Word × Word) :=
  (((List.range 160).zip (es.zip xs)).take r.npar).foldlM (fun acc p => do
    let (j, e, x) := p
    let x ← sectorValue r.g16w c.flush x
    let (a, b) ← c.scan seed r.rule (r.bc1.getD (blockOf j) 0) (r.bc2.getD (blockOf j) 0) x e
    return (← c.add acc.1 a, ← c.add acc.2 b)) (fpZero false, fpZero false)

/-- The first line of a weight slot in its row (R29). -/
def slotLine0 (r : PassRow) : Nat := (EmFmt.ofCode r.fmt).lines * r.slot

/-- The weight-slot lines that a pass must keep some codes of, and so reads (R71, R130). -/
def PassRow.keptLines (r : PassRow) : List Nat :=
  if ruleSlot r.rule && r.pass != 1 then (EmFmt.ofCode r.fmt).slotKept r.mask else []

/-- What a pass of the row at `l` with reduction row `prow` in the partner bank finds in the lines that it must read (R107 to R109,
R71). -/
def State.findPass (s : State) (l : RowLoc) (prow : Nat) (r : PassRow) : PassOut :=
  let red := l.at (partnerBank l.bank) prow
  let wl := l.at (partnerBank l.bank) r.wrow
  let st := s.peekLines l (ruleReads r.rule)
  let se := s.peekLines red (sectorLines r.g16w r.sect)
  let sl := s.peekLines wl (r.keptLines.map (· + slotLine0 r))
  { PassOut.none with
    corr := lineMask st LineVal.isFixed
    uel := lineMask st LineVal.isBad
    uex := se.any (·.2.isBad) || sl.any (·.2.isBad) || (s.rowMeta l).isNone || (s.rowMeta red).isNone
      || (ruleSlot r.rule && r.pass != 1 && (s.rowMeta wl).isNone)
    reads := st ++ se ++ sl }

/-- The pass found no bad line. -/
def PassOut.clean (o : PassOut) : Bool := o.uel == 0 && !o.uex

/-- What a pass of the row at `l` with reduction row `prow` in the partner bank reads, and what it then writes (R107 to
R109, R274). Nothing is written when a line that the pass must read is bad (R71). -/
def State.computePass (s : State) (seed : List Byte) (l : RowLoc) (prow : Nat) (c : PassConst) (r : PassRow) : PassOut :=
  let found := s.findPass l prow r
  if !found.clean then found
  else
    let wl := l.at (partnerBank l.bank) r.wrow
    let f := EmFmt.ofCode r.fmt
    let writesSlot := ruleSlot r.rule && r.pass != 1
    let st := s.peekLines l (ruleReads r.rule)
    let se := s.peekLines (l.at (partnerBank l.bank) prow) (sectorLines r.g16w r.sect)
    let xs := sectorValues r.g16w (goodBytes se)
    let es := elemsOf (st.map (fun x => (x.1.line, (x.2.bytes?).getD [])))
    if r.pass = 1 then
      if r.rule != 6 && r.rule != 7 then found
      else
        let ((pw, px), fl) := (scanSums c r seed xs es).go
        { found with pw := pw, px := px, flags := fl }
    else
      let old := r.keptLines.foldl (fun v i =>
        v + leNat (((s.lineVal ⟨wl, slotLine0 r + i⟩).bytes?).getD []) * 2 ^ (512 * i)) 0
      let ((es', v, amax, sat), fl) := (do
        let es' ← newElems c r seed xs es
        if writesSlot then
          let (v, amax, sat) ← newSlot c r old (es'.map (·.w))
          return (es', v, amax, sat)
        else return (es', 0, fpZero false, 0) : Fp (List Elem × Nat × Word × Nat)).go
      { found with
        moments := linesOfElems es' (ruleMoments r.rule)
        masters := linesOfElems es' (ruleMasters r.rule)
        slot := if writesSlot then (f.slotWritten r.mask).map (fun i => (slotLine0 r + i, slotLineBytes v i)) else []
        amax := amax
        satn := sat
        flags := fl }

/-- The metadata of a state row whose uncorrectable word cannot occur here: as it reads, or fresh. -/
def State.metaOr (s : State) (l : RowLoc) : Meta := (s.rowMeta l).getD (Meta.fresh 0)

/-- Phase 1 of a pass: moment lines, PHASE 1 (R328). -/
def State.writePhase1 (s : State) (l : RowLoc) (o : PassOut) : State :=
  s.putLines .through l o.moments { s.metaOr l with phase := 1, zeroed := false }

/-- Phase 2: master lines, PHASE 2 (R328). -/
def State.writePhase2 (s : State) (l : RowLoc) (o : PassOut) : State :=
  s.putLines .through l o.masters { s.metaOr l with phase := 2, zeroed := false }

/-- Phase 3: the weight slot, then PHASE 0 and the next EPOCH; RECORD says whether the commit is recorded (R328, R316). -/
def State.writePhase3 (s : State) (l : RowLoc) (wrow : Nat) (o : PassOut) (recorded : Bool) : State :=
  let wl := l.at (partnerBank l.bank) wrow
  let s := if o.slot.isEmpty then s
    else s.putLines .through wl o.slot { s.metaOr wl with zeroed := false }
  let m := s.metaOr l
  s.putMeta .through l { m with phase := 0, epoch := (m.epoch + 1) % 256, record := recorded }

/-- The result sector of a pass (R276), read from the row as the pass leaves it. -/
def State.resultOf (s : State) (l : RowLoc) (o : PassOut) : RowResult where
  amax := o.amax
  pw := o.pw
  px := o.px
  satn := o.satn
  flags := o.flags
  corr := o.corr
  uex := o.uex
  uel := o.uel
  epoch := (s.metaOr l).epoch
  phase := (s.metaOr l).phase

/-- Execute a pass whole: the row's three phases, or nothing for a scan, a frozen row or a bad line. -/
def State.runPass (s : State) (seed : List Byte) (l : RowLoc) (prow : Nat) (c : PassConst) (r : PassRow)
    (recorded : Bool) : PassOut × State :=
  let o := s.computePass seed l prow c r
  if !o.clean || r.pass = 1 || r.rule = 10 then (o, s)
  else (o, ((s.writePhase1 l o).writePhase2 l o).writePhase3 l r.wrow o recorded)

end Sys2Proof.Machine
end

