-- ==== Sys2Proof/Machine/Serve.lean ====
section
/-! DEFINITION. Serving region requests: reads and writes of lines (R21 to R25, R248 to R252), atomic adds (R259, R260), the
link retries that a request meets (R292), who holds a bank pair (R254, R279, R288), and the sequences that the block opens
(R271, R278, R284, R285). -/

namespace Sys2Proof.Machine

/-! ### Traffic of a request -/

/-- The distinct rows of a list of lines, each with its lines. -/
def byRow (xs : List LineLoc) : List (RowLoc × List Nat) :=
  ((xs.map (·.loc)).eraseDups).map (fun l => (l, (xs.filter (·.loc == l)).map (·.line)))

/-- How often a sector of an engine port is charged: twice to a device not near the port (R410). -/
def chargeTimes (src : Nat) (l : RowLoc) : Nat := if src < 8 && l.dev / 3 != src then 2 else 1

/-- Admit a read and charge its sectors: a request that is admitted is served whole (R25, R410, R411; log entry 16). -/
def State.chargeReads (s : State) (src : Nat) (xs : List LineLoc) : State :=
  (byRow xs).foldl (fun s p => s.chargeSectors src (rowSectors p.2 (s.validBits p.1)) 0 (chargeTimes src p.1)) (s.regulate src)

/-- Admit a write and charge its sectors: the tail sectors read, and data, check and tail sectors written (R25; log entry 16). -/
def State.chargeWrites (s : State) (src : Nat) (xs : List LineLoc) : State :=
  (byRow xs).foldl (fun s p =>
    let checks := ((p.2.map (· / 8)).filter (· != 3)).eraseDups.length
    s.chargeSectors src (1 + checks) (2 * p.2.length + checks + 1) (chargeTimes src p.1)) (s.regulate src)

/-! ### Who holds a pair -/

/-- Change entry `i` of a list. -/
def modAt {α : Type} (l : List α) (i : Nat) (f : α → α) : List α := l.zipIdx.map (fun x => if x.2 = i then f x.1 else x.1)

/-- Change the running step. -/
def State.modStep (s : State) (f : StepState → StepState) : State := { s with step := f s.step }

/-- Change entry `n` of the commit list. -/
def State.modEntry (s : State) (n : Nat) (f : EntrySt → EntrySt) : State :=
  s.modStep (fun t => { t with entries := modAt t.entries n f })

/-- The sequence lies on the pair (d, c, k). -/
def SeqFl.holds (q : SeqFl) (d c k : Nat) : Bool := q.dev == d && q.ch == c && q.k == k

/-- Two rows lie on one bank pair. -/
def RowLoc.samePair (a b : RowLoc) : Bool := a.dev == b.dev && a.ch == b.ch && a.pair == b.pair

/-- The sequence on a pair. -/
def State.seqOn (s : State) (d c k : Nat) : Option SeqFl := s.dev.seqs.find? (·.holds d c k)

/-- The row of the controller-side unit in flight on the pair, with its index in the commit list. -/
def State.entryOn (s : State) (d c k : Nat) : Option (EntrySt × Nat) :=
  s.step.entries.zipIdx.find? (fun x => x.1.st == .started && !s.inService d && x.1.e.loc.dev == d
    && x.1.e.loc.ch == c && x.1.e.loc.pair == k)

/-- The pair (d, c, k) is held: by a sequence (R271, R279), or by a row of the controller-side unit, exactly as by a sequence
(R288). -/
def State.pairHeld (s : State) (d c k : Nat) : Bool := (s.seqOn d c k).isSome || (s.entryOn d c k).isSome

/-- Sequences of no commit-list entry whose bound has passed without an overrun have ended (R279), and the refreshes that were
postponed on pairs no longer held are issued (R287). -/
def State.retire (s : State) : State :=
  let s : State := { s with dev := { s.dev with
    seqs := s.dev.seqs.filter (fun q => q.entry.isSome || q.overran || decide (s.clock.time < q.bound)) } }
  { s with dev := { s.dev with refresh := s.dev.refresh.filter (fun x => s.pairHeld x.1 x.2.1 (x.2.2 / 2)) } }

/-- The BSU of pair k of channel c of device d, by its index 32·d + 8·c + k. -/
def bsuIx (d c k : Nat) : Nat := 32 * d + 8 * c + k

/-! ### Bank-side units -/

/-- A BSU with nothing loaded (R277; log entry 121). -/
def Bsu.blank : Bsu where
  seed := []
  remap := []
  remapHi := []
  res := false
  tout := false
  ue := false
  xref := false
  bistDone := false
  bistPass := false
  corr := 0
  result := none
  sig := 0
  accw := false
  held := Flags.clear

/-- The BSU of a pair. -/
def State.bsu (s : State) (d c k : Nat) : Bsu := (sparseFind s.dev.bsus (bsuIx d c k)).getD Bsu.blank

/-- Change the BSU of a pair. -/
def State.setBsu (s : State) (d c k : Nat) (b : Bsu) : State :=
  { s with dev := { s.dev with bsus := sparsePut Bsu.blank s.dev.bsus (bsuIx d c k) b } }

/-- A BSU counts the corrected lines among those it read (R277). -/
def State.countCorr (s : State) (l : RowLoc) (vs : List LineVal) : State :=
  let b := s.bsu l.dev l.ch l.pair
  s.setBsu l.dev l.ch l.pair { b with corr := min 255 (b.corr + (vs.filter LineVal.isFixed).length) }

/-- The result sector that an ATAD, an ACCW or a TBLD leaves: all zeros (R331). -/
def RowResult.zero : RowResult := ⟨0, 0, 0, 0, Flags.clear, 0, false, 0, 0, 0⟩

/-- The entry that a word of a BSU's remap table gives for slot `n` of a bank, if it is valid (R45, R270). -/
def RemapEntry.ofWord (d bank n : Nat) (w : Word) : Option RemapEntry :=
  if w.getLsbD 31 then some ⟨d, bank, n, bits w.toNat 30 16, bits w.toNat 15 11⟩ else none

/-- The remap entries that the BSU of a pair holds for its two banks (R46, R271). -/
def State.bsuRemap (s : State) (d c k : Nat) : List RemapEntry :=
  let b := s.bsu d c k
  let ents (bank : Nat) (ws : List Word) : List RemapEntry := ws.zipIdx.filterMap (fun x => RemapEntry.ofWord d bank x.2 x.1)
  ents (16 * c + 2 * k) b.remap ++ ents (16 * c + 2 * k + 1) b.remapHi

/-- The state as the BSU of a row's pair sees it: it finds remapped lines by its own entries (R271). -/
def State.seenByBsu (s : State) (l : RowLoc) : State :=
  let mine (e : RemapEntry) : Bool := e.dev == l.dev && e.bank / 2 == l.bankIx / 2
  { s with fault := { s.fault with
    remap := s.fault.remap.filter (fun e => !mine e) ++ s.bsuRemap l.dev l.ch l.pair } }

/-- The controller's remap entries again after the work of a BSU. -/
def State.withRemap (s : State) (es : List RemapEntry) : State := { s with fault := { s.fault with remap := es } }

/-- A valid remap entry names a line of the row (R278). -/
def State.rowRemapped (s : State) (l : RowLoc) : Bool :=
  s.fault.remap.any (fun e => e.dev == l.dev && e.bank == l.bankIx && e.row == l.row)

/-! ### The end of a sequence and of a row of the controller-side unit -/

/-- When the result of a sequence is next read: at its bound, and after an overrun every 40 ns (R279). -/
def SeqFl.readAt (q : SeqFl) (now : Nat) : Nat :=
  if q.overran then q.bound + 40 * ((now - q.bound) / 40 + 1) else q.bound

/-- The result of a sequence has been read and is not BUSY (R279): the pair is free, and the result of a commit-list entry waits
to be folded (R276). -/
def State.readResult (s : State) (q : SeqFl) : State :=
  let r := (s.bsu q.dev q.ch q.k).result
  let s : State := { s with dev := { s.dev with seqs := s.dev.seqs.filter (fun x => !x.holds q.dev q.ch q.k) } }
  match q.entry with
  | none => s
  | some n =>
    let s := s.charge 11 1 0 1
    s.modEntry n (fun e => { e with st := .executed, result := r })

/-- The pair of a row becomes free: the result of the sequence that holds it is read, at its time, and a row of the controller-side
unit that holds it ends (R254, R279, R284, R288; log entries 3, 124). -/
def State.freePair (s : State) (l : RowLoc) : State :=
  let s := match s.seqOn l.dev l.ch l.pair with
    | some q => (s.advance (q.readAt s.clock.time)).readResult q
    | none => s
  match s.entryOn l.dev l.ch l.pair with
  | some (_, n) => s.modEntry n (fun e => { e with st := .executed })
  | none => s

/-- An ordinary access finds the pair of its row held (R254, R415). -/
def State.pairBusy (s : State) (l : RowLoc) : Bool :=
  (s.seqOn l.dev l.ch l.pair).any (fun q => decide (s.clock.time < q.readAt s.clock.time))
    || (s.entryOn l.dev l.ch l.pair).isSome

/-- An ordinary access waits until the pair of its row is free (R254), and is counted. -/
def State.awaitPair (s : State) (l : RowLoc) : State := (if s.pairBusy l then s.perf 24 1 else s).freePair l

/-! ### Starting sequences -/

/-- The weight units that a device's starts may sum to in 1 µs: 240, and 120 above 95 °C (R278, R282). -/
def State.tuaw (s : State) (d : Nat) : Nat := if s.bit Reg.HOT95 d then 120 else 240

/-- A start of weight `w` on device `d` at time `t` keeps UCONC, tUSS and tUAW (R278). -/
def State.startOk (s : State) (d w t : Nat) : Bool :=
  let mine := s.dev.starts.filter (·.1 == d)
  decide ((s.dev.seqs.filter (fun q => q.dev == d && (q.entry.isSome || q.overran || decide (t < q.bound)))).length < 16)
    && mine.all (fun x => decide (x.2.1 + 15 * x.2.2 ≤ 4 * t))
    && decide (((mine.filter (fun x => 4 * t < x.2.1 + 4000)).map (·.2.2)).sum + w ≤ s.tuaw d)

/-- The earliest time at which tUSS lets a device start a sequence (R278). -/
def State.spacedTime (s : State) (d : Nat) : Nat :=
  (s.dev.starts.filter (·.1 == d)).foldl (fun t x => max t ((x.2.1 + 15 * x.2.2 + 3) / 4)) s.clock.time

/-- The earliest time at which such a start is allowed, none when only the end of another sequence can allow it: as soon as tUSS
allows it, or at a later end of a sequence or of a start's 1 µs. -/
def State.startTime (s : State) (d w : Nat) : Option Nat :=
  let t0 := s.spacedTime d
  if s.startOk d w t0 then some t0
  else
    let cands := ((s.dev.starts.filter (·.1 == d)).map (fun x => (x.2.1 + 4000 + 3) / 4))
      ++ (s.dev.seqs.filter (·.dev == d)).map (·.bound)
    (cands.filter (fun t => decide (t0 ≤ t) && s.startOk d w t)).min?

/-- A sequence of weight `w` on the row's pair must wait: no sequence starts on a device at 105 °C or above (R281), or its timing
rules allow none before another sequence ends (R278). -/
def State.mustWait (s : State) (l : RowLoc) (w : Nat) : Bool := s.bit Reg.HOT105 l.dev || (s.startTime l.dev w).isNone

/-- Note the start of a sequence: only those of the last 1 µs matter (R278). -/
def State.noteStart (s : State) (d t w : Nat) : State :=
  { s with dev := { s.dev with starts := (s.dev.starts.filter (fun x => decide (4 * s.clock.time < x.2.1 + 4000))) ++ [(d, 4 * t, w)] } }

/-- Open a sequence on the pair of a row as soon as the pair is free and the device allows the start (R271, R278, R279): the result
of the sequence before it is read and a refresh that is due is issued first (R284, R287), and the buffer's changed lines of the
pair are written through (R285). -/
def State.openSeq (s : State) (l : RowLoc) (prow opn weight bound : Nat) (entry : Option Nat) : State :=
  let s := (s.freePair l).retire
  let s := s.advance ((s.startTime l.dev weight).getD s.clock.time)
  let s := (s.retire).flushPair l.dev l.ch l.pair
  let q : SeqFl := { dev := l.dev, ch := l.ch, k := l.pair, sb := l.bank % 2, row := l.row, prow := prow, opn := opn,
                     start := s.clock.time, bound := s.clock.time + bound, weight := weight, entry := entry, ran := true,
                     overran := false }
  { s with dev := { s.dev with seqs := s.dev.seqs ++ [q] } }.noteStart l.dev s.clock.time weight

/-- Open the sequence again after each burst that the BSU discarded, at the bound of the sequence that it would have started: the
command is sent again from its ACTP, up to 3 times (R269, R292). -/
def State.openSeqRetried (s : State) (l : RowLoc) (prow opn weight bound : Nat) (entry : Option Nat) : Nat → State
  | 0 => s.openSeq l prow opn weight bound entry
  | n + 1 => (s.openSeq l prow opn weight bound none).openSeqRetried l prow opn weight bound entry n

/-! ### Lines for a requester -/

/-- POISON when a read meets bad data in a state row, a reduction sector or a unit-table row of the running step before the
local seal record is sent (R67, R320). -/
def State.poisonBy (s : State) (l : RowLoc) (v : LineVal) : State :=
  match v with
  | .bad _ _ =>
    let unitRow := s.inStep && (match s.plan.plan with
      | some p => (s.regionWords p.hdr.unitReg).names l
      | none => false)
    if s.rowOfStep l || unitRow then s.poison else s
  | .zero | .good _ | .fixed _ _ | .poison _ _ | .far => s

/-- An ordinary read of a line: it waits for the pair (R254), reports what it meets, and poisons the step (R320). -/
def State.fetchLine (s : State) (a : ErrSrc) (x : LineLoc) : LineVal × State :=
  let s := s.awaitPair x.loc
  let (v, s) := s.readLine a x
  (v, s.poisonBy x.loc v)

/-- One line of a read response (R21, R383): data, or none with POISON on a mismatch or a FAR row. -/
def LineVal.resp : LineVal → LineResp
  | .zero => ⟨some 0, false⟩
  | .good d => ⟨some (lineOfBytes d), false⟩
  | .fixed d _ => ⟨some (lineOfBytes d), false⟩
  | .bad _ _ => ⟨none, false⟩
  | .poison _ _ => ⟨none, true⟩
  | .far => ⟨none, true⟩

/-- The lines of a request of `n` lines from dense offset `off`. -/
def requestLines (e : RegionWords) (off n : Nat) : List LineLoc := (List.range n).map (fun i => e.lineAt (off + 64 * i))

/-- Read the lines of a region request (R22, R252): status 4 when a line gives no data. -/
def State.serveRead (s : State) (a : ErrSrc) (src : Nat) (e : RegionWords) (off n : Nat) : Nat × List LineResp × State :=
  let xs := requestLines e off n
  let s := s.chargeReads src xs
  let (rs, s) := xs.foldl (fun (acc : List LineResp × State) x =>
    let (v, s) := acc.2.fetchLine a x
    (acc.1 ++ [v.resp], s)) ([], s)
  (if rs.all (·.data.isSome) then 0 else 4, rs, s)

/-- Write the lines of a region request (R24): status 4 when a line refused its write. -/
def State.serveWrite (s : State) (a : ErrSrc) (src : Nat) (e : RegionWords) (off : Nat) (data : List LineWrite) :
    Nat × State :=
  let xs := requestLines e off data.length
  let s := s.chargeWrites src xs
  let (ok, s) := (xs.zip data).foldl (fun (acc : Bool × State) p =>
    let s := acc.2.awaitPair p.1.loc
    let (b, s) := s.writeLine a .buffered p.1 (bytesOfLine p.2.data) p.2.mask.toNat
    (acc.1 && b, s)) (true, s)
  (if ok then 0 else 4, s)

/-! ### Checks and statuses -/

/-- The status of a failed check of R420 (R383, R242). -/
def RegionCheck.status : RegionCheck → Nat
  | .ok => 0 | .permission => 1 | .beyond => 2 | .notReady => 3

/-- The staging region of a load in progress, of the loaded plan or of a pending swap (R167). -/
def State.stagingHeld (s : State) (n : Nat) : Bool :=
  (match s.plan.load with | some l => l.region == n | none => false)
    || (match s.plan.plan with | some p => p.region == n | none => false)
    || (match s.plan.pend with | some p => p.region == n | none => false)

/-- Checks 1 to 3 of R420, with the write protection of a staging region for host and debug (R167). -/
def State.checkRequest (s : State) (q : Requester) (write : Bool) (n off len : Nat) : RegionCheck :=
  match s.checkRegion q write n off len with
  | .ok => if write && (q = .host || q = .debug) && s.stagingHeld n then .permission else .ok
  | .notReady => .notReady
  | .permission => .permission
  | .beyond => if write && (q = .host || q = .debug) && s.stagingHeld n then .permission else .beyond

/-- A refused access is logged when its permission was missing (R37, R319). -/
def State.refuseAccess (s : State) (a : ErrSrc) (n : Nat) (c : RegionCheck) : State :=
  if c = .permission then s.log_ 0x09 a ⟨none, 0, 0, n⟩ else s

/-- A line request is malformed: its offset is not line-aligned or its line count outside 1 to 64 (R383; log entry 120). -/
def badLines (off n : Nat) : Bool := off % 64 != 0 || n == 0 || decide (64 < n)

/-- A region read for a requester: status, lines, state after (R420, R383; log entry 120). -/
def State.regionRead (s : State) (q : Requester) (a : ErrSrc) (src n off lines : Nat) : Nat × List LineResp × State :=
  if s.harebell || s.spent then (5, [], s)
  else if badLines off lines then (6, [], s)
  else match s.checkRequest q false n off (64 * lines) with
    | .ok => s.serveRead a src (s.regionWords n) off lines
    | c => (c.status, [], s.refuseAccess a n c)

/-- A region write for a requester: status, state after (log entry 120). -/
def State.regionWrite (s : State) (q : Requester) (a : ErrSrc) (src n off : Nat) (data : List LineWrite) : Nat × State :=
  if s.harebell || s.spent then (5, s)
  else if badLines off data.length then (6, s)
  else match s.checkRequest q true n off (64 * data.length) with
    | .ok => s.serveWrite a src (s.regionWords n) off data
    | c => (c.status, s.refuseAccess a n c)

/-- Link retries on a request's bursts (R292): up to 3 are counted in LINKRETRY; a burst that still fails is counted in
LINKERR and is an uncorrectable error, class 0x06, of the request's first line (log entry 14). -/
def State.linkTrouble (s : State) (a : ErrSrc) (x : LineLoc) (fails : Nat) : State :=
  let s := if fails = 0 then s else s.bump Reg.LINKRETRY (min fails 3)
  if fails ≤ 3 then s else (s.bump Reg.LINKERR 1).noteLine a x (.bad 0x06 0) |>.poisonBy x.loc (.bad 0x06 0)

/-- A region read whose bursts may fail on the link: the first line of a read that fails after its retries gives no data (R292,
R319; log entry 14). -/
def State.linkRead (s : State) (q : Requester) (a : ErrSrc) (src n off lines fails : Nat) : Nat × List LineResp × State :=
  let (st, ls, s) := s.regionRead q a src n off lines
  if st != 0 && st != 4 then (st, ls, s)
  else
    let s := s.linkTrouble a ((s.regionWords n).lineAt off) fails
    if fails ≤ 3 then (st, ls, s) else (4, ⟨none, false⟩ :: ls.drop 1, s)

/-- A region write whose bursts may fail on the link: a burst that fails after its retries leaves its line unwritten (R292;
log entry 14). -/
def State.linkWrite (s : State) (q : Requester) (a : ErrSrc) (src n off : Nat) (data : List LineWrite) (fails : Nat) : Nat × State :=
  let r := s.regionWrite q a src n off data
  if r.1 != 0 && r.1 != 4 then r
  else if fails ≤ 3 then (r.1, r.2.linkTrouble a ((s.regionWords n).lineAt off) fails)
  else
    let (_, s) := s.serveWrite a src (s.regionWords n) (off + 64) (data.drop 1)
    (4, s.linkTrouble a ((s.regionWords n).lineAt off) fails)

/-! ### Atomic adds -/

/-- The size of an atomic form in bytes; none for a form that R259 does not define. -/
def atomicSize (form : Nat) : Option Nat := match form with | 0 => some 4 | 1 => some 8 | 2 => some 4 | _ => none

/-- The sum of an atomic add (R259). -/
def atomicSum (form : Nat) (old op : Nat) : Nat :=
  match form with
  | 0 => (old + op) % 2 ^ 32
  | 1 => (old + op) % 2 ^ 64
  | _ => (fpAdd true (BitVec.ofNat 32 old) (BitVec.ofNat 32 op)).go.1.toNat

/-- The add itself, at byte `b` of a line, by a BSU or by the CSU (R259, R260): the old value, or none when the line refuses
the add. -/
def State.atomicCore (s : State) (a : ErrSrc) (bsu : Bool) (x : LineLoc) (b form : Nat) (op : Nat) : Option Nat × State :=
  let size := (atomicSize form).getD 4
  let v := s.lineVal x
  match v.bytes? with
  | none =>
    let s := (s.noteLine a x v).poisonBy x.loc v
    let s := if bsu then
        s.setBsu x.loc.dev x.loc.ch x.loc.pair { s.bsu x.loc.dev x.loc.ch x.loc.pair with ue := true }
      else s
    (none, s)
  | some line =>
    let old := leAt line b size
    let new := spliceBytes line b (leBytes size (atomicSum form old op))
    let s := if bsu then s.countCorr x.loc [v] else s
    let (ok, s) := (s.noteLine a x v).writeLine a (if bsu then .through else .buffered) x new fullMask
    (if ok then some old else none, s.perf 17 1)

/-- Sectors of an atomic add on the pins: by a BSU its operand sector, the old value where it is returned, and the result read
(R270, R279); by the controller-side unit the line read and written (R25). -/
def State.chargeAtomic (s : State) (src : Nat) (bsu ret : Bool) (x : LineLoc) : State :=
  if bsu then s.charge src (1 + ret.toNat) 1 (chargeTimes src x.loc) else (s.chargeReads src [x]).chargeWrites src [x]

/-- An atomic add by the BSU of the bank where it is in service, else by the controller-side unit (R260). -/
def State.atomicAdd (s : State) (a : ErrSrc) (src : Nat) (ret : Bool) (x : LineLoc) (b form : Nat) (op : Nat) :
    Option Nat × State :=
  let s := (s.awaitPair x.loc).retire
  let bsu := s.inService x.loc.dev
  let s := s.chargeAtomic src bsu ret x
  if bsu then
    let s := s.openSeq x.loc 0 1 1 (if s.rowRemapped x.loc then 80 else 40) none
    let s := s.setBsu x.loc.dev x.loc.ch x.loc.pair
      { s.bsu x.loc.dev x.loc.ch x.loc.pair with result := some RowResult.zero }
    let es := s.fault.remap
    let (old, s) := (s.seenByBsu x.loc).atomicCore a true x b form op
    (old, s.withRemap es)
  else s.atomicCore a false x b form op

/-- The BSU that would execute an atomic add may not start its sequence yet (R278, R281): the request waits (log entry 124). -/
def State.atomicWaits (s : State) (x : LineLoc) : Bool :=
  let s := (s.awaitPair x.loc).retire
  s.inService x.loc.dev && s.mustWait x.loc 1

end Sys2Proof.Machine
end

