-- ==== Sys2Proof/Machine/Ports.lean ====
section
/-! DEFINITION. The engine ports, the token channel, and the control port's region requests (R247 to R252, R383 to R385), the
region-table writes and initialization (R40 to R43), and register reads (R402). -/

namespace Sys2Proof.Machine

/-- The outcome of a command that ends in a next state. -/
abbrev Result := Host.Outcome State Fault Refusal

/-! ### The token channel -/

/-- Pass tokens of a port to its engines while there is credit (R384). -/
def passTokens : Nat → Nat → TokenPort → List Out × TokenPort
  | 0, _, p => ([], p)
  | n + 1, port, p =>
    match p.queue with
    | [] => ([], p)
    | t :: rest =>
      if p.credit = 0 then ([], p)
      else
        let (o, p') := passTokens n port { p with credit := p.credit - 1, queue := rest }
        (.token port t :: o, p')

/-- Let the tokens of port `n` pass, counting each (R384, R415). -/
def State.drainTokens (s : State) (n : Nat) : State :=
  let p := s.exch.ports.getD n ⟨0, []⟩
  let (o, p') := passTokens p.queue.length n p
  ({ s with exch := { s.exch with ports := s.exch.ports.set n p' }, out := s.out ++ o }).perf 12 o.length

/-- Queue a token for every port in a mask and pass on what may pass (R239, R240, R384). -/
def State.sendToken (s : State) (mask : Nat) (t : Token) : State :=
  (onBits 8 mask).foldl (fun s n =>
    let p := s.exch.ports.getD n ⟨0, []⟩
    ({ s with exch := { s.exch with ports := s.exch.ports.set n { p with queue := p.queue ++ [t] } } }).drainTokens n) s

/-- Credit returned by the engines of a port (R384); the channel holds 64 entries. -/
def State.takeCredit (s : State) (n k : Nat) : State :=
  let p := s.exch.ports.getD n ⟨0, []⟩
  ({ s with exch := { s.exch with ports := s.exch.ports.set n { p with credit := min 64 (p.credit + k) } } }).drainTokens n

/-! ### Region requests -/

/-- A region read of the control port (R385, R420; log entries 14, 123). -/
def execHostRegionRd (region : BitVec 6) (offset : BitVec 42) (lines : Linked Nat) (s : State) : Result :=
  let (st, ls, s) := s.linkRead .host .host 9 region.toNat offset.toNat lines.val lines.linkFails
  .next (s.emit (.host st ls))

/-- A region write of the control port (R385, R420; log entry 14). -/
def execHostRegionWr (region : BitVec 6) (offset : BitVec 42) (data : Linked (List LineWrite)) (s : State) : Result :=
  let (st, s) := s.linkWrite .host .host 9 region.toNat offset.toNat data.val data.linkFails
  .next (s.emit (.host st []))

/-- Engine read (R383). A burst that fails after its retries gives its line no data (R292, R319; log entry 123). -/
def execEngineRd (port : BitVec 3) (engine : BitVec 4) (region : BitVec 6) (offset : BitVec 42) (lines : Nat)
    (linkFails : Nat) (s : State) : Result :=
  let (st, ls, s) := s.linkRead .engine .engine port.toNat region.toNat offset.toNat lines linkFails
  .next (s.emit (.engine port.toNat engine.toNat st ls none))

/-- Engine write (R383). A burst that fails after its retries leaves its line unwritten (R292). -/
def execEngineWr (port : BitVec 3) (engine : BitVec 4) (region : BitVec 6) (offset : BitVec 42) (data : List LineWrite)
    (linkFails : Nat) (s : State) : Result :=
  let (st, s) := s.linkWrite .engine .engine port.toNat region.toNat offset.toNat data linkFails
  .next (s.emit (.engine port.toNat engine.toNat st [] none))

/-- The status of an engine's atomic add before it is performed (R260, R383, R420): both read and write are needed. -/
def State.atomicStatus (s : State) (n off form : Nat) : RegionCheck :=
  let size := (atomicSize form).getD 4
  match s.checkRequest .engine true n off size with
  | .ok => s.checkRequest .engine false n off size
  | .beyond => (match s.checkRequest .engine false n off size with | .permission => .permission | _ => .beyond)
  | .notReady => .notReady
  | .permission => .permission

/-- Engine atomic add (R259 to R261, R383); it waits while the BSU that executes it starts no sequence (R281; log entry 124). -/
def execEngineAadd (port : BitVec 3) (engine : BitVec 4) (region : BitVec 6) (offset : BitVec 42) (form : BitVec 2)
    (operand : DWord) (ret : Bool) (s : State) : Result :=
  let answer (s : State) (st : Nat) (old : Option DWord) : Result :=
    .next (s.emit (.engine port.toNat engine.toNat st [] old))
  if s.harebell || s.spent then answer s 5 none
  else match atomicSize form.toNat with
    | none => answer s 6 none
    | some size =>
      if offset.toNat % size != 0 then answer s 6 none
      else match s.atomicStatus region.toNat offset.toNat form.toNat with
        | .ok =>
          let x := (s.regionWords region.toNat).lineAt offset.toNat
          if s.atomicWaits x then .next s
          else match s.atomicAdd .engine port.toNat ret x (offset.toNat % 64) form.toNat (operand.toNat % 2 ^ (8 * size)) with
          | (some old, s) => answer s 0 (if ret then some (BitVec.ofNat 64 old) else none)
          | (none, s) => answer s 4 none
        | c => answer (s.refuseAccess .engine region.toNat c) c.status none

/-- Kernel end (R249): every accepted write is visible already (R250), so the request completes at once; status 5 in
Harebell and in Spent (R383). -/
def execKend (port : BitVec 3) (engine : BitVec 4) (s : State) : Result :=
  if s.harebell || s.spent then .next (s.emit (.engine port.toNat engine.toNat 5 [] none))
  else .next (s.emit (.kernelEnd port.toNat engine.toNat))

/-- Token credit taken back by the engines of a port (R384). -/
def execEngineTokenCredit (port : BitVec 3) (n : BitVec 7) (s : State) : Result := .next (s.takeCredit port.toNat n.toNat)

/-! ### The region table -/

/-- A write to word `word` of a region entry (R40 to R43). -/
def State.entryWrite (s : State) (n w v : Nat) : State :=
  if s.served (0x1000 + 16 * n + 4 * w) then s.writeEntry n w v else s

/-- Initialization of a region's rows, while its INIT_PEND bit is set (R43; log entries 2, 29, 116). Clearing EN meanwhile does not
end it: the rows of the write that began it are written all the same (log entry 126). -/
def execInit (entry : BitVec 6) (s : State) : Result :=
  let n := entry.toNat
  match s.req.inits.find? (fun i => i.entry == n) with
  | none => .next s
  | some i =>
    if i.ran || !s.initPending n then .next s
    else
      let s := (s.initRegion i.words).charge 15 0 (RegionWords.rows i.words) 1
      .next { s with req := { s.req with
        inits := s.req.inits.map (fun j => if j.entry = n then { j with ran := true } else j) } }

/-- Initialization ends (R43): the entry is usable, if it is still enabled (log entries 116, 126). -/
def execInitDone (entry : BitVec 6) (s : State) : Result :=
  let n := entry.toNat
  if s.initPending n && s.req.inits.any (fun i => i.entry == n && i.ran) then
    let s : State := { s with req := { s.req with inits := s.req.inits.filter (fun i => i.entry != n) } }
    let s := s.setInitPending n false
    .next (s.setFlag Reg.BUSY s.anyInit)
  else .next s

/-- A register read at the control port, latching the pair of a _LO word (R402). -/
def execPairLoRead (off : Half) (s : State) : Result := .next (s.cpRead off.toNat)

end Sys2Proof.Machine
end

