-- ==== Sys2Proof/Machine/Schedule.lean ====
section
/-! DEFINITION. The constants of a step: schedules (R133 to R136), the clip factor (R116), unit constants (R117), trust
ratios (R123, R124), counter-digest terms (R59) and the record digest (R312). -/

namespace Sys2Proof.Machine

/-! ### split and what uses it -/

/-- floor(log2) of a finite positive FP64 code. -/
def f64Log2 (a : DWord) : Int :=
  let (m, e) := f64SigExp a
  (bitLen m : Int) - 1 + e

/-- A positive finite FP64 value times 2^n. -/
def f64Scale (a : DWord) (n : Int) : DWord :=
  let (m, e) := f64SigExp a
  f64Round (a.getLsbD 63) m (e + n)

/-- Zero of either sign. -/
def f64IsZero (a : DWord) : Bool := (a &&& 0x7FFFFFFFFFFFFFFF) == 0

/-- split(s) of R116. -/
def splitF64 (flush : Bool) (s : DWord) : Fp (Word × Int) := do
  let k := f64Log2 s / 2
  return (← fpOfF64 flush (f64Scale s (-(2 * k))), k)

/-- clip_factor (R116). -/
def clipFactor (seed : List Byte) (g : GroupCfg) (normsq : List DWord) (lse : Int) (flush : Bool) : Fp Word := do
  if !g.clipen then return fpOne
  let n := normsq.getD g.clipcls 0
  if f64IsZero n then return fpOne
  let s := f64Scale n (-(2 * lse))
  let (mm, k) ← splitF64 flush s
  let r ← fpRsqrt seed flush mm
  let p ← fpMul flush g.clipmax r
  return fpMin (← fpScale flush p (-k)) fpOne

/-- lamb_trust (R123). -/
def lambTrust (seed : List Byte) (flush : Bool) (trust : Word) (sw sr : DWord) : Fp Word := do
  if f64Special sw || f64Special sr || f64IsZero sw || f64IsZero sr then return fpOne
  let (mw, kw) ← splitF64 flush sw
  let (mr, kr) ← splitF64 flush sr
  let a ← fpSqrt seed flush mw
  let b ← fpRsqrt seed flush mr
  let p ← fpMul flush a b
  let q ← fpScale flush p (kw - kr)
  return (if trust = 0 then q else fpMin q trust)

/-- norm(s) of R124. -/
def normF64 (seed : List Byte) (flush : Bool) (s : DWord) : Fp Word := do
  let (mm, k) ← splitF64 flush s
  let r ← fpSqrt seed flush mm
  fpScale flush r k

/-- lars_trust (R124). -/
def larsTrust (seed : List Byte) (flush : Bool) (tc wd : Word) (sw sg : DWord) : Fp Word := do
  if f64Special sw || f64Special sg || f64IsZero sw || f64IsZero sg then return fpOne
  let nw ← normF64 seed flush sw
  let ng ← normF64 seed flush sg
  let d ← fpMul flush wd nw
  let e ← fpAdd flush ng d
  let q ← fpDiv seed flush nw e
  fpMul flush tc q

/-! ### Unit records -/

/-- A unit record (R111). -/
structure UnitRec where
  count : Nat
  pow1  : Word
  pow2  : Word
  deriving DecidableEq, Repr

/-- The constants of a unit and its new record (R117, R112). -/
def unitConstants (seed : List Byte) (g : GroupCfg) (flush : Bool) (u : UnitRec) : Fp (Word × Word × UnitRec) := do
  let p1 := if u.count = 0 then fpOne else u.pow1
  let p2 := if u.count = 0 then fpOne else u.pow2
  let p1 ← fpMul flush p1 g.beta1
  let p2 ← fpMul flush p2 g.beta2
  let rec' : UnitRec := ⟨min (u.count + 1) 0xFFFFFFFF, p1, p2⟩
  if g.bc then
    let d1 ← fpSub flush fpOne p1
    let bc1 ← fpRecip seed flush d1
    let d2 ← fpSub flush fpOne p2
    let bc2 ← fpRecip seed flush d2
    return (bc1, bc2, rec')
  else return (fpOne, fpOne, rec')

/-- The row unit and position of a unit's record (R111). -/
def unitPlace (u : Nat) : Nat × Nat := (u / 160, u % 160)

/-! ### Schedules -/

/-- A segment of a curve (R135). -/
structure SchedSeg where
  start  : Nat
  kind   : Nat
  target : Nat
  len    : Nat
  v0     : Word
  v1     : Word
  deriving DecidableEq, Repr

/-- The 16 segments of curve `c` of a schedule section (R417, R135). -/
def curveSegs (sect : List Byte) (c : Nat) : List SchedSeg :=
  (List.range 16).map (fun i =>
    let o := 0x40 + 256 * c + 16 * i
    let w := leAt sect (o + 4) 4
    ⟨leAt sect o 4, bits w 31 29, bits w 28 25, bits w 24 0, BitVec.ofNat 32 (leAt sect (o + 8) 4),
      BitVec.ofNat 32 (leAt sect (o + 12) 4)⟩)

/-- The last used segment with start ≤ gs. -/
def segFor (segs : List SchedSeg) (gs : Nat) : SchedSeg :=
  ((segs.filter (fun g => g.kind != 7 && decide (g.start ≤ gs))).getLast?).getD ⟨0, 0, 0, 0, 0, 0⟩

/-- f := min(mul(fp32(n), inv), 1.0). -/
def segFraction (n : Nat) (inv : Word) : Fp Word := do
  let p ← fpMul true (fpOfNat n) inv
  return fpMin p fpOne

/-- The cosine segment's h (R136). -/
def cosineBlend (f : Word) : Fp Word := do
  let f2 ← fpScale true f 1
  let z ← fpSub true f2 fpOne
  let z2 ← fpMul true z z
  let p ← fpMul true z2 0xBB9444C6
  let p ← fpAdd true 0x3DA335E0 p
  let p ← fpMul true z2 p
  let p ← fpAdd true 0xBF255DE7 p
  let p ← fpMul true z2 p
  let p ← fpAdd true 0x3FC90FDA p
  let zp ← fpMul true z p
  let d ← fpSub true fpOne zp
  let h ← fpScale true d (-1)
  return fpMin (fpMax h (fpZero false)) fpOne

/-- add(a, mul(sub(b, c), f)). -/
def blend (a b c f : Word) : Fp Word := do
  let d ← fpSub true b c
  let p ← fpMul true d f
  fpAdd true a p

/-- sched_engine (R136); evaluated with flush set. -/
def schedEngine (seed : List Byte) (segs : List SchedSeg) (g : Nat) : Fp Word := do
  let gs := min g 0xFFFFFFFF
  let s0 := segFor segs gs
  let gs := if s0.kind = 5 then
      (segs.getD s0.target ⟨0, 0, 0, 0, 0, 0⟩).start + (if s0.len = 0 then 0 else (gs - s0.start) % s0.len)
    else gs
  let s := if s0.kind = 5 then segFor segs gs else s0
  let x := gs - s.start
  if s.kind = 0 then return s.v0
  let inv ← fpRecip seed true (fpOfNat s.len)
  match s.kind with
  | 1 =>
    let f ← segFraction (x + 1) inv
    blend s.v0 s.v1 s.v0 f
  | 2 =>
    let f ← segFraction x inv
    blend s.v0 s.v1 s.v0 f
  | 3 =>
    let f ← segFraction x inv
    let h ← cosineBlend f
    blend s.v1 s.v0 s.v1 h
  | _ =>
    let p ← fpMul true (fpOfNat (x + s.len)) inv
    let r ← fpRsqrt seed true p
    fpMul true s.v0 r

/-- Table mode (R134, R417). -/
def schedTable (sect : List Byte) (ix : Nat) (offset : Int) (g : Nat) : Word :=
  let o := 0x40 + 8 * ix
  let toff := leAt sect o 4
  let len := leAt sect (o + 4) 4
  let i := min (max ((g : Int) + offset) 0) ((len : Int) - 1)
  BitVec.ofNat 32 (leAt sect (toff + 4 * i.toNat) 4)

/-! ### Digests -/

/-- Lines 2 to 6 of R59. -/
def mix64 (x : DWord) : DWord :=
  let x := x ^^^ (x >>> 31)
  let x := x * 0x9E6F1A3BC54D2E87
  let x := x ^^^ (x >>> 29)
  let x := x * 0xC2B54D1786E3A9F1
  x ^^^ (x >>> 32)

/-- t(u, n) (R59). -/
def digestTerm (u n : Nat) : DWord := mix64 (BitVec.ofNat 64 (u % 2 ^ 32 * 2 ^ 32 + n % 2 ^ 32))

/-- Fold the 64-bit words of a byte string into a digest. -/
def digestWords : List Byte → DWord → DWord
  | a :: b :: c :: d :: e :: f :: g :: h :: t, x =>
    digestWords t (mix64 (x ^^^ (h ++ (g ++ (f ++ (e ++ (d ++ (c ++ (b ++ a)))))))))
  | _, x => x

/-- record_digest (R312). -/
def recordDigest (bs : List Byte) : DWord := digestWords bs (BitVec.ofNat 64 bs.length)

end Sys2Proof.Machine
end

