-- ==== Sys2Proof/Machine/Image.lean ====
section
/-! DEFINITION. The plan image (R161 to R166, R169 to R171, R230, R297, R418): its header, its directory and its tables cut
out of the image's bytes, and the lists that a variant selects. -/

namespace Sys2Proof.Machine

/-! ### Reading an image -/

/-- Field [hi:lo] of the little-endian word at byte `off`. -/
def wordFld (bs : List Byte) (off hi lo : Nat) : Nat := bits (leAt bs off 4) hi lo

/-- The word at byte `off`. -/
def wordOf (bs : List Byte) (off : Nat) : Word := BitVec.ofNat 32 (leAt bs off 4)

/-- The bytes from dense offset `off` of a region, `len` of them, and the lines among them that give no data. -/
def State.regionBytes (s : State) (e : RegionWords) (off len : Nat) : List Byte × List LineLoc :=
  let first := off / 64
  let xs := (List.range ((off + len + 63) / 64 - first)).map (fun i => e.lineAt (64 * (first + i)))
  let vs := xs.map (fun x => (x, s.lineVal x))
  let all := vs.flatMap (fun p => (p.2.bytes?).getD (List.replicate 64 0))
  ((all.drop (off - 64 * first)).take len, (vs.filter (·.2.isBad)).map (·.1))

/-- A directory entry (R162). -/
structure DirEntry where
  typ : Nat
  bw  : Bool
  off : Nat
  len : Nat
  deriving DecidableEq, Repr

/-- The header of an image (R161). -/
def parseHeader (b : List Byte) : PlanHeader where
  planId := leAt b 0x08 8
  imageLen := leAt b 0x10 4
  markLen := leAt b 0x14 4
  cfg := leAt b 0x18 8
  topo := leAt b 0x20 8
  pxbRev := wordFld b 0x28 31 24
  sched := wordFld b 0x28 23 23
  ngroup := wordFld b 0x28 16 0
  nlayer := wordFld b 0x2C 31 16
  nshard := wordFld b 0x2C 15 0
  stepEntry := leAt b 0x30 4
  hotLen := leAt b 0x34 4
  unitReg := wordFld b 0x38 31 26
  nunit := leAt b 0x3C 4
  nblock := wordFld b 0x40 31 16
  blockNo := wordFld b 0x40 15 0
  insnLimit := leAt b 0x44 4

/-- The directory (R162); at most 64 entries are read. -/
def parseDir (b : List Byte) : List DirEntry :=
  (List.range (min (wordFld b 0x04 15 0) 64)).map (fun i =>
    let o := 0x80 + 16 * i
    ⟨wordFld b o 31 16, wordFld b o 0 0 == 1, leAt b (o + 4) 4, leAt b (o + 8) 4⟩)

/-- A group descriptor's plan-set fields (R110). -/
def parseGroup (b : List Byte) (o : Nat) : GroupCfg where
  rule := wordFld b o 31 28
  clipen := wordFld b o 27 27 == 1
  clipcls := wordFld b o 26 24
  ukind := wordFld b o 23 22
  bc := wordFld b o 21 21 == 1
  flush := wordFld b o 0 0 == 1
  schedix := wordFld b (o + 0x04) 15 0
  offset := ofTwos 32 (leAt b (o + 0x08) 4)
  lr := wordOf b (o + 0x0C)
  beta1 := wordOf b (o + 0x10)
  beta2 := wordOf b (o + 0x14)
  eps := wordOf b (o + 0x18)
  wd := wordOf b (o + 0x1C)
  clipmax := wordOf b (o + 0x20)
  trust := wordOf b (o + 0x24)
  dscale := wordOf b (o + 0x28)

/-- A group as load leaves it: reports clear, omb1 and omb2 computed, with the flags that this raises (R115, R163). -/
def Group.ofCfg (c : GroupCfg) : Group :=
  let ((a, b), f) := (do return (← fpSub c.flush fpOne c.beta1, ← fpSub c.flush fpOne c.beta2) : Fp (Word × Word)).go
  { cfg := c, flags := f, eta := 0, clip := 0, trustv := 0, omb1 := a, omb2 := b }

/-- The low half of the word at byte `off`, and its high half. -/
def halfOf (b : List Byte) (off : Nat) : Half := BitVec.ofNat 16 (leAt b off 2)

/-- A shard descriptor's plan-set fields (R103, R166). -/
def parseShard (b : List Byte) (o : Nat) : ShardCfg where
  margin := wordFld b o 8 6
  rmode := wordFld b o 5 4
  fmt := wordFld b o 3 0
  tensorId := leAt b (o + 0x04) 4
  base := leAt b (o + 0x08) 6
  cb := [halfOf b (o + 0x18), halfOf b (o + 0x1A), halfOf b (o + 0x1C), halfOf b (o + 0x1E)]
  sregion := wordFld b (o + 0x20) 31 26
  firstu := leAt b (o + 0x24) 4
  nrows := leAt b (o + 0x28) 4
  elems := leAt b (o + 0x2C) 6
  group0 := leAt b (o + 0x34) 4

/-- A shard as load leaves it (R163): XEXP is the plan's initial value. -/
def parseShardState (b : List Byte) (o : Nat) : Shard where
  cfg := parseShard b o
  satcnt := 0
  xexp := ofTwos 8 (wordFld b o 23 16)
  nonfin := false
  amax := 0
  amaxLast := 0
  stepSat := 0
  touched := false

/-- A layer descriptor's plan-set fields (R141). -/
def parseLayer (b : List Byte) (o : Nat) : LayerCfg where
  mrule := wordFld b o 31 30
  niter := wordFld b o 29 25
  nroot := wordFld b o 24 20
  coef := wordFld b o 19 16
  group := wordFld b o 15 0
  rows := leAt b (o + 0x04) 4
  cols := leAt b (o + 0x08) 4
  rootint := wordFld b (o + 0x0C) 31 16
  rootphase := wordFld b (o + 0x0C) 15 0
  shard := wordFld b (o + 0x10) 15 0
  freg := wordFld b (o + 0x14) 11 6
  sreg := wordFld b (o + 0x14) 5 0
  srow := leAt b (o + 0x18) 4
  frow := leAt b (o + 0x1C) 4
  betaf := wordOf b (o + 0x20)
  epsf := wordOf b (o + 0x24)
  rthr := wordOf b (o + 0x28)

/-- A layer as its descriptor in the image stands, status included (R141, R156). -/
def parseLayerStatus (b : List Byte) (o : Nat) : Layer where
  cfg := parseLayer b o
  dstate := wordFld b (o + 0x30) 31 30
  fsel := wordFld b (o + 0x30) 29 29 == 1
  rselL := wordFld b (o + 0x30) 28 28 == 1
  rselR := wordFld b (o + 0x30) 27 27 == 1
  okL := wordFld b (o + 0x30) 26 26 == 1
  okR := wordFld b (o + 0x30) 25 25 == 1
  rootfb := wordFld b (o + 0x30) 24 24 == 1
  zerog := wordFld b (o + 0x30) 23 23 == 1
  dstep := leAt b (o + 0x34) 4
  residL := wordOf b (o + 0x38)
  residR := wordOf b (o + 0x3C)

/-- The same with the block-set fields of +0x30 cleared, as a load leaves them (R141). -/
def Layer.cleared (l : Layer) : Layer :=
  { l with dstate := 0, fsel := false, rselL := false, rselR := false, okL := false, okR := false, rootfb := false,
           zerog := false }

/-- A sub-variant record (R170). -/
def parseSub (b : List Byte) (o : Nat) : SubVariant where
  ceOff := leAt b o 4
  ceN := leAt b (o + 0x04) 4
  clOff := leAt b (o + 0x08) 4
  clN := leAt b (o + 0x0C) 4
  eeOff := leAt b (o + 0x10) 4
  eeN := leAt b (o + 0x14) 4
  elOff := leAt b (o + 0x18) 4
  elN := leAt b (o + 0x1C) 4
  asOff := leAt b (o + 0x20) 4
  asN := leAt b (o + 0x24) 4
  lyOff := leAt b (o + 0x28) 4
  lyN := wordFld b (o + 0x2C) 31 16
  poolBase := leAt b (o + 0x30) 4
  poolLim := leAt b (o + 0x34) 4
  demOff := leAt b (o + 0x38) 4

/-- The number of bundles, at most 24 (R169). -/
def bundleCount (b : List Byte) : Nat := min (wordFld b 0 7 0) 24

/-- Bundle `i` of the variant table; SUBOFF is an offset in the image (R169), so `at0` is the section's own offset. At most
as many records are read as fit in the section. -/
def parseBundle (b : List Byte) (at0 i : Nat) : Bundle :=
  let o := 0x80 + 16 * i
  let r := leAt b o 4
  let sub := leAt b (o + 4) 4
  ⟨r, (List.range (min r (b.length / 64))).map (fun k => parseSub b (sub - at0 + 64 * k))⟩

/-- The control tree (R230). -/
def parseTree (b : List Byte) : Tree where
  parent := wordFld b 0 31 16
  tepoch := wordFld b 4 31 16
  cmode := wordFld b 4 0 0
  nexpt := wordFld b 8 15 0
  roleEpoch := (List.range 16).map (fun i => leAt b (0x10 + 2 * i) 2)
  children := (List.range (min (wordFld b 0 15 0) 64)).map (fun i => leAt b (0x40 + 2 * i) 2)

/-- A region-entries record: entry number, words with INIT as INIT_AT_LOAD says not kept, INIT_AT_LOAD (R164). -/
structure RegionRec where
  n     : Nat
  words : RegionWords
  init  : Bool
  deriving DecidableEq, Repr

/-- The region-entries section (R164): records of 20 B, INIT dropped from word 0. -/
def parseRegions (b : List Byte) : List RegionRec :=
  (List.range (b.length / 20)).map (fun i =>
    let o := 20 * i
    let e : RegionWords := (List.range 4).foldl (fun e w => e.withWord w (leAt b (o + 4 * w) 4)) [0, 0, 0, 0]
    ⟨wordFld b (o + 16) 5 0, e, wordFld b (o + 16) 31 31 == 1⟩)

/-- The degraded slices (R243). -/
def parseSlices (b : List Byte) : List Nat :=
  (List.range (min (wordFld b 0 7 0) 64)).map (fun i => leAt b (8 + 8 * i) 8)

/-- The ODIG weights (R418): (unit, weight modulo 2^64). -/
def parseOdig (b : List Byte) : List (Nat × Nat) :=
  (List.range (min (leAt b 0 4) (b.length / 8))).map (fun i =>
    (leAt b (16 + 8 * i) 4, twos 64 (ofTwos 32 (leAt b (20 + 8 * i) 4))))

/-- The far-shard table (R297). -/
def parseFar (b : List Byte) : List FarShard :=
  (List.range (wordFld b 0 15 0)).map (fun i => ⟨leAt b (16 + 8 * i) 2, leAt b (20 + 8 * i) 4⟩)

/-- The bytes of section `t` of an image. -/
def dirSection (b : List Byte) (dir : List DirEntry) (t : Nat) : List Byte :=
  match dir.find? (fun d => d.typ == t) with
  | some d => (b.drop d.off).take d.len
  | none => []

/-- The plan that the image `b` in region `reg` holds. -/
def parsePlan (reg : Nat) (b : List Byte) : Plan :=
  let h := parseHeader b
  let dir := parseDir b
  let sec := dirSection b dir
  let v := sec 0x04
  let far := sec 0x13
  { region := reg
    hdr := h
    sections := dir.map (fun d => ⟨d.typ, d.bw, d.off, (b.drop d.off).take d.len⟩)
    regions := (parseRegions (sec 0x02)).map (fun r => (r.n, r.words))
    devices := (List.range 24).map (fun d => leAt (sec 0x03) (4 * d) 4)
    groups := (List.range h.ngroup).map (fun i => Group.ofCfg (parseGroup (sec 0x05) (64 * i)))
    shards := (List.range h.nshard).map (fun i => parseShardState (sec 0x06) (64 * i))
    layers := (List.range h.nlayer).map (fun i => (parseLayerStatus (sec 0x07) (64 * i)).cleared)
    base := parseSub v 0x40
    bundles := (List.range (bundleCount v)).map (parseBundle v (((dir.find? (·.typ == 0x04)).map (·.off)).getD 0))
    tree := parseTree (sec 0x0F)
    slices := parseSlices (sec 0x10)
    odig := parseOdig (sec 0x12)
    far := parseFar far
    jreg := wordFld far 8 21 16
    junit := leAt far 12 4 }

/-! ### What a plan's tables hold -/

/-- The offset of a section in the image. -/
def Plan.sectionOff (p : Plan) (t : Nat) : Nat := ((p.sections.find? (·.typ == t)).map (·.off)).getD 0

/-- The place of code line `n` of the loaded image. -/
def State.codeLine (s : State) (p : Plan) (n : Nat) : LineLoc := (s.regionWords p.region).lineAt (p.sectionOff 1 + 64 * n)

/-- The section of a plan in which bytes `off` to `off + len − 1` of the image lie whole. -/
def Plan.sectionAt (p : Plan) (off len : Nat) : Option Section :=
  p.sections.find? (fun x => decide (x.off ≤ off) && decide (off + len ≤ x.off + x.bytes.length))

/-- A commit-list entry (R113). -/
def parseEntry (b : List Byte) (o : Nat) : CommitEntry where
  loc := RowLoc.ofWord (leAt b o 4)
  pool := wordFld b (o + 4) 31 14
  pass := wordFld b (o + 4) 13 12
  usplit := wordFld b (o + 4) 11 8
  npar := wordFld b (o + 4) 7 0
  unit := leAt b (o + 8) 4
  group := wordFld b (o + 12) 31 16
  shard := wordFld b (o + 12) 15 0

/-- A slot entry (R220). -/
def parseSlot (b : List Byte) (o : Nat) : SlotEntry where
  src := wordFld b o 31 16
  shard := wordFld b o 15 0
  frow := leAt b (o + 4) 4
  nsec := wordFld b (o + 8) 31 24
  firstr := wordFld b (o + 8) 23 23 == 1
  runit := wordFld b (o + 8) 22 22 == 1
  plim := wordFld b (o + 8) 21 9
  tgrp := wordFld b (o + 12) 31 16

/-- A destination set (R234) at offset `o` of the emission-list section. -/
def parseDests (b : List Byte) (o : Nat) : List DestRec :=
  (List.range (wordFld b o 7 0)).map (fun i =>
    let a := o + 16 + 16 * i
    ⟨wordFld b a 31 16, wordFld b a 15 8, wordFld b a 5 0, leAt b (a + 8) 4 + 2 ^ 32 * wordFld b (a + 12) 9 0⟩)

/-- An emission-list entry (R233). -/
def parseChunk (b : List Byte) (o : Nat) : ChunkEntry where
  shard := wordFld b o 31 16
  nrows := wordFld b o 15 0
  frow := leAt b (o + 4) 4
  doff := leAt b (o + 12) 4
  dests := parseDests b (leAt b (o + 8) 4)

/-- A residency entry (R299). -/
def parseMove (b : List Byte) (o : Nat) : Move where
  op := wordFld b (o + 4) 31 30
  loc := RowLoc.ofWord (leAt b o 4)
  region := wordFld b (o + 4) 29 24
  nrows := wordFld b (o + 4) 15 0
  fslot := leAt b (o + 8) 4
  funit := leAt b (o + 12) 4
  w0 := wordOf b o
  w1 := wordOf b (o + 4)
  begun := false
  done := 0
  jix := 0
  left := 0

/-- A record-selection entry (R315). -/
def parseRec (b : List Byte) (o : Nat) : RecSel where
  shard := wordFld b o 31 16
  dreg := wordFld b o 5 0
  frow := leAt b (o + 4) 4
  nrows := wordFld b (o + 8) 15 0
  dunit := leAt b (o + 12) 4

/-- `n` records of `size` bytes from offset `off` of a section. -/
def seg {α : Type} (f : List Byte → Nat → α) (b : List Byte) (size off n : Nat) : List α :=
  (List.range n).map (fun i => f b (off + size * i))

/-- The product of the radices of bundles 0 to b − 1 (R55). -/
def Plan.radixBelow (p : Plan) (b : Nat) : Nat := ((p.bundles.take b).map (·.radix)).prod

/-- digit_b of V (R56). -/
def Plan.digit (p : Plan) (v b : Nat) : Nat := v / p.radixBelow b % ((p.bundles.getD b ⟨1, []⟩).radix)

/-- V is below the product of all radices (R56). -/
def Plan.inRange (p : Plan) (v : Nat) : Bool := decide (v < p.radixBelow p.bundles.length)

/-- Records 0 to B of variant V (R171). -/
def Plan.records (p : Plan) (v : Nat) : List SubVariant :=
  p.base :: (p.bundles.zipIdx.map (fun x => x.1.subs.getD (p.digit v x.2) p.base))

/-- The early then the late segments of a list, in the order of R171. -/
def joinSegs {α : Type} (early late : SubVariant → List α) (rs : List SubVariant) : List α :=
  rs.flatMap early ++ rs.reverse.flatMap late

/-- The commit list of a variant's records (R171). -/
def Plan.commitList (p : Plan) (rs : List SubVariant) : List CommitEntry :=
  let b := p.section 0x0B
  joinSegs (fun r => seg parseEntry b 16 r.ceOff r.ceN) (fun r => seg parseEntry b 16 r.clOff r.clN) rs

/-- The emission list (R171). -/
def Plan.emissionList (p : Plan) (rs : List SubVariant) : List ChunkEntry :=
  let b := p.section 0x0C
  joinSegs (fun r => seg parseChunk b 16 r.eeOff r.eeN) (fun r => seg parseChunk b 16 r.elOff r.elN) rs

/-- The arrival schedule (R171). -/
def Plan.arrivalList (p : Plan) (rs : List SubVariant) : List SlotEntry :=
  rs.flatMap (fun r => seg parseSlot (p.section 0x0D) 16 r.asOff r.asN)

/-- The layer list (R171): layer numbers of 2 B (log entry 26). -/
def Plan.layerList (p : Plan) (rs : List SubVariant) : List Nat :=
  rs.flatMap (fun r => seg (fun b o => leAt b o 2) (p.section 0x0E) 2 r.lyOff r.lyN)

/-- Every sub-variant record of a plan. -/
def Plan.allSubs (p : Plan) : List SubVariant := p.base :: p.bundles.flatMap (·.subs)

/-- The words of region entry `n` of a plan, where it holds one. -/
def Plan.entry? (p : Plan) (n : Nat) : Option RegionWords := (p.regions.find? (·.1 == n)).map (·.2)

/-- The row of a shard's state row `i` (R166). -/
def Plan.shardRow (p : Plan) (shard i : Nat) : RowLoc :=
  match p.shards[shard]? with
  | some h => ((p.entry? h.cfg.sregion).getD [0, 0, 0, 0]).unitRow (h.cfg.firstu + i)
  | none => ⟨0, 0, 0, 0⟩

/-- The number of a row within its shard, counted in the shard's state rows. -/
def Plan.rowOfShard (p : Plan) (shard : Nat) (l : RowLoc) : Option Nat :=
  match p.shards[shard]? with
  | some h => (List.range h.cfg.nrows).find? (fun i => p.shardRow shard i == l)
  | none => none

/-- The state region among a plan's entries that names a row. -/
def Plan.stateEntry (p : Plan) (l : RowLoc) : Option (Nat × RegionWords) :=
  p.regions.find? (fun r => r.2.en && decide (r.2.cls = .state) && r.2.names l)

end Sys2Proof.Machine
end

