-- ==== Sys2Proof/Machine/Check.lean ====
section
/-! DEFINITION. The load checks on a plan image (R167, R423): stage 1 on header and directory, stage 3 on the population, stage
4 on the region entries, and stages 7 to 14 on the tables. Each check lists the offending items; the lowest is reported. -/

namespace Sys2Proof.Machine

/-- An offending item: LOAD_SECT and LOAD_DETAIL (R423). -/
abbrev Offender := Nat × Nat

/-- The lower of two items (log entry 69). -/
def Offender.le (a b : Offender) : Bool := a.1 < b.1 || (a.1 == b.1 && a.2 ≤ b.2)

/-- The item that a stage reports: the lowest LOAD_SECT, and among those the lowest LOAD_DETAIL (R423; log entry 69). -/
def lowest : List Offender → Option Offender
  | [] => none
  | x :: t =>
    match lowest t with
    | none => some x
    | some y => some (if Offender.le x y then x else y)

/-- Item `o` when the condition is broken. -/
def offends (broken : Bool) (o : Offender) : List Offender := if broken then [o] else []

/-! ### Stage 1 -/

/-- The BW bit of a section type; none for a type that R163 does not list. -/
def sectionBw (t : Nat) : Option Bool := if 1 ≤ t ∧ t ≤ 0x14 then some (t == 5 || t == 6 || t == 7) else none

/-- The section types that must be present (R163). -/
def requiredSections (nlayer : Nat) : List Nat :=
  [1, 2, 3, 4, 5, 6, 9, 0xA, 0xB, 0xC, 0xD, 0xF, 0x11, 0x12] ++ (if nlayer = 0 then [] else [7, 0xE])

/-- Header fields out of bounds, by the byte offset of their word (R161, R162, R194). -/
def headerOffenders (b : List Byte) : List Offender :=
  let n := wordFld b 0x04 15 0
  let len := leAt b 0x10 4
  offends (leAt b 0 4 != 0x5A524E31) (0, 0x00)
    ++ offends (wordFld b 0x04 31 16 != 1 || n == 0 || decide (64 < n)) (0, 0x04)
    ++ offends (len % 64 != 0 || decide (0x80000000 < len) || decide (len < 0x80 + 16 * n)) (0, 0x10)
    ++ offends (leAt b 0x14 4 == 0 || decide (1024 < leAt b 0x14 4)) (0, 0x14)
    ++ offends (decide (65536 < wordFld b 0x28 16 0)) (0, 0x28)
    ++ offends (leAt b 0x34 4 % 64 != 0 || decide (262144 < leAt b 0x34 4)) (0, 0x34)
    ++ offends (leAt b 0x44 4 == 0) (0, 0x44)

/-- Two directory entries overlap; a section without bytes that begins strictly inside another counts as overlapping it (log
entry 127). -/
def DirEntry.meets (d e : DirEntry) : Bool := decide (d.off < e.off + e.len) && decide (e.off < d.off + d.len)

/-- Directory entries that R162 and R163 do not allow, and required sections that are missing (log entry 72); LOAD_SECT has 8 bits,
so that a TYPE that R163 does not list is reported and ordered modulo 256 (log entry 127). -/
def dirOffenders (b : List Byte) : List Offender :=
  let h := parseHeader b
  let dir := parseDir b
  let ix := dir.zipIdx
  ix.flatMap (fun p =>
      let d := p.1
      offends (sectionBw d.typ != some d.bw || d.off % 64 != 0 || decide (d.off < 0x80 + 16 * dir.length)
          || decide (h.imageLen < d.off + d.len)
          || ix.any (fun q => q.2 != p.2 && (q.1.typ == d.typ || q.1.meets d))) (d.typ % 256, p.2))
    ++ (requiredSections h.nlayer).flatMap (fun t => offends (!dir.any (·.typ == t)) (t, 0))
    ++ offends (!dir.any (·.typ == 8)
        && (List.range h.nlayer).any (fun i => (parseLayer (dirSection b dir 7) (64 * i)).mrule == 1)) (8, 0)

/-- Stage 1 over the bytes of the staging region (R167); a line that cannot be read leaves the image without bounds. -/
def stage1 (b : List Byte) (size : Nat) : Option Offender :=
  match lowest (headerOffenders b ++ offends (decide (size < leAt b 0x10 4 + leAt b 0x14 4)) (0, 0)) with
  | some o => some o
  | none => lowest (dirOffenders b)

/-! ### Stage 3 -/

/-- The device list against the population (R165; log entry 72). -/
def State.stage3 (s : State) (p : Plan) : List Offender :=
  (List.range 24).flatMap (fun d =>
    let w := p.devices.getD d 0
    let kind := if s.present d then (if s.bit Reg.UDEV d then 2 else 1) else 0
    offends (decide ((p.section 3).length < 4 * (d + 1)) || bits w 31 30 != kind
      || (kind != 0 && (bits w 29 29 == 1) != s.bit Reg.DENS32 d)
      || (kind == 2 && s.get (Reg.PXB_REV d) != p.hdr.pxbRev)) (3, d))

/-! ### Stage 4 -/

/-- The region-entries section. -/
def Plan.regionRecs (p : Plan) : List RegionRec := parseRegions (p.section 2)

/-- The entry that a set of records gives for a number: the last record stands. -/
def recFor (rs : List RegionRec) (n : Nat) : Option RegionRec := (rs.filter (·.n == n)).getLast?

/-- The region table as the plan's entries leave it (R168, R183): the entries of the plan that is replaced are disabled where
the new plan does not hold them (log entry 73). -/
def State.loadTable (s : State) (p : Plan) : Nat → RegionWords := fun n =>
  match recFor p.regionRecs n with
  | some r => r.words
  | none =>
    let e := s.regionWords n
    if s.planHeld n then e.set 0 (e.getD 0 0 % 2 ^ 31) else e

/-- The refusal of a record of the plan, checked as one set with the others (R40, R419, R182): an entry that the replaced plan
holds under the same number may change (log entry 73). -/
def State.recordRefusal (s : State) (p : Plan) (r : RegionRec) : Option Nat :=
  let old := s.regionWords r.n
  if old.en && !s.planHeld r.n && old.fixedPart != r.words.fixedPart then some 0x0B
  else if old.en && r.init && old.fixedPart == r.words.fixedPart then some 0x0B
  else if r.words.en then s.entryRefusal (s.loadTable p) r.n r.words
  else none

/-- The staging entry is missing or unequal (R164): code 0x04. -/
def State.stage4Staging (s : State) (p : Plan) : Bool :=
  !p.regionRecs.any (fun r => r.n == p.region && r.words == s.regionWords p.region)

/-- The lowest refused entry and its REF_CODE: code 0x05. -/
def State.stage4Refused (s : State) (p : Plan) : Option (Nat × Nat) :=
  (List.range 64).findSome? (fun n =>
    (p.regionRecs.filter (·.n == n)).findSome? (fun r => (s.recordRefusal p r).map (fun c => (n, c))))

/-! ### Sub-variant records -/

/-- A sub-variant record with its part (0 the base record, b + 1 bundle b) and its offset in the variant section. -/
structure SubAt where
  part : Nat
  sub  : SubVariant
  off  : Nat
  deriving DecidableEq, Repr

/-- Every record of the plan. -/
def Plan.subsAt (p : Plan) : List SubAt :=
  ⟨0, p.base, 0x40⟩ :: p.bundles.zipIdx.flatMap (fun b =>
    let o := leAt (p.section 4) (0x84 + 16 * b.2) 4 - p.sectionOff 4
    b.1.subs.zipIdx.map (fun x => ⟨b.2 + 1, x.1, o + 64 * x.2⟩))

/-- A list of `n` records of `size` bytes at `off` lies within `len` bytes. -/
def fits (off n size len : Nat) : Bool := decide (off + size * n ≤ len)

/-- The commit segments of a record, each entry with its offset; none when one does not lie in its section. -/
def Plan.commitOf (p : Plan) (r : SubVariant) : Option (List (CommitEntry × Nat)) :=
  let b := p.section 0xB
  if fits r.ceOff r.ceN 16 b.length && fits r.clOff r.clN 16 b.length then
    some (seg (fun b o => (parseEntry b o, o)) b 16 r.ceOff r.ceN ++ seg (fun b o => (parseEntry b o, o)) b 16 r.clOff r.clN)
  else none

/-- The emission segments of a record, each entry with its offset. -/
def Plan.emissionOf (p : Plan) (r : SubVariant) : Option (List (ChunkEntry × Nat)) :=
  let b := p.section 0xC
  if fits r.eeOff r.eeN 16 b.length && fits r.elOff r.elN 16 b.length then
    some (seg (fun b o => (parseChunk b o, o)) b 16 r.eeOff r.eeN ++ seg (fun b o => (parseChunk b o, o)) b 16 r.elOff r.elN)
  else none

/-- The arrival segment of a record, each slot with its offset. -/
def Plan.arrivalOf (p : Plan) (r : SubVariant) : Option (List (SlotEntry × Nat)) :=
  let b := p.section 0xD
  if fits r.asOff r.asN 16 b.length then some (seg (fun b o => (parseSlot b o, o)) b 16 r.asOff r.asN) else none

/-- The layer-list segment of a record, each number with its offset. -/
def Plan.layersOf (p : Plan) (r : SubVariant) : Option (List (Nat × Nat)) :=
  let b := p.section 0xE
  if fits r.lyOff r.lyN 2 b.length then some (seg (fun b o => (leAt b o 2, o)) b 2 r.lyOff r.lyN) else none

/-- Two records can serve one variant. -/
def SubAt.meets (a b : SubAt) : Bool := a.off == b.off || a.part != b.part

/-- The group of an entry. -/
def Plan.groupCfg? (p : Plan) (g : Nat) : Option GroupCfg := (p.groups[g]?).map (·.cfg)

/-- The shard of an entry. -/
def Plan.shardCfg? (p : Plan) (h : Nat) : Option ShardCfg := (p.shards[h]?).map (·.cfg)

/-- An entry's row within its shard. -/
def Plan.entryRow (p : Plan) (e : CommitEntry) : Option Nat := p.rowOfShard e.shard e.loc

/-- The group that the commit lists give a row of a shard; a row that none names takes GROUP0 (log entry 27). -/
def Plan.rowGroup (p : Plan) (shard row : Nat) : Option Nat :=
  let named := p.subsAt.findSome? (fun a => ((p.commitOf a.sub).getD []).findSome? (fun e =>
    if e.1.shard == shard && p.entryRow e.1 == some row then some e.1.group else none))
  match named with
  | some g => some g
  | none => (p.shardCfg? shard).map (·.group0)

/-! ### Stage 7 -/

/-- A range of image bytes lies within the variant section. -/
def Plan.inVariant (p : Plan) (off len : Nat) : Bool :=
  decide (p.sectionOff 4 ≤ off) && decide (off + len ≤ p.sectionOff 4 + (p.section 4).length)

/-- The offset of the class table of an expert, the table's length, M and the expert number (R421). -/
def Plan.expert (p : Plan) (xo : Nat) : Nat × Nat × Nat × Nat :=
  let b := p.section 4
  (leAt b (xo + 8) 4, wordFld b (xo + 4) 31 16, wordFld b (xo + 4) 3 0, leAt b xo 4)

/-- An expert record or class table breaks R421. -/
def Plan.expertBad (p : Plan) (xo : Nat) : Bool :=
  let (toff, nent, m, x) := p.expert xo
  let tab := ((p.section 4).drop (toff - p.sectionOff 4)).take nent
  decide (p.tree.nexpt ≤ x) || nent == 0 || decide (8193 < nent) || m == 0 || decide (8 < m) || !p.inVariant toff nent
    || tab.headD 1 != 0 || tab.any (fun c => decide (m ≤ c.toNat))

/-- The variant table (R54 to R56, R169, R421). -/
def Plan.stage7 (p : Plan) : List Offender :=
  let b := p.section 4
  let n := wordFld b 0 7 0
  if 24 < n || b.length < 0x80 + 16 * n then [(4, 0)]
  else
    let bundles := (List.range n).map (fun i =>
      let o := 0x80 + 16 * i
      (o, leAt b o 4, leAt b (o + 4) 4, leAt b (o + 8) 4, leAt b (o + 12) 4))
    offends (decide (2 ^ 63 < (bundles.map (·.2.1)).prod)) (4, 0)
      ++ bundles.flatMap (fun x =>
        let (o, r, sub, exp, ne) := x
        if !p.inVariant exp (16 * ne) then [(4, o)]
        else
          let xs := (List.range ne).map (fun i => exp - p.sectionOff 4 + 16 * i)
          offends (r != (xs.map (fun xo => (p.expert xo).2.2.1)).prod || !p.inVariant sub (64 * r)) (4, o)
            ++ xs.flatMap (fun xo => offends (p.expertBad xo) (4, xo)))

/-! ### Stage 8 -/

/-- The rule writes a weight slot; an entry of no group is taken to. -/
def Plan.writesSlot (p : Plan) (e : CommitEntry) : Bool := ((p.groupCfg? e.group).map (fun g => ruleSlot g.rule)).getD true

/-- The state region of a table that names a row. -/
def stateOf (tab : Nat → RegionWords) (l : RowLoc) : Option (Nat × RegionWords) :=
  ((List.range 64).map (fun n => (n, tab n))).find? (fun x => x.2.en && decide (x.2.cls = .state) && x.2.names l)

/-- The offset of the record of region `n` in the region-entries section. -/
def Plan.regionItem (p : Plan) (n : Nat) : Nat := 20 * ((p.regionRecs.findIdx? (·.n == n)).getD 0)

/-- The record of the plan that breaks a condition on region `n`: its entry's, the lowest TYPE that has one (R423), else item `o`. -/
def Plan.regionOr (p : Plan) (n : Nat) (o : Offender) : Offender :=
  if p.regionRecs.any (·.n == n) then (2, p.regionItem n) else o

/-- R30 for one entry: linked regions, and a pool index that places sector and slot inside them; the state region's record offends
where the link fails, the linked region's where it is too small (R423; log entries 69, 70, 71). -/
def Plan.poolOffenders (p : Plan) (tab : Nat → RegionWords) (e : CommitEntry) : List Offender :=
  match stateOf tab e.loc, p.shardCfg? e.shard with
  | some (n, st), some h =>
    let red := tab st.linkA
    let wr := tab st.linkB
    let per := 30 / (EmFmt.ofCode h.fmt).lines
    let redOk := st.linkA != n && red.en && decide (red.cls = .reduction)
    let wrOk := st.linkB != n && wr.en && wr.bound
    offends (!redOk || (p.writesSlot e && !wrOk)) (2, p.regionItem n)
      ++ offends (redOk && decide (red.lastrow < red.firstrow + e.pool / (if red.g16w then 3 else 6))) (2, p.regionItem st.linkA)
      ++ offends (p.writesSlot e && wrOk && decide (wr.lastrow < wr.firstrow + e.pool / per)) (2, p.regionItem st.linkB)
  | _, _ => []

/-- The bank of an entry, as one number. -/
def CommitEntry.bankKey (e : CommitEntry) : Nat := 64 * e.loc.dev + e.loc.bankIx

/-- R130: a row of a row-unit group has one pool index in every variant. -/
def Plan.rowUnitBad (p : Plan) (a : SubAt) (e : CommitEntry) : Bool :=
  ((p.groupCfg? e.group).map (·.ukind)).getD 0 == 2 && p.subsAt.any (fun b =>
    let same := ((p.commitOf b.sub).getD []).filter (fun x => x.1.loc == e.loc)
    (same.any (fun x => x.1.pool != e.pool)) || (a.part != 0 && b.part == a.part && same.isEmpty))

/-- A record's commit segments name a row. -/
def Plan.namesRow (p : Plan) (r : SubVariant) (l : RowLoc) : Bool := ((p.commitOf r).getD []).any (fun e => e.1.loc == l)

/-- Every variant names the row: the base record does, or each record of some bundle. -/
def Plan.inEveryVariant (p : Plan) (l : RowLoc) : Bool :=
  p.namesRow p.base l || p.bundles.any (fun b => !b.subs.isEmpty && b.subs.all (fun r => p.namesRow r l))

/-- R130: some variant gives a row of a row-unit group no pool entry. A row that no list names belongs to its shard's GROUP0 (log
entry 27). -/
def Plan.rowUnitsMissing (p : Plan) : Bool :=
  (List.range p.shards.length).any (fun h =>
    (List.range (((p.shardCfg? h).map (·.nrows)).getD 0)).any (fun i =>
      (((p.rowGroup h i).bind p.groupCfg?).map (·.ukind)).getD 0 == 2 && !p.inEveryVariant (p.shardRow h i)))

/-- The pools (R30, R130, R170, R171; log entries 69, 72). -/
def Plan.stage8 (p : Plan) (tab : Nat → RegionWords) : List Offender :=
  let subs := p.subsAt
  offends p.rowUnitsMissing (4, 0x40) ++ subs.flatMap (fun a =>
    let es := ((p.commitOf a.sub).getD []).map (·.1)
    es.flatMap (p.poolOffenders tab) ++ offends (decide ((p.section 0x11).length < a.sub.demOff + 3072)
      || es.any (fun e => decide (e.pool < a.sub.poolBase) || decide (a.sub.poolLim < e.pool)
        || es.any (fun f => f.bankKey == e.bankKey && f.pool == e.pool && f.loc.row != e.loc.row) || p.rowUnitBad a e)
      || subs.any (fun b =>
        let fs := ((p.commitOf b.sub).getD []).map (·.1)
        a.part != b.part && decide (a.sub.poolBase ≤ b.sub.poolLim) && decide (b.sub.poolBase ≤ a.sub.poolLim)
          && es.any (fun e => fs.any (fun f => f.bankKey == e.bankKey)))) (4, a.off))

/-! ### Stage 9 -/

/-- Finite and not negative; −0 counts as +0 (R138). -/
def fpNonneg (x : Word) : Bool := fpIsFinite x && (!fpSign x || fpIsZero x)

/-- In [+0, 1.0) (R138). -/
def fpBeta (x : Word) : Bool := fpNonneg x && fpLt x fpOne

/-- Finite and above +0. -/
def fpPositive (x : Word) : Bool := fpIsFinite x && !fpSign x && !fpIsZero x

/-- A group breaks R107 or R138. -/
def GroupCfg.bad (g : GroupCfg) : Bool :=
  decide (10 < g.rule) || g.ukind == 3
    || ([3, 4, 6].contains g.rule && !fpPositive g.eps)
    || ([3, 4, 5, 6].contains g.rule && !(fpBeta g.beta1 && fpBeta g.beta2))
    || ([1, 2, 7].contains g.rule && !fpBeta g.beta1)
    || !([g.lr, g.wd, g.clipmax, g.trust, g.dscale].all fpNonneg)
    || (g.ukind == 2 && !([0, 1, 2, 3, 4, 5, 9].contains g.rule))

/-- SREGION is a state region of the plan that holds the shard's rows (R166). -/
def Plan.shardPlaced (p : Plan) (h : ShardCfg) : Bool :=
  match p.entry? h.sregion with
  | some e => e.en && decide (e.cls = .state) && decide (h.firstu + h.nrows ≤ e.rows)
  | none => false

/-- The unit of MX block q of an entry's row (R114). -/
def CommitEntry.unitOf (e : CommitEntry) (q : Nat) : Nat := e.unit + ((List.range q).filter (fun i => e.usplit.testBit i)).length

/-- The units of an entry's row. -/
def CommitEntry.units (e : CommitEntry) : List Nat := ((List.range 5).map e.unitOf).eraseDups

/-- The fields that groups sharing a unit must have in common (R138). -/
def GroupCfg.unitKey (g : GroupCfg) : Word × Word × Bool × Bool := (g.beta1, g.beta2, g.bc, g.flush)

/-- The commit-list entries of a plan, each with its offset. -/
def Plan.allEntries (p : Plan) : List (CommitEntry × Nat) :=
  (p.subsAt.flatMap (fun a => (p.commitOf a.sub).getD [])).eraseDups

/-- The place of a segment in the variant's commit list: CE of record `part`, or CL (R171). -/
def Plan.segKey (p : Plan) (part : Nat) (late : Bool) : Nat := if late then 2 * p.bundles.length + 1 - part else part

/-- The entries of a record with the key of their segment. -/
def Plan.keyed (p : Plan) (a : SubAt) : List (CommitEntry × Nat × Nat) :=
  ((p.commitOf a.sub).getD []).zipIdx.map (fun x => (x.1.1, x.1.2, p.segKey a.part (decide (a.sub.ceN ≤ x.2))))

/-- An entry of a two-pass rule (log entry 71). -/
def Plan.twoPass (p : Plan) (e : CommitEntry) : Bool :=
  ((p.groupCfg? e.group).map (fun g => g.rule == 6 || g.rule == 7)).getD false

/-- Scans and applies of a record (R138): one scan before one apply for each row, no apply of a group before a scan of it in
any variant (log entry 71). -/
def Plan.passOffenders (p : Plan) (a : SubAt) : List Offender :=
  let es := (p.keyed a).filter (fun x => p.twoPass x.1)
  es.flatMap (fun x =>
    let mine := es.filter (fun y => y.1.loc == x.1.loc)
    offends (mine.map (·.1.pass) != [1, 2]) (5, 64 * x.1.group)
      ++ offends (x.1.pass == 2 && p.subsAt.any (fun b => a.meets b && (p.keyed b).any (fun y =>
          y.1.group == x.1.group && y.1.pass == 1 && (decide (x.2.2 < y.2.2)
            || (x.2.2 == y.2.2 && a.off == b.off && decide (x.2.1 < y.2.1)))))) (5, 64 * x.1.group))

/-- One commit-list entry (R113, R114, R127, R138): with its group's descriptor (PASS, USPLIT, rule 10), with its shard's (the row,
NPAR below 160), or its own (R423; log entry 69). -/
def Plan.entryOffenders (p : Plan) (e : CommitEntry) (off : Nat) : List Offender :=
  match p.groupCfg? e.group, p.shardCfg? e.shard with
  | some g, some h =>
    if g.rule = 10 then [(5, 64 * e.group)]
    else
      let row := p.entryRow e
      if row = none && !p.shardPlaced h then []
      else offends ((if g.rule = 6 || g.rule = 7 then e.pass != 1 && e.pass != 2 else e.pass != 0)
            || (e.usplit != 0 && g.ukind != 2)) (5, 64 * e.group)
        ++ offends (row = none || (decide (e.npar < 160) && row != some (h.nrows - 1))) (6, 64 * e.shard)
        ++ offends (e.npar == 0 || decide (160 < e.npar)) (0xB, off)
  | _, _ => [(0xB, off)]

/-- Units and rows that lists share (R138, R311; log entry 69). -/
def Plan.sharedOffenders (p : Plan) : List Offender :=
  let es := p.allEntries
  es.flatMap (fun x => es.flatMap (fun y =>
    let u := match p.groupCfg? x.1.group, p.groupCfg? y.1.group with
      | some g, some h => x.1.group != y.1.group && g.unitKey != h.unitKey && x.1.units.any (fun u => y.1.units.contains u)
      | _, _ => false
    offends u (5, 64 * x.1.group)
      ++ offends (x.1.loc == y.1.loc && x.1.shard == y.1.shard && (x.1.unit != y.1.unit || x.1.usplit != y.1.usplit))
          (0xB, x.2)))

/-- ODIG weights (R418). -/
def Plan.odigOffenders (p : Plan) : List Offender :=
  let b := p.section 0x12
  if b.length < 16 || b.length < 16 + 8 * leAt b 0 4 then [(0x12, 0)]
  else
    let us := p.odig.map (·.1)
    us.zipIdx.flatMap (fun x =>
      offends ((us.take x.2).any (fun v => decide (x.1 ≤ v)) || decide (p.hdr.nunit ≤ x.1)) (0x12, 16 + 8 * x.2))

/-- The unit table (R112, R138): it exists, whether or not a unit is named, and its rows hold every unit named; a unit number not
below NUNIT that they reach is no offence (log entry 127). -/
def Plan.unitTableOffenders (p : Plan) (tab : Nat → RegionWords) : List Offender :=
  let named := p.allEntries.flatMap (·.1.units) ++ p.odig.map (·.1)
  let n := p.hdr.unitReg
  let e := tab n
  let need := named.foldl (fun a u => max a (u / 160 + 1)) ((p.hdr.nunit + 159) / 160)
  offends (!e.en || decide (e.cls ≠ .state) || e.place != 0 || e.linkA != n || e.linkB != n || decide (e.rows < need))
    (2, p.regionItem n)

/-- Rows that must not be emitted, and frozen rows that have a slot (R127, R138). -/
def Plan.frozenOffenders (p : Plan) : List Offender :=
  let ruleOf (h row : Nat) : Option (Nat × GroupCfg) := (p.rowGroup h row).bind (fun g => (p.groupCfg? g).map (g, ·))
  p.subsAt.flatMap (fun a =>
    (((p.emissionOf a.sub).getD []).flatMap (fun c => (List.range c.1.nrows).flatMap (fun i =>
        match ruleOf c.1.shard (c.1.frow + i) with
        | some (g, cfg) => offends (cfg.rule == 9 || cfg.rule == 10 || cfg.ukind == 2) (5, 64 * g)
        | none => [])))
      ++ (((p.arrivalOf a.sub).getD []).flatMap (fun c => (List.range c.1.nsec).flatMap (fun i =>
        match ruleOf c.1.shard (c.1.frow + i) with
        | some (g, cfg) => offends (cfg.rule == 10) (5, 64 * g)
        | none => []))))

/-- The entries of the longest commit list of any variant (R330). -/
def Plan.longestList (p : Plan) : Nat :=
  let n (r : SubVariant) : Nat := r.ceN + r.clN
  n p.base + (p.bundles.map (fun b => (b.subs.map n).foldl max 0)).sum

/-- The LAMB and LARS groups of a plan. -/
def Plan.trustGroups (p : Plan) : Nat := (p.groups.filter (fun g => g.cfg.rule == 6 || g.cfg.rule == 7)).length

/-- Where the parts of the plan's largest step log lie: a header of 192 bytes, then the areas (R330; log entry 10). -/
def Plan.logParts (p : Plan) : LogParts :=
  let e := 192
  let u := e + 2 * p.longestList
  let t := u + 16 * p.hdr.nunit
  let m := t + 8 * p.trustGroups
  ⟨e, u, t, m, m + 8 * 4096⟩

/-- The bytes of the plan's largest step log (R330). -/
def Plan.logBytes (p : Plan) : Nat := p.logParts.last

/-- The step log fits in the spare-class region YLOG_REG from row unit YLOG_UNIT (R330; log entry 70). -/
def State.logFits (s : State) (p : Plan) (tab : Nat → RegionWords) : Bool :=
  let e := tab (s.get Reg.YLOG_REG)
  e.en && decide (e.cls = .spare) && decide (1920 * s.get Reg.YLOG_UNIT + p.logBytes ≤ e.size)

/-- Groups, units, commit lists and ODIG weights (R107, R114, R127, R138, R311, R330, R418; log entry 70). A group or shard section
too short for NGROUP or NSHARD is refused here (log entry 127). -/
def State.stage9 (s : State) (p : Plan) (tab : Nat → RegionWords) : List Offender :=
  offends (!s.logFits p tab) (0, 0)
    ++ offends (decide ((p.section 5).length < 64 * p.hdr.ngroup)) (5, 0)
    ++ offends (decide ((p.section 6).length < 64 * p.hdr.nshard)) (6, 0)
    ++ p.groups.zipIdx.flatMap (fun g => offends g.1.cfg.bad (5, 64 * g.2))
    ++ p.subsAt.flatMap (fun a => offends (p.commitOf a.sub).isNone (4, a.off) ++ p.passOffenders a)
    ++ p.allEntries.flatMap (fun e => p.entryOffenders e.1 e.2)
    ++ p.sharedOffenders ++ p.odigOffenders ++ p.unitTableOffenders tab ++ p.frozenOffenders

/-! ### Stage 10 -/

/-- The row units that a d × d FP32 matrix takes (R153). -/
def matrixUnits (d : Nat) : Nat := (4 * d * d + 1919) / 1920

/-- A side is preconditioned (R147). -/
def sideKept (d : Nat) : Bool := decide (d ≤ 8192)

/-- The row units of a layer's factor area (R153). -/
def LayerCfg.factorUnits (c : LayerCfg) : Nat :=
  (if sideKept c.rows then 4 * matrixUnits c.rows else 0) + (if sideKept c.cols then 4 * matrixUnits c.cols else 0)

/-- The row units of a layer's scratch area (R155). -/
def LayerCfg.scratchUnits (c : LayerCfg) : Nat := (2 * c.rows * c.cols + 1919) / 1920

/-- A factor-class region that is enabled. -/
def factorRegion (tab : Nat → RegionWords) (n : Nat) : Bool := (tab n).en && decide ((tab n).cls = .factor)

/-- The factor areas of two layers overlap. -/
def LayerCfg.sharesFactors (c d : LayerCfg) : Bool :=
  c.freg == d.freg && decide (c.frow < d.frow + d.factorUnits) && decide (d.frow < c.frow + c.factorUnits)

/-- A row of coefficient set COEF has a value that is not finite (R146). -/
def Plan.coefBad (p : Plan) (c : LayerCfg) : Bool :=
  let b := p.section 8
  decide (b.length < 192 * (c.coef + 1)) || (List.range (3 * c.niter)).any (fun i =>
    !fpIsFinite (wordOf b (192 * c.coef + 4 * i)))

/-- A layer breaks a condition of R159 of its own: region numbers, areas, and the constants of its rule. -/
def Plan.layerBad (p : Plan) (tab : Nat → RegionWords) (ix : Nat) (c : LayerCfg) : Bool :=
  (c.mrule != 1 && c.mrule != 2)
    || (p.shardCfg? c.shard).isNone || (p.groupCfg? c.group).isNone
    || !factorRegion tab c.sreg || !factorRegion tab c.freg || decide ((tab c.sreg).rows < c.srow + c.scratchUnits)
    || (c.mrule == 1 && (decide (4096 < min c.rows c.cols) || c.niter == 0 || decide (16 < c.niter) || p.coefBad c))
    || (c.mrule == 2 && (decide (65536 < c.rows) || decide (65536 < c.cols) || !(sideKept c.rows || sideKept c.cols)
      || c.nroot == 0 || c.rootint == 0 || decide (c.rootint ≤ c.rootphase) || !fpBeta c.betaf || !fpPositive c.epsf
      || !fpPositive c.rthr || decide ((tab c.freg).rows < c.frow + c.factorUnits)
      || p.layers.zipIdx.any (fun d => d.2 != ix && d.1.cfg.mrule == 2 && c.sharesFactors d.1.cfg)))

/-- A layer's conditions (R159): its own, with its group's descriptor, with its shard's (R423; log entry 69). -/
def Plan.layerOffenders (p : Plan) (tab : Nat → RegionWords) (ix : Nat) (c : LayerCfg) : List Offender :=
  offends (p.layerBad tab ix c) (7, 64 * ix)
    ++ offends ((p.groupCfg? c.group).any (fun g => g.rule != 8 || g.clipen || g.ukind == 2)) (5, 64 * c.group)
    ++ offends ((p.shardCfg? c.shard).any (fun h => h.elems != c.rows * c.cols)) (6, 64 * c.shard)

/-- Every variant with record `a` names the row. -/
def Plan.alwaysNamed (p : Plan) (a : SubAt) (l : RowLoc) : Bool :=
  p.namesRow a.sub l || p.namesRow p.base l
    || p.bundles.zipIdx.any (fun b => b.2 + 1 != a.part && !b.1.subs.isEmpty && b.1.subs.all (fun r => p.namesRow r l))

/-- The layer lists of a record (R159; log entry 70). -/
def Plan.layerListOffenders (p : Plan) (a : SubAt) : List Offender :=
  match p.layersOf a.sub with
  | none => [(4, a.off)]
  | some ls =>
    ls.flatMap (fun x =>
      match p.layers[x.1]? with
      | none => [(0xE, x.2)]
      | some l =>
        offends (p.subsAt.any (fun b => a.meets b && ((p.layersOf b.sub).getD []).any (fun y =>
            y.1 == x.1 && (y.2 != x.2 || b.off != a.off)))) (0xE, x.2)
          ++ offends (!(List.range ((p.shardCfg? l.cfg.shard).map (·.nrows)|>.getD 0)).all (fun i =>
              p.alwaysNamed a (p.shardRow l.cfg.shard i))) (7, 64 * x.1))

/-- Layers (R159; log entry 70). A layer table too short for NLAYER is refused here (log entry 127). -/
def Plan.stage10 (p : Plan) (tab : Nat → RegionWords) : List Offender :=
  offends (decide ((p.section 7).length < 64 * p.hdr.nlayer)) (7, 0)
    ++ p.layers.zipIdx.flatMap (fun l => p.layerOffenders tab l.2 l.1.cfg)
    ++ p.groups.zipIdx.flatMap (fun g => offends (g.1.cfg.rule == 8
        && (p.layers.filter (fun l => l.cfg.group == g.2)).length != 1) (5, 64 * g.2))
    ++ p.subsAt.flatMap p.layerListOffenders

/-! ### Stages 11 to 13 -/

/-- A shard breaks R166 by itself, or R96, R101 and R103. -/
def ShardCfg.bad (h : ShardCfg) : Bool :=
  decide (h.elems ≤ 160 * (h.nrows - 1)) || decide (160 * h.nrows < h.elems) || h.nrows == 0
    || decide (7 < h.fmt) || h.rmode == 3 || ((h.fmt == 6 || h.fmt == 7) && h.rmode != 0)
    || (h.fmt == 6 && (!h.cb.all fp16IsFinite || (h.cb.map fp16Units).eraseDups.length != 4))

/-- Shard descriptors (R29, R166, R423): SREGION and the slot lines of the bound weight region join a region's record. -/
def Plan.stage11 (p : Plan) (tab : Nat → RegionWords) : List Offender :=
  p.shards.zipIdx.flatMap (fun x =>
    let h := x.1.cfg
    let o : Offender := (6, 64 * x.2)
    let st := tab h.sregion
    let wr := tab st.linkB
    offends h.bad o ++ offends (!p.shardPlaced h) (p.regionOr h.sregion o)
      ++ offends (st.linkB != h.sregion && wr.en && wr.slot != (EmFmt.ofCode h.fmt).lines) (p.regionOr st.linkB o))

/-- The seed table (R91). -/
def Plan.stage12 (p : Plan) : List Offender :=
  let b := p.section 9
  if b.length != 512 then [(9, 0)]
  else (List.range 256).flatMap (fun i => offends (decide (leAt b (2 * i) 2 < 0x8000)) (9, 2 * i))

/-- A segment of a curve breaks R135 (log entry 71). TARGET counts among the segments between TARGET and the marker: a marker may not
name another (log entry 127). -/
def segBad (segs : List SchedSeg) (i : Nat) (g : SchedSeg) : Bool :=
  let before := segs.take i
  let t := segs.getD g.target ⟨0, 0, 0, 0, 0, 0⟩
  if g.kind = 7 then false
  else (i == 0 && g.start != 0) || before.any (fun f => f.kind == 7 || decide (g.start ≤ f.start)) || g.kind == 6
    || (g.kind != 0 && g.len == 0)
    || (g.kind == 5 && (decide (i ≤ g.target) || decide (g.start < t.start + g.len)
      || ((segs.take i).drop g.target).any (fun f => f.kind == 5)))

/-- Schedules (R134, R135, R138, R417). -/
def Plan.stage13 (p : Plan) : List Offender :=
  let b := p.section 0xA
  let n := leAt b 0 2
  let head := if p.hdr.sched = 0 then offends (decide (4096 < p.hdr.ngroup)) (5, 0) else []
  if b.length < 64 || n == 0 || decide (4096 < n) || ((b.take 64).drop 2).any (· != 0) then (0xA, 0) :: head
  else
    let items := (List.range n).flatMap (fun i =>
      if p.hdr.sched = 0 then
        let o := 0x40 + 8 * i
        offends (decide (b.length < o + 8) || leAt b (o + 4) 4 == 0 || decide (1048576 < leAt b (o + 4) 4)
          || decide (b.length < leAt b o 4 + 4 * leAt b (o + 4) 4)) (0xA, o)
      else
        let o := 0x40 + 256 * i
        if b.length < o + 256 then [(0xA, o)]
        else
          let segs := curveSegs b i
          offends ((segs.getD 0 ⟨0, 7, 0, 0, 0, 0⟩).kind == 7) (0xA, o)
            ++ segs.zipIdx.flatMap (fun g => offends (segBad segs g.2 g.1) (0xA, o + 16 * g.2)))
    head ++ items ++ p.groups.zipIdx.flatMap (fun g => offends (decide (n ≤ g.1.cfg.schedix)) (5, 64 * g.2))

/-! ### Stage 14 -/

/-- The control tree (R230, R245). -/
def Plan.treeOffenders (p : Plan) : List Offender :=
  let b := p.section 0xF
  let n := wordFld b 0 15 0
  let h := p.hdr
  if b.length < 0x40 || 64 < n || b.length < 0x40 + 2 * n then [(0xF, 0)]
  else
    offends (decide (8192 < h.nblock) || decide (h.nblock ≤ h.blockNo)
        || (p.tree.parent != 0xFFFF && (decide (h.nblock ≤ p.tree.parent) || p.tree.parent == h.blockNo))
        || decide (8192 < p.tree.nexpt) || (p.tree.cmode == 1 && p.tree.nexpt != 0)) (0xF, 0)
      ++ offends (p.tree.cmode == 1 && !p.bundles.isEmpty) (4, 0)
      ++ p.tree.children.zipIdx.flatMap (fun c =>
        offends (decide (h.nblock ≤ c.1) || c.1 == h.blockNo || c.1 == p.tree.parent
          || (p.tree.children.take c.2).any (fun d => decide (c.1 ≤ d))) (0xF, 0x40 + 2 * c.2))

/-- A slot of a record covers row `row` of shard `h`. -/
def Plan.coversRow (p : Plan) (r : SubVariant) (h row : Nat) : Bool :=
  ((p.arrivalOf r).getD []).any (fun c => c.1.shard == h && decide (c.1.frow ≤ row) && decide (row < c.1.frow + c.1.nsec))

/-- The slots of a record (R220, R245): RUNIT joins the row's group, the rows join the shard (R423; log entry 69). -/
def Plan.slotOffenders (p : Plan) (a : SubAt) : List Offender :=
  match p.arrivalOf a.sub with
  | none => [(4, a.off)]
  | some cs => cs.flatMap (fun x =>
      let c := x.1
      match p.shardCfg? c.shard with
      | none => [(0xD, x.2)]
      | some h =>
        let rows := (List.range c.nsec).map (c.frow + ·)
        offends (c.nsec == 0 || decide (204 < c.nsec) || decide (p.hdr.nblock ≤ c.src)
            || rows.any (fun r => p.subsAt.any (fun b => b.part != a.part && p.coversRow b.sub c.shard r))) (0xD, x.2)
          ++ offends (decide (h.nrows < c.frow + c.nsec)) (6, 64 * c.shard)
          ++ rows.flatMap (fun r =>
            match p.rowGroup c.shard r with
            | some n => offends (c.runit != ((p.groupCfg? n).any (fun g => g.ukind == 2)))
                (if n < p.groups.length then (5, 64 * n) else (0xD, x.2))
            | none => offends c.runit (0xD, x.2)))

/-- Rows of rules 0 to 9 in a record's commit segments that no slot of it covers (R245). -/
def Plan.uncovered (p : Plan) (a : SubAt) : Bool :=
  ((p.commitOf a.sub).getD []).any (fun e =>
    match p.groupCfg? e.1.group, p.entryRow e.1 with
    | some g, some r => decide (g.rule ≤ 9) && !p.coversRow a.sub e.1.shard r
    | _, _ => false)

/-- The most rows of a chunk (R235). -/
def EmFmt.chunkRows : EmFmt → Nat
  | .bf16 => 204 | .e4m3 => 397 | .e5m2 => 397 | .e3m2 => 524 | .e2m3 => 524 | .e2m1 => 771 | .q2 => 1456 | .q1 => 2184

/-- The emission entries of a record (R233, R234, R245). -/
def Plan.emissionOffenders (p : Plan) (a : SubAt) : List Offender :=
  match p.emissionOf a.sub with
  | none => [(4, a.off)]
  | some cs => cs.flatMap (fun x =>
      let c := x.1
      let b := p.section 0xC
      let ds := leAt b (x.2 + 8) 4
      let nd := wordFld b ds 7 0
      match p.shardCfg? c.shard with
      | none => [(0xC, x.2)]
      | some h =>
        offends (decide ((EmFmt.ofCode h.fmt).chunkRows < c.nrows) || decide (h.nrows < c.frow + c.nrows)) (6, 64 * c.shard)
          ++ offends (c.nrows == 0 || !(List.range c.nrows).all (fun i => p.namesRow a.sub (p.shardRow c.shard (c.frow + i)))
            || decide (b.length < ds + 1040) || nd == 0 || decide (64 < nd)
            || c.dests.any (fun d => decide (p.hdr.nblock ≤ d.block))) (0xC, x.2))

/-- Degraded slices (R243, R245). -/
def Plan.sliceOffenders (p : Plan) : List Offender :=
  if !p.sections.any (·.typ == 0x10) then []
  else
    let b := p.section 0x10
    offends (decide (b.length < 8) || decide (64 < wordFld b 0 7 0) || decide (b.length < 8 + 8 * wordFld b 0 7 0)) (0x10, 0)

/-- The residency entries that follow the far-shard table (log entry 73). -/
def Plan.residency (p : Plan) : List (Move × Nat) :=
  let b := p.section 0x13
  let o := 16 + 8 * p.far.length
  seg (fun b o => (parseMove b o, o)) b 16 o ((b.length - o) / 16)

/-- The far slots of a far-homed shard: first slot and number. -/
def Plan.farRange (p : Plan) (f : FarShard) : Nat × Nat := (f.slot0, ((p.shardCfg? f.shard).map (·.nrows)).getD 0)

/-- The far tier (R297, R308); the unit table's rows are never moved (R112). -/
def State.farOffenders (s : State) (p : Plan) (tab : Nat → RegionWords) : List Offender :=
  if !p.sections.any (·.typ == 0x13) then []
  else
    let b := p.section 0x13
    let j := tab p.jreg
    let fs := p.far.zipIdx
    offends (decide (b.length < 16 + 8 * p.far.length) || (!p.far.isEmpty && !(s.flag Reg.TEN && s.pins.tierUp))) (0x13, 0)
      ++ offends (!j.en || decide (j.cls ≠ .spare) || decide (j.size < 1920 * p.junit + 65536)) (p.regionOr p.jreg (0x13, 0))
      ++ fs.flatMap (fun x =>
        let (a, n) := p.farRange x.1
        offends (decide (p.shards.length ≤ x.1.shard) || decide (s.get Reg.TIER_SLOTS < a + n)
          || fs.any (fun y =>
            let (c, m) := p.farRange y.1
            y.2 != x.2 && decide (a < c + m) && decide (c < a + n))) (0x13, 16 + 8 * x.2))
      ++ p.residency.flatMap (fun x =>
        let m := x.1
        offends (m.op == 1 && (!p.far.any (fun f =>
              let (a, n) := p.farRange f
              decide (a ≤ m.fslot) && decide (m.fslot + m.nrows ≤ a + n))
            || !(List.range 64).any (fun k =>
              let e := tab k
              k != p.hdr.unitReg && e.en && decide (e.cls = .state) && e.grants .tier false && e.grants .tier true && e.names m.loc
                && e.names { m.loc with row := m.loc.row + (m.nrows - 1) }))) (0x13, x.2))

/-- Record selection (R315). -/
def Plan.recOffenders (p : Plan) (tab : Nat → RegionWords) : List Offender :=
  let b := p.section 0x14
  let rs := seg (fun b o => (parseRec b o, o)) b 16 0 (b.length / 16)
  let state := ((List.range 64).map (fun k => if (tab k).en && decide ((tab k).cls = .state) then (tab k).rows else 0)).sum
  offends (decide (state / 100 < (rs.map (·.1.nrows)).sum)) (0x14, 0)
    ++ rs.flatMap (fun x =>
      let e := tab x.1.dreg
      offends (!e.en || decide (e.cls ≠ .spare) || decide (e.rows < x.1.dunit + 2 * x.1.nrows))
        (p.regionOr x.1.dreg (0x14, x.2)))

/-- Emission, arrival, tree, topology, far tier and record sections (R245, R308, R315). -/
def State.stage14 (s : State) (p : Plan) (tab : Nat → RegionWords) : List Offender :=
  p.treeOffenders
    ++ p.subsAt.flatMap (fun a => p.slotOffenders a ++ offends (p.uncovered a) (4, a.off) ++ p.emissionOffenders a)
    ++ p.sliceOffenders ++ s.farOffenders p tab ++ p.recOffenders tab

end Sys2Proof.Machine
end

