-- ==== Sys2Proof/Machine/CodeCheck.lean ====
section
/-! DEFINITION. The load checks on the code section: encodings, targets, paths, calls and rising q (stage 5, R187), and the
step-constant rule (stage 6, R174 to R176, R189). -/

namespace Sys2Proof.Machine

/-! ### Operands and tags -/

/-- The tag an instruction writes (R189): constant; inherited from what it reads; data; none written. -/
inductive Tag where
  | c | i | d | none
  deriving DecidableEq, Repr

/-- What an instruction does with registers, as masks over s0 to s15 (bits 0 to 15), a0 to a7 (16 to 23) and p0 to p7 (24 to
31): what its result inherits from, what must be constant (R175), what it writes. -/
structure SarUse where
  pred   : Pred
  reads  : Nat
  strict : Nat
  dest   : Nat
  tag    : Tag
  deriving DecidableEq, Repr

/-- Mask of an s register. -/
def sBit (r : BitVec 4) : Nat := 2 ^ r.toNat
/-- Mask of an a register. -/
def aBit (r : BitVec 3) : Nat := 2 ^ (16 + r.toNat)
/-- Mask of a p register; p0 is constant always (R196). -/
def pBit (r : BitVec 3) : Nat := if r = 0 then 0 else 2 ^ (24 + r.toNat)

/-- The registers and tags of each Sarenina instruction (R189, R192 to R209); none for other commands. -/
def sarUse : Instr → Option SarUse
  | .nop p | .ret p | .stepend p | .openStep p | .sealStep p | .commit p | .cdone p | .lwait p | .twait p => some ⟨p, 0, 0, 0, .none⟩
  | .br p _ | .call p _ | .cwait p _ => some ⟨p, 0, 0, 0, .none⟩
  | .jt p ra _ => some ⟨p, 0, sBit ra, 0, .none⟩
  | .loop p ra _ => some ⟨p, 0, sBit ra, 0, .none⟩
  | .li p rd _ => some ⟨p, 0, 0, sBit rd, .c⟩
  | .lhi p rd _ => some ⟨p, sBit rd, 0, sBit rd, .i⟩
  | .mov p rd ra => some ⟨p, sBit ra, 0, sBit rd, .i⟩
  | .add p rd ra rb | .sub p rd ra rb | .mul p rd ra rb | .and p rd ra rb | .or p rd ra rb | .xor p rd ra rb
  | .shl p rd ra rb | .shr p rd ra rb | .dmix p rd ra rb => some ⟨p, sBit ra ||| sBit rb, 0, sBit rd, .i⟩
  | .addi p rd ra _ | .shli p rd ra _ | .shri p rd ra _ => some ⟨p, sBit ra, 0, sBit rd, .i⟩
  | .cmpeq p pd ra rb | .cmpne p pd ra rb | .cmplt p pd ra rb | .cmple p pd ra rb | .cmpltu p pd ra rb
  | .cmpleu p pd ra rb => some ⟨p, sBit ra ||| sBit rb, 0, pBit pd, .i⟩
  | .cmpeqi p pd ra _ | .cmpltui p pd ra _ => some ⟨p, sBit ra, 0, pBit pd, .i⟩
  | .pand p pd pa pb | .por p pd pa pb => some ⟨p, pBit pa ||| pBit pb, 0, pBit pd, .i⟩
  | .pnot p pd pa => some ⟨p, pBit pa, 0, pBit pd, .i⟩
  | .pmov p rd pa => some ⟨p, pBit pa, 0, sBit rd, .i⟩
  | .rdk p rd _ | .vdig p rd _ => some ⟨p, 0, 0, sBit rd, .c⟩
  | .lia p ad _ | .sect p ad _ => some ⟨p, 0, 0, aBit ad, .c⟩
  | .addai p ad ar _ => some ⟨p, aBit ar, 0, aBit ad, .i⟩
  | .adda p ad ar rb => some ⟨p, aBit ar ||| sBit rb, sBit rb, aBit ad, .i⟩
  | .mova p rd ar => some ⟨p, aBit ar, 0, sBit rd, .i⟩
  | .ld p rd _ _ _ | .rcr p rd _ | .frd p rd _ | .hsh p rd _ _ | .odig p rd => some ⟨p, 0, 0, sBit rd, .d⟩
  | .ldc p rd _ _ _ => some ⟨p, 0, 0, sBit rd, .c⟩
  | .st p _ _ _ _ | .aadd p _ _ _ | .aaddf p _ _ _ | .wcr p _ _ | .cset p _ _ | .coll p _ _ | .tmov p _ _
  | .recArm p _ _ => some ⟨p, 0, 0, 0, .none⟩
  | .bsutab p ra _ => some ⟨p, 0, sBit ra, 0, .none⟩
  | .bsust p rd ra => some ⟨p, 0, sBit ra, sBit rd, .d⟩
  | .fclr p ra _ => some ⟨p, 0, sBit ra, 0, .none⟩
  | _ => none

/-- The instruction has a predicate that may be false. -/
def SarUse.guarded (u : SarUse) : Bool := u.pred.pr != 0

/-- The instruction presents data to a use that R175 forbids. -/
def SarUse.forbidden (u : SarUse) (tags : Nat) : Bool := (tags &&& (u.strict ||| pBit u.pred.pr)) != 0

/-- The tags after the instruction: a guarded one may leave its destination as it was. -/
def SarUse.tagsAfter (u : SarUse) (tags : Nat) : Nat :=
  let kept := if u.guarded then tags else tags - (tags &&& u.dest)
  match u.tag with
  | .c => kept
  | .i => if (tags &&& u.reads) = 0 then kept else tags ||| u.dest
  | .d => tags ||| u.dest
  | .none => tags

/-! ### Control flow -/

/-- The code section, each word as the decoder reads it. -/
abbrev CodeWords := List (Option Instr)

/-- The code of a plan. -/
def Plan.code (p : Plan) : CodeWords :=
  let b := p.section 1
  (List.range (b.length / 8)).map (fun i => sarDecode (BitVec.ofNat 64 (leAt b (8 * i) 8)))

/-- The instruction at index i, none past the end. -/
def CodeWords.ins (code : CodeWords) (i : Nat) : Option Instr := (code[i]?).bind id

/-- Where an instruction at index i can go next within its routine, calls apart (R192). -/
def sarSucc (i : Nat) (x : Instr) : List Nat :=
  let guarded := ((sarUse x).map SarUse.guarded).getD false
  match x with
  | .br _ t => t.toNat :: (if guarded then [i + 1] else [])
  | .jt _ _ n => (List.range (n.toNat + 1)).map (i + 1 + ·)
  | .loop _ _ t => [t.toNat, i + 1]
  | .call _ _ | .ret _ | .stepend _ => if guarded then [i + 1] else []
  | _ => [i + 1]

/-- The routine that a call enters. -/
def sarCallee : Instr → Option Nat
  | .call _ t => some t.toNat
  | _ => none

/-- A return. -/
def sarIsRet : Instr → Bool
  | .ret _ => true
  | _ => false

/-- A plain forward analysis: values at indices, joined until nothing changes. -/
def flow (step : Nat → Nat → List (Nat × Nat)) (join : Nat → Nat → Nat) :
    Nat → List (Nat × Nat) → List (Nat × Nat) → List (Nat × Nat)
  | 0, _, m => m
  | _ + 1, [], m => m
  | n + 1, (i, v) :: work, m =>
    match sparseFind m i with
    | none => flow step join n (step i v ++ work) ((i, v) :: m)
    | some o =>
      if join o v = o then flow step join n work m
      else flow step join n (step i (join o v) ++ work) ((i, join o v) :: m.filter (·.1 != i))

/-- Rounds enough for every analysis of a code section. -/
def flowFuel : Nat := 2 ^ 64

/-- Where an instruction goes within its routine, past calls to the routines `rets` that return. -/
def CodeWords.next (c : CodeWords) (rets : List Nat) (i : Nat) : List Nat :=
  match c.ins i with
  | none => []
  | some x =>
    sarSucc i x ++ (match sarCallee x with
      | some t => if rets.contains t then [i + 1] else []
      | none => [])

/-- The indices that a routine reaches without entering its callees. -/
def CodeWords.body (c : CodeWords) (rets : List Nat) (f : Nat) : List Nat :=
  (flow (fun i _ => (c.next rets i).map (·, 0)) (fun a _ => a) flowFuel [(f, 0)] []).map (·.1)

/-- A routine returns: it reaches a ret. -/
def CodeWords.returns (c : CodeWords) (rets : List Nat) (f : Nat) : Bool :=
  (c.body rets f).any (fun i => ((c.ins i).map sarIsRet).getD false)

/-- The call targets of the section. -/
def CodeWords.routines (c : CodeWords) : List Nat := (c.filterMap (fun x => x.bind sarCallee)).eraseDups

/-- The routines that return, found in rounds. -/
def CodeWords.returning (c : CodeWords) : Nat → List Nat → List Nat
  | 0, r => r
  | n + 1, r =>
    let r' := c.routines.filter (c.returns r)
    if r'.length = r.length then r else c.returning n r'

/-- The calls that the routine at `f` reaches: index and target. -/
def CodeWords.calls (c : CodeWords) (rets : List Nat) (f : Nat) : List (Nat × Nat) :=
  (c.body rets f).filterMap (fun i => (c.ins i).bind (fun x => (sarCallee x).map (i, ·)))

/-- The routines reached from `f`, itself among them. -/
def CodeWords.reached (c : CodeWords) (rets : List Nat) (f : Nat) : List Nat :=
  (flow (fun g _ => (c.calls rets g).map (fun x => (x.2, 0))) (fun a _ => a) flowFuel [(f, 0)] []).map (·.1)

/-! ### Stage 5 -/

/-- A branch that is always taken: what a jump table is made of (R187). -/
def plainBr (x : Option Instr) : Bool :=
  match x with
  | some (.br p _) => p.pr == 0
  | _ => false

/-- A target is below the instruction count. -/
def targetBad (n : Nat) (t : Word) : Bool := decide (n ≤ t.toNat)

/-- The instruction at index i breaks a condition of its own (R187, R196, R198). -/
def Plan.insBad (p : Plan) (c : CodeWords) (i : Nat) : Bool :=
  match c.ins i with
  | none => true
  | some x =>
    match x with
    | .br _ t | .call _ t | .loop _ _ t => targetBad c.length t
    | .jt _ _ n => !(List.range n.toNat).all (fun k => plainBr (c.ins (i + 1 + k)))
    | .vdig _ _ b => decide (p.bundles.length ≤ b.toNat)
    | .sect _ _ t => !p.sections.any (·.typ == t.toNat)
    | _ => false

/-- q + 1 of a coll, 0 for any other instruction. -/
def collKey (x : Option Instr) : Nat :=
  match x with
  | some (.coll _ _ q) => q.toNat + 1
  | _ => 0

/-- The largest q + 1 on a path from a routine's entry to each index it reaches, given what its callees add. -/
def CodeWords.qBody (c : CodeWords) (rets : List Nat) (summ : List (Nat × Nat)) (f : Nat) : List (Nat × Nat) :=
  flow (fun i v =>
    match c.ins i with
    | none => []
    | some x =>
      let v' := max v (collKey (some x))
      (sarSucc i x).map (·, v') ++ (match sarCallee x with
        | some t => if rets.contains t then [(i + 1, max v' ((sparseFind summ t).getD 0))] else []
        | none => [])) max flowFuel [(f, 0)] []

/-- What each routine adds on a path to one of its returns, found in rounds. -/
def CodeWords.qSummary (c : CodeWords) (rets : List Nat) : Nat → List (Nat × Nat) → List (Nat × Nat)
  | 0, s => s
  | n + 1, s =>
    let s' := rets.map (fun f => (f, ((c.qBody rets s f).filter (fun x => ((c.ins x.1).map sarIsRet).getD false)).foldl
      (fun a x => max a x.2) 0))
    if s' = s then s else c.qSummary rets n s'

/-- The largest q + 1 on any path to the entry of each routine reached. -/
def CodeWords.qEntry (c : CodeWords) (rets : List Nat) (summ : List (Nat × Nat)) (entry : Nat) : List (Nat × Nat) :=
  flow (fun f v => (c.qBody rets summ f).filterMap (fun x =>
    (c.ins x.1).bind (fun y => (sarCallee y).map (·, max v x.2)))) max flowFuel [(entry, 0)] []

/-- The instructions that break a condition on paths or calls (R187), of those that some path from `entry` reaches: the last one on a
fall-through, the calls on a cycle, each coll whose q does not exceed an earlier one's. -/
def CodeWords.pathOffenders (c : CodeWords) (entry : Nat) : List Nat :=
  let n := c.length
  let rets := c.returning (n + 1) []
  let fs := c.reached rets entry
  let fall := (fs.flatMap (c.body rets)).any (fun i => decide (i < n) && (c.next rets i).any (fun j => decide (n ≤ j)))
  let cycles := fs.flatMap (fun f => (c.calls rets f).filterMap (fun x =>
    if (c.reached rets x.2).contains f then some x.1 else none))
  let summ := c.qSummary rets flowFuel []
  let qs := (c.qEntry rets summ entry).flatMap (fun f => (c.qBody rets summ f.1).filterMap (fun x =>
    let k := collKey (c.ins x.1)
    if k != 0 && decide (k ≤ max f.2 x.2) then some x.1 else none))
  (if fall then [n - 1] else []) ++ cycles ++ qs

/-- The offending instructions of stage 5 (R177, R187): a section that is not whole instructions or too long offends at the first
index past what it may hold; conditions of single instructions; conditions on paths. -/
def Plan.codeOffenders (p : Plan) : List Nat :=
  let c := p.code
  let n := c.length
  let entry := p.hdr.stepEntry
  (if (p.section 1).length % 8 != 0 || decide (2097152 < n) then [min n 2097152] else [])
    ++ (List.range n).filter (p.insBad c)
    ++ (if n ≤ entry then [entry] else c.pathOffenders entry)

/-- Stage 5 (log entry 72). -/
def Plan.stage5 (p : Plan) : List Offender := p.codeOffenders.map (1, ·)

/-! ### Stage 6 -/

/-- The tags that reach the indices of the routine at `f`, entered with `tags`: what its returns carry back, and the
instructions that use data where R175 forbids it. Each call site is followed with the tags that reach it (R176). -/
def CodeWords.tagRun (c : CodeWords) (rets : List Nat) : Nat → Nat → Nat → Nat × List Nat
  | 0, _, tags => (tags, [])
  | k + 1, f, tags =>
    let after (i v : Nat) : Nat := (((c.ins i).bind sarUse).map (fun u => u.tagsAfter v)).getD v
    let m := flow (fun i v =>
      match c.ins i with
      | none => []
      | some x =>
        (sarSucc i x).map (·, after i v) ++ (match sarCallee x with
          | some t => if rets.contains t then [(i + 1, (c.tagRun rets k t (after i v)).1)] else []
          | none => [])) (· ||| ·) flowFuel [(f, tags)] []
    (m.foldl (fun a x => if ((c.ins x.1).map sarIsRet).getD false then a ||| x.2 else a) 0,
      m.flatMap (fun x =>
        (if (((c.ins x.1).bind sarUse).map (fun u => u.forbidden x.2)).getD false then [x.1] else [])
          ++ (match (c.ins x.1).bind sarCallee with
            | some t => (c.tagRun rets k t (after x.1 x.2)).2
            | none => [])))

/-- Stage 6: every register is constant at GO (R172). The check runs over the whole section: an instruction that no path from
STEP_ENTRY reaches is followed as if it were entered with every register constant (log entry 72). -/
def Plan.stage6 (p : Plan) : List Offender :=
  let c := p.code
  let rets := c.returning (c.length + 1) []
  let seen := (c.reached rets p.hdr.stepEntry).flatMap (c.body rets)
  (p.hdr.stepEntry :: (List.range c.length).filter (fun i => !seen.contains i)).flatMap (fun f =>
    ((c.tagRun rets (c.length + 1) f 0).2).map (1, ·))

end Sys2Proof.Machine
end

