-- ==== Sys2Proof/Machine/Steps.lean ====
section
/-! DEFINITION. The step as a whole: changing parts of the plan and the step, the watched waits (R76), the trap (R181), what
holds a GO back (R50), and the lists that a GO starts the step with (R52, R171, R172, R221). -/

namespace Sys2Proof.Machine

/-! ### Changing parts of the state -/

/-- Change the loaded plan. -/
def State.modPlan (s : State) (f : Plan → Plan) : State := { s with plan := { s.plan with plan := s.plan.plan.map f } }

/-- Put a word into a descriptor (log entry 57). -/
def putWordAt (b : List Byte) (off : Nat) (w : Nat) : List Byte := spliceBytes b off (leBytes 4 w)

/-- A group descriptor with its block-set fields as they stand (R110). -/
def Group.patch (g : Group) (b : List Byte) : List Byte :=
  let w := leAt b 0 4
  let w := w - bits w 3 1 * 2 + (g.flags.invalid.toNat * 8 + g.flags.overflow.toNat * 4 + g.flags.flushed.toNat * 2)
  putWordAt (putWordAt (putWordAt (putWordAt b 0 w) 0x30 g.eta.toNat) 0x34 g.clip.toNat) 0x38 g.trustv.toNat

/-- A shard descriptor with its block-set fields as they stand (R103). -/
def Shard.patch (h : Shard) (b : List Byte) : List Byte :=
  let w := leAt b 0 4
  let w := w % 2 ^ 16 - bits w 9 9 * 2 ^ 9 + h.nonfin.toNat * 2 ^ 9 + twos 8 h.xexp * 2 ^ 16 + h.satcnt % 256 * 2 ^ 24
  putWordAt (putWordAt (putWordAt b 0 w) 0x10 h.amax.toNat) 0x14 h.amaxLast.toNat

/-- A layer descriptor with its block-set fields as they stand (R141). -/
def Layer.patch (l : Layer) (b : List Byte) : List Byte :=
  let w := l.dstate * 2 ^ 30 + l.fsel.toNat * 2 ^ 29 + l.rselL.toNat * 2 ^ 28 + l.rselR.toNat * 2 ^ 27 + l.okL.toNat * 2 ^ 26
    + l.okR.toNat * 2 ^ 25 + l.rootfb.toNat * 2 ^ 24 + l.zerog.toNat * 2 ^ 23
  putWordAt (putWordAt (putWordAt (putWordAt b 0x30 w) 0x34 l.dstep) 0x38 l.residL.toNat) 0x3C l.residR.toNat

/-- Write the block-set fields of descriptor `i` of section `t` into the loaded image (R163), written through before whatever
follows (R331); a descriptor line that cannot be read keeps its bytes (log entry 57). -/
def State.patchImage (s : State) (t i : Nat) (f : List Byte → List Byte) : State :=
  match s.plan.plan with
  | none => s
  | some p =>
    let x := (s.regionWords p.region).lineAt (p.sectionOff t + 64 * i)
    match (s.lineVal x).bytes? with
    | some b => if f b = b then s else ((s.chargeWrites 11 [x]).writeLine .other .through x (f b) fullMask).2
    | none => s

/-- Change a group of the loaded plan, its descriptor in the image with it. -/
def State.modGroup (s : State) (g : Nat) (f : Group → Group) : State :=
  let s := s.modPlan (fun p => { p with groups := modAt p.groups g f })
  match s.plan.plan.bind (fun p => p.groups[g]?) with
  | some x => s.patchImage 5 g x.patch
  | none => s

/-- Change a shard of the loaded plan, its descriptor in the image with it. -/
def State.modShard (s : State) (h : Nat) (f : Shard → Shard) : State :=
  let s := s.modPlan (fun p => { p with shards := modAt p.shards h f })
  match s.plan.plan.bind (fun p => p.shards[h]?) with
  | some x => s.patchImage 6 h x.patch
  | none => s

/-- Change a layer of the loaded plan, its descriptor in the image with it. -/
def State.modLayer (s : State) (l : Nat) (f : Layer → Layer) : State :=
  let s := s.modPlan (fun p => { p with layers := modAt p.layers l f })
  match s.plan.plan.bind (fun p => p.layers[l]?) with
  | some x => s.patchImage 7 l x.patch
  | none => s

/-- Write every block-set field of the loaded plan into its image (R163). -/
def State.patchAll (s : State) : State :=
  match s.plan.plan with
  | none => s
  | some p =>
    let s := (List.range p.groups.length).foldl (fun s g => s.modGroup g id) s
    let s := (List.range p.shards.length).foldl (fun s h => s.modShard h id) s
    (List.range p.layers.length).foldl (fun s l => s.modLayer l id) s

/-- Change the sequencer. -/
def State.modSeq (s : State) (f : Seq → Seq) : State := { s with seq := f s.seq }

/-- Change the local seal record. -/
def State.modSeal (s : State) (f : LocalSeal → LocalSeal) : State :=
  s.modStep (fun t => { t with lseal := f t.lseal })

/-- Change the exchange. -/
def State.modExch (s : State) (f : Exchange → Exchange) : State := { s with exch := f s.exch }

/-- Change the step log, if there is one. -/
def State.modLog (s : State) (f : StepLog → StepLog) : State := { s with log := s.log.map f }

/-- OR flags into a group of the loaded plan (R90). -/
def State.orFlags (s : State) (g : Nat) (f : Flags) : State := s.modGroup g (fun x => { x with flags := x.flags.or f })

/-- A group's plan-set fields; a group that the plan does not hold has all of them zero. -/
def State.groupCfg (s : State) (g : Nat) : GroupCfg :=
  match s.plan.plan with
  | some p => (p.groupCfg? g).getD (parseGroup [] 0)
  | none => parseGroup [] 0

/-- The seed table of the loaded plan (R91). -/
def State.seedTable (s : State) : List Byte := (s.plan.plan.map (·.seedTable)).getD []

/-! ### BSU status -/

/-- A seed table as a BSU accepts it: 512 bytes, bit 15 set in every entry (R91, R277). -/
def seedOk (b : List Byte) : Bool := b.length == 512 && (List.range 256).all (fun i => decide (0x8000 ≤ leAt b (2 * i) 2))

/-- The status word of BSU (d, c, k), REMAPV for bank 2k + sb (R277). -/
def State.bsuStatus (s : State) (d c k sb : Nat) : Nat :=
  let b := s.bsu d c k
  let ents := if sb = 0 then b.remap else b.remapHi
  s.get (Reg.PXB_REV d) * 2 ^ 56 + (s.inService d).toNat * 2 ^ 55 + (s.pairHeld d c k).toNat * 2 ^ 54 + b.res.toNat * 2 ^ 53
    + b.tout.toNat * 2 ^ 52 + b.ue.toNat * 2 ^ 51 + b.xref.toNat * 2 ^ 50 + (seedOk b.seed).toNat * 2 ^ 49
    + b.bistDone.toNat * 2 ^ 48 + b.bistPass.toNat * 2 ^ 47 + b.corr % 256 * 2 ^ 32
    + (ents.filter (·.getLsbD 31)).length * 2 ^ 28

/-- Clear the sticky bits of a BSU (R277). -/
def Bsu.clearSticky (b : Bsu) : Bsu := { b with res := false, tout := false, ue := false, xref := false, corr := 0 }

/-- The result sector of a BSU whose tables the block loads: it reads as zeros afterwards (R331); the flags of a result that was
still held are kept for Yarrow (R333; log entry 125). -/
def Bsu.afterLoad (b : Bsu) : Bsu :=
  { b with held := b.held.or ((b.result.map (·.flags)).getD Flags.clear), result := some RowResult.zero }

/-- A TBLD sequence of the block's own on BSU (d, c, k) (R270, R271, R278, R285), which changes the unit by `f`; `n` sectors go to the
device, and the result is read at its bound (R279). -/
def State.tbldSeq (s : State) (d c k n : Nat) (f : Bsu → Bsu) : State :=
  let s := (s.openSeq ⟨d, c, 2 * k, 0⟩ 0 1 1 200 none).charge 15 1 n 1
  s.setBsu d c k (f (s.bsu d c k).afterLoad)

/-- Load the seed table into the 32 BSUs of a device (R206, R270). -/
def State.loadSeed (s : State) (d : Nat) (table : List Byte) : State :=
  (List.range 32).foldl (fun s i => s.tbldSeq d (i / 8) (i % 8) 16 (fun b => { b with seed := table })) s

/-! ### Watched waits -/

/-- A watched wait of one entry, chunk or verdict begins, if it is not under way (R76). -/
def State.beginWait (s : State) (w : Watch) (key : Nat) : State :=
  if s.waits.any (fun x => x.watch == w && x.key == key) then s
  else { s with waits := s.waits ++ [⟨w, key, s.clock.time, false⟩] }

/-- The waits that are left when those that satisfy `p` end; STALLED shows whether some wait past its limit goes on (R76). -/
def State.dropWaits (s : State) (p : Waiting → Bool) : State :=
  let ws := s.waits.filter (fun x => !p x)
  { s with waits := ws }.setFlag Reg.STALLED (ws.any (·.marked))

/-- A watched wait ends (R76). -/
def State.endWait (s : State) (w : Watch) (key : Nat) : State := s.dropWaits (fun x => x.watch == w && x.key == key)

/-! ### Traps -/

/-- The trap (R181): the sequencer stops, the hold is entered, the trap registers are written, the event is logged under a
class that the manual does not give (log entry 17), and PX_IRQ[2] is raised (log entry 36). -/
def State.trap (s : State) (cause info : Nat) : State :=
  let s := s.modSeq (fun q => { q with running := false, trapped := true, wait := none })
  let s := ((s.set Reg.TRAP_CAUSE cause).set Reg.TRAP_PC s.seq.pc).set Reg.TRAP_INFO info
  let s := (s.set Reg.LSTATE 4).holdFor 0x0A
  let (c, s) := s.free
  (s.log_ (openClass c) .sequencer (ErrInfo.plain info)).raise 2

/-! ### What holds a GO back -/

/-- A swap stands at or past its step (R183). -/
def State.swapDue (s : State) : Bool :=
  s.atBoundary && (s.plan.pend.isSome || s.plan.load.any (·.swap))
    && decide (s.get64 Reg.SWAP_STEP_LO Reg.SWAP_STEP_HI ≤ s.stepS)

/-- Lasting lines, declared while AUTOREMAP was set, wait to be remapped (R326, R406). -/
def State.remapDue (s : State) : Bool := !s.fault.lasting.isEmpty

/-- What must end before a GO is acted on (R50, R228, R309, R317, R334, R362, R375). -/
def State.goBlocked (s : State) : Bool :=
  s.exch.cnt.isSome || s.req.x.isSome || s.req.r.isSome || s.req.st.isSome || !s.req.repairs.isEmpty || s.remapDue
    || s.req.power.isSome || s.swapDue || s.flag Reg.BRK_HIT || s.yarrow.reemit.isSome

/-- The conditions on which a GO is taken at all: Run, a step boundary, a plan, no trap, not in Harebell (R52, R347,
R397; log entry 34). A GO written while an earlier one is still held at the boundary is ignored and sets GO_REFUSED (log entry 33). -/
def State.goTaken (s : State) : Bool :=
  s.inRun && s.atBoundary && s.planLoaded && !s.trapped && !s.harebell && !s.step.goHeld

/-! ### The lists of a step -/

/-- Where a pool index puts a row's sector and its weight slot (R28, R30). -/
structure PoolPlace where
  red  : RowLoc
  g16w : Bool
  sect : Nat
  wloc : RowLoc
  slot : Nat
  deriving DecidableEq, Repr

/-- The sector and the slot that pool index `pool` gives the state row at `l` under format `f`. -/
def State.poolPlace (s : State) (l : RowLoc) (pool : Nat) (f : EmFmt) : PoolPlace :=
  let st := s.regionWords ((s.regionOf l).getD 0)
  let red := s.regionWords st.linkA
  let wr := s.regionWords st.linkB
  let per := if red.g16w then 3 else 6
  let slots := 30 / f.lines
  { red := l.at (partnerBank l.bank) (red.firstrow + pool / per)
    g16w := red.g16w
    sect := pool % per
    wloc := l.at (partnerBank l.bank) (wr.firstrow + pool / slots)
    slot := pool % slots }

/-- The state rows in the range of a slot that the commit list names (R221). -/
def Plan.slotRows (p : Plan) (commit : List CommitEntry) (x : SlotEntry) : List RowLoc :=
  ((List.range x.nsec).map (fun i => p.shardRow x.shard (x.frow + i))).filter (fun l => commit.any (·.loc == l))

/-- The pairs of which no later one has the same row. -/
def lastPairs : List (RowLoc × Nat) → List (RowLoc × Nat)
  | [] => []
  | x :: t => if t.any (·.1 == x.1) then lastPairs t else x :: lastPairs t

/-- The touched sectors in sector-close order (R221). -/
def Plan.buildSectors (p : Plan) (commit : List CommitEntry) (slots : List SlotEntry) : List SectorSt :=
  let cover := slots.zipIdx.flatMap (fun x => (p.slotRows commit x.1).map (fun l => (l, x.2)))
  (lastPairs cover).map (fun x =>
    let e := (commit.find? (·.loc == x.1)).getD ⟨x.1, 0, 0, 0, 0, 0, 0, 0⟩
    { loc := x.1, pool := e.pool, group := e.group, npar := e.npar, slots := (cover.filter (·.1 == x.1)).map (·.2),
      closed := false, summary := none, folded := false, mask := 0 })

/-- A group's rows take row units (R130). -/
def Plan.rowUnits (p : Plan) (g : Nat) : Bool := (((p.groups[g]?).map (·.cfg.ukind)).getD 0) == 2

/-- A commit-list entry at the start of its step (R130). -/
def Plan.entrySt (p : Plan) (e : CommitEntry) : EntrySt where
  e := e
  st := .waiting
  mask := if p.rowUnits e.group then 0 else 31
  epoch0 := none
  result := none
  folded := false
  recorded := false
  csuPhase := 0
  consts := 0
  operand := 0
  prow := 0
  saved := []
  late := false

/-- The step that a variant gives (R171), under a latched header. -/
def Plan.startLists (p : Plan) (h : StepHeader) (posts : List Nat) : StepState :=
  let rs := p.records h.v
  let commit := p.commitList rs
  let slots := p.arrivalList rs
  { StepState.empty with
    hdr := h
    entries := commit.map p.entrySt
    chunks := (p.emissionList rs).map (fun c => ⟨c, none, false, []⟩)
    slots := slots.map (fun x => ⟨x, .open_, []⟩)
    sectors := p.buildSectors commit slots
    layers := ((p.layerList rs).filter (fun i => (p.layers[i]?).any (fun l => commit.any (·.shard == l.cfg.shard)))).map
      (fun i => ⟨i, .waiting, false, false, false, false, false⟩)
    posts := posts }

/-- The step header as the registers hold it: V, LSE and SEED (R51; log entry 33). -/
def State.latchHeader (s : State) : State :=
  s.modStep (fun t => { t with hdr := { t.hdr with
    v := s.get64 Reg.VARIANT_LO Reg.VARIANT_HI
    lse := ofTwos 8 (s.get Reg.LSE)
    seed := s.get64 Reg.SEED_LO Reg.SEED_HI } })

/-- The step begins: its lists, the sequencer at STEP_ENTRY (R172), PHASE 1, REASON clear, stamp 0; Idle ends (R345;
log entry 33). -/
def State.startStep (s : State) : State :=
  match s.plan.plan with
  | none => s
  | some p =>
    let h := { s.step.hdr with s := s.stepS, g := s.stepG }
    let s : State := { s with
      step := p.startLists h s.step.posts
      seq := { Seq.idle with running := true, pc := p.hdr.stepEntry }
      icache := { s.icache with miss := none }
      tier := { s.tier with tmovs := 0 } }
    let s := s.modPlan (fun p => { p with shards := p.shards.map (fun h => { h with stepSat := 0, touched := false }) })
    let s := (((s.set Reg.PHASE 1).set Reg.REASON 0).set Reg.RECROWS 0).stamp 0
    if s.get Reg.PSTATE = 1 then (s.set Reg.PSTATE 0).setFlag Reg.LE_ON true else s

/-- GO (R52): the header is latched; the step begins now, or when what holds the GO back has ended; a GO that may not be
taken sets GO_REFUSED (log entry 33). -/
def State.takeGo (s : State) : State :=
  if s.goTaken then
    let s := s.latchHeader
    if s.goBlocked then s.modStep (fun t => { t with goHeld := true }) else s.startStep
  else s.setFlag Reg.GO_REFUSED true

/-! ### Where rows of the step stand -/

/-- An entry has ended: at rest, left unchanged, or needing no pass. -/
def EntrySt.ended (e : EntrySt) : Bool := e.st == .atRest || e.st == .unchanged

/-- Every commit-list entry has ended. -/
def StepState.rowsEnded (t : StepState) : Bool := t.entries.all EntrySt.ended

/-- All layer work has been handed off or abandoned. -/
def StepState.layersEnded (t : StepState) : Bool := t.layers.all (fun l => l.st == .sectors || l.st == .abandoned)

/-- A single or apply pass of the row has ended on some committed block. -/
def StepState.rowCommitted (t : StepState) (l : RowLoc) : Bool :=
  t.entries.any (fun e => e.e.loc == l && e.st == .atRest && e.e.pass != 1 && e.mask % 32 != 0)

/-- Rows moved in become due to move out: at the skip verdict, at the commit verdict a row without entries, else when the
row's last entry has ended (R301). -/
def State.settleMoved (s : State) : State :=
  let due (r : MovedRow) : Bool := r.st == .near
    && (s.seq.sealV == 2 || (s.seq.sealV == 1 && s.step.entries.all (fun e => e.e.loc != r.loc || e.ended)))
  { s with tier := { s.tier with
    moved := s.tier.moved.map (fun r => if due r then
      { r with st := .due, committed := s.seq.sealV == 1 && s.step.rowCommitted r.loc } else r)
    dueQ := s.tier.dueQ ++ (s.tier.moved.filter due).map (·.loc) } }

/-- PHASE 5 once every commit-list entry and all layer work have ended (R51). -/
def State.maybeEmission (s : State) : State :=
  if s.get Reg.PHASE = 4 && s.seq.commitRun && s.step.rowsEnded && s.step.layersEnded then s.set Reg.PHASE 5 else s

end Sys2Proof.Machine
end

