-- ==== Sys2Proof/Machine/Log.lean ====
section
/-! DEFINITION. Bytes of a region, and the step log in device memory (R330 to R332): its layout, its writes, each written through
before the block goes on (R331), and how the block finds it again. -/

namespace Sys2Proof.Machine

/-! ### Bytes of a region -/

/-- The lines that `bs` at dense offset `off` falls into: line, data, byte mask. -/
def lineWrites (e : RegionWords) (off : Nat) (bs : List Byte) : List (LineLoc × List Byte × Nat) :=
  let first := off / 64
  (List.range ((off + bs.length + 63) / 64 - first)).map (fun i =>
    let base := 64 * (first + i)
    let idx := List.range 64
    let data := idx.map (fun k => if off ≤ base + k then bs.getD (base + k - off) 0 else 0)
    let mask := idx.foldl (fun m k => if off ≤ base + k ∧ base + k < off + bs.length then m + 2 ^ k else m) 0
    (e.lineAt base, data, mask))

/-- Write bytes at a dense offset of a region, line by line (R24): whether every line took its write. -/
def State.putBytes (s : State) (a : ErrSrc) (w : WriteMode) (e : RegionWords) (off : Nat) (bs : List Byte) : Bool × State :=
  (lineWrites e off bs).foldl (fun acc x =>
    let (ok, s) := (acc.2.awaitPair x.1.loc).writeLine a w x.1 x.2.1 x.2.2
    (acc.1 && ok, s)) (true, s)

/-- The same through the write-combining buffer. -/
def State.storeBytesOk (s : State) (a : ErrSrc) (e : RegionWords) (off : Nat) (bs : List Byte) : Bool × State :=
  s.putBytes a .buffered e off bs

/-- The same, for a writer that goes on whatever a line answers. -/
def State.storeBytes (s : State) (a : ErrSrc) (e : RegionWords) (off : Nat) (bs : List Byte) : State :=
  (s.storeBytesOk a e off bs).2

/-- A line that takes a write of the masked bytes (R24). -/
def State.lineTakes (s : State) (x : LineLoc) (mask : Nat) : Bool :=
  match s.rowMeta x.loc with
  | none => false
  | some m => !s.mappedOut x.loc.dev x.loc.ch && !m.far && (mask == fullMask || (s.lineVal x).bytes?.isSome)

/-- Read bytes of a region: the bytes, and whether every line gave data; errors are reported as reads report them. -/
def State.fetchBytes (s : State) (a : ErrSrc) (e : RegionWords) (off len : Nat) : List Byte × Bool × State :=
  let first := off / 64
  let xs := (List.range ((off + len + 63) / 64 - first)).map (fun i => e.lineAt (64 * (first + i)))
  let (vs, s) := xs.foldl (fun (acc : List LineVal × State) x =>
    let (v, s) := acc.2.fetchLine a x
    (acc.1 ++ [v], s)) ([], s)
  let all := vs.flatMap (fun v => (v.bytes?).getD (List.replicate 64 0))
  ((all.drop (off - 64 * first)).take len, vs.all (fun v => !v.isBad), s)

/-! ### The layout of the step log -/

/-- MAGIC of the header (R330). -/
def logMagic : Nat := 0x5A52594C

/-- The number that ends a unit, trust or move area before its end (log entry 10). -/
def logEnd : Nat := 0xFFFFFFFF

/-- The header of the log as three lines: MAGIC, LOGSTATE, PLAN_ID, S, G, V, LSE, SEED, the plan offset and n of the cset; NORMSQ; the
part offsets (R330; log entry 10). -/
def StepLog.header (g : StepLog) : List Byte :=
  takePad 64 (leBytes 4 logMagic ++ leBytes 4 g.logState ++ leBytes 8 g.planId ++ leBytes 8 g.s ++ leBytes 8 g.g ++ leBytes 8 g.v
      ++ leBytes 8 (twos 64 g.lse) ++ leBytes 8 g.seed ++ leBytes 4 g.csetOff ++ leBytes 4 g.csetN)
    ++ takePad 64 (g.normsq.flatMap (fun n => leBytes 8 n.toNat))
    ++ takePad 64 ([g.parts.epochs, g.parts.units, g.parts.trust, g.parts.moves].flatMap (leBytes 4))

/-- An entry of the epoch image (R330). -/
def epochBytes (e : Option (Nat × Nat)) : List Byte :=
  match e with
  | some (ep, mask) => leBytes 2 (ep % 256 + mask % 32 * 2 ^ 8 + 2 ^ 15)
  | none => leBytes 2 0

/-- A record of the unit area (R330). -/
def LogUnit.bytes (u : LogUnit) : List Byte := leBytes 4 u.id ++ leBytes 4 u.count ++ leBytes 4 u.pow1.toNat ++ leBytes 4 u.pow2.toNat

/-- A record of the trust area (R330). -/
def trustBytes (x : Nat × Word) : List Byte := leBytes 4 x.1 ++ leBytes 4 x.2.toNat

/-- A record of the move area (R330). -/
def moveBytes (x : Nat × Nat) : List Byte := leBytes 4 x.1 ++ leBytes 4 x.2

/-! ### Writing it -/

/-- Write bytes of the log through, `off` from its start (R331). -/
def State.putLog (s : State) (g : StepLog) (off : Nat) (bs : List Byte) : State :=
  let e := s.regionWords g.region
  let o := 1920 * g.unit + off
  ((s.chargeWrites 11 ((lineWrites e o bs).map (·.1))).putBytes .other .through e o bs).2

/-- Write the records of an area from number `n` on, and after them the end mark, where the area goes on. -/
def State.putRecords (s : State) (g : StepLog) (at_ last size n : Nat) (rs : List (List Byte)) : State :=
  let off := at_ + size * n
  let end_ := off + size * rs.length
  s.putLog g off (rs.flatten ++ (if end_ + size ≤ last then leBytes 4 logEnd else []))

/-- The "proceed" verdict writes the header, clears the epoch image, and marks the other areas empty (R330, R331). -/
def State.openLog (s : State) (g : StepLog) : State :=
  let s : State := { s with log := some g }
  let s := (s.putLog g 0 g.header).putLog g g.parts.epochs (g.epochs.flatMap epochBytes)
  ((s.putRecords g g.parts.units g.parts.trust 16 0 []).putRecords g g.parts.trust g.parts.moves 8 0 []).putRecords g
    g.parts.moves g.parts.last 8 0 []

/-- What a change from `g` to `h` writes: the header, the epoch-image entries that change, and the records that are new. -/
def State.putChange (s : State) (g h : StepLog) : State :=
  let s := if g.header = h.header then s else s.putLog h 0 h.header
  let s := ((List.range h.epochs.length).filter (fun i => h.epochs[i]? != g.epochs[i]?)).foldl (fun s i =>
    s.putLog h (h.parts.epochs + 2 * i) (epochBytes ((h.epochs[i]?).bind id))) s
  let more {α : Type} (s : State) (old new : List α) (f : α → List Byte) (at_ last size : Nat) : State :=
    if new.length ≤ old.length then s else s.putRecords h at_ last size old.length ((new.drop old.length).map f)
  let s := more s g.units h.units LogUnit.bytes h.parts.units h.parts.trust 16
  let s := more s g.trust h.trust trustBytes h.parts.trust h.parts.moves 8
  more s g.moves h.moves moveBytes h.parts.moves h.parts.last 8

/-- Change the step log, in memory too. -/
def State.keepLog (s : State) (f : StepLog → StepLog) : State :=
  match s.log with
  | some g => (s.modLog f).putChange g (f g)
  | none => s

/-! ### Finding it -/

/-- What the block finds where YLOG_REG and YLOG_UNIT say the log lies: no header, one whose lines cannot be read, or a log. -/
inductive LogFound where
  | absent
  | lost
  | found (g : StepLog)
  deriving DecidableEq, Repr

/-- Records of an area up to its end mark. -/
def areaRecords (b : List Byte) (size : Nat) : List Nat :=
  ((List.range (b.length / size)).map (size * ·)).takeWhile (fun o => leAt b o 4 != logEnd)

/-- The log that the bytes of a region hold from row unit `u` on, under a plan (R330): the parts lie where the header says, and hold at
most what the plan's largest log holds. -/
def State.parseLog (s : State) (p : Plan) (n u : Nat) (b : List Byte) : StepLog :=
  let e := s.regionWords n
  let bytes (off len : Nat) : List Byte := (s.regionBytes e (1920 * u + off) len).1
  let q : LogParts := ⟨leAt b 0x80 4, leAt b 0x84 4, leAt b 0x88 4, leAt b 0x8C 4, leAt b 0x8C 4 + 8 * 4096⟩
  let ep := bytes q.epochs (2 * p.longestList)
  let us := bytes q.units (16 * p.hdr.nunit)
  let ts := bytes q.trust (8 * p.trustGroups)
  let ms := bytes q.moves (8 * 4096)
  { region := n
    unit := u
    logState := leAt b 4 4
    planId := leAt b 8 8
    s := leAt b 0x10 8
    g := leAt b 0x18 8
    v := leAt b 0x20 8
    lse := ofTwos 64 (leAt b 0x28 8)
    seed := leAt b 0x30 8
    normsq := (List.range 8).map (fun i => BitVec.ofNat 64 (leAt b (0x40 + 8 * i) 8))
    csetOff := leAt b 0x38 4
    csetN := leAt b 0x3C 4
    parts := q
    epochs := (List.range p.longestList).map (fun i =>
      let w := leAt ep (2 * i) 2
      if bits w 15 15 = 1 then some (bits w 7 0, bits w 12 8) else none)
    units := (areaRecords us 16).map (fun o => ⟨leAt us o 4, leAt us (o + 4) 4, wordOf us (o + 8), wordOf us (o + 12)⟩)
    trust := (areaRecords ts 8).map (fun o => (leAt ts o 4, wordOf ts (o + 4)))
    moves := (areaRecords ms 8).map (fun o => (leAt ms o 4, leAt ms (o + 4) 4)) }

/-- The header at YLOG_REG and YLOG_UNIT (R332). A region that is initializing holds none (log entry 92). -/
def State.findLog (s : State) (p : Plan) : LogFound :=
  let n := s.get Reg.YLOG_REG
  let u := s.get Reg.YLOG_UNIT
  let (b, bad) := s.regionBytes (s.regionWords n) (1920 * u) 192
  if s.initPending n then .absent
  else if !bad.isEmpty then .lost
  else if leAt b 0 4 != logMagic then .absent
  else .found (s.parseLog p n u b)

/-- An epoch-image, unit-area or trust-area line of the log that the block uses cannot be read (R335); a line of the move area counts
with them (log entry 10). -/
def State.areasLost (s : State) (g : StepLog) : Bool :=
  let e := s.regionWords g.region
  let bad (off len : Nat) : Bool := !(s.regionBytes e (1920 * g.unit + off) len).2.isEmpty
  bad g.parts.epochs (2 * g.epochs.length) || bad g.parts.units (min (16 * (g.units.length + 1)) (g.parts.trust - g.parts.units))
    || bad g.parts.trust (min (8 * (g.trust.length + 1)) (g.parts.moves - g.parts.trust)) || bad g.parts.moves (8 * (g.moves.length + 1))

end Sys2Proof.Machine
end

