-- ==== Sys2Proof/Machine/Tree.lean ====
section
/-! DEFINITION. Sending messages (R213 to R215), the records of open, seal and count and the control tree that combines them
(R57 to R61, R67, R68, R228, R230 to R232), and what a verdict does. -/

namespace Sys2Proof.Machine

/-! ### Sending -/

/-- The virtual channel of a message kind (R215). -/
def kindVc (kind : Nat) : Nat :=
  if kind = 0x10 then 1 else if kind = 0x20 || kind = 0x21 then 2 else if 0x40 ≤ kind && kind ≤ 0x43 then 3 else 0

/-- The number of this block (R230; log entry 43). -/
def State.blockNo (s : State) : Nat := (s.plan.plan.map (·.hdr.blockNo)).getD 0

/-- The role epoch that a message of the role carries (R218). -/
def State.roleEpoch (s : State) (role : Nat) : Nat := ((s.plan.plan.map (·.tree.roleEpoch)).getD []).getD role 0

/-- The ports of a mask, 0 meaning all eight, that have not failed, and that the fabric does not report failed (R211, R213, R219; log
entry 44). -/
def State.portsOf (s : State) (mask : Nat) : List Nat :=
  (List.range 8).filter (fun n => (mask == 0 || mask.testBit n) && !s.bit Reg.PORT_FAIL n && !s.pins.fFail.testBit n)

/-- A port for a message that the manual binds to none: an open choice among the ports that have not failed (log entry 44); none when
all have. -/
def State.anyPort (s : State) : Option Nat × State :=
  let (v, s) := s.free
  let ps := s.portsOf 0
  (ps[v.toNat % ps.length]?, s)

/-- The message goes to this block itself (R213). -/
def State.toSelf (s : State) (dst : Nat) : Bool := s.plan.plan.any (fun p => p.hdr.blockNo == dst)

/-- Send a message of this block on a port (R214; log entry 12); one to the block itself never leaves it, and comes back as the command
that receives its kind (R213; log entry 44). -/
def State.send (s : State) (port kind dst epoch step q role index : Nat) (payload : List Byte) : State :=
  let h : MsgHdr :=
    { ver := 1, vc := BitVec.ofNat 2 (kindVc kind), src := BitVec.ofNat 16 s.blockNo, dst := BitVec.ofNat 16 dst,
      epoch := BitVec.ofNat 16 epoch, step := BitVec.ofNat 64 step, q := BitVec.ofNat 16 q, role := BitVec.ofNat 4 role,
      index := BitVec.ofNat 32 index, len := BitVec.ofNat 32 payload.length }
  s.emit (if s.toSelf dst then .own kind h payload else .msg port kind h payload)

/-- Send a record of the control tree; with every port failed it waits (R211). -/
def State.sendTree (s : State) (kind dst step : Nat) (payload : List Byte) : State :=
  match s.anyPort with
  | (some port, s) => s.send port kind dst ((s.plan.plan.map (·.tree.tepoch)).getD 0) step 0 0 0 payload
  | (none, s) => s.modExch (fun x => { x with held := x.held ++ [⟨kind, dst, step, payload⟩] })

/-- The records that waited for a port go, once one has returned to the rotations (R211). -/
def State.sendHeld (s : State) : State :=
  if s.portsOf 0 = [] then s
  else s.exch.held.foldl (fun s r => s.sendTree r.kind r.dst r.step r.payload) (s.modExch (fun x => { x with held := [] }))

/-! ### Records -/

/-- A little-endian field of a record. -/
def recField (b : List Byte) (off n : Nat) : Nat := leAt b off n

/-- Sixteen minimum and maximum fields from byte 0 on, combined (R58). -/
def combinePairs (n : Nat) (a b : List Byte) : List Byte :=
  (List.range n).flatMap (fun i =>
    leBytes 8 (min (recField a (16 * i) 8) (recField b (16 * i) 8))
      ++ leBytes 8 (max (recField a (16 * i + 8) 8) (recField b (16 * i + 8) 8)))

/-- Combine two open records (R58, R231). -/
def combineOpen (a b : List Byte) : List Byte :=
  takePad 96 (combinePairs 4 a b ++ leBytes 8 (recField a 0x40 8 + recField b 0x40 8)
    ++ leBytes 2 (recField a 0x48 2 ||| recField b 0x48 2))

/-- Combine two seal records (R67, R231): FINITE by AND, the other flags by OR, NORMSQ by FP64 sum in combine order. -/
def combineSeal (a b : List Byte) : List Byte :=
  let x := recField a 0x28 1
  let y := recField b 0x28 1
  takePad 128 (takePad 0x30 (combinePairs 2 a b ++ leBytes 8 (recField a 0x20 8 + recField b 0x20 8)
      ++ leBytes 1 ((x &&& y &&& 1) ||| ((x ||| y) &&& 0xE)))
    ++ (List.range 8).flatMap (fun n => leBytes 8 (f64Add (BitVec.ofNat 64 (recField a (0x30 + 8 * n) 8))
      (BitVec.ofNat 64 (recField b (0x30 + 8 * n) 8))).toNat))

/-- Combine two count records (R228): sums of bits [63:48] and [47:0], field by field. -/
def combineCount (a b : List Byte) : List Byte :=
  (List.range (a.length / 8)).flatMap (fun i =>
    leBytes 6 (recField a (8 * i) 6 + recField b (8 * i) 6) ++ leBytes 2 (recField a (8 * i + 6) 2 + recField b (8 * i + 6) 2))

/-- Combine two records of an UP kind. -/
def combineRec (kind : Nat) (a b : List Byte) : List Byte :=
  if kind = 0x30 then combineOpen a b else if kind = 0x32 then combineSeal a b else combineCount a b

/-- The pool demand of a variant at a pair (R171): rows of reduction and of bound weight. -/
def Plan.demandAt (p : Plan) (rs : List SubVariant) (pair i : Nat) : Nat :=
  (rs.map (fun r => leAt (p.section 0x11) (r.demOff + 2 * (2 * pair + i)) 2)).sum

/-- The rows that a set of regions holds in the two banks of pair (d, c, k). -/
def pairRows (es : List RegionWords) (d c k : Nat) : Nat :=
  (es.map (fun e =>
    if e.devmask.testBit d && e.chmask.testBit c then
      (e.bankmask.testBit (2 * k)).toNat * (e.lastrow + 1 - e.firstrow)
        + (e.bankmask.testBit (2 * k + 1)).toNat * (e.lastrow + 1 - e.firstrow)
    else 0)).sum

/-- The summed demand of the variant exceeds the admitted pools at some pair (R171). -/
def State.demandExceeds (s : State) (p : Plan) (rs : List SubVariant) : Bool :=
  let st : List RegionWords := (p.regions.map (·.2)).filter (fun (e : RegionWords) => e.en && decide (e.cls = .state))
  let red := (((st.map (·.linkA)).eraseDups.filter s.enabled).map s.regionWords).filter (fun e => decide (e.cls = .reduction))
  let wr := (((st.map (·.linkB)).eraseDups.filter s.enabled).map s.regionWords).filter (fun e => e.bound)
  (List.range 24).any (fun d => (List.range 4).any (fun c => (List.range 8).any (fun k =>
    let pair := 32 * d + 8 * c + k
    decide (pairRows red d c k < p.demandAt rs pair 0) || decide (pairRows wr d c k < p.demandAt rs pair 1))))

/-- The local OREF bits (R58): V out of range, pool demand over the admitted pools, held or not bound. -/
def State.oref (s : State) (p : Plan) : Nat :=
  (!p.inRange s.step.hdr.v).toNat + 2 * (s.demandExceeds p (p.records s.step.hdr.v)).toNat
    + 4 * (s.flag Reg.HELD || !s.flag Reg.BOUND).toNat

/-- The local open record (R58, R231). -/
def State.openRecord (s : State) (p : Plan) : List Byte :=
  let twice (v : Nat) : List Byte := leBytes 8 v ++ leBytes 8 v
  takePad 96 (twice s.step.hdr.s ++ twice p.hdr.planId ++ twice s.step.hdr.v ++ twice s.step.hdr.g
    ++ leBytes 8 (s.get64 Reg.ODIG_LO Reg.ODIG_HI) ++ leBytes 2 (s.oref p))

/-- The local seal record (R67, R231). -/
def State.sealRecord (s : State) : List Byte :=
  let twice (v : Nat) : List Byte := leBytes 8 v ++ leBytes 8 v
  let l := s.step.lseal
  takePad 0x30 (twice s.step.hdr.s ++ twice s.step.hdr.v ++ leBytes 8 (s.get64 Reg.ODIG_LO Reg.ODIG_HI)
      ++ leBytes 1 (l.finite.toNat + 2 * l.resfault.toNat + 4 * l.poison.toNat + 8 * l.arrfault.toNat))
    ++ takePad 0x50 (l.normsq.flatMap (fun n => leBytes 8 n.toNat))

/-- REASON bits of a combined open record (R58). -/
def openReason (b : List Byte) : Nat :=
  let uneq (o : Nat) : Nat := (recField b o 8 != recField b (o + 8) 8).toNat
  uneq 0x00 + 2 * uneq 0x10 + 4 * uneq 0x20 + 8 * (recField b 0x40 8 != 0).toNat + 16 * uneq 0x30
    + 32 * (recField b 0x48 2 % 8)

/-- REASON bits of a combined seal record, against the variant executed (R67). -/
def sealReason (v : Nat) (b : List Byte) : Nat :=
  let f := recField b 0x28 1
  2 ^ 8 * (!f.testBit 0).toNat + 2 ^ 9 * (f.testBit 1).toNat + 2 ^ 10 * (f.testBit 2).toNat + 2 ^ 11 * (f.testBit 3).toNat
    + 2 ^ 12 * (recField b 0x10 8 != recField b 0x18 8 || recField b 0x10 8 != v).toNat
    + 2 ^ 13 * (recField b 0x20 8 != 0).toNat + 2 ^ 14 * (recField b 0x00 8 != recField b 0x08 8).toNat

/-! ### Verdicts -/

/-- The waiting instruction ends: the next one issues (R188). -/
def State.seqDone (s : State) : State := s.modSeq (fun q => { q with wait := none, pc := q.pc + 1 })

/-- A fresh step log at the "proceed" verdict (R330): LOGSTATE 1 (log entry 10). -/
def State.newLog (s : State) (p : Plan) : StepLog where
  region := s.get Reg.YLOG_REG
  unit := s.get Reg.YLOG_UNIT
  logState := 1
  planId := p.hdr.planId
  s := s.step.hdr.s
  g := s.step.hdr.g
  v := s.step.hdr.v
  lse := s.step.hdr.lse
  seed := s.step.hdr.seed
  normsq := List.replicate 8 0
  parts := p.logParts
  csetOff := s.step.csetAt
  csetN := (s.step.cset.map (·.length)).getD 0
  epochs := s.step.entries.map (fun _ => none)
  units := []
  trust := []
  moves := []

/-- The open verdict (R58, R61): REASON, stamp 1, a step event; "proceed" opens the step log and arrival. -/
def State.openVerdict (s : State) (b : List Byte) : State :=
  let r := openReason b
  let s := (((s.set Reg.REASON r).stamp 1).raise 1).endWait .openVerdict 0
  let s := s.modSeq (fun q => { q with openV := if r = 0 then 1 else 2 })
  let s := match s.plan.plan, r with
    | some p, 0 => (s.openLog (s.newLog p)).set Reg.PHASE 2
    | _, _ => s
  if s.seq.wait = some .openVerdict then s.seqDone else s

/-- The clip constants of the step's groups (R115, R116), at the "commit" verdict. -/
def State.clipConstants (s : State) (normsq : List DWord) : State :=
  let gs := (s.step.entries.map (·.e.group)).eraseDups
  gs.foldl (fun s g =>
    let c := s.groupCfg g
    let (k, f) := (clipFactor s.seedTable c normsq s.step.hdr.lse c.flush).go
    (s.modGroup g (fun x => { x with clip := k, flags := x.flags.or f })).modStep (fun t =>
      { t with groupK := t.groupK.map (fun x => if x.group = g then { x with clip := k } else x) })) s

/-- The seal verdict (R67, R68, R71): NORMSQ under both verdicts, stamp 3, a step event, PHASE 4 or 6, LOGSTATE 3 or 4.
Entries with no committed block get no pass (R130). -/
def State.sealVerdict (s : State) (b : List Byte) : State :=
  let r := sealReason s.step.hdr.v b
  let ns := (List.range 8).map (fun n => recField b (0x30 + 8 * n) 8)
  let s := ns.zipIdx.foldl (fun s x => s.set64 (Reg.NORMSQ_LO x.2) (Reg.NORMSQ_HI x.2) x.1) s
  let s := (((s.set Reg.REASON r).stamp 3).raise 1).endWait .sealVerdict 0
  let ds := ns.map (BitVec.ofNat 64)
  let s := s.keepLog (fun l => { l with normsq := ds, logState := if r = 0 then 3 else 4 })
  let s := (s.modSeq (fun q => { q with sealV := if r = 0 then 1 else 2 })).set Reg.PHASE (if r = 0 then 4 else 6)
  let s := if r = 0 then (s.clipConstants ds).modStep (fun t => { t with
      entries := t.entries.map (fun e => if e.mask % 32 = 0 then { e with st := .atRest } else e) }) else s
  let s := s.settleMoved
  if s.seq.wait = some .sealVerdict then s.seqDone else s

/-! ### The count exchange -/

/-- CNT_GO may start an exchange (R228, R397): Run, a boundary, counts-first mode, none running (log entry 42). -/
def State.cntTaken (s : State) : Bool :=
  s.inRun && s.atBoundary && s.exch.cnt.isNone && !s.step.cntHeld && !s.harebell
    && (match s.plan.plan with | some p => p.tree.cmode == 0 | none => false)

/-- The dense offset of the count area. -/
def State.cntOffset (s : State) : Nat := s.get64 Reg.CNT_OFF_LO Reg.CNT_OFF_HI

/-- The count record of a count area (R228 step 3). -/
def countRecord (n : Nat) (b : List Byte) : List Byte :=
  (List.range n).flatMap (fun x =>
    let c := leAt b (8 * x) 6
    leBytes 6 c ++ leBytes 2 (c != 0).toNat)

/-- Release what was held: a count exchange, then the GO (R50, R228, R375; log entry 33). -/
def State.releaseGo (s : State) : State :=
  if s.step.goHeld && s.atBoundary && !s.goBlocked then s.startStep else s

/-- The combined vector is delivered (R228 step 4). -/
def State.countDone (s : State) (b : List Byte) : State :=
  match s.exch.cnt with
  | none => s
  | some c =>
    let e := s.regionWords c.region
    let s := s.chargeWrites 15 ((lineWrites e (c.offset + b.length) b).map (·.1))
    let s := s.storeBytes .other e (c.offset + b.length) b
    let s := s.modExch (fun x => { x with cnt := none })
    ((s.setFlag Reg.CNT_DONE true).raise 3).releaseGo

/-! ### The tree -/

/-- The children of this node. -/
def State.children (s : State) : List Nat := (s.plan.plan.map (·.tree.children)).getD []

/-- The parent of this node, 0xFFFF at the root. -/
def State.parent (s : State) : Nat := (s.plan.plan.map (·.tree.parent)).getD 0xFFFF

/-- The combined record of an exchange is evaluated (R57, R232). -/
def State.evaluate (s : State) (kind : Nat) (b : List Byte) : State :=
  if kind = 0x30 then s.openVerdict b else if kind = 0x32 then s.sealVerdict b else s.countDone b

/-- Forward a DN record to the children in ascending order, then evaluate it (R232). -/
def State.deliver (s : State) (kind step : Nat) (b : List Byte) : State :=
  (s.children.foldl (fun s c => s.sendTree (kind + 1) c step b) s).evaluate kind b

/-- The record that child `c` has sent for an exchange. -/
def State.upFrom (s : State) (kind step c : Nat) : Option UpRec :=
  s.exch.ups.find? (fun r => r.kind == kind && r.child == c && r.step == step)

/-- Once the node holds its own record and one of every child, it combines them and posts the result (R57, R232). -/
def State.combine (s : State) (kind : Nat) : State :=
  match s.exch.own.find? (·.kind == kind) with
  | none => s
  | some own =>
    let kids := s.children.filterMap (fun c => s.upFrom kind own.step c)
    if kids.length < s.children.length then s
    else
      let b := kids.foldl (fun acc r => combineRec kind acc r.payload) own.payload
      let s := s.modExch (fun x => { x with
        own := x.own.filter (·.kind != kind)
        ups := x.ups.filter (fun r => !(r.kind == kind && r.step == own.step)) })
      if s.parent = 0xFFFF then s.deliver kind own.step b
      else (s.modExch (fun x => { x with upSent := x.upSent ++ [kind] })).sendTree kind s.parent own.step b

/-- This node's own record of an exchange is ready. -/
def State.postOwn (s : State) (kind step : Nat) (b : List Byte) : State :=
  (s.modExch (fun x => { x with own := x.own ++ [⟨kind, s.blockNo, step, b⟩] })).combine kind

/-- A count exchange starts (R228): the record is formed from the count area; entries that cannot be read are open values.
A GO or CNT_GO in Idle returns the block to Run (R344). -/
def State.startCount (s : State) : State :=
  match s.plan.plan with
  | none => s
  | some p =>
    let n := p.tree.nexpt
    let reg := s.get Reg.CNT_REG
    let off := s.cntOffset
    if s.checkRegion .host false reg off (16 * n) != .ok || s.checkRegion .host true reg off (16 * n) != .ok then
      s.setFlag Reg.CNT_REFUSED true
    else
      let s := if s.get Reg.PSTATE = 1 then (s.set Reg.PSTATE 0).setFlag Reg.LE_ON true else s
      let e := s.regionWords reg
      let (b, ok, s) := (s.chargeReads 15 ((lineWrites e off (List.replicate (8 * n) 0)).map (·.1))).fetchBytes .other e off (8 * n)
      let b := if ok then b else (List.range n).flatMap (fun i => leBytes 8 (Config.freeValue (s.freeCtr + i)).toNat)
      let s : State := if ok then s else { s with freeCtr := s.freeCtr + n }
      let s := s.modExch (fun x => { x with cnt := some ⟨reg, off⟩ })
      s.postOwn 0x34 s.stepS (countRecord n b)

/-- CNT_GO (R228): starts an exchange, waits for a running self-test (R375), or sets CNT_REFUSED (log entries 42, 100). -/
def State.takeCnt (s : State) : State :=
  if s.cntTaken then
    if s.req.st.any (·.running) then s.modStep (fun t => { t with cntHeld := true }) else s.startCount
  else s.setFlag Reg.CNT_REFUSED true

/-- What held a CNT_GO and a GO back has ended. -/
def State.releaseHeld (s : State) : State :=
  let s := if s.step.cntHeld && !s.req.st.any (·.running) then
      (s.modStep (fun t => { t with cntHeld := false })).startCount
    else s
  s.releaseGo

end Sys2Proof.Machine
end

