-- ==== Sys2Proof/Machine/Sequencer.lean ====
section
/-! DEFINITION. Sarenina (R172 to R209): fetch and issue, the scalar, address, memory and control-register instructions, and
the commands of a step program. -/

namespace Sys2Proof.Machine

/-! ### Fetch and issue -/

/-- The instruction word at code index `n` of a plan. -/
def Plan.codeWord (p : Plan) (n : Nat) : DWord := BitVec.ofNat 64 (leAt (p.section 1) (8 * n) 8)

/-- Code line `n` is at hand: in the cache or in the bypass buffer (R177). -/
def ICache.holds (c : ICache) (n : Nat) : Bool := c.lines.any (·.1 == n) || c.bypass == some n

/-- A miss on code line `n` (R177, R415). -/
def State.missLine (s : State) (n : Nat) : State := { s with icache := { s.icache with miss := some n } }.perf 19 1

/-- A predicate register; p0 reads 1 (R172). -/
def State.pget (s : State) (r : BitVec 3) : Bool := r == 0 || s.seq.p.getD r.toNat false

/-- A scalar register. -/
def State.sget (s : State) (r : BitVec 4) : DWord := s.seq.s.getD r.toNat 0

/-- An address register. -/
def State.aget (s : State) (r : BitVec 3) : BitVec 48 := s.seq.a.getD r.toNat 0

/-- Write a scalar register. -/
def State.sset (s : State) (r : BitVec 4) (v : DWord) : State := s.modSeq (fun q => { q with s := q.s.set r.toNat v })

/-- Write an address register. -/
def State.aset (s : State) (r : BitVec 3) (v : BitVec 48) : State := s.modSeq (fun q => { q with a := q.a.set r.toNat v })

/-- Write a predicate register; a write to p0 has no effect (R172, R196). -/
def State.pset (s : State) (r : BitVec 3) (v : Bool) : State :=
  if r = 0 then s else s.modSeq (fun q => { q with p := q.p.set r.toNat v })

/-- An emission or arrival instance has ended (R205): its slots have closed, or its destinations are served or given up. -/
def State.instDone (s : State) (i : Inst) : Bool :=
  if i.emission then
    i.items.all (fun n => match s.step.chunks[n]? with
      | some c => c.e.dests.zipIdx.all (fun d => c.sent.contains d.2 || s.exch.givenUp.contains (i.q, d.1.block))
      | none => true)
  else i.items.all (fun n => match s.step.slots[n]? with
      | some x => x.closed
      | none => true)

/-- Mark the instances that have ended. -/
def State.settleInsts (s : State) : State :=
  s.modStep (fun t => { t with insts := t.insts.map (fun i => if s.instDone i then { i with ended := true } else i) })

/-- A begun instance. -/
def State.inst? (s : State) (q : Nat) : Option Inst := s.step.insts.find? (·.q == q)

/-- Every queued tier move has ended. -/
def State.movesEnded (s : State) : Bool := s.tier.queue.isEmpty

/-- What a waiting instruction waits for has come about (R188), for the waits that no event of their own ends. -/
def State.waitOver (s : State) : Bool :=
  match s.seq.wait with
  | some (.cwait q) => (s.inst? q).any (·.ended)
  | some .cdone => s.step.rowsEnded && s.step.layersEnded
  | some .lwait => s.step.layersEnded
  | some .twait => s.movesEnded
  | _ => false

/-- End such a wait: the next instruction issues. A cdone that completes opens what R190 code 0x09 allows (log entry 8). -/
def State.settleWait (s : State) : State :=
  let s := s.settleInsts
  if s.waitOver then
    (if s.seq.wait = some .cdone then s.modSeq (fun q => { q with cdoneOk := true }) else s).seqDone
  else s

/-- The presented instruction issues if it is the one at pc: the sequencer runs, waits for nothing, and the fetched word is the
instruction's; the fetch may miss (R177); INSN_LIMIT (R194) and the predicate (R186) come first (log entries 8, 39). -/
def State.issue (s : State) (i : Instr) (p : Pred) (run : State → State) : State :=
  let s := s.settleWait
  match s.plan.plan with
  | none => s
  | some pl =>
    if !s.seq.running || s.seq.wait.isSome || s.icache.miss.isSome then s
    else if sarEncode i != some (pl.codeWord s.seq.pc) then s
    else if !s.icache.holds (s.seq.pc / 8) then s.missLine (s.seq.pc / 8)
    else if pl.hdr.insnLimit ≤ s.seq.count then s.trap 0x07 pl.hdr.insnLimit
    else
      let s := s.modSeq (fun q => { q with count := q.count + 1 })
      if (s.pget p.pr ^^ p.pn) then run s else s.seqDone

/-- The ways of a set that hold locked lines (R177). -/
def ICache.lockedIn (c : ICache) (set : Nat) : Nat := (c.lines.filter (fun l => l.2 && l.1 % 512 == set)).length

/-- A line comes into an unlocked way of its set, the one filled longest ago making room, or into the bypass buffer
(log entry 40). -/
def ICache.fill (c : ICache) (n : Nat) : ICache :=
  let set := n % 512
  if 8 ≤ c.lockedIn set then { c with bypass := some n, miss := none }
  else
    let mine := c.lines.filter (fun l => l.1 % 512 == set)
    let lines := if mine.length < 8 then c.lines
      else match mine.find? (fun l => !l.2) with
        | some v => c.lines.filter (· != v)
        | none => c.lines
    { c with lines := lines ++ [(n, false)], miss := none }

/-- A missed code line arrives (R177, R178; log entries 2, 8). -/
def execIcacheFill (s : State) : Result :=
  match s.plan.plan, s.icache.miss with
  | some p, some n =>
    let x := s.codeLine p n
    let s := s.chargeReads 15 [x]
    let (v, s) := s.fetchLine .sequencer x
    if v.isBad then .next ({ s with icache := { s.icache with miss := none } }.trap 0x01 n)
    else .next { s with icache := s.icache.fill n }
  | _, _ => .next s

/-! ### Control -/

/-- Jump. -/
def State.jump (s : State) (t : Nat) : State := s.modSeq (fun q => { q with pc := t })

/-- NOP (R192). -/
def execNop (p : Pred) (s : State) : Result := .next (s.issue (.nop p) p State.seqDone)

/-- BR (R192). -/
def execBr (p : Pred) (t : Word) (s : State) : Result := .next (s.issue (.br p t) p (fun s => s.jump t.toNat))

/-- CALL (R192, R193). -/
def execCall (p : Pred) (t : Word) (s : State) : Result :=
  .next (s.issue (.call p t) p (fun s =>
    if 16 ≤ s.seq.stack.length then s.trap 0x05 16
    else (s.modSeq (fun q => { q with stack := (q.pc + 1) :: q.stack })).jump t.toNat))

/-- RET (R192, R193). -/
def execRet (p : Pred) (s : State) : Result :=
  .next (s.issue (.ret p) p (fun s =>
    match s.seq.stack with
    | [] => s.trap 0x05 0
    | r :: rest => s.modSeq (fun q => { q with stack := rest, pc := r })))

/-- JT (R192). -/
def execJt (p : Pred) (ra : BitVec 4) (n : Word) (s : State) : Result :=
  .next (s.issue (.jt p ra n) p (fun s =>
    let i := (s.sget ra).toNat
    s.jump (s.seq.pc + 1 + (if i < n.toNat then i else n.toNat))))

/-- LOOP (R192). -/
def execLoop (p : Pred) (ra : BitVec 4) (t : Word) (s : State) : Result :=
  .next (s.issue (.loop p ra t) p (fun s =>
    if s.sget ra = 0 then s.seqDone else (s.sset ra (s.sget ra - 1)).jump t.toNat))

/-- Stage 2 of R195: verdicts received, instances begun, commit run. -/
def State.stependOk (s : State) : Bool :=
  s.seq.openV != 0
    && (s.seq.openV == 2 || (s.seq.sealV != 0 && (s.step.cset.getD []).all (fun e => s.step.insts.any (·.q == e.1))
      && (s.seq.sealV == 2 || s.seq.commitRun)))

/-- A row moved in that stage 1 of R195 need not wait for: out, failed, or one whose move-out no event of the step starts any more,
as the step may not end (R301; log entry 94). -/
def State.movedSettled (s : State) (r : MovedRow) : Bool :=
  r.st == .out || r.st == .failed || (r.st == .near && !s.stependOk)

/-- Stage 1 of R195: instances, moves, and where commit ran, rows and layers have ended. -/
def State.stependReady (s : State) : Bool :=
  s.step.insts.all (·.ended) && s.movesEnded && s.tier.moved.all s.movedSettled
    && (!s.seq.commitRun || (s.step.rowsEnded && s.step.layersEnded))

/-- STEPEND (R195): waits, and traps where the step may not end; STEP_BOUNDARY brings the boundary. -/
def execStepend (p : Pred) (s : State) : Result :=
  .next (s.issue (.stepend p) p (fun s =>
    if s.stependReady && !s.stependOk then s.trap 0x03 0x0A else s.modSeq (fun q => { q with wait := some .stepend })))

/-! ### Scalars and predicates (R196, R197) -/

/-- An instruction that writes one scalar register. -/
def State.issueS (s : State) (i : Instr) (p : Pred) (rd : BitVec 4) (v : State → DWord) : State :=
  s.issue i p (fun s => (s.sset rd (v s)).seqDone)

/-- An instruction that writes one predicate register. -/
def State.issueP (s : State) (i : Instr) (p : Pred) (pd : BitVec 3) (v : State → Bool) : State :=
  s.issue i p (fun s => (s.pset pd (v s)).seqDone)

/-- LI. -/
def execLi (p : Pred) (rd : BitVec 4) (imm : Word) (s : State) : Result :=
  .next (s.issueS (.li p rd imm) p rd (fun _ => imm.signExtend 64))
/-- LHI. -/
def execLhi (p : Pred) (rd : BitVec 4) (imm : Word) (s : State) : Result :=
  .next (s.issueS (.lhi p rd imm) p rd (fun s => imm ++ (s.sget rd).extractLsb' 0 32))
/-- MOV. -/
def execMov (p : Pred) (rd ra : BitVec 4) (s : State) : Result :=
  .next (s.issueS (.mov p rd ra) p rd (fun s => s.sget ra))
/-- ADD. -/
def execAdd (p : Pred) (rd ra rb : BitVec 4) (s : State) : Result :=
  .next (s.issueS (.add p rd ra rb) p rd (fun s => s.sget ra + s.sget rb))
/-- ADDI. -/
def execAddi (p : Pred) (rd ra : BitVec 4) (imm : Word) (s : State) : Result :=
  .next (s.issueS (.addi p rd ra imm) p rd (fun s => s.sget ra + imm.signExtend 64))
/-- SUB. -/
def execSub (p : Pred) (rd ra rb : BitVec 4) (s : State) : Result :=
  .next (s.issueS (.sub p rd ra rb) p rd (fun s => s.sget ra - s.sget rb))
/-- MUL. -/
def execMul (p : Pred) (rd ra rb : BitVec 4) (s : State) : Result :=
  .next (s.issueS (.mul p rd ra rb) p rd (fun s => s.sget ra * s.sget rb))
/-- AND. -/
def execAnd (p : Pred) (rd ra rb : BitVec 4) (s : State) : Result :=
  .next (s.issueS (.and p rd ra rb) p rd (fun s => s.sget ra &&& s.sget rb))
/-- OR. -/
def execOr (p : Pred) (rd ra rb : BitVec 4) (s : State) : Result :=
  .next (s.issueS (.or p rd ra rb) p rd (fun s => s.sget ra ||| s.sget rb))
/-- XOR. -/
def execXor (p : Pred) (rd ra rb : BitVec 4) (s : State) : Result :=
  .next (s.issueS (.xor p rd ra rb) p rd (fun s => s.sget ra ^^^ s.sget rb))
/-- SHL: the count is bits [5:0] of the operand. -/
def execShl (p : Pred) (rd ra rb : BitVec 4) (s : State) : Result :=
  .next (s.issueS (.shl p rd ra rb) p rd (fun s => s.sget ra <<< ((s.sget rb).toNat % 64)))
/-- SHR. -/
def execShr (p : Pred) (rd ra rb : BitVec 4) (s : State) : Result :=
  .next (s.issueS (.shr p rd ra rb) p rd (fun s => s.sget ra >>> ((s.sget rb).toNat % 64)))
/-- SHLI. -/
def execShli (p : Pred) (rd ra : BitVec 4) (imm : Word) (s : State) : Result :=
  .next (s.issueS (.shli p rd ra imm) p rd (fun s => s.sget ra <<< (imm.toNat % 64)))
/-- SHRI. -/
def execShri (p : Pred) (rd ra : BitVec 4) (imm : Word) (s : State) : Result :=
  .next (s.issueS (.shri p rd ra imm) p rd (fun s => s.sget ra >>> (imm.toNat % 64)))
/-- CMPEQ. -/
def execCmpeq (p : Pred) (pd : BitVec 3) (ra rb : BitVec 4) (s : State) : Result :=
  .next (s.issueP (.cmpeq p pd ra rb) p pd (fun s => s.sget ra == s.sget rb))
/-- CMPNE. -/
def execCmpne (p : Pred) (pd : BitVec 3) (ra rb : BitVec 4) (s : State) : Result :=
  .next (s.issueP (.cmpne p pd ra rb) p pd (fun s => s.sget ra != s.sget rb))
/-- CMPLT. -/
def execCmplt (p : Pred) (pd : BitVec 3) (ra rb : BitVec 4) (s : State) : Result :=
  .next (s.issueP (.cmplt p pd ra rb) p pd (fun s => (s.sget ra).slt (s.sget rb)))
/-- CMPLE. -/
def execCmple (p : Pred) (pd : BitVec 3) (ra rb : BitVec 4) (s : State) : Result :=
  .next (s.issueP (.cmple p pd ra rb) p pd (fun s => (s.sget ra).sle (s.sget rb)))
/-- CMPLTU. -/
def execCmpltu (p : Pred) (pd : BitVec 3) (ra rb : BitVec 4) (s : State) : Result :=
  .next (s.issueP (.cmpltu p pd ra rb) p pd (fun s => (s.sget ra).ult (s.sget rb)))
/-- CMPLEU. -/
def execCmpleu (p : Pred) (pd : BitVec 3) (ra rb : BitVec 4) (s : State) : Result :=
  .next (s.issueP (.cmpleu p pd ra rb) p pd (fun s => (s.sget ra).ule (s.sget rb)))
/-- CMPEQI. -/
def execCmpeqi (p : Pred) (pd : BitVec 3) (ra : BitVec 4) (imm : Word) (s : State) : Result :=
  .next (s.issueP (.cmpeqi p pd ra imm) p pd (fun s => s.sget ra == imm.signExtend 64))
/-- CMPLTUI: the immediate is zero-extended. -/
def execCmpltui (p : Pred) (pd : BitVec 3) (ra : BitVec 4) (imm : Word) (s : State) : Result :=
  .next (s.issueP (.cmpltui p pd ra imm) p pd (fun s => (s.sget ra).ult (imm.setWidth 64)))
/-- PAND. -/
def execPand (p : Pred) (pd pa pb : BitVec 3) (s : State) : Result :=
  .next (s.issueP (.pand p pd pa pb) p pd (fun s => s.pget pa && s.pget pb))
/-- POR. -/
def execPor (p : Pred) (pd pa pb : BitVec 3) (s : State) : Result :=
  .next (s.issueP (.por p pd pa pb) p pd (fun s => s.pget pa || s.pget pb))
/-- PNOT. -/
def execPnot (p : Pred) (pd pa : BitVec 3) (s : State) : Result :=
  .next (s.issueP (.pnot p pd pa) p pd (fun s => !s.pget pa))
/-- PMOV. -/
def execPmov (p : Pred) (rd : BitVec 4) (pa : BitVec 3) (s : State) : Result :=
  .next (s.issueS (.pmov p rd pa) p rd (fun s => BitVec.ofNat 64 (s.pget pa).toNat))

/-- The step constant under a key (R197). -/
def State.stepConstant (s : State) (key : Nat) : Nat :=
  let h := s.step.hdr
  let plan (f : Plan → Nat) : Nat := (s.plan.plan.map f).getD 0
  match key with
  | 0 => h.v
  | 1 => twos 64 h.lse
  | 2 => h.seed
  | 3 => h.s
  | 4 => h.g
  | 5 => s.seq.openV
  | 6 => s.seq.sealV
  | 7 => s.get Reg.REASON
  | 8 => plan (·.hdr.blockNo)
  | 9 => plan (·.hdr.nblock)
  | 10 => plan (·.bundles.length)
  | 11 => plan (·.hdr.planId)
  | _ => 0

/-- RDK. -/
def execRdk (p : Pred) (rd : BitVec 4) (key : Word) (s : State) : Result :=
  .next (s.issueS (.rdk p rd key) p rd (fun s => BitVec.ofNat 64 (s.stepConstant key.toNat)))

/-- VDIG: digit b of V (R56). -/
def execVdig (p : Pred) (rd : BitVec 4) (b : Word) (s : State) : Result :=
  .next (s.issueS (.vdig p rd b) p rd (fun s =>
    BitVec.ofNat 64 ((s.plan.plan.map (fun pl => pl.digit s.step.hdr.v b.toNat)).getD 0)))

/-! ### Addresses (R198) -/

/-- The region of an address. -/
def addrRegion (a : BitVec 48) : Nat := (a.extractLsb' 42 6).toNat

/-- An address with its offset moved modulo 2^42. -/
def addrMove (a : BitVec 48) (d : DWord) : BitVec 48 := a.extractLsb' 42 6 ++ (a.extractLsb' 0 42 + d.extractLsb' 0 42)

/-- An instruction that writes one address register. -/
def State.issueA (s : State) (i : Instr) (p : Pred) (ad : BitVec 3) (v : State → BitVec 48) : State :=
  s.issue i p (fun s => (s.aset ad (v s)).seqDone)

/-- LIA. -/
def execLia (p : Pred) (ad : BitVec 3) (imm : Word) (s : State) : Result :=
  .next (s.issueA (.lia p ad imm) p ad (fun _ => imm.extractLsb' 26 6 ++ (imm.extractLsb' 0 26).setWidth 42))
/-- ADDAI. -/
def execAddai (p : Pred) (ad ar : BitVec 3) (imm : Word) (s : State) : Result :=
  .next (s.issueA (.addai p ad ar imm) p ad (fun s => addrMove (s.aget ar) (imm.signExtend 64)))
/-- ADDA. -/
def execAdda (p : Pred) (ad ar : BitVec 3) (rb : BitVec 4) (s : State) : Result :=
  .next (s.issueA (.adda p ad ar rb) p ad (fun s => addrMove (s.aget ar) (s.sget rb)))
/-- SECT: the image's region and the section's offset. -/
def execSect (p : Pred) (ad : BitVec 3) (typ : Word) (s : State) : Result :=
  .next (s.issueA (.sect p ad typ) p ad (fun s =>
    match s.plan.plan with
    | some pl => BitVec.ofNat 48 (pl.region * 2 ^ 42 + pl.sectionOff typ.toNat)
    | none => 0))
/-- MOVA. -/
def execMova (p : Pred) (rd : BitVec 4) (ar : BitVec 3) (s : State) : Result :=
  .next (s.issueS (.mova p rd ar) p rd (fun s => (s.aget ar).setWidth 64))

/-! ### Memory (R198 to R200) -/

/-- The bytes that an SZ code stands for (R185): 8, 4, 2, 1. -/
def accessSize (sz : BitVec 2) : Nat := 8 / 2 ^ sz.toNat

/-- The region and dense offset of an access of `n` bytes, rounded down (R198). -/
def State.accessAt (s : State) (ar : BitVec 3) (imm : Word) (n : Nat) : Nat × Nat :=
  let a := addrMove (s.aget ar) (imm.signExtend 64)
  let off := (a.extractLsb' 0 42).toNat
  (addrRegion a, off - off % n)

/-- TRAP_INFO of an address trap (R191). -/
def State.addrInfo (s : State) (n off : Nat) : Nat := if s.enabled n then off / 1920 % 2 ^ 32 else 0xFFFFFFFF

/-- An access that the sequencer may not make: region disabled, or beyond its size (R198). -/
def State.beyond (s : State) (n off len : Nat) : Bool := !s.enabled n || decide ((s.regionWords n).size < off + len)

/-- Regions that the sequencer may write (R199); an image is pending from its LOAD on, while it is still verified too (R183). -/
def State.seqWritable (s : State) (n : Nat) : Bool :=
  match (s.regionWords n).cls with
  | .activation | .spare => true
  | .plan => !(s.plan.plan.any (·.region == n)) && !(s.plan.pend.any (·.region == n)) && !(s.plan.load.any (·.region == n))
  | .state | .reduction | .weight | .frozen | .factor => false

/-- The access lies within one BW = 0 section of the loaded image. -/
def State.inConstSection (s : State) (n off len : Nat) : Bool :=
  match s.plan.plan with
  | some p => p.region == n && p.sections.any (fun x =>
      !x.bw && decide (x.off ≤ off) && decide (off + len ≤ x.off + x.bytes.length))
  | none => false

/-- Read bytes of a region for an instruction: the bytes, and whether every line gave data (log entry 29). -/
def State.seqBytes (s : State) (n off len : Nat) : List Byte × Bool × State :=
  let e := s.regionWords n
  (s.chargeReads 15 ((lineWrites e off (List.replicate len 0)).map (·.1))).fetchBytes .sequencer e off len

/-- Read a number of `len` bytes; none when a line gives no data (log entry 41). -/
def State.seqRead (s : State) (n off len : Nat) : Option Nat × State :=
  let (b, ok, s) := s.seqBytes n off len
  (if ok then some (leNat b) else none, s)

/-- LD (R198, R200; log entry 41). -/
def execLd (p : Pred) (rd : BitVec 4) (ar : BitVec 3) (sz : BitVec 2) (imm : Word) (s : State) : Result :=
  .next (s.issue (.ld p rd ar sz imm) p (fun s =>
    let (n, off) := s.accessAt ar imm (accessSize sz)
    if s.beyond n off (accessSize sz) then s.trap 0x04 (s.addrInfo n off)
    else
      let (v, s) := s.seqRead n off (accessSize sz)
      (s.sset rd (BitVec.ofNat 64 (v.getD 0))).seqDone))

/-- LDC (R198). -/
def execLdc (p : Pred) (rd : BitVec 4) (ar : BitVec 3) (sz : BitVec 2) (imm : Word) (s : State) : Result :=
  .next (s.issue (.ldc p rd ar sz imm) p (fun s =>
    let (n, off) := s.accessAt ar imm (accessSize sz)
    if s.beyond n off (accessSize sz) || !s.inConstSection n off (accessSize sz) then s.trap 0x04 (s.addrInfo n off)
    else match s.seqRead n off (accessSize sz) with
      | (some v, s) => (s.sset rd (BitVec.ofNat 64 v)).seqDone
      | (none, s) => s.trap 0x02 (off / 1920)))

/-- ST (R198, R199; log entry 29). -/
def execSt (p : Pred) (rs : BitVec 4) (ar : BitVec 3) (sz : BitVec 2) (imm : Word) (s : State) : Result :=
  .next (s.issue (.st p rs ar sz imm) p (fun s =>
    let (n, off) := s.accessAt ar imm (accessSize sz)
    if s.beyond n off (accessSize sz) || !s.seqWritable n then s.trap 0x04 (s.addrInfo n off)
    else
      let e := s.regionWords n
      ((s.chargeWrites 15 [e.lineAt (off - off % 64)]).storeBytes .sequencer e off
        (leBytes (accessSize sz) (s.sget rs).toNat)).seqDone))

/-- An atomic add of the sequencer must wait: the BSU that executes it starts no sequence yet (R278, R281). -/
def State.atomicHeld (s : State) (ar : BitVec 3) (imm : Word) (size : Nat) : Bool :=
  let (n, off) := s.accessAt ar imm size
  !s.beyond n off size && s.seqWritable n && s.atomicWaits ((s.regionWords n).lineAt off)

/-- An atomic add of the sequencer (R200; log entry 29). One that must wait has not issued: it is not counted and is presented again
(log entry 124). -/
def State.seqAtomic (s : State) (ar : BitVec 3) (imm : Word) (size form op : Nat) : State :=
  let (n, off) := s.accessAt ar imm size
  if s.atomicHeld ar imm size then s.modSeq (fun q => { q with count := q.count - 1 })
  else if s.beyond n off size || !s.seqWritable n then s.trap 0x04 (s.addrInfo n off)
  else (s.atomicAdd .sequencer 15 false ((s.regionWords n).lineAt off) (off % 64) form op).2.seqDone

/-- AADD (R200). -/
def execAadd (p : Pred) (rs : BitVec 4) (ar : BitVec 3) (imm : Word) (s : State) : Result :=
  .next (s.issue (.aadd p rs ar imm) p (fun s => s.seqAtomic ar imm 8 1 (s.sget rs).toNat))

/-- AADDF (R200). -/
def execAaddf (p : Pred) (rs : BitVec 4) (ar : BitVec 3) (imm : Word) (s : State) : Result :=
  .next (s.issue (.aaddf p rs ar imm) p (fun s => s.seqAtomic ar imm 4 2 ((s.sget rs).toNat % 2 ^ 32)))

/-! ### Control registers (R201) -/

/-- RCR (log entry 39). -/
def execRcr (p : Pred) (rd : BitVec 4) (off : Word) (s : State) : Result :=
  .next (s.issueS (.rcr p rd off) p rd (fun s => BitVec.ofNat 64 (s.readWord off.toNat)))

/-- WCR: the mailbox registers (R201, R202). -/
def execWcr (p : Pred) (rs : BitVec 4) (off : Word) (s : State) : Result :=
  .next (s.issue (.wcr p rs off) p (fun s => (s.writeFields off.toNat ((s.sget rs).toNat % 2 ^ 32)).seqDone))

/-! ### Admission and collectives (R203 to R205) -/

/-- The row unit of the first line of an access that gives no data (R191). -/
def State.badUnit? (s : State) (n off len : Nat) : Option Nat :=
  let e := s.regionWords n
  let first := off / 64
  ((List.range ((off + len + 63) / 64 - first)).find? (fun i => (s.lineVal (e.lineAt (64 * (first + i)))).isBad)).map
    (fun i => (first + i) / 30)

/-- TRAP_INFO of a trap 0x02 on an access (R191). -/
def State.badUnit (s : State) (n off len : Nat) : Nat := (s.badUnit? n off len).getD (off / 1920)

/-- Read constant sections of the loaded image that a command of the program needs, each range by its offset in the image and its
length: a line that cannot be read is trap 0x02 (R180, R191). The contents are those that the load parsed. -/
def State.readLists (s : State) (p : Plan) (rs : List (Nat × Nat)) (k : State → State) : State :=
  let t := rs.foldl (fun s r => (s.seqBytes p.region r.1 r.2).2.2) s
  match rs.findSome? (fun r => s.badUnit? p.region r.1 r.2) with
  | some u => t.trap 0x02 u
  | none => k t

/-- A segment of a list as a range of the image; one without entries is none. -/
def Plan.segRange (p : Plan) (typ size off n : Nat) : List (Nat × Nat) :=
  if n = 0 then [] else [(p.sectionOff typ + off, size * n)]

/-- What open reads of the image for variant V: the demand vectors and the arrival schedule of its records (R171, R180, R203). -/
def Plan.openRanges (p : Plan) (v : Nat) : List (Nat × Nat) :=
  (p.records v).flatMap (fun r => (p.sectionOff 0x11 + r.demOff, 3072) :: p.segRange 0x0D 16 r.asOff r.asN)

/-- What commit reads: the commit list and the layer list (R154, R171, R180). -/
def Plan.commitRanges (p : Plan) (v : Nat) : List (Nat × Nat) :=
  (p.records v).flatMap (fun r =>
    p.segRange 0x0B 16 r.ceOff r.ceN ++ p.segRange 0x0B 16 r.clOff r.clN ++ p.segRange 0x0E 2 r.lyOff r.lyN)

/-- What an emission instance reads: the emission list (R171, R180). -/
def Plan.emissionRanges (p : Plan) (v : Nat) : List (Nat × Nat) :=
  (p.records v).flatMap (fun r => p.segRange 0x0C 16 r.eeOff r.eeN ++ p.segRange 0x0C 16 r.elOff r.elN)

/-- OPEN (R190, R203). -/
def execOpenStep (p : Pred) (s : State) : Result :=
  .next (s.issue (.openStep p) p (fun s =>
    if s.get Reg.PHASE != 1 || s.seq.openRun then s.trap 0x03 0x01
    else match s.plan.plan with
      | none => s
      | some pl => s.readLists pl (pl.openRanges s.step.hdr.v) (fun s =>
        let s := (s.modSeq (fun q => { q with openRun := true, wait := some .openVerdict })).beginWait .openVerdict 0
        s.postOwn 0x30 s.step.hdr.s (s.openRecord pl))))

/-- Every slot of the step lies in a begun arrival instance. -/
def StepState.slotsBegun (t : StepState) : Bool :=
  (List.range t.slots.length).all (fun n => t.insts.any (fun i => !i.emission && i.items.contains n))

/-- SEAL (R190, R203): ARRIVAL_END sends the record once arrival has ended. -/
def execSealStep (p : Pred) (s : State) : Result :=
  .next (s.issue (.sealStep p) p (fun s =>
    if s.seq.openV != 1 || s.seq.sealRun || !s.step.slotsBegun then s.trap 0x03 0x03
    else s.modSeq (fun q => { q with sealRun := true, wait := some .sealArrival })))

/-- The region and offset that an address register holds. -/
def State.addrOf (s : State) (ar : BitVec 3) : Nat × Nat :=
  (addrRegion (s.aget ar), ((s.aget ar).extractLsb' 0 42).toNat)

/-- Read `len` bytes of a constant section for an instruction: a place outside is trap 0x04, a bad line trap 0x02. -/
def State.readConst (s : State) (n off len : Nat) (k : List Byte → State → State) : State :=
  if s.beyond n off len || !s.inConstSection n off len then s.trap 0x04 (s.addrInfo n off)
  else match s.seqBytes n off len with
    | (b, true, s) => k b s
    | (_, false, t) => t.trap 0x02 (s.badUnit n off len)

/-- The entries of an instance list: q and CORE (R204). -/
def parseCset (n : Nat) (b : List Byte) : List (Nat × Bool) :=
  (List.range n).map (fun i => (wordFld b (4 * i) 15 0, wordFld b (4 * i) 31 31 == 1))

/-- The first entry of an instance list that breaks R204. -/
def csetBad (n : Nat) (b : List Byte) : Option Nat :=
  (List.range n).findSome? (fun i =>
    let q := wordFld b (4 * i) 15 0
    if wordFld b (4 * i) 30 16 != 0 || (i != 0 && decide (q ≤ wordFld b (4 * (i - 1)) 15 0)) then some q else none)

/-- The posts that a new instance list leaves (R205): others set BADPOST. -/
def State.checkPosts (s : State) (l : List (Nat × Bool)) : State :=
  let ok (q : Nat) : Bool := l.any (fun e => e.1 == q && e.2)
  let bad := s.step.posts.any (fun q => !ok q)
  let s := s.modStep (fun t => { t with posts := t.posts.filter ok })
  if bad then s.setFlag Reg.BADPOST true else s

/-- A trap of cause 0x06 that concerns no q: TRAP_INFO is an open value (log entry 38). -/
def State.trapNoQ (s : State) : State :=
  let (v, s) := s.free
  s.trap 0x06 (v.toNat % 2 ^ 32)

/-- CSET (R204). The count and a second cset are checked before the address: the manual gives no order (log entry 38). -/
def execCset (p : Pred) (ar : BitVec 3) (n : Word) (s : State) : Result :=
  .next (s.issue (.cset p ar n) p (fun s =>
    let (r, off) := s.addrOf ar
    if n = 0 || 1024 < n.toNat || s.step.cset.isSome then s.trapNoQ
    else s.readConst r off (4 * n.toNat) (fun b s =>
      match csetBad n.toNat b with
      | some q => s.trap 0x06 q
      | none =>
        let l := parseCset n.toNat b
        let s := (s.modStep (fun t => { t with cset := some l, csetAt := off })).keepLog (fun g =>
          if s.seq.openV = 1 then { g with csetOff := off, csetN := l.length } else g)
        (s.checkPosts l).seqDone)))

/-- An instance descriptor (R219), its indices not yet covered by an earlier instance of its kind. -/
def State.parseInst (s : State) (b : List Byte) : Inst :=
  let em := wordFld b 0 15 15 == 1
  let first := leAt b 8 4
  let count := leAt b 12 4
  let len := if em then s.step.chunks.length else s.step.slots.length
  { q := wordFld b 0 31 16
    emission := em
    role := wordFld b 0 11 8
    portmask := wordFld b 0 7 0
    weight := wordFld b 4 31 24
    cgrp := wordFld b 4 19 8
    poolch := wordFld b 4 3 0
    items := (List.range len).filter (fun i => decide (first ≤ i) && decide (i < first + count)
      && !s.step.insts.any (fun x => x.emission == em && x.items.contains i))
    halted := false
    ended := false }

/-- Instance `i` may begin (R179). -/
def State.mayBegin (s : State) (i : Inst) : Bool :=
  let l := s.step.cset.getD []
  l.all (fun e => decide (i.q ≤ e.1) || s.step.insts.any (·.q == e.1))
    && (s.activeGroups.contains i.cgrp || decide (s.activeGroups.length < 16))
    && (i.emission || decide ((s.step.insts.filter (fun x => !x.emission && !x.ended)).length < 16))
    && (!(l.any (fun e => e.1 == i.q && e.2)) || s.step.posts.contains i.q)

/-- An instance begins; the coll that waits for it completes. The block reads the emission list for an emission instance (R180). -/
def State.beginInst (s : State) (i : Inst) : State :=
  let go (s : State) : State := (s.modStep (fun t => { t with insts := t.insts ++ [i] })).settleInsts.seqDone
  match s.plan.plan with
  | some pl => if i.emission then s.readLists pl (pl.emissionRanges s.step.hdr.v) go else go s
  | none => go s

/-- COLL (R179, R190, R203, R204; log entry 38). -/
def execColl (p : Pred) (ar : BitVec 3) (q : Word) (s : State) : Result :=
  .next (s.issue (.coll p ar q) p (fun s =>
    let (r, off) := s.addrOf ar
    s.readConst r off 32 (fun b s =>
      let i := s.parseInst b
      if !(s.step.cset.getD []).any (fun e => e.1 == q.toNat) || (s.inst? q.toNat).isSome || i.q != q.toNat then
        s.trap 0x06 q.toNat
      else if i.emission && s.seq.sealV == 0 then s.trap 0x03 0x04
      else if !i.emission && (s.seq.openV != 1 || s.seq.sealRun) then s.trap 0x03 0x02
      else if s.mayBegin i then s.beginInst i
      else s.modSeq (fun x => { x with wait := some (.coll i.q) }))))

/-- The descriptor of the coll that waits at pc. -/
def State.waitingInst (s : State) : Option Inst :=
  match s.plan.plan, s.seq.wait with
  | some p, some (.coll _) =>
    match sarDecode (p.codeWord s.seq.pc) with
    | some (.coll _ ar _) =>
      let (r, off) := s.addrOf ar
      some (s.parseInst (s.regionBytes (s.regionWords r) off 32).1)
    | _ => none
  | _, _ => none

/-- COLL_BEGIN (R179): the waiting instance begins once it may. -/
def execCollBegin (s : State) : Result :=
  let s := s.settleInsts
  match s.waitingInst with
  | some i => if s.mayBegin i then .next (s.beginInst i) else .next s
  | none => .next s

/-- CWAIT (R203, R204). -/
def execCwait (p : Pred) (q : Word) (s : State) : Result :=
  .next (s.issue (.cwait p q) p (fun s =>
    if (s.inst? q.toNat).isNone then s.trap 0x06 q.toNat
    else (s.modSeq (fun x => { x with wait := some (.cwait q.toNat) })).settleWait))

/-- A post to COLL_POST (R179, R205). -/
def State.post (s : State) (q : Nat) : State :=
  let bad := (match s.step.cset with
    | some l => !(l.any (fun e => e.1 == q && e.2))
    | none => false) || (s.inst? q).isSome
  if bad then s.setFlag Reg.BADPOST true
  else if s.step.posts.contains q then s
  else s.modStep (fun t => { t with posts := t.posts ++ [q] })

/-- COLL_POST (R205). -/
def execCollPost (q : Half) (s : State) : Result :=
  .next (s.onWrite 0x0430 (q.setWidth 32) (fun s => s.post q.toNat))

/-! ### Bank side, layers, flags (R206, R207) -/

/-- COMMIT (R190, R206). -/
def execCommit (p : Pred) (s : State) : Result :=
  .next (s.issue (.commit p) p (fun s =>
    if s.seq.sealV != 1 || s.seq.commitRun then s.trap 0x03 0x06
    else match s.plan.plan with
      | none => s
      | some pl => s.readLists pl (pl.commitRanges s.step.hdr.v) (fun s =>
        (s.modSeq (fun q => { q with commitRun := true })).maybeEmission.seqDone)))

/-- CDONE (R190, R206). -/
def execCdone (p : Pred) (s : State) : Result :=
  .next (s.issue (.cdone p) p (fun s =>
    if !s.seq.commitRun then s.trap 0x03 0x07
    else (s.modSeq (fun q => { q with wait := some .cdone })).settleWait))

/-- LWAIT (R190, R206). -/
def execLwait (p : Pred) (s : State) : Result :=
  .next (s.issue (.lwait p) p (fun s =>
    if !s.seq.commitRun then s.trap 0x03 0x07
    else (s.modSeq (fun q => { q with wait := some .lwait })).settleWait))

/-- The phase rule of fclr and bsutab (R190, code 0x09). -/
def State.flagsQuiet (s : State) : Bool := !s.seq.openRun || s.seq.cdoneOk || s.seq.openV == 2 || s.seq.sealV == 2

/-- BSUTAB (R190, R206). -/
def execBsutab (p : Pred) (ra : BitVec 4) (ar : BitVec 3) (s : State) : Result :=
  .next (s.issue (.bsutab p ra ar) p (fun s =>
    let (r, off) := s.addrOf ar
    let ds := onBits 24 (s.sget ra).toNat
    if !s.flagsQuiet then s.trap 0x03 0x09
    else match s.plan.plan with
      | none => s
      | some pl =>
        if r != pl.region || off != pl.sectionOff 9 then s.trap 0x04 (s.addrInfo r off)
        else match ds.find? (fun d => !s.present d || !s.inService d) with
          | some d => s.trap 0x04 d
          | none => s.readLists pl [(pl.sectionOff 9, 512)] (fun s =>
            (ds.foldl (fun s d => s.loadSeed d pl.seedTable) s).seqDone)))

/-- BSUST (R206, R277): a sequence that no entry began has ended with its bound (R279). -/
def execBsust (p : Pred) (rd ra : BitVec 4) (s : State) : Result :=
  .next (s.issue (.bsust p rd ra) p (fun s =>
    let v := (s.sget ra).toNat
    let d := bits v 9 5
    if !s.inService d then s.trap 0x04 d
    else
      let s := s.retire
      (s.sset rd (BitVec.ofNat 64 (s.bsuStatus d (bits v 4 3) (bits v 2 0) (bits v 10 10)))).seqDone))

/-- Clear a group's flags. -/
def Group.clearFlags (g : Group) : Group := { g with flags := Flags.clear }

/-- FCLR (R190, R207). -/
def execFclr (p : Pred) (ra : BitVec 4) (kind : Word) (s : State) : Result :=
  .next (s.issue (.fclr p ra kind) p (fun s =>
    let i := (s.sget ra).toNat
    let n (f : Plan → Nat) : List Nat := List.range ((s.plan.plan.map f).getD 0)
    let clrShard (h : Shard) : Shard := { h with nonfin := false }
    let clrLayer (l : Layer) : Layer := { l with rootfb := false }
    if !s.flagsQuiet then s.trap 0x03 0x09
    else (match kind.toNat with
      | 0 => s.modGroup i Group.clearFlags
      | 1 => (n (·.groups.length)).foldl (fun s g => s.modGroup g Group.clearFlags) s
      | 2 => s.modShard i clrShard
      | 3 => (n (·.shards.length)).foldl (fun s h => s.modShard h clrShard) s
      | 4 => s.modLayer i clrLayer
      | _ => (n (·.layers.length)).foldl (fun s l => s.modLayer l clrLayer) s).seqDone))

/-- FRD: bits [3:0] of the group's word +0x00; 0 for a group that the plan does not hold (R207). -/
def execFrd (p : Pred) (rd ra : BitVec 4) (s : State) : Result :=
  .next (s.issueS (.frd p rd ra) p rd (fun s =>
    match s.plan.plan.bind (fun pl => pl.groups[(s.sget ra).toNat]?) with
    | some g => BitVec.ofNat 64 (g.flags.invalid.toNat * 8 + g.flags.overflow.toNat * 4 + g.flags.flushed.toNat * 2
        + g.cfg.flush.toNat)
    | none => 0))

/-! ### Tier and record (R208) -/

/-- `n` entries of 16 B at an address lie wholly within section `t` of the loaded image. -/
def State.inSection (s : State) (t r off n : Nat) : Bool :=
  match s.plan.plan with
  | some p => p.region == r && decide (p.sectionOff t ≤ off)
      && decide (off + 16 * n ≤ p.sectionOff t + (p.section t).length)
  | none => false

/-- Moves that a halted tier channel ends at once (R306): a failed IN before the local seal record sets POISON. -/
def State.failMoves (s : State) : State :=
  if s.flag Reg.THALT && !s.tier.queue.isEmpty then
    let ins := s.tier.queue.any (·.op == 1)
    let s : State := { s with tier := { s.tier with queue := [] } }
    let s := s.dropWaits (fun x => x.watch == .tierMove)
    if ins && s.inStep then s.poison else s
  else s

/-- TMOV (R190, R208, R330). -/
def execTmov (p : Pred) (ar : BitVec 3) (n : Word) (s : State) : Result :=
  .next (s.issue (.tmov p ar n) p (fun s =>
    let (r, off) := s.addrOf ar
    if s.seq.openV != 1 then s.trap 0x03 0x08
    else if !s.inSection 0x13 r off n.toNat || 4096 ≤ s.tier.tmovs then s.trap 0x04 (s.addrInfo r off)
    else match s.seqBytes r off (16 * n.toNat) with
      | (b, true, s) =>
        let s := s.keepLog (fun g => { g with moves := g.moves ++ [(off, n.toNat)] })
        let s : State := { s with tier := { s.tier with
          queue := s.tier.queue ++ seg parseMove b 16 0 n.toNat
          tmovs := s.tier.tmovs + 1 } }
        s.failMoves.seqDone
      | (_, false, t) => t.trap 0x02 (s.badUnit r off (16 * n.toNat))))

/-- TWAIT (R208). -/
def execTwait (p : Pred) (s : State) : Result :=
  .next (s.issue (.twait p) p (fun s => (s.modSeq (fun q => { q with wait := some .twait })).settleWait))

/-- REC (R190, R208, R315). -/
def execRecArm (p : Pred) (ar : BitVec 3) (n : Word) (s : State) : Result :=
  .next (s.issue (.recArm p ar n) p (fun s =>
    let (r, off) := s.addrOf ar
    if s.seq.sealV != 1 || s.seq.commitRun then s.trap 0x03 0x05
    else if !s.inSection 0x14 r off n.toNat then s.trap 0x04 (s.addrInfo r off)
    else match s.seqBytes r off (16 * n.toNat) with
      | (b, true, s) => (s.modStep (fun t => { t with armed := seg parseRec b 16 0 n.toNat })).seqDone
      | (_, false, t) => t.trap 0x02 (s.badUnit r off (16 * n.toNat))))

/-! ### Digests (R209) -/

/-- HSH. -/
def execHsh (p : Pred) (rd : BitVec 4) (ar : BitVec 3) (len : Word) (s : State) : Result :=
  .next (s.issue (.hsh p rd ar len) p (fun s =>
    let (r, off) := s.addrOf ar
    if s.beyond r off len.toNat then s.trap 0x04 (s.addrInfo r off)
    else
      let (b, ok, s) := s.seqBytes r off len.toNat
      (s.sset rd (if ok then recordDigest b else 0)).seqDone))

/-- ODIG. -/
def execOdig (p : Pred) (rd : BitVec 4) (s : State) : Result :=
  .next (s.issueS (.odig p rd) p rd (fun s => BitVec.ofNat 64 (s.get64 Reg.ODIG_LO Reg.ODIG_HI)))

/-- DMIX. -/
def execDmix (p : Pred) (rd ra rb : BitVec 4) (s : State) : Result :=
  .next (s.issueS (.dmix p rd ra rb) p rd (fun s => digestTerm (s.sget ra).toNat (s.sget rb).toNat))

end Sys2Proof.Machine
end

