-- ==== Sys2Proof/Machine/Arrival.lean ====
section
/-! DEFINITION. Arrival (R62 to R66, R80 to R82, R220 to R227): closing slots, adding contributions, closing sectors, folding
summaries, and the end of arrival. -/

namespace Sys2Proof.Machine

/-! ### Slots -/

/-- Change slot `n` of the step. -/
def State.modSlot (s : State) (n : Nat) (f : SlotSt → SlotSt) : State :=
  s.modStep (fun t => { t with slots := modAt t.slots n f })

/-- Change sector `n` of the step. -/
def State.modSector (s : State) (n : Nat) (f : SectorSt → SectorSt) : State :=
  s.modStep (fun t => { t with sectors := modAt t.sectors n f })

/-- Every slot that covers a sector has closed. -/
def StepState.covered (t : StepState) (x : SectorSt) : Bool :=
  x.slots.all (fun n => (t.slots[n]?).any (·.closed))

/-- The epoch-image entry and the MASK of the rows whose last slot has closed (R130, R330): the EPOCH that the row's metadata
holds; a row that is still FAR gets its entry when its move-in ends (log entry 55). -/
def State.imageRow (s : State) (x : SectorSt) : State :=
  let mask := if s.plan.plan.any (fun p => p.rowUnits x.group) then x.mask else 31
  match s.rowMeta x.loc with
  | none => (s.noteLine .reducer ⟨x.loc, 0⟩ (.bad 0x05 0)).poison
  | some m =>
    let ep := if m.far then none else some m.epoch
    let s := s.modStep (fun t => { t with entries := t.entries.map (fun e =>
      if e.e.loc = x.loc then { e with mask := mask, epoch0 := ep } else e) })
    s.keepLog (fun g => { g with epochs := (s.step.entries.zip g.epochs).map (fun p =>
      if p.1.e.loc = x.loc then ep.map (fun n => (n, mask)) else p.2) })

/-- A slot has closed: the rows that it completes get their epoch image, and instances may end. -/
def State.slotClosed (s : State) (n : Nat) : State :=
  ((s.step.sectors.filter (fun x => x.slots.contains n && s.step.covered x)).foldl State.imageRow s).settleInsts

/-- The bytes of a contribution to a slot (R224). -/
def SlotEntry.bytes (x : SlotEntry) : Nat := 320 * x.nsec + (if x.runit then (x.nsec + 63) / 64 * 64 else 0)

/-! ### Adding -/

/-- `n` open words (log entry 42). -/
def State.freeWords : Nat → State → List Word × State
  | 0, s => ([], s)
  | n + 1, s =>
    let (v, s) := s.free
    let (vs, s) := s.freeWords n
    (v.extractLsb' 0 32 :: vs, s)

/-- The words of a line of a sector, BF16 values in the upper half (R28). -/
def sectorWords (g16w : Bool) (b : List Byte) : List Word := sectorValues g16w b

/-- The bytes of sector values. -/
def sectorBytes (g16w : Bool) (ws : List Word) : List Byte :=
  if g16w then bytesOfWords ws else ws.flatMap (fun w => leBytes 2 (w.extractLsb' 16 16).toNat)

/-- One sum of a sector (R80, R81): `y` is the contribution's value, BF16 in the upper half, or FP32 already. -/
def sectorAdd (g16w flush : Bool) (x y : Word) : Fp Word := fpAddP (if g16w then 24 else 8) flush x y

/-- What adding values to one line of a sector finds and writes. -/
structure LineAdd where
  ok    : Bool
  flags : Flags
  s     : State

/-- Add values to line `i` of a sector of a reduction row; a line that gives no data takes nothing (R275). -/
def State.addLine (s : State) (a : ErrSrc) (w : WriteMode) (g16w flush : Bool) (x : LineLoc) (vs : List Word)
    (residueFault : Bool) : LineAdd :=
  let v := s.lineVal x
  match v.bytes? with
  | none => ⟨false, Flags.clear, (s.noteLine a x v).poisonBy x.loc v⟩
  | some b =>
    let (ws, f) := (((sectorWords g16w b).zip vs).mapM (fun p => sectorAdd g16w flush p.1 p.2)).go
    let s := s.noteLine a x v
    let (ws, s) := if residueFault then s.freeWords ws.length else (ws, s)
    let (ok, s) := s.writeLine a w x (sectorBytes g16w ws) fullMask
    ⟨ok, f, s⟩

/-- Add 160 values to the lines of a sector, line by line (log entry 54). -/
def State.addLines (a : ErrSrc) (w : WriteMode) (g16w flush residueFault : Bool) :
    List LineLoc → List Word → LineAdd → LineAdd
  | [], _, r => r
  | x :: t, vs, r =>
    let n := if g16w then 16 else 32
    let q := r.s.addLine a w g16w flush x (vs.take n) residueFault
    State.addLines a w g16w flush residueFault t (vs.drop n) ⟨r.ok && q.ok, r.flags.or q.flags, q.s⟩

/-- The place of a touched sector. -/
def State.sectorPlace (s : State) (x : SectorSt) : PoolPlace := s.poolPlace x.loc x.pool .bf16

/-- `n` failed residue equations, or the one report of a BSU (R227, R319; log entry 54). -/
def State.residueFault (s : State) (a : ErrSrc) (n : Nat) : State :=
  ((s.bump Reg.RESFAULTS n).log_ 0x07 a (ErrInfo.plain 0)).modSeal (fun l => { l with resfault := true })

/-- Add the contribution of one slot to one sector: by an ACCW in the BSU of the sector's pair, or by a core reducer (R227); bursts of
the ACCW that the BSU discards are sent again (R269, R292). -/
def State.addToSector (s : State) (x : SectorSt) (vals : List Half) (residueFaults linkFails : Nat) : State :=
  let pl := s.sectorPlace x
  let flush := (s.groupCfg x.group).flush
  let xs := sectorLocs pl.red pl.g16w pl.sect
  let raw : List Word := vals.map (fun h => h ++ (0 : Half))
  let (ws, f0) := if pl.g16w then (raw.mapM (fun w => fpOfBf16 flush (w.extractLsb' 16 16))).go else (raw, Flags.clear)
  let d := pl.red.dev
  if s.inService d then
    let l := pl.red.at (partnerBank pl.red.bank) 0
    let s := (s.charge 10 1 (2 * xs.length * (min linkFails 3 + 1)) 1).orFlags x.group f0
    let s := (s.openSeqRetried l pl.red.row 2 1 (if s.rowRemapped pl.red then 120 else 60) none (min linkFails 3)).linkTrouble
      .bsu ⟨pl.red, 0⟩ linkFails
    if 3 < linkFails then s
    else
      let s := (s.perf 5 1).countCorr pl.red (xs.map (s.seenByBsu l).lineVal)
      let es := s.fault.remap
      let r := State.addLines .bsu .through pl.g16w flush (residueFaults != 0) xs ws ⟨true, Flags.clear, s.seenByBsu l⟩
      let s := r.s.withRemap es
      let b := s.bsu d pl.red.ch pl.red.pair
      let b : Bsu := { b with accw := true, result := some RowResult.zero, res := b.res || residueFaults != 0, ue := b.ue || !r.ok }
      (s.setBsu d pl.red.ch pl.red.pair b).orFlags x.group r.flags
  else
    let s := (((s.awaitPair pl.red).orFlags x.group f0).chargeReads 10 xs).chargeWrites 10 xs
    let s := s.linkTrouble .reducer ⟨pl.red, 0⟩ linkFails
    if 3 < linkFails then s
    else
      let r := State.addLines .reducer .buffered pl.g16w flush (residueFaults != 0) xs ws ⟨true, Flags.clear, s⟩
      let s := r.s.orFlags x.group r.flags
      if residueFaults != 0 then s.residueFault .reducer residueFaults else s

/-! ### Closing a sector -/

/-- The finite bit and the partial square sum of a sector's values (R64). -/
def sectorSummary (npar : Nat) (ws : List Word) : Bool × DWord :=
  let xs := ws.take npar
  (xs.all fpIsFinite, xs.foldl (fun acc w => f64Add acc (f64Mul (f64OfFp w) (f64OfFp w))) 0)

/-- The lines of a sector as its close reads them: the sums that the last ACCW returns (R64, R275), or ordinary reads. -/
def State.closeRead (s : State) (fused : Bool) (red : RowLoc) (xs : List LineLoc) : List LineVal × State :=
  if fused && s.inService red.dev then
    let vs := xs.map s.lineVal
    (vs, (xs.zip vs).foldl (fun s x => s.poisonBy x.1.loc x.2) (s.charge 10 (2 * xs.length) 0 1))
  else
    xs.foldl (fun (acc : List LineVal × State) y =>
      let (v, s) := acc.2.fetchLine .reducer y
      (acc.1 ++ [v], s)) ([], s.chargeReads 10 xs)

/-- Close sector `n` (R64), fused with its last addition or by a separate read: a line that gives no data leaves the summary open
and poisons the step (log entry 54). -/
def State.closeSector (s : State) (n : Nat) (fused : Bool) : State :=
  match s.step.sectors[n]? with
  | none => s
  | some x =>
    let pl := s.sectorPlace x
    let (vs, s) := s.closeRead fused pl.red (sectorLocs pl.red pl.g16w pl.sect)
    if vs.all (fun v => !v.isBad) then
      let b := vs.flatMap (fun v => (v.bytes?).getD [])
      s.modSector n (fun y => { y with closed := true, summary := some (sectorSummary y.npar (sectorWords pl.g16w b)) })
    else
      let (v, s) := s.free
      let (f, s) := s.free
      (s.poison).modSector n (fun y => { y with closed := true, summary := some (f.getLsbD 0, v) })

/-! ### The commands -/

/-- The sectors that a slot covers, with their index and the position of their row in the slot's range. -/
def State.slotSectors (s : State) (p : Plan) (n : Nat) : List (Nat × SectorSt × Nat) :=
  match s.step.slots[n]? with
  | none => []
  | some x => (List.range x.e.nsec).filterMap (fun i =>
      ((s.step.sectors.zipIdx.find? (fun y => y.1.slots.contains n && y.1.loc == p.shardRow x.e.shard (x.e.frow + i))).map
        (fun y => (y.2, y.1, i))))

/-- The contribution of slot `n` is next in every sector that it covers (R63, R221). -/
def State.slotTurn (s : State) (n : Nat) : Bool :=
  s.step.sectors.all (fun x => !x.slots.contains n
    || x.slots.all (fun k => decide (n ≤ k) || (s.step.slots[k]?).any (·.closed)))

/-- Every BSU that the slot's ACCWs need may start a sequence (R278, R281). -/
def State.slotStarts (s : State) (ys : List (Nat × SectorSt × Nat)) : Bool :=
  ys.all (fun y =>
    let red := (s.sectorPlace y.2.1).red
    !s.inService red.dev || !s.mustWait red 1)

/-- CONTRIB_ADD (R63, R80 to R82, R130, R226, R415); it waits while a device that it needs starts no sequence (R281; log entries 2,
14, 124). -/
def execContribAdd (slot : Linked Word) (residueFaults : Nat) (s : State) : Result :=
  let n := slot.val.toNat
  match s.plan.plan, s.step.slots[n]? with
  | some p, some x =>
    if s.get Reg.PHASE != 2 || x.st != .arrived || !s.slotTurn n || !s.slotStarts (s.slotSectors p n) then .next s
    else
      let ys := s.slotSectors p n
      let s := if ys.any (fun y => !s.inService (s.sectorPlace y.2.1).red.dev) then s.perf 6 1 else s
      let s := ys.foldl (fun s y =>
        s.addToSector y.2.1 (halvesOf ((x.data.drop (320 * y.2.2)).take 320)) residueFaults slot.linkFails) s
      let masks := (x.data.drop (320 * x.e.nsec)).map (·.toNat)
      let s := if x.e.runit then
          let s := ys.foldl (fun s y => s.modSector y.1 (fun z => { z with mask := z.mask ||| masks.getD y.2.2 0 % 32 })) s
          if (masks.take x.e.nsec).any (32 ≤ ·) then s.modSeal (fun l => { l with arrfault := true }) else s
        else s
      let s := (s.modSlot n (fun z => { z with st := .added, data := [] })).slotClosed n
      .next (ys.foldl (fun s y => if y.2.1.slots.getLast? = some n then s.closeSector y.1 true else s) s)
  | _, _ => .next s

/-- SECTOR_CLOSE_READ (R64): the separate read of a sector whose last slot in schedule order closed by a marker (log entry 2). -/
def execSectorCloseRead (sector : Nat) (s : State) : Result :=
  match s.step.sectors[sector]? with
  | some x =>
    if s.get Reg.PHASE == 2 && !x.closed && s.step.covered x
        && (x.slots.getLast?.bind (fun n => s.step.slots[n]?)).any (·.st == .marked) then .next (s.closeSector sector false)
    else .next s
  | none => .next s

/-- SECTOR_SUMMARY_FOLD (R65): the next summary in sector-close order. -/
def execSectorSummaryFold (s : State) : Result :=
  match s.step.sectors.findIdx? (fun x => !x.folded) with
  | none => .next s
  | some i =>
    match s.step.sectors[i]?.bind (fun x => x.summary.map (fun y => (x, y))) with
    | none => .next s
    | some (x, fin, sq) =>
      let c := (s.groupCfg x.group).clipcls
      .next ((s.modSector i (fun y => { y with folded := true })).modSeal (fun l => { l with
        finite := l.finite && fin
        normsq := modAt l.normsq c (fun n => f64Add n sq) }))

/-- A source sent a present contribution in one slot of a tally group and a marker in another (R226). -/
def StepState.tallyMixed (t : StepState) : Bool :=
  t.slots.any (fun x => x.e.tgrp != 0xFFFF && x.st == .added
    && t.slots.any (fun y => y.e.tgrp == x.e.tgrp && y.e.src == x.e.src && y.st == .marked))

/-- Read with CLR the status of every BSU that executed an ACCW in the step (R277). -/
def State.readArrivalStatus (s : State) : State :=
  (s.dev.bsus.filter (·.2.accw)).foldl (fun s x =>
    let (d, c, k) := (x.1 / 32, x.1 / 8 % 4, x.1 % 8)
    let b := s.bsu d c k
    let s := (s.charge 10 1 0 1).setBsu d c k { b.clearSticky with accw := false }
    let s := if b.res then s.residueFault .bsu 1 else s
    if b.ue then s.poison else s) s

/-- Every slot and touched sector has closed and every summary is folded. -/
def StepState.arrivalDone (t : StepState) : Bool := t.slots.all (·.closed) && t.sectors.all (fun x => x.closed && x.folded)

/-- The row units that some presence bit touches (R130). -/
def State.touchedUnits (s : State) (p : Plan) : List Nat :=
  s.step.entries.flatMap (fun e => if p.rowUnits e.e.group then (maskBlocks e.mask).map e.e.unitOf else [])

/-- A row's MASK once arrival has ended: block q is committed exactly when its unit is touched (R130). -/
def CommitEntry.fullMask (e : CommitEntry) (us : List Nat) : Nat :=
  ((List.range 5).map (fun q => if us.contains (e.unitOf q) then 2 ^ q else 0)).sum

/-- The MASKs of the rows of row-unit groups, in the step and in the epoch image. -/
def State.expandMasks (s : State) : State :=
  match s.plan.plan with
  | none => s
  | some p =>
    let us := s.touchedUnits p
    let s := s.modStep (fun t => { t with entries := t.entries.map (fun e =>
      if p.rowUnits e.e.group then { e with mask := e.e.fullMask us } else e) })
    s.keepLog (fun g => { g with epochs := (s.step.entries.zip g.epochs).map (fun x => x.2.map (fun y => (y.1, x.1.mask))) })

/-- ARRIVAL_END (R66, R277, R331): BSU status, tally faults, LOGSTATE 2, and the local seal record, stamp 2 (log entry 55). -/
def execArrivalEnd (s : State) : Result :=
  if s.get Reg.PHASE == 2 && s.step.arrivalDone && s.seq.wait == some .sealArrival then
    let s := s.readArrivalStatus.expandMasks
    let s := if s.step.tallyMixed then s.modSeal (fun l => { l with arrfault := true }) else s
    let s := s.keepLog (fun g => { g with logState := 2 })
    let s := (s.modSeal (fun l => { l with sent := true })).modStep (fun t => { t with arrEnd := true })
    let s := ((s.set Reg.PHASE 3).stamp 2).beginWait .sealVerdict 0
    .next ((s.modSeq (fun q => { q with wait := some .sealVerdict })).postOwn 0x32 s.step.hdr.s s.sealRecord)
  else .next s

end Sys2Proof.Machine
end

