-- ==== Sys2Proof/Machine/Exchange.lean ====
section
/-! DEFINITION. Messages received and sent by the exchange: the checks and refusals of R216 to R218, arrival requests (R222 to
R226), the control tree (R230 to R232), emission at both ends (R233 to R241, R422) and remote access (R242, R257). -/

namespace Sys2Proof.Machine

/-! ### Checks and refusals -/

/-- The value against which a kind's EPOCH is checked (R215). -/
inductive EpochClass where
  | role | tree | remote
  deriving DecidableEq, Repr

/-- The class of a kind; a NACK has the class of the kind that it names as refused. -/
def epochClass (kind : Nat) : EpochClass :=
  if 0x30 ≤ kind ∧ kind ≤ 0x35 then .tree else if 0x40 ≤ kind ∧ kind ≤ 0x43 then .remote else .role

/-- LEN is as the kind requires, and the payload has that many bytes (R215, R235, R242; log entry 47). -/
def State.lenOk (s : State) (kind : Nat) (m : Msg) : Bool :=
  let n := m.hdr.len.toNat
  let inner := leAt m.payload 4 4
  m.payload.length == n && (match kind with
    | 0x03 | 0x04 | 0x06 | 0x22 | 0x43 => n == 8
    | 0x10 => decide (n ≤ 65536)
    | 0x20 => decide (16 ≤ n ∧ n ≤ 16 + 65535)
    | 0x21 => n == 32
    | 0x30 | 0x31 => n == 96
    | 0x32 | 0x33 => n == 128
    | 0x34 | 0x35 => s.plan.plan.all (fun p => n == 8 * p.tree.nexpt)
    | 0x40 => decide (1 ≤ inner ∧ inner ≤ 65536) && n == 16 + inner
    | 0x41 => decide (1 ≤ inner ∧ inner ≤ 65536) && n == 16
    | 0x42 => decide (1 ≤ n ∧ n ≤ 65536)
    | _ => n == 0)

/-- Check 2: the epoch (R216, R218). -/
def State.epochOk (s : State) (kind : Nat) (m : Msg) : Bool :=
  let k := if kind = 0x06 then leAt m.payload 1 1 else kind
  match epochClass k, s.plan.plan with
  | .remote, _ => m.hdr.epoch.toNat == s.get Reg.REMOTE_EPOCH
  | _, none => false
  | .tree, some p => m.hdr.epoch.toNat == p.tree.tepoch
  | .role, some _ => m.hdr.epoch.toNat == s.roleEpoch m.hdr.role.toNat

/-- Check 3: the lowest and the highest S that a kind may carry (R217); none where S is not checked. -/
def State.stepWindow (s : State) (kind : Nat) : Option (Nat × Nat) :=
  let c := s.stepS
  if kind = 0x01 ∨ kind = 0x02 then some (c, c + 1)
  else if kind = 0x10 ∨ epochClass kind = .tree then some (c, c)
  else if kind = 0x20 ∨ kind = 0x21 ∨ kind = 0x22 ∨ kind = 0x24 then some (c - 1, c)
  else none

/-- Check 7 of R216 fails: the request is the fifth of its source that is not answered (R224; log entry 17). -/
def fifthAsked (m : Msg) : Bool := decide (4 ≤ m.unanswered)

/-- Checks 1 to 3 of R216: the code of the first that fails. -/
def State.headerChecks (s : State) (kind : Nat) (m : Msg) : Option Nat :=
  if m.hdr.ver != 1 || m.hdr.vc.toNat != kindVc kind || !s.lenOk kind m then some 0x05
  else if !s.epochOk kind m then some 0x03
  else match s.stepWindow kind with
    | none => none
    | some (lo, hi) => if m.hdr.step.toNat < lo then some 0x01 else if hi < m.hdr.step.toNat then some 0x02 else none

/-- An answer, a token or a DN record, which no NACK answers (R216). -/
def noNack (kind : Nat) : Bool :=
  [0x03, 0x04, 0x05, 0x06, 0x21, 0x23, 0x31, 0x33, 0x35, 0x42, 0x43].contains kind

/-- Answer a message: same port, and Q, ROLE, INDEX, S and EPOCH copied from it (R213, R215, R217; log entry 43). -/
def State.answer (s : State) (m : Msg) (kind : Nat) (payload : List Byte) : State :=
  s.send m.port.toNat kind m.hdr.src.toNat m.hdr.epoch.toNat m.hdr.step.toNat m.hdr.q.toNat m.hdr.role.toNat
    m.hdr.index.toNat payload

/-- Refuse a message (R216): count it, record it in LREF, and answer NACK unless its kind takes none (log entry 46). -/
def State.refuse (s : State) (kind : Nat) (m : Msg) (code : Nat) : State :=
  let s := s.bump (if code = 0x03 then Reg.REF_EPOCH else if code = 0x01 ∨ code = 0x02 then Reg.REF_STEP else Reg.REF_OTHER) 1
  let s := (((s.set Reg.LREF_CODE code).set Reg.LREF_KIND kind).set Reg.LREF_SRC m.hdr.src.toNat).set Reg.LREF_INDEX
    m.hdr.index.toNat
  if noNack kind then s else s.answer m 0x06 (leBytes 8 (code + 256 * kind))

/-- A message reaches the block only on a port that is ready (R386). -/
def State.portReady (s : State) (port : BitVec 3) : Bool := s.pins.fRdy.testBit port.toNat

/-- Receive a message: on a ready port, or from the block itself (R213), with checks 1 to 3; in Clover everything is refused (R340). -/
def State.receive (s : State) (kind : Nat) (m : Msg) (k : State → State) : State :=
  if !s.portReady m.port && !s.toSelf m.hdr.src.toNat then s
  else if s.flag Reg.CLOVER then s.refuse kind m 0x05
  else match s.headerChecks kind m with
    | some code => s.refuse kind m code
    | none => k s

/-- Answer DEFER with DEFER_HINT (R222). -/
def State.deferMsg (s : State) (m : Msg) : State :=
  (s.bump Reg.DEFERS 1).answer m 0x04 (leBytes 8 (s.get Reg.DEFER_HINT))

/-- Answer DEFER, or refuse a fifth unanswered request (R216, R224). -/
def State.deferUnlessFifth (s : State) (kind : Nat) (m : Msg) : State :=
  if fifthAsked m then s.refuse kind m 0x0A else s.deferMsg m

/-! ### Arrival requests -/

/-- The begun arrival instance that covers slot `n`. -/
def State.slotInst (s : State) (n : Nat) : Option Inst := s.step.insts.find? (fun i => !i.emission && i.items.contains n)

/-- A GREQ or MARK is deferred whatever its slot (R217, R222): S_cur + 1, or S_cur before the "proceed" verdict. -/
def State.stepDeferred (s : State) (m : Msg) : Bool :=
  m.hdr.step.toNat != s.stepS || s.atBoundary || s.seq.openV != 1

/-- The slot's entry is in the slot cache (R222): its 4,096 entries hold, in schedule order, the open slots of the begun instances (log
entry 45). -/
def State.slotCached (s : State) (n : Nat) : Bool :=
  decide (n < 4096)
    || decide ((((s.step.slots.zipIdx).take n).filter (fun x => !x.1.closed && (s.slotInst x.2).isSome)).length < 4096)

/-- Deferred for the slot, the window apart (R222, R225): its instance has not begun, its entry is not cached, or the block is held or
trapped. -/
def State.slotDeferred (s : State) (n : Nat) : Bool :=
  (s.slotInst n).isNone || !s.slotCached n || s.flag Reg.HELD || s.trapped

/-- Slot `n` lies at or beyond OLD + POOLCH + 1 (R222). -/
def State.beyondWindow (s : State) (n : Nat) : Bool :=
  match s.slotInst n with
  | none => true
  | some i =>
    match i.items.find? (fun k => !(s.step.slots[k]?).any (·.closed)) with
    | none => true
    | some old => decide (old + i.poolch + 1 ≤ n)

/-- A slot of lower index that shares a sector with slot `n` is still outside every window (R222): it has not closed, and
its instance has not begun or it lies beyond its instance's window (log entry 45). -/
def State.lowerOutside (s : State) (n : Nat) : Bool :=
  s.step.sectors.any (fun x => x.slots.contains n && x.slots.any (fun k =>
    decide (k < n) && (s.step.slots[k]?).any (fun y => !y.closed) && ((s.slotInst k).isNone || s.beyondWindow k)))

/-- GREQ (R222, R224; log entry 45). -/
def State.onGreq (s : State) (m : Msg) : State :=
  let n := m.hdr.index.toNat
  if s.stepDeferred m then s.deferUnlessFifth 0x01 m
  else match s.step.slots[n]? with
    | none => s.refuse 0x01 m 0x06
    | some x =>
      if x.e.src != m.hdr.src.toNat || x.st != .open_ then s.refuse 0x01 m 0x06
      else if fifthAsked m then s.refuse 0x01 m 0x0A
      else if s.slotDeferred n || s.beyondWindow n || s.lowerOutside n then s.deferMsg m
      else ((s.modSlot n (fun y => { y with st := .granted })).perf 9 1).answer m 0x03 (leBytes 8 x.e.bytes)

/-- GREQ. -/
def execGreq (m : Msg) (s : State) : Result := .next (s.receive 0x01 m (fun s => s.onGreq m))

/-- The block is in PX16 padding mode (R229). -/
def State.paddingMode (s : State) : Bool := s.plan.plan.any (fun p => p.tree.cmode == 1)

/-- MARK (R63, R225, R226; log entry 48). -/
def State.onMark (s : State) (m : Msg) : State :=
  let n := m.hdr.index.toNat
  if s.stepDeferred m then s.deferUnlessFifth 0x02 m
  else match s.step.slots[n]? with
    | none => s.refuse 0x02 m 0x06
    | some x =>
      if x.e.src != m.hdr.src.toNat || (x.st != .open_ && x.st != .granted) then s.refuse 0x02 m 0x06
      else if fifthAsked m then s.refuse 0x02 m 0x0A
      else if s.slotDeferred n then s.deferMsg m
      else
        let s := if s.paddingMode then s.modSeal (fun l => { l with arrfault := true }) else s
        let s := ((s.modSlot n (fun y => { y with st := .marked })).perf 8 1).answer m 0x05 []
        s.slotClosed n

/-- MARK. -/
def execMark (m : Msg) (s : State) : Result := .next (s.receive 0x02 m (fun s => s.onMark m))

/-- The contribution in the slot is present: waiting or added. -/
def SlotSt.isPresent (x : SlotSt) : Bool := x.st == .arrived || x.st == .added

/-- The present contributions in FIRSTR slots of the slot's tally group exceed its PLIM (R226). -/
def StepState.overLimit (t : StepState) (x : SlotEntry) : Bool :=
  x.firstr && x.tgrp != 0xFFFF && x.plim != 0
    && decide (x.plim < (t.slots.filter (fun y => y.e.firstr && y.e.tgrp == x.tgrp && y.isPresent)).length)

/-- CONTRIB (R216, R224 to R226; log entry 47). -/
def State.onContrib (s : State) (m : Msg) : State :=
  let n := m.hdr.index.toNat
  match s.step.slots[n]? with
  | none => s.refuse 0x10 m 0x06
  | some x =>
    if x.e.src != m.hdr.src.toNat || x.closed || x.st == .arrived then s.refuse 0x10 m 0x06
    else if x.st != .granted || m.payload.length != x.e.bytes then s.refuse 0x10 m 0x07
    else
      let s := (s.modSlot n (fun y => { y with st := .arrived, data := m.payload })).perf 7 1
      if s.step.overLimit x.e then s.modSeal (fun l => { l with arrfault := true }) else s

/-- CONTRIB. -/
def execContrib (m : Msg) (s : State) : Result := .next (s.receive 0x10 m (fun s => s.onContrib m))

/-! ### Answers to this block's requests -/

/-- An answer that matches no request of this block fails check 4 (R217; log entry 17). -/
def State.unmatched (s : State) (kind : Nat) (m : Msg) : State := s.refuse kind m 0x06

/-- The request of kind `kind` that an answer matches: destination, Q, ROLE, INDEX and S (R217). -/
def Unanswered.matches (r : Unanswered) (kind : Nat) (m : Msg) : Bool :=
  r.kind == kind && r.dst == m.hdr.src.toNat && r.q == m.hdr.q.toNat && r.role == m.hdr.role.toNat
    && r.index == m.hdr.index.toNat && r.step == m.hdr.step.toNat && r.retry.isNone

/-- The first such request. -/
def State.matching (s : State) (kind : Nat) (m : Msg) : Option Unanswered := s.exch.requests.find? (fun r => r.matches kind m)

/-- Remove a request. -/
def State.answered (s : State) (r : Unanswered) : State := s.modExch (fun x => { x with requests := x.requests.erase r })

/-- A request belongs to the step at hand: requests of an earlier step may still be answered, to no further effect
(log entry 35). -/
def State.ofStep (s : State) (r : Unanswered) : Bool := r.step == s.step.hdr.s && (s.inst? r.q).isSome

/-- What waits for emission credit: chunk `n` on its way to block `dest` (R76). -/
def creditKey (n dest : Nat) : Nat := 65536 * n + dest % 65536

/-- What waits for a port, every port of its mask having failed (R211). -/
def portKey (n dest : Nat) : Nat := 2 ^ 48 + creditKey n dest

/-- An emission-credit wait ends once its credit request is no longer open (R76), or its destination is given up. -/
def State.settleCredit (s : State) : State :=
  let open_ := (s.exch.requests.filter (fun r =>
    r.kind == 0x24 && s.ofStep r && !s.exch.givenUp.contains (r.q, r.dst))).map (fun r => creditKey r.index r.dst)
  s.dropWaits (fun x => x.watch == .emissionCredit && decide (x.key < 2 ^ 48) && !open_.contains x.key)

/-- GRANT: this block asks for no grants, so it matches no request (R217; log entry 17). -/
def execGrant (m : Msg) (s : State) : Result := .next (s.receive 0x03 m (fun s => s.unmatched 0x03 m))

/-- DEFER: the credit request may be asked again after the hint (R224, R237). -/
def State.onDefer (s : State) (m : Msg) : State :=
  match s.matching 0x24 m with
  | none => s.unmatched 0x04 m
  | some r => (s.answered r).modExch (fun x => { x with requests := x.requests ++ [{ r with
      retry := some (s.clock.tick + leAt m.payload 0 4) }] })

/-- DEFER. -/
def execDefer (m : Msg) (s : State) : Result := .next (s.receive 0x04 m (fun s => s.onDefer m))

/-- ACK of a skip notice (R240). -/
def State.onAck (s : State) (m : Msg) : State :=
  match s.matching 0x22 m with
  | none => s.unmatched 0x05 m
  | some r => s.answered r

/-- ACK. -/
def execAck (m : Msg) (s : State) : Result := .next (s.receive 0x05 m (fun s => s.onAck m))

/-- A destination is given up by an instance for the rest of the step (R422). -/
def State.giveUp (s : State) (q block : Nat) : State :=
  (s.modExch (fun x => { x with givenUp := x.givenUp ++ [(q, block)] })).settleInsts

/-- A chunk of instance `q` with this index has been sent to the block (R238). -/
def State.chunkSentTo (s : State) (m : Msg) : Bool :=
  m.hdr.step.toNat == s.step.hdr.s
    && (s.inst? m.hdr.q.toNat).any (fun i => i.emission && i.role == m.hdr.role.toNat && i.items.contains m.hdr.index.toNat)
    && (match s.step.chunks[m.hdr.index.toNat]? with
      | some c => c.e.dests.zipIdx.any (fun d => d.1.block == m.hdr.src.toNat && c.sent.contains d.2)
      | none => false)

/-- NACK (R218, R422): counted; the destination of a refused credit request, skip notice or, under any code but 0x08, chunk
is given up; a NACK for an UP record changes nothing more (log entries 46, 50). -/
def State.onNack (s : State) (m : Msg) : State :=
  let code := leAt m.payload 0 1
  let kind := leAt m.payload 1 1
  if kind = 0x24 ∨ kind = 0x22 then
    match s.matching kind m with
    | none => s.unmatched 0x06 m
    | some r => if s.ofStep r then ((s.answered r).giveUp r.q r.dst).settleCredit else s.answered r
  else if kind = 0x20 then
    if !s.chunkSentTo m then s.unmatched 0x06 m
    else if code = 0x08 then s
    else s.giveUp m.hdr.q.toNat m.hdr.src.toNat
  else if s.exch.upSent.contains kind && m.hdr.src.toNat == s.parent then s
  else s.unmatched 0x06 m

/-- NACK: NACK_IN counts every one received. -/
def execNack (m : Msg) (s : State) : Result :=
  .next ((if s.portReady m.port || s.toSelf m.hdr.src.toNat then s.bump Reg.NACK_IN 1 else s).receive 0x06 m (fun s => s.onNack m))

/-- ECRED: one chunk and its token may go to the destination (R237). A credit stays until it is used (log entry 31). -/
def State.onEcred (s : State) (m : Msg) : State :=
  match s.matching 0x24 m with
  | none => s.unmatched 0x23 m
  | some r =>
    ((s.answered r).modExch (fun x => { x with credits := x.credits ++ [r.dst] })).settleCredit

/-- ECRED (log entry 31). -/
def execEcred (m : Msg) (s : State) : Result := .next (s.receive 0x23 m (fun s => s.onEcred m))

/-! ### Emission received -/

/-- Receive buffers held: those granted, and those of tokens that wait for engine credit (R237, R384; log entry 49). -/
def State.buffersHeld (s : State) : Nat :=
  s.exch.granted.length
    + (((s.exch.ports.flatMap (·.queue)).filter (·.buffer)).map (fun t => (t.src, t.index))).eraseDups.length

/-- ECREQ: ECRED while one of the 64 receive buffers is free, DEFER otherwise (R237); a fifth unanswered request is refused (R224). -/
def State.onEcreq (s : State) (m : Msg) : State :=
  if fifthAsked m then s.refuse 0x24 m 0x0A
  else if s.buffersHeld < 64 then
    (s.modExch (fun x => { x with granted := x.granted ++ [m.hdr.src.toNat] })).answer m 0x23 []
  else s.deferMsg m

/-- ECREQ. -/
def execEcreq (m : Msg) (s : State) : Result := .next (s.receive 0x24 m (fun s => s.onEcreq m))

/-- The buffer granted to a message's source for its chunk is free again. -/
def State.freeBuffer (s : State) (m : Msg) : State :=
  s.modExch (fun x => { x with granted := x.granted.erase m.hdr.src.toNat })

/-- The region and the dense offset of a placement head or a remote request (R235, R242). -/
def headPlace (b : List Byte) : Nat × Nat := (leAt b 0 4 % 64, leAt b 8 4 + 2 ^ 32 * (leAt b 0xC 4 % 1024))

/-- Every line of a chunk takes its write (R24; log entry 49). -/
def State.chunkTakes (s : State) (e : RegionWords) (off : Nat) (b : List Byte) : Bool :=
  (lineWrites e off b).all (fun x => s.lineTakes x.1 x.2.2)

/-- Report what a set of lines reads as (R319). -/
def State.noteLines (s : State) (a : ErrSrc) (xs : List LineLoc) : State := xs.foldl (fun s x => s.noteLine a x (s.lineVal x)) s

/-- A refused chunk write (R239): NACK 0x08, and BAD in the tokens of the chunk. -/
def State.refuseChunk (s : State) (m : Msg) : State :=
  (s.modExch (fun x => { x with badChunks := x.badChunks ++ [(m.hdr.src.toNat, m.hdr.index.toNat)] })).refuse 0x20 m 0x08

/-- CHUNK (R235, R239): written whole, or refused with nothing written (log entries 48, 49). -/
def State.onChunk (s : State) (m : Msg) : State :=
  let s := s.freeBuffer m
  let (n, off) := headPlace m.payload
  let data := m.payload.drop 16
  match s.checkRequest .remote true n off data.length with
  | .ok =>
    let e := s.regionWords n
    let s := s.chargeWrites 12 ((lineWrites e off data).map (·.1))
    if s.chunkTakes e off data then (s.storeBytes .remote e off data).perf 11 1
    else (s.noteLines .remote ((lineWrites e off data).filter (fun x => !s.lineTakes x.1 x.2.2) |>.map (·.1))).refuseChunk m
  | c => (s.refuseAccess .remote n c).refuseChunk m

/-- CHUNK: a chunk refused by checks 1 to 3 holds no buffer either (R216). -/
def execChunk (m : Msg) (s : State) : Result :=
  .next (match s.headerChecks 0x20 m with
    | none => s.receive 0x20 m (fun s => s.onChunk m)
    | some _ => (if s.portReady m.port || s.toSelf m.hdr.src.toNat then s.freeBuffer m else s).receive 0x20 m (fun s => s))

/-- TOKEN (R236, R239): passed to the engine ports of its ENGMASK, BAD set where the chunk's write was refused. A token with
HALT has no chunk, and so no buffer. -/
def State.onToken (s : State) (m : Msg) : State :=
  let key := (m.hdr.src.toNat, m.hdr.index.toNat)
  let bad := s.exch.badChunks.contains key
  let w := leAt m.payload 0x1C 4
  let body := if bad then putWordAt m.payload 0x1C (w ||| 1) else m.payload
  (s.modExch (fun x => { x with badChunks := x.badChunks.erase key })).sendToken (wordFld m.payload 4 19 12)
    ⟨0x21, key.1, key.2, body, !w.testBit 1⟩

/-- TOKEN. -/
def execToken (m : Msg) (s : State) : Result := .next (s.receive 0x21 m (fun s => s.onToken m))

/-- SKIP (R240): acknowledged, and passed to the engine ports of its ENGMASK; a fifth unanswered request is refused (R224). -/
def State.onSkip (s : State) (m : Msg) : State :=
  if fifthAsked m then s.refuse 0x22 m 0x0A
  else (s.answer m 0x05 []).sendToken (leAt m.payload 2 1) ⟨0x22, m.hdr.src.toNat, m.hdr.index.toNat, m.payload, false⟩

/-- SKIP. -/
def execSkip (m : Msg) (s : State) : Result := .next (s.receive 0x22 m (fun s => s.onSkip m))

/-! ### The control tree -/

/-- This block has combined its own record of a kind in the exchange at hand (R232): a further UP is a repeat. A count
exchange may run again at the same boundary (log entry 51). -/
def State.exchangeDone (s : State) (kind : Nat) : Bool :=
  s.exch.upSent.contains kind
    || (s.inStep && !s.exch.own.any (·.kind == kind)
      && ((kind == 0x30 && s.seq.openRun) || (kind == 0x32 && s.step.lseal.sent)))

/-- An UP record (R217, R232): from a child, not repeated; held until the node's own record is ready (log entry 51). -/
def State.onUp (s : State) (kind : Nat) (m : Msg) : State :=
  let src := m.hdr.src.toNat
  if !s.children.contains src || (s.upFrom kind m.hdr.step.toNat src).isSome || s.exchangeDone kind then s.refuse kind m 0x06
  else (s.modExch (fun x => { x with ups := x.ups ++ [⟨kind, src, m.hdr.step.toNat, m.payload⟩] })).combine kind

/-- A DN record (R57, R232): from the parent, in answer to this node's UP; forwarded and evaluated. -/
def State.onDn (s : State) (kind : Nat) (m : Msg) : State :=
  if m.hdr.src.toNat != s.parent || !s.exch.upSent.contains (kind - 1) then s.refuse kind m 0x06
  else (s.modExch (fun x => { x with upSent := x.upSent.erase (kind - 1) })).deliver (kind - 1) m.hdr.step.toNat m.payload

/-- OPEN_UP. -/
def execOpenUp (m : Msg) (s : State) : Result := .next (s.receive 0x30 m (fun s => s.onUp 0x30 m))
/-- OPEN_DN. -/
def execOpenDn (m : Msg) (s : State) : Result := .next (s.receive 0x31 m (fun s => s.onDn 0x31 m))
/-- SEAL_UP. -/
def execSealUp (m : Msg) (s : State) : Result := .next (s.receive 0x32 m (fun s => s.onUp 0x32 m))
/-- SEAL_DN. -/
def execSealDn (m : Msg) (s : State) : Result := .next (s.receive 0x33 m (fun s => s.onDn 0x33 m))
/-- CNT_UP (R228). -/
def execCntUp (m : Msg) (s : State) : Result := .next (s.receive 0x34 m (fun s => s.onUp 0x34 m))
/-- CNT_DN (R228). -/
def execCntDn (m : Msg) (s : State) : Result := .next (s.receive 0x35 m (fun s => s.onDn 0x35 m))

/-! ### Remote access -/

/-- Answer a remote request with a status (R242; log entry 48). -/
def State.remoteStatus (s : State) (m : Msg) (st : Nat) : State := (s.perf 18 1).answer m 0x43 (leBytes 8 st)

/-- RWR (R242, R257): applied under the remote class, then acknowledged; refused as a whole in Spent (R358). A burst that fails after
its retries leaves its line, the first, unwritten (R292; log entry 14). -/
def State.onRwr (s : State) (m : Msg) (linkFails : Nat) : State :=
  let (n, off) := headPlace m.payload
  let data := m.payload.drop 16
  if s.spent then s.remoteStatus m 5
  else match s.checkRequest .remote true n off data.length with
    | .ok =>
      let e := s.regionWords n
      let k := if linkFails ≤ 3 then 0 else 64 - off % 64
      let s := s.chargeWrites 8 ((lineWrites e off data).map (·.1))
      let (ok, s) := s.storeBytesOk .remote e (off + k) (data.drop k)
      (s.linkTrouble .remote (e.lineAt off) linkFails).remoteStatus m (if ok && linkFails ≤ 3 then 0 else 4)
    | c => (s.refuseAccess .remote n c).remoteStatus m c.status

/-- RWR. -/
def execRwr (m : Linked Msg) (s : State) : Result := .next (s.receive 0x40 m.val (fun s => s.onRwr m.val m.linkFails))

/-- RRD (R242, R257): RRSP with the bytes, or RWACK with a status; a burst that fails after its retries gives no data (R292; log
entry 14). -/
def State.onRrd (s : State) (m : Msg) (linkFails : Nat) : State :=
  let (n, off) := headPlace m.payload
  let len := leAt m.payload 4 4
  if s.spent then s.remoteStatus m 5
  else match s.checkRequest .remote false n off len with
    | .ok =>
      let e := s.regionWords n
      let s := s.chargeReads 8 ((lineWrites e off (List.replicate len 0)).map (·.1))
      let (b, ok, s) := s.fetchBytes .remote e off len
      let s := s.linkTrouble .remote (e.lineAt off) linkFails
      if ok && linkFails ≤ 3 then (s.perf 18 1).answer m 0x42 b else s.remoteStatus m 4
    | c => (s.refuseAccess .remote n c).remoteStatus m c.status

/-- RRD. -/
def execRrd (m : Linked Msg) (s : State) : Result := .next (s.receive 0x41 m.val (fun s => s.onRrd m.val m.linkFails))

/-- RRSP: this block sends no remote request of its own, so it matches none (R217; log entry 17). -/
def execRrsp (m : Msg) (s : State) : Result := .next (s.receive 0x42 m (fun s => s.unmatched 0x42 m))
/-- RWACK: likewise (log entry 17). -/
def execRwack (m : Msg) (s : State) : Result := .next (s.receive 0x43 m (fun s => s.unmatched 0x43 m))

/-! ### Emission sent -/

/-- Change chunk `n` of the step. -/
def State.modChunk (s : State) (n : Nat) (f : ChunkSt → ChunkSt) : State :=
  s.modStep (fun t => { t with chunks := modAt t.chunks n f })

/-- Change a begun instance. -/
def State.modInst (s : State) (q : Nat) (f : Inst → Inst) : State :=
  s.modStep (fun t => { t with insts := t.insts.map (fun i => if i.q = q then f i else i) })

/-- The rows of a chunk (R233). -/
def Plan.chunkRows (p : Plan) (c : ChunkEntry) : List RowLoc := (List.range c.nrows).map (fun i => p.shardRow c.shard (c.frow + i))

/-- The commit-list entries of a chunk's rows. -/
def State.chunkEntries (s : State) (p : Plan) (c : ChunkEntry) : List EntrySt :=
  (p.chunkRows c).filterMap (fun l => s.step.entries.find? (·.e.loc == l))

/-- Every row of the chunk has written its slot or has been left unchanged (R72). -/
def State.chunkEligible (s : State) (p : Plan) (c : ChunkEntry) : Bool :=
  (p.chunkRows c).all (fun l => s.step.entries.all (fun e => e.e.loc != l || e.ended))

/-- The format of a shard. -/
def Plan.shardFmt (p : Plan) (h : Nat) : EmFmt := .ofCode (((p.shardCfg? h).map (·.fmt)).getD 0)

/-- The bytes of a row's elements and scales (R235). -/
def EmFmt.rowBytes (f : EmFmt) : Nat := (160 * f.width + 5 * f.scaleWidth) / 8

/-- Read the weight slot of a row for its chunk (R235, R238): its bytes, and whether every line gave data. -/
def State.readSlot (s : State) (f : EmFmt) (e : CommitEntry) : List Byte × Bool × State :=
  let pl := s.poolPlace e.loc e.pool f
  let xs : List LineLoc := (List.range f.lines).map (fun i => ⟨pl.wloc, f.lines * pl.slot + i⟩)
  let s := s.chargeReads 12 xs
  let (vs, s) := xs.foldl (fun (acc : List LineVal × State) x =>
    let (v, s) := acc.2.fetchLine .emission x
    (acc.1 ++ [v], s)) ([], s)
  ((goodBytes (xs.zip vs)).take f.rowBytes, vs.all (fun v => !v.isBad), s)

/-- A chunk goes to no destination any more. -/
def State.chunkServed (s : State) (q : Nat) (c : ChunkSt) : Bool :=
  c.e.dests.zipIdx.all (fun d => c.sent.contains d.2 || s.exch.givenUp.contains (q, d.1.block))

/-- Send buffers in use: chunks read and not yet sent to every destination (R212, R238). -/
def State.sendBuffers (s : State) : Nat :=
  (s.step.insts.map (fun i => (i.items.filter (fun n => (s.step.chunks[n]?).any (fun c =>
    i.emission && c.data.isSome && !s.chunkServed i.q c))).length)).sum

/-- A chunk that cannot be sent halts its instance's data (R72, R241). -/
def State.haltInst (s : State) (q n : Nat) : State :=
  (s.modInst q (fun i => { i with halted := true })).modChunk n (fun c => { c with halt := true })

/-- The chunk holds a row that an entry of the commit list left unchanged, a scan or the pass that writes the slot (R71, R72). -/
def State.chunkLost (s : State) (p : Plan) (c : ChunkEntry) : Bool :=
  (p.chunkRows c).any (fun l => s.step.entries.any (fun e => e.e.loc == l && e.st == .unchanged))

/-- Read chunk `n` of instance `q` (R72, R238, R241). -/
def State.readChunk (s : State) (p : Plan) (q n : Nat) (c : ChunkSt) : State :=
  let es := s.chunkEntries p c.e
  let f := p.shardFmt c.e.shard
  if s.chunkLost p c.e then s.haltInst q n
  else
    let (b, ok, s) := es.foldl (fun (acc : List Byte × Bool × State) e =>
      let (b, ok, s) := acc.2.2.readSlot f e.e
      (acc.1 ++ b, acc.2.1 && ok, s)) ([], true, s)
    if ok then s.modChunk n (fun x => { x with data := some b }) else s.haltInst q n

/-- The next chunk of an instance to be read: the first in list order neither read nor halted. -/
def State.nextRead (s : State) (i : Inst) : Option (Nat × ChunkSt) :=
  (i.items.filterMap (fun n => (s.step.chunks[n]?).map (fun c => (n, c)))).find? (fun x => x.2.data.isNone && !x.2.halt)

/-- CHUNK_READ (R238): the next chunk of the instance, once it is eligible and a send buffer is free. -/
def execChunkRead (q : Half) (s : State) : Result :=
  match s.plan.plan, s.inst? q.toNat with
  | some p, some i =>
    if !i.emission || i.halted || s.seq.sealV != 1 || 64 ≤ s.sendBuffers then .next s
    else match s.nextRead i with
      | some (n, c) => if s.chunkEligible p c.e then .next (s.readChunk p q.toNat n c) else .next s
      | none => .next s
  | _, _ => .next s

/-- The next destination record of block `dest` that an instance serves: position in the instance, chunk index, chunk,
record index and record, in list order (R72, R238; log entry 53). -/
def State.nextDest (s : State) (i : Inst) (dest : Nat) : Option (Nat × Nat × ChunkSt × Nat × DestRec) :=
  (i.items.zipIdx).findSome? (fun x =>
    match s.step.chunks[x.1]? with
    | none => none
    | some c => (c.e.dests.zipIdx.find? (fun d => d.1.block == dest && !c.sent.contains d.2)).map
        (fun d => (x.2, x.1, c, d.2, d.1)))

/-- The port of an instance's message to block `dest`: rotating port by port from one chunk to the next (R213); none when every port of
its mask has failed (log entry 44). A message of the block to itself needs none. -/
def State.instPort (s : State) (i : Inst) (pos dest : Nat) : Option Nat :=
  let ps := s.portsOf i.portmask
  if s.toSelf dest then some 0 else ps[pos % ps.length]?

/-- The XEXP of a shard in force in the step whose chunks are sent (R105): the old one when the emission of a resolved step is sent
again (R334). -/
def State.xexpOf (s : State) (p : Plan) (h : Nat) : Int := (s.step.xexps[h]?).getD (((p.shards[h]?).map (·.xexp)).getD 0)

/-- The chunk descriptor of a TOKEN (R236); a token with HALT carries no data bytes (log entry 47). -/
def State.tokenBody (s : State) (p : Plan) (c : ChunkSt) (d : DestRec) (halt : Bool) : List Byte :=
  let h := p.shards[c.e.shard]?
  let base := (h.map (·.cfg.base)).getD 0 + 160 * c.e.frow
  let nel := ((s.chunkEntries p c.e).map (·.e.npar)).sum
  let n := if halt then 0 else (c.data.map (·.length)).getD 0
  leBytes 4 ((h.map (·.cfg.tensorId)).getD 0)
    ++ leBytes 4 ((h.map (·.cfg.fmt)).getD 0 * 2 ^ 28 + twos 8 (s.xexpOf p c.e.shard) * 2 ^ 20 + d.engmask * 2 ^ 12)
    ++ leBytes 4 (base % 2 ^ 32) ++ leBytes 4 (base / 2 ^ 32 % 2 ^ 16) ++ leBytes 4 nel ++ leBytes 4 (s.step.hdr.g % 2 ^ 32)
    ++ leBytes 4 n ++ leBytes 4 (2 * halt.toNat)

/-- The placement head of a CHUNK (R235). -/
def chunkHead (c : ChunkEntry) (d : DestRec) : List Byte :=
  let off := d.base + c.doff
  leBytes 4 (d.region % 64) ++ leBytes 4 0 ++ leBytes 4 (off % 2 ^ 32) ++ leBytes 4 (off / 2 ^ 32 % 1024)

/-- Send a message of an instance about a chunk. -/
def State.sendInst (s : State) (i : Inst) (port kind dest n : Nat) (payload : List Byte) : State :=
  s.send port kind dest (s.roleEpoch i.role) s.step.hdr.s i.q i.role n payload

/-- A record of a chunk has been served. -/
def State.served_ (s : State) (n k : Nat) : State := (s.modChunk n (fun c => { c with sent := c.sent ++ [k] })).settleInsts

/-- Ask for credit for a chunk (R237): at most two requests unanswered to one destination; a deferred request again after
its hint (R224). -/
def State.askCredit (s : State) (i : Inst) (port dest n : Nat) : State :=
  let mine := s.exch.requests.filter (fun r => r.kind == 0x24 && r.dst == dest)
  let same (r : Unanswered) : Bool := r.q == i.q && r.index == n
  let waiting := mine.any (fun r => same r && (match r.retry with
    | none => true
    | some t => decide (s.clock.tick < t)))
  if waiting || 2 ≤ (mine.filter (·.retry.isNone)).length then s
  else
    let s := (s.beginWait .emissionCredit (creditKey n dest)).modExch (fun x => { x with
      requests := x.requests.filter (fun r => !(r.kind == 0x24 && r.dst == dest && same r))
        ++ [⟨0x24, dest, i.q, i.role, n, s.step.hdr.s, none⟩] })
    s.sendInst i port 0x24 dest n []

/-- The chunks of an instance that have still to go to block `dest`, in list order (log entry 31). -/
def State.chunksDue (s : State) (i : Inst) (dest : Nat) : List Nat :=
  i.items.filter (fun n => match s.step.chunks[n]? with
    | none => false
    | some c => c.e.dests.zipIdx.any (fun d => d.1.block == dest && !c.sent.contains d.2))

/-- Ask for credit for the chunks of an instance that have still to go to a destination, in list order; once the instance has
halted, for the next one alone (R237, R241; log entry 31). -/
def State.askCredits (s : State) (i : Inst) (port dest : Nat) : State :=
  ((s.chunksDue i dest).take (if i.halted then 1 else 2)).foldl (fun s n => s.askCredit i port dest n) s

/-- Send a chunk and its token (R236, R238, R415), using one credit. -/
def State.sendChunk (s : State) (p : Plan) (i : Inst) (port n k : Nat) (c : ChunkSt) (d : DestRec) (data : List Byte) :
    State :=
  let s := s.modExch (fun x => { x with credits := x.credits.erase d.block })
  let s := (s.sendInst i port 0x20 d.block n (chunkHead c.e d ++ data)).perf 10 1
  ((s.sendInst i port 0x21 d.block n (s.tokenBody p c d false)).served_ n k).settleCredit

/-- The chunk is at or after the chunk that halted its instance (R241). -/
def State.haltsAt (s : State) (i : Inst) (pos : Nat) : Bool :=
  (i.items.take (pos + 1)).any (fun n => (s.step.chunks[n]?).any (·.halt))

/-- CHUNK_SEND (R238): the next chunk for a destination, with credit; a TOKEN with HALT where the data is halted. -/
def execChunkSend (q : Half) (dest : Half) (s : State) : Result :=
  match s.plan.plan, s.inst? q.toNat with
  | some p, some i =>
    if !i.emission || s.seq.sealV != 1 || s.exch.givenUp.contains (i.q, dest.toNat) then .next s
    else match s.nextDest i dest.toNat with
      | none => .next s
      | some (pos, n, c, k, d) =>
        match s.instPort i pos dest.toNat with
        | none => .next (s.beginWait .emissionCredit (portKey n dest.toNat))
        | some port =>
          let s := s.endWait .emissionCredit (portKey n dest.toNat)
          if s.haltsAt i pos then .next (((s.sendInst i port 0x21 d.block n (s.tokenBody p c d true)).served_ n k).settleCredit)
          else if !s.exch.credits.contains d.block then .next (s.askCredits i port d.block)
          else match c.data with
            | some b => .next (s.sendChunk p i port n k c d b)
            | none => .next s
  | _, _ => .next s

/-- SKIP_NOTICE_SEND (R74, R240): the next notice for a destination, while fewer than four requests to it are unanswered
(log entry 53). -/
def execSkipNoticeSend (q : Half) (dest : Half) (s : State) : Result :=
  match s.inst? q.toNat with
  | some i =>
    let open_ := (s.exch.requests.filter (fun r => r.dst == dest.toNat && r.retry.isNone)).length
    if !i.emission || s.seq.sealV != 2 || s.exch.givenUp.contains (i.q, dest.toNat) || 4 ≤ open_ then .next s
    else match s.nextDest i dest.toNat with
      | none => .next s
      | some (pos, n, _, k, d) =>
        match s.instPort i pos dest.toNat with
        | none => .next (s.beginWait .emissionCredit (portKey n dest.toNat))
        | some port =>
          let s := (s.endWait .emissionCredit (portKey n dest.toNat)).modExch (fun x => { x with
            requests := x.requests ++ [⟨0x22, d.block, i.q, i.role, n, s.step.hdr.s, none⟩] })
          .next ((s.sendInst i port 0x22 d.block n (leBytes 8 (s.get Reg.REASON % 2 ^ 16 + d.engmask * 2 ^ 16))).served_ n k)
  | none => .next s

end Sys2Proof.Machine
end

