-- ==== Sys2Proof/Machine/Rot.lean ====
section
/-! DEFINITION. The root-of-trust port (R370, R388) and the requests that wait. -/

namespace Sys2Proof.Machine

/-! ### The root of trust -/

/-- Change the requests. -/
def State.modReq (s : State) (f : Requests → Requests) : State := { s with req := f s.req }

/-- The bytes of the image in a staging region that its header names, with its mark, cut to the region (log entry 29). -/
def State.imageBytes (s : State) (reg : Nat) : List Byte × List LineLoc :=
  let e := s.regionWords reg
  let (h, _) := s.regionBytes e 0 (min 1152 e.size)
  s.regionBytes e 0 (min (max 1152 (leAt h 0x10 4 + leAt h 0x14 4)) e.size)

/-- The digest and the mark of an image (R167 stage 2, R168). -/
def markBytes (b : List Byte) : List Byte := sha384 (b.take (leAt b 0x10 4)) ++ (b.drop (leAt b 0x10 4)).take (leAt b 0x14 4)

/-- The numbers and bytes that a request carries beside its kind (R370): LCS, UID, and the items of its kind. -/
def State.rotItems (s : State) (kind item : Nat) : List Nat × List Byte :=
  let hd := [s.fuses.lcs, s.fuses.uid.toNat]
  match kind, s.plan.load with
  | 1, some l =>
    let b := (s.imageBytes l.region).1
    let h := parseHeader b
    (hd ++ [h.planId, h.cfg, h.topo], markBytes b)
  | _, _ => (hd ++ [item], [])

/-- Send a request with the next tag (R370, R388; log entry 9). -/
def State.rotSend (s : State) (kind item : Nat) : State :=
  let t := s.req.rotTag
  let x := s.rotItems kind item
  (s.modReq (fun r => { r with rot := some ⟨kind, item, t⟩, rotTag := (t + 1) % 256 })).emit (.rot kind t x.1 x.2)

/-- Ask the root of trust: at once, or behind the request that awaits its answer (R370). -/
def State.rotAsk (s : State) (kind item : Nat) : State :=
  if s.req.rot.isSome then s.modReq (fun r => { r with rotQueue := r.rotQueue ++ [⟨kind, item, 0⟩] }) else s.rotSend kind item

/-- The request in hand is over: the next one in the queue is sent (log entry 9). -/
def State.rotNext (s : State) : State :=
  let s := s.modReq (fun r => { r with rot := none })
  match s.req.rotQueue with
  | [] => s
  | x :: t => (s.modReq (fun r => { r with rotQueue := t })).rotSend x.kind x.item

/-- Requests of a kind are dropped; an answer to one is ignored (R370; log entry 9). -/
def State.rotDrop (s : State) (kind : Nat) : State :=
  let s := s.modReq (fun r => { r with rotQueue := r.rotQueue.filter (·.kind != kind) })
  if s.req.rot.any (·.kind == kind) then s.rotNext else s

/-- Every request is dropped (R347, R394). -/
def State.rotClear (s : State) : State := s.modReq (fun r => { r with rot := none, rotQueue := [] })

end Sys2Proof.Machine
end

