-- ==== Sys2Proof/Machine/Repair.lean ====
section
/-! DEFINITION. When a test's unit counts as out of service (R373), and repair (R326, R327, R336 to R342): remapping lines, the remap
mirror, reloading BSU tables, taking BSU groups out of service and back, map-out, the end of the hold, and Clover mode. -/

namespace Sys2Proof.Machine

/-! ### The units of self-tests -/

/-- The unit of a test does not count as out of service (R373). -/
def State.unitBusy (s : State) (r : StReq) : Bool :=
  match r.cls with
  | 0 | 2 | 4 => s.planLoaded
  | 1 | 5 => s.planLoaded || s.flag Reg.CLOVER
  | 3 => s.planLoaded && s.plan.plan.any (fun p => p.hdr.nlayer != 0)
  | 6 => !(s.bit Reg.OOS r.dev || s.flag Reg.CLOVER)
  | 7 => s.planLoaded || (List.range 64).any (fun n => s.enabled n && (s.regionWords n).devmask.testBit r.dev)
  | _ => false

/-- A request has ended (R375): its code, ST_DONE, PX_IRQ[7]; what it held goes on (log entry 100). -/
def State.endTest (s : State) (code : Nat) : State :=
  (((((s.modReq (fun r => { r with st := none })).set Reg.ST_CODE code).setFlag Reg.ST_DONE true).raise 7).releaseHeld).releaseGo

/-- The power that a class 3 test in Idle gave the layer engine goes again (R374). -/
def State.dropTestPower (s : State) (r : StReq) : State :=
  if r.cls == 3 && s.get Reg.PSTATE == 1 then s.setFlag Reg.LE_ON false else s

/-- A test runs only while its unit counts as out of service (R373): one whose unit returns to service stops with code 0x02 (log
entry 101). -/
def State.settleTest (s : State) : State :=
  match s.req.st with
  | some r => if r.running && s.unitBusy r then (s.dropTestPower r).endTest 0x02 else s
  | none => s

/-! ### Remap entries -/

/-- A remap entry as a word of the remap record (R45). -/
def RemapEntry.word (e : RemapEntry) : Nat := 2 ^ 31 + e.row % 2 ^ 15 * 2 ^ 16 + e.line % 32 * 2 ^ 11

/-- The four words of a bank's remap record; an empty slot is zero (R45). -/
def State.recordWords (s : State) (d bank : Nat) : List Nat :=
  (List.range 4).map (fun n => (((s.bankEntries d bank).find? (·.slot == n)).map RemapEntry.word).getD 0)

/-- The spare row of a bank (R45). -/
def State.spareOf (s : State) (d bank : Nat) : RowLoc := ⟨d, bank / 16, bank % 16, s.spareRow d⟩

/-- Load a bank's entries into its BSU, by a TBLD sequence of its own (R270, R326). -/
def State.loadBsuRemap (s : State) (d bank : Nat) : State :=
  let ws := (s.recordWords d bank).map (BitVec.ofNat 32)
  s.tbldSeq d (bank / 16) (bank % 16 / 2) 1 (fun b => if bank % 2 = 0 then { b with remap := ws } else { b with remapHi := ws })

/-- The same for a U-device in service; others receive their entries when they return to service (R326). -/
def State.loadIfServing (s : State) (d bank : Nat) : State := if s.inService d then s.loadBsuRemap d bank else s

/-- Write a bank's remap record through: line 29 of its spare row, with its VALID bit (R23, R45) where the row's metadata can be
read. -/
def State.writeRecord (s : State) (d bank : Nat) : State :=
  let bs := takePad 64 ((s.recordWords d bank).flatMap (leBytes 4))
  let x : LineLoc := ⟨s.spareOf d bank, 29⟩
  let s := s.charge 15 1 3 1
  match s.rowMeta x.loc with
  | some m => s.putLine .through x m bs
  | none => s.storeLine .through x bs

/-- The bank of a row as the remap entries name it. -/
def RowLoc.inBank (l : RowLoc) (d bank : Nat) : Bool := l.dev == d && l.bankIx == bank

/-- The controller takes a remap entry (log entry 80). -/
def State.takeEntry (s : State) (e : RemapEntry) : State :=
  { s with fault := { s.fault with remap := s.fault.remap ++ [e] } }

/-- The code word of a line goes into slot `n` as it stands corrected, and the controller takes the entry (R326 steps 2, 3;
log entry 80). -/
def State.copyToSlot (s : State) (x : LineLoc) (n : Nat) : State :=
  let sp := s.spareOf x.loc.dev x.loc.bankIx
  let e : RemapEntry := ⟨x.loc.dev, x.loc.bankIx, n, x.loc.row, x.line⟩
  let c := s.lineStored x
  match s.lineVal x with
  | .fixed b _ | .good b => (s.takeEntry e).storeLine .through x b
  | _ => ((s.put .through sp (64 * n) c.1).put .through sp (0x780 + 4 * n) (leBytes 4 c.2.toNat)).takeEntry e

/-- REMAP is set in a row's metadata, where it can be read. -/
def State.markRemapped (s : State) (l : RowLoc) : State :=
  match s.rowMeta l with
  | some m => s.putMeta .through l { m with remap := true }
  | none => s

/-- Remap a line into slot `n` of its bank (R326 steps 2 to 5): its code word goes into the slot as it stands corrected, the
record, the controller and the BSU take the entry, and REMAP is set. -/
def State.remapInto (s : State) (x : LineLoc) (n : Nat) : State :=
  let s := ((s.charge 15 2 3 1).copyToSlot x n).writeRecord x.loc.dev x.loc.bankIx
  let s := (s.loadIfServing x.loc.dev x.loc.bankIx).markRemapped x.loc
  s.log_ 0x0C .other (s.lineInfo x 0 0)

/-- Slots of a bank in use: an abandoned slot stays counted (R327). -/
def State.slotsUsed (s : State) (d bank : Nat) : List Nat := (s.bankEntries d bank).map (·.slot)

/-- Remap a lasting line into the lowest free slot of its bank, or refuse it (R326, R327, R339). -/
def State.remapLine (s : State) (x : LineLoc) : State :=
  let used := s.slotsUsed x.loc.dev x.loc.bankIx
  match (List.range 4).find? (fun n => !used.contains n) with
  | some n => s.remapInto x n
  | none =>
    (((s.bump Reg.REMAP_FULL 1).log_ 0x0D .other (s.lineInfo x 0 0)).setBit Reg.REVIEW x.loc.dev true).setFlag Reg.REP_REFUSED true

/-- Add the entries of a mirror write (R342, R326). -/
def State.remapAll (s : State) (d bank : Nat) (es : List (Nat × Nat × Nat)) : State :=
  es.foldl (fun s e => s.remapInto ⟨⟨d, bank / 16, bank % 16, e.2.1⟩, e.2.2⟩ e.1) s

/-! ### BSU tables and service -/

/-- A repair whose condition fails is dropped: REP_REFUSED, and a log entry under a class that the manual does not give
(R339, log entry 17). -/
def State.dropRepair (s : State) (d : Nat) : State :=
  let (c, s) := s.free
  (s.setFlag Reg.REP_REFUSED true).log_ (openClass c) .other (ErrInfo.plain d)

/-- Reload a BSU group: the seed table of the loaded plan, and the entries of all 64 banks (R339). -/
def State.reloadTables (s : State) (d : Nat) : State :=
  let s := match s.plan.plan with
    | some p => s.loadSeed d p.seedTable
    | none => s
  (List.range 64).foldl (fun s b => s.loadBsuRemap d b) s

/-- A BSU group's tables are reloaded, where it is in service; otherwise the repair is dropped (R339). -/
def State.repairTables (s : State) (d : Nat) : State := if s.inService d then s.reloadTables d else s.dropRepair d

/-- A group leaves service: its BSUPASS bit clears (R377). -/
def State.leaveService (s : State) (d : Nat) : State := (s.setBit Reg.OOS d true).setBit Reg.BSUPASS d false

/-- A group returns to service: only with BSUPASS set; its tables are reloaded first (R339; log entry 83). -/
def State.enterService (s : State) (d : Nat) : State :=
  if s.bit Reg.BSUPASS d then (s.reloadTables d).setBit Reg.OOS d false else s.dropRepair d

/-- OOS follows OOS_REQ (R268), at a step boundary (log entry 83). -/
def State.applyService (s : State) : State :=
  (List.range 24).foldl (fun s d =>
    let want := s.bit Reg.OOS_REQ d
    let is := s.bit Reg.OOS d
    if want && !is then s.leaveService d else if !want && is then s.enterService d else s) s |>.settleTest

/-- The repair that comes first is done: `rest` waits behind it. -/
def State.popRepair (s : State) (rest : List Repair) : State := { s with req := { s.req with repairs := rest } }

/-- A change of OOS whose turn has come (R268, R339). -/
def State.takeService (s : State) : State :=
  match s.req.repairs with
  | .service :: rest => (s.popRepair rest).applyService
  | _ => s

/-- The repair that comes first is carried out by `f`; a change of OOS behind it follows, and a held GO may go on (R339). -/
def State.doRepair (s : State) (rest : List Repair) (f : State → State) : State :=
  (f (s.popRepair rest)).takeService.releaseGo

/-- A repair waits behind those requested before it (R339). -/
def State.queueRepair (s : State) (r : Repair) : State := { s with req := { s.req with repairs := s.req.repairs ++ [r] } }

/-- OOS_REQ asks for a change of OOS (R268, R339): done at once with no step running and no repair pending, else in its turn; one
request takes every change (log entry 83). -/
def State.askService (s : State) : State :=
  if s.get Reg.OOS_REQ = s.get Reg.OOS || s.req.repairs.contains .service then s
  else if s.atBoundary && s.req.repairs.isEmpty then s.applyService
  else s.queueRepair .service

/-- TABLE_RELOAD (R339): the repair in hand, at a boundary. -/
def execTableReload (s : State) : Result :=
  match s.req.repairs with
  | .tables d :: rest => if s.atBoundary then .next (s.doRepair rest (·.repairTables d)) else .next s
  | _ => .next s

/-! ### Adding remap entries -/

/-- REMAP_APPLY (R326, R339, R342): a mirror write whose turn has come, else, with no repair pending, the lasting line declared
first. -/
def execRemapApply (s : State) : Result :=
  if !s.atBoundary then .next s
  else match s.req.repairs with
    | .remap d bank es :: rest => .next (s.doRepair rest (·.remapAll d bank es))
    | _ :: _ => .next s
    | [] =>
      match s.fault.lasting with
      | x :: rest => .next (({ s with fault := { s.fault with lasting := rest } }.remapLine x).releaseGo)
      | [] => .next s

/-- The entries that RM_ENT[0 to 3] give: slot, row, line. -/
def State.mirrorEntries (s : State) : List (Nat × Nat × Nat) :=
  ((List.range 4).filter (fun n => s.flag (Reg.RM_VALID n))).map (fun n => (n, s.get (Reg.RM_ROW n), s.get (Reg.RM_LINE n)))

/-- RM_ENT[0 to 3] show the entries of the selected bank (R342; log entry 81). -/
def State.showMirror (s : State) : State :=
  let es := s.bankEntries (s.get Reg.RM_DEV) (s.get Reg.RM_BANK)
  (List.range 4).foldl (fun s n =>
    match es.find? (·.slot == n) with
    | some e => ((s.set (Reg.RM_VALID n) 1).set (Reg.RM_ROW n) e.row).set (Reg.RM_LINE n) e.line
    | none => ((s.set (Reg.RM_VALID n) 0).set (Reg.RM_ROW n) 0).set (Reg.RM_LINE n) 0) s

/-- A mirror write in Run only adds entries: every valid entry of the bank stays as it is (R342). -/
def State.onlyAdds (s : State) (d bank : Nat) (es : List (Nat × Nat × Nat)) : Bool :=
  (s.bankEntries d bank).all (fun e => es.contains (e.slot, e.row, e.line))

/-- RM_WRITE (R45, R342): before any region is enabled the bank's entries are replaced; in Run entries are added, at once at a
boundary, else at the next; otherwise, and for a device that does not exist, the write is refused (log entry 81). -/
def State.mirrorWrite (s : State) : State :=
  let (d, bank) := (s.get Reg.RM_DEV, s.get Reg.RM_BANK)
  let es := s.mirrorEntries
  if s.req.repairs.any Repair.isRemap then s
  else if 24 ≤ d then s.setFlag Reg.RM_REFUSED true
  else if (List.range 64).all (fun n => !s.enabled n) then
    let s : State := { s with fault := { s.fault with
      remap := s.fault.remap.filter (fun e => !(e.dev == d && e.bank == bank))
        ++ es.map (fun e => ⟨d, bank, e.1, e.2.1, e.2.2⟩) } }
    (s.writeRecord d bank).loadIfServing d bank
  else if s.inRun && s.onlyAdds d bank es then
    let new := es.filter (fun e => !(s.slotsUsed d bank).contains e.1)
    if s.atBoundary && s.req.repairs.isEmpty then s.remapAll d bank new
    else s.queueRepair (.remap d bank new)
  else s.setFlag Reg.RM_REFUSED true

/-- RM_WRITE. -/
def execRmWrite (v : Word) (s : State) : Result := .next (s.onWrite 0x3004 v (whenBit v 31 State.mirrorWrite))

/-! ### Map-out -/

/-- Enabled entries that name channel `c` of device `d`. -/
def State.entriesOn (s : State) (d c : Nat) : List Nat :=
  (List.range 64).filter (fun n => s.enabled n && (s.regionWords n).devmask.testBit d && (s.regionWords n).chmask.testBit c)

/-- A region whose map-out is not live: plan-held, the unit table, the step log (the spare-class region that YLOG_REG names, R330),
or a factor region (R338; log entry 82). -/
def State.losesOnMapout (s : State) (n : Nat) : Bool :=
  s.planHeld n || decide ((s.regionWords n).cls = .factor)
    || (n == s.get Reg.YLOG_REG && decide ((s.regionWords n).cls = .spare))
    || s.plan.plan.any (fun p => p.hdr.unitReg == n)

/-- A host-held region of a class that is disabled on map-out (R338). -/
def State.disablesOnMapout (s : State) (n : Nat) : Bool :=
  !s.planHeld n && ((s.regionWords n).cls = .weight || (s.regionWords n).cls = .frozen || (s.regionWords n).cls = .activation)

/-- The shards of the loaded plan with a row on channel `c` of device `d` (log entry 82). -/
def Plan.shardsOn (p : Plan) (d c : Nat) : List Nat :=
  (List.range p.shards.length).filter (fun h => (List.range ((p.shardCfg? h).map (·.nrows) |>.getD 0)).any (fun i =>
    (p.shardRow h i).dev == d && (p.shardRow h i).ch == c))

/-- The channel is mapped out (R338), logged as CLASS 0x11 (log entry 82). -/
def State.mapOut (s : State) (d c : Nat) : State :=
  let ns := s.entriesOn d c
  let s := (s.setMappedOut d c).log_ 0x11 .other (ErrInfo.plain (4 * d + c))
  if ns.any s.losesOnMapout then
    let hs := (s.plan.plan.map (fun p => p.shardsOn d c)).getD []
    (hs.foldl (fun s h => s.loseShard .other h 0x03) s).holdFor 0x03
  else if ns.all s.disablesOnMapout then ns.foldl State.disableRegion s
  else s

/-- A map-out repair: dropped for a device that does not exist. -/
def State.repairMapout (s : State) (d c : Nat) : State := if d < 24 then s.mapOut d c else s.dropRepair d

/-- MAPOUT_GO (R338): in Run the map-out waits for the boundary, outside Run it is done at once (log entries 81, 82). -/
def State.mapoutGo (s : State) : State :=
  let (d, c) := (s.get Reg.MDEV, s.get Reg.MCH)
  if s.inRun then s.queueRepair (.mapout d c) else s.repairMapout d c

/-- TABLD_GO (R339). -/
def State.tabldGo (s : State) : State := s.queueRepair (.tables (s.get Reg.MDEV))

/-- A write to 0x2034: its fields, then the requests that it makes (R341, R406). -/
def State.writeRepair (s : State) (v : Word) : State :=
  s.onWrite 0x2034 v (fun s => whenBit v 30 State.tabldGo (whenBit v 31 State.mapoutGo s))

/-- MAPOUT_GO. -/
def execMapoutGo (v : Word) (s : State) : Result := .next (s.writeRepair v)
/-- TABLD_GO. -/
def execTabldGo (v : Word) (s : State) : Result := .next (s.writeRepair v)

/-- CHANNEL_MAPOUT (R338): the repair in hand, at a boundary. -/
def execChannelMapout (s : State) : Result :=
  match s.req.repairs with
  | .mapout d c :: rest => if s.atBoundary then .next (s.doRepair rest (·.repairMapout d c)) else .next s
  | _ => .next s

/-! ### The hold and Clover -/

/-- HOLD_CLR (R337). -/
def State.holdClr (s : State) : State :=
  if !s.flag Reg.HELD then s else if s.holdMayEnd then s.endHold else s.setFlag Reg.REP_REFUSED true

/-- CLOVER_GO is taken (R340, R396): at a boundary in the hold, or in bring-up stage 4 or 6, but not by a Spent part, which
stays in stage 4 (R358; log entry 84). -/
def State.cloverTaken (s : State) : Bool :=
  !s.flag Reg.CLOVER && !s.spent && ((s.inRun && s.atBoundary && s.flag Reg.HELD) || s.get Reg.BSTAGE == 4 || s.get Reg.BSTAGE == 6)

/-- Clover mode begins (R340): the plan is unloaded and everything that works under it stops, the layer engine is off (R139); entries,
codes, scrubbing and the step log stay (log entry 84). -/
def State.enterClover (s : State) : State :=
  let s : State := { s with
    plan := ⟨none, none, none⟩
    seq := { s.seq with running := false, wait := none }
    icache := ⟨[], none, none⟩
    step := StepState.empty
    exch := { Exchange.empty with ports := s.exch.ports, topoSeen := s.exch.topoSeen, topo := s.exch.topo }
    tier := TierState.empty
    waits := [] }
  ((((s.setFlag Reg.CLOVER true).set Reg.BSTAGE 8).set Reg.LSTATE 0).set64 Reg.PLAN_ID_LO Reg.PLAN_ID_HI 0).set64
    Reg.PEND_ID_LO Reg.PEND_ID_HI 0 |>.setFlag Reg.STALLED false |>.setFlag Reg.LE_ON false

/-- CLOVER_GO: ignored at any other time. -/
def State.cloverGo (s : State) : State := if s.cloverTaken then ((s.enterClover).rotDrop 1).settleTest else s

/-- A write to 0x2000. -/
def State.writeFaultControl (s : State) (v : Word) : State :=
  s.onWrite 0x2000 v (fun s => whenBit v 30 State.cloverGo (whenBit v 31 State.holdClr s))

/-- HOLD_CLR. -/
def execHoldClr (v : Word) (s : State) : Result := .next (s.writeFaultControl v)
/-- CLOVER_GO. -/
def execCloverGo (v : Word) (s : State) : Result := .next (s.writeFaultControl v)

end Sys2Proof.Machine
end

