-- ==== Sys2Proof/Machine/Boundary.lean ====
section
/-! DEFINITION. The step's ends: GO and CNT_GO, the release of reduction rows (R70, R74), the step boundary (R49, R50, R60, R73,
R74, R104, R195, R331), stalls (R76), the topology binding (R243, R244) and failed ports (R211). -/

namespace Sys2Proof.Machine

/-! ### The step header's commands -/

/-- GO (R52; log entries 13, 34). -/
def execGo (v : Word) (s : State) : Result := .next (s.onWrite 0x0800 v (whenBit v 31 State.takeGo))

/-- SG_SET (R53): in stage 4 with no plan loaded S and G take SET_S and SET_G. -/
def State.setSG (s : State) : State :=
  if s.get Reg.BSTAGE == 4 && !s.planLoaded then
    (s.set64 Reg.STEP_LO Reg.STEP_HI (s.get64 Reg.SET_S_LO Reg.SET_S_HI)).set64 Reg.GSTEP_LO Reg.GSTEP_HI
      (s.get64 Reg.SET_G_LO Reg.SET_G_HI)
  else s.setFlag Reg.SG_REFUSED true

/-- SG_SET. -/
def execSgSet (v : Word) (s : State) : Result := .next (s.onWrite 0x0900 v (whenBit v 31 State.setSG))

/-- CNT_GO (R228). -/
def execCntGo (v : Word) (s : State) : Result := .next (s.onWrite 0x5010 v (whenBit v 31 State.takeCnt))

/-! ### Reduction rows -/

/-- The reduction rows of the step, in the order in which its sectors first name them. -/
def State.reductionRows (s : State) : List RowLoc := (s.step.sectors.map (fun x => (s.sectorPlace x).red)).eraseDups

/-- Release a reduction row (R70): tail sector 3 is rewritten without reading it, KIND 1, REMAP as the bank's entries name the
row, every other flag clear. -/
def State.releaseRow (s : State) (l : RowLoc) : State :=
  let m := { Meta.fresh 1 with remap := s.rowRemapped l }
  let s := ((s.awaitPair l).charge 11 0 1 1).put .through l 0x7E0 (List.replicate 24 0 ++ leBytes 8 m.toWord.toNat)
  s.modStep (fun t => { t with released := t.released ++ [l] })

/-- Every state row whose sector the reduction row holds has ended (R70, R71; log entry 66). -/
def State.rowReleasable (s : State) (l : RowLoc) : Bool :=
  s.seq.commitRun && s.seq.sealV == 1 && !s.step.released.contains l
    && s.step.sectors.all (fun x => (s.sectorPlace x).red != l || s.step.entries.all (fun e => e.e.loc != x.loc || e.ended))

/-- REDUCTION_RELEASE (R70), of the row with this index among the step's reduction rows. -/
def execReductionRelease (row : Nat) (s : State) : Result :=
  match s.reductionRows[row]? with
  | some l => if s.rowReleasable l then .next (s.releaseRow l) else .next s
  | none => .next s

/-- Release every reduction row that is still held (R70, R74; log entry 66). -/
def State.releaseAll (s : State) : State :=
  (s.reductionRows.filter (fun l => !s.step.released.contains l)).foldl State.releaseRow s

/-! ### What a committed step's boundary changes -/

/-- The conversion fields of a touched shard at the boundary of a committed step (R104). -/
def Shard.atBoundary (h : Shard) : Shard :=
  { h with
    amaxLast := h.amax
    xexp := if fpIsZero h.amax then h.xexp else max (-128) (min 127 (fpLog2 h.amax - 14 + h.cfg.margin))
    satcnt := min 255 h.stepSat
    amax := fpZero false
    stepSat := 0
    touched := false }

/-- Update every shard that the step touched (R104). -/
def State.updateShards (s : State) : State :=
  let hs := (s.plan.plan.map (·.shards)).getD []
  (hs.zipIdx.filter (·.1.touched)).foldl (fun s x => s.modShard x.2 Shard.atBoundary) s

/-- The weight of a unit in ODIG (R60, R418), modulo 2^64. -/
def Plan.odigWeight (p : Plan) (u : Nat) : DWord := BitVec.ofNat 64 ((sparseFind p.odig u).getD 0)

/-- ODIG after the units of the step have advanced (R60). -/
def State.advanceOdig (s : State) : State :=
  match s.plan.plan with
  | none => s
  | some p =>
    let d := s.step.unitK.foldl (fun (d : DWord) u =>
      d + p.odigWeight u.unit * (digestTerm u.unit (min (u.count + 1) 0xFFFFFFFF) - digestTerm u.unit u.count))
      (BitVec.ofNat 64 (s.get64 Reg.ODIG_LO Reg.ODIG_HI))
    s.set64 Reg.ODIG_LO Reg.ODIG_HI d.toNat

/-- Advance a 64-bit count. -/
def State.advance64 (s : State) (lo hi : Field) : State := s.set64 lo hi (s.get64 lo hi + 1)

/-! ### Topology -/

/-- Where a digest binds (R243): some none to the plan's TOPO, some (some i) to degraded slice i. -/
def Plan.binds (p : Plan) (d : Nat) : Option (Option Nat) :=
  if d = p.hdr.topo then some none else (p.slices.findIdx? (· == d)).map some

/-- Take a digest (R243, R244): BOUND, SLICE and SLICE_IX follow it. -/
def State.bindTopo (s : State) (d : Nat) : State :=
  let r := s.plan.plan.bind (fun p => p.binds d)
  ((s.setFlag Reg.BOUND r.isSome).setFlag Reg.SLICE (r.bind id).isSome).set Reg.SLICE_IX ((r.bind id).getD 0)

/-- TOPO_DIGEST (R244, R386): taken at once before Run or at a boundary, else at the next boundary (log entry 52). -/
def execTopoDigest (digest : DWord) (s : State) : Result :=
  if s.inReset || s.harebell then .next s
  else
    let s := (s.set64 Reg.TOPO_LO Reg.TOPO_HI digest.toNat).modExch (fun x => { x with topoSeen := true })
    if s.inStep then .next (s.modExch (fun x => { x with topo := some digest.toNat }))
    else .next (s.bindTopo digest.toNat)

/-- A digest that waited is taken (log entry 52). -/
def State.takeTopo (s : State) : State :=
  match s.exch.topo with
  | some d => (s.modExch (fun x => { x with topo := none })).bindTopo d
  | none => s

/-- PORT_FAILED (R211): the port leaves the rotations (log entry 22). -/
def execPortFailed (port : BitVec 3) (s : State) : Result :=
  if s.inReset || s.harebell then .next s
  else .next ({ s with pins := { s.pins with fFail := s.pins.fFail ||| 2 ^ port.toNat } }.setBit Reg.PORT_FAIL port.toNat true)

/-! ### The boundary -/

/-- The break step (R362): BRK_HIT at the boundary at which S equals BRK_STEP (log entry 115). -/
def State.checkBreak (s : State) : State :=
  if s.flag Reg.BRK_EN && s.stepS == s.get64 Reg.BRK_STEP_LO Reg.BRK_STEP_HI then s.setFlag Reg.BRK_HIT true else s

/-- The step is over: what belonged to it goes; answers to its requests may still come (log entry 35). -/
def State.clearStep (s : State) : State :=
  { s with
    step := StepState.empty
    seq := { s.seq with running := false, wait := none, stack := [] }
    exch := { s.exch with givenUp := [] }
    tier := { s.tier with moved := [], dueQ := [], tmovs := 0 }
    waits := [] }.setFlag Reg.STALLED false

/-- The region number that stands for every row of every device (R357; log entry 113). -/
def allRegions : Nat := 64

/-- A request is refused (R366): 0x01 region disabled, 0x02 held by the loaded plan (log entry 113). -/
def State.zeroRefusal (s : State) (n : Nat) : Option Nat :=
  if n = allRegions then none
  else if s.spent || !s.enabled n then some 0x01
  else if s.planHeld n then some 0x02
  else none

/-- A request is taken (R366): refused, or it runs, its counts from zero (log entry 113). -/
def State.takeZero (s : State) (n : Nat) : State :=
  match s.zeroRefusal n with
  | some c => ({ s with req := { s.req with z := none } }.setFlag Reg.ZREFUSED true).set Reg.ZCODE c
  | none => ((({ s with req := { s.req with z := some ⟨n, false⟩ } }.setFlag Reg.ZBUSY true).set Reg.ZROWS 0).set Reg.ZERR 0).set
      Reg.ZSKIP 0

/-- A zeroization requested during the step is taken at its boundary (R366). -/
def State.takeWaitingZero (s : State) : State :=
  match s.req.z with
  | some z => if s.flag Reg.ZBUSY then s else s.takeZero z.region
  | none => s

/-- A pending swap whose SWAP_STEP has passed is dropped (R183). -/
def State.dropPassedSwap (s : State) : State :=
  if s.plan.pend.isSome && decide (s.get64 Reg.SWAP_STEP_LO Reg.SWAP_STEP_HI < s.stepS) then
    let s : State := { s with plan := { s.plan with pend := none } }
    let s := (((s.set Reg.LOAD_CODE 0x11).set Reg.LOAD_SECT 0).set Reg.LOAD_DETAIL 0).set64 Reg.PEND_ID_LO Reg.PEND_ID_HI 0
    if s.trapped then s else s.set Reg.LSTATE (if s.plan.load.isSome then 1 else 2)
  else s

/-- The settings of a replay, as its registers stand (R317, R406). -/
def State.replaySettings (s : State) : RReq where
  bsu := s.flag Reg.RUNIT
  reg := s.get Reg.RREG
  first := s.get Reg.RFIRST
  count := s.get Reg.RCOUNT
  loc := ⟨s.get Reg.RDEV, s.get Reg.RCH, 2 * s.get Reg.RK, s.get Reg.RROW⟩
  step := s.get64 Reg.RSTEP_LO Reg.RSTEP_HI

/-- The settings of an export or import, as its registers stand (R309, R406). -/
def State.exportSettings (s : State) (imp : Bool) : XReq where
  imp := imp
  cont := s.get Reg.XCONT
  shard := s.get Reg.XSHARD
  far := s.flag Reg.XFAR
  reg := s.get Reg.XREG
  off := s.get64 Reg.XOFF_LO Reg.XOFF_HI
  phase := 0
  slot0 := 0
  pieces := 0
  left := 0
  failed := false

/-- Requests that waited for the boundary are taken: their settings are latched (R309, R317, R406). -/
def State.latchRequests (s : State) : State :=
  { s with req := { s.req with x := s.req.x.map (fun x => s.exportSettings x.imp), r := s.req.r.map (fun _ => s.replaySettings) } }

/-- The boundary itself (R50 to R52, R336): PHASE, stamp 5, the step event, and what waits for a boundary (log entries 35, 36). -/
def State.reachBoundary (s : State) (outcome : Nat) : State :=
  let s := (s.clearStep.set Reg.OUTCOME outcome).set Reg.PHASE (if s.flag Reg.HELD then 7 else 0)
  let s := ((s.perf (outcome - 1) 1).stamp 5).raise 1
  s.takeHolds.latchRequests.takeWaitingZero.takeService.takeTopo.dropPassedSwap.checkBreak

/-- The step log is closed (R330, R331): LOGSTATE 0 with the S and G after the boundary. -/
def State.closeLog (s : State) : State := s.keepLog (fun g => { g with logState := 0, s := s.stepS, g := s.stepG })

/-- The boundary of a committed step (R49, R60, R70, R73, R104). -/
def State.commitBoundary (s : State) : State :=
  let s := s.releaseAll.updateShards.advanceOdig
  ((s.advance64 Reg.GSTEP_LO Reg.GSTEP_HI).advance64 Reg.STEP_LO Reg.STEP_HI).closeLog.reachBoundary 1

/-- The boundary of a skipped step (R49, R74; log entry 37). -/
def State.skipBoundary (s : State) : State := (s.releaseAll.advance64 Reg.STEP_LO Reg.STEP_HI).closeLog.reachBoundary 2

/-- The boundary after a refused open (R61; log entry 37). -/
def State.refuseBoundary (s : State) : State := s.reachBoundary 3

/-- STEP_BOUNDARY (R73, R195): stage 2 checks, then the boundary of the verdict. -/
def execStepBoundary (s : State) : Result :=
  let s := s.settleInsts
  if s.seq.wait != some .stepend || !s.stependReady then .next s
  else if !s.stependOk then .next (s.trap 0x03 0x0A)
  else if s.seq.openV == 2 then .next s.refuseBoundary
  else if s.seq.sealV == 1 then .next s.commitBoundary
  else .next s.skipBoundary

/-- STALL_LIMIT_PASSED (R76): the wait of this kind that began first, of those not yet marked, passes its limit, is marked, and goes
on. -/
def execStallLimitPassed (w : Watch) (s : State) : Result :=
  match s.waits.find? (fun x => x.watch == w && !x.marked) with
  | none => .next s
  | some x =>
    let s := s.advance (x.since + s.get Reg.STALL_LIMIT * 1024)
    let s : State := { s with waits := s.waits.map (fun y =>
      if y.watch == w && y.key == x.key then { y with marked := true } else y) }
    .next ((s.setFlag Reg.STALLED true).raise 1)

end Sys2Proof.Machine
end

