-- ==== Sys2Proof/Machine/Commit.lean ====
section
/-! DEFINITION. Commit (R69 to R71, R107 to R137): schedules, the start window (R283, R304), unit constants, the passes of the
bank-side units and of the controller-side unit (R274 to R279, R288), the fold of results, trust ratios, and the records of
armed rows (R315, R316). -/

namespace Sys2Proof.Machine

/-! ### Group constants -/

/-- The schedule's value for a group at step `g` (R133 to R136). -/
def Plan.schedule (p : Plan) (c : GroupCfg) (g : Nat) : Fp Word :=
  if p.hdr.sched = 0 then pure (schedTable (p.section 0x0A) c.schedix c.offset g)
  else schedEngine p.seedTable (curveSegs (p.section 0x0A) c.schedix) g

/-- eta, eta_wd and eta_ds from the schedule's value (R115). -/
def GroupCfg.etas (c : GroupCfg) (sched : Word) : Fp (Word × Word × Word) := do
  let eta ← fpMul c.flush c.lr sched
  return (eta, ← fpMul c.flush eta c.wd, ← fpMul c.flush eta c.dscale)

/-- Compute the constants of one group; the curve's flags are the group's too (R136). -/
def State.evalGroup (s : State) (p : Plan) (g : Nat) : State :=
  let c := s.groupCfg g
  let (v, f1) := (p.schedule c s.step.hdr.g).go
  let ((eta, wd, ds), f2) := (c.etas v).go
  let clip := (s.plan.plan.bind (fun p => p.groups[g]?)).map (·.clip)
  let k : GroupK := { group := g, sched := some v, eta := eta, etaWd := wd, etaDs := ds, clip := clip.getD fpOne,
                      etaTrust := none, sumW := 0, sumX := 0 }
  (s.modGroup g (fun x => { x with eta := eta, flags := x.flags.or (f1.or f2) })).modStep (fun t =>
    { t with groupK := t.groupK ++ [k] })

/-- The groups of the running variant. -/
def StepState.groups (t : StepState) : List Nat := (t.entries.map (·.e.group)).eraseDups

/-- SCHEDULE_EVAL (R115, R137): after the "proceed" verdict, once. -/
def execScheduleEval (s : State) : Result :=
  match s.plan.plan with
  | some p =>
    if s.inStep && s.seq.openV == 1 && s.seq.sealV != 2 && s.step.groupK.isEmpty then
      .next (s.step.groups.foldl (fun s g => s.evalGroup p g) s)
    else .next s
  | none => .next s

/-- The constants of a group of the step. -/
def StepState.groupK? (t : StepState) (g : Nat) : Option GroupK := t.groupK.find? (·.group == g)

/-! ### Entries -/

/-- The oldest entry not yet started. -/
def StepState.oldest (t : StepState) : Nat := (t.entries.findIdx? (·.st == .waiting)).getD t.entries.length

/-- Entry `n` lies in the start window (R283). -/
def StepState.inWindow (t : StepState) (n : Nat) : Bool := decide (t.oldest ≤ n) && decide (n < t.oldest + 256)

/-- The committed units of an entry, in block order (R114, R130). -/
def EntrySt.units (e : EntrySt) : List Nat := ((maskBlocks e.mask).map e.e.unitOf).eraseDups

/-- The row is the target of an IN that has not moved it yet (R304). -/
def State.awaitsIn (s : State) (l : RowLoc) : Bool :=
  s.tier.queue.any (fun m => m.op == 1 && m.loc.dev == l.dev && m.loc.ch == l.ch && m.loc.bank == l.bank
    && decide (m.loc.row + m.done ≤ l.row) && decide (l.row < m.loc.row + m.nrows))

/-- The first entry of the window, up to entry `n`, that waits for its IN. -/
def State.lateEntry (s : State) (n : Nat) : Option Nat :=
  (List.range (n + 1)).find? (fun m => decide (s.step.oldest ≤ m)
    && (s.step.entries[m]?).any (fun e => e.st == .waiting && s.awaitsIn e.e.loc))

/-- An entry waits for its move (R304): counted once in TLATE, and watched. -/
def State.markLate (s : State) (m : Nat) : State :=
  if (s.step.entries[m]?).any (·.late) then s
  else ((s.modEntry m (fun e => { e with late := true })).bump Reg.TLATE 1).beginWait .tierMove m

/-- The record-selection entry that arms a row, and the row's index in it (R315). -/
def State.armedBy (s : State) (p : Plan) (l : RowLoc) : Option (RecSel × Nat) :=
  s.step.armed.findSome? (fun r =>
    ((List.range r.nrows).find? (fun i => p.shardRow r.shard (r.frow + i) == l)).map (fun i => (r, i)))

/-- The layer whose rows a RULE 8 entry applies, if the direction is not yet in the sectors (R69, R155). -/
def State.awaitsLayer (s : State) (p : Plan) (e : CommitEntry) : Bool :=
  (s.groupCfg e.group).rule == 8
    && s.step.layers.any (fun x => (p.layers[x.ix]?).any (fun l => l.cfg.shard == e.shard) && x.st != .sectors)

/-- The pair of a row is free (R283). -/
def State.pairFree (s : State) (l : RowLoc) : Bool := !s.pairHeld l.dev l.ch l.pair

/-- A refresh is due for a bank of the pair (R287). -/
def State.refreshDueAt (s : State) (l : RowLoc) : Bool :=
  s.dev.refresh.any (fun x => x.1 == l.dev && x.2.1 == l.ch && x.2.2 / 2 == l.pair)

/-- Rows in flight on the controller-side unit (R289). -/
def State.csuRows (s : State) : Nat := (s.step.entries.filter (fun e => e.st == .started && !s.inService e.e.loc.dev)).length

/-- The row operands of an entry's pass (R273). -/
def State.passRow (s : State) (p : Plan) (e : EntrySt) (bc : List (Word × Word)) : PassRow :=
  let h := p.shards[e.e.shard]?
  let c := h.map (·.cfg)
  let f := p.shardFmt e.e.shard
  let pl := s.poolPlace e.e.loc e.e.pool f
  { rule := (s.groupCfg e.e.group).rule
    pass := e.e.pass
    fmt := (c.map (·.fmt)).getD 0
    rmode := (c.map (·.rmode)).getD 0
    g16w := pl.g16w
    slot := pl.slot
    sect := pl.sect
    npar := e.e.npar
    xexp := (h.map (·.xexp)).getD 0
    mask := e.mask % 32
    wrow := pl.wloc.row
    tensor := BitVec.ofNat 32 ((c.map (·.tensorId)).getD 0)
    elem0 := (c.map (·.base)).getD 0 + 160 * ((p.rowOfShard e.e.shard e.e.loc).getD 0)
    bc1 := bc.map (·.1)
    bc2 := bc.map (·.2) }

/-- The lines that the row's passes must read give data. -/
def State.passReadable (s : State) (p : Plan) (e : EntrySt) : Bool :=
  (s.findPass e.e.loc (s.poolPlace e.e.loc e.e.pool (p.shardFmt e.e.shard)).red.row
    { s.passRow p e [] with pass := 0 }).clean

/-- The unit of an entry has its constants, or the entry is the first in list order of those not yet started that use the unit
(R117): every other row waits for it (R266). -/
def State.unitsReady (s : State) (n : Nat) (e : EntrySt) : Bool :=
  e.units.all (fun u => s.step.unitK.any (·.unit == u)
    || !(s.step.entries.take n).any (fun x => x.st == .waiting && x.units.contains u))

/-- The conditions of R283, R117, R155 and R316 on an entry, but for moves and for what the device's timing allows; a row that its
passes cannot read gets no record (log entry 62). -/
def State.entryReady (s : State) (p : Plan) (n : Nat) (e : EntrySt) : Bool :=
  s.pairFree e.e.loc
    && (s.step.entries.take n).all (fun x => !(x.st == .waiting && x.e.loc.samePair e.e.loc))
    && (match s.step.groupK? e.e.group with
      | some k => k.etaTrust.isSome || e.e.pass == 1
          || !((s.groupCfg e.e.group).rule == 6 || (s.groupCfg e.e.group).rule == 7)
      | none => false)
    && !s.awaitsLayer p e.e
    && s.unitsReady n e
    && ((s.armedBy p e.e.loc).isNone || e.recorded || !s.passReadable p e)
    && (s.inService e.e.loc.dev || decide (s.csuRows < 32))

/-! ### Unit constants -/

/-- The lines that hold unit `u`'s record: COUNT, POW1, POW2 (R111; log entry 59). -/
def State.unitLines (s : State) (p : Plan) (u : Nat) : List LineLoc :=
  let (r, j) := unitPlace u
  let l := (s.regionWords p.hdr.unitReg).unitRow r
  [⟨l, j / 16⟩, ⟨l, j / 16 + 10⟩, ⟨l, j / 16 + 20⟩]

/-- The byte of a unit's field in its line. -/
def unitByte (u : Nat) : Nat := 4 * (u % 160 % 16)

/-- Read a unit record through ordinary row accesses (R112): none where a line gives no data. -/
def State.readUnit (s : State) (a : ErrSrc) (p : Plan) (u : Nat) : Option UnitRec × State :=
  let xs := s.unitLines p u
  let s := s.chargeReads 11 xs
  let (vs, s) := xs.foldl (fun (acc : List LineVal × State) x =>
    let (v, s) := acc.2.fetchLine a x
    (acc.1 ++ [v], s)) ([], s)
  let f (i : Nat) : Option Nat := (vs[i]?.bind LineVal.bytes?).map (fun b => leAt b (unitByte u) 4)
  match f 0, f 1, f 2 with
  | some c, some p1, some p2 => (some ⟨c, BitVec.ofNat 32 p1, BitVec.ofNat 32 p2⟩, s)
  | _, _, _ => (none, s)

/-- Write a unit record, as whole lines written through (R331). -/
def State.writeUnit (s : State) (a : ErrSrc) (p : Plan) (u : Nat) (r : UnitRec) : State :=
  let xs := s.unitLines p u
  let s := s.chargeWrites 11 xs
  (xs.zip [r.count, r.pow1.toNat, r.pow2.toNat]).foldl (fun s x =>
    let b := ((s.lineVal x.1).bytes?).getD (List.replicate 64 0)
    (s.writeLine a .through x.1 (putWordAt b (unitByte u) x.2) fullMask).2) s

/-- The constants of unit `u` under group `g`, computed at its first entry (R117): its old record goes to the step log (R330)
before the new one is written. The answer tells whether the unit's lines could be read. -/
def State.openUnit (s : State) (p : Plan) (g u : Nat) : Bool × State :=
  if s.step.unitK.any (·.unit == u) then (true, s)
  else
    let (r, s) := s.readUnit .other p u
    match r with
    | none => (false, s)
    | some r =>
      let c := s.groupCfg g
      let s := s.keepLog (fun l => { l with units := l.units ++ [⟨u, r.count, r.pow1, r.pow2⟩] })
      let ((bc1, bc2, r'), f) := (unitConstants p.seedTable c c.flush r).go
      let s := (s.orFlags g f).writeUnit .other p u r'
      (true, s.modStep (fun t => { t with unitK := t.unitK ++ [⟨u, bc1, bc2, r.count, r.pow1, r.pow2⟩] }))

/-- Open the units of an entry: the first that could not be read, if any. -/
def State.openUnits (p : Plan) (g : Nat) : List Nat → State → Option Nat × State
  | [], s => (none, s)
  | u :: t, s =>
    match s.openUnit p g u with
    | (true, s) => State.openUnits p g t s
    | (false, s) => (some u, s)

/-! ### The end of an entry -/

/-- What follows when entries have ended: stamp 4 (R51), PHASE 5, move-outs. -/
def State.afterEntries (s : State) : State :=
  ((if s.step.rowsEnded then s.stamp 4 else s).maybeEmission).settleMoved

/-- Entry `n` has ended (R71): at rest, or left unchanged with its shard lost (log entry 56). -/
def State.endEntry (s : State) (a : ErrSrc) (n : Nat) (ok : Bool) : State :=
  let s := s.modEntry n (fun e => { e with st := if ok then .atRest else .unchanged })
  let h := ((s.step.entries[n]?).map (·.e.shard)).getD 0
  (if ok then s else s.loseShard a h 0x01).afterEntries

/-- A unit-table line of unit `u` cannot be read (R320): the unit's rows are not committed and every shard of the unit is
lost (log entry 61). -/
def State.loseUnit (s : State) (u : Nat) : State :=
  let hit (e : EntrySt) : Bool := !e.ended && e.units.contains u
  let shards := ((s.step.entries.filter hit).map (·.e.shard)).eraseDups
  let s := s.modStep (fun t => { t with entries := t.entries.map (fun e => if hit e then { e with st := .unchanged } else e) })
  (shards.foldl (fun s h => s.loseShard .other h 0x01) s).afterEntries

/-! ### Operand lines -/

/-- The constants of an entry's pass (R272). -/
def State.passConst (s : State) (p : Plan) (e : CommitEntry) (k : GroupK) : PassConst :=
  let c := s.groupCfg e.group
  let g := (p.groups[e.group]?).map (fun g => (g.omb1, g.omb2))
  { eta := k.eta
    etaWd := k.etaWd
    etaX := if c.rule = 8 then k.etaDs
      else if (c.rule = 6 || c.rule = 7) && e.pass != 1 then k.etaTrust.getD 0 else 0
    omb1 := (g.map (·.1)).getD 0
    omb2 := (g.map (·.2)).getD 0
    clip := k.clip
    beta1 := c.beta1
    beta2 := c.beta2
    eps := c.eps
    wd := c.wd
    seed := BitVec.ofNat 64 s.step.hdr.seed
    glo := BitVec.ofNat 32 s.step.hdr.g
    lse := s.step.hdr.lse
    flush := c.flush
    cb := ((p.shardCfg? e.shard).map (·.cb)).getD [] }

/-- bc1 and bc2 of the five MX blocks (R273); a block whose unit the step does not touch has open values there (log entry 60). -/
def State.blockBc (s : State) (e : CommitEntry) : List (Word × Word) × State :=
  (List.range 5).foldl (fun (acc : List (Word × Word) × State) q =>
    match acc.2.step.unitK.find? (·.unit == e.unitOf q) with
    | some u => (acc.1 ++ [(u.bc1, u.bc2)], acc.2)
    | none =>
      let (v, s) := acc.2.free
      (acc.1 ++ [(v.extractLsb' 0 32, v.extractLsb' 32 32)], s)) ([], s)

/-! ### Passes -/

/-- The bound of a CMTR or SCNR sequence (R278). -/
def State.passBound (s : State) (l : RowLoc) (prow : Nat) (r : PassRow) : Nat :=
  let pb := partnerBank l.bank
  if s.rowRemapped l || s.rowRemapped (l.at pb prow)
      || (r.pass != 1 && ruleSlot r.rule && s.rowRemapped (l.at pb r.wrow)) then 400
  else if r.pass = 1 then 120 else 240

/-- The partials of a scan that could not be formed are open values (log entry 60). -/
def State.openPartials (s : State) (r : PassRow) (o : PassOut) : PassOut × State :=
  if r.pass = 1 && !o.clean then
    let (v, s) := s.free
    ({ o with pw := v.extractLsb' 0 32, px := v.extractLsb' 32 32 }, s)
  else (o, s)

/-- A BSU executes the pass of two operand lines on the rows that its sequence holds open (R274, R276, R277), finding remapped
lines by its own entries (R271); a zero-row writes both rows zero (R273). The corrected state lines that its result names are
counted before the pass writes them (R324). -/
def State.bsuPass (s : State) (l : RowLoc) (prow : Nat) (consts row : Line) (recorded : Bool) : State :=
  let b := s.bsu l.dev l.ch l.pair
  let c := PassConst.ofLine consts
  let r := PassRow.ofLine row
  let es := s.fault.remap
  let corr := if r.rule = 15 then 0 else ((s.seenByBsu l).findPass l prow r).corr
  let s := (onBits 30 corr).foldl (fun s i => s.corrected .bsu ⟨l, i⟩ 0) s
  let (o, s) := if r.rule = 15 then
      (PassOut.none, ((s.seenByBsu l).zeroRow l).zeroRow (l.at (partnerBank l.bank) prow))
    else (s.seenByBsu l).runPass b.seed l prow c r recorded
  let (o, s) := (s.withRemap es).openPartials r o
  let s := s.setBsu l.dev l.ch l.pair { b with result := some (s.resultOf l o), ue := b.ue || !o.clean, held := Flags.clear }
  s.countCorr l (o.reads.map (·.2))

/-- Fold a row's result (R276, R104). -/
def State.foldResult (s : State) (n : Nat) (e : EntrySt) (r : RowResult) : State :=
  let clean := r.uel == 0 && !r.uex
  let conv := clean && e.e.pass != 1 && ruleSlot (s.groupCfg e.e.group).rule && e.mask % 32 != 0
  let s := s.modShard e.e.shard (fun h => { h with
    amax := fpMax h.amax r.amax
    stepSat := h.stepSat + r.satn
    nonfin := h.nonfin || r.flags.nonfin
    touched := h.touched || conv })
  (s.orFlags e.e.group r.flags).modEntry n (fun x => { x with result := some r, folded := true })

/-- Log a line that a BSU reports as uncorrectable, under the class of what the line holds (R319). -/
def State.noteBad (s : State) (x : LineLoc) : State :=
  match s.lineVal x with
  | .bad c sy => s.log_ c .bsu (s.lineInfo x sy.toNat 0)
  | .zero | .good _ | .fixed _ _ | .poison _ _ | .far => s.log_ 0x02 .bsu (s.lineInfo x 0 0)

/-- Report the lines that a BSU's result names (R276, R319): uncorrectable state lines, and with UEX the uncorrectable lines of the
sector and the slot, or else metadata (log entry 86). -/
def State.noteResult (s : State) (e : EntrySt) (r : RowResult) : State :=
  let l := e.e.loc
  let s := (onBits 30 r.uel).foldl (fun s i => s.noteBad ⟨l, i⟩) s
  if !r.uex then s
  else
    let xs := ((s.findPass l e.prow (PassRow.ofLine e.operand)).reads.filter (fun x => x.1.loc != l && x.2.isBad)).map (·.1)
    if xs.isEmpty then s.log_ 0x05 .bsu (s.lineInfo ⟨l, 0⟩ 0 0) else xs.foldl State.noteBad s

/-- Pin traffic of what a pass outside a BSU writes: the lines of its state row and of its slot (R25, R289). -/
def State.chargePassWrites (s : State) (l : RowLoc) (r : PassRow) (o : PassOut) : State :=
  if o.slot.isEmpty && o.moments.isEmpty && o.masters.isEmpty then s
  else
    let ls := (o.moments ++ o.masters).map (·.1)
    let s := s.charge 11 0 (2 * ls.length + ((ls.map (· / 8)).filter (· != 3)).eraseDups.length + 1) 1
    if (EmFmt.ofCode r.fmt).lines = 0 || o.slot.isEmpty then s
    else s.chargeWrites 11 (o.slot.map (fun x => ⟨l.at (partnerBank l.bank) r.wrow, x.1⟩))

/-- Pin traffic of a pass of the controller-side unit (R289). -/
def State.chargeCsu (s : State) (l : RowLoc) (prow : Nat) (r : PassRow) (o : PassOut) : State :=
  let pb := partnerBank l.bank
  let kept := (o.reads.map (·.1)).filter (fun x => x.loc.bank == pb && x.loc.row != prow)
  let s := (s.chargeReads 11 (ruleReads r.rule |>.map (fun i => ⟨l, i⟩))).chargeReads 11
    (sectorLocs (l.at pb prow) r.g16w r.sect)
  (if kept.isEmpty then s else s.chargeReads 11 kept).chargePassWrites l r o

/-- Report the lines that a pass of the controller-side unit met; a FAR row counts as uncorrectable (R305). -/
def State.noteReads (s : State) (o : PassOut) : State :=
  o.reads.foldl (fun s x => match x.2 with
    | .far => s.log_ 0x02 .csu (s.lineInfo x.1 0 0)
    | .zero | .good _ | .fixed _ _ | .bad _ _ | .poison _ _ => s.noteLine .csu x.1 x.2) s

/-! ### Records of armed rows -/

/-- Write line `i` of row unit `u` of a region. -/
def State.putUnitLine (s : State) (a : ErrSrc) (e : RegionWords) (u i : Nat) (b : List Byte) : State :=
  (s.writeLine a .buffered ⟨e.unitRow u, i⟩ (takePad 64 b) fullMask).2

/-- The record word's line (R316). -/
def recordWord (step : Nat) (dstate dslot : DWord) (l : RowLoc) (lines : Nat) (g16w done : Bool) (meta_ : DWord) : List Byte :=
  leBytes 8 step ++ leBytes 8 dstate.toNat ++ leBytes 8 dslot.toNat ++ leBytes 4 l.word
    ++ leBytes 4 (lines % 8 + 8 * g16w.toNat + 16 * done.toNat) ++ leBytes 8 meta_.toNat

/-- The record of a row before its first pass: state lines and sector copies that can be read, the record word without digests
(R316; log entry 62). -/
def State.writeRecordOf (s : State) (p : Plan) (e : EntrySt) (r : RecSel) (i : Nat) : State :=
  let f := p.shardFmt e.e.shard
  let pl := s.poolPlace e.e.loc e.e.pool f
  let reg := s.regionWords r.dreg
  let u := r.dunit + 2 * i
  let st := s.peekLines e.e.loc (List.range 30)
  let se := s.peekLines pl.red (sectorLines pl.g16w pl.sect)
  let s := (s.chargeReads 14 (st.map (·.1))).chargeReads 14 (se.map (·.1))
  let s := st.foldl (fun s x => match x.2.bytes? with
    | some b => s.putUnitLine .replay reg u x.1.line b
    | none => s) s
  let s := se.zipIdx.foldl (fun s x => match x.1.2.bytes? with
    | some b => s.putUnitLine .replay reg (u + 1) (2 + x.2) b
    | none => s) s
  let s := ((List.range 10).drop se.length).foldl (fun s k => s.putUnitLine .replay reg (u + 1) (2 + k) []) s
  let s := s.putUnitLine .replay reg (u + 1) 12
    (recordWord s.step.hdr.s 0 0 e.e.loc f.lines pl.g16w false (s.metaOr e.e.loc).toWord)
  let s := ((List.range 30).drop 13).foldl (fun s k => s.putUnitLine .replay reg (u + 1) k []) s
  ((s.chargeWrites 14 ((List.range 30).map (fun k => ⟨reg.unitRow u, k⟩))).chargeWrites 14
    ((List.range 30).map (fun k => ⟨reg.unitRow (u + 1), k⟩))).bump Reg.RECROWS 1

/-- RECORD_WRITE (R316), before the first entry of an armed row; a row that its passes cannot read will not be committed and
gets no record (log entry 62). -/
def execRecordWrite (entry : Nat) (s : State) : Result :=
  match s.plan.plan, s.step.entries[entry]? with
  | some p, some e =>
    match s.armedBy p e.e.loc with
    | some (r, i) =>
      if s.seq.sealV == 1 && s.seq.commitRun && e.st == .waiting && !e.recorded && e.mask % 32 != 0
          && !s.awaitsIn e.e.loc && !s.awaitsLayer p e.e && s.passReadable p e then
        let s := s.writeRecordOf p e r i
        .next (s.modStep (fun t => { t with entries := t.entries.map (fun x =>
          if x.e.loc = e.e.loc then { x with recorded := true } else x) }))
      else .next s
    | none => .next s
  | _, _ => .next s

/-- The operand and constant lines of a recorded row's single or apply pass (R316; log entry 62). -/
def State.recordLines (s : State) (p : Plan) (e : EntrySt) (consts row : Line) : State :=
  match s.armedBy p e.e.loc with
  | some (r, i) =>
    if e.recorded && e.e.pass != 1 then
      let reg := s.regionWords r.dreg
      let u := r.dunit + 2 * i + 1
      (s.putUnitLine .replay reg u 0 (bytesOfLine row)).putUnitLine .replay reg u 1 (bytesOfLine consts)
    else s
  | none => s

/-- The digests of a recorded row, and DONE, after its last pass (R316; log entry 62). -/
def State.finishRecord (s : State) (p : Plan) (e : EntrySt) (step : Nat) : State :=
  match s.armedBy p e.e.loc with
  | some (r, i) =>
    if e.recorded && e.e.pass != 1 then
      let f := p.shardFmt e.e.shard
      let pl := s.poolPlace e.e.loc e.e.pool f
      let reg := s.regionWords r.dreg
      let x : LineLoc := ⟨reg.unitRow (r.dunit + 2 * i + 1), 12⟩
      let old := ((s.lineVal x).bytes?).getD []
      let ds := recordDigest (goodBytes (s.peekLines e.e.loc (List.range 30)))
      let dw : DWord := if ruleSlot (s.groupCfg e.e.group).rule then
          recordDigest (goodBytes (s.peekLines pl.wloc ((List.range f.lines).map (fun k => f.lines * pl.slot + k)))) else 0
      let w := recordWord step ds dw e.e.loc f.lines pl.g16w true (BitVec.ofNat 64 (leAt old 0x20 8))
      (s.writeLine .replay .buffered x (takePad 64 w) fullMask).2
    else s
  | none => s

/-! ### Starting an entry -/

/-- The entry starts on the BSU of its pair: the sequence is opened and the BSU runs the pass (R271, R279, R331; log entries 58, 59).
Bursts that the BSU discards are sent again; a command that never arrives leaves the row unchanged, its shard lost (R269, R292,
R71). -/
def State.startBsu (s : State) (n : Nat) (e : EntrySt) (prow : Nat) (consts row : Line) (linkFails : Nat) : State :=
  let l := e.e.loc
  let bound := s.passBound l prow (PassRow.ofLine row)
  let s := s.charge 11 0 (4 * (min linkFails 3 + 1)) 1
  if 3 < linkFails then
    ((s.openSeqRetried l prow 0 4 bound none 3).linkTrouble .bsu ⟨l, 0⟩ linkFails).endEntry .bsu n false
  else
    let s := (s.openSeqRetried l prow 0 4 bound (some n) linkFails).linkTrouble .bsu ⟨l, 0⟩ linkFails
    (s.perf 3 1).bsuPass l prow consts row e.recorded

/-- The bytes of two rows, as the device lists them. -/
def State.rowCells (s : State) (a b : RowLoc) : List Host.Cell :=
  s.mem.filter (fun x => x.1 / 2048 == a.addr / 2048 || x.1 / 2048 == b.addr / 2048)

/-- The entry starts on the controller-side unit (R288, R289): the pass runs, its result waits for the unit's last batch, and what the
state row and the weight row held is kept for a reset that comes before (R329; log entry 58). A burst that fails after its retries
leaves the row unchanged, its shard lost (R292, R71). -/
def State.startCsu (s : State) (seed : List Byte) (n : Nat) (e : EntrySt) (prow : Nat) (consts row : Line) (linkFails : Nat) :
    State :=
  let l := e.e.loc
  let c := PassConst.ofLine consts
  let r := PassRow.ofLine row
  let o := s.computePass seed l prow c r
  let s := (s.chargeCsu l prow r o).linkTrouble .csu ⟨l, 0⟩ linkFails
  if 3 < linkFails then s.endEntry .csu n false
  else
    let saved := s.rowCells l (l.at (partnerBank l.bank) r.wrow)
    let s := (s.perf 4 1).noteReads o
    let (o, s) := s.runPass seed l prow c r e.recorded
    let (o, s) := s.openPartials r o
    s.modEntry n (fun x => { x with result := some (s.resultOf l o), saved := saved })

/-- The waited ticks of T_STARTW: the oldest entry was held by the device's timing alone (R415; log entry 94). -/
def State.countStartWait (s : State) (n t : Nat) : State :=
  if n = s.step.oldest && s.flag Reg.TICK_OK && s.clock.ticking then s.perf 23 (t - s.clock.time) else s

/-- Start an entry whose conditions hold. -/
def State.startEntry (s : State) (p : Plan) (n : Nat) (e : EntrySt) (k : GroupK) (linkFails : Nat) : State :=
  match State.openUnits p e.e.group e.units (s.endWait .seqStart n) with
  | (some u, s) => s.loseUnit u
  | (none, s) =>
    let c := (s.passConst p e.e k).line
    let (bc, s) := s.blockBc e.e
    let r := s.passRow p e bc
    let s := s.recordLines p e c r.line
    let prow := (s.poolPlace e.e.loc e.e.pool (p.shardFmt e.e.shard)).red.row
    let s := s.modEntry n (fun x => { x with st := .started, consts := c, operand := r.line, prow := prow })
    if s.inService e.e.loc.dev then s.startBsu n e prow c r.line linkFails
    else s.startCsu p.seedTable n e prow c r.line linkFails

/-- COMMIT_ENTRY_START (R283, R304): an entry of the start window; one stopped by a move, by the device's temperature or
refresh, or by its timing rules waits and is watched (R76). A row that an earlier pass left unchanged gets no further pass
(log entry 61). -/
def execCommitEntryStart (entry : Linked Nat) (s : State) : Result :=
  let n := entry.val
  match s.plan.plan, s.step.entries[n]? with
  | some p, some e =>
    if !(s.seq.commitRun && s.seq.sealV == 1 && e.st == .waiting && s.step.inWindow n) then .next s
    else
      match s.lateEntry n, s.step.groupK? e.e.group with
      | some m, _ => .next (s.markLate m)
      | none, none => .next s
      | none, some k =>
        let s' := s.retire
        if !s'.entryReady p n e then .next s
        else if (s.step.entries.take n).any (fun x => x.e.loc == e.e.loc && x.st == .unchanged) then
          .next (s.modEntry n (fun x => { x with st := .unchanged })).afterEntries
        else if !s'.inService e.e.loc.dev then .next (s'.startEntry p n e k entry.linkFails)
        else if s'.bit Reg.HOT105 e.e.loc.dev || s'.refreshDueAt e.e.loc then .next (s.beginWait .seqStart n)
        else match s'.startTime e.e.loc.dev 4 with
          | none => .next (s.beginWait .seqStart n)
          | some t => .next ((s'.countStartWait n t).startEntry p n e k entry.linkFails)
  | _, _ => .next s

/-! ### Results -/

/-- The batches in which the controller-side unit writes a pass: none for a scan, two for Lion, else one a phase (R329;
log entry 58). -/
def passBatches (r : PassRow) : Nat := if r.pass = 1 then 0 else if r.rule = 5 then 2 else 3

/-- An executed entry ends (R71, R276): its result is folded, its record gets its digests. -/
def State.foldEntry (s : State) (a : ErrSrc) (n : Nat) : State :=
  match s.plan.plan, s.step.entries[n]?, s.step.entries[n]?.bind (·.result) with
  | some p, some e, some r =>
    if e.st != .executed then s
    else
      let s := ((if a = .bsu then s.noteResult e r else s).foldResult n e r)
      let ok := r.uel == 0 && !r.uex
      (if ok then s.finishRecord p e s.step.hdr.s else s).endEntry a n ok
  | _, _, _ => s

/-- CSU_PASS (R288, R289, R328, R329): the controller-side unit hands `phases` further batches of the entry's pass to the PHY;
with the last the pass has ended and its result is folded. A pass that met a bad line ends at once and wrote nothing (log
entries 2, 58). -/
def execCsuPass (entry : Nat) (phases : Nat) (s : State) : Result :=
  match s.step.entries[entry]? with
  | some e =>
    if s.inService e.e.loc.dev || (e.st != .started && e.st != .executed) then .next s
    else if e.st == .started && e.result.any (fun r => r.uel == 0 && !r.uex)
        && e.csuPhase + phases < passBatches (PassRow.ofLine e.operand) then
      .next (s.modEntry entry (fun x => { x with csuPhase := x.csuPhase + phases }))
    else .next (((s.modEntry entry (fun x => { x with st := .executed })).foldEntry .csu entry).retire)
  | none => .next s

/-- The results that have been read of entries on the pair are folded, in list order (R276). -/
def State.foldPair (s : State) (d c k : Nat) : State :=
  (s.step.entries.zipIdx.filter (fun x => x.1.st == .executed && s.inService d && x.1.e.loc.dev == d && x.1.e.loc.ch == c
    && x.1.e.loc.pair == k)).foldl (fun s x => s.foldEntry .bsu x.2) s

/-- The result of a sequence has been read: the pair is free, a postponed refresh is issued (R284, R287), and the entry's result
is folded. -/
def State.finishSeq (s : State) (q : SeqFl) : State := ((s.readResult q).retire).foldPair q.dev q.ch q.k

/-- The sequence reads BUSY at its bound (R279, R319): the overrun is logged and counted, TOUT and BSU_REVIEW are set, and the
pair stays held (log entry 65). -/
def State.overrun (s : State) (q : SeqFl) : State :=
  let s : State := { s with dev := { s.dev with seqs := s.dev.seqs.map (fun x =>
    if x.holds q.dev q.ch q.k then { x with overran := true } else x) } }
  let s := ((s.log_ 0x08 .bsu (ErrInfo.plain 0)).bump Reg.OVERRUN 1).setBit Reg.BSU_REVIEW q.dev true
  s.setBsu q.dev q.ch q.k { s.bsu q.dev q.ch q.k with tout := true }

/-- SEQ_BOUND_END (R279): at the bound of the sequence on a pair its result is read and folded; where an access to the pair had the
result read before, it is folded now (log entries 3, 14, 124). -/
def execSeqBoundEnd (d : BitVec 5) (c : BitVec 2) (k : BitVec 3) (busy : Bool) (s : State) : Result :=
  match s.seqOn d.toNat c.toNat k.toNat with
  | some q =>
    if q.overran || !q.ran then .next s
    else
      let s := s.advance q.bound
      .next (if busy then s.overrun q else s.finishSeq q)
  | none => .next (s.foldPair d.toNat c.toNat k.toNat)

/-- RESULT_REREAD (R279): the result of an overrun is read again every 40 ns (log entry 3). -/
def execResultReread (d : BitVec 5) (c : BitVec 2) (k : BitVec 3) (busy : Bool) (s : State) : Result :=
  match s.seqOn d.toNat c.toNat k.toNat with
  | some q =>
    if !q.overran then .next s
    else
      let s := s.advance (q.readAt s.clock.time)
      .next (if busy then s else s.finishSeq q)
  | none => .next s

/-! ### Trust ratios -/

/-- The group's sums over its scan entries, in list order (R122). -/
def StepState.scanTotals (t : StepState) (g : Nat) : DWord × DWord :=
  (t.entries.filter (fun e => e.e.group == g && e.e.pass == 1)).foldl (fun acc e => match e.result with
    | some r => (f64Add acc.1 (f64OfFp r.pw), f64Add acc.2 (f64OfFp r.px))
    | none => acc) (0, 0)

/-- The trust ratio of a group (R123, R124). -/
def GroupCfg.trustRatio (c : GroupCfg) (seed : List Byte) (w x : DWord) : Fp Word :=
  if c.rule = 6 then lambTrust seed c.flush c.trust w x else larsTrust seed c.flush c.trust c.wd w x

/-- Set a group's trust product from its sums (R115, R330). -/
def State.setTrust (s : State) (p : Plan) (k : GroupK) (w x : DWord) : State :=
  let c := s.groupCfg k.group
  let (t, f1) := (c.trustRatio p.seedTable w x).go
  let (e, f2) := (fpMul c.flush k.eta t).go
  let s := s.modGroup k.group (fun g => { g with trustv := t, flags := g.flags.or (f1.or f2) })
  let s := s.keepLog (fun l => { l with trust := l.trust ++ [(k.group, e)] })
  s.modStep (fun y => { y with groupK := y.groupK.map (fun z =>
    if z.group = k.group then { z with etaTrust := some e, sumW := w, sumX := x } else z) })

/-- TRUST_RATIO (R122 to R124): after the group's last scan entry. -/
def execTrustRatio (group : Half) (s : State) : Result :=
  let g := group.toNat
  let scans := s.step.entries.filter (fun e => e.e.group == g && e.e.pass == 1)
  let c := s.groupCfg g
  match s.plan.plan, s.step.groupK? g with
  | some p, some k =>
    if s.seq.commitRun && (c.rule == 6 || c.rule == 7) && k.etaTrust.isNone && !scans.isEmpty && scans.all EntrySt.ended then
      let (w, x) := s.step.scanTotals g
      .next (s.setTrust p k w x)
    else .next s
  | _, _ => .next s

end Sys2Proof.Machine
end

