-- ==== Sys2Proof/Machine/Layer.lean ====
section
/-! DEFINITION. Matrix rules and the layer engine (R140 to R158): defined products, orthogonalization, factors, roots, the
direction, and its way through the scratch area into the reduction sectors. -/

namespace Sys2Proof.Machine

/-! ### Defined products -/

/-- A matrix by rows. -/
abbrev Mat := List (List Word)

/-- bf16(x) (R143), as the FP32 value of the BF16 code. -/
def fpBf16 (flush : Bool) (x : Word) : Fp Word := do
  if fpIsNaN x then return fpNaN
  if fpIsInf x then return x
  let x ← fpOperand flush x
  if fpIsZero x then return x
  let (m, e) := fpSigExp x
  fpFinishP 8 flush (fpSign x) m (e - 23)

/-- One round of the tree: neighbours are added. -/
def pairSums (flush : Bool) : List Word → Fp (List Word)
  | a :: b :: t => do
    let s ← fpAdd flush a b
    let r ← pairSums flush t
    return s :: r
  | l => pure l

/-- `n` rounds of the tree. -/
def treeSum (flush : Bool) : Nat → List Word → Fp (List Word)
  | 0, l => pure l
  | n + 1, l => do
    let l ← pairSums flush l
    treeSum flush n l

/-- The products of one group of 32 positions, filled up with +0. -/
def chunkProducts (flush : Bool) (u v : List Word) : Fp (List Word) := do
  let ps ← (u.zip v).mapM (fun p => fpMul flush p.1 p.2)
  return ps ++ List.replicate (32 - ps.length) (fpZero false)

/-- dot(u, v) (R142). -/
def dot (flush : Bool) (u v : List Word) : Fp Word :=
  (List.range ((u.length + 31) / 32)).foldlM (fun acc c => do
    let ps ← chunkProducts flush ((u.drop (32 * c)).take 32) ((v.drop (32 * c)).take 32)
    let s ← treeSum flush 5 ps
    fpAdd flush acc (s.headD (fpZero false))) (fpZero false)

/-- The columns of a matrix with `q` columns. -/
def transposeMat (q : Nat) (m : Mat) : Mat := (List.range q).map (fun j => m.map (fun r => r.getD j 0))

/-- The matrix of dot(row of a, row of b). -/
def dotRows (flush : Bool) (a b : Mat) : Fp Mat := a.mapM (fun u => b.mapM (fun v => dot flush u v))

/-- Apply an operation to every entry. -/
def mapMat (f : Word → Fp Word) (a : Mat) : Fp Mat := a.mapM (fun r => r.mapM f)

/-- Apply an operation to the entries of two matrices. -/
def zipMat (f : Word → Word → Fp Word) (a b : Mat) : Fp Mat :=
  (a.zip b).mapM (fun r => (r.1.zip r.2).mapM (fun p => f p.1 p.2))

/-- `v` on the diagonal of a d × d matrix, +0 elsewhere. -/
def diagonal (d : Nat) (v : Word) : Mat :=
  (List.range d).map (fun i => (List.range d).map (fun j => if i = j then v else fpZero false))

/-- The rows of length `n` of a list of entries. -/
def rowsOf (m n : Nat) (l : List Word) : Mat := (List.range m).map (fun i => (l.drop (i * n)).take n)

/-! ### Orthogonalization -/

/-- The sum of the squares of a matrix, in FP64 (R144). -/
def squareSum (g : Mat) : DWord :=
  g.foldl (fun s r => f64Add s (r.foldl (fun a x => f64Add a (f64Mul (f64OfFp x) (f64OfFp x))) 0)) 0

/-- One iteration of R144 with its coefficients. -/
def orthoStep (flush : Bool) (q : Nat) (x : Mat) (a b c : Word) : Fp Mat := do
  let aa ← dotRows flush x x
  let aa ← mapMat (fpBf16 flush) aa
  let s ← dotRows flush aa (transposeMat aa.length aa)
  let bb ← zipMat (fun u v => do
    let p ← fpMul flush b u
    let r ← fpMul flush c v
    let t ← fpAdd flush p r
    fpBf16 flush t) aa s
  let y ← dotRows flush bb (transposeMat q x)
  zipMat (fun u v => do
    let p ← fpMul flush a u
    let t ← fpAdd flush p v
    fpBf16 flush t) x y

/-- What orthogonalize (R144) starts from: a p × q matrix whose square sum is positive and finite, divided by its norm. -/
def orthoStart (seed : List Byte) (flush : Bool) (g : Mat) : Fp Mat := do
  let (mm, k) ← splitF64 flush (squareSum g)
  let r ← fpRsqrt seed flush mm
  let r ← fpScale flush r (-k)
  mapMat (fun e => do
    let p ← fpMul flush e r
    fpBf16 flush p) g

/-- The coefficients that a layer uses (R146). -/
def Plan.coefs (p : Plan) (c : LayerCfg) : List (Word × Word × Word) :=
  let b := p.section 8
  (List.range c.niter).map (fun i =>
    let o := 192 * c.coef + 12 * i
    (wordOf b o, wordOf b (o + 4), wordOf b (o + 8)))

/-! ### Roots -/

/-- The sum of the diagonal, in order (R150). -/
def trace (flush : Bool) (m : Mat) : Fp Word :=
  m.zipIdx.foldlM (fun t r => fpAdd flush t (r.1.getD r.2 0)) (fpZero false)

/-- The product of the iteration. -/
def matMul (flush : Bool) (a b : Mat) : Fp Mat := dotRows flush a (transposeMat b.length b)

/-- `n` root iterations on (M, Xr) (R150). -/
def rootIterate (flush : Bool) (d : Nat) : Nat → Mat × Mat → Fp (Mat × Mat)
  | 0, s => pure s
  | n + 1, s => do
    let t ← zipMat (fun five m => do
      let x ← fpSub flush five m
      fpScale flush x (-2)) (diagonal d 0x40A00000) s.1
    let t2 ← matMul flush t t
    let t4 ← matMul flush t2 t2
    let m ← matMul flush t4 s.1
    let x ← matMul flush s.2 t
    rootIterate flush d n (m, x)

/-- inv_root4 (R150): the root if it passes the test, and the residual. -/
def invRoot4 (seed : List Byte) (flush : Bool) (nroot : Nat) (epsf rthr : Word) (d : Nat) (f : Mat) : Fp (Option Mat × Word) := do
  let t ← trace flush f
  if !fpIsFinite t || fpLe t (fpZero false) then return (none, fpNaN)
  let e ← fpMul flush epsf t
  let dr ← fpRecip seed flush (fpOfNat d)
  let lam ← fpMul flush e dr
  let f ← f.zipIdx.mapM (fun r => r.1.zipIdx.mapM (fun x => if x.2 = r.2 then fpAdd flush x.1 lam else pure x.1))
  let t ← trace flush f
  let ri ← fpRecip seed flush t
  let m ← mapMat (fun x => fpMul flush x ri) f
  let z ← fpRsqrt seed flush t
  let z ← fpSqrt seed flush z
  let (m, x) ← rootIterate flush d nroot (m, diagonal d z)
  let diffs ← zipMat (fun a b => fpSub flush a b) m (diagonal d fpOne)
  let res := (diffs.flatten.map fpAbs).foldl fpMax (fpZero false)
  return (if fpLe res rthr then some x else none, res)

/-! ### Factors -/

/-- A factor of R148 from the old factor and the rows (columns) of h. -/
def newFactor (flush : Bool) (betaf : Word) (old : Mat) (h : Mat) : Fp Mat := do
  let s ← dotRows flush h h
  zipMat (fun f x => do
    let p ← fpMul flush betaf f
    let o ← fpSub flush fpOne betaf
    let q ← fpMul flush o x
    fpAdd flush p q) old s

/-- The row unit at which an item of the factor area starts (R153): side, factor or root, copy. -/
def LayerCfg.itemUnit (c : LayerCfg) (right root copy : Bool) : Nat :=
  let d := if right then c.cols else c.rows
  c.frow + (if right && sideKept c.rows then 4 * matrixUnits c.rows else 0) + (if root then 2 * matrixUnits d else 0)
    + (if copy then matrixUnits d else 0)

/-- Read bytes for the layer engine. -/
def State.layerRead (s : State) (reg off len : Nat) : List Byte × Bool × State :=
  let e := s.regionWords reg
  let xs := (List.range ((len + 63) / 64)).map (fun i => e.lineAt (off + 64 * i))
  (s.chargeReads 11 xs).fetchBytes .layer e off len

/-- Write bytes for the layer engine, through to the device, so that the handoff of R155 keeps its order over a reset: whether every line
took its write. -/
def State.layerWrite (s : State) (reg off : Nat) (b : List Byte) : Bool × State :=
  let e := s.regionWords reg
  let xs := (List.range ((b.length + 63) / 64)).map (fun i => e.lineAt (off + 64 * i))
  (s.chargeWrites 11 xs).putBytes .layer .through e off b

/-- Read a d × d item of the factor area; none when a line gives no data. -/
def State.readItem (s : State) (c : LayerCfg) (right root copy : Bool) : Option Mat × State :=
  let d := if right then c.cols else c.rows
  let (b, ok, s) := s.layerRead c.freg (1920 * c.itemUnit right root copy) (4 * d * d)
  (if ok then some (rowsOf d d (wordsOf b)) else none, s)

/-- Write such an item. -/
def State.writeItem (s : State) (c : LayerCfg) (right root copy : Bool) (m : Mat) : Bool × State :=
  s.layerWrite c.freg (1920 * c.itemUnit right root copy) (bytesOfWords m.flatten)

/-! ### The gradient -/

/-- The sector of a row of the layer: its lines, G16W, and its non-padding length. -/
def State.layerSector (s : State) (p : Plan) (c : LayerCfg) (row : Nat) : Option (List LineLoc × Bool) :=
  (s.step.entries.find? (fun e => e.e.loc == p.shardRow c.shard row)).map (fun e =>
    let pl := s.poolPlace e.e.loc e.e.pool .bf16
    (sectorLocs pl.red pl.g16w pl.sect, pl.g16w))

/-- The state rows that the elements of a layer take (R140). -/
def LayerCfg.stateRows (c : LayerCfg) : Nat := (c.rows * c.cols + 159) / 160

/-- Read the values of one row's sector for the layer engine. -/
def State.readSector (s : State) (xs : List LineLoc) : List Byte × Bool × State :=
  let s := s.chargeReads 11 xs
  xs.foldl (fun (acc : List Byte × Bool × State) x =>
    let (v, s) := acc.2.2.fetchLine .layer x
    (acc.1 ++ (v.bytes?).getD [], acc.2.1 && !v.isBad, s)) ([], true, s)

/-- The gradient sums of a layer as FP32, element 0 first (R140); none when a line gives no data. -/
def State.readSums (s : State) (p : Plan) (c : LayerCfg) (flush : Bool) : Option (Fp (List Word)) × State :=
  let (vs, ok, s) := (List.range c.stateRows).foldl (fun (acc : List (Bool × Word) × Bool × State) r =>
    match acc.2.2.layerSector p c r with
    | none => (acc.1, false, acc.2.2)
    | some (xs, w) =>
      let (b, ok, s) := acc.2.2.readSector xs
      (acc.1 ++ (sectorValues w b).map (fun x => (w, x)), acc.2.1 && ok, s)) ([], true, s)
  (if ok then some ((vs.take (c.rows * c.cols)).mapM (fun x => sectorValue x.1 flush x.2)) else none, s)

/-! ### Layer work -/

/-- What layer work has formed: the direction as BF16 values in row-major order, as it stands in scratch, and what DSTATE = 1 will
show. -/
structure LayerOut where
  delta  : List Word
  rootL  : Bool
  rootR  : Bool
  rootfb : Bool
  zerog  : Bool

/-- Put the elements of a layer's matrix into its scratch area, as BF16 in row-major order (R155): whether every line took its write. -/
def State.putScratch (s : State) (c : LayerCfg) (d : List Word) : Bool × State :=
  s.layerWrite c.sreg (1920 * c.srow) (sectorBytes false d)

/-- Read them back; none when a line gives no data. -/
def State.getScratch (s : State) (c : LayerCfg) : Option (List Word) × State :=
  let (b, ok, s) := s.layerRead c.sreg (1920 * c.srow) (2 * c.rows * c.cols)
  (if ok then some (sectorValues false b) else none, s)

/-- Put elements into the scratch area and read them back, as the engine takes them from there (R145, R155): none when a line denies
the engine (R158; log entry 67). -/
def State.throughScratch (s : State) (c : LayerCfg) (d : List Word) : Option (List Word) × State :=
  match s.putScratch c d with
  | (true, s) => s.getScratch c
  | (false, s) => (none, s)

/-- The matrix G of R144 in the order of the layer's elements, and back. -/
def LayerCfg.tall (c : LayerCfg) : Bool := decide (c.cols < c.rows)
def LayerCfg.ofX (c : LayerCfg) (x : Mat) : List Word := (if c.tall then transposeMat (max c.rows c.cols) x else x).flatten
def LayerCfg.toX (c : LayerCfg) (d : List Word) : Mat :=
  let m := rowsOf c.rows c.cols d
  if c.tall then transposeMat c.cols m else m

/-- The iterations of R144: X streams between the scratch area and the engine (R145); the last X is the direction. -/
def State.streamX (s : State) (c : LayerCfg) (flush : Bool) : List (Word × Word × Word) → Mat → Option (List Word) × Flags × State
  | [], x =>
    let (d, s) := s.throughScratch c (c.ofX x)
    (d, Flags.clear, s)
  | k :: t, x =>
    match s.throughScratch c (c.ofX x) with
    | (none, s) => (none, Flags.clear, s)
    | (some d, s) =>
      let (y, f) := (orthoStep flush (max c.rows c.cols) (c.toX d) k.1 k.2.1 k.2.2).go
      let (o, g, s) := s.streamX c flush t y
      (o, f.or g, s)

/-- The work of MRULE 1 (R144, R145); none when the scratch area denies the engine a value. Where the square sum is not finite the
direction is an open value, which the gradient alone fixes (R8; log entry 67). -/
def State.workOrtho (s : State) (p : Plan) (c : LayerCfg) (flush : Bool) (g : Mat) : Option LayerOut × Flags × State :=
  let gg := if c.tall then transposeMat c.cols g else g
  let sq := squareSum gg
  let n := c.rows * c.cols
  let out (zero : Bool) (o : Option (List Word)) : Option LayerOut := o.map (fun d => ⟨d, false, false, false, zero⟩)
  if f64IsZero sq then
    let (d, s) := s.throughScratch c (List.replicate n (fpZero false))
    (out true d, Flags.clear, s)
  else if f64Special sq then
    let (d, s) := s.throughScratch c ((List.range n).map (fun i => Config.openDirection g.flatten i &&& 0xFFFF0000))
    (out false d, Flags.clear, s)
  else
    let (x, f) := (orthoStart p.seedTable flush gg).go
    let (d, h, s) := s.streamX c flush (p.coefs c) x
    (out false d, f.or h, s)

/-- One side of MRULE 2: the root in force after the step's factor update and refresh (R147 to R151). -/
structure SideOut where
  root : Option Mat
  flip : Bool
  fell : Bool
  s    : State

/-- Update the factor of a side and refresh its root when that is due; none when a copy cannot be read, or takes no write (log
entry 67). `h` holds the side's rows of bf16(g). -/
def State.workSide (s : State) (p : Plan) (ix : Nat) (y : Layer) (flush right refresh : Bool) (h : Mat) : Option SideOut × State :=
  let c := y.cfg
  let d := if right then c.cols else c.rows
  if !sideKept d then (some ⟨none, false, false, s⟩, s)
  else
    match s.readItem c right false y.fsel with
    | (none, s) => (none, s)
    | (some old, s) =>
      let (fnew, f) := (newFactor flush c.betaf old h).go
      let (wrote, s) := (s.orFlags c.group f).writeItem c right false (!y.fsel) fnew
      let rsel := if right then y.rselR else y.rselL
      let rok := if right then y.okR else y.okL
      let ((r, res), f) := if refresh then (invRoot4 p.seedTable flush c.nroot c.epsf c.rthr d fnew).go
        else ((none, 0), Flags.clear)
      let s := s.orFlags c.group f
      let s := if refresh then s.modLayer ix (fun l =>
        if right then { l with residR := res } else { l with residL := res }) else s
      match r with
      | some x =>
        let (ok, s) := s.writeItem c right true (!rsel) x
        (if wrote && ok then some ⟨some x, true, false, s⟩ else none, s)
      | none =>
        if !wrote then (none, s)
        else if rok then
          match s.readItem c right true rsel with
          | (none, s) => (none, s)
          | (some x, s) => (some ⟨some x, false, refresh, s⟩, s)
        else (some ⟨none, false, refresh, s⟩, s)

/-- The direction of MRULE 2 (R152). -/
def preDirection (flush : Bool) (n : Nat) (h : Mat) (rl rr : Option Mat) : Fp Mat := do
  let y ← match rl with
    | none => pure h
    | some r => do
      let ul ← mapMat (fpBf16 flush) r
      let y ← dotRows flush ul (transposeMat n h)
      mapMat (fpBf16 flush) y
  match rr with
  | none => pure y
  | some r => do
    let ur ← mapMat (fpBf16 flush) r
    let d ← dotRows flush y (transposeMat n ur)
    mapMat (fpBf16 flush) d

/-- The work of MRULE 2 (R147 to R152); none when the engine is denied a value (log entry 67). -/
def State.workPrecond (s : State) (p : Plan) (ix : Nat) (y : Layer) (flush : Bool) (g : Mat) : Option LayerOut × State :=
  let c := y.cfg
  let (h, f) := (mapMat (fpBf16 flush) g).go
  let s := s.orFlags c.group f
  let refresh := s.step.hdr.g % c.rootint == c.rootphase
  match s.workSide p ix y flush false refresh h with
  | (none, s) => (none, s)
  | (some l, s) =>
    match s.workSide p ix y flush true refresh (transposeMat c.cols h) with
    | (none, s) => (none, s)
    | (some r, s) =>
      let (d, f) := (preDirection flush c.cols h l.root r.root).go
      let (d, s) := (s.orFlags c.group f).throughScratch c d.flatten
      (d.map (fun d => ⟨d, l.flip, r.flip, l.fell || r.fell, g.all (fun x => x.all fpIsZero)⟩), s)

/-- Change layer `n` of the step. -/
def State.modLayerSt (s : State) (n : Nat) (f : LayerSt → LayerSt) : State :=
  s.modStep (fun t => { t with layers := modAt t.layers n f })

/-- The rows of the layer's shard end unchanged, the shard is lost, and the block will be held (R158; log entry 67). -/
def State.abandonLayer (s : State) (n : Nat) (c : LayerCfg) : State :=
  let s := (s.modLayerSt n (fun x => { x with st := .abandoned })).modStep (fun t => { t with entries := t.entries.map (fun e =>
    if e.e.shard = c.shard && !e.ended then { e with st := .unchanged } else e) })
  (s.loseShard .layer c.shard 0x02).afterEntries

/-- The engine's next layer: none while it holds one. -/
def State.nextLayer (s : State) : Option Nat :=
  if s.layerHeld then none else s.step.layers.findIdx? (·.st == .waiting)

/-- Work on a layer up to the direction in scratch (R154): factors, roots, δ. -/
def State.layerWork (s : State) (p : Plan) (n : Nat) (x : LayerSt) (y : Layer) : State :=
  let c := y.cfg
  let flush := (s.groupCfg c.group).flush
  match s.readSums p c flush with
  | (none, s) => s.abandonLayer n c
  | (some sums, s) =>
    let (g, f) := (do
      let v ← sums
      v.mapM (fun w => fpScale flush w (-s.step.hdr.lse)) : Fp (List Word)).go
    let s := s.orFlags c.group f
    let g := rowsOf c.rows c.cols g
    let (o, s) := if c.mrule = 1 then
        let (o, f, s) := s.workOrtho p c flush g
        (o, s.orFlags c.group f)
      else s.workPrecond p x.ix y flush g
    match o with
    | none => s.abandonLayer n c
    | some o =>
      s.modLayerSt n (fun z => { z with
        st := .formed, factors := c.mrule == 2, rootL := o.rootL, rootR := o.rootR, rootfb := o.rootfb, zerog := o.zerog })

/-- LAYER_WORK_START (R154): the engine takes the next touched layer of the list. -/
def execLayerWorkStart (s : State) : Result :=
  match s.plan.plan, s.nextLayer with
  | some p, some n =>
    match s.step.layers[n]? with
    | some x =>
      match p.layers[x.ix]? with
      | some y => if s.seq.commitRun && s.seq.sealV == 1 then .next (s.layerWork p n x y) else .next s
      | none => .next s
    | none => .next s
  | _, _ => .next s

/-- The layer whose direction stands in phase `ph`. -/
def State.layerAt (s : State) (ph : LayerPhase) : Option Nat := s.step.layers.findIdx? (·.st == ph)

/-- The one write that completes a direction (R155): DSTATE 1, DSTEP, the selectors, and the reports of the word
(log entry 67). -/
def Layer.complete (l : Layer) (x : LayerSt) (step : Nat) : Layer :=
  { l with dstate := 1, dstep := step % 2 ^ 32, fsel := l.fsel ^^ x.factors, rselL := l.rselL ^^ x.rootL,
           rselR := l.rselR ^^ x.rootR, okL := l.okL || x.rootL, okR := l.okR || x.rootR, rootfb := l.rootfb || x.rootfb,
           zerog := x.zerog }

/-- DIRECTION_COMPLETE (R155): DSTATE = 1; the copy into the sectors starts. -/
def execDirectionComplete (s : State) : Result :=
  match s.layerAt .formed with
  | some n =>
    match s.step.layers[n]? with
    | some x => .next ((s.modLayer x.ix (fun l => l.complete x s.step.hdr.s)).modLayerSt n (fun z => { z with st := .scratch }))
    | none => .next s
  | none => .next s

/-- Write the direction of one row into its sector, through to the device (R155): padding positions keep what they hold. The answer
tells whether every line took its write. -/
def State.putDirection (s : State) (p : Plan) (c : LayerCfg) (row : Nat) (delta : List Word) : Bool × State :=
  match s.layerSector p c row with
  | none => (true, s)
  | some (xs, w) =>
    let b := sectorBytes w ((delta.drop (160 * row)).take 160)
    let s := s.chargeWrites 11 xs
    (xs.zipIdx).foldl (fun (acc : Bool × State) x =>
      let d := (b.drop (64 * x.2)).take 64
      if d.isEmpty then acc
      else
        let (ok, s) := (acc.2.awaitPair x.1.loc).writeLine .layer .through x.1 (takePad 64 d) (2 ^ d.length - 1)
        (acc.1 && ok, s)) (true, s)

/-- Copy a layer's direction from scratch into its sectors: false when scratch cannot be read, or a sector takes no write (R158;
log entry 67). -/
def State.copyDirection (s : State) (p : Plan) (c : LayerCfg) : Bool × State :=
  match s.getScratch c with
  | (none, s) => (false, s)
  | (some d, s) => (List.range c.stateRows).foldl (fun (acc : Bool × State) r =>
      let (ok, s) := acc.2.putDirection p c r (d.take (c.rows * c.cols))
      (acc.1 && ok, s)) (true, s)

/-- DIRECTION_COPY_DONE (R155, R158): DSTATE = 2; the apply-direction rows may start. -/
def execDirectionCopyDone (s : State) : Result :=
  match s.plan.plan, s.layerAt .scratch with
  | some p, some n =>
    match s.step.layers[n]?.bind (fun x => (p.layers[x.ix]?).map (fun y => (x, y))) with
    | some (x, y) =>
      match s.copyDirection p y.cfg with
      | (true, s) =>
        let s := s.modLayer x.ix (fun l => { l with dstate := 2 })
        .next ((s.modLayerSt n (fun z => { z with st := .sectors })).maybeEmission)
      | (false, s) => .next (s.abandonLayer n y.cfg)
    | none => .next s
  | _, _ => .next s

end Sys2Proof.Machine
end

