-- ==== Sys2Proof/Machine/Tier.lean ====
section
/-! DEFINITION. The far tier (R295 to R308): the far image, moves in and out, copies, the journal, and failures. -/

namespace Sys2Proof.Machine

/-! ### The far image -/

/-- The tag of line `k` of far slot `n` (R298). -/
def farTag (n k : Nat) : Word := BitVec.ofNat 32 (n % 2 ^ 21 * 2 ^ 11 + k % 32 * 2 ^ 6 + 31 * 2)

/-- What a far slot's bytes give (R298, R306): the valid lines with their data and whether each was corrected, and the
metadata; or the halt cause. -/
structure FarRow where
  info  : Meta
  lines : List (Nat × List Byte)
  fixed : Nat
  deriving DecidableEq, Repr

/-- Line `k` of a far slot. -/
def farLine (n : Nat) (b : List Byte) (k : Nat) : Decoded :=
  rsDecode (farTag n k) ((b.drop (64 * k)).take 64) (BitVec.ofNat 32 (leAt b (0x780 + 4 * k) 4))

/-- Decode a far slot of 2,048 bytes: halt cause 0 for an uncorrectable line or metadata word, 1 for an address fault. -/
def farDecode (n : Nat) (b : List Byte) : FarRow ⊕ Nat :=
  match metaDecode (BitVec.ofNat 64 (leAt b 0x7F8 8)) with
  | none => .inr 0
  | some (w, _) =>
    let m := Meta.ofWord w
    let ds := (onBits 30 m.valid).map (fun k => (k, farLine n b k))
    match ds.find? (fun d => d.2.status == .uncorrectable || d.2.status == .addrFault) with
    | some d => .inr (if d.2.status = .addrFault then 1 else 0)
    | none => .inl ⟨m, ds.map (fun d => (d.1, d.2.data)), (ds.filter (fun d => d.2.status == .corrected)).length⟩

/-- `n` open bytes. -/
def State.freeBytes : Nat → State → List Byte × State
  | 0, s => ([], s)
  | n + 1, s =>
    let (v, s) := s.free
    let (bs, s) := s.freeBytes n
    (v.extractLsb' 0 8 :: bs, s)

/-- The bytes of a far image: the valid lines under their far tags, open bytes where the row holds nothing, metadata with KIND 0,
FAR clear and PHASE 0 (R298; log entry 93). -/
def State.farImage (s : State) (n : Nat) (m : Meta) (lines : List (Nat × List Byte)) : List Byte × State :=
  let (ds, s) := (List.range 30).foldl (fun (acc : List (List Byte × List Byte) × State) k =>
    match sparseFind lines k with
    | some d => (acc.1 ++ [(d, leBytes 4 (rsCheck (farTag n k) d).toNat)], acc.2)
    | none =>
      let (d, s) := State.freeBytes 64 acc.2
      let (c, s) := State.freeBytes 4 s
      (acc.1 ++ [(d, c)], s)) ([], s)
  let w : Meta := { Meta.fresh 0 with valid := m.valid, epoch := m.epoch }
  (ds.flatMap (·.1) ++ ds.flatMap (·.2) ++ leBytes 8 w.toWord.toNat, s)

/-! ### The tier port -/

/-- Change the tier mover. -/
def State.modTier (s : State) (f : TierState → TierState) : State := { s with tier := f s.tier }

/-- MemRd requests for the first `n` pieces of a slot (R295). -/
def State.readSlotFar (s : State) (slot n : Nat) : State :=
  (List.range n).foldl (fun s k => s.emit (.tierRead slot k)) s

/-- MemWr requests for a slot of 2,048 bytes, the piece with the metadata last (R301). -/
def State.writeSlotFar (s : State) (slot : Nat) (b : List Byte) : State :=
  (List.range 32).foldl (fun s k => s.emit (.tierWrite slot k (lineOfBytes ((b.drop (64 * k)).take 64)))) s

/-- The first `n` pieces of a slot, if all have returned (log entry 15). -/
def State.slotPieces (s : State) (slot n : Nat) : Option (List Byte) :=
  let ps := (List.range n).filterMap (fun k => (s.tier.pieces.find? (fun x => x.slot == slot && x.piece == k)).map (·.data))
  if ps.length = n then some (ps.flatMap bytesOfLine) else none

/-- Far data of a slot has been used. -/
def State.dropPieces (s : State) (slot : Nat) : State :=
  s.modTier (fun t => { t with pieces := t.pieces.filter (fun x => x.slot != slot) })

/-- The tier channel halts (R306): THALT, its cause and slot, class 0x0A; queued entries end as failed. -/
def State.haltTier (s : State) (cause slot : Nat) : State :=
  let s := ((s.setFlag Reg.THALT true).set Reg.THALT_CAUSE cause).set Reg.THALT_SLOT slot
  ((s.log_ 0x0A .tier (ErrInfo.plain slot)).modTier (fun t => { t with pieces := [] })).failMoves

/-- A late entry whose row still waits for its IN (R304). -/
def State.lateWaits (s : State) (n : Nat) : Bool :=
  (s.step.entries[n]?).any (fun e => e.late && e.st == .waiting && s.awaitsIn e.e.loc)

/-- The wait for a move at its commit slot ends when its entry waits no more (R76, R304). -/
def State.settleLate (s : State) : State := s.dropWaits (fun x => x.watch == .tierMove && !s.lateWaits x.key)

/-- The tier channel can work: enabled and not halted (R296, R306; log entry 93). -/
def State.tierOpen (s : State) : Bool := s.flag Reg.TEN && !s.flag Reg.THALT

/-! ### Residency entries -/

/-- The rows of an IN, with their far slots (R299). -/
def Move.rows (m : Move) : List (RowLoc × Nat) :=
  (List.range m.nrows).map (fun i => (m.loc.at m.loc.bank (m.loc.row + i), m.fslot + i))

/-- The entry's far slots lie in the window and its row count is legal (R296, R299). -/
def State.moveShape (s : State) (m : Move) : Bool :=
  decide (1 ≤ m.nrows) && decide (m.nrows ≤ 4096) && decide (m.fslot + m.nrows ≤ s.get Reg.TIER_SLOTS)

/-- An IN that R299 and R300 allow: near rows in state regions that grant PERM_TIER writes, none of them moved in already, and none in
the unit table (R112; log entry 94). -/
def State.inAllowed (s : State) (m : Move) : Bool :=
  s.moveShape m && m.funit == 0 && m.rows.all (fun x => s.isStateRow x.1
    && (match s.regionOf x.1 with
      | some n => (s.regionWords n).grants .tier true && !s.initPending n && !s.zeroizing n
          && s.plan.plan.all (fun p => p.hdr.unitReg != n)
      | none => false)
    && s.tier.moved.all (fun r => r.loc != x.1))

/-- A COPY that R299 and R302 allow. -/
def State.copyAllowed (s : State) (m : Move) : Bool :=
  let e := s.regionWords m.region
  let ok := match e.cls with
    | .weight | .frozen | .factor | .activation => true
    | .state | .reduction | .plan | .spare => false
  s.moveShape m && ok && s.checkRegion .tier (m.op == 2) m.region (1920 * m.funit) (1920 * m.nrows) == .ok

/-- The entry whose turn it is leaves the queue. -/
def State.popMove (s : State) : State := (s.modTier (fun t => { t with queue := t.queue.drop 1 })).settleLate

/-- A bad entry is skipped, counted and logged, under a class that the manual does not give (R303; log entry 17). -/
def State.skipMove (s : State) (m : Move) : State :=
  let (c, s) := s.free
  ((s.bump Reg.TBADENT 1).log_ (openClass c) .tier (ErrInfo.plain m.fslot)).popMove

/-- Replace the entry whose turn it is. -/
def State.modMove (s : State) (f : Move → Move) : State := s.modTier (fun t => { t with queue := modAt t.queue 0 f })

/-! ### The journal -/

/-- The bytes of a journal entry (R307): the IN's first 12 B with OP replaced; the last 4 B are zero (log entry 94). -/
def JournalEntry.bytes (j : JournalEntry) : List Byte :=
  leBytes 4 j.w0.toNat ++ leBytes 4 (j.opn.toNat * 2 ^ 30 + j.w1.toNat % 2 ^ 30) ++ leBytes 4 j.fslot ++ leBytes 4 0

/-- The journal entry that a residency entry makes, open. -/
def Move.journal (m : Move) : JournalEntry := ⟨m.loc, m.nrows, m.fslot, true, m.w0, m.w1⟩

/-- A row of the entry's IN: no other IN of the step may name it (R300). -/
def JournalEntry.covers (j : JournalEntry) (l : RowLoc) : Bool :=
  decide (l = j.loc.at j.loc.bank l.row) && decide (j.loc.row ≤ l.row) && decide (l.row < j.loc.row + j.nrows)

/-- Write journal entry `i` into JREG at JUNIT (R297, R307). -/
def State.putJournal (s : State) (i : Nat) : State :=
  match s.plan.plan, s.tier.journal[i]? with
  | some p, some j => (s.charge 13 0 3 1).storeBytes .tier (s.regionWords p.jreg) (1920 * p.junit + 16 * i) j.bytes
  | _, _ => s

/-- Open a journal entry in the first place that is not open: the place and the state after (log entry 94). -/
def State.openJournal (s : State) (j : JournalEntry) : Nat × State :=
  let i := (s.tier.journal.findIdx? (fun x => !x.opn)).getD s.tier.journal.length
  let js := if i < s.tier.journal.length then modAt s.tier.journal i (fun _ => j) else s.tier.journal ++ [j]
  (i, (s.modTier (fun t => { t with journal := js })).putJournal i)

/-- Close a journal entry once every row of its IN has been moved out (R307). -/
def State.settleJournal (s : State) (i : Nat) : State :=
  match s.tier.journal[i]? with
  | some j =>
    let mine := s.tier.moved.filter (fun r => r.jix == i && j.covers r.loc)
    if j.opn && mine.length == j.nrows && mine.all (·.st == .out) then
      (s.modTier (fun t => { t with journal := modAt t.journal i (fun x => { x with opn := false }) })).putJournal i
    else s
  | none => s

/-! ### Moves in -/

/-- Start an IN: its journal entry is written, and its first row is asked for (R300, R307). -/
def State.startIn (s : State) (m : Move) : State :=
  let (i, s) := s.openJournal m.journal
  (s.modMove (fun x => { x with begun := true, jix := i })).readSlotFar m.fslot 32

/-- Rows that the mover writes out at the moment. -/
def State.rowsWriting (s : State) : Nat := (s.tier.moved.filter (fun r => r.st == .writing)).length

/-- The mover may begin another entry: it keeps at most 512 rows in flight (R296). -/
def State.moverRoom (s : State) : Bool := decide (s.rowsWriting < 512)

/-- The mover may begin another move-out beside the row that its queue's head moves (R296). -/
def State.outRoom (s : State) : Bool := decide (s.rowsWriting + (s.tier.queue.head?.any (·.begun)).toNat < 512)

/-- MOVE_IN_START (R300, R303, R307): the turn of an IN comes, or of an entry that R299 does not allow. -/
def execMoveInStart (s : State) : Result :=
  match s.tier.queue.head? with
  | some m =>
    if !s.tierOpen || m.begun || m.op == 2 || m.op == 3 then .next s
    else if m.op != 1 || !s.inAllowed m then .next (s.skipMove m)
    else if !s.moverRoom || (s.tier.journal.length == 4096 && s.tier.journal.all (·.opn)) then .next s
    else .next (s.startIn m)
  | none => .next s

/-- The epoch-image entry of a row moved in (R330); an entry that the log holds already stands (log entry 88). -/
def State.imageMoved (s : State) (l : RowLoc) (epoch : Nat) : State :=
  let s := s.modStep (fun t => { t with entries := t.entries.map (fun e =>
    if e.e.loc = l then { e with epoch0 := some epoch } else e) })
  s.keepLog (fun g => { g with epochs := (s.step.entries.zip g.epochs).map (fun x =>
    if x.1.e.loc = l && x.2.isNone then some (epoch, x.1.mask) else x.2) })

/-- Write a far row to its near row (R300): lines re-coded under the near tags, VALID, EPOCH and PHASE of the far image, FAR
clear. -/
def State.putNear (s : State) (l : RowLoc) (f : FarRow) : State :=
  let s := (s.awaitPair l).chargeWrites 13 (f.lines.map (fun x => ⟨l, x.1⟩))
  let near := { s.metaOr l with remap := s.rowRemapped l }
  let s := f.lines.foldl (fun s x => s.storeLine .buffered ⟨l, x.1⟩ x.2) s
  s.putMeta .buffered l { near with valid := f.info.valid, epoch := f.info.epoch, phase := f.info.phase, far := false,
                                    zeroed := false }

/-- A row has been moved in (log entry 88). -/
def State.movedIn (s : State) (m : Move) (l : RowLoc) (slot : Nat) (f : FarRow) : State :=
  let s := if f.fixed = 0 then s else (s.bump Reg.CE_TOTAL f.fixed).setFlag Reg.CE_ANY true
  let s := ((s.putNear l f).dropPieces slot).bump Reg.TMOVES 1
  let s := s.modTier (fun t => { t with moved := t.moved ++ [⟨l, slot, m.jix, false, .near, 0⟩] })
  let s := (s.imageMoved l f.info.epoch).modMove (fun x => { x with done := x.done + 1 })
  let s := if m.done + 1 = m.nrows then s.popMove else (s.settleLate).readSlotFar (slot + 1) 32
  s.settleMoved

/-- MOVE_IN_ROW (R300, R304, R306): the next row of the IN, once its slot's data has returned. -/
def execMoveInRow (s : State) : Result :=
  match s.tier.queue.head? with
  | some m =>
    let slot := m.fslot + m.done
    match s.slotPieces slot 32 with
    | some b =>
      if !s.tierOpen || m.op != 1 || !m.begun then .next s
      else
        match farDecode slot b with
        | .inl f => .next (s.movedIn m (m.loc.at m.loc.bank (m.loc.row + m.done)) slot f)
        | .inr c => .next (s.haltTier c slot)
    | none => .next s
  | none => .next s

/-- A far slot that the mover waits for. -/
def State.slotAwaited (s : State) (slot piece : Nat) : Bool :=
  match s.tier.queue.head? with
  | some m => m.begun && slot == m.fslot + m.done && (m.op == 1 || (m.op == 2 && decide (piece < 30)))
      && s.tier.pieces.all (fun x => x.slot != slot || x.piece != piece)
  | none => false

/-- Change the export or import request. -/
def State.modX (s : State) (f : XReq → XReq) : State := { s with req := { s.req with x := s.req.x.map f } }

/-- A far piece that an export or import has asked for and that has not returned. -/
def State.xAwaits (s : State) (slot piece : Nat) : Bool :=
  match s.req.x with
  | some x => (x.phase == 1 || x.phase == 3) && decide (32 * x.slot0 ≤ 32 * slot + piece)
      && decide (32 * slot + piece < 32 * x.slot0 + x.pieces)
      && s.tier.pieces.all (fun y => y.slot != slot || y.piece != piece)
  | none => false

/-- A far write of an export or import has not completed. -/
def State.xWrites (s : State) (slot : Nat) : Bool :=
  match s.req.x with
  | some x => x.phase == 2 && x.left != 0 && decide (x.slot0 ≤ slot) && decide (32 * slot < 32 * x.slot0 + x.pieces)
  | none => false

/-- TIER_READ_COMPLETION (R295, R306): far data returns; for a move an error completion or poison halts the channel, for an export
or import it is a failed far read (R318; log entry 15). -/
def execTierReadCompletion (slot : Word) (line : BitVec 5) (data : Line) (poison error : Bool) (s : State) : Result :=
  if s.xAwaits slot.toNat line.toNat then
    if error then .next (s.modX (fun x => { x with failed := true }))
    else .next (s.modTier (fun t => { t with pieces := t.pieces ++ [⟨slot.toNat, line.toNat, data, poison⟩] }))
  else if !s.slotAwaited slot.toNat line.toNat || !s.tierOpen then .next s
  else if error then .next (s.haltTier 3 slot.toNat)
  else if poison then .next (s.haltTier 2 slot.toNat)
  else .next (s.modTier (fun t => { t with pieces := t.pieces ++ [⟨slot.toNat, line.toNat, data, false⟩] }))

/-! ### Moves out -/

/-- Change the moved-in row at `l`. -/
def State.modMoved (s : State) (l : RowLoc) (f : MovedRow → MovedRow) : State :=
  s.modTier (fun t => { t with moved := t.moved.map (fun r => if r.loc = l then f r else r) })

/-- Set FAR in the near row; the row is out, and its journal entry may close (R301, R307). -/
def State.rowOut (s : State) (r : MovedRow) : State :=
  let s := (s.awaitPair r.loc).charge 13 1 1 1
  let s := s.putMeta .buffered r.loc { s.metaOr r.loc with far := true }
  (s.modMoved r.loc (fun x => { x with st := .out })).settleJournal r.jix

/-- The shard whose far range holds a slot (R297). -/
def Plan.farShardOf (p : Plan) (slot : Nat) : Option Nat :=
  (p.far.find? (fun f => decide (f.slot0 ≤ slot)
    && decide (slot < f.slot0 + (((p.shardCfg? f.shard).map (·.nrows)).getD 0)))).map (·.shard)

/-- A move-out failed (R306): its shard is lost (log entry 94). -/
def State.outFailed (s : State) (r : MovedRow) : State :=
  let s := s.modMoved r.loc (fun x => { x with st := .failed })
  match s.plan.plan.bind (fun p => p.farShardOf r.fslot) with
  | some h => s.loseShard .tier h 0x04
  | none => s.holdFor 0x04

/-- Write a committed row to its far slot; a near line that cannot be read halts the channel (R301, R306, R320; log entry 93). -/
def State.writeOut (s : State) (r : MovedRow) : State :=
  let s := s.awaitPair r.loc
  let xs := (onBits 30 (s.validBits r.loc)).map (fun k => (⟨r.loc, k⟩ : LineLoc))
  let s := s.chargeReads 13 xs
  let (vs, s) := xs.foldl (fun (acc : List LineVal × State) x =>
    let (v, s) := acc.2.readLine .tier x
    (acc.1 ++ [v], s)) ([], s)
  if vs.any LineVal.isBad || (s.rowMeta r.loc).isNone then (s.outFailed r).haltTier 0 r.fslot
  else
    let lines := (xs.zip vs).map (fun x => (x.1.line, (x.2.bytes?).getD []))
    let (b, s) := s.farImage r.fslot (s.metaOr r.loc) lines
    (s.writeSlotFar r.fslot b).modMoved r.loc (fun x => { x with st := .writing, left := 32 })

/-- MOVE_OUT (R301): the next due row starts out, or waits while 512 rows are in flight (R296; log entry 2). -/
def execMoveOut (s : State) : Result :=
  match s.tier.dueQ.head? with
  | some l =>
    let s' := s.modTier (fun t => { t with dueQ := t.dueQ.drop 1 })
    match s.tier.moved.find? (fun r => r.loc == l && r.st == .due) with
    | some r =>
      if !r.committed then .next (s'.rowOut r)
      else if s.flag Reg.THALT then .next (s'.outFailed r)
      else if s.outRoom then .next (s'.writeOut r)
      else .next s
    | none => .next s'
  | none => .next s

/-- TIER_WRITE_COMPLETION (R295, R306): a far write is done, or failed. -/
def execTierWriteCompletion (slot : Word) (error : Bool) (s : State) : Result :=
  match s.tier.moved.find? (fun r => r.fslot == slot.toNat && r.st == .writing && r.left != 0), s.tier.queue.head? with
  | some r, _ =>
    if error then .next ((s.outFailed r).haltTier 3 slot.toNat)
    else .next (s.modMoved r.loc (fun x => { x with left := x.left - 1 }))
  | none, some m =>
    if m.op == 3 && m.begun && slot.toNat == m.fslot + m.done && m.left != 0 then
      (if error then .next (s.haltTier 3 slot.toNat) else .next (s.modMove (fun x => { x with left := x.left - 1 })))
    else .next s
  | none, none =>
    if s.xWrites slot.toNat then
      .next (s.modX (fun x => { x with left := x.left - 1, failed := x.failed || error }))
    else .next s

/-- MOVE_OUT_DONE (R301, R307): every far write of a row has completed; FAR is set. -/
def execMoveOutDone (s : State) : Result :=
  match s.tier.moved.find? (fun r => r.st == .writing && r.left == 0) with
  | some r => .next ((s.bump Reg.TOUTS 1).rowOut r)
  | none => .next s

/-! ### Copies -/

/-- A row unit of a COPY has been moved. -/
def State.copyNext (s : State) (m : Move) : State :=
  if m.done + 1 = m.nrows then s.popMove
  else s.modMove (fun x => { x with done := x.done + 1, begun := false, left := 0 })

/-- Start the current row unit of a COPY (R302): ask for the far slot, or write it out with bytes 1,920 to 2,047 zero
(log entry 93). -/
def State.startCopy (s : State) (m : Move) : State :=
  let slot := m.fslot + m.done
  if m.op = 2 then (s.readSlotFar slot 30).modMove (fun x => { x with begun := true })
  else
    let e := s.regionWords m.region
    let off := 1920 * (m.funit + m.done)
    let s := s.chargeReads 13 ((List.range 30).map (fun i => e.lineAt (off + 64 * i)))
    let (b, ok, s) := s.fetchBytes .tier e off 1920
    if ok then (s.writeSlotFar slot (takePad 2048 b)).modMove (fun x => { x with begun := true, left := 32 })
    else s.haltTier 0 slot

/-- COPY_MOVE (R302, R303): a COPY's row unit is started, or ended once its far data or completions have come. -/
def execCopyMove (s : State) : Result :=
  match s.tier.queue.head? with
  | some m =>
    if !s.tierOpen || !(m.op == 2 || m.op == 3) then .next s
    else if !m.begun then
      (if m.done == 0 && !s.copyAllowed m then .next (s.skipMove m)
       else if s.moverRoom then .next (s.startCopy m)
       else .next s)
    else if m.op == 3 then (if m.left == 0 then .next (s.copyNext m) else .next s)
    else
      match s.slotPieces (m.fslot + m.done) 30 with
      | some b =>
        let e := s.regionWords m.region
        let off := 1920 * (m.funit + m.done)
        let s := s.chargeWrites 13 ((List.range 30).map (fun i => e.lineAt (off + 64 * i)))
        .next (((s.storeBytes .tier e off b).dropPieces (m.fslot + m.done)).copyNext m)
      | none => .next s
  | none => .next s

end Sys2Proof.Machine
end

