-- ==== Sys2Proof/Machine/Yarrow.lean ====
section
/-! DEFINITION. The Yarrow pass (R332 to R335): reading the step log at a load, resolving an interrupted step, the move journal
at bring-up (R307), and sending the resolved step's emission again. -/

namespace Sys2Proof.Machine

/-! ### Ending -/

/-- Yarrow ends with a code (R335): YSTATE 3 or 4, class 0x10, and after a failure the hold. -/
def State.yarrowEnd (s : State) (code : Nat) : State :=
  let s := ((s.set Reg.YSTATE (if code = 0 then 3 else 4)).set Reg.YCODE code).log_ 0x10 .yarrow (ErrInfo.plain 0)
  if code = 0 then s else s.holdFor 0x07

/-- The lists of the interrupted step, under the header of its log (R171, R332, R333): MASKs and EPOCHs of the epoch image. -/
def State.logLists (s : State) (p : Plan) (g : StepLog) : State :=
  let t := p.startLists ⟨g.v, g.lse, g.seed, g.s, g.g⟩ []
  { s with step := { t with entries := (t.entries.zip (g.epochs ++ List.replicate t.entries.length none)).map (fun x =>
      match x.2 with
      | some (e, m) => { x.1 with epoch0 := some e, mask := m }
      | none => x.1) } }

/-- The step of the log is over: its lists go; a held GO or CNT_GO stays held. -/
def State.endLists (s : State) : State :=
  { s with
    step := { StepState.empty with goHeld := s.step.goHeld, cntHeld := s.step.cntHeld, posts := s.step.posts, hdr := s.step.hdr }
    seq := Seq.idle }

/-- The emission to be sent again, when YEMIT asks for it (R334), with the REASON bits that YREASON gives a skip (R341), and the XEXPs in
force in the step (R105). -/
def State.askReemit (s : State) (commit : Bool) (xexps : List Int) : State :=
  if s.flag Reg.YEMIT then
    { s with yarrow := { s.yarrow with reemit := some ⟨commit, if commit then 0 else s.get Reg.YREASON, xexps⟩ } }
  else s

/-- LOGSTATE 1, and YVERD 3 (R332): the reduction rows are released and the step ends as refused. -/
def State.yarrowAbandon (s : State) (p : Plan) (g : StepLog) : State :=
  let s := ((s.logLists p g).releaseAll.endLists.set Reg.OUTCOME 3).keepLog (fun l => { l with logState := 0 })
  s.yarrowEnd 0

/-- LOGSTATE 4, and YVERD 2 (R332): the release is completed and S advances. -/
def State.yarrowSkip (s : State) (p : Plan) (g : StepLog) : State :=
  let s := (s.logLists p g).releaseAll.endLists.advance64 Reg.STEP_LO Reg.STEP_HI
  ((s.set Reg.OUTCOME 2).closeLog.askReemit false []).yarrowEnd 0

/-! ### The journal at bring-up -/

/-- The entries of the journal as JREG holds them (R307); those on a line that cannot be read are lost (log entry 94). -/
def State.readJournal (s : State) (p : Plan) : List JournalEntry × State :=
  let e := s.regionWords p.jreg
  let lines := ((List.range 1024).map (fun i => e.lineAt (1920 * p.junit + 64 * i))).eraseDups
  let (b, _, s') := (s.chargeReads 11 lines).fetchBytes .yarrow e (1920 * p.junit) (16 * 4096)
  ((List.range 4096).map (fun i =>
    let m := parseMove b (16 * i)
    let ok := !(s.lineVal (e.lineAt (1920 * p.junit + 16 * i))).isBad
    { m.journal with opn := ok && m.op == 1 }), s')

/-- The rows of a journal entry with their far slots. -/
def JournalEntry.rows (j : JournalEntry) : List (RowLoc × Nat) :=
  (List.range j.nrows).map (fun i => (j.loc.at j.loc.bank (j.loc.row + i), j.fslot + i))

/-- The row's FAR bit reads set. -/
def State.isFar (s : State) (l : RowLoc) : Bool := (s.rowMeta l).any (·.far)

/-- Every row of every open journal entry whose FAR is clear is to be written out, before Run (R307). -/
def State.recoverJournal (s : State) (p : Plan) : State :=
  if p.far.isEmpty then s
  else
    let (js, s) := s.readJournal p
    let rows := ((js.filter (·.opn)).flatMap JournalEntry.rows).eraseDups.filter (fun x => !s.isFar x.1)
    s.modTier (fun t => { t with
      journal := js
      moved := rows.map (fun x => ⟨x.1, x.2, 4096, true, .due, 0⟩)
      dueQ := rows.map (·.1) })

/-- The open entries whose rows are all FAR close (R307). -/
def State.closeJournal (s : State) : State :=
  (List.range s.tier.journal.length).foldl (fun s i =>
    match s.tier.journal[i]? with
    | some j =>
      if j.opn && j.rows.all (fun x => s.isFar x.1) then
        (s.modTier (fun t => { t with journal := modAt t.journal i (fun x => { x with opn := false }) })).putJournal i
      else s
    | none => s) s

/-! ### Reading the header -/

/-- What a binding header makes the block do (R332), by LOGSTATE. -/
def State.actOnLog (s : State) (p : Plan) (g : StepLog) : State :=
  match g.logState with
  | 0 => (s.set Reg.YSTATE 0).recoverJournal p
  | 1 => (s.yarrowAbandon p g).recoverJournal p
  | 2 => (s.set Reg.YSTATE 2).holdFor 0x06
  | 3 => s.set Reg.YSTATE 1
  | _ => (s.yarrowSkip p g).recoverJournal p

/-- The block reads the step-log header at the first successful LOAD (R332): a binding header sets S and G; one that cannot be read ends
Yarrow with code 0x01 (R335), its lines reported. YLSTATE shows the LOGSTATE found (R341). -/
def State.readLog (s : State) (p : Plan) : State :=
  match s.findLog p with
  | .absent => (s.set Reg.YSTATE 0).recoverJournal p
  | .lost => (s.fetchBytes .yarrow (s.regionWords (s.get Reg.YLOG_REG)) (1920 * s.get Reg.YLOG_UNIT) 192).2.2.yarrowEnd 0x01
  | .found g =>
    let s := State.set { s with log := some g } Reg.YLSTATE g.logState
    if g.planId != p.hdr.planId then s.yarrowEnd 0x02
    else ((s.set64 Reg.STEP_LO Reg.STEP_HI g.s).set64 Reg.GSTEP_LO Reg.GSTEP_HI g.g).actOnLog p g

/-! ### Resolving a commit -/

/-- Step 1 (R333): the units of the log get their old records back and are advanced again. -/
def State.yarrowUnits (s : State) (p : Plan) (us : List LogUnit) : State :=
  us.foldl (fun s u =>
    let s := s.writeUnit .yarrow p u.id ⟨u.count, u.pow1, u.pow2⟩
    let g := ((s.step.entries.find? (fun e => e.units.contains u.id)).map (·.e.group)).getD 0
    (s.openUnit p g u.id).2) { s with log := s.log.map (fun l => { l with units := [] }) }

/-- Step 2 (R333): group constants, clip factors, and the trust products of the log. -/
def State.yarrowConsts (s : State) (p : Plan) (g : StepLog) : State :=
  let s := s.step.groups.foldl (fun s k => s.evalGroup p k) s
  let s := s.clipConstants g.normsq
  s.modStep (fun t => { t with groupK := t.groupK.map (fun k =>
    { k with etaTrust := (g.trust.find? (fun x => x.1 == k.group)).map (·.2) }) })

/-- The operand lines of an entry as Yarrow forms them, opening its units. -/
def State.yarrowLines (s : State) (p : Plan) (e : EntrySt) : Option (PassConst × PassRow) × State :=
  match State.openUnits p e.e.group e.units s with
  | (some _, s) => (none, s)
  | (none, s) =>
    match s.step.groupK? e.e.group with
    | none => (none, s)
    | some k =>
      let (bc, s) := s.blockBc e.e
      (some (s.passConst p e.e k, s.passRow p e bc), s)

/-- Report what a pass of Yarrow met, and charge its reads. -/
def State.yarrowNote (s : State) (o : PassOut) : State :=
  o.reads.foldl (fun s x => s.noteLine .yarrow x.1 x.2) (s.chargeReads 11 (o.reads.map (·.1)))

/-- The row unit of the sector of an entry. -/
def State.entryPlace (s : State) (p : Plan) (e : CommitEntry) : PoolPlace := s.poolPlace e.loc e.pool (p.shardFmt e.shard)

/-- A row is left as found and its shard lost (R333; log entry 92). -/
def State.yarrowLose (s : State) (n : Nat) (h : Nat) : State :=
  (s.modEntry n (fun e => { e with st := .unchanged })).loseShard .yarrow h 0x07

/-- Step 3 (R333): rerun one scan entry. -/
def State.yarrowScan (s : State) (p : Plan) (n : Nat) (e : EntrySt) : State :=
  match s.yarrowLines p e with
  | (none, s) => s.yarrowLose n e.e.shard
  | (some (c, r), s) =>
    let o := s.computePass p.seedTable e.e.loc (s.entryPlace p e.e).red.row c r
    let s := (s.yarrowNote o).orFlags e.e.group o.flags
    if o.clean then s.modEntry n (fun x => { x with st := .atRest, result := some (s.resultOf e.e.loc o) })
    else s.yarrowLose n e.e.shard

/-- Step 3: the scans and the ratio of a group that has no trust entry. -/
def State.yarrowTrust (s : State) (p : Plan) (k : GroupK) : State :=
  let c := s.groupCfg k.group
  if k.etaTrust.isSome || !(c.rule == 6 || c.rule == 7) then s
  else
    let s := (s.step.entries.zipIdx.filter (fun x => x.1.e.group == k.group && x.1.e.pass == 1 && x.1.mask % 32 != 0)).foldl
      (fun s x => s.yarrowScan p x.2 x.1) s
    let (w, x) := s.step.scanTotals k.group
    s.setTrust p k w x

/-- Step 4 (R156, R333): one layer, by its DSTATE and DSTEP. -/
def State.yarrowLayer (s : State) (p : Plan) (n : Nat) : State :=
  match s.step.layers[n]? with
  | none => s
  | some x =>
    match s.plan.plan.bind (fun q => q.layers[x.ix]?) with
    | none => s
    | some y =>
      let mine := y.dstep == s.step.hdr.s % 2 ^ 32 && y.dstate != 0
      let s := if mine then s else
        let s := s.layerWork p n x y
        match s.step.layers[n]? with
        | some z => if z.st = .formed then s.modLayer z.ix (fun l => l.complete z s.step.hdr.s) else s
        | none => s
      if (s.step.layers[n]?).any (·.st == .abandoned) then s
      else if mine && y.dstate == 2 then s.modLayerSt n (fun z => { z with st := .sectors })
      else match s.copyDirection p y.cfg with
        | (true, s) => (s.modLayer x.ix (fun l => { l with dstate := 2 })).modLayerSt n (fun z => { z with st := .sectors })
        | (false, s) => s.abandonLayer n y.cfg

/-- The runs of FAR rows of an IN, each as an IN of its own (log entry 92). -/
def State.farRuns (s : State) (m : Move) : List Move :=
  (List.range m.nrows).filterMap (fun i =>
    let l := m.loc.at m.loc.bank (m.loc.row + i)
    if s.isFar l then some { m with loc := l, nrows := 1, fslot := m.fslot + i } else none)

/-- Step 5 (R333): the IN entries of the move area, for rows whose FAR is still set (log entry 92). -/
def State.yarrowMoves (s : State) (p : Plan) (g : StepLog) : List Move :=
  let (b, _) := s.regionBytes (s.regionWords p.region) 0 p.hdr.imageLen
  (g.moves.flatMap (fun x => seg parseMove b 16 x.1 x.2)).flatMap (fun m => if m.op = 1 then s.farRuns m else [])

/-! ### Rows -/

/-- Masters and slot from the row as it stands at PHASE 1, or the slot alone at PHASE 2 (R333): what is read and written. -/
def State.computeRoll (s : State) (seed : List Byte) (l : RowLoc) (prow : Nat) (c : PassConst) (r : PassRow) (slotOnly : Bool) :
    PassOut :=
  let red := l.at (partnerBank l.bank) prow
  let wl := l.at (partnerBank l.bank) r.wrow
  let f := EmFmt.ofCode r.fmt
  let writes := ruleSlot r.rule
  let st := s.peekLines l (if slotOnly then (ruleMasters r.rule) else ruleReads r.rule)
  let se := if slotOnly then [] else s.peekLines red (sectorLines r.g16w r.sect)
  let kept := if writes then f.slotKept r.mask else []
  let sl := s.peekLines wl (kept.map (· + slotLine0 r))
  let found : PassOut := { PassOut.none with
    corr := lineMask st LineVal.isFixed
    uel := lineMask st LineVal.isBad
    uex := se.any (·.2.isBad) || sl.any (·.2.isBad) || (writes && (s.rowMeta wl).isNone)
    reads := st ++ se ++ sl }
  if found.uel != 0 || found.uex then found
  else
    let es := elemsOf (st.map (fun x => (x.1.line, (x.2.bytes?).getD [])))
    let xs := if slotOnly then List.replicate 160 0 else sectorValues r.g16w (goodBytes se)
    let old := kept.foldl (fun v i => v + leNat (((s.lineVal ⟨wl, slotLine0 r + i⟩).bytes?).getD []) * 2 ^ (512 * i)) 0
    let ((es', v, amax, sat), fl) := (do
      let es' ← if slotOnly then pure es else ((List.range 160).zip (es.zip xs)).mapM (fun p => do
        let (j, e, x) := p
        if !r.mask.testBit (blockOf j) then pure e
        else if r.npar ≤ j then pure { e with w := 0 }
        else do
          let x ← sectorValue r.g16w c.flush x
          let w ← c.rollForward seed r.rule (r.bc1.getD (blockOf j) 0) (r.bc2.getD (blockOf j) 0) x e
          pure { e with w := w })
      if writes then
        let (v, amax, sat) ← newSlot c r old (es'.map (·.w))
        return (es', v, amax, sat)
      else return (es', 0, fpZero false, 0) : Fp (List Elem × Nat × Word × Nat)).go
    { found with
      masters := if slotOnly then [] else linesOfElems es' (ruleMasters r.rule)
      slot := if writes then (f.slotWritten r.mask).map (fun i => (slotLine0 r + i, slotLineBytes v i)) else []
      amax := amax
      satn := sat
      flags := fl }

/-- The action of R333 on a row found at PHASE and EPOCH, for the epoch image's `e0`. -/
inductive RowAction where
  | whole | roll | slot | done | leave
  deriving DecidableEq, Repr

/-- The table of R333. -/
def rowAction (rule e0 phase epoch : Nat) : RowAction :=
  if phase = 0 && epoch = e0 then .whole
  else if phase = 1 && epoch = e0 then (if rule = 5 then .leave else .roll)
  else if phase = 2 && epoch = e0 then .slot
  else if phase = 0 && epoch = (e0 + 1) % 256 then .done
  else .leave

/-- Resolve one single or apply entry (R333 step 6). -/
def State.yarrowRow (s : State) (p : Plan) (n : Nat) (e : EntrySt) : State :=
  let l := e.e.loc
  let shard := e.e.shard
  match s.rowMeta l, e.epoch0 with
  | some m, some e0 =>
    let rule := (s.groupCfg e.e.group).rule
    match (if m.far then RowAction.leave else rowAction rule e0 m.phase m.epoch) with
    | .leave => (s.charge 11 1 0 1).yarrowLose n shard
    | .done => (s.charge 11 1 0 1).modEntry n (fun x => { x with st := .atRest })
    | act =>
      match s.yarrowLines p e with
      | (none, s) => s.yarrowLose n shard
      | (some (c, r), s) =>
        let prow := (s.entryPlace p e.e).red.row
        let o := if act = .whole then s.computePass p.seedTable l prow c r
          else s.computeRoll p.seedTable l prow c r (act = .slot)
        let s := (s.yarrowNote o).orFlags e.e.group o.flags
        if !o.clean then s.yarrowLose n shard
        else
          let s := s.chargePassWrites l r o
          let s := if act = .whole then s.writePhase1 l o else s
          let s := if act = .slot then s else s.writePhase2 l o
          (s.writePhase3 l r.wrow o m.record).modEntry n (fun x => { x with st := .atRest })
  | _, _ => s.yarrowLose n shard

/-- The pass entries of the step whose rows were found done, in list order: what the table of R333 says of the row as it stands. -/
def State.foundDone (s : State) : List EntrySt :=
  s.step.entries.filter (fun e => e.e.pass != 1 && e.mask % 32 != 0 && (match s.rowMeta e.e.loc, e.epoch0 with
    | some m, some e0 => !m.far && rowAction (s.groupCfg e.e.group).rule e0 m.phase m.epoch == .done
    | _, _ => false))

/-- The flags of a BSU's held result: as it stands, and as the block read it before it loaded the unit's tables (log entry 125). -/
def Bsu.heldFlags (b : Bsu) : Flags := b.held.or ((b.result.map (·.flags)).getD Flags.clear)

/-- Step 7 (R333): each BSU's held result gives its FLAGS to the group of the last of the entries found done on its pair. -/
def State.yarrowFlags (s : State) (done : List EntrySt) : State :=
  (done.reverse.foldl (fun (acc : List (Nat × Nat × Nat) × State) e =>
    let k := (e.e.loc.dev, e.e.loc.ch, e.e.loc.pair)
    if acc.1.contains k then acc
    else
      let b := acc.2.bsu k.1 k.2.1 k.2.2
      (k :: acc.1, (acc.2.orFlags e.e.group b.heldFlags).setBsu k.1 k.2.1 k.2.2 { b with held := Flags.clear })) ([], s)).2

/-- The conversion of a committed row's masters, nothing written (R333 step 7). -/
def State.yarrowReport (s : State) (p : Plan) (e : EntrySt) : State :=
  match s.yarrowLines p e with
  | (none, s) => s
  | (some (c, r), s) =>
    if !ruleSlot r.rule then s
    else
      let o := s.computeRoll p.seedTable e.e.loc (s.entryPlace p e.e).red.row c r true
      (s.chargeReads 11 (o.reads.map (·.1))).modShard e.e.shard (fun h => { h with
        amax := fpMax h.amax o.amax
        stepSat := h.stepSat + o.satn
        nonfin := h.nonfin || o.flags.nonfin
        touched := true })

/-- ODIG from the unit table (R60, R168): the weighted terms of the units that have a weight; a count that cannot be read is an
open value; a unit table that is initializing reads as zero (log entry 92). -/
def State.recomputeOdig (s : State) (p : Plan) : State :=
  let (d, s) := (p.odig.filter (fun x => x.2 != 0)).foldl (fun (acc : DWord × State) x =>
    if acc.2.initPending p.hdr.unitReg then (acc.1 + BitVec.ofNat 64 x.2 * digestTerm x.1 0, acc.2)
    else match acc.2.readUnit .other p x.1 with
      | (some r, s) => (acc.1 + BitVec.ofNat 64 x.2 * digestTerm x.1 r.count, s)
      | (none, s) =>
        let (v, s) := s.free
        (acc.1 + BitVec.ofNat 64 x.2 * digestTerm x.1 v.toNat, s)) (0, s)
  s.set64 Reg.ODIG_LO Reg.ODIG_HI d.toNat

/-- Steps 6 to 8 (R333): rows in list order, reports, and the boundary. -/
def State.yarrowFinish (s : State) (p : Plan) : State :=
  let done := s.foundDone
  let xexps := (s.plan.plan.map (fun q => q.shards.map (·.xexp))).getD []
  let s := (List.range s.step.entries.length).foldl (fun s n =>
    match s.step.entries[n]? with
    | some e => if e.e.pass == 1 || e.mask % 32 == 0 || e.st != .waiting then s else s.yarrowRow p n e
    | none => s) s
  let s := s.yarrowFlags done
  let s := (s.step.entries.filter (fun e => e.st == .atRest && e.e.pass != 1 && e.mask % 32 != 0)).foldl
    (fun s e => s.yarrowReport p e) s
  let lost := s.step.entries.any (·.st == .unchanged)
  let s := s.releaseAll.updateShards
  let s := ((s.recomputeOdig p).advance64 Reg.STEP_LO Reg.STEP_HI).advance64 Reg.GSTEP_LO Reg.GSTEP_HI
  let s := (s.set Reg.OUTCOME 1).closeLog
  let failed := s.flag Reg.THALT
  let s := ((s.endLists.modTier (fun t => { t with moved := [], dueQ := [] })).recoverJournal p).askReemit true xexps
  s.yarrowEnd (if failed then 0x05 else if lost then 0x03 else 0x00)

/-- Steps 1 to 5 (R333): units, constants, scans, layers; the moves are queued. -/
def State.yarrowBegin (s : State) (p : Plan) (g : StepLog) : State :=
  let s := (s.logLists p g).modPlan (fun p => { p with shards := p.shards.map (fun h => { h with stepSat := 0, touched := false }) })
  let s := (s.yarrowUnits p g.units).yarrowConsts p g
  let s := s.step.groupK.foldl (fun s k => s.yarrowTrust p k) s
  let s := (List.range s.step.layers.length).foldl (fun s n => s.yarrowLayer p n) s
  let (js, s) := if p.far.isEmpty then ([], s) else s.readJournal p
  let s := s.modTier (fun t => { t with journal := js })
  s.modTier (fun t => { t with queue := s.yarrowMoves p g })

/-- BSTAGE 5 ends when a first load's Yarrow has ended (R396). -/
def State.leaveLoad (s : State) : State := if s.get Reg.BSTAGE = 5 then s.set Reg.BSTAGE 6 else s

/-- YARROW_RESOLVE_COMMIT (R333): the first presentation does steps 1 to 4 and queues the moves of step 5; once they have ended,
a further one does steps 6 to 8. -/
def execYarrowResolveCommit (s : State) : Result :=
  match s.plan.plan, s.log with
  | some p, some g =>
    if s.get Reg.YSTATE != 1 then .next s
    else if s.areasLost g then .next (s.yarrowEnd 0x04).leaveLoad
    else
      let s := if s.yarrow.verdict.isNone then
          let s := s.yarrowBegin p g
          { s with yarrow := { s.yarrow with verdict := some 1 } }
        else s
      if s.tier.queue.isEmpty then
        let s := s.yarrowFinish p
        .next (State.leaveLoad { s with yarrow := { s.yarrow with verdict := none } })
      else .next s
  | _, _ => .next s

/-! ### YGO -/

/-- NORMSQ as YNSQ gives it (R332). -/
def State.ynsq (s : State) : List DWord := (List.range 8).map (fun n => BitVec.ofNat 64 (s.get64 (Reg.YNSQ_LO n) (Reg.YNSQ_HI n)))

/-- The hold that waited for a verdict ends (R397; log entry 92). -/
def State.endYarrowHold (s : State) : State := if s.get Reg.HOLD_CAUSE = 0x06 then s.endHold else s

/-- Act on YVERD (R332, R335); a YGO at any other time does nothing. -/
def State.ygo (s : State) : State :=
  match s.plan.plan, s.log with
  | some p, some g =>
    if s.get Reg.YSTATE != 2 then s
    else
      let s := s.endYarrowHold
      match s.get Reg.YVERD with
      | 1 => (s.keepLog (fun l => { l with logState := 3, normsq := s.ynsq })).set Reg.YSTATE 1
      | 2 => (s.yarrowSkip p g).recoverJournal p
      | 3 => (s.yarrowAbandon p g).recoverJournal p
      | _ => s.yarrowEnd 0x06
  | _, _ => s

/-- YGO. -/
def execYgo (v : Word) (s : State) : Result := .next (s.onWrite 0x2048 v (whenBit v 31 State.ygo))

/-! ### Emission again -/

/-- The descriptor of instance `q` of the recorded list (R334): the first emission descriptor with that q after the list, in the
list's section (log entry 30). -/
def Plan.findInst (p : Plan) (off n q : Nat) : Option (List Byte) :=
  (p.sectionAt off (4 * n)).bind (fun x =>
    let b := x.bytes.drop (off - x.off + 4 * n)
    ((List.range (b.length / 4)).find? (fun i => wordFld b (4 * i) 31 16 == q && wordFld b (4 * i) 15 15 == 1)).map
      (fun i => (b.drop (4 * i)).take 32))

/-- The emission instances of the recorded list, in ascending q (R334; log entry 30). -/
def State.reemitInsts (s : State) (p : Plan) (g : StepLog) : State :=
  let qs := match p.sectionAt g.csetOff (4 * g.csetN) with
    | some x => (parseCset g.csetN (x.bytes.drop (g.csetOff - x.off))).map (fun (e : Nat × Bool) => e.1)
    | none => []
  qs.foldl (fun s q =>
    match p.findInst g.csetOff g.csetN q with
    | some b => s.modStep (fun t => { t with insts := t.insts ++ [s.parseInst b] })
    | none => s) s

/-- The resolved step's lists with its emission instances begun; rows left as found stay unsent (R72, R334; log entry 53). -/
def State.startReemit (s : State) (p : Plan) (g : StepLog) (r : Reemit) : State :=
  let old := s.step
  let h : StepHeader := ⟨g.v, g.lse, g.seed, s.stepS - 1, if r.commit then s.stepG - 1 else s.stepG⟩
  let t := p.startLists h old.posts
  let lost := s.lostShards
  let t := { t with
    entries := t.entries.map (fun e => { e with st := if lost.contains e.e.shard then .unchanged else .atRest })
    slots := [], sectors := [], layers := [], xexps := r.xexps, goHeld := old.goHeld, cntHeld := old.cntHeld }
  let q : Seq := { Seq.idle with openV := 1, sealV := if r.commit then 1 else 2, commitRun := r.commit }
  let s : State := { s with step := t, seq := q }
  ((if r.commit then s else s.set Reg.REASON r.reason).reemitInsts p g).settleInsts

/-- The emission has been sent: a held GO may go on. -/
def State.endReemit (s : State) : State :=
  State.releaseGo { s.endLists with yarrow := { s.yarrow with reemit := none }, exch := { s.exch with givenUp := [] } }

/-- YARROW_REEMIT (R334): in Run the emission instances of the resolved step begin; once they have ended, a further
presentation ends it. -/
def execYarrowReemit (s : State) : Result :=
  match s.plan.plan, s.log, s.yarrow.reemit with
  | some p, some g, some r =>
    if !s.inRun || s.inStep then .next s
    else if s.step.chunks.isEmpty && s.step.insts.isEmpty then
      let s := s.startReemit p g r
      if s.step.insts.all (·.ended) then .next s.endReemit else .next s
    else
      let s := s.settleInsts
      if s.step.insts.all (·.ended) then .next s.endReemit else .next s
  | _, _, _ => .next s

end Sys2Proof.Machine
end

