-- ==== Sys2Proof/Machine/Load.lean ====
section
/-! DEFINITION. Loading a plan (R167, R168, R332, R396) and swapping it (R182, R183). -/

namespace Sys2Proof.Machine

/-! ### The result of a load -/

/-- LSTATE as plan, swap, load and trap make it (R184; log entry 77). -/
def State.restoreLstate (s : State) : State :=
  s.set Reg.LSTATE (if s.trapped then 4 else if s.plan.load.isSome then 1 else if s.plan.pend.isSome then 3
    else if s.planLoaded then 2 else 0)

/-- LOAD_CODE, LOAD_SECT, LOAD_DETAIL (R167, R423). -/
def State.loadResult (s : State) (code : Nat) (o : Offender) : State :=
  ((s.set Reg.LOAD_CODE code).set Reg.LOAD_SECT (o.1 % 256)).set Reg.LOAD_DETAIL o.2

/-- The load in hand fails (R167, R183, R396, R397): the loaded plan stays; a first load returns the block to stage 4
(log entry 74). -/
def State.loadFailed (s : State) (code : Nat) (o : Offender) : State :=
  let s : State := { s with plan := { s.plan with load := none } }
  let s := (s.loadResult code o).restoreLstate
  if s.get Reg.BSTAGE == 5 && !s.planLoaded then (s.set Reg.BSTAGE 4).raise 0 else s.releaseGo

/-! ### LOAD and SWAP -/

/-- SRCREG names an enabled plan-class region that is neither initializing nor zeroizing (R167; log entries 74, 75). -/
def State.stagingOk (s : State) (n : Nat) : Bool :=
  let e := s.regionWords n
  e.en && decide (e.cls = .plan) && !s.initPending n && !s.zeroizing n

/-- The load in hand begins (R167): stage 1, then digest and mark go to the root of trust (log entry 75). -/
def State.startVerify (s : State) (reg : Nat) : State :=
  let x := s.imageBytes reg
  let s := s.charge 15 (2 * ((x.1.length + 63) / 64)) 0 1
  let s := x.2.foldl (fun s l => s.noteLine .other l (s.lineVal l)) s
  if !x.2.isEmpty || x.1.length < 0x80 then s.loadFailed 0x01 (0, 0)
  else match stage1 x.1 (s.regionWords reg).size with
    | some o => s.loadFailed 0x01 o
    | none => s.rotAsk 1 0

/-- A load of SRCREG is in hand: LSTATE 1 (log entry 77). -/
def State.setLoad (s : State) (swap : Bool) : State :=
  let s : State := { s with plan := { s.plan with load := some ⟨s.get Reg.SRCREG, swap, none⟩ } }
  s.restoreLstate

/-- LOAD without SWAP (R167, R396): taken in stage 4 with no plan (log entry 74), unless a failed training has stopped bring-up there
(R5; log entry 107). -/
def State.firstLoad (s : State) : State :=
  if s.get Reg.BSTAGE != 4 || s.flag Reg.BFAIL || s.planLoaded || s.plan.load.isSome then s
  else
    let s := (s.setLoad false).set Reg.BSTAGE 5
    if s.stagingOk (s.get Reg.SRCREG) then s.startVerify (s.get Reg.SRCREG)
    else s.loadFailed 0x04 (0, s.get Reg.SRCREG)

/-- LOAD with SWAP (R182, R183): refused with 0x10 or 0x11, or fails at once with 0x04, else it replaces a pending image
(log entry 75). -/
def State.swapLoad (s : State) : State :=
  let at_ := s.get64 Reg.SWAP_STEP_LO Reg.SWAP_STEP_HI
  if !s.planLoaded || s.trapped then s.loadResult 0x10 (0, 0)
  else if at_ < s.stepS || (at_ == s.stepS && s.inStep) then s.loadResult 0x11 (0, 0)
  else if !s.stagingOk (s.get Reg.SRCREG) then s.loadResult 0x04 (0, s.get Reg.SRCREG)
  else
    let s : State := { s with plan := { s.plan with pend := none, load := none } }
    let s := (s.rotDrop 1).set64 Reg.PEND_ID_LO Reg.PEND_ID_HI 0
    (s.setLoad true).startVerify (s.get Reg.SRCREG)

/-- A write to 0x0400 (R184): LOAD, with SWAP or without. In Spent it is ignored and sets LOADREF (R358). -/
def State.writeLoad (s : State) (v : Word) : State :=
  if s.spent && !s.inReset && !s.harebell then (if v.getLsbD 31 then s.setFlag Reg.LOADREF true else s)
  else s.onWrite 0x0400 v (whenBit v 31 (fun s => if v.getLsbD 30 then s.swapLoad else s.firstLoad))

/-- LOAD. -/
def execLoad (v : Word) (s : State) : Result := .next (s.writeLoad v)
/-- SWAP. -/
def execSwap (v : Word) (s : State) : Result := .next (s.writeLoad v)

/-! ### Verification -/

/-- The code and the item of a stage that fails. -/
def stageFails (code : Nat) (os : List Offender) : Option (Nat × Offender) := (lowest os).map (fun o => (code, o))

/-- Stages 3 to 14 in order: the first that fails (R167). -/
def State.verify (s : State) (p : Plan) : Option (Nat × Offender) :=
  let tab := s.loadTable p
  stageFails 0x03 (s.stage3 p)
    <|> (if s.stage4Staging p then some (0x04, 2, p.region) else none)
    <|> (s.stage4Refused p).map (fun x => (0x05, 2, x.1))
    <|> stageFails 0x06 p.stage5
    <|> stageFails 0x07 p.stage6
    <|> stageFails 0x08 p.stage7
    <|> stageFails 0x09 (p.stage8 tab)
    <|> stageFails 0x0A (s.stage9 p tab)
    <|> stageFails 0x0B (p.stage10 tab)
    <|> stageFails 0x0C (p.stage11 tab)
    <|> stageFails 0x0D p.stage12
    <|> stageFails 0x0E p.stage13
    <|> stageFails 0x0F (s.stage14 p tab)

/-- The load in hand fails in a stage; a refused entry sets REF_CODE as R40 does. -/
def State.verifyFailed (s : State) (p : Plan) (x : Nat × Offender) : State :=
  let s := match (if x.1 = 0x05 then s.stage4Refused p else none) with
    | some r => s.refuseEntry r.1 r.2
    | none => s
  s.loadFailed x.1 x.2

/-! ### A plan takes effect -/

/-- Write one entry of a plan, with INIT where INIT_AT_LOAD is set (R164). -/
def State.putPlanEntry (s : State) (r : RegionRec) : State :=
  let s := s.putRegion r.n r.words
  if r.init && r.words.en then s.beginInit r.n else s

/-- Write the entries of a plan (R168, R183). -/
def State.putPlanEntries (s : State) (p : Plan) : State := p.regionRecs.foldl State.putPlanEntry s

/-- Disable the entries of the old plan that the new one does not hold (R183). -/
def State.dropOldEntries (s : State) (p : Plan) : State :=
  match s.plan.plan with
  | none => s
  | some q => (q.regions.filter (fun r => !p.regions.any (·.1 == r.1))).foldl (fun s r => s.disableRegion r.1) s

/-- The locked lines of a plan's code (R177). -/
def ICache.hot (p : Plan) : ICache := ⟨(List.range (p.hdr.hotLen / 64)).map (fun n => (n, true)), none, none⟩

/-- The first of the lines to be locked that cannot be read: its instruction's index (R178). -/
def State.hotBad (s : State) (p : Plan) : Option Nat :=
  ((List.range (p.hdr.hotLen / 64)).find? (fun n => (s.lineVal (s.codeLine p n)).isBad)).map (8 * ·)

/-- The seed table goes to the BSUs in service (R91, R270). -/
def State.loadSeeds (s : State) (p : Plan) : State :=
  ((List.range 24).filter s.inService).foldl (fun s d => s.loadSeed d p.seedTable) s

/-- A layer that a swap keeps keeps its status (R141): one whose descriptor is equal to that of the old layer of the same number (log
entry 68). -/
def Plan.keepLayers (p : Plan) (old : Option Plan) : Plan :=
  { p with layers := p.layers.zipIdx.map (fun x =>
      match old.bind (fun q => q.layers[x.2]?) with
      | some l => if l.cfg = x.1.cfg then l else x.1
      | none => x.1) }

/-- The journal of a plan that keeps its place stays as it is (log entry 76). -/
def State.keepJournal (s : State) (p : Plan) : State :=
  if s.plan.plan.any (fun q => q.jreg == p.jreg && q.junit == p.junit) then s
  else { s with tier := { s.tier with journal := [] } }

/-- The plan becomes the loaded one (R168, R183): entries, block-set fields, ODIG, locked lines, seed tables, topology. -/
def State.installPlan (s : State) (p : Plan) : State :=
  let s := ((s.keepJournal p).dropOldEntries p).putPlanEntries p
  let s : State := { s with plan := ⟨some p, none, none⟩, icache := ICache.hot p }
  let s := (((s.patchAll).recomputeOdig p).charge 15 (p.hdr.hotLen / 32) 0 1).loadSeeds p
  let s := (s.set64 Reg.PLAN_ID_LO Reg.PLAN_ID_HI p.hdr.planId).set64 Reg.PEND_ID_LO Reg.PEND_ID_HI 0
  let s := s.set Reg.LSTATE 2
  if s.exch.topoSeen then s.bindTopo (s.get64 Reg.TOPO_LO Reg.TOPO_HI) else s

/-- The step log binds to a plan with a verdict that Yarrow may resolve as a commit: the layer statuses of the image stay
(R156, R333; log entry 68). -/
def State.keepsLayers (s : State) (p : Plan) : Bool :=
  match s.findLog p with
  | .found g => g.planId == p.hdr.planId && (g.logState == 2 || g.logState == 3)
  | .absent | .lost => false

/-- A plan whose layers stand as the image's descriptors say (log entry 68). -/
def Plan.withStatus (p : Plan) : Plan :=
  { p with layers := (List.range p.hdr.nlayer).map (fun i => parseLayerStatus (p.section 0x07) (64 * i)) }

/-- A first load succeeds (R168, R332, R396). -/
def State.firstLoaded (s : State) (p : Plan) : State :=
  let p := if s.keepsLayers p then p.withStatus else p
  let s := (s.loadResult 0 (0, 0)).installPlan p
  let s := s.readLog p
  if s.get Reg.YSTATE = 1 then s else s.leaveLoad

/-- A swap is verified and pending (R182). -/
def State.swapVerified (s : State) (p : Plan) : State :=
  let s : State := { s with plan := { s.plan with pend := some p, load := none } }
  ((s.loadResult 0 (0, 0)).set64 Reg.PEND_ID_LO Reg.PEND_ID_HI p.hdr.planId).restoreLstate

/-- The image of the load in hand has lines that cannot be read: they are reported, and the load fails: a first load with code 0x06
where one is a line to be locked (R178), else with 0x01 (log entry 75). -/
def State.imageLost (s : State) (l : LoadRun) (p : Plan) (bad : List LineLoc) : State :=
  let t := bad.foldl (fun s x => s.noteLine .other x (s.lineVal x)) s
  match if l.swap then none else s.hotBad p with
  | some n => t.loadFailed 0x06 (1, n)
  | none => t.loadFailed 0x01 (0, 0)

/-- LOAD_VERIFY_DONE (R167): stages 3 to 14, once the root of trust has accepted the mark. -/
def execLoadVerifyDone (s : State) : Result :=
  match s.plan.load with
  | some l =>
    if l.answer != some true then .next s
    else
      let x := s.imageBytes l.region
      let p := parsePlan l.region x.1
      if !x.2.isEmpty then .next (s.imageLost l p x.2)
      else match s.verify p with
      | some o => .next (s.verifyFailed p o)
      | none => .next (if l.swap then s.swapVerified p else s.firstLoaded p).settleTest
  | none => .next s

/-- The pending swap is dropped at its boundary, as a line to be locked cannot be read (R178): LOAD_CODE 0x06, the old plan stays. -/
def State.dropSwap (s : State) (n : Nat) : State :=
  let s : State := { s with plan := { s.plan with pend := none } }
  ((s.set64 Reg.PEND_ID_LO Reg.PEND_ID_HI 0).loadResult 0x06 (1, n)).restoreLstate

/-- A verified swap takes effect (R183, R141): shards that the new plan does not have leave the shard-loss list (R337). -/
def State.takeSwap (s : State) (p : Plan) : State :=
  match s.hotBad p with
  | some n =>
    let x := s.codeLine p (n / 8)
    (s.noteLine .other x (s.lineVal x)).dropSwap n
  | none =>
    let s := s.installPlan (p.keepLayers s.plan.plan)
    s.dropLosses (fun h => decide (p.shards.length ≤ h))

/-- SWAP_TAKE_EFFECT (R183), at a boundary: at SWAP_STEP the pending plan takes effect, past it the swap is dropped; verification
still running is waited for. -/
def execSwapTakeEffect (s : State) : Result :=
  match s.plan.pend with
  | some p =>
    if !s.atBoundary || s.trapped || s.plan.load.isSome then .next s
    else if s.stepS < s.get64 Reg.SWAP_STEP_LO Reg.SWAP_STEP_HI then .next s
    else if s.stepS == s.get64 Reg.SWAP_STEP_LO Reg.SWAP_STEP_HI then .next (s.takeSwap p).settleTest.releaseGo
    else .next s.dropPassedSwap.releaseGo
  | none => .next s

end Sys2Proof.Machine
end

