-- ==== Sys2Proof/Machine/Bank.lean ====
section
/-! DEFINITION. The extended commands as the devices receive them one by one (R269 to R278, R376), and what the maintenance of
the devices and the regulators does at its times: refresh (R286, R287), temperature (R281), retraining (R293), regulator
windows (R410, R412, R413). -/

namespace Sys2Proof.Machine

/-! ### The extended word -/

/-- Bits [hi:lo] of an extended word (R270). -/
def xfld (w : BitVec 48) (hi lo : Nat) : Nat := bits w.toNat hi lo

/-- XOP. -/
def xop (w : BitVec 48) : Nat := xfld w 47 44
/-- K, the bank pair. -/
def xk (w : BitVec 48) : Nat := xfld w 43 41
/-- SB. -/
def xsb (w : BitVec 48) : Nat := xfld w 40 40

/-- OPEN of an ACTP. -/
def xopen (w : BitVec 48) : Nat := xfld w 9 8

/-- The block sends extended commands to this device: a U-device, not in self-refresh, and none is left in Clover mode (R267, R340,
R347; log entry 118). -/
def State.extendedOk (s : State) (d : Nat) : Bool :=
  s.bit Reg.UDEV d && !s.flag Reg.CLOVER && !s.pins.selfRef && !s.inReset

/-- The commands that a BSU group out of service gets: status reads, self-tests and table loads, with the ACTPs that open them
(R268, R271). -/
def outOfServiceOk (w : BitVec 48) : Bool :=
  xop w == 8 || xop w == 7 || xop w == 6 || (xop w == 1 && xopen w != 2)

/-- The extended command `k` reaches channel `c` of device `d`: a device number beyond d23 faults (R12); a word of another XOP,
and a device or channel that receives no such command (R267, R268, R338), leave the state as it is (log entries 118, 119). -/
def State.extended (s : State) (d c : Nat) (k : Nat) (w : BitVec 48) (run : State → State) : Result :=
  if 24 ≤ d then .fault (.noSuchDevice d)
  else if xop w != k || !s.extendedOk d || s.mappedOut d c || (s.bit Reg.OOS d && !outOfServiceOk w) then .next s
  else .next (run s)

/-- Change the BSU of a pair. -/
def State.modBsu (s : State) (d c k : Nat) (f : Bsu → Bsu) : State := s.setBsu d c k (f (s.bsu d c k))

/-- A refused command sets XREF and changes nothing else (R270; log entry 119). -/
def State.refuseX (s : State) (d c k : Nat) : State := s.modBsu d c k (fun b => { b with xref := true })

/-! ### ACTP and the sequence that it begins -/

/-- Change the sequence on a pair. -/
def State.modSeqOn (s : State) (d c k : Nat) (f : SeqFl → SeqFl) : State :=
  { s with dev := { s.dev with seqs := s.dev.seqs.map (fun q => if q.dev = d ∧ q.ch = c ∧ q.k = k then f q else q) } }

/-- The weight of the sequence that an ACTP starts (R271, R278): with both rows open a CMTR, SCNR or BIST follows, else an ACCW, ATAD
or TBLD. -/
def actpWeight (w : BitVec 48) : Nat := if xopen w = 0 then 4 else 1

/-- A sequence may start on the pair: it is free and the device is below 105 °C (R271, R281); a refresh that is due there holds the
start back only while the pair is held, since it is issued once the pair is free (R284, R287). -/
def State.pairStarts (s : State) (d c k : Nat) : Bool :=
  !s.pairHeld d c k && !s.bit Reg.HOT105 d && !s.dev.refresh.any (fun x => x.1 == d && x.2.1 == c && x.2.2 / 2 == k)

/-- The sequence that an ACTP starts; its command comes after it (R271). -/
def actpSeq (d c : Nat) (w : BitVec 48) (t : Nat) : SeqFl where
  dev := d
  ch := c
  k := xk w
  sb := xsb w
  row := xfld w 39 25
  prow := xfld w 24 10
  opn := xopen w
  start := t
  bound := t + 16000
  weight := actpWeight w
  entry := none
  ran := false
  overran := false

/-- ACTP (R271, R278, R285): it starts under the device's timing rules, with the weight of the command that follows it; the buffer's
lines of the pair are written through, the pair's result goes, the pair is held (log entry 118). -/
def State.activate (s : State) (d c : Nat) (w : BitVec 48) : State :=
  let s' := s.retire
  if xopen w = 3 then s.refuseX d c (xk w)
  else if !s'.pairStarts d c (xk w) then s
  else match s'.startTime d (actpWeight w) with
    | none => s
    | some t =>
      let s := ((s'.advance t).retire).flushPair d c (xk w)
      let s := s.modBsu d c (xk w) (fun b => { b with result := none })
      { s with dev := { s.dev with seqs := s.dev.seqs ++ [actpSeq d c w s.clock.time] } }.noteStart d s.clock.time (actpWeight w)

/-- ACTP. -/
def execActp (d : BitVec 5) (c : BitVec 2) (w : BitVec 48) (s : State) : Result :=
  s.extended d.toNat c.toNat 1 w (fun s => s.activate d.toNat c.toNat w)

/-- The command of a sequence: its ACTP has come, with the OPEN that R271 gives, and no other command yet; the sequence takes the
command's bound (R278; log entry 118). `linkFails` bursts of its data fail the CRC check: each time the BSU discards the command, and
it is sent again from its ACTP after the bound of the sequence that it would have started, up to 3 times (R269, R292); a command
that fails once more is an uncorrectable error, and the BSU executes nothing. The `wr` sectors of its data cross the pins each
time. -/
def State.inSeq (s : State) (d c : Nat) (w : BitVec 48) (opn src wr linkFails : Nat) (bound : SeqFl → Nat)
    (run : SeqFl → State → State) : State :=
  match s.seqOn d c (xk w) with
  | some q =>
    if q.ran || q.opn != opn then s
    else
      let n := min linkFails 3
      let q' := { q with ran := true, start := q.start + n * bound q, bound := q.start + (n + 1) * bound q }
      let s := s.modSeqOn d c (xk w) (fun _ => q')
      let s := (List.range n).foldl (fun s i => s.noteStart d (q.start + (i + 1) * bound q) q.weight) s
      let s := (s.charge src 0 (wr * (n + 1)) 1).linkTrouble .bsu ⟨⟨d, c, 2 * xk w + q.sb, q.row⟩, 0⟩ linkFails
      if 3 < linkFails then s else run q' s
  | none => s

/-- The work of a BSU on the pair of a row, which finds remapped lines by its own entries (R46, R271). -/
def State.onBsu (s : State) (l : RowLoc) (run : State → State) : State :=
  (run (s.seenByBsu l)).withRemap s.fault.remap

/-- The state row of a sequence. -/
def SeqFl.stateRow (q : SeqFl) : RowLoc := ⟨q.dev, q.ch, 2 * q.k + q.sb, q.row⟩

/-- The reduction row of a sequence. -/
def SeqFl.partnerRow (q : SeqFl) : RowLoc := ⟨q.dev, q.ch, 2 * q.k + (1 - q.sb), q.prow⟩

/-! ### ACCW -/

/-- SECT names no sector of the mode. -/
def badSect (g16w : Bool) (sect : Nat) : Bool := decide ((if g16w then 3 else 6) ≤ sect)

/-- The 160 values of an ACCW's data, BF16 in the upper half of a word (R275). -/
def accwValues (g16w : Bool) (data : List Byte) : List Word := sectorValues g16w (takePad (if g16w then 640 else 320) data)

/-- The sector's contents go out on DQ (R275). -/
def State.returnSector (s : State) (q : SeqFl) (xs : List LineLoc) : State :=
  s.emit (.device q.dev q.ch (xs.flatMap (fun x => ((s.lineVal x).bytes?).getD (List.replicate 64 0))))

/-- ACCW in its sequence (R275, R80, R81, R227; log entry 118). -/
def State.accumulate (s : State) (q : SeqFl) (w : BitVec 48) (data : List Byte) (residueFaults : Nat) : State :=
  let g16w := xfld w 36 36 == 1
  if badSect g16w (xfld w 39 37) then s.refuseX q.dev q.ch q.k
  else
    let xs := sectorLocs q.partnerRow g16w (xfld w 39 37)
    let s := (s.perf 5 1).countCorr q.partnerRow (xs.map s.lineVal)
    let r := State.addLines .bsu .through g16w (xfld w 34 34 == 1) (residueFaults != 0) xs (accwValues g16w data)
      ⟨true, Flags.clear, s⟩
    let s := r.s.modBsu q.dev q.ch q.k (fun b =>
      { b with accw := true, res := b.res || residueFaults != 0, ue := b.ue || !r.ok })
    if xfld w 35 35 = 1 then (s.charge 10 (2 * xs.length) 0 1).returnSector q xs else s

/-- The bound of an ACCW (R278). -/
def State.accwBound (s : State) (q : SeqFl) : Nat := if s.rowRemapped q.partnerRow then 120 else 60

/-- The result sector reads as zeros after the command (R331). -/
def State.zeroResult (s : State) (q : SeqFl) : State := s.modBsu q.dev q.ch q.k (fun b => { b with result := some RowResult.zero })

/-- ACCW: 10 sectors, or 20 under G16W (R270). -/
def execAccw (d : BitVec 5) (c : BitVec 2) (w : BitVec 48) (data : Linked (List Byte)) (residueFaults : Nat) (s : State) : Result :=
  s.extended d.toNat c.toNat 2 w (fun s =>
    s.inSeq d.toNat c.toNat w 2 10 (if xfld w 36 36 = 1 then 20 else 10) data.linkFails s.accwBound (fun q s =>
      (s.zeroResult q).onBsu q.partnerRow (fun s => s.accumulate q w data.val residueFaults)))

/-! ### CMTR and SCNR -/

/-- A row operand line that a BSU refuses (R270, R273): a RULE or PASS that it does not take, or a reserved value in a field
that the pass uses (log entry 119). -/
def badOperand (scan : Bool) (r : PassRow) : Bool :=
  let f := EmFmt.ofCode r.fmt
  let slots := ruleSlot r.rule && r.pass != 1
  (decide (10 < r.rule) && r.rule != 15) || r.pass == 3 || (r.pass == 1) != scan || (r.rule == 15 && scan)
    || (r.rule != 15 && badSect r.g16w r.sect)
    || (slots && (decide (7 < r.fmt) || r.rmode == 3 || decide (30 / f.lines ≤ r.slot)))

/-- A CMTR or SCNR in its sequence: its operands may be refused (R273), else the pass runs (R274, R276). -/
def State.pass_ (s : State) (q : SeqFl) (scan : Bool) (consts row : Line) : State :=
  if badOperand scan (PassRow.ofLine row) then s.refuseX q.dev q.ch q.k
  else (s.perf 3 1).bsuPass q.stateRow q.prow consts row false

/-- CMTR: 4 sectors (R270). -/
def execCmtr (d : BitVec 5) (c : BitVec 2) (w : BitVec 48) (consts row : Line) (linkFails : Nat) (s : State) : Result :=
  s.extended d.toNat c.toNat 3 w (fun s =>
    s.inSeq d.toNat c.toNat w 0 11 4 linkFails (fun q => s.passBound q.stateRow q.prow (PassRow.ofLine row))
      (fun q s => s.pass_ q false consts row))

/-- SCNR: 4 sectors (R270). -/
def execScnr (d : BitVec 5) (c : BitVec 2) (w : BitVec 48) (consts row : Line) (linkFails : Nat) (s : State) : Result :=
  s.extended d.toNat c.toNat 4 w (fun s =>
    s.inSeq d.toNat c.toNat w 0 11 4 linkFails (fun q => s.passBound q.stateRow q.prow (PassRow.ofLine row))
      (fun q s => s.pass_ q true consts row))

/-! ### ATAD and TBLD -/

/-- ATAD in its sequence (R259, R270): a reserved FORM, a line beyond the row and a WORD that is not aligned are refused
(log entry 118). -/
def State.atomicX (s : State) (q : SeqFl) (w : BitVec 48) (operand : DWord) : State :=
  let form := xfld w 39 38
  let line := xfld w 36 32
  let word := xfld w 31 28
  match atomicSize form with
  | none => s.refuseX q.dev q.ch q.k
  | some size =>
    if 30 ≤ line ∨ 4 * word % size ≠ 0 then s.refuseX q.dev q.ch q.k
    else
      let (old, s) := s.atomicCore .bsu true ⟨q.stateRow, line⟩ (4 * word) form (operand.toNat % 2 ^ (8 * size))
      match old with
      | some v => if xfld w 37 37 = 1 then (s.charge 15 1 0 1).emit (.device q.dev q.ch (leBytes 8 v)) else s
      | none => s

/-- The bound of an ATAD (R278). -/
def State.atadBound (s : State) (q : SeqFl) : Nat := if s.rowRemapped q.stateRow then 80 else 40

/-- ATAD: 1 sector (R270; log entry 118). -/
def execAtad (d : BitVec 5) (c : BitVec 2) (w : BitVec 48) (operand : Linked DWord) (s : State) : Result :=
  s.extended d.toNat c.toNat 5 w (fun s => s.inSeq d.toNat c.toNat w 1 15 1 operand.linkFails s.atadBound (fun q s =>
    (s.zeroResult q).onBsu q.stateRow (fun s => s.atomicX q w operand.val)))

/-- TBLD in its sequence (R270, R331): KIND 0 the seed table, KIND 1 the remap entries of bank 2K + SB. -/
def State.tableLoad (s : State) (q : SeqFl) (w : BitVec 48) (data : List Byte) : State :=
  match xfld w 39 38 with
  | 0 => s.modBsu q.dev q.ch q.k (fun b => { b with seed := takePad 512 data })
  | 1 =>
    let ws := (List.range 4).map (fun n => BitVec.ofNat 32 (leAt data (4 * n) 4))
    s.modBsu q.dev q.ch q.k (fun b => if xsb w = 0 then { b with remap := ws } else { b with remapHi := ws })
  | _ => s.refuseX q.dev q.ch q.k

/-- TBLD: 16 sectors for the seed table, else 1 (R270). -/
def execTbld (d : BitVec 5) (c : BitVec 2) (w : BitVec 48) (data : Linked (List Byte)) (s : State) : Result :=
  s.extended d.toNat c.toNat 6 w (fun s => s.inSeq d.toNat c.toNat w 1 15 (if xfld w 39 38 = 0 then 16 else 1) data.linkFails
    (fun _ => 200) (fun q s => (s.zeroResult q).tableLoad q w data.val))

/-! ### BIST and STRD -/

/-- The signature that every BSU of PX-B revision 0x01 gives (R378; log entry 101). -/
def bsuSignature : Word := 0x5AE20C7F

/-- `n` open lines. -/
def State.freeLines : Nat → State → List (List Byte) × State
  | 0, s => ([], s)
  | n + 1, s =>
    let (b, s) := (List.range 8).foldl (fun (acc : List Byte × State) _ =>
      let (v, s) := acc.2.free
      (acc.1 ++ leBytes 8 v.toNat, s)) ([], s)
    let (bs, s) := s.freeLines n
    (b :: bs, s)

/-- Test data in a row under test: open lines, every VALID bit set, ZEROED clear (R376). -/
def State.testRow (s : State) (l : RowLoc) : State :=
  let m := (s.rowMeta l).getD (Meta.fresh 0)
  let (bs, s) := State.freeLines 30 s
  s.putLines .through l ((List.range 30).zip bs) { m with zeroed := false }

/-- What a BSU test leaves (R374, R376): TEST 1 takes the tables, TEST 2 writes the row under test of both banks; BISTDONE and
BISTPASS report it (log entry 101). -/
def State.runBist (s : State) (d c k row test : Nat) (sig : Word) : State :=
  let s := if test = 2 then (s.testRow ⟨d, c, 2 * k, row⟩).testRow ⟨d, c, 2 * k + 1, row⟩ else s
  s.modBsu d c k (fun b =>
    let b : Bsu := if test = 1 then { b with seed := [], remap := [], remapHi := [] } else b
    { b with bistDone := true, bistPass := sig == bsuSignature, sig := sig, result := none })

/-- BIST (R376): with READ = 1 the signature of the last test goes out; else a test runs in its sequence, TESTs 3 to 15 refused. -/
def execBist (d : BitVec 5) (c : BitVec 2) (w : BitVec 48) (sig : Word) (s : State) : Result :=
  s.extended d.toNat c.toNat 7 w (fun s =>
    if xfld w 35 35 = 1 then
      (s.charge 15 1 0 1).emit (.device d.toNat c.toNat (leBytes 4 (s.bsu d.toNat c.toNat (xk w)).sig.toNat))
    else s.inSeq d.toNat c.toNat w 0 15 0 0 (fun _ => 16000) (fun q s =>
      if 3 ≤ xfld w 39 36 then s.refuseX q.dev q.ch q.k else s.runBist q.dev q.ch q.k q.row (xfld w 39 36) sig))

/-- A result sector as bytes 0 to 0x1B (R276). -/
def resultBytes (r : RowResult) (busy : Bool) : List Byte :=
  leBytes 4 r.amax.toNat ++ leBytes 4 r.pw.toNat ++ leBytes 4 r.px.toNat
    ++ leBytes 4 (r.satn % 256 * 2 ^ 24 + r.flags.code) ++ leBytes 4 r.corr ++ leBytes 4 (r.uex.toNat * 2 ^ 31 + r.uel)
    ++ leBytes 4 (busy.toNat * 2 ^ 31 + r.epoch % 256 * 2 ^ 8 + r.phase % 4)

/-- The result sector of a BSU that holds none: open words, but for BUSY (log entry 32). -/
def State.openResult (s : State) (busy : Bool) : List Byte × State :=
  let (b, s) := (List.range 7).foldl (fun (acc : List Nat × State) _ =>
    let (v, s) := acc.2.free
    (acc.1 ++ [v.toNat % 2 ^ 32], s)) ([], s)
  ((b.take 6).flatMap (leBytes 4) ++ leBytes 4 (busy.toNat * 2 ^ 31 + b.getD 6 0 % 2 ^ 31), s)

/-- The answer of an STRD (R267, R276, R277); bits [15:8] of the identification word are open (log entry 32). -/
def State.strdData (s : State) (d c k sb sel : Nat) : List Byte × State :=
  match sel with
  | 0 => (leBytes 8 (s.bsuStatus d c k sb), s)
  | 1 =>
    match (s.bsu d c k).result with
    | some r => (resultBytes r (s.pairHeld d c k), s)
    | none => s.openResult (s.pairHeld d c k)
  | _ =>
    let (v, s) := s.free
    (leBytes 4 (0x5842 * 2 ^ 16 + v.toNat % 256 * 2 ^ 8 + s.get (Reg.PXB_REV d)), s)

/-- STRD (R277): with CLR the sticky bits clear after they have been returned; SEL 3 is refused. -/
def State.statusRead (s : State) (d c : Nat) (w : BitVec 48) : State :=
  if xfld w 39 38 = 3 then s.refuseX d c (xk w)
  else
    let s := s.retire
    let (b, s) := s.strdData d c (xk w) (xsb w) (xfld w 39 38)
    let s := (s.charge 15 1 0 1).emit (.device d c b)
    if xfld w 37 37 = 1 then s.modBsu d c (xk w) Bsu.clearSticky else s

/-- STRD. -/
def execStrd (d : BitVec 5) (c : BitVec 2) (w : BitVec 48) (s : State) : Result :=
  s.extended d.toNat c.toNat 8 w (fun s => s.statusRead d.toNat c.toNat w)

/-! ### Refresh, temperature, retraining -/

/-- The channel is in use: the device is present and not in self-refresh, the channel not mapped out. -/
def State.channelLive (s : State) (d c : Nat) : Bool := s.present d && !s.mappedOut d c && !s.pins.selfRef && !s.inReset

/-- REFRESH_DUE (R287): issued at once, or postponed behind the sequence that holds the pair, and counted. -/
def execRefreshDue (d : BitVec 5) (c : BitVec 2) (b : BitVec 4) (s : State) : Result :=
  let x := (d.toNat, c.toNat, b.toNat)
  let s' := s.retire
  if !s.channelLive d.toNat c.toNat || !s'.pairHeld d.toNat c.toNat (b.toNat / 2) || s.dev.refresh.contains x then .next s
  else .next (State.bump { s' with dev := { s'.dev with refresh := s'.dev.refresh ++ [x] } } Reg.REFPOST 1)

/-- A byte as a signed number. -/
def signedByte (b : Byte) : Int := b.toInt

/-- A thermal step of a device (R281): taken from `on` up, released from `off` down. -/
def State.thermal (s : State) (f : Field) (d : Nat) (t on off : Int) : State :=
  if on ≤ t then s.setBit f d true else if t ≤ off then s.setBit f d false else s

/-- TEMP_READING (R281): TEMP and the three steps. -/
def execTempReading (d : BitVec 5) (celsius : Byte) (s : State) : Result :=
  if !s.present d.toNat || s.pins.selfRef || s.inReset then .next s
  else
    let t := signedByte celsius
    .next ((((s.set (Reg.TEMP d.toNat) celsius.toNat).thermal Reg.HOT85 d.toNat t 86 83).thermal Reg.HOT95 d.toNat t 96 93).thermal
      Reg.HOT105 d.toNat t 105 103)

/-- CHANNEL_RETRAIN (R293): it takes 2 µs of the channel's time, which changes only timing (R1); never while a sequence holds a pair
of the channel (log entry 107). -/
def execChannelRetrain (_d : BitVec 5) (_c : BitVec 2) (s : State) : Result := .next s

/-! ### Regulators -/

/-- REGULATOR_WINDOW (log entries 3, 122). -/
def execRegulatorWindow (s : State) : Result :=
  if s.inReset || s.harebell then .next s else .next (s.advance (s.regul.start + 1000)).newWindow

end Sys2Proof.Machine
end

