-- ==== Sys2Proof/Machine/Faults.lean ====
section
/-! DEFINITION. The scrubber (R322, R323, R253). -/

namespace Sys2Proof.Machine

/-! ### Which row comes next -/

/-- The scrubber's place in a device: 32,768 times the bank index of R13, plus the row. -/
def State.scrubAt (s : State) (d : Nat) : Nat := (sparseFind s.fault.scrubPos d).getD 0

/-- The rows of bank `b` of device `d` from row `r` on that the scrubber reads: the first one of each enabled region that is not
initializing, and the spare row (R322). -/
def State.scrubRows (s : State) (d b r : Nat) : List Nat :=
  if s.mappedOut d (b / 16) then []
  else
    ((List.range 64).filterMap (fun n =>
      let e := s.regionWords n
      if e.en && !s.initPending n && e.devmask.testBit d && e.chmask.testBit (b / 16) && e.bankmask.testBit (b % 16)
          && decide (max e.firstrow r ≤ e.lastrow) then some (max e.firstrow r) else none))
      ++ (if r ≤ s.spareRow d then [s.spareRow d] else [])

/-- The next row of device `d` in the order channel, bank, row, from place `at_` on (R322). -/
def State.scrubNext (s : State) (d at_ : Nat) : Option RowLoc :=
  (List.range 64).findSome? (fun b =>
    if b < at_ / 32768 then none
    else ((s.scrubRows d b (if b = at_ / 32768 then at_ % 32768 else 0)).min?).map (fun r => ⟨d, b / 16, b % 16, r⟩))

/-! ### Bad lines -/

/-- The shards of the loaded plan that a unit-table line serves; of a row whose metadata is bad, those of the whole row. -/
def State.unitShards (s : State) (p : Plan) (x : LineLoc) (whole : Bool) : List Nat :=
  ((p.allEntries.filter (fun e => e.1.units.any (fun u => (s.unitLines p u).any (fun y =>
    y == x || (whole && y.loc == x.loc))))).map (·.1.shard)).eraseDups

/-- The row holds part of the loaded plan image or its mark. -/
def State.imageRowOf (s : State) (p : Plan) (l : RowLoc) : Bool :=
  (List.range ((p.hdr.imageLen + p.hdr.markLen + 1919) / 1920)).any (fun u => (s.regionWords p.region).unitRow u == l)

/-- Shards found lost by the scrubber, and the hold (R323, R336). -/
def State.scrubLoss (s : State) (hs : List Nat) : State :=
  (hs.foldl (fun s h => s.loseShard .scrubber h 0x09) s).holdFor 0x09

/-- What an uncorrectable line that the scrubber finds does (R323); `whole` when the row's metadata is bad (log entry 89). -/
def State.scrubBad (s : State) (x : LineLoc) (whole : Bool) : State :=
  match s.plan.plan with
  | none => if s.isStateRow x.loc then s.scrubLoss [] else s
  | some p =>
    if s.isStateRow x.loc || (s.regionWords p.hdr.unitReg).names x.loc then
      let rows := (List.range p.shards.length).filter (fun h => (p.rowOfShard h x.loc).isSome)
      s.scrubLoss (rows ++ (s.unitShards p x whole).filter (fun h => !rows.contains h))
    else if s.imageRowOf p x.loc then s.holdFor 0x08
    else s

/-! ### Reading a row -/

/-- Read one VALID line: a corrected line is written back, counted in SCRUB_FIX (R322, R253; log entry 89). -/
def State.scrubLine (s : State) (x : LineLoc) : State :=
  let v := s.lineVal x
  let s := s.noteLine .scrubber x v
  match v with
  | .fixed d _ => ((s.charge 15 0 3 1).storeLine .buffered x d).bump Reg.SCRUB_FIX 1
  | .bad _ _ => (s.poisonBy x.loc v).scrubBad x false
  | .zero | .good _ | .poison _ _ | .far => s

/-- The line is held in a remap slot. -/
def State.lineRemapped (s : State) (x : LineLoc) : Bool := s.lineHome x != (x.loc, x.line)

/-- The lines that the scrubber finds in the spare row of a bank (R45, R46): those whose slots it holds, by their home places, and
the remap record once it has an entry (log entry 89). -/
def State.spareLines (s : State) (l : RowLoc) : List LineLoc :=
  ((s.bankEntries l.dev l.bankIx).map (fun e => (⟨l.at l.bank e.row, e.line⟩ : LineLoc))).eraseDups.filter
    (fun x => (s.validBits x.loc).testBit x.line)

/-- Read the remap record of a bank: its line is decoded without its row's metadata (R46; log entry 89). -/
def State.scrubRecord (s : State) (l : RowLoc) : State :=
  if (s.bankEntries l.dev l.bankIx).isEmpty then s
  else
    let x : LineLoc := ⟨l, 29⟩
    let (d, c) := s.lineStored x
    let r := rsDecode x.tag d c
    match r.status with
    | .clean => s
    | .corrected => ((s.corrected .scrubber x r.synd).storeLine .buffered x r.data).bump Reg.SCRUB_FIX 1
    | .uncorrectable => s.noteLine .scrubber x (.bad 0x02 r.synd)
    | .addrFault => s.noteLine .scrubber x (.bad 0x03 r.synd)

/-- Read the row: a spare row by its slots and its record, any other by its own VALID lines; a FAR row is skipped (R322). -/
def State.scrubRead (s : State) (l : RowLoc) : State :=
  if l.row = s.spareRow l.dev then
    ((s.spareLines l).foldl State.scrubLine (s.charge 15 (rowSectors [0, 1, 2, 3, 29] (2 ^ 30 - 1)) 0 1)).scrubRecord l
  else match s.rowMeta l with
    | none => ((s.noteLine .scrubber ⟨l, 0⟩ (.bad 0x05 0)).poisonBy l (.bad 0x05 0)).scrubBad ⟨l, 0⟩ true
    | some m =>
      if m.far then s
      else
        let xs := ((onBits 30 m.valid).map (fun k => (⟨l, k⟩ : LineLoc))).filter (fun x => !s.lineRemapped x)
        xs.foldl State.scrubLine (s.charge 15 (rowSectors (List.range 30) m.valid) 0 1)

/-! ### Laps -/

/-- The scrubber runs: enabled, in Run, Idle or Clover mode (R322). -/
def State.scrubs (s : State) : Bool :=
  s.flag Reg.SCRUB_EN && (s.get Reg.BSTAGE == 7 || s.get Reg.BSTAGE == 8) && !s.harebell && !s.inReset

/-- Set the scrubber's place in a device, and show it (R341). -/
def State.setScrub (s : State) (d at_ : Nat) : State :=
  let s : State := { s with fault := { s.fault with scrubPos := sparsePut 0 s.fault.scrubPos d at_ } }
  (((s.set Reg.SPOS_DEV d).set Reg.SPOS_CH (at_ / 32768 / 16)).set Reg.SPOS_BANK (at_ / 32768 % 16)).set Reg.SPOS_ROW (at_ % 32768)

/-- A device has been read through; with the last present one the lap ends (R322). -/
def State.scrubEnded (s : State) (d : Nat) : State :=
  let done := d :: s.fault.lapDone
  if ((List.range 24).filter s.present).all (fun x => done.contains x) then
    let s := s.set64 Reg.LAP_LO Reg.LAP_HI ((s.clock.tick + 2 ^ 64 - s.fault.lapStart) % 2 ^ 64)
    { s with fault := { s.fault with lapDone := [], scrubPos := [], lapStart := s.clock.tick } }
  else { s with fault := { s.fault with lapDone := done } }

/-- SCRUB_ROW (R322): the next row of a device, when its channel is idle; the lap's first row starts its time. -/
def execScrubRow (d : BitVec 5) (s : State) : Result :=
  let n := d.toNat
  let s' := s.retire
  if !s.scrubs || !s.present n || s.pins.selfRef || s.fault.lapDone.contains n then .next s
  else
    let s0 : State := if s.fault.lapDone.isEmpty && s.fault.scrubPos.isEmpty then
        { s with fault := { s.fault with lapStart := s.clock.tick } } else s
    match s.scrubNext n (s.scrubAt n) with
    | none => .next (s0.scrubEnded n)
    | some l =>
      if s'.dev.seqs.any (fun q => q.dev == n && q.ch == l.ch) then .next s
      else
        let at_ := l.bankIx * 32768 + l.row
        let s := (s0.scrubRead l).setScrub n (at_ + 1)
        .next (if (s.scrubNext n (at_ + 1)).isNone then s.scrubEnded n else s)

end Sys2Proof.Machine
end

