-- ==== Sys2Proof/Machine/Export.lean ====
section
/-! DEFINITION. Export and import of a shard (R309 to R314) and replay of recorded commits (R317). -/

namespace Sys2Proof.Machine

/-! ### Requests -/

/-- XGO or XIMP (R309): a request while one is pending is ignored; at a boundary it is taken at once, with its settings. -/
def State.askX (s : State) (imp : Bool) : State :=
  if s.req.x.isSome then s else s.modReq (fun r => { r with x := some (s.exportSettings imp) })

/-- A write to 0x0300 (R318; log entry 95). -/
def State.writeX (s : State) (v : Word) : State :=
  s.onWrite 0x0300 v (fun s => whenBit v 30 (fun s => s.askX true) (whenBit v 31 (fun s => s.askX false) s))

/-- XGO. -/
def execXgo (v : Word) (s : State) : Result := .next (s.writeX v)
/-- XIMP. -/
def execXimp (v : Word) (s : State) : Result := .next (s.writeX v)

/-- A request is over (R318): XCODE, XDONE, PX_IRQ[7]; a held GO may go on. -/
def State.endX (s : State) (code : Nat) : State :=
  let s := (s.modReq (fun r => { r with x := none })).modTier (fun t => { t with pieces := [] })
  (((s.set Reg.XCODE code).setFlag Reg.XDONE true).raise 7).releaseGo

/-- A request may run: at a step boundary, with the mover idle (R309; log entry 98). -/
def State.mayTransfer (s : State) : Bool := s.atBoundary && !s.inReset && !s.harebell && s.tier.queue.isEmpty

/-! ### A shard's units and rows -/

/-- Put a number into a rising list, once. -/
def insertOnce (n : Nat) : List Nat → List Nat
  | [] => [n]
  | x :: t => if n < x then n :: x :: t else if n = x then x :: t else x :: insertOnce n t

/-- The units of a shard in ascending order (R311). -/
def Plan.shardUnits (p : Plan) (h : Nat) : List Nat :=
  (p.allEntries.filter (fun e => e.1.shard == h)).foldl (fun l e => e.1.units.foldl (fun l u => insertOnce u l) l) []

/-- Where a far-homed shard's rows stand (R297). -/
def Plan.farHome (p : Plan) (h : Nat) : Option Nat := (p.far.find? (·.shard == h)).map (·.slot0)

/-- Row `r` of a record: lines as read, padding positions zero (R311). -/
def padRow (elems r : Nat) (ls : List (List Byte)) : List Byte :=
  ls.zipIdx.flatMap (fun x => (List.range 64).map (fun b =>
    if elems ≤ 160 * r + 16 * (x.2 % 10) + b / 4 then 0 else x.1.getD b 0))

/-- What has been collected for a record: bytes, whether every line gave data, state. -/
structure XAcc where
  bytes : List Byte
  ok    : Bool
  s     : State

/-- Collect the first `n` lines of a near row (log entry 96). -/
def XAcc.near (a : XAcc) (elems r n : Nat) (l : RowLoc) : XAcc :=
  if !a.ok then a
  else
    let xs := (List.range n).map (fun k => (⟨l, k⟩ : LineLoc))
    let (vs, s) := xs.foldl (fun (acc : List LineVal × State) x =>
      let (v, s) := acc.2.fetchLine .exportImport x
      (acc.1 ++ [v], s)) ([], a.s.chargeReads 14 xs)
    if vs.any LineVal.isBad then { a with ok := false, s := s }
    else ⟨a.bytes ++ padRow elems r (vs.map (fun v => (v.bytes?).getD [])), true, s⟩

/-- Far data that export or import cannot read (R295, R298, R319; log entry 98): class 0x03 for an address fault, or 0x02. -/
def State.noteFar (s : State) (cause slot : Nat) : State :=
  s.log_ (if cause = 1 then 0x03 else 0x02) .exportImport (ErrInfo.plain slot)

/-- Collect the first `n` lines of a far row from its 32 pieces. -/
def XAcc.far (a : XAcc) (elems r n slot : Nat) (ps : List FarPiece) : XAcc :=
  if !a.ok then a
  else match (if ps.any (·.poison) then .inr 2 else farDecode slot (ps.flatMap (fun x => bytesOfLine x.data))) with
    | .inr c => { a with ok := false, s := a.s.noteFar c slot }
    | .inl f =>
      let s := if f.fixed = 0 then a.s else (a.s.bump Reg.CE_TOTAL f.fixed).setFlag Reg.CE_ANY true
      let ls := (List.range n).map (fun k => (sparseFind f.lines k).getD (List.replicate 64 0))
      ⟨a.bytes ++ padRow elems r ls, true, s⟩

/-- The records of a list of units; none when one cannot be read. -/
def State.unitRecs (s : State) (p : Plan) (us : List Nat) : Option (List (Nat × UnitRec)) × State :=
  us.foldl (fun (acc : Option (List (Nat × UnitRec)) × State) u =>
    match acc.1 with
    | none => acc
    | some l =>
      match acc.2.readUnit .exportImport p u with
      | (some r, s) => (some (l ++ [(u, r)]), s)
      | (none, s) => (none, s)) (some [], s)

/-! ### The record -/

/-- A unit's fields in a record (R310, R311). -/
def unitField (x : Nat × UnitRec) : List Byte :=
  leBytes 4 x.1 ++ leBytes 4 x.2.count ++ leBytes 4 x.2.pow1.toNat ++ leBytes 4 x.2.pow2.toNat

/-- The unit trailer, padded to a multiple of 64 (R311). -/
def unitTrailer (us : List (Nat × UnitRec)) : List Byte :=
  let b := (us.drop 1).flatMap unitField
  takePad ((b.length + 63) / 64 * 64) b

/-- The bytes of a shard's rows in a record (R311). -/
def rowBytesOf (h : ShardCfg) (cont : Nat) : Nat := h.nrows * (640 * (cont + 1))

/-- BODYLEN of a record (R310, R311). -/
def bodyLen (h : ShardCfg) (cont units : Nat) : Nat := rowBytesOf h cont + (16 * (units - 1) + 63) / 64 * 64

/-- The header of a record (R310). -/
def recordHeader (h : ShardCfg) (shard cont g : Nat) (us : List (Nat × UnitRec)) (dig : DWord) : List Byte :=
  leBytes 4 0x5A525831 ++ leBytes 4 (2 ^ 24 + cont % 16 * 2 ^ 20 + shard % 2 ^ 16) ++ leBytes 4 h.tensorId
    ++ leBytes 4 h.base ++ leBytes 4 (h.base / 2 ^ 32) ++ leBytes 4 h.elems ++ leBytes 8 g
    ++ unitField (us.headD (0, ⟨0, 0, 0⟩)) ++ leBytes 4 us.length ++ leBytes 4 (bodyLen h cont us.length)
    ++ leBytes 8 dig.toNat

/-! ### The other end -/

/-- The region of the other end may be used (R309): class weight or activation, enabled, readable and writable as the block's own
unit (R36). -/
def State.otherEnd (s : State) (x : XReq) (len : Nat) : Bool :=
  if x.far then decide (x.off % 2 ^ 32 * 2048 + len ≤ s.get Reg.TIER_SLOTS * 2048)
  else
    let e := s.regionWords x.reg
    e.en && (decide (e.cls = .weight) || decide (e.cls = .activation)) && !s.initPending x.reg && !s.zeroizing x.reg
      && decide (x.off + len ≤ e.size)

/-- Ask for pieces `a` to `a + n − 1` counted from a far slot. -/
def State.askFar (s : State) (slot0 a n : Nat) : State :=
  (List.range n).foldl (fun s k => s.emit (.tierRead (slot0 + (a + k) / 32) ((a + k) % 32))) s

/-- The first `n` pieces from a far slot, if all have returned (log entry 98). -/
def State.farPieces (s : State) (slot0 n : Nat) : Option (List FarPiece) :=
  let ps := (List.range n).filterMap (fun k => s.tier.pieces.find? (fun y => y.slot == slot0 + k / 32 && y.piece == k % 32))
  if ps.length = n then some ps else none

/-- Send bytes to the window from a far slot on (log entries 15, 98). -/
def State.writeFar (s : State) (slot0 : Nat) (b : List Byte) : State :=
  (List.range (b.length / 64)).foldl (fun s k =>
    s.emit (.tierWrite (slot0 + k / 32) (k % 32) (lineOfBytes ((b.drop (64 * k)).take 64)))) s

/-- Write bytes at `o` of a record to its near end: whether every line took its write. -/
def State.sendNear (s : State) (x : XReq) (o : Nat) (b : List Byte) : Bool × State :=
  let e := s.regionWords x.reg
  (s.chargeWrites 14 ((lineWrites e (x.off + o) b).map (·.1))).storeBytesOk .exportImport e (x.off + o) b

/-- Write a record, whose DIGEST field is zero in `b`, to the other end, and last of all its digest (R312): whether every line took
its write; far writes wait for their completions. -/
def State.sendRecord (s : State) (x : XReq) (b : List Byte) (dig : DWord) : Bool × State :=
  if x.far then
    let slot := x.off % 2 ^ 32
    (true, ((s.writeFar slot b).writeFar slot ((spliceBytes b 0x38 (leBytes 8 dig.toNat)).take 64)).modX (fun y => { y with
      phase := 2, slot0 := slot, pieces := b.length / 64, left := b.length / 64 + 1, failed := false }))
  else
    match s.sendNear x 0 b with
    | (false, s) => (false, s)
    | (true, s) => s.sendNear x 0x38 (leBytes 8 dig.toNat)

/-- Write what an export that halts has collected (R314): nothing writes its digest (log entry 96). -/
def State.sendHalted (s : State) (x : XReq) (b : List Byte) : State :=
  if x.far then s.writeFar (x.off % 2 ^ 32) b else (s.sendNear x 0 b).2

/-! ### Export -/

/-- The code that refuses an export (R318): plan and shard, CONTENT, the other end, the tier channel (log entry 95). -/
def State.exportRefusal (s : State) (x : XReq) : Option Nat :=
  match s.plan.plan.bind (fun p => (p.shardCfg? x.shard).map (fun h => (p, h))) with
  | none => some 0x01
  | some (p, h) =>
    if 2 < x.cont then some 0x07
    else if !s.otherEnd x (64 + bodyLen h x.cont (p.shardUnits x.shard).length) then some 0x02
    else if (x.far || (p.farHome x.shard).isSome) && !s.tierOpen then some 0x08
    else none

/-- A record is complete: XLEN and XDIG show it (R312; log entry 96). -/
def State.showRecord (s : State) (len : Nat) (dig : DWord) : State :=
  (s.set Reg.XLEN len).set64 Reg.XDIG_LO Reg.XDIG_HI dig.toNat

/-- The record is written from what was collected (R310 to R312, R314): without its digest when a line could not be read
(log entry 96). -/
def State.exportOut (s : State) (p : Plan) (x : XReq) (h : ShardCfg) (us : List (Nat × UnitRec)) (rows : XAcc) : State :=
  let blank := recordHeader h x.shard x.cont s.stepG us 0
  if !rows.ok then (rows.s.sendHalted x (blank ++ rows.bytes)).endX 0x03
  else
    let body := rows.bytes ++ unitTrailer us
    let dig := recordDigest (blank ++ body)
    let (ok, s) := rows.s.sendRecord x (blank ++ body) dig
    if !ok then s.endX 0x03
    else
      let s := s.showRecord (64 + body.length) dig
      if x.far then s else s.endX 0x00

/-- Collect the rows of a shard and write the record; `ps` are the far pieces of a far-homed shard (log entry 96). -/
def State.exportRows (s : State) (p : Plan) (x : XReq) (h : ShardCfg) (home : Option Nat) (ps : List FarPiece) : State :=
  match s.unitRecs p (p.shardUnits x.shard) with
  | (none, s) => s.endX 0x03
  | (some us, s) =>
    let n := 10 * (x.cont + 1)
    let rows := (List.range h.nrows).foldl (fun (a : XAcc) r =>
      match home with
      | some f => a.far h.elems r n (f + r) ((ps.drop (32 * r)).take 32)
      | none => a.near h.elems r n (p.shardRow x.shard r)) ⟨[], true, s⟩
    s.exportOut p x h us rows

/-- EXPORT_RUN (R309 to R314): near rows are read at once; a far-homed shard's image is asked for, and the record is written once
it has come; far writes end the export with their completions. -/
def execExportRun (s : State) : Result :=
  match s.req.x with
  | some x =>
    if x.imp || !s.mayTransfer then .next s
    else match x.phase with
      | 0 =>
        match s.exportRefusal x, s.plan.plan with
        | some c, _ => .next (s.endX c)
        | none, none => .next (s.endX 0x01)
        | none, some p =>
          match p.shardCfg? x.shard, p.farHome x.shard with
          | none, _ => .next (s.endX 0x01)
          | some h, some f =>
            .next ((s.askFar f 0 (32 * h.nrows)).modX (fun y => { y with phase := 1, slot0 := f, pieces := 32 * h.nrows }))
          | some h, none => .next (s.exportRows p x h none [])
      | 1 =>
        if x.failed then .next (s.endX 0x08)
        else match s.farPieces x.slot0 x.pieces, s.plan.plan.bind (fun p => (p.shardCfg? x.shard).map (fun h => (p, h))) with
          | some ps, some (p, h) => .next ((s.modTier (fun t => { t with pieces := [] })).exportRows p x h (some x.slot0) ps)
          | _, _ => .next s
      | _ => if x.failed then .next (s.endX 0x08) else if x.left = 0 then .next (s.endX 0x00) else .next s
  | none => .next s

/-! ### Import: the first pass -/

/-- MAGIC or VER differs (R313). -/
def badMagic (b : List Byte) : Bool := leAt b 0 4 != 0x5A525831 || leAt b 7 1 != 1

/-- The length of the record that a header announces. -/
def importLen (b : List Byte) : Nat := 64 + leAt b 0x34 4

/-- The unit ids of a record: the header's, then the trailer's (R310, R311). -/
def importUnits (b : List Byte) (rows : Nat) : List (Nat × UnitRec) :=
  let n := leAt b 0x30 4
  let at_ (o : Nat) : Nat × UnitRec := (leAt b o 4, ⟨leAt b (o + 4) 4, wordOf b (o + 8), wordOf b (o + 12)⟩)
  if n = 0 then [] else at_ 0x20 :: (List.range (min (n - 1) (b.length / 16))).map (fun i => at_ (64 + rows + 16 * i))

/-- The digest of a record as read (R312). -/
def importDigest (b : List Byte) : DWord := recordDigest (spliceBytes b 0x38 (List.replicate 8 0))

/-- The code that refuses a whole record (R313; log entry 95). -/
def Plan.importRefusal (p : Plan) (b : List Byte) : Option Nat :=
  let shard := leAt b 4 2
  let cont := wordFld b 4 23 20
  if b.length % 64 != 0 || (importDigest b).toNat != leAt b 0x38 8 then some 0x05
  else match p.shardCfg? shard with
    | none => some 0x01
    | some h =>
      let us := p.shardUnits shard
      if 2 < cont then some 0x07
      else if leAt b 8 4 != h.tensorId || leAt b 0x0C 6 != h.base || leAt b 0x14 4 != h.elems % 2 ^ 32
          || leAt b 0x30 4 != us.length || b.length != 64 + bodyLen h cont us.length
          || ((importUnits b (rowBytesOf h cont)).map (·.1)) != us then some 0x06
      else none

/-! ### Import: the second pass -/

/-- Write one near row of a record whole (R313); a row on a mapped-out channel takes no write (log entry 97). -/
def State.importNear (s : State) (l : RowLoc) (lines : List (Nat × List Byte)) : State :=
  if s.mappedOut l.dev l.ch then s
  else
    let s := (s.awaitPair l).chargeWrites 14 (lines.map (fun x => ⟨l, x.1⟩))
    s.putLines .buffered l lines { Meta.fresh 0 with remap := s.rowRemapped l }

/-- Write one row of a far-homed shard as a far image (R313). -/
def State.importFar (s : State) (slot : Nat) (lines : List (Nat × List Byte)) : State :=
  let m : Meta := { Meta.fresh 0 with valid := 2 ^ lines.length - 1 }
  let (b, s) := s.farImage slot m lines
  s.writeSlotFar slot b

/-- The unit records under an import, and ODIG (R60, R313; log entry 97). -/
def State.importUnit (s : State) (p : Plan) (cont : Nat) (x : Nat × UnitRec) : State :=
  let (old, s) := match s.readUnit .exportImport p x.1 with
    | (some r, s) => (r, s)
    | (none, s) =>
      let (v, s) := s.free
      (⟨v.toNat % 2 ^ 32, x.2.pow1, x.2.pow2⟩, s)
  let new : UnitRec := if cont = 2 then x.2 else { old with count := 0 }
  let d := BitVec.ofNat 64 (s.get64 Reg.ODIG_LO Reg.ODIG_HI)
    + p.odigWeight x.1 * (digestTerm x.1 new.count - digestTerm x.1 old.count)
  (s.writeUnit .exportImport p x.1 new).set64 Reg.ODIG_LO Reg.ODIG_HI d.toNat

/-- The rows of a record with their lines. -/
def importLines (b : List Byte) (cont r : Nat) : List (Nat × List Byte) :=
  let n := 10 * (cont + 1)
  (List.range n).map (fun k => (k, (b.drop (64 + 64 * (n * r + k))).take 64))

/-- The import has succeeded: its shard leaves the shard-loss list (R337). -/
def State.importDone (s : State) (shard : Nat) : State := (s.dropLosses (· == shard)).endX 0x00

/-- The second pass fails (R313, R336): the shard is lost and the hold follows (log entry 97). -/
def State.importFailed (s : State) (shard code : Nat) : State := (s.loseShard .exportImport shard 0x05).endX code

/-- The second pass writes rows, unit records and ODIG; far images wait for their completions. -/
def State.importWrite (s : State) (p : Plan) (b : List Byte) : State :=
  let shard := leAt b 4 2
  let cont := wordFld b 4 23 20
  match p.shardCfg? shard with
  | none => s.endX 0x01
  | some h =>
    let s := (List.range h.nrows).foldl (fun (s : State) r =>
      match p.farHome shard with
      | some f => s.importFar (f + r) (importLines b cont r)
      | none => s.importNear (p.shardRow shard r) (importLines b cont r)) s
    let s := (importUnits b (rowBytesOf h cont)).foldl (fun s x => s.importUnit p cont x) s
    match p.farHome shard with
    | some f => s.modX (fun y => { y with
        phase := 2, shard := shard, slot0 := f, pieces := 32 * h.nrows, left := 32 * h.nrows, failed := false })
    | none => s.importDone shard

/-- The first pass has the whole record (R313): it is refused, or the second pass follows; a record in the tier window is read
again for it (log entry 97). -/
def State.importChecked (s : State) (p : Plan) (x : XReq) (b : List Byte) : State :=
  match p.importRefusal b with
  | some c => s.endX c
  | none =>
    if (p.farHome (leAt b 4 2)).isSome && !s.tierOpen then s.endX 0x08
    else if x.far then
      ((s.modTier (fun t => { t with pieces := [] })).askFar x.slot0 0 x.pieces).modX
        (fun y => { y with phase := 3, shard := leAt b 4 2 })
    else s.importWrite p b

/-- Read the record of an import from its region (R313). -/
def State.importNearRecord (s : State) (p : Plan) (x : XReq) : State :=
  let e := s.regionWords x.reg
  let (hd, ok, s) := s.fetchBytes .exportImport e x.off 64
  if !ok then s.endX 0x03
  else if badMagic hd then s.endX 0x04
  else if !s.otherEnd x (importLen hd) then s.endX 0x02
  else
    let s := s.chargeReads 14 ((lineWrites e x.off (List.replicate (importLen hd) 0)).map (·.1))
    let (b, ok, s) := s.fetchBytes .exportImport e x.off (importLen hd)
    if !ok then s.endX 0x03 else s.importChecked p x b

/-- The first pass over a record in the tier window (R313): its header's piece first, then all of it. -/
def State.importFarRecord (s : State) (p : Plan) (x : XReq) (ps : List FarPiece) : State :=
  let b := ps.flatMap (fun y => bytesOfLine y.data)
  if ps.any (·.poison) then (s.noteFar 2 x.slot0).endX 0x03
  else if badMagic b then s.endX 0x04
  else if !s.otherEnd x (importLen b) then s.endX 0x02
  else
    let n := (importLen b + 63) / 64
    if x.pieces < n then (s.askFar x.slot0 x.pieces (n - x.pieces)).modX (fun y => { y with pieces := n })
    else s.importChecked p x (b.take (importLen b))

/-- IMPORT_RUN (R313; log entry 95). -/
def execImportRun (s : State) : Result :=
  match s.req.x, s.plan.plan with
  | some x, some p =>
    if !x.imp || !s.mayTransfer then .next s
    else match x.phase with
      | 0 =>
        if !s.otherEnd x 64 then .next (s.endX 0x02)
        else if !x.far then .next (s.importNearRecord p x)
        else if !s.tierOpen then .next (s.endX 0x08)
        else .next ((s.askFar (x.off % 2 ^ 32) 0 1).modX (fun y => { y with phase := 1, slot0 := x.off % 2 ^ 32, pieces := 1 }))
      | 1 =>
        if x.failed then .next (s.endX 0x08)
        else match s.farPieces x.slot0 x.pieces with
          | some ps => .next (s.importFarRecord p x ps)
          | none => .next s
      | 3 =>
        if x.failed then .next (s.importFailed x.shard 0x08)
        else match s.farPieces x.slot0 x.pieces with
          | some ps =>
            let b := ps.flatMap (fun y => bytesOfLine y.data)
            if ps.any (·.poison) then .next ((s.noteFar 2 x.slot0).importFailed x.shard 0x03)
            else .next ((s.modTier (fun t => { t with pieces := [] })).importWrite p (b.take (importLen b)))
          | none => .next s
      | _ =>
        if x.failed then .next (s.importFailed x.shard 0x08)
        else if x.left = 0 then .next (s.importDone x.shard)
        else .next s
  | some x, none => if !x.imp || !s.mayTransfer then .next s else .next (s.endX 0x01)
  | none, _ => .next s

/-! ### Replay -/

/-- RGO (R317): a request while one is pending is ignored. -/
def State.askReplay (s : State) : State :=
  if s.req.r.isSome then s else s.modReq (fun r => { r with r := some s.replaySettings })

/-- RGO. -/
def execRgo (v : Word) (s : State) : Result := .next (s.onWrite 0x0320 v (whenBit v 31 State.askReplay))

/-- A replay is over (R318; log entry 99). -/
def State.endReplay (s : State) (code : Nat) : State :=
  ((((s.modReq (fun r => { r with r := none })).set Reg.RCODE code).setFlag Reg.RDONE true).raise 7).releaseGo

/-- The row of the weight slot that a replay writes: RROW + 1 of bank 2·RK + 1. -/
def RReq.slotRow (x : RReq) : RowLoc := x.loc.at (x.loc.bank + 1) (x.loc.row + 1)

/-- The row of the sector copy: RROW of bank 2·RK + 1. -/
def RReq.sectorRow (x : RReq) : RowLoc := x.loc.at (x.loc.bank + 1) x.loc.row

/-- A row of an enabled spare region. -/
def State.isSpareRow (s : State) (l : RowLoc) : Bool :=
  match s.regionOf l with
  | some n => decide ((s.regionWords n).cls = .spare)
  | none => false

/-- The code that refuses a replay (R317, R318). -/
def State.replayRefusal (s : State) (x : RReq) : Option Nat :=
  let e := s.regionWords x.reg
  if s.plan.plan.isNone then some 0x01
  else if !e.en || !decide (e.cls = .spare) || e.rows < 2 * (x.first + x.count) then some 0x02
  else if !([x.loc, x.sectorRow, x.slotRow].all s.isSpareRow) || !s.bit Reg.UDEV x.loc.dev
      || (x.bsu && !s.inService x.loc.dev) then some 0x09
  else none

/-- Lines `a` to `b − 1` of a row unit; none when one gives no data. -/
def State.unitRun (s : State) (e : RegionWords) (u a b : Nat) : Option (List (List Byte)) × State :=
  let xs := ((List.range b).drop a).map (fun k => (⟨e.unitRow u, k⟩ : LineLoc))
  let (vs, s) := xs.foldl (fun (acc : List LineVal × State) x =>
    let (v, s) := acc.2.fetchLine .replay x
    (acc.1 ++ [v], s)) ([], s.chargeReads 14 xs)
  (if vs.any LineVal.isBad then none else some (vs.map (fun v => (v.bytes?).getD [])), s)

/-- Write lines of a scratch row and make just these valid (log entry 99). -/
def State.putReplay (s : State) (l : RowLoc) (lines : List (List Byte)) : State :=
  let s := (s.awaitPair l).chargeWrites 14 ((List.range lines.length).map (fun k => ⟨l, k⟩))
  s.putLines .buffered l ((List.range lines.length).zip lines) { s.metaOr l with phase := 0, valid := 0, zeroed := false }

/-- Run the altered pass on the scratch rows; whether every line it met could be read (R317 step 4). -/
def State.replayPass (s : State) (p : Plan) (x : RReq) (consts : Line) (r : PassRow) : Bool × State :=
  if x.bsu then
    let bound := s.passBound x.loc x.loc.row r
    let s := s.openSeq x.loc x.loc.row 0 4 bound none
    let s := s.bsuPass x.loc x.loc.row consts r.line false
    let ok := ((s.bsu x.loc.dev x.loc.ch x.loc.pair).result).any (fun y => y.uel == 0 && !y.uex)
    (ok, (s.advance (s.clock.time + bound)).retire)
  else
    let (o, s) := s.runPass p.seedTable x.loc x.loc.row (PassConst.ofLine consts) r false
    (o.clean, s)

/-- A digest that differs from the recorded one (R317 step 5; log entry 99). -/
def State.replayMiss (s : State) (k : Nat) (miss : Bool) : State :=
  if !miss then s else (if s.get Reg.RMISS = 0 then s.set Reg.RFMISS k else s).bump Reg.RMISS 1

/-- Replay one record from its lines: state copy, operand line, constant line, sector, record word (R316, R317). -/
def State.replayRecord (s : State) (p : Plan) (x : RReq) (k : Nat) (st un : List (List Byte)) : Bool × State :=
  let w := un.getD 12 []
  let g16w := wordFld w 0x1C 3 3 == 1
  let consts := lineOfBytes (un.getD 1 [])
  let r := { PassRow.ofLine (lineOfBytes (un.getD 0 [])) with sect := 0, slot := 0, wrow := x.loc.row + 1 }
  let s := (s.putReplay x.loc st).putReplay x.sectorRow ((un.drop 2).take (if g16w then 10 else 5))
  match s.replayPass p x consts r with
  | (false, s) => (false, s)
  | (true, s) =>
    let ds := recordDigest (goodBytes (s.peekLines x.loc (List.range 30)))
    let s := s.replayMiss k (ds.toNat != leAt w 8 8)
    let dw := recordDigest (goodBytes (s.peekLines x.slotRow (List.range (EmFmt.ofCode r.fmt).lines)))
    (true, if ruleSlot r.rule then s.replayMiss k (dw.toNat != leAt w 0x10 8) else s)

/-- Record `k` of a replay (R317): skipped, replayed, or unreadable (log entry 99). -/
def State.replayOne (s : State) (p : Plan) (x : RReq) (k : Nat) : Bool × State :=
  let e := s.regionWords x.reg
  match s.unitRun e (2 * k + 1) 0 13 with
  | (none, s) => (false, s)
  | (some un, s) =>
    let w := un.getD 12 []
    if wordFld w 0x1C 4 4 = 0 || leAt w 0 8 != x.step then (true, s.bump Reg.RSKIP 1)
    else match s.unitRun e (2 * k) 0 30 with
      | (none, s) => (false, s)
      | (some st, s) => s.replayRecord p x k st un

/-- REPLAY_RUN (R317): every record in order; a line that cannot be read ends the replay. A device that starts no sequence makes a
replay on its BSU wait (R278, R281; log entry 124). -/
def execReplayRun (s : State) : Result :=
  match s.req.r, s.plan.plan with
  | some x, plan =>
    if !s.mayTransfer then .next s
    else match s.replayRefusal x, plan with
      | some c, _ => .next (s.endReplay c)
      | none, none => .next (s.endReplay 0x01)
      | none, some p =>
        if x.bsu && s.mustWait x.loc 4 then .next s else
        let s := ((s.set Reg.RMISS 0).set Reg.RSKIP 0).set Reg.RFMISS 0
        let (ok, s) := (List.range x.count).foldl (fun (acc : Bool × State) i =>
          if acc.1 then acc.2.replayOne p x (x.first + i) else acc) (true, s)
        .next (s.endReplay (if ok then 0x00 else 0x03))
  | none, _ => .next s

end Sys2Proof.Machine
end

