-- ==== Sys2Proof/Machine/SelfTest.lean ====
section
/-! DEFINITION. Self-test (R373 to R378). -/

namespace Sys2Proof.Machine

/-- One response word through a MISR (R378). -/
def misrStep (m w : Word) : Word := (m <<< 1) ^^^ (if m.getLsbD 31 then 0x00400007 else 0) ^^^ w

/-- The signature of a sequence of response words (R378). -/
def misr (ws : List Word) : Word := ws.foldl misrStep 0xFFFFFFFF

/-- The signature of an instance: as the unit reports it, or that of its response words, which the manual does not give (log
entry 100). -/
def testSignature (sigs : List Word) (cls i : Nat) : Word := sigs.getD i (misr (Config.testResponses cls i))

/-- The expected signature of a class (R378). -/
def testExpected (cls : Nat) : Word :=
  match cls with
  | 0 => 0x6C1E93A5 | 1 => 0x0B7D4E12 | 2 => 0xD4A05F38 | 3 => 0x71C3E0B9 | 4 => 0x2E95C7D4 | 5 => 0xB83F12A6
  | 6 => bsuSignature | _ => 0x9F46B81D

/-- The instances of a class (R373). -/
def testInstances (cls : Nat) : Nat :=
  match cls with
  | 0 => 96 | 1 => 7 | 2 => 1 | 3 => 1 | 4 => 16 | 5 => 1 | 6 => 32 | _ => 4

/-- The rows under test of a class 6 test: row ST_ROW of the 64 banks of the device (R376). -/
def StReq.rows (r : StReq) : List RowLoc := (List.range 64).map (fun b => ⟨r.dev, b / 16, b % 16, r.row⟩)

/-- Some row under test lacks ZEROED (R365). -/
def State.rowsUnclean (s : State) (r : StReq) : Bool := r.rows.any (fun l => !(s.rowMeta l).any (·.zeroed))

/-- The rows under test lie in one enabled spare region (R375). -/
def State.rowsInSpare (s : State) (r : StReq) : Bool :=
  (List.range 64).any (fun n => s.enabled n && decide ((s.regionWords n).cls = .spare)
    && r.rows.all (s.regionWords n).names)

/-- The conditions of R375 in the order of its table: the first that fails (log entry 100). -/
def State.testRefusal (s : State) (r : StReq) : Option Nat :=
  if s.unitBusy r then some 0x02
  else if r.cls = 6 && s.fuses.lcs == 1 && s.rowsUnclean r then some 0x03
  else if 8 ≤ r.cls || ((r.cls == 6 || r.cls == 7) && !(decide (r.dev < 24) && s.present r.dev))
      || (r.cls == 6 && !(s.bit Reg.UDEV r.dev && s.get (Reg.PXB_REV r.dev) == 1)) then some 0x05
  else if r.cls = 6 && (decide (s.spareRow r.dev ≤ r.row) || (!s.spent && !s.rowsInSpare r)) then some 0x06
  else none

/-- What a test takes away while it runs (R374, R376): the cache of the sequencer, the tables and the test rows of a BSU group; the
layer engine is powered for its test in Idle. -/
def State.beginTest (s : State) (r : StReq) : State :=
  match r.cls with
  | 2 => { s with icache := ⟨[], none, none⟩ }
  | 3 => if s.get Reg.PSTATE = 1 then s.setFlag Reg.LE_ON true else s
  | 6 =>
    (List.range 32).foldl (fun s i =>
      s.modBsu r.dev (i / 8) (i % 8) (fun b => { b with seed := [], remap := [], remapHi := [], result := none })) s
  | _ => s

/-- A request is taken (R375): it ends with a code, or the test runs. -/
def State.takeTest (s : State) (r : StReq) : State :=
  match s.testRefusal r with
  | some c => s.endTest c
  | none => (s.modReq (fun q => { q with st := some { r with running := true } })).beginTest r

/-- ST_GO (R375, R406): refused with 0x04 while another request is pending or running; pending during a step; else taken. -/
def State.askTest (s : State) : State :=
  if s.req.st.isSome then s.set Reg.ST_CODE 0x04
  else
    let r : StReq := ⟨s.get Reg.ST_CLASS, s.get Reg.ST_DEV, s.get Reg.ST_ROW, false⟩
    if s.inRun && s.inStep then s.modReq (fun q => { q with st := some r }) else s.takeTest r

/-- ST_GO. -/
def execStGo (v : Word) (s : State) : Result := .next (s.onWrite 0x4000 v (whenBit v 31 State.askTest))

/-- SELF_TEST_START (R375): a pending request is taken at the boundary. -/
def execSelfTestStart (s : State) : Result :=
  match s.req.st with
  | some r => if r.running || (s.inRun && s.inStep) then .next s else .next (s.takeTest r)
  | none => .next s

/-- One TEST of a BSU in a class 6 test (R376): its ACTP opens the row under test of both banks, its sequence holds the pair for 16 us
with weight 4 (R278), and at its bound a BIST with READ = 1 reads the signature. A mapped-out channel gets none (R338). -/
def State.bistSeq (s : State) (r : StReq) (test i : Nat) (sig : Word) : State :=
  let (c, k) := (i / 8, i % 8)
  if s.mappedOut r.dev c then s
  else
    let s := (s.openSeq ⟨r.dev, c, 2 * k, r.row⟩ r.row 0 4 16000 none).charge 15 1 0 1
    s.runBist r.dev c k r.row test sig

/-- The three TESTs of a class 6 test, each over the 32 BSUs of the device (R376). -/
def State.bistAll (s : State) (r : StReq) (sigs : List Word) : State :=
  (List.range 3).foldl (fun s t => (List.range 32).foldl (fun s i => s.bistSeq r t i (testSignature sigs 6 i)) s) s

/-- What a test leaves of its unit (R374, R377): no cache line of the sequencer valid or locked, test data and reloaded tables of a
BSU group, the layer engine's power as it was. -/
def State.leaveTest (s : State) (r : StReq) (sigs : List Word) (pass : Bool) : State :=
  match r.cls with
  | 2 => { s with icache := ⟨[], none, none⟩ }
  | 3 => s.dropTestPower r
  | 6 =>
    let s := (s.bistAll r sigs).reloadTables r.dev
    if pass then s.setBit Reg.BSUPASS r.dev true else s
  | _ => s

/-- The first instance of a class whose signature differs from the expected one (R375, R378). -/
def firstMismatch (sigs : List Word) (cls : Nat) : Option Nat :=
  (List.range (testInstances cls)).find? (fun i => testSignature sigs cls i != testExpected cls)

/-- The sequences of a class 6 test may not start at the moment (R278, R281). -/
def State.testWaits (s : State) (r : StReq) : Bool := r.cls == 6 && s.mustWait ⟨r.dev, 0, 0, r.row⟩ 4

/-- SELF_TEST_DONE (R375): each instance's signature is compared with its class's; the first that differs is reported
(log entries 14, 100). A class 6 test whose sequences may not start goes on later (log entry 124). -/
def execSelfTestDone (sigs : List Word) (s : State) : Result :=
  match s.req.st with
  | some r =>
    if !r.running || s.testWaits r then .next s
    else
      let bad := firstMismatch sigs r.cls
      let s := s.leaveTest r sigs bad.isNone
      let s := ((s.set Reg.ST_SIG (testSignature sigs r.cls (bad.getD 0)).toNat).set Reg.ST_EXP (testExpected r.cls).toNat).set
        Reg.ST_INST (bad.getD 0)
      .next ((s.bump Reg.ST_RUNS 1).endTest (if bad.isNone then 0x00 else 0x01))
  | none => .next s

end Sys2Proof.Machine
end

