-- ==== Sys2Proof/Machine/Power.lean ====
section
/-! DEFINITION. Power states, lifecycle, debug sessions, zeroization and the root of trust's answers (R343 to R360, R366 to
R370). -/

namespace Sys2Proof.Machine

/-! ### Debug sessions -/

/-- A debug session above Quiet ends (R360): DBG_LVL Quiet, DBG_ENDED, PX_IRQ[6]. -/
def State.endSession (s : State) : State :=
  if s.get Reg.DBG_LVL = 0 then s else ((s.set Reg.DBG_LVL 0).setFlag Reg.DBG_ENDED true).raise 6

/-- A raise that waits for the root of trust is dropped (R370; log entry 111). -/
def State.dropRaise (s : State) : State := (s.rotDrop 2).setFlag Reg.DBG_PEND false

/-- A raise to level `l` (R360): by lifecycle at once, through the root of trust, or refused. -/
def State.raiseDebug (s : State) (l : Nat) : State :=
  match s.fuses.lcs, l with
  | _, 3 => s.setFlag Reg.DBG_REFUSED true
  | 0, _ => s.set Reg.DBG_LVL l
  | 1, 1 => if s.flag Reg.DBG_PEND then s else (s.setFlag Reg.DBG_PEND true).rotAsk 2 1
  | 2, 1 => s.set Reg.DBG_LVL 1
  | _, _ => s.setFlag Reg.DBG_REFUSED true

/-- What a write of DBG_REQ asks for (R360; log entry 111); in Harebell a raise is refused (R364). -/
def State.askDebug (s : State) : State :=
  let l := s.get Reg.DBG_REQ
  let cur := s.get Reg.DBG_LVL
  if s.harebell then (if cur < l then s.setFlag Reg.DBG_REFUSED true else s)
  else if cur < l then s.raiseDebug l
  else
    let s := if s.flag Reg.DBG_PEND then s.dropRaise else s
    if l = 0 then s.endSession else s.set Reg.DBG_LVL l

/-- A write to 0x4810. -/
def State.writeDebugControl (s : State) (v : Word) : State := s.onWrite 0x4810 v State.askDebug

/-- DBG_REQ. -/
def execDbgReq (v : Word) (s : State) : Result := .next (s.writeDebugControl v)

/-! ### Power requests -/

/-- What a write of PWR_REQ asks for (R344): Run from Idle at once, leaving Harebell through its exit, Idle and Harebell at the
boundary; a later request replaces one that waits (log entry 102). -/
def State.askPower (s : State) : State :=
  match s.get Reg.PWR_REQ, s.get Reg.PSTATE with
  | 3, _ => s
  | 2, 2 => s
  | n, 2 => s.modReq (fun r => { r with power := some n })
  | 0, 1 => (((s.modReq (fun r => { r with power := none })).set Reg.PSTATE 0).setFlag Reg.LE_ON true).raise 6
  | 0, _ => s.modReq (fun r => { r with power := none })
  | 1, 1 => s.modReq (fun r => { r with power := none })
  | n, _ => s.modReq (fun r => { r with power := some n })

/-- A write to 0x4820. -/
def State.writePower (s : State) (v : Word) : State := s.onWrite 0x4820 v (fun s => s.askPower.releaseGo)

/-- PWR_REQ. -/
def execPwrReq (v : Word) (s : State) : Result := .next (s.writePower v)

/-- A request is over: PX_IRQ[6]; a held GO may go on (log entry 102). -/
def State.endPower (s : State) : State := ((s.modReq (fun r => { r with power := none })).raise 6).releaseGo

/-- IDLE_ENTRY (R343, R345): at a step boundary the layer engine is powered down, but for a running test of it (log entry 102). -/
def execIdleEntry (s : State) : Result :=
  if s.req.power != some 1 || !s.atBoundary || s.inReset || s.harebell then .next s
  else
    let test := s.req.st.any (fun r => r.running && r.cls == 3)
    .next ((s.set Reg.PSTATE 1).setFlag Reg.LE_ON test).endPower

/-- The conditions that refuse a Harebell request (R346), in the order of their codes. -/
def State.harebellRefusal (s : State) : Option Nat :=
  if s.flag Reg.HELD || s.trapped then some 0x01
  else if s.flag Reg.CLOVER then some 0x02
  else if s.req.x.isSome || s.req.r.isSome || !s.req.repairs.isEmpty || s.remapDue || s.req.st.isSome || s.req.z.isSome then
    some 0x03
  else if s.exch.cnt.isSome then some 0x04
  else if !s.flag Reg.VKEEP_OK then some 0x05
  else if s.req.lc.isSome || (s.fuses.zpend && !s.spent) then some 0x06
  else none

/-- The fabric and tier ports signal not-ready (R386, R389). -/
def State.portsDown (s : State) : State := { s with pins := { s.pins with fRdy := 0, tierRdy := false } }

/-- The fabric and tier ports signal ready; the tier port only while TEN is set (R386, R396). -/
def State.portsUp (s : State) : State := { s with pins := { s.pins with fRdy := 0xFF, tierRdy := s.flag Reg.TEN } }

/-- The words latched for a second read are gone (R402, R405). -/
def State.dropLatches (s : State) : State := { s with cpLatch := [], dbgLatch := [] }

/-- Harebell entry (R347): debug ended, requests to the root of trust and a load dropped, buffer written through, ports down, the
summary of R349 in the keeper, self-refresh; a held GO is dropped with GO_REFUSED (log entry 103). -/
def State.enterHarebell (s : State) : State :=
  let s := s.endSession.rotClear.setFlag Reg.DBG_PEND false
  let s : State := { s with plan := { s.plan with load := none, pend := none } }
  let s := if s.step.goHeld then
      (s.modStep (fun t => { t with goHeld := false })).setFlag Reg.GO_REFUSED true else s
  let s := s.flushAll.portsDown.dropLatches
  let s : State := { s with
    keeper := some ⟨(s.log.map (·.logState)).getD 0, s.stepS⟩
    pins := { s.pins with selfRef := true } }
  (((s.set Reg.PSTATE 2).setFlag Reg.LE_ON false).modReq (fun r => { r with power := none })).raise 6

/-- HAREBELL_ENTRY (R346, R347): at a step boundary the request is refused with its code, or carried out (log entry 102). -/
def execHarebellEntry (s : State) : Result :=
  if s.req.power != some 2 || !s.atBoundary || s.inReset || s.harebell then .next s
  else match s.harebellRefusal with
    | some c => .next ((s.setFlag Reg.PWR_REFUSED true).set Reg.PWR_CODE c).endPower
    | none => .next s.enterHarebell

/-- HB_TEMP_SAMPLE (R351): in Harebell a reading above HB_TLIMIT sets HB_THERM and raises PX_IRQ[6] (log entry 110). -/
def execHbTempSample (celsius : Byte) (s : State) : Result :=
  if s.harebell && !s.inReset && decide (signedByte (BitVec.ofNat 8 (s.get Reg.HB_TLIMIT)) < signedByte celsius) then
    .next ((s.setFlag Reg.HB_THERM true).raise 6)
  else .next s

/-! ### The keeper and unloading -/

/-- The register offsets that the keeper holds outside the security and power block (R349). -/
def keptOffsets : List Nat :=
  [Reg.STEP_LO.off, Reg.STEP_HI.off, Reg.GSTEP_LO.off, Reg.GSTEP_HI.off, Reg.MAPPED_LO.off, Reg.MAPPED_MID.off,
    Reg.MAPPED_HI.off, Reg.OOS_REQ.off, Reg.OOS.off, Reg.REVIEW.off, Reg.BSU_REVIEW.off]

/-- The fields that the keeper holds in registers which hold others too (R349). -/
def keptKeys : List Nat := [Reg.OUTCOME.key, Reg.YLOG_REG.key, Reg.YLOG_UNIT.key]

/-- The plan is unloaded (R357): what runs under it goes, tables and lists with it, and a step in flight ends without outcome
(R75). -/
def State.unloadPlan (s : State) : State :=
  let s : State := { s with
    plan := ⟨none, none, none⟩
    seq := Seq.idle
    icache := ⟨[], none, none⟩
    step := StepState.empty
    exch := { Exchange.empty with ports := s.exch.ports, topoSeen := s.exch.topoSeen, topo := s.exch.topo }
    tier := TierState.empty
    yarrow := ⟨none, none⟩
    waits := [] }
  ((((s.set Reg.PHASE (if s.flag Reg.HELD then 7 else 0)).set Reg.LSTATE 0).set64 Reg.PLAN_ID_LO Reg.PLAN_ID_HI 0).set64
    Reg.PEND_ID_LO Reg.PEND_ID_HI 0).setFlag Reg.STALLED false

/-- Every region is disabled. -/
def State.disableAll (s : State) : State := (List.range 64).foldl State.disableRegion s

/-! ### Zeroization -/

/-- ZGO (R366): taken at once outside Run or at a boundary, else at the next one; ignored while one is pending or running
(log entry 103). -/
def State.askZero (s : State) : State :=
  if s.harebell || s.req.z.isSome then s
  else if s.inRun && s.inStep then s.modReq (fun r => { r with z := some ⟨s.get Reg.ZREG, false⟩ })
  else s.takeZero (s.get Reg.ZREG)

/-- ZGO. -/
def execZgo (v : Word) (s : State) : Result := .next (s.onWrite 0x482C v (whenBit v 31 State.askZero))

/-- The rows that a zeroization concerns: a region's, or all of the present devices'. -/
def State.zeroRows (s : State) (n : Nat) : List RowLoc :=
  if n = allRegions then
    ((List.range 24).filter s.present).flatMap (fun d => (List.range 64).flatMap (fun b =>
      (List.range (s.bankRows d)).map (fun r => ⟨d, b / 16, b % 16, r⟩)))
  else (s.regionWords n).allRows

/-- A spare row as the advance to Spent leaves it (R367): lines 0 to 28 zero, the remap record and its check word unchanged, VALID
bit 29 alone set, ZEROED set. -/
def State.zeroSpare (s : State) (l : RowLoc) : State :=
  let m : Meta := { Meta.fresh (((s.rowMeta l).map (·.kind)).getD 0) with valid := 2 ^ 29, zeroed := true }
  (((s.put .through l 0 (List.replicate (64 * 29) 0)).put .through l 0x780 (List.replicate (4 * 29) 0)).put .through l
    0x7F8 (leBytes 8 m.toWord.toNat)).charge 14 0 64 1

/-- Zeroize one row (R367): by the zero-row command of a BSU in service, whose result then shows the row, else by the
controller-side unit (log entry 90). -/
def State.zeroOne (s : State) (l : RowLoc) : State :=
  if l.row = s.spareRow l.dev then s.zeroSpare l
  else
    let s := (s.awaitPair l).retire
    if s.inService l.dev then
      let s := ((s.charge 14 0 2 1).flushPair l.dev l.ch l.pair).zeroRow l
      s.modBsu l.dev l.ch l.pair (fun b => { b with result := some (s.resultOf l PassOut.none) })
    else (s.charge 14 0 64 1).zeroRow l

/-- A row that `n` failing bursts meet (R369): a bank-side unit does not take the command of a burst that fails, so its row is left;
of a row that the controller-side unit writes, each sector whose burst fails is left (log entry 114). -/
def State.zeroFailing (s : State) (l : RowLoc) (n : Nat) : State :=
  let s := (List.range n).foldl (fun s _ => s.linkTrouble .other ⟨l, 0⟩ 4) s
  if s.inService l.dev && l.row != s.spareRow l.dev then s
  else
    let old := memReads s.mem l.addr (32 * n)
    s.zeroOne l |>.put .through l 0 old

/-- What a zeroization has done: rows zeroized, bursts failed, attempts that still fail. -/
structure ZeroRun where
  rows  : Nat
  errs  : Nat
  fails : Nat
  deriving DecidableEq, Repr

/-- The next row of a zeroization: each burst that fails takes 4 of the attempts that fail (R292, R369; log entry 114). -/
def State.zeroNext (x : ZeroRun × State) (l : RowLoc) : ZeroRun × State :=
  let (z, s) := x
  let most := if s.inService l.dev && l.row != s.spareRow l.dev then 1 else 64
  let n := min (z.fails / 4) most
  if n = 0 then ({ z with rows := z.rows + 1, fails := 0 }, (s.linkTrouble .other ⟨l, 0⟩ z.fails).zeroOne l)
  else ({ z with errs := z.errs + n, fails := z.fails - 4 * n }, s.zeroFailing l n)

/-- Zeroize rows (R367, R369): those on mapped-out channels are skipped and counted; bursts that fail after their retries are counted
in ZERR, and the rest goes on. -/
def State.zeroAll (s : State) (rows : List RowLoc) (linkFails : Nat) : State :=
  let skip := rows.filter (fun l => s.mappedOut l.dev l.ch)
  let work := rows.filter (fun l => !s.mappedOut l.dev l.ch)
  let (z, s) := work.foldl State.zeroNext (⟨0, 0, linkFails⟩, s.bump Reg.ZSKIP skip.length)
  (s.bump Reg.ZERR z.errs).set Reg.ZROWS z.rows

/-- ZEROIZE_RUN (R366 to R369): the rows are zeroized. -/
def execZeroizeRun (linkFails : Nat) (s : State) : Result :=
  match s.req.z with
  | none => .next s
  | some z =>
    if s.inReset || s.harebell || z.ran || (!s.flag Reg.ZBUSY && s.inStep) then .next s
    else
      let s := if s.flag Reg.ZBUSY then s else s.takeZero z.region
      if s.req.z.isNone then .next s
      else
        let s := s.zeroAll (s.zeroRows z.region) linkFails
        .next (s.modReq (fun r => { r with z := some { z with ran := true } }))

/-- ZCODE of a zeroization that has run (R369; log entry 113). -/
def State.zeroCode (s : State) : Nat :=
  if s.get Reg.ZERR != 0 then 0x04 else if s.get Reg.ZSKIP != 0 then 0x03 else 0x00

/-- The keeper's fields that the advance to Spent clears: the items of R349, but for what still shows the advance, the zeroization and
the power state (log entry 113). -/
def spentKey (k : Nat) : Bool :=
  keptOffsets.contains (k / 32) || keptKeys.contains k || [0x4814, 0x4818, 0x481C, 0x4824, 0x4850].contains (k / 32)

/-- The end of the advance to Spent (R357 step 4): the fuse is burnt, which ends a debug session (R360), and the keeper is cleared;
with link failures the advance ends with LC_CODE 0x05 and ZPEND stays (R355). -/
def State.endSpent (s : State) : State :=
  let s := s.modReq (fun r => { r with lc := none, lcMapped := .none })
  if s.get Reg.ZERR != 0 then (s.set Reg.LC_CODE 0x05).raise 6
  else
    let s := (if s.flag Reg.DBG_PEND then s.dropRaise else s).endSession.dropLatches
    let s : State := { s with
      fuses := { s.fuses with lcs := 2 }
      keeper := none
      regs := s.regs.filter (fun x => !spentKey x.1) }
    (s.set Reg.LC_CODE 0x00).raise 6

/-- ZEROIZE_DONE (R369): ZCODE, ZDONE, PX_IRQ[6]; the last step of an advance to Spent follows. -/
def execZeroizeDone (s : State) : Result :=
  match s.req.z with
  | some z =>
    if !z.ran then .next s
    else
      let s := ((((s.set Reg.ZCODE s.zeroCode).setFlag Reg.ZDONE true).setFlag Reg.ZBUSY false).modReq
        (fun r => { r with z := none })).raise 6
      .next (if z.region = allRegions then s.endSpent else s)
  | none => .next s

/-! ### Lifecycle -/

/-- Some channel is mapped out. -/
def State.anyMapped (s : State) : Bool :=
  s.get Reg.MAPPED_LO != 0 || s.get Reg.MAPPED_MID != 0 || s.get Reg.MAPPED_HI != 0

/-- The code that refuses an advance to `tgt` (R355; log entry 112). -/
def State.advanceRefusal (s : State) (tgt : Nat) : Option Nat :=
  if tgt != s.fuses.lcs + 1 || 2 < tgt then some 0x01
  else if s.req.lc.isSome || s.fuses.zpend || (s.inRun && s.inStep) then some 0x02
  else if tgt = 2 && s.anyMapped && s.req.lcMapped != .afterReset then some 0x04
  else none

/-- LC_ADV with LC_TGT `tgt` (R355): refused, or sent to the root of trust (log entries 103, 112). -/
def State.advance_ (s : State) (tgt : Nat) : State :=
  if s.harebell then s
  else match s.advanceRefusal tgt with
    | some c =>
      let s := if c = 0x04 then s.modReq (fun r => { r with lcMapped := .refused }) else s
      (s.setFlag Reg.LC_REFUSED true).set Reg.LC_CODE c
    | none => (s.modReq (fun r => { r with lc := some tgt })).rotAsk 3 tgt

/-- LC_ADV. -/
def execLcAdv (v : Word) (s : State) : Result :=
  .next (s.onWrite 0x480C v (whenBit v 27 (fun s => s.advance_ (bits v.toNat 26 25))))

/-- An accepted advance to Sealed (R356, R360): sessions end, the fuse is burnt (log entry 111). -/
def State.seal (s : State) : State :=
  let s := s.endSession
  let s : State := { s with fuses := { s.fuses with lcs := 1 } }
  ((s.modReq (fun r => { r with lc := none })).set Reg.LC_CODE 0x00).raise 6

/-- An accepted advance to Spent (R357 steps 1 to 3): ZPEND is burnt, plan and regions go, every row is to be zeroized
(log entry 113). -/
def State.beginSpent (s : State) : State :=
  let s := (if s.flag Reg.DBG_PEND then s.dropRaise else s).endSession.dropLatches
  let s : State := { s with fuses := { s.fuses with zpend := true } }
  (s.unloadPlan.disableAll).takeZero allRegions

/-! ### Answers of the root of trust -/

/-- What an answer to a request does (R370; log entry 112). -/
def State.rotAnswered (s : State) (r : RotReq) (accept : Bool) : State :=
  match r.kind with
  | 1 =>
    if accept then { s with plan := { s.plan with load := s.plan.load.map (fun l => { l with answer := some true }) } }
    else if s.plan.load.isSome then s.loadFailed 0x02 (0, 0) else s
  | 2 =>
    let s := s.setFlag Reg.DBG_PEND false
    if accept then s.set Reg.DBG_LVL r.item else s.setFlag Reg.DBG_REFUSED true
  | _ =>
    if !accept then (((s.modReq (fun q => { q with lc := none })).setFlag Reg.LC_REFUSED true).set Reg.LC_CODE 0x03).raise 6
    else if r.item = 1 then s.seal else s.beginSpent

/-- ROT_ANSWER (R370, R388): an answer whose tag is not the current one is ignored. The requests behind an accepted advance to Spent
are dropped with the plan and the session that they belong to. -/
def execRotAnswer (tag : Byte) (accept : Bool) (s : State) : Result :=
  match s.req.rot with
  | some r =>
    if r.tag != tag.toNat then .next s
    else
      let spent := accept && r.kind == 3 && r.item == 2
      let s := if spent then s.modReq (fun q => { q with rotQueue := [] }) else s
      .next (s.rotNext.rotAnswered r accept)
  | none => .next s

end Sys2Proof.Machine
end

