-- ==== Sys2Proof/Machine/BringUp.lean ====
section
/-! DEFINITION. Resets and rail losses (R394), bring-up from reset to Run (R293, R396, R397), the exit from Harebell (R352), and the
measured tick (R387). -/

namespace Sys2Proof.Machine

/-! ### Resets -/

/-- A field that a warm reset and a Harebell exit leave (R349, R350). -/
def keptKey (k : Nat) : Bool :=
  keptOffsets.contains (k / 32) || keptKeys.contains k || (decide (0x4800 ≤ k / 32) && decide (k / 32 ≤ 0x48FF))

/-- The fields of R350 that these events set. -/
def State.restoreKeeper (s : State) : State :=
  let ended := s.get Reg.DBG_LVL != 0
  let s := ((s.set Reg.DBG_LVL 0).set Reg.DBG_REQ 0).setFlag Reg.DBG_PEND false
  let s := if ended then s.setFlag Reg.DBG_ENDED true else s
  (s.setFlag Reg.ZBUSY false).setFlag Reg.BRK_HIT false

/-- The bytes of a row and of its slot row as they stood before the row's pass. -/
def State.unwritten (s : State) (l wl : RowLoc) (saved : List Host.Cell) : State :=
  let other := s.mem.filter (fun x => !(x.1 / 2048 == l.addr / 2048 || x.1 / 2048 == wl.addr / 2048))
  { s with mem := saved.foldl (fun m x => memWrite m x.1 x.2) other }

/-- A reset meets an entry in flight on the controller-side unit: the batches that the PHY holds are completed, and what the unit had
not handed over never reaches the device (R329; log entry 108). -/
def State.completeBatches (s : State) (p : Plan) (e : EntrySt) : State :=
  if e.st != .started || s.inService e.e.loc.dev then s
  else
    let l := e.e.loc
    let r := PassRow.ofLine e.operand
    let s := s.unwritten l (l.at (partnerBank l.bank) r.wrow) e.saved
    let o := s.computePass p.seedTable l e.prow (PassConst.ofLine e.consts) r
    if e.csuPhase = 0 || !o.clean || r.pass = 1 || r.rule = 10 then s
    else
      let s := s.writePhase1 l o
      if e.csuPhase = 1 && r.rule != 5 then s else s.writePhase2 l o

/-- The same for every entry of the step (log entry 11). -/
def State.completeWrites (s : State) : State :=
  match s.plan.plan with
  | none => s
  | some p => s.step.entries.foldl (fun s e => s.completeBatches p e) s

/-- A reset reaches the core (R394): batches at the PHY are completed, the write-combining buffer meets the reset, every register
outside the keeper and all that the core holds are cleared, a self-test ends (R375); `keep` is false where the keeper is cleared too (log entry 108). -/
def State.coreReset (s : State) (cause : Nat) (keep : Bool) : State :=
  let s := s.completeWrites.dropBuffer
  let s := (s.req.st.filter (·.running)).elim s s.dropTestPower
  let s := if keep then { s with regs := s.regs.filter (fun x => keptKey x.1) }.restoreKeeper
    else { s with regs := [], keeper := none }
  let s : State := { s with
    cpLatch := []
    dbgLatch := []
    fault := FaultState.empty
    plan := ⟨none, none, none⟩
    seq := Seq.idle
    icache := ⟨[], none, none⟩
    step := StepState.empty
    exch := Exchange.empty
    dev := { s.dev with seqs := [], starts := [], refresh := [] }
    regul := Regulators.reset
    tier := TierState.empty
    log := none
    yarrow := ⟨none, none⟩
    req := { Requests.empty with rotTag := s.req.rotTag, lcMapped := s.req.lcMapped }
    waits := []
    pins := { s.pins with tierUp := false } }
  s.set Reg.RST_CAUSE cause

/-- The reset is held: ports down, and 400 ns later the devices go into self-refresh (R386, R394). -/
def State.holdReset (s : State) (warm : Bool) : State :=
  let s := s.portsDown
  { s with pins := { s.pins with
      rstLow := s.pins.rstLow || !warm
      wrstLow := s.pins.wrstLow || warm
      selfRefAt := if s.pins.selfRef then none else some (s.clock.time + 400) } }

/-- A cold reset (R394): an advance to Spent refused for a mapped-out channel may be asked for again (R355). -/
def State.coldReset_ (s : State) (cause : Nat) : State :=
  ((s.coreReset cause false).modReq (fun r => { r with
    lcMapped := if r.lcMapped = .refused then .afterReset else r.lcMapped })).holdReset false

/-- A warm reset (R394); in Harebell it ends Harebell (log entry 104). -/
def State.warmReset_ (s : State) (cause : Nat) : State :=
  let hb := s.harebell
  let s := (s.coreReset cause true).holdReset true
  if hb then s.set Reg.PSTATE 0 else s

/-- POWER_ON (R394). -/
def execPowerOn (s : State) : Result := .next (s.coldReset_ 0x01)

/-- COLD_RESET (R394): PX_RST_N low. -/
def execColdReset (s : State) : Result := .next (s.coldReset_ 0x02)

/-- WARM_RESET (R394): PX_WRST_N low, ignored while PX_RST_N is low, and where only a cold reset follows (R353, R380; log
entry 104). -/
def execWarmReset (s : State) : Result := if s.pins.rstLow || s.coldOnly then .next s else .next (s.warmReset_ 0x03)

/-- VCORE_GOOD_LOSS (R394): outside Harebell as a warm reset, held until the rail is good again, while PX_RST_N is low too; in Harebell
VCORE may go (R347; log entry 105); where only a cold reset follows (R353, R380) nothing else changes. -/
def execVcoreGoodLoss (s : State) : Result :=
  if (s.harebell || s.coldOnly) && !s.inReset then .next (s.setFlag Reg.VCORE_OK false)
  else .next (s.warmReset_ 0x04)

/-- VKEEP_GOOD_LOSS (R394): the keeper is lost, as at power-on. -/
def execVkeepGoodLoss (s : State) : Result := .next (s.coldReset_ 0x01)

/-- VPHY_GOOD_LOSS (R394): outside Harebell as PX_RST_N low. -/
def execVphyGoodLoss (s : State) : Result :=
  if s.harebell && !s.inReset then .next (s.setFlag Reg.VPHY_OK false) else .next (s.coldReset_ 0x02)

/-- The keeper puts the devices into self-refresh. -/
def State.selfRefresh (s : State) : State :=
  match s.pins.selfRefAt with
  | none => s
  | some t =>
    let s := s.advance t
    { s with pins := { s.pins with selfRef := true, selfRefAt := none } }

/-- KEEPER_SELF_REFRESH (R329, R394): 400 ns after the reset. -/
def execKeeperSelfRefresh (s : State) : Result := .next s.selfRefresh

/-! ### Training -/

/-- The devices lose their contents: rows, the step log among them, and tables of the BSUs (R395; log entry 1). -/
def State.loseContents (s : State) : State :=
  { s with mem := [], wcb := [], dev := DeviceState.empty }

/-- Training begins (R293): stage 1 ends self-refresh, keeping the contents exactly when PX_MEMKEPT was high (R395;
log entries 1, 106, 107). -/
def State.beginTraining (s : State) : State :=
  let s := if s.flag Reg.MEMKEPT then s else s.loseContents
  let s : State := { s with
    pins := { s.pins with selfRef := false, selfRefAt := none }
    regul := { s.regul with rate := s.get Reg.RATE } }
  (s.set Reg.TSTATE 1).setFlag Reg.BFAIL false

/-- TRAIN (R293): ignored in Run, while training runs, and where only a cold reset follows (R353, R380; log entry 107). -/
def State.askTraining (s : State) : State :=
  if s.get Reg.BSTAGE < 2 || 7 ≤ s.get Reg.BSTAGE || s.get Reg.TSTATE = 1
      || s.coldOnly then s
  else s.beginTraining

/-- TRAIN. -/
def execTrain (v : Word) (s : State) : Result := .next (s.onWrite 0x8000 v (whenBit v 31 State.askTraining))

/-- The training cause of a device: its first stage that fails (R293). -/
def trainCause (t : TrainResult) : Nat :=
  if !t.responds then 1
  else if !t.nrzOk then 4
  else if t.clamshell then 2
  else if t.density != 24 && t.density != 32 then 3
  else if t.pxb.isNone then 6
  else if !t.pam3Ok || !t.loopOk then 5
  else 0

/-- A device that PHY training does not find. -/
def noDevice : TrainResult := ⟨false, false, false, 0, none, false, false⟩

/-- The device reached stage 3 of training, whose reads are good. -/
def trainRead (t : TrainResult) : Bool := trainCause t == 0 || trainCause t == 5

/-- A U-device: its identification word bears the signature (R267). -/
def trainIsU (t : TrainResult) : Bool := trainRead t && t.pxb.any (fun w => w.extractLsb' 16 16 == 0x5842)

/-- What training leaves of device `d` (R267, R293, R294). -/
def State.trained (s : State) (d : Nat) (t : TrainResult) : State :=
  let s := ((s.setBit Reg.PRESENT d t.responds).setBit Reg.UDEV d (trainIsU t)).setBit Reg.DENS32 d (trainRead t && t.density == 32)
  (s.set (Reg.TCAUSE d) (trainCause t)).set (Reg.PXB_REV d) (if (trainIsU t) then (t.pxb.getD 0).toNat % 256 else 0)

/-- Training has ended (R293): TSTATE 2 when every present device is trained, else 3. -/
def State.trainedAll (s : State) (found : List TrainResult) : State :=
  let ts := (List.range 24).map (fun d => found.getD d noDevice)
  let s := ts.zipIdx.foldl (fun s x => s.trained x.2 x.1) s
  s.set Reg.TSTATE (if ts.all (fun t => trainCause t == 0 || trainCause t == 1) then 2 else 3)

/-- TRAINING_DONE (R5, R293, R396): in stage 2 bring-up goes on; a training that fails stops bring-up in its stage with BFAIL, one
that TRAIN began in stages 3 to 6 too (log entries 14, 107). -/
def execTrainingDone (found : List TrainResult) (s : State) : Result :=
  if s.inReset || s.harebell || s.get Reg.TSTATE != 1 then .next s
  else
    let s := s.trainedAll found
    if s.get Reg.TSTATE != 2 then .next ((s.setFlag Reg.BFAIL true).raise 0)
    else .next (if s.get Reg.BSTAGE = 2 then s.set Reg.BSTAGE 3 else s)

/-! ### Core start and device setup -/

/-- What the start-up checker test finds (R379): the first pattern whose outcome is not as expected, on a decoder that is reported bad
or on every one of them. -/
def checkerFinding (c : Option CheckFail) : Option CheckFail :=
  c.or (firstBadPattern.map (fun i => ⟨BitVec.ofNat 8 i, 0⟩))

/-- The start-up checker test has ended (R379, R380). -/
def State.checkerDone (s : State) (c : Option CheckFail) : State :=
  let s := (s.set Reg.BSTAGE 1).setFlag Reg.CHK_DONE true
  match c with
  | none => s.set Reg.BSTAGE 2
  | some f =>
    (((((s.setFlag Reg.CHK_FAIL true).set Reg.CHK_PAT f.pattern.toNat).set Reg.CHK_UNIT f.unit.toNat).setFlag Reg.BFAIL true)).raise 0

/-- The core starts with its rails good; the regulators' first window begins (R410). -/
def State.startCore (s : State) : State :=
  let s := ((s.setFlag Reg.VCORE_OK true).setFlag Reg.VPHY_OK true).setFlag Reg.VKEEP_OK true
  { s with regul := { Regulators.reset with start := s.clock.time } }

/-- RESET_RELEASE (R394 to R396): every reset signal is high; PX_MEMKEPT is sampled, the checker test runs, training begins
(log entry 105). -/
def execResetRelease (memkept : Bool) (checker : Option CheckFail) (s : State) : Result :=
  if !s.inReset then .next s
  else
    let s := s.selfRefresh
    let s : State := { s with pins := { s.pins with rstLow := false, wrstLow := false, memkept := memkept } }
    let c := checkerFinding checker
    let s := (s.startCore.setFlag Reg.MEMKEPT memkept).checkerDone c
    .next (if c.isSome then s else s.beginTraining)

/-- The entries that a remap record holds (R45). -/
def recordEntries (d bank : Nat) (b : List Byte) : List RemapEntry :=
  ((List.range 4).filter (fun n => wordFld b (4 * n) 31 31 == 1)).map (fun n =>
    ⟨d, bank, n, wordFld b (4 * n) 30 16, wordFld b (4 * n) 15 11⟩)

/-- The controller and the BSU take a bank's remap entries (log entry 85). -/
def State.takeRecord (s : State) (d bank : Nat) (es : List RemapEntry) : State :=
  ({ s with fault := { s.fault with remap := s.fault.remap ++ es } } : State).loadIfServing d bank

/-- A bank's remap record is loaded into the controller and the BSU (R45, R46, R396); a record that cannot be read is logged and
gives no entries (log entry 85). -/
def State.setupBank (s : State) (d bank : Nat) : State :=
  if s.mappedOut d (bank / 16) then s
  else
    let x : LineLoc := ⟨s.spareOf d bank, 29⟩
    let st := s.lineStored x
    let r := rsDecode x.tag st.1 st.2
    let s := s.charge 15 3 0 1
    match r.status with
    | .clean => s.takeRecord d bank (recordEntries d bank r.data)
    | .corrected => (s.corrected .other x r.synd).takeRecord d bank (recordEntries d bank r.data)
    | .uncorrectable => s.noteLine .other x (.bad 0x02 r.synd)
    | .addrFault => s.noteLine .other x (.bad 0x03 r.synd)

/-- Every bank of every present device. -/
def State.setupBanks (s : State) : State :=
  ((List.range 24).filter s.present).foldl (fun s d => (List.range 64).foldl (fun s b => s.setupBank d b) s) s

/-- An advance to Spent that a reset interrupted is completed (R357 steps 2 to 4); how many bursts fail meanwhile is an open value
(R369; log entry 14). -/
def State.resumeSpent (s : State) : State :=
  if !s.fuses.zpend || s.spent then s
  else
    let s := (s.unloadPlan.disableAll).takeZero allRegions
    let (v, s) := s.free
    let s := (s.zeroAll (s.zeroRows allRegions) v.toNat).modReq (fun r => { r with z := none })
    ((((s.set Reg.ZCODE s.zeroCode).setFlag Reg.ZDONE true).setFlag Reg.ZBUSY false).raise 6).endSpent

/-- Device setup ends in stage 4 (R396): the ports are ready, PX_IRQ[0] is raised. -/
def State.enterConfig (s : State) : State :=
  (s.setupBanks.resumeSpent.set Reg.BSTAGE 4).portsUp.raise 0

/-- DEVICE_SETUP (R396): a failed training keeps bring-up in its stage (R5; log entry 107). -/
def execDeviceSetup (s : State) : Result :=
  if s.inReset || s.harebell || s.get Reg.BSTAGE != 3 || s.flag Reg.BFAIL then .next s else .next s.enterConfig

/-! ### Run -/

/-- Every row that the journal left near has been written out (R307). -/
def State.journalOut (s : State) : Bool := s.tier.dueQ.isEmpty && s.tier.moved.all (fun r => r.st == .out || r.st == .failed)

/-- ENTER_RUN (R307, R397): the conditions hold and the journal's rows are out; its entries are closed, and Run begins
(log entry 105). A failed training keeps bring-up in its stage (R5; log entry 107). -/
def execEnterRun (s : State) : Result :=
  if s.inReset || s.harebell || s.get Reg.BSTAGE != 6 || s.flag Reg.BFAIL || s.bwait != 0 || !s.journalOut then .next s
  else
    let s := s.closeJournal.modTier (fun t => { t with moved := [] })
    let s := if s.get Reg.PSTATE = 0 then s.setFlag Reg.LE_ON true else s
    .next (((s.set Reg.BSTAGE 7).raise 0).releaseGo)

/-- TICK_CHECK (R387): TICK_OK while the tick advances by 9,900 to 10,100 over 1,000 reference periods; a fall raises PX_IRQ[0]; a
tick that does not advance has stopped (log entry 109). -/
def execTickCheck (advance : Nat) (s : State) : Result :=
  if s.inReset || s.harebell then .next s
  else
    let ok := decide (9900 ≤ advance) && decide (advance ≤ 10100)
    let s' : State := { s with clock := { s.clock with ticking := advance != 0 } }
    let s' := s'.setFlag Reg.TICK_OK ok
    .next (if s.flag Reg.TICK_OK && !ok then s'.raise 0 else s')

/-! ### Leaving Harebell -/

/-- The core comes up from the keeper (R352 step 1; log entry 104). -/
def State.wake (s : State) : State := (s.coreReset 0x05 true).startCore.setFlag Reg.MEMKEPT true

/-- HAREBELL_EXIT (R352, R353): core start, training, remap entries, and the state requested, with no plan; a summary that shows a
commit phase reports a lost keeper. An exit that fails stays out of the state requested, and no other follows (log entry 104). -/
def execHarebellExit (checker : Option CheckFail) (found : List TrainResult) (s : State) : Result :=
  match s.req.power with
  | none => .next s
  | some want =>
    if !s.harebell || s.inReset || s.exitFailed then .next s
    else
      let lost := s.keeper.any (fun k => k.logState != 0)
      let c := checkerFinding checker
      let s := s.wake.checkerDone c
      if c.isSome then .next (s.raise 6)
      else
        let s := s.beginTraining.trainedAll found
        if s.get Reg.TSTATE != 2 then .next (((s.setFlag Reg.BFAIL true).raise 0).raise 6)
        else
          let s := if lost then s.set Reg.PWR_CODE 0x07 else s
          .next (((s.set Reg.PSTATE want).setFlag Reg.LE_ON (want == 0)).enterConfig.raise 6)

end Sys2Proof.Machine
end

