-- ==== Sys2Proof/Machine/Registers.lean ====
section
/-! DEFINITION. Register writes (R400, R403, R406) and the debug port (R359 to R362). -/

namespace Sys2Proof.Machine

/-! ### Registers whose writes have a condition of their own -/

/-- A plan with a far-homed shard is loaded (R296). -/
def State.farPlan (s : State) : Bool := s.plan.plan.any (fun p => !p.far.isEmpty)

/-- The far-tier port reports its link and window: PX_TIER_UP takes an open level (R318, R382; log entry 21). -/
def State.sampleTier (s : State) : State :=
  let (v, s) := s.free
  { s with pins := { s.pins with tierUp := v.getLsbD 0 } }

/-- A write to 0x0200: TEN stays under a plan with far-homed shards (R296); THALT clears only at a step boundary (R306). The tier
port is ready while TEN is set, from stage 4 on (R396; log entry 110), and reports its own link as it is then. -/
def State.writeTier (s : State) (v : Word) : State :=
  let v := if s.farPlan then (v &&& 0x7FFFFFFF) ||| BitVec.ofNat 32 ((s.get Reg.TEN) * 2 ^ 31) else v
  let v := if s.inStep then v &&& 0xDFFFFFFF else v
  s.onWrite 0x0200 v (fun s =>
    let s : State := { s with pins := { s.pins with tierRdy := s.flag Reg.TEN && decide (4 ≤ s.get Reg.BSTAGE) } }
    if s.flag Reg.TEN then s.sampleTier else s)

/-- THALT_CLEAR (log entry 110). -/
def execThaltClear (v : Word) (s : State) : Result := .next (s.writeTier v)

/-- TIER_SLOTS and TIER_BASE (R296). -/
def State.writeWindow (s : State) (off : Nat) (v : Word) : State := if s.farPlan then s else s.onWrite off v id

/-- Clearing PORT_FAIL of a port (R211): it returns to the rotations, or the bit sets again while the fabric still reports the port
failed, which an open value decides (log entry 22). -/
def State.retryPort (s : State) (n : Nat) : State :=
  if !s.pins.fFail.testBit n then s
  else
    let (x, s) := s.free
    if x.getLsbD 0 then s.setBit Reg.PORT_FAIL n true
    else { s with pins := { s.pins with fFail := s.pins.fFail - 2 ^ n } }

/-- A write to 0x5004 (log entry 22). -/
def State.writePortFail (s : State) (v : Word) : State :=
  let ns := (onBits 8 v.toNat).filter (fun n => s.bit Reg.PORT_FAIL n)
  s.onWrite 0x5004 v (fun s => (ns.foldl State.retryPort s).sendHeld)

/-- PORT_FAIL_CLEAR. -/
def execPortFailClear (v : Word) (s : State) : Result := .next (s.writePortFail v)

/-- A write to 0x481C (R362): with BRK_HIT clear a held GO goes on. -/
def State.writeBreak (s : State) (v : Word) : State := s.onWrite 0x481C v State.releaseGo

/-- BRK_HIT_CLEAR. -/
def execBrkHitClear (v : Word) (s : State) : Result := .next (s.writeBreak v)

/-- PC_CLR (R414): every performance counter is zero (log entry 117). -/
def State.clearCounters (s : State) : State :=
  let s := (List.range 25).foldl (fun s i => s.set64 (Reg.PC_LO i) (Reg.PC_HI i) 0) s
  (List.range 8).foldl (fun s n => s.set64 (Reg.PSECT_LO n) (Reg.PSECT_HI n) 0) s

/-- A write to 0x6000. -/
def State.writeCounterControl (s : State) (v : Word) : State := s.onWrite 0x6000 v (whenBit v 30 State.clearCounters)

/-- PC_CLR. -/
def execPcClr (v : Word) (s : State) : Result := .next (s.writeCounterControl v)

/-- The set of partitions breaks R412: its code (log entry 117). -/
def State.partitionsRefused (s : State) : Option Nat :=
  let g := (List.range 8).map (fun n => s.get (Reg.GUAR n))
  let c := (List.range 8).map (fun n => s.get (Reg.CAP n))
  if 256 < g.sum then some 0x01
  else if (g.zip c).any (fun x => decide (x.2 < x.1)) then some 0x02
  else if c.any (· == 0) || (g ++ c).any (fun x => decide (256 < x)) then some 0x03
  else none

/-- A write to a partition word or to SRCMAP (R412). -/
def State.writeRegulator (s : State) (off : Nat) (v : Word) : State :=
  if !s.served off then s
  else
    let t := s.writeFields off v.toNat
    match t.partitionsRefused with
    | some c => (s.setFlag Reg.REG_REFUSED true).set Reg.REG_CODE c
    | none => t

/-- The offset of a register that R412 checks. -/
def regulatorOff : RegulatorReg → Nat
  | .partition n => 0x1800 + 16 * n.toNat
  | .srcmapLo => 0x1880
  | .srcmapHi => 0x1884

/-- REGULATOR_WRITE. -/
def execRegulatorWrite (r : RegulatorReg) (v : Word) (s : State) : Result := .next (s.writeRegulator (regulatorOff r) v)

/-- A write to the remap mirror's selection or entries (R342, R406): ignored while RM_BUSY is set; a selection shows its bank
(log entry 81). -/
def State.writeMirror (s : State) (off : Nat) (v : Word) : State :=
  if s.req.repairs.any Repair.isRemap then s
  else s.onWrite off v (fun s => if off = 0x3000 then s.showMirror else s)

/-- A write to a region-table entry (R40); one that takes a device into use stops a test of its PHY (R373). -/
def execRegionEntryWrite (entry : BitVec 6) (word : BitVec 2) (v : Word) (s : State) : Result :=
  .next (s.entryWrite entry.toNat word.toNat v.toNat).settleTest

/-- A write to OOS_REQ (R268, R50, R339). -/
def State.writeService (s : State) (v : Word) : State := s.onWrite 0x8010 v State.askService

/-! ### Any register -/

/-- A register write (R400, R403): the work of the register at `off`, or the fields alone. -/
def State.writeReg (s : State) (off : Nat) (v : Word) : State :=
  if off % 4 != 0 then s
  else if 0x1000 ≤ off && off < 0x1400 then (s.entryWrite ((off - 0x1000) / 16) (off % 16 / 4) v.toNat).settleTest
  else if (0x1800 ≤ off && off < 0x1880 && off % 16 == 0) || off == 0x1880 || off == 0x1884 then s.writeRegulator off v
  else match off with
    | 0x0200 => s.writeTier v
    | 0x0204 | 0x0208 | 0x020C => s.writeWindow off v
    | 0x0300 => s.writeX v
    | 0x0320 => s.onWrite 0x0320 v (whenBit v 31 State.askReplay)
    | 0x0400 => s.writeLoad v
    | 0x0430 => s.onWrite 0x0430 v (fun s => s.post (v.toNat % 2 ^ 16))
    | 0x0800 => s.onWrite 0x0800 v (whenBit v 31 State.takeGo)
    | 0x0900 => s.onWrite 0x0900 v (whenBit v 31 State.setSG)
    | 0x2000 => s.writeFaultControl v
    | 0x2034 => s.writeRepair v
    | 0x2048 => s.onWrite 0x2048 v (whenBit v 31 State.ygo)
    | 0x3000 | 0x3010 | 0x3014 | 0x3018 | 0x301C => s.writeMirror off v
    | 0x3004 => s.onWrite 0x3004 v (whenBit v 31 State.mirrorWrite)
    | 0x4000 => s.onWrite 0x4000 v (whenBit v 31 State.askTest)
    | 0x480C => s.onWrite 0x480C v (whenBit v 27 (fun s => s.advance_ (bits v.toNat 26 25)))
    | 0x4810 => s.writeDebugControl v
    | 0x481C => s.writeBreak v
    | 0x4820 => s.writePower v
    | 0x482C => s.onWrite 0x482C v (whenBit v 31 State.askZero)
    | 0x5004 => s.writePortFail v
    | 0x5010 => s.onWrite 0x5010 v (whenBit v 31 State.takeCnt)
    | 0x6000 => s.writeCounterControl v
    | 0x8000 => s.onWrite 0x8000 v (whenBit v 31 State.askTraining)
    | 0x8010 => s.writeService v
    | _ => s.onWrite off v (fun s => s)

/-- REGISTER_WRITE (R400). A write that starts work does what its register's own command does; one at an offset that is no
multiple of 4 is ignored (R399). -/
def execRegisterWrite (off : Half) (v : Word) (s : State) : Result :=
  .next (if off.toNat % 4 != 0 then s else (s.writeReg off.toNat v).releaseGo)

/-! ### The debug port -/

/-- Registers that read as zero at Watch in Sealed (R361): NORMSQ, MBOX, E_SYND, XDIG and the sequencer window. -/
def maskedReg (off : Nat) : Bool :=
  (0x0880 ≤ off && off < 0x0900) || off == 0x0318 || off == 0x031C || off == 0x4858 || off == 0x485C
    || (0x2200 ≤ off && off < 0x2A00 && off % 32 == 0x14)

/-- The debug port may read the register (R359). -/
def State.debugReads (s : State) (off : Nat) : Bool :=
  s.get Reg.DBG_LVL != 0 || off == 0x4800 || off == 0x4804 || off == 0x4808 || off == 0x4810

/-- The debug port may write the register (R359): DBG_REQ; at Reach the registers outside 0x4800 to 0x48FF, the break step and the
window's selector (log entry 115). -/
def State.debugWrites (s : State) (off : Nat) : Bool :=
  off == 0x4810 || (s.get Reg.DBG_LVL == 2 && (off < 0x4800 || 0x4900 ≤ off || off == 0x4814 || off == 0x4818
    || off == 0x481C || off == 0x4850))

/-- A debug request is refused (R359): a read returns zero, a write is ignored. -/
def State.refuseDebug (s : State) (o : Out) : State := (s.setFlag Reg.DBG_REFUSED true).emit o

/-- A register read at the debug port (R359, R361, R399, R402) (log entry 116). -/
def State.debugRead (s : State) (off : Nat) : State :=
  if off % 4 != 0 then s.emit (.debugReg off 0)
  else if s.harebell || !s.debugReads off then s.refuseDebug (.debugReg off 0)
  else if s.fuses.lcs == 1 && s.get Reg.DBG_LVL == 1 && maskedReg off then s.emit (.debugReg off 0)
  else
    let (v, l) := s.readPort s.dbgLatch off
    { s with dbgLatch := l }.emit (.debugReg off v)

/-- A register write at the debug port (R359, R399) (log entry 116). -/
def State.debugWrite (s : State) (off : Nat) (v : Word) : State :=
  if off % 4 != 0 then s
  else if s.harebell || !s.debugWrites off then s.setFlag Reg.DBG_REFUSED true else (s.writeReg off v).releaseGo

/-- The check of a region request at the debug port (R420, R371): below Reach no region grants it anything. -/
def State.debugCheck (s : State) (write : Bool) (n off len : Nat) : RegionCheck :=
  match s.checkRequest .debug write n off len with
  | .notReady => .notReady
  | c => if s.get Reg.DBG_LVL == 2 then c else .permission

/-- A region request that the debug port does not allow: refused by the first check that it fails, logged where that is the
permission (R37, R420); a read gives zero lines, and DBG_REFUSED is set (R359; log entry 115). -/
def State.refuseRegion (s : State) (n lines : Nat) (c : RegionCheck) : State :=
  (s.refuseAccess .debug n c).refuseDebug (.debug c.status (List.replicate lines ⟨some 0, false⟩))

/-- A region read at the debug port (R359, R371, R420): at Reach under PERM_DEBUG; status 5 in Harebell and in Spent (log
entry 115). -/
def State.debugRegionRead (s : State) (region off lines : Nat) : State :=
  if s.harebell || s.spent then s.refuseDebug (.debug 5 [])
  else
    let c := s.debugCheck false region off (64 * lines)
    if c = .permission || s.get Reg.DBG_LVL != 2 then s.refuseRegion region lines c
    else
      let (st, ls, s) := s.regionRead .debug .debug 9 region off lines
      s.emit (.debug st ls)

/-- A region write at the debug port is never allowed (R359, R371). -/
def State.debugRegionWrite (s : State) (region off lines : Nat) : State :=
  if s.harebell || s.spent then s.refuseDebug (.debug 5 [])
  else s.refuseRegion region 0 (match s.debugCheck true region off (64 * lines) with
    | .notReady => .notReady
    | _ => .permission)

/-- DEBUG_REQUEST (R359 to R361, R385); while a reset is held the port answers nothing. -/
def execDebugRequest (req : DebugReq) (s : State) : Result :=
  if s.inReset then .next s
  else match req with
    | .regRead off => .next (s.debugRead off.toNat)
    | .regWrite off v => .next (s.debugWrite off.toNat v)
    | .regionRead region offset lines => .next (s.debugRegionRead region.toNat offset.toNat lines)
    | .regionWrite region offset data => .next (s.debugRegionWrite region.toNat offset.toNat data.length)

end Sys2Proof.Machine
end

