-- ==== Sys2Proof/Machine/Dispatch.lean ====
section
/-! DEFINITION. The dispatch: one arm for each command, each a direct call of its meaning. -/

namespace Sys2Proof.Machine

/-- The effect of a command on everything but the queue of waiting commands. -/
def exec (i : Instr) (s : State) : Host.Outcome State Fault Refusal :=
  match i with
  | .go v => Sys2Proof.Machine.execGo v s
  | .sgSet v => Sys2Proof.Machine.execSgSet v s
  | .load v => Sys2Proof.Machine.execLoad v s
  | .swap v => Sys2Proof.Machine.execSwap v s
  | .loadVerifyDone => Sys2Proof.Machine.execLoadVerifyDone s
  | .swapTakeEffect => Sys2Proof.Machine.execSwapTakeEffect s
  | .collPost q => Sys2Proof.Machine.execCollPost q s
  | .cntGo v => Sys2Proof.Machine.execCntGo v s
  | .train v => Sys2Proof.Machine.execTrain v s
  | .trainingDone found => Sys2Proof.Machine.execTrainingDone found s
  | .holdClr v => Sys2Proof.Machine.execHoldClr v s
  | .cloverGo v => Sys2Proof.Machine.execCloverGo v s
  | .mapoutGo v => Sys2Proof.Machine.execMapoutGo v s
  | .channelMapout => Sys2Proof.Machine.execChannelMapout s
  | .tabldGo v => Sys2Proof.Machine.execTabldGo v s
  | .ygo v => Sys2Proof.Machine.execYgo v s
  | .rmWrite v => Sys2Proof.Machine.execRmWrite v s
  | .stGo v => Sys2Proof.Machine.execStGo v s
  | .selfTestStart => Sys2Proof.Machine.execSelfTestStart s
  | .selfTestDone sigs => Sys2Proof.Machine.execSelfTestDone sigs s
  | .xgo v => Sys2Proof.Machine.execXgo v s
  | .ximp v => Sys2Proof.Machine.execXimp v s
  | .exportRun => Sys2Proof.Machine.execExportRun s
  | .importRun => Sys2Proof.Machine.execImportRun s
  | .rgo v => Sys2Proof.Machine.execRgo v s
  | .replayRun => Sys2Proof.Machine.execReplayRun s
  | .zgo v => Sys2Proof.Machine.execZgo v s
  | .zeroizeRun linkFails => Sys2Proof.Machine.execZeroizeRun linkFails s
  | .zeroizeDone => Sys2Proof.Machine.execZeroizeDone s
  | .lcAdv v => Sys2Proof.Machine.execLcAdv v s
  | .dbgReq v => Sys2Proof.Machine.execDbgReq v s
  | .pwrReq v => Sys2Proof.Machine.execPwrReq v s
  | .idleEntry => Sys2Proof.Machine.execIdleEntry s
  | .harebellEntry => Sys2Proof.Machine.execHarebellEntry s
  | .harebellExit checker found => Sys2Proof.Machine.execHarebellExit checker found s
  | .pcClr v => Sys2Proof.Machine.execPcClr v s
  | .regionEntryWrite entry word v => Sys2Proof.Machine.execRegionEntryWrite entry word v s
  | .init entry => Sys2Proof.Machine.execInit entry s
  | .initDone entry => Sys2Proof.Machine.execInitDone entry s
  | .regulatorWrite r v => Sys2Proof.Machine.execRegulatorWrite r v s
  | .portFailClear v => Sys2Proof.Machine.execPortFailClear v s
  | .thaltClear v => Sys2Proof.Machine.execThaltClear v s
  | .brkHitClear v => Sys2Proof.Machine.execBrkHitClear v s
  | .pairLoRead off => Sys2Proof.Machine.execPairLoRead off s
  | .registerWrite off v => Sys2Proof.Machine.execRegisterWrite off v s
  | .hostRegionRd region offset lines => Sys2Proof.Machine.execHostRegionRd region offset lines s
  | .hostRegionWr region offset data => Sys2Proof.Machine.execHostRegionWr region offset data s
  | .debugRequest req => Sys2Proof.Machine.execDebugRequest req s
  | .engineRd port engine region offset lines linkFails => Sys2Proof.Machine.execEngineRd port engine region offset lines linkFails s
  | .engineWr port engine region offset data linkFails => Sys2Proof.Machine.execEngineWr port engine region offset data linkFails s
  | .engineAadd port engine region offset form operand ret => Sys2Proof.Machine.execEngineAadd port engine region offset form operand ret s
  | .kend port engine => Sys2Proof.Machine.execKend port engine s
  | .engineTokenCredit port n => Sys2Proof.Machine.execEngineTokenCredit port n s
  | .nop p => Sys2Proof.Machine.execNop p s
  | .br p t => Sys2Proof.Machine.execBr p t s
  | .call p t => Sys2Proof.Machine.execCall p t s
  | .ret p => Sys2Proof.Machine.execRet p s
  | .jt p ra n => Sys2Proof.Machine.execJt p ra n s
  | .loop p ra t => Sys2Proof.Machine.execLoop p ra t s
  | .stepend p => Sys2Proof.Machine.execStepend p s
  | .li p rd imm => Sys2Proof.Machine.execLi p rd imm s
  | .lhi p rd imm => Sys2Proof.Machine.execLhi p rd imm s
  | .mov p rd ra => Sys2Proof.Machine.execMov p rd ra s
  | .add p rd ra rb => Sys2Proof.Machine.execAdd p rd ra rb s
  | .addi p rd ra imm => Sys2Proof.Machine.execAddi p rd ra imm s
  | .sub p rd ra rb => Sys2Proof.Machine.execSub p rd ra rb s
  | .mul p rd ra rb => Sys2Proof.Machine.execMul p rd ra rb s
  | .and p rd ra rb => Sys2Proof.Machine.execAnd p rd ra rb s
  | .or p rd ra rb => Sys2Proof.Machine.execOr p rd ra rb s
  | .xor p rd ra rb => Sys2Proof.Machine.execXor p rd ra rb s
  | .shl p rd ra rb => Sys2Proof.Machine.execShl p rd ra rb s
  | .shr p rd ra rb => Sys2Proof.Machine.execShr p rd ra rb s
  | .shli p rd ra imm => Sys2Proof.Machine.execShli p rd ra imm s
  | .shri p rd ra imm => Sys2Proof.Machine.execShri p rd ra imm s
  | .cmpeq p pd ra rb => Sys2Proof.Machine.execCmpeq p pd ra rb s
  | .cmpne p pd ra rb => Sys2Proof.Machine.execCmpne p pd ra rb s
  | .cmplt p pd ra rb => Sys2Proof.Machine.execCmplt p pd ra rb s
  | .cmple p pd ra rb => Sys2Proof.Machine.execCmple p pd ra rb s
  | .cmpltu p pd ra rb => Sys2Proof.Machine.execCmpltu p pd ra rb s
  | .cmpleu p pd ra rb => Sys2Proof.Machine.execCmpleu p pd ra rb s
  | .cmpeqi p pd ra imm => Sys2Proof.Machine.execCmpeqi p pd ra imm s
  | .cmpltui p pd ra imm => Sys2Proof.Machine.execCmpltui p pd ra imm s
  | .pand p pd pa pb => Sys2Proof.Machine.execPand p pd pa pb s
  | .por p pd pa pb => Sys2Proof.Machine.execPor p pd pa pb s
  | .pnot p pd pa => Sys2Proof.Machine.execPnot p pd pa s
  | .pmov p rd pa => Sys2Proof.Machine.execPmov p rd pa s
  | .rdk p rd key => Sys2Proof.Machine.execRdk p rd key s
  | .vdig p rd b => Sys2Proof.Machine.execVdig p rd b s
  | .lia p ad imm => Sys2Proof.Machine.execLia p ad imm s
  | .addai p ad ar imm => Sys2Proof.Machine.execAddai p ad ar imm s
  | .adda p ad ar rb => Sys2Proof.Machine.execAdda p ad ar rb s
  | .sect p ad typ => Sys2Proof.Machine.execSect p ad typ s
  | .mova p rd ar => Sys2Proof.Machine.execMova p rd ar s
  | .ld p rd ar sz imm => Sys2Proof.Machine.execLd p rd ar sz imm s
  | .ldc p rd ar sz imm => Sys2Proof.Machine.execLdc p rd ar sz imm s
  | .st p rs ar sz imm => Sys2Proof.Machine.execSt p rs ar sz imm s
  | .aadd p rs ar imm => Sys2Proof.Machine.execAadd p rs ar imm s
  | .aaddf p rs ar imm => Sys2Proof.Machine.execAaddf p rs ar imm s
  | .rcr p rd off => Sys2Proof.Machine.execRcr p rd off s
  | .wcr p rs off => Sys2Proof.Machine.execWcr p rs off s
  | .openStep p => Sys2Proof.Machine.execOpenStep p s
  | .sealStep p => Sys2Proof.Machine.execSealStep p s
  | .cset p ar n => Sys2Proof.Machine.execCset p ar n s
  | .coll p ar q => Sys2Proof.Machine.execColl p ar q s
  | .collBegin => Sys2Proof.Machine.execCollBegin s
  | .cwait p q => Sys2Proof.Machine.execCwait p q s
  | .commit p => Sys2Proof.Machine.execCommit p s
  | .cdone p => Sys2Proof.Machine.execCdone p s
  | .bsutab p ra ar => Sys2Proof.Machine.execBsutab p ra ar s
  | .bsust p rd ra => Sys2Proof.Machine.execBsust p rd ra s
  | .lwait p => Sys2Proof.Machine.execLwait p s
  | .fclr p ra kind => Sys2Proof.Machine.execFclr p ra kind s
  | .frd p rd ra => Sys2Proof.Machine.execFrd p rd ra s
  | .tmov p ar n => Sys2Proof.Machine.execTmov p ar n s
  | .twait p => Sys2Proof.Machine.execTwait p s
  | .recArm p ar n => Sys2Proof.Machine.execRecArm p ar n s
  | .hsh p rd ar len => Sys2Proof.Machine.execHsh p rd ar len s
  | .odig p rd => Sys2Proof.Machine.execOdig p rd s
  | .dmix p rd ra rb => Sys2Proof.Machine.execDmix p rd ra rb s
  | .icacheFill => Sys2Proof.Machine.execIcacheFill s
  | .greq m => Sys2Proof.Machine.execGreq m s
  | .mark m => Sys2Proof.Machine.execMark m s
  | .grant m => Sys2Proof.Machine.execGrant m s
  | .defer m => Sys2Proof.Machine.execDefer m s
  | .ack m => Sys2Proof.Machine.execAck m s
  | .nack m => Sys2Proof.Machine.execNack m s
  | .contrib m => Sys2Proof.Machine.execContrib m s
  | .contribAdd slot residueFaults => Sys2Proof.Machine.execContribAdd slot residueFaults s
  | .sectorCloseRead sector => Sys2Proof.Machine.execSectorCloseRead sector s
  | .sectorSummaryFold => Sys2Proof.Machine.execSectorSummaryFold s
  | .arrivalEnd => Sys2Proof.Machine.execArrivalEnd s
  | .chunk m => Sys2Proof.Machine.execChunk m s
  | .token m => Sys2Proof.Machine.execToken m s
  | .skip m => Sys2Proof.Machine.execSkip m s
  | .ecreq m => Sys2Proof.Machine.execEcreq m s
  | .ecred m => Sys2Proof.Machine.execEcred m s
  | .openUp m => Sys2Proof.Machine.execOpenUp m s
  | .openDn m => Sys2Proof.Machine.execOpenDn m s
  | .sealUp m => Sys2Proof.Machine.execSealUp m s
  | .sealDn m => Sys2Proof.Machine.execSealDn m s
  | .cntUp m => Sys2Proof.Machine.execCntUp m s
  | .cntDn m => Sys2Proof.Machine.execCntDn m s
  | .rwr m => Sys2Proof.Machine.execRwr m s
  | .rrd m => Sys2Proof.Machine.execRrd m s
  | .rrsp m => Sys2Proof.Machine.execRrsp m s
  | .rwack m => Sys2Proof.Machine.execRwack m s
  | .scheduleEval => Sys2Proof.Machine.execScheduleEval s
  | .commitEntryStart entry => Sys2Proof.Machine.execCommitEntryStart entry s
  | .csuPass entry phases => Sys2Proof.Machine.execCsuPass entry phases s
  | .seqBoundEnd d c k busy => Sys2Proof.Machine.execSeqBoundEnd d c k busy s
  | .resultReread d c k busy => Sys2Proof.Machine.execResultReread d c k busy s
  | .trustRatio group => Sys2Proof.Machine.execTrustRatio group s
  | .layerWorkStart => Sys2Proof.Machine.execLayerWorkStart s
  | .directionComplete => Sys2Proof.Machine.execDirectionComplete s
  | .directionCopyDone => Sys2Proof.Machine.execDirectionCopyDone s
  | .reductionRelease row => Sys2Proof.Machine.execReductionRelease row s
  | .chunkRead q => Sys2Proof.Machine.execChunkRead q s
  | .chunkSend q dest => Sys2Proof.Machine.execChunkSend q dest s
  | .skipNoticeSend q dest => Sys2Proof.Machine.execSkipNoticeSend q dest s
  | .stepBoundary => Sys2Proof.Machine.execStepBoundary s
  | .remapApply => Sys2Proof.Machine.execRemapApply s
  | .tableReload => Sys2Proof.Machine.execTableReload s
  | .moveInStart => Sys2Proof.Machine.execMoveInStart s
  | .moveInRow => Sys2Proof.Machine.execMoveInRow s
  | .moveOut => Sys2Proof.Machine.execMoveOut s
  | .moveOutDone => Sys2Proof.Machine.execMoveOutDone s
  | .copyMove => Sys2Proof.Machine.execCopyMove s
  | .tierReadCompletion slot line data poison error => Sys2Proof.Machine.execTierReadCompletion slot line data poison error s
  | .tierWriteCompletion slot error => Sys2Proof.Machine.execTierWriteCompletion slot error s
  | .recordWrite entry => Sys2Proof.Machine.execRecordWrite entry s
  | .yarrowResolveCommit => Sys2Proof.Machine.execYarrowResolveCommit s
  | .yarrowReemit => Sys2Proof.Machine.execYarrowReemit s
  | .scrubRow d => Sys2Proof.Machine.execScrubRow d s
  | .stallLimitPassed w => Sys2Proof.Machine.execStallLimitPassed w s
  | .regulatorWindow => Sys2Proof.Machine.execRegulatorWindow s
  | .tempReading d celsius => Sys2Proof.Machine.execTempReading d celsius s
  | .refreshDue d c b => Sys2Proof.Machine.execRefreshDue d c b s
  | .channelRetrain d c => Sys2Proof.Machine.execChannelRetrain d c s
  | .tickCheck advance => Sys2Proof.Machine.execTickCheck advance s
  | .hbTempSample celsius => Sys2Proof.Machine.execHbTempSample celsius s
  | .actp d c w => Sys2Proof.Machine.execActp d c w s
  | .accw d c w data residueFaults => Sys2Proof.Machine.execAccw d c w data residueFaults s
  | .cmtr d c w consts row linkFails => Sys2Proof.Machine.execCmtr d c w consts row linkFails s
  | .scnr d c w consts row linkFails => Sys2Proof.Machine.execScnr d c w consts row linkFails s
  | .atad d c w operand => Sys2Proof.Machine.execAtad d c w operand s
  | .tbld d c w data => Sys2Proof.Machine.execTbld d c w data s
  | .bist d c w sig => Sys2Proof.Machine.execBist d c w sig s
  | .strd d c w => Sys2Proof.Machine.execStrd d c w s
  | .powerOn => Sys2Proof.Machine.execPowerOn s
  | .coldReset => Sys2Proof.Machine.execColdReset s
  | .warmReset => Sys2Proof.Machine.execWarmReset s
  | .vcoreGoodLoss => Sys2Proof.Machine.execVcoreGoodLoss s
  | .vkeepGoodLoss => Sys2Proof.Machine.execVkeepGoodLoss s
  | .vphyGoodLoss => Sys2Proof.Machine.execVphyGoodLoss s
  | .keeperSelfRefresh => Sys2Proof.Machine.execKeeperSelfRefresh s
  | .resetRelease memkept checker => Sys2Proof.Machine.execResetRelease memkept checker s
  | .deviceSetup => Sys2Proof.Machine.execDeviceSetup s
  | .enterRun => Sys2Proof.Machine.execEnterRun s
  | .topoDigest digest => Sys2Proof.Machine.execTopoDigest digest s
  | .portFailed port => Sys2Proof.Machine.execPortFailed port s
  | .rotAnswer tag accept => Sys2Proof.Machine.execRotAnswer tag accept s

end Sys2Proof.Machine
end

