-- ==== Sys2Proof/Safety.lean ====
section
/-! DEFINITION. What counts as a safe run, in the terms the statements use: the canonical forms of the register file and of
the device bytes, the shape of the sequencer's registers, what every step keeps, and how a statement says that a command
completes and what it leaves unchanged. -/

namespace Sys2Proof.Machine

/-- The register file in canonical form: keys strictly rising. -/
def regsOk (r : RegFile) : Prop := (r.map (·.1)).Pairwise (· < ·)

/-- The sequencer's registers (R184): s0 to s15, a0 to a7, p0 to p7, of which p0 reads 1. -/
def Seq.ok (q : Seq) : Prop := q.s.length = 16 ∧ q.a.length = 8 ∧ q.p.length = 8 ∧ q.p.head? = some true

/-- The invariant of the block: registers and device bytes in canonical form, the sequencer's registers in shape. -/
def State.Inv (s : State) : Prop := regsOk s.regs ∧ memWf s.mem = true ∧ s.seq.ok

/-- The parts of the state: the program-visible registers of the sequencer, the rest of it, the device bytes, the
write-combining buffer, lists and holds of lasting faults, the plan, the instruction cache, the running step, the exchange,
the bank-side units, the regulators, the tier mover, the step log, Yarrow, requests, watched waits, pins, fuses, the keeper's
summary, the clock, the read latches, the open values drawn, the outputs. -/
inductive Part where
  | seqRegs | seq | mem | wcb | fault | plan | icache | step | exch | dev | regul | tier | log | yarrow | req | waits | pins
  | fuses | keeper | clock | latch | drawn | out
  deriving DecidableEq, Repr

/-- From state `r` to state `s` no part outside `m` changes (the registers of the control-port window apart). -/
structure Same (m : List Part) (r s : State) : Prop where
  seqRegs : .seqRegs ∈ m ∨ (s.seq.s = r.seq.s ∧ s.seq.a = r.seq.a ∧ s.seq.p = r.seq.p)
  seq     : .seq ∈ m ∨ s.seq = r.seq
  mem     : .mem ∈ m ∨ s.mem = r.mem
  wcb     : .wcb ∈ m ∨ s.wcb = r.wcb
  fault   : .fault ∈ m ∨ s.fault = r.fault
  plan    : .plan ∈ m ∨ s.plan = r.plan
  icache  : .icache ∈ m ∨ s.icache = r.icache
  step    : .step ∈ m ∨ s.step = r.step
  exch    : .exch ∈ m ∨ s.exch = r.exch
  dev     : .dev ∈ m ∨ s.dev = r.dev
  regul   : .regul ∈ m ∨ s.regul = r.regul
  tier    : .tier ∈ m ∨ s.tier = r.tier
  log     : .log ∈ m ∨ s.log = r.log
  yarrow  : .yarrow ∈ m ∨ s.yarrow = r.yarrow
  req     : .req ∈ m ∨ s.req = r.req
  waits   : .waits ∈ m ∨ s.waits = r.waits
  pins    : .pins ∈ m ∨ s.pins = r.pins
  fuses   : .fuses ∈ m ∨ s.fuses = r.fuses
  keeper  : .keeper ∈ m ∨ s.keeper = r.keeper
  clock   : .clock ∈ m ∨ s.clock = r.clock
  latch   : .latch ∈ m ∨ (s.cpLatch = r.cpLatch ∧ s.dbgLatch = r.dbgLatch)
  drawn   : .drawn ∈ m ∨ s.freeCtr = r.freeCtr
  out     : .out ∈ m ∨ s.out = r.out

/-- What every command keeps from state `r` to state `s`: the queue; the fused identity, and ZPEND once burnt; the clock never
goes back; what has been sent stays sent; each part of the invariant; and every part of the state outside `m`. -/
structure Kept (m : List Part) (r s : State) : Prop where
  queue : s.pending = r.pending
  uid   : s.fuses.uid = r.fuses.uid
  zpend : r.fuses.zpend = true → s.fuses.zpend = true
  time  : r.clock.time ≤ s.clock.time
  sent  : r.out <+: s.out
  regs  : regsOk r.regs → regsOk s.regs
  bytes : memWf r.mem = true → memWf s.mem = true
  shape : r.seq.ok → s.seq.ok
  same  : Same m r s

/-- The sequencer can issue instruction `i` of plan `pl` now (R177, R186, R188, R194): it runs, waits for nothing and misses no
line, the word at pc is the instruction's, its line is at hand, and INSN_LIMIT is not reached. -/
structure State.Fetches (s : State) (pl : Plan) (i : Instr) : Prop where
  plan    : s.plan.plan = some pl
  running : s.seq.running = true
  wait    : s.seq.wait = none
  miss    : s.icache.miss = none
  word    : sarEncode i = some (pl.codeWord s.seq.pc)
  held    : s.icache.holds (s.seq.pc / 8) = true
  limit   : s.seq.count < pl.hdr.insnLimit

/-- The predicate fields of a Sarenina instruction; none for a command that is no instruction. -/
def sarPred : Instr → Option Pred
  | .nop p | .br p _ | .call p _ | .ret p | .jt p _ _ | .loop p _ _ | .stepend p | .li p _ _ | .lhi p _ _
  | .mov p _ _ | .add p _ _ _ | .addi p _ _ _ | .sub p _ _ _ | .mul p _ _ _ | .and p _ _ _ | .or p _ _ _
  | .xor p _ _ _ | .shl p _ _ _ | .shr p _ _ _ | .shli p _ _ _ | .shri p _ _ _ | .cmpeq p _ _ _ | .cmpne p _ _ _
  | .cmplt p _ _ _ | .cmpltu p _ _ _ | .cmple p _ _ _ | .cmpleu p _ _ _ | .cmpeqi p _ _ _ | .cmpltui p _ _ _
  | .pand p _ _ _ | .por p _ _ _ | .pnot p _ _ | .pmov p _ _ | .rdk p _ _ | .vdig p _ _ | .lia p _ _ | .addai p _ _ _
  | .adda p _ _ _ | .sect p _ _ | .mova p _ _ | .ld p _ _ _ _ | .ldc p _ _ _ _ | .st p _ _ _ _ | .aadd p _ _ _
  | .aaddf p _ _ _ | .rcr p _ _ | .wcr p _ _ | .openStep p | .sealStep p | .cset p _ _ | .coll p _ _ | .cwait p _
  | .commit p | .cdone p | .bsutab p _ _ | .bsust p _ _ | .lwait p | .fclr p _ _ | .frd p _ _ | .tmov p _ _
  | .twait p | .recArm p _ _ | .hsh p _ _ _ | .odig p _ | .dmix p _ _ _ => some p
  | _ => none

/-- The predicate `p` of an instruction holds: p[PR] XOR PN is 1 (R186). -/
def State.takes (s : State) (p : Pred) : Prop := (s.pget p.pr ^^ p.pn) = true

/-- `s` as the effect of an instruction begins: instances that have ended are marked, and the instruction is counted. -/
def State.issued (s : State) : State := { s.settleInsts with seq := { s.seq with count := s.seq.count + 1 } }

/-- `s` after one instruction: the sequencer is at the next instruction, one instruction more is counted, and `f` changes what it
changes of the sequencer. Instances that have ended are marked as ended, which the sequencer does before it issues (R188);
nothing else changes. -/
def State.stepped (s : State) (f : Seq → Seq) : State :=
  { s.settleInsts with seq := f { s.seq with pc := s.seq.pc + 1, count := s.seq.count + 1 } }

/-- `t` is `s` trapped with a cause and TRAP_INFO (R181, R191): the sequencer stops at the instruction, its registers as they
were; TRAP_CAUSE, TRAP_PC, TRAP_INFO, LSTATE 4, the hold with cause 0x0A, PX_IRQ[2]; device bytes as they were. -/
structure State.Trapped (s t : State) (cause info : Nat) : Prop where
  stopped : t.seq.running = false ∧ t.seq.trapped = true ∧ t.seq.wait = none
  regs    : t.seq.s = s.seq.s ∧ t.seq.a = s.seq.a ∧ t.seq.p = s.seq.p ∧ t.seq.pc = s.seq.pc
  cause   : t.get Reg.TRAP_CAUSE = cause
  pc      : t.get Reg.TRAP_PC = s.seq.pc % 2 ^ 32
  info    : t.get Reg.TRAP_INFO = info % 2 ^ 32
  lstate  : t.get Reg.LSTATE = 4
  held    : t.flag Reg.HELD = true ∧ t.get Reg.HOLD_CAUSE = 0x0A
  irq     : t.bit Reg.IRQ_STAT 2 = true
  bytes   : t.mem = s.mem

/-- What a command may change, beside registers, queue and clock rules of `Kept`: the parts of the state that its effect names. -/
def touches : Instr → List Part
  | .go _ | .brkHitClear _ =>
    [.seqRegs, .seq, .plan, .icache, .step, .tier]
  | .sgSet _ | .trainingDone _ | .pcClr _ | .regulatorWrite _ _ | .tempReading _ _ | .channelRetrain _ _ | .hbTempSample _ =>
    []
  | .load _ | .swap _ =>
    [.seqRegs, .seq, .fault, .plan, .icache, .step, .regul, .tier, .req, .clock, .out]
  | .loadVerifyDone =>
    [.seqRegs, .seq, .mem, .wcb, .fault, .plan, .icache, .step, .exch, .dev, .regul, .tier, .log, .yarrow, .req, .waits, .clock, .drawn, .out]
  | .swapTakeEffect | .holdClr _ | .cloverGo _ | .channelMapout | .stGo _ | .selfTestStart | .selfTestDone _
    | .regionEntryWrite _ _ _ | .stepBoundary | .remapApply | .tableReload =>
    [.seqRegs, .seq, .mem, .wcb, .fault, .plan, .icache, .step, .exch, .dev, .regul, .tier, .log, .req, .waits, .clock, .drawn, .out]
  | .collPost _ | .sectorSummaryFold =>
    [.step]
  | .cntGo _ | .openStep _ | .arrivalEnd | .openUp _ | .openDn _ | .sealUp _ | .sealDn _ | .cntUp _ | .cntDn _ =>
    [.seqRegs, .seq, .mem, .wcb, .fault, .plan, .icache, .step, .exch, .dev, .regul, .tier, .log, .waits, .clock, .drawn, .out]
  | .train _ =>
    [.mem, .wcb, .dev, .regul, .log, .pins]
  | .mapoutGo _ | .tabldGo _ =>
    [.fault, .req, .drawn]
  | .ygo _ =>
    [.seqRegs, .seq, .mem, .wcb, .fault, .step, .dev, .regul, .tier, .log, .yarrow, .clock]
  | .rmWrite _ | .zeroizeRun _ =>
    [.mem, .wcb, .fault, .step, .dev, .regul, .req, .clock]
  | .xgo _ | .ximp _ | .rgo _ | .zgo _ | .initDone _ =>
    [.req]
  | .exportRun =>
    [.seqRegs, .seq, .mem, .wcb, .fault, .plan, .icache, .step, .dev, .regul, .tier, .req, .clock, .out]
  | .importRun =>
    [.seqRegs, .seq, .mem, .wcb, .fault, .plan, .icache, .step, .dev, .regul, .tier, .req, .clock, .drawn, .out]
  | .replayRun =>
    [.seqRegs, .seq, .mem, .wcb, .fault, .plan, .icache, .step, .dev, .regul, .tier, .req, .clock, .drawn]
  | .zeroizeDone =>
    [.req, .fuses, .keeper, .latch, .out]
  | .lcAdv _ | .dbgReq _ =>
    [.req, .out]
  | .pwrReq _ | .idleEntry =>
    [.seqRegs, .seq, .plan, .icache, .step, .tier, .req]
  | .harebellEntry =>
    [.seqRegs, .seq, .wcb, .plan, .icache, .step, .tier, .req, .pins, .keeper, .latch]
  | .harebellExit _ _ =>
    [.seqRegs, .seq, .mem, .wcb, .fault, .plan, .icache, .step, .exch, .dev, .regul, .tier, .log, .yarrow, .req, .waits, .pins, .fuses, .keeper, .clock, .latch, .drawn, .out]
  | .init _ =>
    [.mem, .wcb, .regul, .req, .clock]
  | .portFailClear _ =>
    [.exch, .pins, .drawn, .out]
  | .thaltClear _ =>
    [.pins, .drawn]
  | .pairLoRead _ =>
    [.latch, .out]
  | .registerWrite _ _ =>
    [.seqRegs, .seq, .mem, .wcb, .fault, .plan, .icache, .step, .exch, .dev, .regul, .tier, .log, .yarrow, .req, .waits, .pins, .clock, .drawn, .out]
  | .hostRegionRd _ _ _ | .engineRd _ _ _ _ _ _ | .rrd _ =>
    [.fault, .step, .dev, .regul, .clock, .out]
  | .hostRegionWr _ _ _ | .engineWr _ _ _ _ _ _ | .engineAadd _ _ _ _ _ _ _ | .rwr _ | .atad _ _ _ _ =>
    [.mem, .wcb, .fault, .step, .dev, .regul, .clock, .out]
  | .debugRequest _ =>
    [.seqRegs, .seq, .mem, .wcb, .fault, .plan, .icache, .step, .exch, .dev, .regul, .tier, .log, .yarrow, .req, .waits, .pins, .clock, .latch, .drawn, .out]
  | .kend _ _ | .grant _ | .rrsp _ | .rwack _ =>
    [.out]
  | .engineTokenCredit _ _ | .defer _ | .ack _ | .token _ | .skip _ | .ecreq _ =>
    [.exch, .out]
  | .nop _ | .br _ _ | .call _ _ | .ret _ | .jt _ _ _ | .stepend _ | .wcr _ _ _ | .sealStep _ | .cwait _ _ | .cdone _
    | .lwait _ | .twait _ =>
    [.seq, .fault, .icache, .step, .drawn]
  | .loop _ _ _ | .li _ _ _ | .lhi _ _ _ | .mov _ _ _ | .add _ _ _ _ | .addi _ _ _ _ | .sub _ _ _ _ | .mul _ _ _ _
    | .and _ _ _ _ | .or _ _ _ _ | .xor _ _ _ _ | .shl _ _ _ _ | .shr _ _ _ _ | .shli _ _ _ _ | .shri _ _ _ _
    | .cmpeq _ _ _ _ | .cmpne _ _ _ _ | .cmplt _ _ _ _ | .cmple _ _ _ _ | .cmpltu _ _ _ _ | .cmpleu _ _ _ _
    | .cmpeqi _ _ _ _ | .cmpltui _ _ _ _ | .pand _ _ _ _ | .por _ _ _ _ | .pnot _ _ _ | .pmov _ _ _ | .rdk _ _ _
    | .vdig _ _ _ | .lia _ _ _ | .addai _ _ _ _ | .adda _ _ _ _ | .sect _ _ _ | .mova _ _ _ | .rcr _ _ _ | .frd _ _ _
    | .odig _ _ | .dmix _ _ _ _ =>
    [.seqRegs, .seq, .fault, .icache, .step, .drawn]
  | .ld _ _ _ _ _ | .ldc _ _ _ _ _ | .hsh _ _ _ _ =>
    [.seqRegs, .seq, .fault, .icache, .step, .dev, .regul, .clock, .drawn]
  | .st _ _ _ _ _ | .aadd _ _ _ _ | .aaddf _ _ _ _ =>
    [.seq, .mem, .wcb, .fault, .icache, .step, .dev, .regul, .clock, .drawn]
  | .cset _ _ _ =>
    [.seq, .mem, .wcb, .fault, .icache, .step, .dev, .regul, .log, .clock, .drawn]
  | .coll _ _ _ | .commit _ | .recArm _ _ _ | .icacheFill =>
    [.seq, .fault, .icache, .step, .dev, .regul, .clock, .drawn]
  | .collBegin =>
    [.seq, .fault, .step, .dev, .regul, .clock, .drawn]
  | .bsutab _ _ _ =>
    [.seq, .wcb, .fault, .icache, .step, .dev, .regul, .clock, .drawn]
  | .bsust _ _ _ =>
    [.seqRegs, .seq, .fault, .icache, .step, .dev, .drawn]
  | .fclr _ _ _ =>
    [.seq, .mem, .wcb, .fault, .plan, .icache, .step, .regul, .clock, .drawn]
  | .tmov _ _ _ =>
    [.seq, .mem, .wcb, .fault, .icache, .step, .dev, .regul, .tier, .log, .waits, .clock, .drawn]
  | .greq _ | .contrib _ =>
    [.step, .out]
  | .mark _ =>
    [.mem, .wcb, .fault, .step, .dev, .regul, .log, .clock, .out]
  | .nack _ | .chunkSend _ _ | .skipNoticeSend _ _ =>
    [.step, .exch, .waits, .out]
  | .contribAdd _ _ =>
    [.mem, .wcb, .fault, .plan, .step, .dev, .regul, .log, .clock, .drawn]
  | .sectorCloseRead _ =>
    [.fault, .step, .dev, .regul, .clock, .drawn]
  | .chunk _ =>
    [.mem, .wcb, .fault, .step, .exch, .dev, .regul, .clock, .out]
  | .ecred _ =>
    [.exch, .waits, .out]
  | .scheduleEval | .directionComplete =>
    [.mem, .wcb, .fault, .plan, .step, .regul, .clock]
  | .commitEntryStart _ =>
    [.mem, .wcb, .fault, .plan, .step, .dev, .regul, .tier, .log, .waits, .clock, .drawn]
  | .csuPass _ _ | .seqBoundEnd _ _ _ _ | .resultReread _ _ _ _ | .directionCopyDone =>
    [.mem, .wcb, .fault, .plan, .step, .dev, .regul, .tier, .clock]
  | .trustRatio _ =>
    [.mem, .wcb, .fault, .plan, .step, .dev, .regul, .log, .clock]
  | .layerWorkStart =>
    [.mem, .wcb, .fault, .plan, .step, .dev, .regul, .tier, .clock, .drawn]
  | .reductionRelease _ =>
    [.mem, .wcb, .step, .dev, .regul, .clock]
  | .chunkRead _ | .tbld _ _ _ _ =>
    [.fault, .step, .dev, .regul, .clock]
  | .moveInStart | .moveOut | .copyMove =>
    [.mem, .wcb, .fault, .step, .dev, .regul, .tier, .waits, .clock, .drawn, .out]
  | .moveInRow =>
    [.mem, .wcb, .fault, .step, .dev, .regul, .tier, .log, .waits, .clock, .out]
  | .moveOutDone =>
    [.mem, .wcb, .fault, .step, .dev, .regul, .tier, .clock]
  | .tierReadCompletion _ _ _ _ _ =>
    [.step, .tier, .req, .waits]
  | .tierWriteCompletion _ _ =>
    [.fault, .step, .tier, .req, .waits]
  | .recordWrite _ =>
    [.mem, .wcb, .fault, .step, .regul, .clock]
  | .yarrowResolveCommit =>
    [.seqRegs, .seq, .mem, .wcb, .fault, .plan, .step, .dev, .regul, .tier, .log, .yarrow, .clock, .drawn]
  | .yarrowReemit =>
    [.seqRegs, .seq, .plan, .icache, .step, .exch, .tier, .yarrow]
  | .scrubRow _ =>
    [.mem, .wcb, .fault, .step, .dev, .regul, .clock]
  | .stallLimitPassed _ =>
    [.waits, .clock]
  | .regulatorWindow =>
    [.regul, .clock]
  | .refreshDue _ _ _ =>
    [.dev]
  | .tickCheck _ =>
    [.clock]
  | .actp _ _ _ =>
    [.wcb, .dev, .clock]
  | .accw _ _ _ _ _ | .bist _ _ _ _ =>
    [.mem, .wcb, .fault, .step, .dev, .regul, .clock, .drawn, .out]
  | .cmtr _ _ _ _ _ _ | .scnr _ _ _ _ _ _ =>
    [.mem, .wcb, .fault, .step, .dev, .regul, .clock, .drawn]
  | .strd _ _ _ =>
    [.dev, .regul, .clock, .drawn, .out]
  | .powerOn | .coldReset | .warmReset | .vcoreGoodLoss | .vkeepGoodLoss | .vphyGoodLoss =>
    [.seqRegs, .seq, .mem, .wcb, .fault, .plan, .icache, .step, .exch, .dev, .regul, .tier, .log, .yarrow, .req, .waits, .pins, .keeper, .clock, .latch, .drawn]
  | .keeperSelfRefresh =>
    [.pins, .clock]
  | .resetRelease _ _ =>
    [.mem, .wcb, .dev, .regul, .log, .pins, .clock]
  | .deviceSetup =>
    [.seqRegs, .seq, .mem, .wcb, .fault, .plan, .icache, .step, .exch, .dev, .regul, .tier, .yarrow, .req, .waits, .pins, .fuses, .keeper, .clock, .latch, .drawn, .out]
  | .enterRun =>
    [.seqRegs, .seq, .mem, .wcb, .fault, .plan, .icache, .step, .dev, .regul, .tier, .clock]
  | .topoDigest _ =>
    [.exch]
  | .portFailed _ =>
    [.pins]
  | .rotAnswer _ _ =>
    [.seqRegs, .seq, .plan, .icache, .step, .exch, .tier, .yarrow, .req, .waits, .fuses, .latch, .out]

/-- Command `c` completes from `s`, in a next state of which `P` holds. -/
def completes (c : Instr) (s : State) (P : State → Prop) : Prop := ∃ t, exec c s = .next t ∧ P t

/-- Every register field outside `fs` holds in `t` what it holds in `s`. -/
def State.regsKept (s t : State) (fs : List Field) : Prop := ∀ f : Field, f.key ∉ fs.map Field.key → t.get f = s.get f

/-- `t` differs from `s` in no more than the values of the register fields `fs`. -/
def State.onlyRegs (s t : State) (fs : List Field) : Prop := t = { s with regs := t.regs } ∧ s.regsKept t fs

/-- The counters of pin traffic: the performance counters, PSECT, LASTUSE and CAPHIT (R411, R413, R415), by their offsets. -/
def Field.isCount (f : Field) : Prop :=
  let o := f.key / 32
  (0x6010 ≤ o ∧ o < 0x6140) ∨ (0x1800 ≤ o ∧ o < 0x1880 ∧ (o % 16 = 4 ∨ o % 16 = 8))

/-- Every register field but those counters holds in `t` what it holds in `s`. -/
def State.countsOnly (s t : State) : Prop := ∀ f : Field, ¬ f.isCount → t.get f = s.get f

/-- `t` is `s` but for counted and charged pin traffic, and the time that its regulator made it wait (R411). -/
def State.charged (s t : State) : Prop := t = { s with regs := t.regs, regul := t.regul, clock := t.clock } ∧ s.countsOnly t

/-- Line `x` gives data without an error to report, and no sequence holds its pair. -/
def State.clean (s : State) (x : LineLoc) : Prop :=
  (s.lineVal x = .zero ∨ ∃ d, s.lineVal x = .good d) ∧ s.pairHeld x.loc.dev x.loc.ch x.loc.pair = false

/-- The 64 bytes that a clean line gives; a line whose VALID bit is clear reads as zero (R22). -/
def State.lineBytes (s : State) (x : LineLoc) : List Byte := ((s.lineVal x).bytes?).getD (List.replicate 64 0)

/-- The lines of `len` bytes from dense offset `off` of a region. -/
def RegionWords.span (e : RegionWords) (off len : Nat) : List LineLoc :=
  (List.range ((off + len + 63) / 64 - off / 64)).map (fun i => e.lineAt (64 * (off / 64 + i)))

/-- Every line of some ranges of the plan's image, each by its offset and its length, is clean. -/
def State.listsClean (s : State) (pl : Plan) (rs : List (Nat × Nat)) : Prop :=
  ∀ r ∈ rs, ∀ x ∈ (s.regionWords pl.region).span r.1 r.2, s.clean x

/-- Bytes `off` to `off + len - 1` of region `n` lie in clean lines, and are `b`. -/
def State.holds (s : State) (n off len : Nat) (b : List Byte) : Prop :=
  (∀ x ∈ (s.regionWords n).span off len, s.clean x)
    ∧ b = ((((s.regionWords n).span off len).flatMap s.lineBytes).drop (off % 64)).take len

/-- The device bytes once line `x` holds `data`: data, check word, and the row's metadata with the line's VALID bit set. -/
def State.memAfter (s : State) (x : LineLoc) (data : List Byte) : List Host.Cell :=
  match s.rowMeta x.loc with
  | some m => (s.putLine .buffered x m data).mem
  | none => s.mem

/-- `t` is `s` after a buffered write of `data` to line `x`, its traffic counted and charged. -/
def State.wrote (s : State) (x : LineLoc) (data : List Byte) (t : State) : Prop :=
  t = { s with mem := s.memAfter x data, wcb := t.wcb, fault := { s.fault with tracks := t.fault.tracks },
               regs := t.regs, regul := t.regul, clock := t.clock } ∧ s.countsOnly t

/-- The byte at `a` is none that a write of line `x` changes: the line and its check word, where they are held, and the metadata word
of the line's row. -/
def State.apart (s : State) (x : LineLoc) (a : Nat) : Prop :=
  let h := s.lineHome x
  (a < h.1.addr + 64 * h.2 ∨ h.1.addr + 64 * h.2 + 64 ≤ a) ∧ (a < h.1.addr + 0x780 + 4 * h.2 ∨ h.1.addr + 0x784 + 4 * h.2 ≤ a)
    ∧ (a < x.loc.addr + 0x7F8 ∨ x.loc.addr + 0x800 ≤ a)

/-- No device byte but those of writes of the lines `xs` differs between `s` and `t`. -/
def State.onlyLines (s t : State) (xs : List LineLoc) : Prop :=
  ∀ a, (∀ x ∈ xs, s.apart x a) → memRead t.mem a = memRead s.mem a

/-- The lines of step log `g` into which `bs` at its offset `off` falls. -/
def State.logLines (s : State) (g : StepLog) (off : Nat) (bs : List Byte) : List LineLoc :=
  (lineWrites (s.regionWords g.region) (1920 * g.unit + off) bs).map (·.1)

/-- The lines of step log `g` that the "proceed" verdict writes (R330): the header, the epoch image, the first records of the areas. -/
def State.openLines (s : State) (g : StepLog) : List LineLoc :=
  s.logLines g 0 g.header ++ s.logLines g g.parts.epochs (g.epochs.flatMap epochBytes)
    ++ [g.parts.units, g.parts.trust, g.parts.moves].flatMap (fun o => s.logLines g o (leBytes 4 logEnd))

/-- The lines of the header of the step log. -/
def State.headerLines (s : State) : List LineLoc :=
  match s.log with
  | some g => s.logLines g 0 g.header
  | none => []

/-- The lines of the epoch image of the step log. -/
def State.epochLines (s : State) : List LineLoc :=
  match s.log with
  | some g => s.logLines g g.parts.epochs (List.replicate (2 * g.epochs.length) 0)
  | none => []

/-- The line of descriptor `i` of section `t` in the image of plan `p` (R163). -/
def State.descLine (s : State) (p : Plan) (t i : Nat) : LineLoc := (s.regionWords p.region).lineAt (p.sectionOff t + 64 * i)

/-- The lines of a touched sector (R28). -/
def State.sectLines (s : State) (x : SectorSt) : List LineLoc :=
  sectorLocs (s.sectorPlace x).red (s.sectorPlace x).g16w (s.sectorPlace x).sect

/-- A write of line `y` changes no byte that a write of line `x` changes. -/
def State.disjoint (s : State) (x y : LineLoc) : Prop := ∀ a, s.apart x a ∨ s.apart y a

/-- The BSU of a line's pair, where it is in service, finds the line where the controller does (R271). -/
def State.oneHome (s : State) (x : LineLoc) : Prop :=
  s.inService x.loc.dev = true → (s.seenByBsu x.loc).lineHome x = s.lineHome x

/-- Line `x` is clean and held in its own place, in no remap slot. -/
def State.plain (s : State) (x : LineLoc) : Prop := s.clean x ∧ s.lineHome x = (x.loc, x.line)

/-- Each of the lines `xs` is held in its own place, and no two of them in the same. -/
def State.ownLines (s : State) (xs : List LineLoc) : Prop :=
  (∀ x ∈ xs, s.lineHome x = (x.loc, x.line) ∧ x.line < 30) ∧ (xs.map (fun x => x.loc.addr + 64 * x.line)).Nodup

/-- Row `l` takes writes, and its lines are held in their own places. -/
def State.takesWrites (s : State) (l : RowLoc) : Prop :=
  (s.rowMeta l).any (!·.far) = true ∧ s.mappedOut l.dev l.ch = false ∧ ∀ i < 30, s.lineHome ⟨l, i⟩ = (l, i)

/-- Word `j` of the ten lines of a row from line `o` on: a master with `o` = 0, a first moment with 10, a second with 20 (R26). -/
def State.rowWord (s : State) (l : RowLoc) (o j : Nat) : Word :=
  BitVec.ofNat 32 (leAt (s.lineBytes ⟨l, o + j / 16⟩) (4 * (j % 16)) 4)

/-- The gradient sum of parameter `j` in the reduction sector of a pass, as FP32 (R28, R89). -/
def State.gradWord (s : State) (red : RowLoc) (r : PassRow) (flush : Bool) (j : Nat) : Word :=
  if r.g16w then s.rowWord red (10 * r.sect) j
  else (fpOfBf16 flush (BitVec.ofNat 16 (leAt (s.lineBytes ⟨red, 5 * r.sect + j / 32⟩) (2 * (j % 32)) 2))).go.1

/-- The values of R118 to R126 at one position, without their flags: master and moments after a single or apply pass of `rule` on the
gradient or direction `x`; a value that the rule does not write is as it was (log entry 63). -/
def PassConst.values (c : PassConst) (seed : List Byte) (rule : Nat) (bc1 bc2 x : Word) (e : Elem) : Elem :=
  let add a b := (fpAdd c.flush a b).go.1
  let sub a b := (fpSub c.flush a b).go.1
  let mul a b := (fpMul c.flush a b).go.1
  let div a b := (fpDiv seed c.flush a b).go.1
  let sqrt a := (fpSqrt seed c.flush a).go.1
  let decayed k a := if fpIsZero c.wd then a else add a (mul k e.w)
  let g := mul (fpScale c.flush x (-c.lse)).go.1 c.clip
  let gw := decayed c.wd g
  let heavy := add (mul c.beta1 e.m) gw
  let m1 y := add (mul c.beta1 e.m) (mul c.omb1 y)
  let v1 y := add (mul c.beta2 e.v) (mul c.omb2 (mul y y))
  let ratio y := div (mul (m1 y) bc1) (add (sqrt (mul (v1 y) bc2)) c.eps)
  let larsM := add (mul c.beta1 e.m) (mul c.etaX gw)
  match rule with
  | 0 => { e with w := sub e.w (mul c.eta gw) }
  | 1 => { e with w := sub e.w (mul c.eta heavy), m := heavy }
  | 2 => { e with w := sub e.w (mul c.eta (add gw (mul c.beta1 heavy))), m := heavy }
  | 3 => ⟨sub e.w (mul c.eta (ratio gw)), m1 gw, v1 gw⟩
  | 4 => ⟨sub e.w (decayed c.etaWd (mul c.eta (ratio g))), m1 g, v1 g⟩
  | 5 => { e with w := sub e.w (decayed c.etaWd (mul c.eta (fpSgn (m1 g)))), m := add (mul c.beta2 e.m) (mul c.omb2 g) }
  | 6 => ⟨sub e.w (mul c.etaX (decayed c.wd (ratio g))), m1 g, v1 g⟩
  | 7 => { e with w := sub e.w larsM, m := larsM }
  | 8 => { e with w := sub e.w (decayed c.etaWd (mul c.etaX x)) }
  | 9 => { e with m := add e.m g }
  | _ => e

/-- Parameter `j` of the state row at `l` as a pass reads it. -/
def State.elem (s : State) (l : RowLoc) (j : Nat) : Elem := ⟨s.rowWord l 0 j, s.rowWord l 10 j, s.rowWord l 20 j⟩

/-- Parameter `j` of the state row at `l` after a single or apply pass: a block that the mask leaves out as it was, a padding position
+0 (R27, R130), any other by the rule. -/
def State.newElem (s : State) (seed : List Byte) (l red : RowLoc) (c : PassConst) (r : PassRow) (j : Nat) : Elem :=
  if r.mask.testBit (blockOf j) = false then s.elem l j
  else if r.npar ≤ j then ⟨0, 0, 0⟩
  else c.values seed r.rule (r.bc1.getD (blockOf j) 0) (r.bc2.getD (blockOf j) 0) (s.gradWord red r c.flush j) (s.elem l j)

/-- The value of a finite FP32 code. -/
def fpRat (x : Word) : Rat := (if fpSign x then -1 else 1) * (fpSigExp x).1 * 2 ^ ((fpSigExp x).2 - 23)

/-- The value of a finite FP16 code. -/
def fp16Rat (h : Half) : Rat := (if h.getLsbD 15 then -1 else 1) * (fp16SigExp h).1 * 2 ^ (fp16SigExp h).2

/-- The magnitude that a code without its sign stands for on a grid, subnormals included. -/
def Grid.rat (g : Grid) (c : Nat) : Rat :=
  if c < 2 ^ g.mb then c * 2 ^ (g.emin - g.mb)
  else ((2 ^ g.mb + c % 2 ^ g.mb : Nat) : Rat) * 2 ^ (g.emin + ((c / 2 ^ g.mb : Nat) : Int) - 1 - g.mb)

/-- `n` is the magnitude `a` in units of the grid's spacing, rounded by R95 with draw `u`. -/
def RMode.rounds (mode : RMode) (a : Rat) (u : Nat) (n : Int) : Prop :=
  match mode with
  | .nearestEven => |a - n| < 1 / 2 ∨ |a - n| = 1 / 2 ∧ n % 2 = 0
  | .towardZero => n = ⌊a⌋
  | .stochastic => n = if 2 ^ 24 ≤ ⌊(a - ⌊a⌋) * 2 ^ 24⌋ + (u : Int) then ⌊a⌋ + 1 else ⌊a⌋

/-- Code `c` with saturation `sat` is the placing of `w` on the grid that R95 gives: `e` is floor(log2 of w's magnitude), at least
emin. -/
def Grid.placed (g : Grid) (mode : RMode) (w : Rat) (sign : Bool) (u : Nat) (c : Nat × Bool) : Prop :=
  c.1 / 2 ^ g.sbit = sign.toNat ∧ (w = 0 → c.1 % 2 ^ g.sbit = 0 ∧ c.2 = false) ∧
    ∀ k : Int, (2 : Rat) ^ k ≤ |w| → |w| < 2 ^ (k + 1) →
      let q : Rat := 2 ^ (max k g.emin - g.mb)
      ∃ n : Int, mode.rounds (|w| / q) u n ∧ g.rat (c.1 % 2 ^ g.sbit) = min (n * q) (g.rat g.top)
        ∧ (c.2 = true ↔ g.rat g.top < n * q)

/-- The device bytes after merging data into lines one after another: line, data, byte mask (R24). -/
def State.linesAfter (s : State) (ws : List (LineLoc × List Byte × Nat)) : List Host.Cell :=
  (ws.foldl (fun (u : State) w => { u with mem := u.memAfter w.1 (mergeBytes (u.lineBytes w.1) w.2.1 w.2.2) }) s).mem

/-- A message reaches the block: on a port that is ready, or from the block itself (R213, R386). -/
def State.reaches (s : State) (m : Msg) : Prop := s.portReady m.port = true ∨ s.toSelf m.hdr.src.toNat = true

/-- A message of kind `kind` reaches the block and passes checks 1 to 3 (R216). -/
def State.accepts (s : State) (kind : Nat) (m : Msg) : Prop :=
  s.reaches m ∧ s.flag Reg.CLOVER = false ∧ s.headerChecks kind m = none

/-- A message to block `dst` as it goes: on a port, or back to the block itself (R213). -/
def State.sends (s : State) (dst port kind : Nat) (hdr : MsgHdr) (payload : List Byte) : Out :=
  if s.toSelf dst then .own kind hdr payload else .msg port kind hdr payload

/-- The answer of kind `kind` to message `m`: on the port of `m`, to its sender, with Q, ROLE, INDEX, S and EPOCH copied (R213,
R215, R217). -/
def State.answerTo (s : State) (m : Msg) (kind : Nat) (payload : List Byte) : Out :=
  s.sends m.hdr.src.toNat m.port.toNat kind { m.hdr with
    ver := 1, vc := BitVec.ofNat 2 (kindVc kind), src := BitVec.ofNat 16 s.blockNo, dst := m.hdr.src,
    len := BitVec.ofNat 32 payload.length } payload

/-- The kind and the message of a message command (R215). -/
def msgOf : Instr → Option (Nat × Msg)
  | .greq m => some (0x01, m) | .mark m => some (0x02, m) | .grant m => some (0x03, m) | .defer m => some (0x04, m)
  | .ack m => some (0x05, m) | .nack m => some (0x06, m) | .contrib m => some (0x10, m) | .chunk m => some (0x20, m)
  | .token m => some (0x21, m) | .skip m => some (0x22, m) | .ecred m => some (0x23, m) | .ecreq m => some (0x24, m)
  | .openUp m => some (0x30, m) | .openDn m => some (0x31, m) | .sealUp m => some (0x32, m) | .sealDn m => some (0x33, m)
  | .cntUp m => some (0x34, m) | .cntDn m => some (0x35, m) | .rwr m => some (0x40, m.val) | .rrd m => some (0x41, m.val)
  | .rrsp m => some (0x42, m) | .rwack m => some (0x43, m)
  | _ => none

end Sys2Proof.Machine
end

