-- ==== Sys2Proof/Certificates/Slice0/Obligations.lean ====
section
/-! DEFINITION. The statements about the block. Each says which rules of the manual it formalises; `s` is any state, so that
nothing is assumed of how it was reached. -/

open Sys2Proof Sys2Proof.Machine

/-! ### Sarenina: scalars, predicates, constants -/

/-- Scalar arithmetic (R196): on 64-bit values modulo 2^64; shift counts are bits [5:0]; immediates are sign-extended. Each
instruction writes sD, goes on to the next instruction, and changes nothing else. -/
def Obligations.ScalarResults : Prop :=
  ∀ (s : State) (pl : Plan) (p : Pred) (rd ra rb : BitVec 4) (pa : BitVec 3) (imm : Word), s.takes p →
    let done (i : Instr) (v : DWord) : Prop :=
      s.Fetches pl i → exec i s = .next (s.stepped (fun q => { q with s := q.s.set rd.toNat v }))
    done (.li p rd imm) (imm.signExtend 64) ∧
    done (.lhi p rd imm) ((imm.setWidth 64 <<< 32) ||| (s.sget rd &&& 0xFFFFFFFF)) ∧
    done (.mov p rd ra) (s.sget ra) ∧
    done (.add p rd ra rb) (s.sget ra + s.sget rb) ∧
    done (.addi p rd ra imm) (s.sget ra + imm.signExtend 64) ∧
    done (.sub p rd ra rb) (s.sget ra - s.sget rb) ∧
    done (.mul p rd ra rb) (s.sget ra * s.sget rb) ∧
    done (.and p rd ra rb) (s.sget ra &&& s.sget rb) ∧
    done (.or p rd ra rb) (s.sget ra ||| s.sget rb) ∧
    done (.xor p rd ra rb) (s.sget ra ^^^ s.sget rb) ∧
    done (.shl p rd ra rb) (s.sget ra <<< ((s.sget rb).extractLsb' 0 6).toNat) ∧
    done (.shr p rd ra rb) (s.sget ra >>> ((s.sget rb).extractLsb' 0 6).toNat) ∧
    (imm.toNat < 64 → done (.shli p rd ra imm) (s.sget ra <<< imm.toNat)) ∧
    (imm.toNat < 64 → done (.shri p rd ra imm) (s.sget ra >>> imm.toNat)) ∧
    done (.pmov p rd pa) (if s.pget pa then 1 else 0)

/-- Comparisons and predicate logic (R196): the signed and the unsigned order, the immediate of cmpltui zero-extended; a write
to p0 has no effect, and p0 reads 1 (R172). Nothing but pD changes. -/
def Obligations.CompareResults : Prop :=
  ∀ (s : State) (pl : Plan) (p : Pred) (pd pa pb : BitVec 3) (ra rb : BitVec 4) (imm : Word), s.takes p →
    let done (i : Instr) (v : Bool) : Prop :=
      s.Fetches pl i → exec i s = .next (s.stepped (fun q => if pd = 0 then q else { q with p := q.p.set pd.toNat v }))
    done (.cmpeq p pd ra rb) (decide ((s.sget ra).toNat = (s.sget rb).toNat)) ∧
    done (.cmpne p pd ra rb) (decide ((s.sget ra).toNat ≠ (s.sget rb).toNat)) ∧
    done (.cmplt p pd ra rb) (decide ((s.sget ra).toInt < (s.sget rb).toInt)) ∧
    done (.cmple p pd ra rb) (decide ((s.sget ra).toInt ≤ (s.sget rb).toInt)) ∧
    done (.cmpltu p pd ra rb) (decide ((s.sget ra).toNat < (s.sget rb).toNat)) ∧
    done (.cmpleu p pd ra rb) (decide ((s.sget ra).toNat ≤ (s.sget rb).toNat)) ∧
    done (.cmpeqi p pd ra imm) (decide ((s.sget ra).toInt = imm.toInt)) ∧
    done (.cmpltui p pd ra imm) (decide ((s.sget ra).toNat < imm.toNat)) ∧
    done (.pand p pd pa pb) (s.pget pa && s.pget pb) ∧
    done (.por p pd pa pb) (s.pget pa || s.pget pb) ∧
    done (.pnot p pd pa) (!s.pget pa) ∧
    s.pget 0 = true

/-- Step constants, control registers, flags and digests read into a scalar: the keys of rdk (R197), the digits of V (R56), the
register that rcr names, zero-extended, 0 for one that may not be read or is not there (R201), the group word of frd, 0 for a
group that the plan does not hold (R207), ODIG (R209), the status word of a BSU in service (R206,
R277). Only sD changes, and for the status word the sequences that have ended (R279). Rests on the model's choice in log entry 39. -/
def Obligations.ReadsIntoScalar : Prop :=
  ∀ (s : State) (pl : Plan) (p : Pred) (rd ra : BitVec 4) (imm : Word), s.takes p →
    let done (i : Instr) (v : DWord) : Prop :=
      s.Fetches pl i → exec i s = .next (s.stepped (fun q => { q with s := q.s.set rd.toNat v }))
    done (.rdk p rd 0) (BitVec.ofNat 64 s.step.hdr.v) ∧
    done (.rdk p rd 1) (BitVec.ofInt 64 s.step.hdr.lse) ∧
    done (.rdk p rd 2) (BitVec.ofNat 64 s.step.hdr.seed) ∧
    done (.rdk p rd 3) (BitVec.ofNat 64 s.step.hdr.s) ∧
    done (.rdk p rd 4) (BitVec.ofNat 64 s.step.hdr.g) ∧
    done (.rdk p rd 5) (BitVec.ofNat 64 s.seq.openV) ∧
    done (.rdk p rd 6) (BitVec.ofNat 64 s.seq.sealV) ∧
    done (.rdk p rd 7) (BitVec.ofNat 64 (s.get Reg.REASON)) ∧
    done (.rdk p rd 8) (BitVec.ofNat 64 pl.hdr.blockNo) ∧
    done (.rdk p rd 9) (BitVec.ofNat 64 pl.hdr.nblock) ∧
    done (.rdk p rd 10) (BitVec.ofNat 64 pl.bundles.length) ∧
    done (.rdk p rd 11) (BitVec.ofNat 64 pl.hdr.planId) ∧
    done (.vdig p rd imm) (BitVec.ofNat 64 (pl.digit s.step.hdr.v imm.toNat)) ∧
    done (.rcr p rd imm) (BitVec.ofNat 64 (s.issued.readWord imm.toNat)) ∧
    done (.frd p rd ra) (match pl.groups[(s.sget ra).toNat]? with
      | some g => BitVec.ofNat 64 (8 * g.flags.invalid.toNat + 4 * g.flags.overflow.toNat + 2 * g.flags.flushed.toNat
          + g.cfg.flush.toNat)
      | none => 0) ∧
    done (.odig p rd) (BitVec.ofNat 64 (s.get64 Reg.ODIG_LO Reg.ODIG_HI)) ∧
    (let w := (s.sget ra).toNat
     s.inService (w / 32 % 32) = true →
       s.Fetches pl (.bsust p rd ra) → exec (.bsust p rd ra) s = .next ({ s with dev := s.retire.dev }.stepped (fun q =>
         { q with s := q.s.set rd.toNat (BitVec.ofNat 64 (s.retire.bsuStatus (w / 32 % 32) (w / 8 % 4) (w % 8) (w / 1024 % 2))) })))

/-- Address arithmetic (R198): the offset wraps modulo 2^42, and the region never changes; sect gives the loaded image's region
and the section's offset. Only aD, or sD, changes. -/
def Obligations.AddressResults : Prop :=
  ∀ (s : State) (pl : Plan) (p : Pred) (rd rb : BitVec 4) (ad ar : BitVec 3) (imm : Word), s.takes p →
    let at_ (r off : Nat) : BitVec 48 := BitVec.ofNat 48 (r * 2 ^ 42 + off % 2 ^ 42)
    let r := (s.aget ar).toNat / 2 ^ 42
    let off := (s.aget ar).toNat % 2 ^ 42
    let done (i : Instr) (v : BitVec 48) : Prop :=
      s.Fetches pl i → exec i s = .next (s.stepped (fun q => { q with a := q.a.set ad.toNat v }))
    done (.lia p ad imm) (at_ (imm.toNat / 2 ^ 26) (imm.toNat % 2 ^ 26)) ∧
    done (.addai p ad ar imm) (at_ r (off + (imm.signExtend 64).toNat)) ∧
    done (.adda p ad ar rb) (at_ r (off + (s.sget rb).toNat)) ∧
    done (.sect p ad imm) (BitVec.ofNat 48 (pl.region * 2 ^ 42 + pl.sectionOff imm.toNat)) ∧
    (s.Fetches pl (.mova p rd ar) →
      exec (.mova p rd ar) s = .next (s.stepped (fun q => { q with s := q.s.set rd.toNat ((s.aget ar).setWidth 64) })))

/-- Control (R192, R193): where each instruction that executes leaves pc and the call stack; loop counts sA down. -/
def Obligations.ControlResults : Prop :=
  ∀ (s : State) (pl : Plan) (p : Pred) (ra : BitVec 4) (t n : Word), s.takes p →
    let done (i : Instr) (f : Seq → Seq) : Prop := s.Fetches pl i → exec i s = .next (s.stepped f)
    done (.nop p) id ∧
    done (.br p t) (fun q => { q with pc := t.toNat }) ∧
    (s.seq.stack.length < 16 →
      done (.call p t) (fun q => { q with stack := (s.seq.pc + 1) :: q.stack, pc := t.toNat })) ∧
    (∀ r rest, s.seq.stack = r :: rest → done (.ret p) (fun q => { q with stack := rest, pc := r })) ∧
    done (.jt p ra n) (fun q => { q with pc := s.seq.pc + 1 + min (s.sget ra).toNat n.toNat }) ∧
    (s.sget ra ≠ 0 → done (.loop p ra t) (fun q => { q with s := q.s.set ra.toNat (s.sget ra - 1), pc := t.toNat })) ∧
    (s.sget ra = 0 → done (.loop p ra t) id)

/-- A trap (R181, R190 to R193): call with 16 entries on the stack and ret with none trap with cause 0x05 and the depth; open
outside its phase, seal, rec, commit, cdone, lwait and tmov out of order trap with cause 0x03 and their phase-rule code; open and
commit trap with cause 0x02 where a list that they read cannot be read, with the row unit of its first such line (R180). -/
def Obligations.SequencerTraps : Prop :=
  ∀ (s : State) (pl : Plan) (p : Pred) (ar : BitVec 3) (t n : Word), s.takes p →
    let traps (i : Instr) (cause info : Nat) : Prop := s.Fetches pl i → completes i s (fun x => s.Trapped x cause info)
    (16 ≤ s.seq.stack.length → traps (.call p t) 0x05 16) ∧
    (s.seq.stack = [] → traps (.ret p) 0x05 0) ∧
    (s.get Reg.PHASE ≠ 1 ∨ s.seq.openRun = true → traps (.openStep p) 0x03 0x01) ∧
    (s.seq.openV ≠ 1 ∨ s.seq.sealRun = true → traps (.sealStep p) 0x03 0x03) ∧
    (s.seq.sealV ≠ 1 ∨ s.seq.commitRun = true → traps (.recArm p ar n) 0x03 0x05) ∧
    (s.seq.sealV ≠ 1 ∨ s.seq.commitRun = true → traps (.commit p) 0x03 0x06) ∧
    (s.seq.commitRun = false → traps (.cdone p) 0x03 0x07 ∧ traps (.lwait p) 0x03 0x07) ∧
    (s.seq.openV ≠ 1 → traps (.tmov p ar n) 0x03 0x08) ∧
    (∀ u, (pl.openRanges s.step.hdr.v).findSome? (fun r => s.badUnit? pl.region r.1 r.2) = some u →
      s.get Reg.PHASE = 1 → s.seq.openRun = false → traps (.openStep p) 0x02 u) ∧
    (∀ u, (pl.commitRanges s.step.hdr.v).findSome? (fun r => s.badUnit? pl.region r.1 r.2) = some u →
      s.seq.sealV = 1 → s.seq.commitRun = false → traps (.commit p) 0x02 u)

/-- The instruction count (R194): every instruction that issues is counted; one whose predicate does not hold has no effect but the
count and does not wait (R186); one that would make the count exceed INSN_LIMIT traps with cause 0x07 instead; stage 1 of a load
refuses an image whose INSN_LIMIT is 0. An aadd or aaddf that must wait for its unit has not issued (the model's choice, log entry
124). `sarPred` names the instructions and their predicates. -/
def Obligations.PredicateAndLimit : Prop :=
  (∀ (b : List Byte) (size : Nat), leAt b 0x44 4 = 0 → (stage1 b size).isSome = true) ∧
  ∀ (i : Instr) (p : Pred) (s : State) (pl : Plan), sarPred i = some p →
    let held : Prop := s.takes p ∧ ((∃ r ar imm, i = .aadd p r ar imm ∧ s.issued.atomicHeld ar imm 8 = true)
      ∨ ∃ r ar imm, i = .aaddf p r ar imm ∧ s.issued.atomicHeld ar imm 4 = true)
    (s.Fetches pl i → held → exec i s = .next s.settleInsts) ∧
    (s.Fetches pl i → ¬ held → completes i s (fun t => t.seq.count = s.seq.count + 1)) ∧
    (s.Fetches pl i → ¬ s.takes p → exec i s = .next (s.stepped id)) ∧
    (s.plan.plan = some pl → s.seq.running = true → s.seq.wait = none → s.icache.miss = none →
      sarEncode i = some (pl.codeWord s.seq.pc) → s.icache.holds (s.seq.pc / 8) = true →
      pl.hdr.insnLimit ≤ s.seq.count → completes i s (fun t => s.Trapped t 0x07 pl.hdr.insnLimit))

/-! ### Sarenina: memory, the step's commands -/

/-- ld, ldc, st (R198 to R200): an access of 8, 4, 2 or 1 bytes, rounded down to its size, in one line; ld and ldc zero-extend
what they read into sD; st puts the low bytes of sS into the line and leaves the rest of it. The pin traffic is counted; nothing
else changes. Rests on the model's choices in log entries 16, 29. -/
def Obligations.LoadStoreResults : Prop :=
  ∀ (s : State) (pl : Plan) (p : Pred) (r : BitVec 4) (ar : BitVec 3) (sz : BitVec 2) (imm : Word), s.takes p →
    let n := accessSize sz
    let reg := (s.accessAt ar imm n).1
    let off := (s.accessAt ar imm n).2
    let x := (s.regionWords reg).lineAt off
    let v := BitVec.ofNat 64 (leAt (s.lineBytes x) (off % 64) n)
    s.beyond reg off n = false → s.clean x →
      (s.Fetches pl (.ld p r ar sz imm) → completes (.ld p r ar sz imm) s (fun t =>
        (s.stepped (fun q => { q with s := q.s.set r.toNat v })).charged t)) ∧
      (s.Fetches pl (.ldc p r ar sz imm) → s.inConstSection reg off n = true → completes (.ldc p r ar sz imm) s (fun t =>
        (s.stepped (fun q => { q with s := q.s.set r.toNat v })).charged t)) ∧
      (s.Fetches pl (.st p r ar sz imm) → s.seqWritable reg = true → completes (.st p r ar sz imm) s (fun t =>
        (s.stepped id).wrote x (spliceBytes (s.lineBytes x) (off % 64) (leBytes n (s.sget r).toNat)) t))

/-- aadd and aaddf (R200, R259, R260): an 8 B integer add modulo 2^64, and an FP32 add, into the line that holds the word; no
other byte of the line changes, and the sequencer's registers do not change. A BSU in service, which may start its sequence now, does
it on the line as its own remap entries give it (R271). Rests on the model's choice in log entry 124. -/
def Obligations.AtomicAddResults : Prop :=
  ∀ (s : State) (pl : Plan) (p : Pred) (r : BitVec 4) (ar : BitVec 3) (imm : Word), s.takes p →
    let sum (i : Instr) (n : Nat) (f : Nat → Nat) : Prop :=
      let reg := (s.accessAt ar imm n).1
      let off := (s.accessAt ar imm n).2
      let x := (s.regionWords reg).lineAt off
      let old := leAt (s.lineBytes x) (off % 64) n
      s.Fetches pl i → s.beyond reg off n = false → s.seqWritable reg = true → s.clean x → s.oneHome x →
        s.issued.atomicHeld ar imm n = false → completes i s (fun t =>
          t.mem = s.memAfter x (spliceBytes (s.lineBytes x) (off % 64) (leBytes n (f old)))
          ∧ (s.stepped id).countsOnly t
          ∧ Same [.mem, .wcb, .fault, .dev, .regul, .clock] (s.stepped id) t)
    sum (.aadd p r ar imm) 8 (fun old => (old + (s.sget r).toNat) % 2 ^ 64) ∧
    sum (.aaddf p r ar imm) 4 (fun old =>
      (fpAdd true (BitVec.ofNat 32 old) (BitVec.ofNat 32 ((s.sget r).toNat % 2 ^ 32))).go.1.toNat)

/-- What a memory access may and may not do (R33, R191, R198, R199). An offset names its row unit, its line and its byte; no requester
reaches beyond a region's size. A disabled region or a place beyond the region traps with cause
0x04; so does a ldc outside the constant sections, and a st, aadd or aaddf to a region that the sequencer may not write: it may
write activation and spare regions, and plan regions that hold neither the loaded nor a pending image, whatever the region's
permissions, and may read any enabled region. TRAP_INFO is the row unit, or 0xFFFF_FFFF for a disabled region. -/
def Obligations.AccessTraps : Prop :=
  ∀ (s : State) (pl : Plan) (p : Pred) (r : BitVec 4) (ar : BitVec 3) (sz : BitVec 2) (imm : Word), s.takes p →
    let traps (i : Instr) (n : Nat) (bad : Nat → Nat → Prop) : Prop :=
      let reg := (s.accessAt ar imm n).1
      let off := (s.accessAt ar imm n).2
      s.Fetches pl i → bad reg off → completes i s (fun t =>
        s.Trapped t 0x04 (if s.enabled reg then off / 1920 else 0xFFFFFFFF))
    let n := accessSize sz
    (∀ (e : RegionWords) (o : Nat), e.size = 1920 * e.rows ∧ e.lineAt o = ⟨e.unitRow (o / 1920), o % 1920 / 64⟩) ∧
    (∀ (q : Requester) (w : Bool) (reg off len : Nat), (s.regionWords reg).size < off + len →
      s.checkRequest q w reg off len ≠ .ok) ∧
    let out (n : Nat) (reg off : Nat) : Prop := s.enabled reg = false ∨ (s.regionWords reg).size < off + n
    traps (.ld p r ar sz imm) n (out n) ∧
    traps (.ldc p r ar sz imm) n (fun reg off => out n reg off ∨ s.inConstSection reg off n = false) ∧
    let may (reg : Nat) : Prop := (s.regionWords reg).cls = .activation ∨ (s.regionWords reg).cls = .spare
      ∨ ((s.regionWords reg).cls = .plan ∧ reg ≠ pl.region ∧ (∀ q, s.plan.pend = some q → reg ≠ q.region)
        ∧ ∀ l, s.plan.load = some l → reg ≠ l.region)
    let goes (i : Instr) (n : Nat) (ok : Nat → Prop) : Prop :=
      let reg := (s.accessAt ar imm n).1
      let off := (s.accessAt ar imm n).2
      s.Fetches pl i → ¬ out n reg off → ok reg → s.clean ((s.regionWords reg).lineAt off) → completes i s (fun t =>
        t.seq.pc = s.seq.pc + 1 ∧ t.seq.trapped = s.seq.trapped)
    traps (.st p r ar sz imm) n (fun reg off => out n reg off ∨ ¬ may reg) ∧
    traps (.aadd p r ar imm) 8 (fun reg off => out 8 reg off ∨ ¬ may reg) ∧
    traps (.aaddf p r ar imm) 4 (fun reg off => out 4 reg off ∨ ¬ may reg) ∧
    goes (.st p r ar sz imm) n may ∧ (s.issued.atomicHeld ar imm 8 = false → goes (.aadd p r ar imm) 8 may) ∧
    (s.issued.atomicHeld ar imm 4 = false → goes (.aaddf p r ar imm) 4 may) ∧
    goes (.ld p r ar sz imm) n (fun _ => True)

/-- wcr writes a mailbox register (R201, R202); hsh gives the record digest of the bytes at aN (R209, R312); dmix gives the digest
term t(u, n) of R59, written out here, of the low words of its operands; rec arms record
entries and tmov queues residency entries, and notes itself in the move area of the step log, changing no other byte (R208, R330). -/
def Obligations.WcrHshDmixRecTmov : Prop :=
  ∀ (s : State) (pl : Plan) (p : Pred) (rd ra rb : BitVec 4) (ar : BitVec 3) (i : Nat) (n len : Word) (b : List Byte), s.takes p →
    let reg := (s.addrOf ar).1
    let off := (s.addrOf ar).2
    (i < 8 → s.Fetches pl (.wcr p rd (BitVec.ofNat 32 (0x08C0 + 8 * i))) →
      completes (.wcr p rd (BitVec.ofNat 32 (0x08C0 + 8 * i))) s (fun t =>
        t.get (Reg.MBOX_LO i) = (s.sget rd).toNat % 2 ^ 32 ∧ (s.stepped id).onlyRegs t [Reg.MBOX_LO i])) ∧
    (i < 8 → s.Fetches pl (.wcr p rd (BitVec.ofNat 32 (0x08C4 + 8 * i))) →
      completes (.wcr p rd (BitVec.ofNat 32 (0x08C4 + 8 * i))) s (fun t =>
        t.get (Reg.MBOX_HI i) = (s.sget rd).toNat % 2 ^ 32 ∧ (s.stepped id).onlyRegs t [Reg.MBOX_HI i])) ∧
    (s.Fetches pl (.hsh p rd ar len) → s.beyond reg off len.toNat = false → s.holds reg off len.toNat b →
      completes (.hsh p rd ar len) s (fun t =>
        (s.stepped (fun q => { q with s := q.s.set rd.toNat (recordDigest b) })).charged t)) ∧
    (let x := BitVec.ofNat 64 ((s.sget ra).toNat % 2 ^ 32) <<< 32 ||| BitVec.ofNat 64 ((s.sget rb).toNat % 2 ^ 32)
     let x := x ^^^ (x >>> 31)
     let x := x * 0x9E6F1A3BC54D2E87
     let x := x ^^^ (x >>> 29)
     let x := x * 0xC2B54D1786E3A9F1
     s.Fetches pl (.dmix p rd ra rb) →
      exec (.dmix p rd ra rb) s = .next (s.stepped (fun q => { q with s := q.s.set rd.toNat (x ^^^ (x >>> 32)) }))) ∧
    (s.Fetches pl (.recArm p ar n) → s.seq.sealV = 1 → s.seq.commitRun = false → s.inSection 0x14 reg off n.toNat = true →
      s.holds reg off (16 * n.toNat) b →
      completes (.recArm p ar n) s (fun t =>
        t.step.armed = (List.range n.toNat).map (fun i => parseRec b (16 * i)) ∧ t.seq = (s.stepped id).seq ∧ s.countsOnly t
        ∧ Same [.seq, .step, .regul, .clock] s t)) ∧
    (s.Fetches pl (.tmov p ar n) → s.seq.openV = 1 → s.inSection 0x13 reg off n.toNat = true → s.tier.tmovs < 4096 →
      s.flag Reg.THALT = false → s.holds reg off (16 * n.toNat) b →
      completes (.tmov p ar n) s (fun t =>
        t.tier = { s.tier with queue := s.tier.queue ++ (List.range n.toNat).map (fun i => parseMove b (16 * i)),
                               tmovs := s.tier.tmovs + 1 }
        ∧ t.log = s.log.map (fun g => { g with moves := g.moves ++ [(off, n.toNat)] })
        ∧ t.seq = (s.stepped id).seq
        ∧ s.onlyLines t (match s.log with
            | some g => s.logLines g (g.parts.moves + 8 * g.moves.length) (List.replicate 12 0)
            | none => [])))

/-- open and seal (R188, R203, R211, R231, R330): open waits for its verdict; a leaf of the tree sends its open record to its parent, or
keeps it to be sent while every port has failed; the root of one block has its verdict at once: "proceed" opens PHASE 2 and the step
log, which is written to no other lines than its own; a node whose children have not all sent theirs keeps its record. seal waits for
arrival to end. Rests on the model's choices in log entries 10, 44. -/
def Obligations.OpenSealResults : Prop :=
  ∀ (s : State) (pl : Plan) (p : Pred), s.takes p →
    let rec_ := s.openRecord pl
    let waiting := { s.seq with count := s.seq.count + 1, openRun := true, wait := some .openVerdict }
    (s.Fetches pl (.openStep p) → s.get Reg.PHASE = 1 → s.seq.openRun = false → (∀ r ∈ s.exch.own, r.kind ≠ 0x30) →
        s.listsClean pl (pl.openRanges s.step.hdr.v) →
      (pl.tree.children = [] → pl.tree.parent ≠ 0xFFFF → s.portsOf 0 ≠ [] → completes (.openStep p) s (fun t =>
        t.seq = waiting
        ∧ (∃ port ∈ s.portsOf 0, ∃ hdr, t.out = s.out ++ [s.sends pl.tree.parent port 0x30 hdr rec_]
            ∧ hdr.dst = BitVec.ofNat 16 pl.tree.parent ∧ hdr.step = BitVec.ofNat 64 s.step.hdr.s)
        ∧ t.mem = s.mem)) ∧
      (pl.tree.children = [] → pl.tree.parent ≠ 0xFFFF → s.portsOf 0 = [] → completes (.openStep p) s (fun t =>
        t.seq = waiting ∧ t.exch.held = s.exch.held ++ [⟨0x30, pl.tree.parent, s.step.hdr.s, rec_⟩] ∧ t.out = s.out
        ∧ t.mem = s.mem)) ∧
      (pl.tree.children = [] → pl.tree.parent = 0xFFFF → openReason rec_ = 0 → completes (.openStep p) s (fun t =>
        let g := s.newLog pl
        t.seq.openV = 1 ∧ t.seq.wait = none ∧ t.seq.pc = s.seq.pc + 1 ∧ t.get Reg.PHASE = 2 ∧ t.get Reg.REASON = 0
        ∧ t.log = some g ∧ t.out = s.out
        ∧ s.onlyLines t (s.openLines g))) ∧
      ((∃ c ∈ pl.tree.children, s.upFrom 0x30 s.step.hdr.s c = none) → completes (.openStep p) s (fun t =>
        t.seq = waiting ∧ t.exch.own = s.exch.own ++ [⟨0x30, s.blockNo, s.step.hdr.s, rec_⟩] ∧ t.out = s.out ∧ t.mem = s.mem))) ∧
    (s.Fetches pl (.sealStep p) → s.seq.openV = 1 → s.seq.sealRun = false →
      (∀ n < s.step.slots.length, ∃ i ∈ s.step.insts, i.emission = false ∧ n ∈ i.items) →
      exec (.sealStep p) s
        = .next { s.issued with seq := { s.issued.seq with sealRun := true, wait := some .sealArrival } })

/-- The instance list and its instances (R179, R203 to R205, R330): cset takes the list, and notes it in the header of the step log
after the "proceed" verdict; coll begins an arrival instance while seal has not run and an emission instance, its list being readable,
once the seal verdict is there, or waits until COLL_BEGIN begins it; cwait goes on once the instance has ended.
Rests on the model's choices in log entries 8, 10. -/
def Obligations.CollectiveResults : Prop :=
  ∀ (s : State) (pl : Plan) (p : Pred) (ar : BitVec 3) (n q : Word) (b : List Byte), s.takes p →
    let reg := (s.addrOf ar).1
    let off := (s.addrOf ar).2
    (s.Fetches pl (.cset p ar n) → 1 ≤ n.toNat → n.toNat ≤ 1024 → s.step.cset = none →
      s.beyond reg off (4 * n.toNat) = false → s.inConstSection reg off (4 * n.toNat) = true → s.holds reg off (4 * n.toNat) b →
      (∀ i < n.toNat, bits (leAt b (4 * i) 4) 30 16 = 0) →
      (∀ i, i + 1 < n.toNat → leAt b (4 * i) 2 < leAt b (4 * (i + 1)) 2) →
      completes (.cset p ar n) s (fun t =>
        t.step.cset = some ((List.range n.toNat).map (fun i => (leAt b (4 * i) 2, decide (2 ^ 31 ≤ leAt b (4 * i) 4))))
        ∧ (∀ x, x ∈ t.step.posts ↔ x ∈ s.step.posts ∧
            ∃ i < n.toNat, x = leAt b (4 * i) 2 ∧ 2 ^ 31 ≤ leAt b (4 * i) 4)
        ∧ (s.step.posts ≠ t.step.posts → t.flag Reg.BADPOST = true)
        ∧ t.log = s.log.map (fun g => if s.seq.openV = 1 then { g with csetOff := off, csetN := n.toNat } else g)
        ∧ t.seq = (s.stepped id).seq
        ∧ s.onlyLines t (match s.log with
            | some g => if s.seq.openV = 1 then s.logLines g 0 g.header else []
            | none => []))) ∧
    (let i := s.issued.parseInst b
     s.Fetches pl (.coll p ar q) → s.beyond reg off 32 = false → s.inConstSection reg off 32 = true → s.holds reg off 32 b →
      (s.step.cset.getD []).any (fun e => e.1 == q.toNat) = true → s.inst? q.toNat = none → i.q = q.toNat →
      (if i.emission then s.seq.sealV ≠ 0 else s.seq.openV = 1 ∧ s.seq.sealRun = false) →
      (s.issued.mayBegin i = true → (i.emission = true → s.listsClean pl (pl.emissionRanges s.step.hdr.v)) →
        completes (.coll p ar q) s (fun t =>
        (t.inst? q.toNat).any (fun j => j.emission == i.emission && j.items == i.items && j.cgrp == i.cgrp) = true
        ∧ t.seq = (s.stepped id).seq ∧ t.mem = s.mem ∧ t.out = s.out)) ∧
      (s.issued.mayBegin i = false → completes (.coll p ar q) s (fun t =>
        t.seq = { s.seq with count := s.seq.count + 1, wait := some (.coll q.toNat) } ∧ t.step.insts = s.issued.step.insts
        ∧ t.mem = s.mem))) ∧
    (∀ i, s.plan.plan = some pl → s.settleInsts.waitingInst = some i → s.settleInsts.mayBegin i = true → s.inst? i.q = none →
      (i.emission = true → s.listsClean pl (pl.emissionRanges s.step.hdr.v)) → completes .collBegin s (fun t =>
        (t.inst? i.q).any (fun j => j.emission == i.emission && j.items == i.items) = true
        ∧ t.seq = { s.seq with wait := none, pc := s.seq.pc + 1 }
        ∧ s.countsOnly t ∧ Same [.seq, .step, .regul, .clock] s t)) ∧
    (∀ i, s.Fetches pl (.cwait p q) → s.issued.inst? q.toNat = some i →
      (i.ended = true → exec (.cwait p q) s = .next (s.stepped id)) ∧
      (i.ended = false → exec (.cwait p q) s
        = .next { s.issued with seq := { s.issued.seq with wait := some (.cwait q.toNat) } }))

/-- commit, cdone, lwait, twait and stepend (R188, R195, R206, R208): commit, its lists being readable, starts them, and PHASE is 5 at
once where nothing is to be done; each of the others goes on when what it waits for has ended, else waits; stepend waits for the
step's boundary. Rests on the model's choice in log entry 8. -/
def Obligations.CommitWaitResults : Prop :=
  ∀ (s : State) (pl : Plan) (p : Pred), s.takes p →
    let waits (i : Instr) (w : SeqWait) (done : Bool) (f : Seq → Seq) : Prop :=
      s.Fetches pl i → exec i s = .next (if done then s.stepped f
        else { s.issued with seq := { s.issued.seq with wait := some w } })
    (s.Fetches pl (.commit p) → s.seq.sealV = 1 → s.seq.commitRun = false → s.listsClean pl (pl.commitRanges s.step.hdr.v) →
      completes (.commit p) s (fun t =>
        t.get Reg.PHASE = (if s.get Reg.PHASE = 4 ∧ s.step.rowsEnded = true ∧ s.step.layersEnded = true then 5
          else s.get Reg.PHASE)
        ∧ (∀ f : Field, ¬ f.isCount → f.key ≠ Reg.PHASE.key → t.get f = s.get f)
        ∧ Same [.regul, .clock] (s.stepped (fun q => { q with commitRun := true })) t)) ∧
    (s.seq.commitRun = true →
      waits (.cdone p) .cdone (s.step.rowsEnded && s.step.layersEnded) (fun q => { q with cdoneOk := true }) ∧
      waits (.lwait p) .lwait s.step.layersEnded id) ∧
    waits (.twait p) .twait s.tier.queue.isEmpty id ∧
    (s.Fetches pl (.stepend p) → s.issued.stependReady = false ∨ s.issued.stependOk = true → exec (.stepend p) s
      = .next { s.issued with seq := { s.issued.seq with wait := some .stepend } })

/-- bsutab, fclr and the arrival of a missed code line (R177, R206, R207): bsutab loads the seed table, which can be read, into the 32
BSUs of every device that sA names and of no other, and changes no device byte; fclr clears the reports that its kind names and no
others; a clean code line comes into the cache and ends the miss. Rests on the model's choice in log entry 40. -/
def Obligations.TableAndFlagResults : Prop :=
  ∀ (s : State) (pl : Plan) (p : Pred) (ra : BitVec 4) (ar : BitVec 3) (kind : Word), s.takes p →
    let quiet := s.seq.openRun = false ∨ s.seq.cdoneOk = true ∨ s.seq.openV = 2 ∨ s.seq.sealV = 2
    let i := (s.sget ra).toNat
    (s.Fetches pl (.bsutab p ra ar) → quiet → s.addrOf ar = (pl.region, pl.sectionOff 9) →
      (∀ d < 24, i.testBit d = true → s.present d = true ∧ s.inService d = true) → s.listsClean pl [(pl.sectionOff 9, 512)] →
      completes (.bsutab p ra ar) s (fun t =>
        (∀ d c k, d < 24 → c < 4 → k < 8 → (t.bsu d c k).seed = if i.testBit d then pl.seedTable else (s.bsu d c k).seed)
        ∧ s.countsOnly t ∧ Same [.wcb, .step, .dev, .regul, .clock] (s.stepped id) t)) ∧
    (s.Fetches pl (.fclr p ra kind) → quiet → kind.toNat ≤ 5 → completes (.fclr p ra kind) s (fun t =>
      t.plan.plan = some (match kind.toNat with
        | 0 => { pl with groups := modAt pl.groups i Group.clearFlags }
        | 1 => { pl with groups := pl.groups.map Group.clearFlags }
        | 2 => { pl with shards := modAt pl.shards i (fun h => { h with nonfin := false }) }
        | 3 => { pl with shards := pl.shards.map (fun h => { h with nonfin := false }) }
        | 4 => { pl with layers := modAt pl.layers i (fun l => { l with rootfb := false }) }
        | _ => { pl with layers := pl.layers.map (fun l => { l with rootfb := false }) })
      ∧ t.seq = (s.stepped id).seq)) ∧
    (∀ n, s.plan.plan = some pl → s.icache.miss = some n → s.clean (s.codeLine pl n) → completes .icacheFill s (fun t =>
      t.icache.holds n = true ∧ t.icache.miss = none ∧ (s.charged { t with icache := s.icache })))

/-! ### The exchange: checks, arrival, answers -/

/-- Checks 1 to 3 of a received message, in their order (R216, R217): version, channel and length, 0x05; the epoch, 0x03, which every
kind but the remote ones fails while no plan is loaded; the step window of the kind, 0x01 below it and 0x02 above.
Rests on the model's choice in log entry 47. -/
def Obligations.HeaderCheckOrder : Prop :=
  ∀ (s : State) (k : Nat) (m : Msg), (∃ i, msgOf i = some (k, m)) →
    let form := m.hdr.ver = 1 ∧ m.hdr.vc.toNat = kindVc k ∧ s.lenOk k m = true
    let c := s.get64 Reg.STEP_LO Reg.STEP_HI
    let win : Option (Nat × Nat) :=
      if k = 0x01 ∨ k = 0x02 then some (c, c + 1)
      else if k = 0x20 ∨ k = 0x21 ∨ k = 0x22 ∨ k = 0x24 then some (c - 1, c)
      else if k = 0x10 ∨ (0x30 ≤ k ∧ k ≤ 0x35) then some (c, c)
      else none
    (¬ form → s.headerChecks k m = some 0x05) ∧
    (form → s.epochOk k m = false → s.headerChecks k m = some 0x03) ∧
    (form → s.epochOk k m = true → ∀ lo hi, win = some (lo, hi) →
      s.headerChecks k m = (if m.hdr.step.toNat < lo then some 0x01 else if hi < m.hdr.step.toNat then some 0x02 else none)) ∧
    (form → s.epochOk k m = true → win = none → s.headerChecks k m = none) ∧
    (s.plan.plan = none → (0x40 ≤ k ∧ k ≤ 0x43) ∨ k = 0x06 ∨ s.epochOk k m = false)

/-- A message that fails checks 1 to 3 is refused (R216): its code is counted and recorded in LREF with its kind, source and index,
a NACK answers it unless it is itself an answer, a token or a DN record, and nothing else changes but the buffer of a CHUNK.
Rests on the model's choices in log entries 46, 49. -/
def Obligations.MessageRefused : Prop :=
  ∀ (i : Instr) (k : Nat) (m : Msg) (s : State) (c : Nat), msgOf i = some (k, m) →
    s.reaches m → s.flag Reg.CLOVER = false → s.headerChecks k m = some c →
    let counter := if c = 0x03 then Reg.REF_EPOCH else if c = 0x01 ∨ c = 0x02 then Reg.REF_STEP else Reg.REF_OTHER
    completes i s (fun t =>
      t.get counter = min (s.get counter + 1) 0xFFFFFFFF
      ∧ t.get Reg.LREF_CODE = c ∧ t.get Reg.LREF_KIND = k ∧ t.get Reg.LREF_SRC = m.hdr.src.toNat
      ∧ t.get Reg.LREF_INDEX = m.hdr.index.toNat
      ∧ t.out = (if [0x03, 0x04, 0x05, 0x06, 0x21, 0x23, 0x31, 0x33, 0x35, 0x42, 0x43].contains k then s.out
          else s.out ++ [s.answerTo m 0x06 (leBytes 8 (c + 256 * k))])
      ∧ t.get Reg.NACK_IN = (if k = 0x06 then min (s.get Reg.NACK_IN + 1) 0xFFFFFFFF else s.get Reg.NACK_IN)
      ∧ s.regsKept t [counter, Reg.LREF_CODE, Reg.LREF_KIND, Reg.LREF_SRC, Reg.LREF_INDEX, Reg.NACK_IN]
      ∧ Same [.exch, .out] s t ∧ (k ≠ 0x20 → t.exch = s.exch))

/-- A message on a port that is not ready does not reach the block (R386), unless it comes from the block itself (R213), and in Clover
mode every message is refused with code 0x05 (R340). -/
def Obligations.MessageNotTaken : Prop :=
  ∀ (i : Instr) (k : Nat) (m : Msg) (s : State), msgOf i = some (k, m) →
    (¬ s.reaches m → exec i s = .next s) ∧
    (s.reaches m → s.flag Reg.CLOVER = true → completes i s (fun t =>
      t.get Reg.LREF_CODE = 0x05 ∧ t.get Reg.LREF_KIND = k ∧ t.get Reg.REF_OTHER = min (s.get Reg.REF_OTHER + 1) 0xFFFFFFFF
      ∧ Same [.exch, .out] s t))

/-- GREQ, MARK and CONTRIB (R63, R216, R217, R222, R224 to R226): a slot within its instance's window is granted; a MARK closes the
slot, which may enter rows in the epoch image of the step log, and is acknowledged; the granted contribution arrives. A GREQ or MARK
is deferred before the "proceed" verdict, for the next step, under a hold or a trap, and where its slot's instance has not begun or
its entry is not cached, a GREQ also outside the window. The fifth unanswered request of a source is refused with 0x0A.
Rests on the model's choices in log entries 10, 17, 45. -/
def Obligations.ArrivalMessages : Prop :=
  ∀ (s : State) (m : Msg) (x : SlotSt),
    let n := m.hdr.index.toNat
    let at_ := m.hdr.step.toNat = s.stepS ∧ s.atBoundary = false ∧ s.seq.openV = 1
    let free := s.flag Reg.HELD = false ∧ s.trapped = false ∧ s.slotCached n = true ∧ ∃ i, s.slotInst n = some i
    let deferred (c : Instr) : Prop := completes c s (fun t =>
      t.out = s.out ++ [s.answerTo m 0x04 (leBytes 8 (s.get Reg.DEFER_HINT))]
      ∧ t.get Reg.DEFERS = min (s.get Reg.DEFERS + 1) 0xFFFFFFFF ∧ s.regsKept t [Reg.DEFERS] ∧ Same [.out] s t)
    let refused (c : Instr) (k : Nat) : Prop := completes c s (fun t =>
      t.get Reg.LREF_CODE = 0x0A ∧ t.get Reg.LREF_KIND = k ∧ t.out = s.out ++ [s.answerTo m 0x06 (leBytes 8 (0x0A + 256 * k))]
      ∧ Same [.out] s t)
    let greq := s.accepts 0x01 m ∧ (at_ → x.st = .open_)
    let mark := s.accepts 0x02 m ∧ (at_ → x.st = .open_ ∨ x.st = .granted)
    s.step.slots[n]? = some x → x.e.src = m.hdr.src.toNat →
      (fifthAsked m = true → (greq → refused (.greq m) 0x01) ∧ (mark → refused (.mark m) 0x02)) ∧
      (fifthAsked m = false →
        (¬ at_ → (greq → deferred (.greq m)) ∧ (mark → deferred (.mark m))) ∧
        (at_ → ¬ free → (greq → deferred (.greq m)) ∧ (mark → deferred (.mark m))) ∧
        (at_ → greq → s.beyondWindow n = true ∨ s.lowerOutside n = true → deferred (.greq m)) ∧
        (at_ → greq → free → s.beyondWindow n = false → s.lowerOutside n = false →
          completes (.greq m) s (fun t =>
            t.step.slots = modAt s.step.slots n (fun y => { y with st := .granted })
            ∧ t.out = s.out ++ [s.answerTo m 0x03 (leBytes 8 x.e.bytes)]
            ∧ s.countsOnly t ∧ Same [.step, .out] s t)) ∧
        (at_ → mark → free → completes (.mark m) s (fun t =>
            (t.step.slots[n]?).any (fun y => y.st == .marked && y.e == x.e) = true
            ∧ (∀ k, k ≠ n → t.step.slots[k]? = s.step.slots[k]?)
            ∧ t.out = s.out ++ [s.answerTo m 0x05 []]
            ∧ s.onlyLines t (match s.log with
                | some g => s.logLines g g.parts.epochs (List.replicate (2 * g.epochs.length) 0)
                | none => [])))) ∧
      (s.accepts 0x10 m → x.st = .granted → m.payload.length = x.e.bytes → completes (.contrib m) s (fun t =>
          t.step.slots = modAt s.step.slots n (fun y => { y with st := .arrived, data := m.payload })
          ∧ t.out = s.out ∧ s.countsOnly t ∧ Same [.step] s t))

/-- Answers to this block's requests (R217, R237, R240, R422): ACK ends a skip notice, ECRED brings a credit, DEFER puts a credit
request off by its hint, a NACK to a request gives its destination up. GRANT, RRSP and RWACK match no request that this block makes
(the model's reading of R217, log entry 17), and an answer without its request fails check 4.
Rests on the model's choice in log entry 31. -/
def Obligations.AnswerMessages : Prop :=
  ∀ (s : State) (m : Msg) (r : Unanswered),
    let unmatched (c : Instr) (k : Nat) : Prop := completes c s (fun t =>
      t.get Reg.LREF_CODE = 0x06 ∧ t.get Reg.LREF_KIND = k ∧ t.get Reg.REF_OTHER = min (s.get Reg.REF_OTHER + 1) 0xFFFFFFFF
      ∧ t.out = s.out ∧ t.exch = s.exch ∧ t.step = s.step ∧ t.mem = s.mem)
    (s.accepts 0x03 m → unmatched (.grant m) 0x03) ∧
    (s.accepts 0x42 m → unmatched (.rrsp m) 0x42) ∧
    (s.accepts 0x43 m → unmatched (.rwack m) 0x43) ∧
    (s.accepts 0x05 m → s.matching 0x22 m = none → unmatched (.ack m) 0x05) ∧
    (s.accepts 0x23 m → s.matching 0x24 m = none → unmatched (.ecred m) 0x23) ∧
    (s.accepts 0x05 m → s.matching 0x22 m = some r → exec (.ack m) s
      = .next { s with exch := { s.exch with requests := s.exch.requests.erase r } }) ∧
    (s.accepts 0x04 m → s.matching 0x24 m = some r → exec (.defer m) s
      = .next { s with exch := { s.exch with requests := s.exch.requests.erase r
          ++ [{ r with retry := some (s.clock.tick + leAt m.payload 0 4) }] } }) ∧
    (s.accepts 0x23 m → s.matching 0x24 m = some r → completes (.ecred m) s (fun t =>
      t.exch = { s.exch with requests := s.exch.requests.erase r, credits := s.exch.credits ++ [r.dst] }
      ∧ s.regsKept t [Reg.STALLED] ∧ Same [.exch, .waits] s t)) ∧
    (s.accepts 0x06 m → leAt m.payload 1 1 = 0x24 ∨ leAt m.payload 1 1 = 0x22 → s.matching (leAt m.payload 1 1) m = some r →
      completes (.nack m) s (fun t =>
        t.get Reg.NACK_IN = min (s.get Reg.NACK_IN + 1) 0xFFFFFFFF
        ∧ t.exch.requests = s.exch.requests.erase r
        ∧ (s.ofStep r = true → (r.q, r.dst) ∈ t.exch.givenUp)
        ∧ s.regsKept t [Reg.NACK_IN, Reg.STALLED] ∧ Same [.exch, .step, .waits] s t))

/-- ECREQ, CHUNK, TOKEN and SKIP at the destination (R216, R224, R235 to R240, R384): a receive buffer is granted while one of 64 is
free, and asked for later otherwise; a fifth unanswered ECREQ or SKIP of the source is refused with 0x0A; an allowed chunk is written and frees its buffer, any other is refused whole with NACK 0x08; a token and a skip notice go to every
engine port of their mask, which passes them on while it has credit, BAD set where the chunk's write was refused.
Rests on the model's choices in log entries 17, 49, 121. -/
def Obligations.EmissionReceived : Prop :=
  ∀ (s : State) (m : Msg),
    let place := headPlace m.payload
    let data := m.payload.drop 16
    let lines := lineWrites (s.regionWords place.1) place.2 data
    let key := (m.hdr.src.toNat, m.hdr.index.toNat)
    let passed (mask : Nat) (tok : Token) (t : State) : Prop := ∀ n < 8, mask.testBit n = true →
      (∀ c, s.exch.ports[n]? = some ⟨c + 1, []⟩ → .token n tok ∈ t.out ∧ t.exch.ports[n]? = some ⟨c, []⟩) ∧
      (∀ q, s.exch.ports[n]? = some ⟨0, q⟩ → t.exch.ports[n]? = some ⟨0, q ++ [tok]⟩)
    (s.accepts 0x24 m → fifthAsked m = true → completes (.ecreq m) s (fun t =>
      t.get Reg.LREF_CODE = 0x0A ∧ t.get Reg.LREF_KIND = 0x24
      ∧ t.out = s.out ++ [s.answerTo m 0x06 (leBytes 8 (0x0A + 256 * 0x24))] ∧ Same [.out] s t)) ∧
    (s.accepts 0x24 m → fifthAsked m = false → s.buffersHeld < 64 → exec (.ecreq m) s
      = .next { s with exch := { s.exch with granted := s.exch.granted ++ [m.hdr.src.toNat] },
                       out := s.out ++ [s.answerTo m 0x23 []] }) ∧
    (s.accepts 0x24 m → fifthAsked m = false → 64 ≤ s.buffersHeld → completes (.ecreq m) s (fun t =>
      t.out = s.out ++ [s.answerTo m 0x04 (leBytes 8 (s.get Reg.DEFER_HINT))] ∧ t.exch = s.exch
      ∧ s.regsKept t [Reg.DEFERS] ∧ Same [.out] s t)) ∧
    (s.accepts 0x20 m → s.checkRequest .remote true place.1 place.2 data.length = .ok → (∀ w ∈ lines, s.plain w.1) →
      completes (.chunk m) s (fun t =>
        t.mem = s.linesAfter lines ∧ t.exch = { s.exch with granted := s.exch.granted.erase key.1 } ∧ t.out = s.out
        ∧ s.countsOnly t)) ∧
    (s.accepts 0x20 m → s.checkRequest .remote true place.1 place.2 data.length ≠ .ok → completes (.chunk m) s (fun t =>
        t.mem = s.mem ∧ t.out = s.out ++ [s.answerTo m 0x06 (leBytes 8 (0x08 + 256 * 0x20))]
        ∧ t.exch = { s.exch with granted := s.exch.granted.erase key.1, badChunks := s.exch.badChunks ++ [key] }
        ∧ t.get Reg.LREF_CODE = 0x08)) ∧
    (s.accepts 0x21 m → s.exch.badChunks.contains key = false → completes (.token m) s (fun t =>
        passed (wordFld m.payload 4 19 12) ⟨0x21, key.1, key.2, m.payload, !(leAt m.payload 0x1C 4).testBit 1⟩ t
        ∧ s.countsOnly t ∧ Same [.exch, .out] s t)) ∧
    (s.accepts 0x21 m → s.exch.badChunks.contains key = true → completes (.token m) s (fun t =>
        passed (wordFld m.payload 4 19 12) ⟨0x21, key.1, key.2, spliceBytes m.payload 0x1C
          (leBytes 4 (leAt m.payload 0x1C 4 ||| 1)), !(leAt m.payload 0x1C 4).testBit 1⟩ t
        ∧ t.exch.badChunks = s.exch.badChunks.erase key ∧ s.countsOnly t ∧ Same [.exch, .out] s t)) ∧
    (s.accepts 0x22 m → fifthAsked m = true → completes (.skip m) s (fun t =>
      t.get Reg.LREF_CODE = 0x0A ∧ t.get Reg.LREF_KIND = 0x22
      ∧ t.out = s.out ++ [s.answerTo m 0x06 (leBytes 8 (0x0A + 256 * 0x22))] ∧ Same [.out] s t)) ∧
    (s.accepts 0x22 m → fifthAsked m = false → completes (.skip m) s (fun t =>
        passed (leAt m.payload 2 1) ⟨0x22, key.1, key.2, m.payload, false⟩ t
        ∧ (s.out ++ [s.answerTo m 0x05 []]) <+: t.out ∧ s.countsOnly t ∧ Same [.exch, .out] s t))

/-- The control tree (R57, R58, R67, R68, R211, R217, R228, R231, R232): an UP record of a child is held until the node's own record is
ready; a node with one child then sends the two combined to its parent, or keeps them to be sent while every port has failed. A DN
record of the parent goes to the children in ascending order, some port not having failed, and is evaluated: the open and seal
verdicts, the delivery of a count exchange. Rests on the model's choices in log entries 10, 44, 51. -/
def Obligations.TreeMessages : Prop :=
  ∀ (s : State) (pl : Plan) (m : Msg), s.plan.plan = some pl →
    let src := m.hdr.src.toNat
    let up (c : Instr) (k : Nat) : Prop :=
      s.accepts k m → src ∈ pl.tree.children → s.upFrom k m.hdr.step.toNat src = none → s.exchangeDone k = false →
        ((∀ r ∈ s.exch.own, r.kind ≠ k) → exec c s
          = .next { s with exch := { s.exch with ups := s.exch.ups ++ [⟨k, src, m.hdr.step.toNat, m.payload⟩] } }) ∧
        (∀ own, s.exch.own.find? (·.kind == k) = some own → own.step = m.hdr.step.toNat → pl.tree.children = [src] →
          pl.tree.parent ≠ 0xFFFF →
          let both := combineRec k own.payload m.payload
          (s.portsOf 0 ≠ [] → completes c s (fun t =>
            (∃ port ∈ s.portsOf 0, ∃ hdr, t.out = s.out ++ [s.sends pl.tree.parent port k hdr both]
              ∧ hdr.dst = BitVec.ofNat 16 pl.tree.parent)
            ∧ t.exch.upSent = s.exch.upSent ++ [k] ∧ t.regs = s.regs ∧ t.mem = s.mem)) ∧
          (s.portsOf 0 = [] → completes c s (fun t =>
            t.exch.held = s.exch.held ++ [⟨k, pl.tree.parent, own.step, both⟩] ∧ t.out = s.out
            ∧ t.exch.upSent = s.exch.upSent ++ [k] ∧ t.regs = s.regs ∧ t.mem = s.mem)))
    let dn (c : Instr) (k : Nat) (P : State → Prop) : Prop :=
      s.accepts k m → src = pl.tree.parent → s.exch.upSent.contains (k - 1) = true → s.portsOf 0 ≠ [] →
        completes c s (fun t => P t
          ∧ t.exch.upSent = s.exch.upSent.erase (k - 1)
          ∧ ∃ l : List Out, t.out = s.out ++ l ∧ l.length = pl.tree.children.length
              ∧ ∀ j (hj : j < pl.tree.children.length), ∃ port ∈ s.portsOf 0, ∃ hdr,
                  l[j]? = some (s.sends pl.tree.children[j] port k hdr m.payload)
                  ∧ hdr.dst = BitVec.ofNat 16 pl.tree.children[j])
    up (.openUp m) 0x30 ∧ up (.sealUp m) 0x32 ∧ up (.cntUp m) 0x34 ∧
    dn (.openDn m) 0x31 (fun t =>
      let r := openReason m.payload
      t.get Reg.REASON = r ∧ t.bit Reg.IRQ_STAT 1 = true ∧ t.seq.openV = (if r = 0 then 1 else 2)
      ∧ t.get Reg.PHASE = (if r = 0 then 2 else s.get Reg.PHASE)
      ∧ (s.seq.wait = some .openVerdict → t.seq.wait = none ∧ t.seq.pc = s.seq.pc + 1)
      ∧ t.log = (if r = 0 then some (s.newLog pl) else s.log)
      ∧ s.onlyLines t (if r = 0 then s.openLines (s.newLog pl) else [])) ∧
    dn (.sealDn m) 0x33 (fun t =>
      let r := sealReason s.step.hdr.v m.payload
      t.get Reg.REASON = r ∧ t.bit Reg.IRQ_STAT 1 = true ∧ t.seq.sealV = (if r = 0 then 1 else 2)
      ∧ t.get Reg.PHASE = (if r = 0 then 4 else 6)
      ∧ (∀ n < 8, t.get64 (Reg.NORMSQ_LO n) (Reg.NORMSQ_HI n) = leAt m.payload (0x30 + 8 * n) 8)
      ∧ (s.seq.wait = some .sealVerdict → t.seq.wait = none ∧ t.seq.pc = s.seq.pc + 1)) ∧
    (∀ c, s.exch.cnt = some c → s.step.goHeld = false →
      let lines := lineWrites (s.regionWords c.region) (c.offset + m.payload.length) m.payload
      (∀ w ∈ lines, s.plain w.1) → dn (.cntDn m) 0x35 (fun t =>
        t.exch.cnt = none ∧ t.flag Reg.CNT_DONE = true ∧ t.bit Reg.IRQ_STAT 3 = true ∧ t.mem = s.linesAfter lines))

/-- Remote access (R242, R257, R292): an allowed write is applied and acknowledged with status 0, an allowed read is answered with its
bytes; one with a burst that fails after its retries is answered with status 4; a request that may not be served changes no device
byte and is answered with its status: 5 in Spent, 3 not ready, 1 without permission, 2 beyond the region.
Rests on the model's choices in log entries 14, 48. -/
def Obligations.RemoteRequests : Prop :=
  ∀ (s : State) (m : Msg) (fails : Nat) (b : List Byte),
    let reg := (headPlace m.payload).1
    let off := (headPlace m.payload).2
    let data := m.payload.drop 16
    let len := leAt m.payload 4 4
    let lines := lineWrites (s.regionWords reg) off data
    let status (t : State) (n : Nat) : Prop := t.out = s.out ++ [s.answerTo m 0x43 (leBytes 8 n)]
    (s.accepts 0x40 m → s.spent = false → s.checkRequest .remote true reg off data.length = .ok →
      ((∀ w ∈ lines, s.plain w.1) → completes (.rwr ⟨m, 0⟩) s (fun t =>
        status t 0 ∧ t.mem = s.linesAfter lines ∧ s.countsOnly t)) ∧
      (3 < fails → completes (.rwr ⟨m, fails⟩) s (fun t => status t 4 ∧ s.onlyLines t (lines.map (·.1))))) ∧
    (s.accepts 0x41 m → s.spent = false → s.checkRequest .remote false reg off len = .ok →
      (s.holds reg off len b → completes (.rrd ⟨m, 0⟩) s (fun t =>
        t.out = s.out ++ [s.answerTo m 0x42 b] ∧ t.mem = s.mem ∧ s.countsOnly t)) ∧
      (3 < fails → completes (.rrd ⟨m, fails⟩) s (fun t => status t 4 ∧ t.mem = s.mem))) ∧
    (∀ c : Instr, (c = .rwr ⟨m, fails⟩ ∧ s.accepts 0x40 m ∧ (s.spent = true ∨ s.checkRequest .remote true reg off data.length ≠ .ok))
        ∨ (c = .rrd ⟨m, fails⟩ ∧ s.accepts 0x41 m ∧ (s.spent = true ∨ s.checkRequest .remote false reg off len ≠ .ok)) →
      completes c s (fun t => t.mem = s.mem ∧ ∃ n ∈ [1, 2, 3, 5], status t n ∧ (n = 5 ↔ s.spent = true)))

/-- Emission at the sender (R72, R74, R238, R240, R241, R422): a chunk whose rows have ended is read into a send buffer, or halts its
instance where some entry left one of its rows unchanged; with a credit a chunk and its token go to a destination, without one credit
is asked for; at and after the chunk that halted the instance a token with HALT goes alone; under "skip" a notice goes instead.
Rests on the model's choices in log entries 31, 44, 53. -/
def Obligations.EmissionSent : Prop :=
  ∀ (s : State) (pl : Plan) (q dest : Half) (i : Inst), s.plan.plan = some pl → s.inst? q.toNat = some i → i.emission = true →
    (∀ n c, s.seq.sealV = 1 → i.halted = false → s.sendBuffers < 64 → s.nextRead i = some (n, c) →
      s.chunkEligible pl c.e = true →
      let es := s.chunkEntries pl c.e
      let f := pl.shardFmt c.e.shard
      let lines (e : EntrySt) : List LineLoc := (List.range f.lines).map (fun j =>
        ⟨(s.poolPlace e.e.loc e.e.pool f).wloc, f.lines * (s.poolPlace e.e.loc e.e.pool f).slot + j⟩)
      let lost := ∃ l ∈ pl.chunkRows c.e, ∃ e ∈ s.step.entries, e.e.loc = l ∧ e.st = .unchanged
      (¬ lost → (∀ e ∈ es, ∀ x ∈ lines e, s.clean x) → completes (.chunkRead q) s (fun t =>
        t.step.chunks = modAt s.step.chunks n (fun y => { y with
          data := some (es.flatMap (fun e => ((lines e).flatMap s.lineBytes).take f.rowBytes)) })
        ∧ s.countsOnly t ∧ t.out = s.out ∧ t.mem = s.mem)) ∧
      (lost → completes (.chunkRead q) s (fun t =>
        t.step.chunks = modAt s.step.chunks n (fun y => { y with halt := true })
        ∧ (t.inst? q.toNat).any (·.halted) = true ∧ Same [.step] s t ∧ t.regs = s.regs))) ∧
    (∀ pos n c k d port, s.exch.givenUp.contains (i.q, dest.toNat) = false →
      s.nextDest i dest.toNat = some (pos, n, c, k, d) → s.instPort i pos dest.toNat = some port →
      let sent (kind : Nat) (payload : List Byte) : Out := s.sends d.block port kind
        { ver := 1, vc := BitVec.ofNat 2 (kindVc kind), src := BitVec.ofNat 16 s.blockNo, dst := BitVec.ofNat 16 d.block,
          epoch := BitVec.ofNat 16 (s.roleEpoch i.role), step := BitVec.ofNat 64 s.step.hdr.s, q := BitVec.ofNat 16 i.q,
          role := BitVec.ofNat 4 i.role, index := BitVec.ofNat 32 n, len := BitVec.ofNat 32 payload.length } payload
      (∀ b, s.seq.sealV = 1 → s.haltsAt i pos = false → s.exch.credits.contains d.block = true → c.data = some b →
        completes (.chunkSend q dest) s (fun t =>
          t.out = s.out ++ [sent 0x20 (chunkHead c.e d ++ b), sent 0x21 (s.tokenBody pl c d false)]
          ∧ t.exch.credits = s.exch.credits.erase d.block
          ∧ t.step.chunks = modAt s.step.chunks n (fun y => { y with sent := y.sent ++ [k] }) ∧ t.mem = s.mem)) ∧
      (s.seq.sealV = 1 → s.haltsAt i pos = true → completes (.chunkSend q dest) s (fun t =>
          t.out = s.out ++ [sent 0x21 (s.tokenBody pl c d true)]
          ∧ t.step.chunks = modAt s.step.chunks n (fun y => { y with sent := y.sent ++ [k] }) ∧ t.mem = s.mem)) ∧
      (s.seq.sealV = 1 → s.haltsAt i pos = false → s.exch.credits.contains d.block = false →
        (∀ r ∈ s.exch.requests, ¬ (r.kind = 0x24 ∧ r.dst = d.block)) → i.halted = true ∨ s.chunksDue i d.block = [n] →
        completes (.chunkSend q dest) s (fun t =>
          t.out = s.out ++ [sent 0x24 []] ∧ t.step = s.step ∧ t.mem = s.mem
          ∧ ⟨0x24, d.block, i.q, i.role, n, s.step.hdr.s, none⟩ ∈ t.exch.requests)) ∧
      (s.seq.sealV = 2 → (s.exch.requests.filter (fun r => r.dst == dest.toNat && r.retry.isNone)).length < 4 →
        completes (.skipNoticeSend q dest) s (fun t =>
          t.out = s.out ++ [sent 0x22 (leBytes 8 (s.get Reg.REASON % 2 ^ 16 + d.engmask * 2 ^ 16))]
          ∧ t.exch.requests = s.exch.requests ++ [⟨0x22, d.block, i.q, i.role, n, s.step.hdr.s, none⟩]
          ∧ t.step.chunks = modAt s.step.chunks n (fun y => { y with sent := y.sent ++ [k] }) ∧ t.mem = s.mem)))

/-! ### Arrival, commit, layers, the step's ends -/

/-- Arrival (R63 to R66, R220, R221, R226, R269, R281): a contribution whose turn has come, and whose BSUs may start, is added and its
slot closes; no byte but its sectors', the flags of its groups' descriptors and the epoch image changes. The sector of a slot of one sector
then holds what adding the values to its lines one after another gives (O26), bursts that fail at most three times included, and
after a fourth failure what it held. The close read of a sector whose last slot a marker closed forms its summary; summaries fold in
sector-close order; once all is folded ARRIVAL_END sends the local seal record, with stamp 2, and waits for the verdict.
Rests on the model's choices in log entries 2, 14, 54. -/
def Obligations.ArrivalWork : Prop :=
  ∀ (s : State) (pl : Plan), s.plan.plan = some pl →
    (∀ (slot : Linked Word) (x : SlotSt) (rf : Nat), s.step.slots[slot.val.toNat]? = some x → x.st = .arrived →
      let ys := s.slotSectors pl slot.val.toNat
      let others := ys.map (fun y => s.descLine pl 5 y.2.1.group) ++ s.epochLines
      (s.get Reg.PHASE = 2 → s.slotTurn slot.val.toNat = true → s.slotStarts ys = true →
        (∀ y ∈ ys, ∀ z ∈ s.sectLines y.2.1, s.oneHome z) → completes (.contribAdd slot rf) s (fun t =>
          t.step.slots[slot.val.toNat]? = some { x with st := .added, data := [] }
          ∧ (∀ k, k ≠ slot.val.toNat → t.step.slots[k]? = s.step.slots[k]?)
          ∧ s.onlyLines t (ys.flatMap (fun y => s.sectLines y.2.1) ++ others) ∧ t.seq = s.seq ∧ t.out = s.out
          ∧ ∀ i y k, ys = [(i, y, k)] → (∀ z ∈ s.sectLines y, s.clean z ∧ s.disjoint (s.descLine pl 5 y.group) z) →
              let c := (s.groupCfg y.group).flush
              let g16w := (s.sectorPlace y).g16w
              let vs := (halvesOf ((x.data.drop (320 * k)).take 320)).map (fun h => h ++ (0 : Half))
              let ws := if g16w then (vs.mapM (fun w => fpOfBf16 c (w.extractLsb' 16 16))).go.1 else vs
              (slot.linkFails ≤ 3 → rf = 0 → ∀ a, (∀ z ∈ others, s.apart z a) → memRead t.mem a = memRead
                (State.addLines .reducer .buffered g16w c false (s.sectLines y) ws ⟨true, Flags.clear, s⟩).s.mem a)
              ∧ (3 < slot.linkFails → s.onlyLines t others))) ∧
      (s.slotTurn slot.val.toNat = false ∨ s.slotStarts ys = false → exec (.contribAdd slot rf) s = .next s)) ∧
    (∀ (n k : Nat) (x : SectorSt) (y : SlotSt), s.step.sectors[n]? = some x → s.get Reg.PHASE = 2 → x.closed = false →
      s.step.covered x = true → x.slots.getLast? = some k → s.step.slots[k]? = some y → y.st = .marked →
      (∀ l ∈ s.sectLines x, s.clean l) → completes (.sectorCloseRead n) s (fun t =>
        let sum := fun (z : SectorSt) =>
          sectorSummary z.npar (sectorWords (s.sectorPlace x).g16w ((s.sectLines x).flatMap s.lineBytes))
        t.step.sectors = modAt s.step.sectors n (fun z => { z with closed := true, summary := some (sum z) })
        ∧ s.countsOnly t ∧ t.mem = s.mem ∧ Same [.step, .regul, .clock] s t)) ∧
    (∀ (n : Nat) (x : SectorSt) (fin : Bool) (sq : DWord), s.step.sectors.findIdx? (fun x => !x.folded) = some n →
      s.step.sectors[n]? = some x → x.summary = some (fin, sq) →
      let c := (s.groupCfg x.group).clipcls
      exec .sectorSummaryFold s = .next { s with step := { s.step with
        sectors := modAt s.step.sectors n (fun y => { y with folded := true }),
        lseal := { s.step.lseal with finite := s.step.lseal.finite && fin,
                                     normsq := modAt s.step.lseal.normsq c (fun v => f64Add v sq) } } }) ∧
    (s.get Reg.PHASE = 2 → s.step.arrivalDone = true → s.seq.wait = some .sealArrival → (∀ r ∈ s.exch.own, r.kind ≠ 0x32) →
      pl.tree.children = [] → pl.tree.parent ≠ 0xFFFF → s.portsOf 0 ≠ [] → completes .arrivalEnd s (fun t =>
        (∃ port ∈ s.portsOf 0, ∃ hdr, t.out = s.out ++ [s.sends pl.tree.parent port 0x32 hdr t.sealRecord]
          ∧ hdr.dst = BitVec.ofNat 16 pl.tree.parent)
        ∧ t.get Reg.PHASE = 3 ∧ t.get64 (Reg.STAMP_LO 2) (Reg.STAMP_HI 2) = t.clock.tick % 2 ^ 64
        ∧ t.seq = { s.seq with wait := some .sealVerdict } ∧ s.onlyLines t (s.headerLines ++ s.epochLines)
        ∧ ((∀ b ∈ s.dev.bsus, b.2.accw = false) → s.step.tallyMixed = false →
            t.step.lseal = { s.step.lseal with sent := true } ∧ t.sealRecord = s.sealRecord)))

/-- Adding to a line of a sector (R28, R80, R81): every value of the line becomes the sum of what it was and the contribution's,
rounded to the sector's precision, and the line is written whole; padding and other lines do not change. -/
def Obligations.SectorLineAddition : Prop :=
  ∀ (s : State) (a : ErrSrc) (g16w flush : Bool) (x : LineLoc) (vs : List Word), s.clean x →
    let sums := (((sectorWords g16w (s.lineBytes x)).zip vs).mapM (fun p =>
      fpAddP (if g16w then 24 else 8) flush p.1 p.2)).go
    let r := s.addLine a .buffered g16w flush x vs false
    r.ok = true ∧ r.flags = sums.2 ∧ r.s.mem = s.memAfter x (sectorBytes g16w sums.1) ∧ Same [.mem, .wcb, .fault] s r.s
      ∧ r.s.regs = s.regs

/-- The schedule and a commit-list entry on its way (R69, R71, R104, R115, R271, R283, R288, R316, R329): SCHEDULE_EVAL forms the constants
of every group of the step. An entry whose conditions hold starts: its pass runs in the controller-side unit, or in the BSU of its pair
as that one finds the lines, and the device bytes are what the pass leaves; one that a move, the temperature, a refresh or the timing
rules stop waits. A handed batch of the controller-side unit advances the entry; with the last its result is folded and it ends.
RECORD_WRITE copies an armed row's state lines, its sector, and the record word into its two record rows, and changes no other byte.
Rests on the model's choices in log entries 58, 61, 62, 124. -/
def Obligations.CommitEntryWork : Prop :=
  ∀ (s : State) (pl : Plan), s.plan.plan = some pl →
    (s.inStep = true → s.seq.openV = 1 → s.seq.sealV ≠ 2 → s.step.groupK = [] → completes .scheduleEval s (fun t =>
      t.step.groupK.map (·.group) = s.step.groups
      ∧ (∀ k ∈ t.step.groupK, k.sched = some (pl.schedule (s.groupCfg k.group) s.step.hdr.g).go.1
          ∧ k.eta = (fpMul (s.groupCfg k.group).flush (s.groupCfg k.group).lr (k.sched.getD 0)).go.1 ∧ k.etaTrust = none)
      ∧ s.onlyLines t (s.step.groups.map (s.descLine pl 5)) ∧ t.seq = s.seq ∧ t.out = s.out)) ∧
    (∀ (n : Nat) (e : EntrySt) (k : GroupK), s.step.entries[n]? = some e → s.seq.commitRun = true → s.seq.sealV = 1 →
      e.st = .waiting → s.step.inWindow n = true →
      (∀ m, s.lateEntry n = some m → exec (.commitEntryStart ⟨n, 0⟩) s = .next (s.markLate m)) ∧
      (s.lateEntry n = none → s.step.groupK? e.e.group = some k → s.retire.entryReady pl n e = true →
        (s.step.entries.take n).all (fun x => !(x.e.loc == e.e.loc && x.st == .unchanged)) = true →
        let l := e.e.loc
        let prow := (s.poolPlace l e.e.pool (pl.shardFmt e.e.shard)).red.row
        let begun (t : State) (x : EntrySt) : Prop :=
          t.step.entries[n]? = some x ∧ (∀ j, j ≠ n → t.step.entries[j]? = s.step.entries[j]?) ∧ t.out = s.out
          ∧ x.e = e.e ∧ x.st = .started ∧ x.consts = (s.passConst pl e.e k).line
          ∧ ∃ bc, x.operand = (s.passRow pl e bc).line
              ∧ ∀ q < 5, ∀ u, s.step.unitK.find? (·.unit == e.e.unitOf q) = some u → bc[q]? = some (u.bc1, u.bc2)
        let same (r : RowResult) (o : PassOut) : Prop :=
          r.amax = o.amax ∧ r.satn = o.satn ∧ r.flags = o.flags ∧ r.uel = o.uel ∧ r.uex = o.uex
        ((∀ u ∈ e.units, ∃ x ∈ s.step.unitK, x.unit = u) → s.inService l.dev = false →
          completes (.commitEntryStart ⟨n, 0⟩) s (fun t => ∃ x, begun t x ∧
            let o := (s.recordLines pl e x.consts x.operand).runPass pl.seedTable l prow (PassConst.ofLine x.consts)
              (PassRow.ofLine x.operand) e.recorded
            t.mem = o.2.mem ∧ ∃ r, x.result = some r ∧ same r o.1)) ∧
        ((∀ u ∈ e.units, ∃ x ∈ s.step.unitK, x.unit = u) → s.inService l.dev = true → s.bit Reg.HOT105 l.dev = false →
          s.retire.refreshDueAt l = false → (∃ t, s.retire.startTime l.dev 4 = some t) →
          completes (.commitEntryStart ⟨n, 0⟩) s (fun t => ∃ x, begun t x
            ∧ (∃ q ∈ t.dev.seqs, q.entry = some n ∧ q.dev = l.dev ∧ q.ch = l.ch ∧ q.k = l.pair)
            ∧ ((PassRow.ofLine x.operand).rule ≠ 15 →
                let o := ((s.recordLines pl e x.consts x.operand).seenByBsu l).runPass (s.bsu l.dev l.ch l.pair).seed l prow
                  (PassConst.ofLine x.consts) (PassRow.ofLine x.operand) e.recorded
                t.mem = o.2.mem ∧ ∃ r, (t.bsu l.dev l.ch l.pair).result = some r ∧ same r o.1))) ∧
        (s.inService l.dev = true →
          s.bit Reg.HOT105 l.dev = true ∨ s.retire.refreshDueAt l = true ∨ s.retire.startTime l.dev 4 = none →
          exec (.commitEntryStart ⟨n, 0⟩) s = .next (s.beginWait .seqStart n)))) ∧
    (∀ (n phases : Nat) (e : EntrySt) (r : RowResult), s.step.entries[n]? = some e → s.inService e.e.loc.dev = false →
      e.result = some r →
      let clean := r.uel = 0 ∧ r.uex = false
      (e.st = .started → clean → e.csuPhase + phases < passBatches (PassRow.ofLine e.operand) → exec (.csuPass n phases) s
        = .next { s with step := { s.step with
            entries := modAt s.step.entries n (fun x => { x with csuPhase := x.csuPhase + phases }) } }) ∧
      (e.st = .started ∧ (¬ clean ∨ passBatches (PassRow.ofLine e.operand) ≤ e.csuPhase + phases) ∨ e.st = .executed →
        completes (.csuPass n phases) s (fun t =>
          (∃ x, t.step.entries[n]? = some x ∧ x.folded = true ∧ x.result = some r ∧ (clean → x.st = .atRest)
            ∧ (¬ clean → x.st = .unchanged))
          ∧ (∀ h, pl.shards[e.e.shard]? = some h → ∃ p' h', t.plan.plan = some p' ∧ p'.shards[e.e.shard]? = some h'
              ∧ h'.amax = fpMax h.amax r.amax ∧ h'.stepSat = h.stepSat + r.satn)
          ∧ s.onlyLines t ([s.descLine pl 5 e.e.group, s.descLine pl 6 e.e.shard] ++ ((s.armedBy pl e.e.loc).toList.map (fun a =>
              ⟨(s.regionWords a.1.dreg).unitRow (a.1.dunit + 2 * a.2 + 1), 12⟩)))
          ∧ t.seq = s.seq ∧ t.out = s.out))) ∧
    (∀ (n : Nat) (e : EntrySt) (r : RecSel × Nat), s.step.entries[n]? = some e → s.armedBy pl e.e.loc = some r →
      s.seq.sealV = 1 → s.seq.commitRun = true → e.st = .waiting → e.recorded = false → e.mask % 32 ≠ 0 →
      s.awaitsIn e.e.loc = false → s.awaitsLayer pl e.e = false →
      (s.passReadable pl e = false → exec (.recordWrite n) s = .next s) ∧
      (s.passReadable pl e = true → completes (.recordWrite n) s (fun t =>
        let z := s.poolPlace e.e.loc e.e.pool (pl.shardFmt e.e.shard)
        let a := (s.regionWords r.1.dreg).unitRow (r.1.dunit + 2 * r.2)
        let b := (s.regionWords r.1.dreg).unitRow (r.1.dunit + 2 * r.2 + 1)
        let sect := sectorLines z.g16w z.sect
        t.step.entries = s.step.entries.map (fun x => if x.e.loc = e.e.loc then { x with recorded := true } else x)
        ∧ s.onlyLines t ((List.range 30).flatMap (fun i => [⟨a, i⟩, ⟨b, i⟩])) ∧ t.seq = s.seq ∧ t.out = s.out
        ∧ (s.takesWrites a → s.takesWrites b → a.addr ≠ b.addr → a.addr ≠ e.e.loc.addr → b.addr ≠ e.e.loc.addr →
            (∀ i < 30, ∀ d, (s.lineVal ⟨e.e.loc, i⟩).bytes? = some d → t.lineVal ⟨a, i⟩ = .good d)
            ∧ (∀ k i d, sect[k]? = some i → (s.lineVal ⟨z.red, i⟩).bytes? = some d → t.lineVal ⟨b, 2 + k⟩ = .good d)
            ∧ t.lineVal ⟨b, 12⟩ = .good (takePad 64 (recordWord s.step.hdr.s 0 0 e.e.loc (pl.shardFmt e.e.shard).lines z.g16w false
                (s.metaOr e.e.loc).toWord))
            ∧ ∀ i < 30, 13 ≤ i ∨ (2 + sect.length ≤ i ∧ i < 12) → t.lineVal ⟨b, i⟩ = .good (List.replicate 64 0)))))

/-- What a single or apply pass writes (R27, R28, R107 to R109, R118 to R122, R125, R126, R130, R274, R328), given no line that it
cannot read: masters and moments of all 160 positions by the rule's sequence from the values as read, padding +0, blocks left out of
the mask as they were; PHASE 0 and EPOCH + 1 modulo 256 with the VALID bits of the lines written; the slot lines of the committed
blocks; no other byte. A scan, a frozen row and a pass with a bad line write nothing. CSU_PASS, a commit entry and CMTR run this pass
(CommitEntryWork, BsuCommands). Rests on the model's choices in log entries 63, 64. -/
def Obligations.CommitPassWrites : Prop :=
  ∀ (s : State) (seed : List Byte) (l : RowLoc) (prow : Nat) (c : PassConst) (r : PassRow) (recorded : Bool),
    let o := (s.runPass seed l prow c r recorded).1
    let t := (s.runPass seed l prow c r recorded).2
    let wl := l.at (partnerBank l.bank) r.wrow
    let new := s.newElem seed l (l.at (partnerBank l.bank) prow) c r
    let f := EmFmt.ofCode r.fmt
    ((s.findPass l prow r).clean = false ∨ r.pass = 1 ∨ r.rule = 10 → t = s) ∧
    ((s.findPass l prow r).clean = true → r.pass ≠ 1 → r.rule ≤ 9 → s.isStateRow l = true → s.takesWrites l →
      (r.rule ≤ 8 → l.addr ≠ wl.addr ∧ s.takesWrites wl ∧ slotLine0 r + f.lines ≤ 30) →
      (∀ j < 160, (r.rule ≠ 9 → t.rowWord l 0 j = (new j).w) ∧ (r.rule ≠ 0 → r.rule ≠ 8 → t.rowWord l 10 j = (new j).m)
        ∧ (r.rule ∈ [3, 4, 6] → t.rowWord l 20 j = (new j).v)) ∧
      (∃ m, s.rowMeta l = some m ∧ t.rowMeta l = some { m with
        phase := 0, epoch := (m.epoch + 1) % 256, record := recorded, zeroed := false,
        valid := (ruleReads r.rule).foldl (fun v i => v ||| 2 ^ i) m.valid }) ∧
      (r.rule ≤ 8 →
        let old := (r.keptLines.map (fun i => leNat (s.lineBytes ⟨wl, slotLine0 r + i⟩) * 2 ^ (512 * i))).sum
        let k := (newSlot c r old ((List.range 160).map (fun j => (new j).w))).go.1
        (∀ i ∈ f.slotWritten r.mask, t.lineVal ⟨wl, slotLine0 r + i⟩ = .good (slotLineBytes k.1 i))
          ∧ o.amax = k.2.1 ∧ o.satn = k.2.2) ∧
      s.onlyLines t ((ruleReads r.rule).map (⟨l, ·⟩)
        ++ if r.rule ≤ 8 then (f.slotWritten r.mask).map (fun i => ⟨wl, slotLine0 r + i⟩) else []) ∧
      t = { s with mem := t.mem, wcb := t.wcb, fault := { s.fault with tracks := t.fault.tracks } })

/-- The values of an emission (R27, R29, R95, R97 to R102, R104): every code of a finite block on its format's grid as R95 rounds it,
with the scale R98 or R101 gives, the Q2 index nearest in exact value, the Q1 magnitude from the sum in order; the codes of a block with
a non-finite master; padding 0; the draws, with the test vector of R97 and the worked example of R102; the place of each block in its
slot; a touched shard's exponent for the next step. Rests on the model's choice in log entry 20. -/
def Obligations.EmissionValues : Prop :=
  (∀ (c : ConvCfg) (npar q : Nat) (masters : List Word), masters.length = 160 → npar ≤ 160 → q < 5 →
    let w (i : Nat) : Word := (fpOperand c.flush (masters.getD (32 * q + i) 0)).go.1
    let n := min 32 (npar - 32 * q)
    let u (i : Nat) : Nat := draw c.seed c.tensor (c.elem0 + 32 * q + i) c.glo
    let x := (convertBlock c npar q masters).go
    let out := x.1.1
    let a := x.1.2
    let finite := ∀ i < n, fpIsFinite (w i) = true
    let scaled (base : Int) (out : BlockOut) (s : Int) : Prop :=
      (a = 0 → s = 0) ∧ (∀ k : Int, (2 : Rat) ^ k ≤ fpRat a → fpRat a < 2 ^ (k + 1) → s = clampExp (k - base))
        ∧ out.scale = (s + 127).toNat
    out.codes.length = 32 ∧ (∀ i < 32, n ≤ i → out.codes.getD i 1 = 0) ∧ (x.2.nonfin = true ↔ ¬ finite) ∧
    (∀ i < n, fpIsFinite (w i) = true → (fpAbs (w i)).toNat ≤ a.toNat) ∧
    (a = 0 ∨ ∃ i < n, fpIsFinite (w i) = true ∧ a = fpAbs (w i)) ∧
    (c.fmt ∈ [.e4m3, .e5m2, .e3m2, .e2m3, .e2m1] →
      (finite → ∃ s, scaled c.fmt.mx.2 out s ∧ ∃ sat : Nat → Bool,
        (∀ i < n, c.fmt.mx.1.placed c.mode (fpRat (w i) * 2 ^ (-s)) (fpSign (w i)) (u i) (out.codes.getD i 0, sat i))
        ∧ out.sat = (List.range n).countP sat) ∧
      (¬ finite → out = ⟨List.replicate 32 0, 0xFF, 0⟩)) ∧
    (c.fmt = .bf16 → out.scale = 0 ∧ ∃ sat : Nat → Bool, out.sat = (List.range n).countP sat ∧ ∀ i < n,
      (fpIsNaN (w i) = true → out.codes.getD i 0 = 0x7FC0 ∧ sat i = false) ∧
      (fpIsInf (w i) = true → out.codes.getD i 0 = (fpSign (w i)).toNat * 2 ^ 15 + 0x7F80 ∧ sat i = false) ∧
      (fpIsFinite (w i) = true → gridBf16.placed c.mode (fpRat (w i)) (fpSign (w i)) (u i) (out.codes.getD i 0, sat i))) ∧
    (c.fmt = .q2 → c.cb.length = 4 → (∀ h ∈ c.cb, fp16IsFinite h = true) →
      (∀ base : Int, (∀ h ∈ c.cb, |fp16Rat h| < 2 ^ (base + 1)) → (∃ h ∈ c.cb, 2 ^ base ≤ |fp16Rat h|) → finite →
        ∃ s, scaled base out s ∧ ∀ i < n,
          let d (k : Nat) : Rat := |fpRat (w i) * 2 ^ (-s) - fp16Rat (c.cb.getD k 0)|
          let k := out.codes.getD i 0
          k < 4 ∧ (∀ j < 4, d k ≤ d j) ∧ ∀ j < k, d k < d j) ∧
      (¬ finite → out = ⟨List.replicate 32 0, 0xFF, 0⟩)) ∧
    (c.fmt = .q1 →
      (finite →
        let σ := (List.range 32).foldl (fun y i => (fpAdd c.flush y (if i < n then fpAbs (w i) else 0)).go.1) 0
        (∀ i < n, out.codes.getD i 0 = (fpSign (w i)).toNat) ∧
        (fpIsInf σ = true → out.scale = gridFp16.top ∧ out.sat = 1) ∧
        (fpIsInf σ = false → gridFp16.placed .nearestEven (fpRat σ * 2 ^ (-5 - c.xexp)) false 0 (out.scale, out.sat == 1))) ∧
      (¬ finite → out = ⟨List.replicate 32 0, 0x7E00, 0⟩))) ∧
  (∀ (c : PassConst) (r : PassRow) (old : Nat) (masters : List Word), masters.length = 160 → r.npar ≤ 160 →
    let f := EmFmt.ofCode r.fmt
    let v := (newSlot c r old masters).go.1.1
    ∀ q < 5,
      let out := (convertBlock (convCfg c r) r.npar q masters).go.1.1
      (∀ i < 32, v / 2 ^ (f.width * (32 * q + i)) % 2 ^ f.width
        = if r.mask.testBit q then out.codes.getD i 0 else old / 2 ^ (f.width * (32 * q + i)) % 2 ^ f.width) ∧
      v / 2 ^ (160 * f.width + f.scaleWidth * q) % 2 ^ f.scaleWidth
        = if r.mask.testBit q then out.scale else old / 2 ^ (160 * f.width + f.scaleWidth * q) % 2 ^ f.scaleWidth) ∧
  (∀ (h : Shard) (k : Int), (2 : Rat) ^ k ≤ fpRat h.amax → fpRat h.amax < 2 ^ (k + 1) → fpIsFinite h.amax = true →
    h.atBoundary.xexp = max (-128) (min 127 (k - 14 + h.cfg.margin)) ∧ h.atBoundary.amaxLast = h.amax) ∧
  draw 0 0 0 0 = 0xCD5064 ∧
  (convertBlock ⟨.e2m1, .nearestEven, false, 0, [], 0, 0, 0, 0⟩ 160 0
    ([0x3DCCCCCD, 0xBF400000, 0x3F666666, 0x3E99999A, 0xBC23D70A] ++ List.replicate 155 0)).go.1.1
    = ⟨[0x2, 0xF, 0x7, 0x4, 0x8] ++ List.replicate 27 0, 0x7C, 1⟩

/-- The end of a sequence (R276, R279, R284, R319): at its bound the result is read, the pair is free and the entry ends, at rest
where no line was bad; one whose result an access to the pair had read before ends too; a sequence that reads BUSY is logged and
counted, stays on its pair, and is read again every 40 ns. Rests on the model's choices in log entries 3, 65, 124. -/
def Obligations.SequenceEnds : Prop :=
  ∀ (s : State) (pl : Plan) (d : BitVec 5) (c : BitVec 2) (k : BitVec 3), s.plan.plan = some pl →
    let onPair (e : EntrySt) : Prop :=
      e.e.loc.dev = d.toNat ∧ e.e.loc.ch = c.toNat ∧ e.e.loc.pair = k.toNat ∧ s.inService d.toNat = true
    let ended (n : Nat) (r : RowResult) (t : State) : Prop :=
      (t.step.entries[n]?).any (fun x => x.folded && (if r.uel = 0 ∧ r.uex = false then x.st == .atRest else x.st == .unchanged))
        = true
      ∧ t.pairHeld d.toNat c.toNat k.toNat = false ∧ s.clock.time ≤ t.clock.time ∧ t.out = s.out
    (∀ q, s.seqOn d.toNat c.toNat k.toNat = some q →
      (∀ n e r, q.entry = some n → s.step.entries[n]? = some e → onPair e → (s.bsu q.dev q.ch q.k).result = some r →
        (q.overran = false → q.ran = true → completes (.seqBoundEnd d c k false) s (fun t => ended n r t ∧ q.bound ≤ t.clock.time)) ∧
        (q.overran = true → completes (.resultReread d c k false) s (fun t => ended n r t ∧ q.bound ≤ t.clock.time))) ∧
      (q.dev < 24 → q.overran = false → q.ran = true → completes (.seqBoundEnd d c k true) s (fun t =>
        t.get Reg.OVERRUN = min (s.get Reg.OVERRUN + 1) 0xFFFFFFFF ∧ t.bit Reg.BSU_REVIEW q.dev = true
        ∧ t.pairHeld d.toNat c.toNat k.toNat = true ∧ (t.bsu q.dev q.ch q.k).tout = true ∧ t.mem = s.mem ∧ t.step = s.step)) ∧
      (q.overran = true → completes (.resultReread d c k true) s (fun t =>
        t.dev = s.dev ∧ t.step = s.step ∧ t.mem = s.mem ∧ s.countsOnly t ∧ s.clock.time ≤ t.clock.time
        ∧ (q.bound ≤ s.clock.time → (t.clock.time - q.bound) % 40 = 0 ∧ s.clock.time < t.clock.time)))) ∧
    (s.seqOn d.toNat c.toNat k.toNat = none → ∀ n e r, s.step.entries[n]? = some e → onPair e → e.st = .executed →
      e.result = some r → completes (.seqBoundEnd d c k false) s (ended n r))

/-- Trust ratios and released reduction rows (R70, R115, R122 to R124): a LAMB or LARS group's ratio is formed from the sums of its
scan entries, in list order; the release of a reduction row rewrites its tail sector 3 alone.
Rests on the model's choice in log entry 66. -/
def Obligations.TrustAndRelease : Prop :=
  ∀ (s : State) (pl : Plan) (g : Half) (row : Nat) (k : GroupK) (l : RowLoc), s.plan.plan = some pl →
    let c := s.groupCfg g.toNat
    let scans := s.step.entries.filter (fun e => e.e.group == g.toNat && e.e.pass == 1)
    let sums := s.step.scanTotals g.toNat
    let trust := (c.trustRatio pl.seedTable sums.1 sums.2).go.1
    (s.step.groupK? g.toNat = some k → s.seq.commitRun = true → c.rule = 6 ∨ c.rule = 7 → k.etaTrust = none → scans ≠ [] →
      (∀ e ∈ scans, e.ended = true) → completes (.trustRatio g) s (fun t =>
        (t.step.groupK? g.toNat).bind (·.etaTrust) = some (fpMul c.flush k.eta trust).go.1
        ∧ (∀ x, pl.groups[g.toNat]? = some x → (t.plan.plan.bind (·.groups[g.toNat]?)).map (·.trustv) = some trust)
        ∧ t.seq = s.seq ∧ t.out = s.out)) ∧
    (s.reductionRows[row]? = some l → s.rowReleasable l = true → s.pairHeld l.dev l.ch l.pair = false →
      s.mappedOut l.dev l.ch = false →
      completes (.reductionRelease row) s (fun t =>
        (∀ a, a < l.addr + 0x7E0 ∨ l.addr + 0x800 ≤ a → memRead t.mem a = memRead s.mem a)
        ∧ (∀ i < 24, memRead t.mem (l.addr + 0x7E0 + i) = 0)
        ∧ leNat (memReads t.mem (l.addr + 0x7F8) 8) = ({ Meta.fresh 1 with remap := s.rowRemapped l }.toWord).toNat
        ∧ t.step = { s.step with released := s.step.released ++ [l] } ∧ s.countsOnly t ∧ Same [.mem, .wcb, .step, .regul, .clock] s t))

/-- Layer work (R140, R154, R155, R158): the engine takes the next touched layer; where every value is at hand, the bytes of the scratch
area are the direction that the work of its MRULE gives (R144, R145; R147 to R152), and else the layer is abandoned. One write of the
descriptor completes the direction, DSTATE 1 with its DSTEP and selectors. It is then copied: every line of the layer's sectors holds
the direction's values of its row, DSTATE is 2, and no other byte changes; where a line takes no write, or scratch cannot be
read, the layer is abandoned. Rests on the model's choice in log entry 67. -/
def Obligations.LayerWork : Prop :=
  ∀ (s : State) (pl : Plan) (n : Nat) (x : LayerSt) (y : Layer), s.plan.plan = some pl → s.step.layers[n]? = some x →
    pl.layers[x.ix]? = some y →
    let c := y.cfg
    let flush := (s.groupCfg c.group).flush
    let size := 2 * c.rows * c.cols
    let scratch := (s.regionWords c.sreg).span (1920 * c.srow) size
    (s.nextLayer = some n → s.seq.commitRun = true → s.seq.sealV = 1 →
      let sums := s.readSums pl c flush
      let given (v : Fp (List Word)) := (do let l ← v; l.mapM (fun w => fpScale flush w (-s.step.hdr.lse)) : Fp (List Word)).go
      let work (v : Fp (List Word)) : Option LayerOut :=
        let u := sums.2.orFlags c.group (given v).2
        let g := rowsOf c.rows c.cols (given v).1
        if c.mrule = 1 then (u.workOrtho pl c flush g).1 else (u.workPrecond pl x.ix y flush g).1
      completes .layerWorkStart s (fun t =>
        (∀ v o, sums.1 = some v → work v = some o →
          t.step.layers[n]? = some { x with
            st := .formed, factors := c.mrule == 2, rootL := o.rootL, rootR := o.rootR, rootfb := o.rootfb, zerog := o.zerog }
          ∧ (s.ownLines scratch → (∀ z ∈ scratch, s.disjoint (s.descLine pl 5 c.group) z) →
              t.holds c.sreg (1920 * c.srow) size (sectorBytes false o.delta)))
        ∧ ((∀ v, sums.1 = some v → work v = none) → (t.step.layers[n]?).any (·.st == .abandoned) = true)
        ∧ (∀ j, j ≠ n → t.step.layers[j]? = s.step.layers[j]?) ∧ t.seq = s.seq ∧ t.out = s.out)) ∧
    (s.layerAt .formed = some n → completes .directionComplete s (fun t =>
      (t.plan.plan.bind (·.layers[x.ix]?)) = some { y with
        dstate := 1, dstep := s.step.hdr.s % 2 ^ 32, fsel := y.fsel ^^ x.factors, rselL := y.rselL ^^ x.rootL,
        rselR := y.rselR ^^ x.rootR, okL := y.okL || x.rootL, okR := y.okR || x.rootR, rootfb := y.rootfb || x.rootfb,
        zerog := x.zerog }
      ∧ (t.step.layers[n]?).any (·.st == .scratch) = true ∧ s.onlyLines t [s.descLine pl 7 x.ix] ∧ t.seq = s.seq ∧ t.out = s.out)) ∧
    (s.layerAt .scratch = some n →
      let rows := (List.range c.stateRows).filterMap (fun r => (s.layerSector pl c r).map (fun z => (r, z)))
      let lines := rows.flatMap (·.2.1)
      (∀ b, s.holds c.sreg (1920 * c.srow) size b → (∀ z ∈ lines, s.clean z ∧ s.disjoint (s.descLine pl 7 x.ix) z) → s.ownLines lines →
        completes .directionCopyDone s (fun t =>
          ((t.plan.plan.bind (·.layers[x.ix]?)).map (·.dstate)) = some 2
          ∧ (t.step.layers[n]?).any (·.st == .sectors) = true ∧ t.seq = s.seq ∧ t.out = s.out
          ∧ s.onlyLines t (s.descLine pl 7 x.ix :: lines)
          ∧ ∀ z ∈ rows, ∀ j l, z.2.1[j]? = some l →
              let d := ((sectorBytes z.2.2 (((sectorValues false b).drop (160 * z.1)).take 160)).drop (64 * j)).take 64
              t.lineBytes l = mergeBytes (s.lineBytes l) (takePad 64 d) (2 ^ d.length - 1))) ∧
      ((s.copyDirection pl c).1 = false → completes .directionCopyDone s (fun t =>
        (t.step.layers[n]?).any (·.st == .abandoned) = true ∧ t.seq = s.seq ∧ t.out = s.out)))

/-- The step's boundary (R49, R51, R60, R61, R73, R74, R193, R195): OUTCOME, stamp 5, the step event, and PHASE 0 where there is no hold. A
committed step advances S and G, a skipped one S alone, a refused one neither; the step's lists and the stack are gone.
Rests on the model's choices in log entries 35, 37. -/
def Obligations.StepBoundaryResults : Prop :=
  ∀ (s : State), s.seq.wait = some .stepend → s.settleInsts.stependReady = true → s.fault.holdNext = [] →
    let c := s.stepS
    let g := s.stepG
    let at_ (outcome S G : Nat) (t : State) : Prop :=
      t.get Reg.OUTCOME = outcome ∧ t.stepS = S ∧ t.stepG = G ∧ t.bit Reg.IRQ_STAT 1 = true
      ∧ (s.flag Reg.HELD = false → t.flag Reg.HELD = false → t.get Reg.PHASE = 0)
      ∧ (s.req.repairs.head? ≠ some .service → t.get64 (Reg.STAMP_LO 5) (Reg.STAMP_HI 5) = t.clock.tick % 2 ^ 64)
      ∧ t.step = StepState.empty ∧ t.seq.running = false ∧ t.seq.stack = [] ∧ t.waits = [] ∧ t.out = s.out
    (s.seq.openV = 2 → completes .stepBoundary s (at_ 3 c g)) ∧
    (s.seq.openV = 1 → s.settleInsts.stependOk = true → s.seq.sealV = 2 → completes .stepBoundary s (at_ 2 ((c + 1) % 2 ^ 64) g)) ∧
    (s.seq.openV = 1 → s.settleInsts.stependOk = true → s.seq.sealV = 1 → completes .stepBoundary s 
      (at_ 1 ((c + 1) % 2 ^ 64) ((g + 1) % 2 ^ 64))) ∧
    (s.settleInsts.stependOk = false → completes .stepBoundary s (fun t => s.Trapped t 0x03 0x0A))

/-! ### Registers, regions, engines and the host -/

/-- GO (R51, R52, R172): at a step boundary in Run with a plan, GO latches the header, clears REASON, takes stamp 0 and starts open
with the sequencer at STEP_ENTRY, or is held while something must end first; written at any other time, or while one is held, it is
ignored and sets GO_REFUSED; a write of 0 is no request. SG_SET (R53): in stage 4 with no plan loaded it copies SET_S into S and
SET_G into G; at any other time it is ignored and sets SG_REFUSED. Rests on the model's choice in log entry 33. -/
def Obligations.GoStartsStep : Prop :=
  (∀ (s : State) (pl : Plan) (v : Word), s.served 0x0800 = true → s.plan.plan = some pl →
    (v.getLsbD 31 = true → s.goTaken = true → s.goBlocked = false → completes (.go v) s (fun t =>
      t.get Reg.PHASE = 1 ∧ t.get Reg.REASON = 0
      ∧ t.get64 (Reg.STAMP_LO 0) (Reg.STAMP_HI 0) = s.clock.tick % 2 ^ 64
      ∧ t.seq = { Seq.idle with running := true, pc := pl.hdr.stepEntry }
      ∧ t.step = pl.startLists ⟨s.get64 Reg.VARIANT_LO Reg.VARIANT_HI, ofTwos 8 (s.get Reg.LSE),
          s.get64 Reg.SEED_LO Reg.SEED_HI, s.get64 Reg.STEP_LO Reg.STEP_HI,
          s.get64 Reg.GSTEP_LO Reg.GSTEP_HI⟩ s.step.posts
      ∧ t.mem = s.mem ∧ t.out = s.out)) ∧
    (v.getLsbD 31 = true → s.goTaken = true → s.goBlocked = true → completes (.go v) s (fun t =>
      t.step.goHeld = true ∧ t.seq = s.seq ∧ t.regs = s.regs)) ∧
    (v.getLsbD 31 = true → s.inRun = false ∨ s.atBoundary = false ∨ s.step.goHeld = true → completes (.go v) s (fun t =>
      t.flag Reg.GO_REFUSED = true ∧ s.onlyRegs t [Reg.GO_REFUSED])) ∧
    (v.getLsbD 31 = false → exec (.go v) s = .next s)) ∧
  ∀ (s : State) (v : Word), s.served 0x0900 = true → v.getLsbD 31 = true →
    (s.get Reg.BSTAGE = 4 → s.plan.plan = none → completes (.sgSet v) s (fun t =>
      t.get Reg.STEP_LO = s.get Reg.SET_S_LO % 2 ^ 32 ∧ t.get Reg.GSTEP_LO = s.get Reg.SET_G_LO % 2 ^ 32
      ∧ (s.get Reg.SET_S_LO < 2 ^ 32 → t.get Reg.STEP_HI = s.get Reg.SET_S_HI % 2 ^ 32)
      ∧ (s.get Reg.SET_G_LO < 2 ^ 32 → t.get Reg.GSTEP_HI = s.get Reg.SET_G_HI % 2 ^ 32)
      ∧ s.onlyRegs t [Reg.STEP_LO, Reg.STEP_HI, Reg.GSTEP_LO, Reg.GSTEP_HI, Reg.SG_REFUSED])) ∧
    (s.get Reg.BSTAGE ≠ 4 ∨ s.plan.plan ≠ none → completes (.sgSet v) s (fun t =>
      t.flag Reg.SG_REFUSED = true ∧ s.onlyRegs t [Reg.SG_REFUSED]))

/-- The count exchange and the posts (R179, R205, R228): CNT_GO forms the count record of a leaf from its count area and sends it to
the parent, or sets CNT_REFUSED; a post for a CORE instance not yet begun is held, any other sets BADPOST.
Rests on the model's choice in log entry 42. -/
def Obligations.CountsAndPosts : Prop :=
  ∀ (s : State) (pl : Plan) (v : Word) (q : Half) (b : List Byte), s.plan.plan = some pl →
    let u := s.writeFields 0x5010 v.toNat
    let reg := v.toNat % 64
    let off := s.get64 Reg.CNT_OFF_LO Reg.CNT_OFF_HI
    let n := pl.tree.nexpt
    (s.served 0x5010 = true → v.getLsbD 31 = true → u.cntTaken = true → s.req.st = none → s.get Reg.PSTATE ≠ 1 →
      u.checkRegion .host false reg off (16 * n) = .ok → u.checkRegion .host true reg off (16 * n) = .ok →
      u.holds reg off (8 * n) b → (∀ r ∈ s.exch.own, r.kind ≠ 0x34) → pl.tree.children = [] → pl.tree.parent ≠ 0xFFFF →
      s.portsOf 0 ≠ [] → completes (.cntGo v) s (fun t =>
        t.exch.cnt = some ⟨reg, off⟩ ∧ t.mem = s.mem
        ∧ ∃ port ∈ s.portsOf 0, ∃ hdr, t.out = s.out ++ [s.sends pl.tree.parent port 0x34 hdr (countRecord n b)]
            ∧ hdr.dst = BitVec.ofNat 16 pl.tree.parent)) ∧
    (s.served 0x5010 = true → v.getLsbD 31 = true → u.cntTaken = false → completes (.cntGo v) s (fun t =>
      t.flag Reg.CNT_REFUSED = true ∧ s.onlyRegs t [Reg.CNT_REG, Reg.CNT_DONE, Reg.CNT_REFUSED])) ∧
    (s.served 0x0430 = true → (∀ l, s.step.cset = some l → (q.toNat, true) ∈ l) → s.inst? q.toNat = none →
      completes (.collPost q) s (fun t => q.toNat ∈ t.step.posts ∧ (∀ x ∈ s.step.posts, x ∈ t.step.posts)
        ∧ t.regs = s.regs ∧ Same [.step] s t)) ∧
    (s.served 0x0430 = true → ((∃ l, s.step.cset = some l ∧ (q.toNat, true) ∉ l) ∨ (s.inst? q.toNat).isSome = true) →
      completes (.collPost q) s (fun t => t.flag Reg.BADPOST = true ∧ s.onlyRegs t [Reg.BADPOST]))

/-- The region table (R40 to R43): an entry write that no condition refuses is taken, field by field, and starts initialization where
it enables a disabled entry with INIT; a refused write sets REFUSED, REF_ENTRY and REF_CODE and leaves the entry. Initialization
clears the metadata of every row of the words that began it, but of those on a mapped-out channel, and its end makes the entry usable.
Rests on the model's choices in log entries 2, 116, 126. -/
def Obligations.RegionTableWrites : Prop :=
  ∀ (s : State) (n : BitVec 6) (w : BitVec 2) (v : Word),
    let e := (s.regionWords n.toNat).withWord w.toNat v.toNat
    let init := decide (w = 0) && v.getLsbD 30
    let off := 0x1000 + 16 * n.toNat + 4 * w.toNat
    ((∀ r, s.req.st = some r → r.running = false) → s.served off = true →
      (s.writeRefusal n.toNat e init = none → completes (.regionEntryWrite n w v) s (fun t =>
        (∀ f ∈ regFields off, f.acc = .rw → t.get f = bits v.toNat f.hi f.lo)
        ∧ (init = true → e.en = true → s.enabled n.toNat = false → t.initPending n.toNat = true ∧ t.flag Reg.BUSY = true
            ∧ t.req = { s.req with
                inits := s.req.inits.filter (fun i => i.entry != n.toNat) ++ [⟨n.toNat, t.regionWords n.toNat, false⟩] })
        ∧ (init = false ∨ e.en = false ∨ s.enabled n.toNat = true → t.req = s.req)
        ∧ t = { s with regs := t.regs, req := t.req })) ∧
      (∀ c, s.writeRefusal n.toNat e init = some c → completes (.regionEntryWrite n w v) s (fun t =>
        t.flag Reg.REFUSED = true ∧ t.get Reg.REF_ENTRY = n.toNat ∧ t.get Reg.REF_CODE = c % 256
        ∧ s.onlyRegs t [Reg.REFUSED, Reg.REF_ENTRY, Reg.REF_CODE]))) ∧
    (∀ i, s.req.inits.find? (fun i => i.entry == n.toNat) = some i → s.initPending n.toNat = true →
      (i.ran = false → completes (.init n) s (fun t =>
        (∃ j ∈ t.req.inits, j = { i with ran := true })
        ∧ (∀ a, (∀ l ∈ RegionWords.allRows i.words, a < l.addr + 0x7E0 ∨ l.addr + 0x800 ≤ a) → memRead t.mem a = memRead s.mem a)
        ∧ (∀ l ∈ RegionWords.allRows i.words, s.mappedOut l.dev l.ch = false → leNat (memReads t.mem (l.addr + 0x7F8) 8)
            = (Meta.fresh (RegionWords.fld i.words 0 29 27)).toWord.toNat)
        ∧ s.countsOnly t)) ∧
      (i.ran = true → completes (.initDone n) s (fun t =>
        t.initPending n.toNat = false ∧ (∀ k < 64, k ≠ n.toNat → t.initPending k = s.initPending k)
        ∧ (∀ j ∈ t.req.inits, j.entry ≠ n.toNat)
        ∧ t.flag Reg.BUSY = t.anyInit ∧ s.regsKept t [Reg.INIT_PEND_LO, Reg.INIT_PEND_HI, Reg.BUSY])))

/-- Region requests of the control port and of the engines (R24, R252, R383, R385, R420): an allowed read of clean lines is answered
with their data, an allowed write of such lines is done and answered with status 0. A request of the control port that a check
refuses changes no device byte and is answered with a status and no lines, 5 in Harebell and in Spent and nowhere else.
Rests on the model's choices in log entries 79, 120. -/
def Obligations.RegionRequests : Prop :=
  ∀ (s : State) (port : BitVec 3) (eng : BitVec 4) (reg : BitVec 6) (off : BitVec 42) (n fails : Nat) (data : List LineWrite),
    let e := s.regionWords reg.toNat
    let lines := requestLines e off.toNat n
    let shown : List LineResp := lines.map (fun x => ⟨some (lineOfBytes (s.lineBytes x)), false⟩)
    let writes := (requestLines e off.toNat data.length).zip data |>.map (fun p => (p.1, bytesOfLine p.2.data, p.2.mask.toNat))
    let up := s.harebell = false ∧ s.spent = false
    (up → badLines off.toNat n = false → (∀ x ∈ lines, s.clean x) →
      (s.checkRequest .host false reg.toNat off.toNat (64 * n) = .ok → completes (.hostRegionRd reg off ⟨n, 0⟩) s (fun t =>
        t.out = s.out ++ [.host 0 shown] ∧ t.mem = s.mem ∧ s.countsOnly t ∧ Same [.out, .regul, .clock] s t)) ∧
      (s.checkRequest .engine false reg.toNat off.toNat (64 * n) = .ok → completes (.engineRd port eng reg off n 0) s (fun t =>
        t.out = s.out ++ [.engine port.toNat eng.toNat 0 shown none] ∧ t.mem = s.mem))) ∧
    (up → badLines off.toNat data.length = false → (∀ w ∈ writes, s.plain w.1) →
      (s.checkRequest .host true reg.toNat off.toNat (64 * data.length) = .ok → completes (.hostRegionWr reg off ⟨data, 0⟩) s (fun t =>
        t.out = s.out ++ [.host 0 []] ∧ t.mem = s.linesAfter writes ∧ s.countsOnly t)) ∧
      (s.checkRequest .engine true reg.toNat off.toNat (64 * data.length) = .ok →
        completes (.engineWr port eng reg off data 0) s (fun t =>
          t.out = s.out ++ [.engine port.toNat eng.toNat 0 [] none] ∧ t.mem = s.linesAfter writes))) ∧
    (∀ c : Instr, (c = .hostRegionRd reg off ⟨n, fails⟩ ∧ (s.harebell = true ∨ s.spent = true ∨ badLines off.toNat n = true
          ∨ s.checkRequest .host false reg.toNat off.toNat (64 * n) ≠ .ok))
        ∨ (c = .hostRegionWr reg off ⟨data, fails⟩ ∧ (s.harebell = true ∨ s.spent = true ∨ badLines off.toNat data.length = true
          ∨ s.checkRequest .host true reg.toNat off.toNat (64 * data.length) ≠ .ok)) →
      completes c s (fun t => t.mem = s.mem ∧ ∃ st ∈ [1, 2, 3, 5, 6], t.out = s.out ++ [.host st []]
        ∧ (st = 5 ↔ s.harebell = true ∨ s.spent = true)))

/-- Engine ports (R249, R259, R260, R384): an allowed atomic add of a clean line, once its BSU may start, changes its word alone and
answers the old value where it is asked for; a kernel end is completed at once; credit lets waiting tokens pass, at most 64 entries being
held. Rests on the model's choice in log entry 124. -/
def Obligations.EnginePortResults : Prop :=
  ∀ (s : State) (port : BitVec 3) (eng : BitVec 4) (reg : BitVec 6) (off : BitVec 42) (form : BitVec 2) (op : DWord) (ret : Bool)
      (n : BitVec 7),
    let x := (s.regionWords reg.toNat).lineAt off.toNat
    (∀ size, s.harebell = false → s.spent = false → atomicSize form.toNat = some size → off.toNat % size = 0 →
      s.checkRequest .engine true reg.toNat off.toNat size = .ok → s.checkRequest .engine false reg.toNat off.toNat size = .ok →
      (s.atomicWaits x = true → exec (.engineAadd port eng reg off form op ret) s = .next s) ∧
      (s.atomicWaits x = false → s.clean x → s.oneHome x →
      let old := leAt (s.lineBytes x) (off.toNat % 64) size
      let arg := op.toNat % 2 ^ (8 * size)
      let new := if form = 2 then (fpAdd true (BitVec.ofNat 32 old) (BitVec.ofNat 32 arg)).go.1.toNat
        else (old + arg) % 2 ^ (8 * size)
      completes (.engineAadd port eng reg off form op ret) s (fun t =>
        t.mem = s.memAfter x (spliceBytes (s.lineBytes x) (off.toNat % 64) (leBytes size new))
        ∧ t.out = s.out ++ [.engine port.toNat eng.toNat 0 [] (if ret then some (BitVec.ofNat 64 old) else none)]
        ∧ s.countsOnly t))) ∧
    (s.harebell = false → s.spent = false → exec (.kend port eng) s
      = .next { s with out := s.out ++ [.kernelEnd port.toNat eng.toNat] }) ∧
    (s.harebell = true ∨ s.spent = true → exec (.kend port eng) s
      = .next { s with out := s.out ++ [.engine port.toNat eng.toNat 5 [] none] }) ∧
    (∀ c, s.exch.ports[port.toNat]? = some ⟨c, []⟩ → completes (.engineTokenCredit port n) s (fun t =>
      t.exch.ports[port.toNat]? = some ⟨min 64 (c + n.toNat), []⟩ ∧ t.out = s.out ∧ s.countsOnly t ∧ Same [.exch] s t)) ∧
    (∀ tok, s.exch.ports[port.toNat]? = some ⟨0, [tok]⟩ → n ≠ 0 → completes (.engineTokenCredit port n) s (fun t =>
      t.exch.ports[port.toNat]? = some ⟨min 64 n.toNat - 1, []⟩ ∧ t.out = s.out ++ [.token port.toNat tok] ∧ t.mem = s.mem))

/-- The registers whose writes have no effect beyond their own fields, by offset (R400). -/
def plainOffsets : List Nat :=
  [0x0008, 0x000C, 0x0210, 0x0214, 0x0218, 0x021C, 0x0220, 0x0304, 0x0308, 0x030C, 0x0324, 0x0328, 0x032C, 0x0330, 0x0334, 0x0404,
    0x0420, 0x0424, 0x0808, 0x080C, 0x0810, 0x0818, 0x081C, 0x0830, 0x0840, 0x08C0, 0x08FC, 0x0908, 0x090C, 0x0910, 0x0914, 0x1400,
    0x1888, 0x2008, 0x200C, 0x2010, 0x202C, 0x2030, 0x204C, 0x2050, 0x2058, 0x4010, 0x401C, 0x4814, 0x4818, 0x4824, 0x4834, 0x4838,
    0x4850, 0x5014, 0x5018, 0x5020, 0x5024, 0x5030, 0x5034, 0x5038, 0x503C, 0x5040, 0x5044, 0x6010, 0x6014, 0x6100, 0x6138, 0x80A0,
    0x80A4, 0x80A8, 0x80AC]

/-- A register write acts on each field by its access code (R400): an rw field takes the value written, a w1c field clears where a 1
is written, rd and wo fields and every other register stay; one to a register that is not served is ignored (R405). Every access is answered at
once, and at an offset that is no multiple of 4 a read returns zero and a write is ignored, at either port, with no other effect
(R399). -/
def Obligations.RegisterWriteFields : Prop :=
  ∀ (s : State) (off : Half) (v : Word),
    (s.step.goHeld = false → off.toNat ∈ plainOffsets → s.served off.toNat = true → completes (.registerWrite off v) s (fun t =>
      (∀ f ∈ regFields off.toNat,
        (f.acc = .rw → t.get f = bits v.toNat f.hi f.lo)
        ∧ (f.acc = .w1c → t.get f = (s.get f - (s.get f &&& bits v.toNat f.hi f.lo)) % 2 ^ f.width)
        ∧ (f.acc = .rd ∨ f.acc = .wo → t.get f = s.get f))
      ∧ s.onlyRegs t (regFields off.toNat))) ∧
    (s.step.goHeld = false → s.served off.toNat = false → off.toNat ≠ 0x0400 → s.settleTest = s → exec (.registerWrite off v) s = .next s) ∧
    (∀ c ∈ [Instr.registerWrite off v, .pairLoRead off, .debugRequest (.regRead off), .debugRequest (.regWrite off v)],
      ∃ t, exec c s = .next t) ∧
    (off.toNat % 4 ≠ 0 → exec (.registerWrite off v) s = .next s ∧ exec (.debugRequest (.regWrite off v)) s = .next s
      ∧ exec (.pairLoRead off) s = .next { s with out := s.out ++ [.reg off.toNat 0] }
      ∧ (s.inReset = false → exec (.debugRequest (.regRead off)) s
          = .next { s with out := s.out ++ [.debugReg off.toNat 0] }))

/-- Register reads (R11, R359, R402, R405): a read of a block-written pair's _LO word latches the pair's other word, which the port's
next read of it returns whatever the register holds by then; a read changes nothing but the latched words, and one of a register
that is not served gives zero. At the debug port, above Quiet, the same, with latches of its own; in Quiet all but four registers are
refused with zero. A region write there is always refused, and a region read below Reach gives zero lines, with status 3 where the region
is not ready and 1 else. Rests on the model's choices in log entries 24, 115. -/
def Obligations.RegisterReads : Prop :=
  ∀ (s : State) (off : Half),
    let word := BitVec.ofNat 32 (s.readWord off.toNat)
    let shown (len : Nat) (w : Bool) (r : BitVec 6) (o : BitVec 42) : Nat :=
      if s.checkRequest .debug w r.toNat o.toNat (64 * len) = .notReady then 3 else 1
    (s.served off.toNat = true →
      (sparseFind s.cpLatch off.toNat = none → exec (.pairLoRead off) s = .next { s with
        out := s.out ++ [.reg off.toNat word],
        cpLatch := (latchPartners off.toNat).map (fun o => (o, BitVec.ofNat 32 (s.readWord o)))
          ++ s.cpLatch.filter (fun e => !(latchPartners off.toNat).contains e.1) }) ∧
      (∀ w, sparseFind s.cpLatch off.toNat = some w → exec (.pairLoRead off) s = .next { s with
        out := s.out ++ [.reg off.toNat w], cpLatch := s.cpLatch.filter (·.1 != off.toNat) }) ∧
      (s.harebell = false → s.get Reg.DBG_LVL ≠ 0 → s.fuses.lcs = 0 → sparseFind s.dbgLatch off.toNat = none →
        completes (.debugRequest (.regRead off)) s (fun t => t.out = s.out ++ [.debugReg off.toNat word]
          ∧ t.regs = s.regs ∧ Same [.latch, .out] s t ∧ t.cpLatch = s.cpLatch))) ∧
    (s.served off.toNat = false → exec (.pairLoRead off) s = .next { s with out := s.out ++ [.reg off.toNat 0] }) ∧
    (s.inReset = false → s.harebell = false → s.get Reg.DBG_LVL = 0 → off.toNat % 4 = 0 → off.toNat ∉ [0x4800, 0x4804, 0x4808, 0x4810] →
      completes (.debugRequest (.regRead off)) s (fun t => t.out = s.out ++ [.debugReg off.toNat 0]
        ∧ t.flag Reg.DBG_REFUSED = true ∧ s.regsKept t [Reg.DBG_REFUSED] ∧ Same [.out] s t)) ∧
    (∀ r o d, s.inReset = false → s.harebell = false → s.spent = false →
      completes (.debugRequest (.regionWrite r o d)) s (fun t =>
        t.out = s.out ++ [.debug (shown d.length true r o) []] ∧ t.flag Reg.DBG_REFUSED = true ∧ Same [.out] s t
        ∧ (shown d.length true r o = 1 → t.get Reg.LOG_SEQ = (s.get Reg.LOG_SEQ + 1) % 2 ^ 32)) ∧
      ∀ n, s.get Reg.DBG_LVL ≠ 2 → completes (.debugRequest (.regionRead r o n)) s (fun t =>
        t.out = s.out ++ [.debug (shown n false r o) (List.replicate n ⟨some 0, false⟩)] ∧ t.flag Reg.DBG_REFUSED = true
        ∧ Same [.out] s t ∧ (shown n false r o = 1 → t.get Reg.LOG_SEQ = (s.get Reg.LOG_SEQ + 1) % 2 ^ 32)))

/-- Counters, partitions and break (R211, R306, R362, R410 to R414): PC_CLR zeroes every performance counter; a partition word that
R412 refuses is not written; THALT clears at a boundary only; BRK_HIT is cleared by a 1 written to it, and so is PORT_FAIL of a port that
the fabric does not report failed. Rests on the model's choices in log entries 21, 22, 110, 117. -/
def Obligations.CountersAndLimits : Prop :=
  ∀ (s : State) (v : Word) (r : RegulatorReg),
    (s.served 0x6000 = true → v.getLsbD 30 = true → completes (.pcClr v) s (fun t =>
      (∀ i < 25, t.get (Reg.PC_LO i) = 0 ∧ t.get (Reg.PC_HI i) = 0) ∧ (∀ n < 8, t.get (Reg.PSECT_LO n) = 0 ∧ t.get (Reg.PSECT_HI n) = 0)
      ∧ t.get Reg.PC_FREEZE = v.toNat / 2 ^ 31 ∧ t = { s with regs := t.regs })) ∧
    (let u := s.writeFields (regulatorOff r) v.toNat
     s.served (regulatorOff r) = true →
      (u.partitionsRefused = none → exec (.regulatorWrite r v) s = .next u) ∧
      (∀ c, u.partitionsRefused = some c → completes (.regulatorWrite r v) s (fun t =>
        t.flag Reg.REG_REFUSED = true ∧ t.get Reg.REG_CODE = c ∧ s.onlyRegs t [Reg.REG_REFUSED, Reg.REG_CODE]))) ∧
    (s.served 0x0200 = true → s.farPlan = false → s.inStep = false → completes (.thaltClear v) s (fun t =>
      (v.getLsbD 29 = true → t.flag Reg.THALT = false) ∧ t.get Reg.TEN = v.toNat / 2 ^ 31
      ∧ t.pins.tierRdy = (t.flag Reg.TEN && decide (4 ≤ s.get Reg.BSTAGE)) ∧ s.regsKept t [Reg.TEN, Reg.THALT])) ∧
    (s.served 0x0200 = true → s.inStep = true → completes (.thaltClear v) s (fun t => t.get Reg.THALT = s.get Reg.THALT % 2)) ∧
    (s.served 0x481C = true → v.getLsbD 30 = true → s.step.goHeld = false → completes (.brkHitClear v) s (fun t =>
      t.flag Reg.BRK_HIT = false ∧ s.onlyRegs t [Reg.BRK_EN, Reg.BRK_HIT])) ∧
    (s.served 0x5004 = true → s.pins.fFail = 0 → s.exch.held = [] → completes (.portFailClear v) s (fun t =>
      (∀ n < 8, t.bit Reg.PORT_FAIL n = (s.bit Reg.PORT_FAIL n && !v.getLsbD n)) ∧ s.onlyRegs t [Reg.PORT_FAIL]))

/-! ### Loads, faults, tests and transfers -/

/-- Loading and swapping a plan (R167, R168, R178, R182, R183, R370, R396, R397). A LOAD in stage 4, or a SWAP under a plan, of an image
that stage 1 passes asks the root of trust with the items of R370. Once its mark is accepted the stages decide: a first load makes the
plan the loaded one and bring-up goes on, after Yarrow where that has work; a stage that fails, or an image that cannot be read, returns
the block to stage 4 with its code; a swap becomes pending, takes effect at SWAP_STEP unless a line to be locked cannot be read,
and is dropped past it. SWAP is refused with 0x10 and 0x11. Rests on the model's choices in log entries 25, 68, 74, 75, 77. -/
def Obligations.PlanLoading : Prop :=
  ∀ (s : State) (v : Word),
    let reg := v.toNat % 64
    let img := (s.imageBytes reg).1
    let at_ := s.get64 Reg.SWAP_STEP_LO Reg.SWAP_STEP_HI
    let passes := s.stagingOk reg = true ∧ (s.imageBytes reg).2 = [] ∧ 0x80 ≤ img.length
      ∧ stage1 img (s.regionWords reg).size = none ∧ s.req.rot = none
    let asked (t : State) (swap : Bool) : Prop := t.plan = ⟨s.plan.plan, none, some ⟨reg, swap, none⟩⟩ ∧ t.get Reg.LSTATE = 1
      ∧ t.mem = s.mem ∧ t.out = s.out ++ [.rot 1 s.req.rotTag [s.fuses.lcs, s.fuses.uid.toNat, (parseHeader img).planId,
          (parseHeader img).cfg, (parseHeader img).topo] (markBytes img)]
    let codes := regFields 0x0400 ++ [Reg.LOAD_CODE, Reg.LOAD_SECT, Reg.LOAD_DETAIL]
    (s.served 0x0400 = true → s.spent = false → v.getLsbD 31 = true →
      (v.getLsbD 30 = false → s.get Reg.BSTAGE = 4 → s.flag Reg.BFAIL = false → s.plan = ⟨none, none, none⟩ → s.trapped = false →
        passes →
        completes (.load v) s (fun t => asked t false ∧ t.get Reg.BSTAGE = 5)) ∧
      (v.getLsbD 30 = true → s.planLoaded = true → s.trapped = false → s.stepS < at_ ∨ (s.stepS = at_ ∧ s.inStep = false) → passes →
        completes (.swap v) s (fun t => asked t true ∧ t.get64 Reg.PEND_ID_LO Reg.PEND_ID_HI = 0)) ∧
      (v.getLsbD 30 = true → s.planLoaded = false ∨ s.trapped = true → completes (.swap v) s (fun t =>
        t.get Reg.LOAD_CODE = 0x10 ∧ s.onlyRegs t codes)) ∧
      (v.getLsbD 30 = true → s.planLoaded = true → s.trapped = false → at_ < s.stepS ∨ (s.stepS = at_ ∧ s.inStep = true) →
        completes (.swap v) s (fun t => t.get Reg.LOAD_CODE = 0x11 ∧ s.onlyRegs t codes))) ∧
    (∀ l, s.plan.load = some l → l.answer = some true → s.req.st = none →
      let p := parsePlan l.region (s.imageBytes l.region).1
      let first := l.swap = false ∧ s.get Reg.BSTAGE = 5 ∧ s.plan.plan = none
      ((s.imageBytes l.region).2 = [] →
        (s.verify p = none → first → completes .loadVerifyDone s (fun t =>
          t.plan.plan.map (·.hdr) = some p.hdr ∧ t.plan.pend = none ∧ t.plan.load = none ∧ t.get Reg.LSTATE = 2
          ∧ t.get Reg.BSTAGE = (if t.get Reg.YSTATE = 1 then 5 else 6) ∧ t.get Reg.LOAD_CODE = 0
          ∧ t.get64 Reg.PLAN_ID_LO Reg.PLAN_ID_HI = p.hdr.planId % 2 ^ 64)) ∧
        (s.verify p = none → l.swap = true → s.trapped = false → completes .loadVerifyDone s (fun t =>
          t.plan = ⟨s.plan.plan, some p, none⟩ ∧ t.get Reg.LSTATE = 3 ∧ t.get Reg.LOAD_CODE = 0
          ∧ t.get64 Reg.PEND_ID_LO Reg.PEND_ID_HI = p.hdr.planId % 2 ^ 64 ∧ t.mem = s.mem)) ∧
        (∀ x, s.verify p = some x → first → completes .loadVerifyDone s (fun t =>
          t.get Reg.LOAD_CODE = x.1 % 256 ∧ t.get Reg.LOAD_SECT = x.2.1 % 256 ∧ t.get Reg.LOAD_DETAIL = x.2.2 % 2 ^ 32
          ∧ t.get Reg.BSTAGE = 4 ∧ t.bit Reg.IRQ_STAT 0 = true ∧ t.plan = ⟨none, s.plan.pend, none⟩ ∧ t.mem = s.mem))) ∧
      ((s.imageBytes l.region).2 ≠ [] → first → completes .loadVerifyDone s (fun t =>
        t.get Reg.LOAD_CODE = (if (s.hotBad p).isSome then 0x06 else 0x01) ∧ t.get Reg.BSTAGE = 4 ∧ t.bit Reg.IRQ_STAT 0 = true
        ∧ t.plan = ⟨none, s.plan.pend, none⟩ ∧ t.mem = s.mem))) ∧
    (∀ p q, s.plan.pend = some p → s.plan.plan = some q → s.atBoundary = true → s.trapped = false → s.plan.load = none →
      s.step.goHeld = false → s.req.st = none →
      (∀ n, s.stepS = at_ → s.hotBad p = some n → completes .swapTakeEffect s (fun t => t.plan = ⟨some q, none, none⟩
        ∧ t.get Reg.LOAD_CODE = 0x06 ∧ t.get Reg.LOAD_DETAIL = n % 2 ^ 32 ∧ t.get Reg.LSTATE = 2 ∧ t.mem = s.mem)) ∧
      (s.stepS = at_ → s.hotBad p = none → completes .swapTakeEffect s (fun t =>
        t.plan.plan.map (·.hdr) = some p.hdr ∧ t.plan.pend = none ∧ t.get Reg.LSTATE = 2
        ∧ t.get64 Reg.PLAN_ID_LO Reg.PLAN_ID_HI = p.hdr.planId % 2 ^ 64 ∧ t.get64 Reg.PEND_ID_LO Reg.PEND_ID_HI = 0)) ∧
      (at_ < s.stepS → completes .swapTakeEffect s (fun t => t.plan = ⟨some q, none, none⟩ ∧ t.get Reg.LOAD_CODE = 0x11
        ∧ t.get Reg.LSTATE = 2 ∧ t.get64 Reg.PEND_ID_LO Reg.PEND_ID_HI = 0 ∧ t.mem = s.mem)) ∧
      (s.stepS < at_ → exec .swapTakeEffect s = .next s))

/-- Repairs, the hold and Clover mode (R45, R139, R326, R331, R336 to R340, R342): HOLD_CLR ends a hold that may end; CLOVER_GO unloads
the plan and turns the layer engine off;
a map-out is queued in Run and at its boundary takes the channel out, holding where it loses a region and disabling the others;
a table reload gives a BSU group the seed table and the banks' entries, its results reading as zeros; the mirror replaces a bank's entries before any region is
enabled; a lasting line is remapped into the lowest free slot, with its contents as corrected.
Rests on the model's choices in log entries 80, 81, 82, 84. -/
def Obligations.FaultControls : Prop :=
  ∀ (s : State) (v : Word), s.step.goHeld = false →
    (s.served 0x2000 = true → v.getLsbD 31 = true → v.getLsbD 30 = false → s.flag Reg.HELD = true →
      (s.holdMayEnd = true → completes (.holdClr v) s (fun t => t.flag Reg.HELD = false ∧ t.get Reg.HOLD_CAUSE = 0
        ∧ (s.get Reg.PHASE = 7 → t.get Reg.PHASE = 0) ∧ s.onlyRegs t (regFields 0x2000 ++ [Reg.HELD, Reg.HOLD_CAUSE, Reg.PHASE]))) ∧
      (s.holdMayEnd = false → completes (.holdClr v) s (fun t => t.flag Reg.REP_REFUSED = true
        ∧ s.onlyRegs t (regFields 0x2000 ++ [Reg.REP_REFUSED])))) ∧
    (s.served 0x2000 = true → v.getLsbD 31 = false → v.getLsbD 30 = true → s.cloverTaken = true → s.req.st = none →
      completes (.cloverGo v) s (fun t => t.flag Reg.CLOVER = true ∧ t.flag Reg.LE_ON = false ∧ t.get Reg.BSTAGE = 8 ∧ t.plan = ⟨none, none, none⟩ ∧ t.get Reg.LSTATE = 0
      ∧ t.get64 Reg.PLAN_ID_LO Reg.PLAN_ID_HI = 0 ∧ t.seq.running = false ∧ t.mem = s.mem ∧ t.fault = s.fault ∧ t.log = s.log)) ∧
    (s.served 0x2034 = true → s.inRun = true → v.getLsbD 31 = true → v.getLsbD 30 = false → completes (.mapoutGo v) s (fun t =>
      t.req = { s.req with repairs := s.req.repairs ++ [.mapout (v.toNat / 2 ^ 8 % 32) (v.toNat % 4)] }
      ∧ s.regsKept t (regFields 0x2034) ∧ Same [.req] s t)) ∧
    (s.served 0x2034 = true → v.getLsbD 31 = false → v.getLsbD 30 = true → completes (.tabldGo v) s (fun t =>
      t.req = { s.req with repairs := s.req.repairs ++ [.tables (v.toNat / 2 ^ 8 % 32)] }
      ∧ s.regsKept t (regFields 0x2034) ∧ Same [.req] s t)) ∧
    (∀ (d c : Nat) (rest : List Repair), s.req.repairs = .mapout d c :: rest → d < 24 → c < 4 → s.atBoundary = true →
      rest.head? ≠ some .service →
      completes .channelMapout s (fun t => t.mappedOut d c = true ∧ t.req.repairs = rest ∧ t.mem = s.mem
        ∧ ((s.entriesOn d c).any s.losesOnMapout = true → t.flag Reg.HELD = true)
        ∧ ((s.entriesOn d c).all s.disablesOnMapout = true → (s.entriesOn d c).any s.losesOnMapout = false →
            ∀ n ∈ s.entriesOn d c, t.enabled n = false))) ∧
    (∀ (d : Nat) (rest : List Repair) (p : Plan), s.req.repairs = .tables d :: rest → s.atBoundary = true → s.plan.plan = some p →
      rest.head? ≠ some .service →
      (s.inService d = true → completes .tableReload s (fun t => t.req.repairs = rest ∧ t.mem = s.mem ∧ s.countsOnly t
        ∧ ∀ c < 4, ∀ k < 8, (t.bsu d c k).seed = p.seedTable ∧ (t.bsu d c k).result = some RowResult.zero
          ∧ (t.bsu d c k).remap = (s.recordWords d (16 * c + 2 * k)).map (BitVec.ofNat 32)
          ∧ (t.bsu d c k).remapHi = (s.recordWords d (16 * c + 2 * k + 1)).map (BitVec.ofNat 32))) ∧
      (s.inService d = false → completes .tableReload s (fun t => t.req.repairs = rest ∧ t.flag Reg.REP_REFUSED = true
        ∧ t.dev = s.dev ∧ t.mem = s.mem))) ∧
    (let (d, bank) := (s.get Reg.RM_DEV, s.get Reg.RM_BANK)
     s.served 0x3004 = true → v.getLsbD 31 = true → s.req.repairs.any Repair.isRemap = false →
      (d < 24 → (∀ n < 64, s.enabled n = false) → completes (.rmWrite v) s (fun t =>
        t.fault.remap = s.fault.remap.filter (fun e => !(e.dev == d && e.bank == bank))
          ++ s.mirrorEntries.map (fun e => ⟨d, bank, e.1, e.2.1, e.2.2⟩) ∧ t.req = s.req ∧ t.plan = s.plan)) ∧
      (24 ≤ d → completes (.rmWrite v) s (fun t => t.flag Reg.RM_REFUSED = true ∧ s.onlyRegs t (regFields 0x3004 ++ [Reg.RM_REFUSED])))) ∧
    (∀ (x : LineLoc) (rest : List LineLoc) (n : Nat), s.atBoundary = true → s.req.repairs = [] → s.fault.lasting = x :: rest →
      x.line < 30 → x.loc.bank < 16 → x.loc.row ≠ s.spareRow x.loc.dev → (∀ e ∈ s.fault.remap, e.row ≠ s.spareRow e.dev) →
      (List.range 4).find? (fun n => !(s.slotsUsed x.loc.dev x.loc.bankIx).contains n) = some n →
      completes .remapApply s (fun t =>
        t.fault.remap = s.fault.remap ++ [⟨x.loc.dev, x.loc.bankIx, n, x.loc.row, x.line⟩] ∧ t.fault.lasting = rest
        ∧ ∀ b, s.lineVal x = .good b ∨ (∃ sy, s.lineVal x = .fixed b sy) → t.lineVal x = .good b))

/-- Self-test (R373 to R377, R406): ST_GO is refused with 0x04 while another request is there, waits for the boundary during a step,
ends at once with the code of the first condition that fails, and else the test runs; its end compares the signatures of the
instances, as reported or of their response words, with the expected one and reports the first that differs; a BSU group that passes
class 6 sets its BSUPASS bit, and its test waits while a sequence may not start. Rests on the model's choices in log entries 100, 101,
124. -/
def Obligations.SelfTestResults : Prop :=
  ∀ (s : State) (v : Word) (r : StReq) (sigs : List Word), s.step.goHeld = false → s.step.cntHeld = false →
    let u := s.writeFields 0x4000 v.toNat
    let q : StReq := ⟨u.get Reg.ST_CLASS, u.get Reg.ST_DEV, u.get Reg.ST_ROW, false⟩
    let ended (t : State) (code : Nat) : Prop := t.get Reg.ST_CODE = code ∧ t.flag Reg.ST_DONE = true
      ∧ t.bit Reg.IRQ_STAT 7 = true ∧ t.req.st = none
    (s.served 0x4000 = true → v.getLsbD 31 = true →
      (s.req.st ≠ none → completes (.stGo v) s (fun t => t.get Reg.ST_CODE = 0x04 ∧ s.onlyRegs t (regFields 0x4000 ++ [Reg.ST_CODE]))) ∧
      (s.req.st = none → s.inRun = true → s.inStep = true → completes (.stGo v) s (fun t => t.req.st = some q
        ∧ s.regsKept t (regFields 0x4000) ∧ Same [.req] s t)) ∧
      (s.req.st = none → s.inRun = false ∨ s.inStep = false →
        (∀ c, u.testRefusal q = some c → completes (.stGo v) s (fun t => ended t c ∧ t.mem = s.mem)) ∧
        (u.testRefusal q = none → completes (.stGo v) s (fun t => t.req.st = some { q with running := true } ∧ t.mem = s.mem)))) ∧
    (s.req.st = some r → r.running = false → s.inRun = false ∨ s.inStep = false →
      (∀ c, s.testRefusal r = some c → completes .selfTestStart s (fun t => ended t c ∧ t.mem = s.mem)) ∧
      (s.testRefusal r = none → completes .selfTestStart s (fun t => t.req.st = some { r with running := true } ∧ t.mem = s.mem))) ∧
    (s.req.st = some r → r.running = true →
      let sig := testSignature sigs r.cls
      (s.testWaits r = true → exec (.selfTestDone sigs) s = .next s) ∧
      (s.testWaits r = false → (∀ i < testInstances r.cls, sig i = testExpected r.cls) → completes (.selfTestDone sigs) s (fun t =>
        ended t 0x00 ∧ t.get Reg.ST_RUNS = min (s.get Reg.ST_RUNS + 1) 0xFFFFFFFF ∧ (r.cls = 6 → r.dev < 24 → t.bit Reg.BSUPASS r.dev = true))) ∧
      (∀ i < testInstances r.cls, s.testWaits r = false → sig i ≠ testExpected r.cls → (∀ j < i, sig j = testExpected r.cls) →
        completes (.selfTestDone sigs) s (fun t => ended t 0x01 ∧ t.get Reg.ST_INST = i ∧ t.get Reg.ST_SIG = (sig i).toNat
          ∧ t.get Reg.ST_EXP = (testExpected r.cls).toNat ∧ t.get Reg.ST_RUNS = min (s.get Reg.ST_RUNS + 1) 0xFFFFFFFF)))

/-- Export, import and replay (R309 to R314, R317, R318, R337): a request is taken with its settings, and ignored while one is
pending; a refused one ends with its code; an export of near rows whose units and lines can be read ends with XCODE 0, the record
written, its digest last, and its length and digest shown, and with XCODE 3 where a line of a row or of the target fails; an import of a
near record that is not refused writes its rows and its units and takes the shard off the shard-loss list; a replay works through its
records in order, up to the first that cannot be read, and ends with RCODE 0 or 3 and its counts.
Rests on the model's choices in log entries 95, 96, 97, 98, 99. -/
def Obligations.TransferResults : Prop :=
  ∀ (s : State) (v : Word), s.step.goHeld = false →
    let u := s.writeFields 0x0300 v.toNat
    let overX (t : State) (code : Nat) : Prop := t.get Reg.XCODE = code % 256 ∧ t.flag Reg.XDONE = true
      ∧ t.bit Reg.IRQ_STAT 7 = true ∧ t.req.x = none
    (s.served 0x0300 = true →
      (v.getLsbD 31 = true → v.getLsbD 30 = false → s.req.x = none → completes (.xgo v) s (fun t =>
        t.req = { s.req with x := some (u.exportSettings false) } ∧ s.regsKept t (regFields 0x0300) ∧ Same [.req] s t)) ∧
      (v.getLsbD 31 = false → v.getLsbD 30 = true → s.req.x = none → completes (.ximp v) s (fun t =>
        t.req = { s.req with x := some (u.exportSettings true) } ∧ s.regsKept t (regFields 0x0300) ∧ Same [.req] s t)) ∧
      (s.req.x ≠ none → completes (.xgo v) s (fun t => s.onlyRegs t (regFields 0x0300))
        ∧ completes (.ximp v) s (fun t => s.onlyRegs t (regFields 0x0300)))) ∧
    (∀ x, s.req.x = some x → s.mayTransfer = true → x.phase = 0 →
      (∀ c, x.imp = false → s.exportRefusal x = some c → completes .exportRun s (fun t => overX t c ∧ t.mem = s.mem)) ∧
      (∀ (p : Plan) (h : ShardCfg) (us : List (Nat × UnitRec)), x.imp = false → s.exportRefusal x = none → s.plan.plan = some p →
        p.shardCfg? x.shard = some h → p.farHome x.shard = none → x.far = false →
        let z := (s.unitRecs p (p.shardUnits x.shard)).2
        let rows := (List.range h.nrows).foldl (fun (a : XAcc) r =>
          a.near h.elems r (10 * (x.cont + 1)) (p.shardRow x.shard r)) ⟨[], true, z⟩
        let body := rows.bytes ++ unitTrailer us
        let blank := recordHeader h x.shard x.cont rows.s.stepG us 0 ++ body
        let dig := recordDigest blank
        let sent := rows.s.sendRecord x blank dig
        (s.unitRecs p (p.shardUnits x.shard)).1 = some us →
        (rows.ok = true → sent.1 = true → completes .exportRun s (fun t =>
          overX t 0x00 ∧ t.get Reg.XLEN = (64 + body.length) % 2 ^ 32 ∧ t.get64 Reg.XDIG_LO Reg.XDIG_HI = dig.toNat
          ∧ t.mem = sent.2.mem)) ∧
        (rows.ok = false ∨ sent.1 = false → completes .exportRun s (fun t => overX t 0x03))) ∧
      (∀ p, x.imp = true → s.plan.plan = some p → s.otherEnd x 64 = false → completes .importRun s (fun t =>
        overX t 0x02 ∧ t.mem = s.mem)) ∧
      (∀ (p : Plan) (hd b : List Byte), x.imp = true → s.plan.plan = some p → s.otherEnd x 64 = true → x.far = false →
        s.holds x.reg x.off 64 hd → badMagic hd = false → s.otherEnd x (importLen hd) = true → s.holds x.reg x.off (importLen hd) b →
        p.importRefusal b = none → p.farHome (leAt b 4 2) = none → s.get Reg.SHL_N ≤ 16 → ∀ h, p.shardCfg? (leAt b 4 2) = some h →
        completes .importRun s (fun t =>
          let cont := wordFld b 4 23 20
          let rows := (List.range h.nrows).foldl (fun (u : State) r => u.importNear (p.shardRow (leAt b 4 2) r) (importLines b cont r)) s
          t.mem = ((importUnits b (rowBytesOf h cont)).foldl (fun u y => u.importUnit p cont y) rows).mem
          ∧ overX t 0x00 ∧ leAt b 4 2 ∉ t.lostShards ∧ t.out = s.out ∧ t.plan = s.plan))) ∧
    (s.served 0x0320 = true → v.getLsbD 31 = true → s.req.r = none → completes (.rgo v) s (fun t =>
      t.req = { s.req with r := some (s.writeFields 0x0320 v.toNat).replaySettings } ∧ s.regsKept t (regFields 0x0320)
      ∧ Same [.req] s t)) ∧
    (∀ x, s.req.r = some x → s.mayTransfer = true →
      let ended (t : State) : Prop := t.flag Reg.RDONE = true ∧ t.bit Reg.IRQ_STAT 7 = true ∧ t.req.r = none
      (∀ c, s.replayRefusal x = some c → completes .replayRun s (fun t => ended t ∧ t.get Reg.RCODE = c ∧ t.mem = s.mem)) ∧
      (∀ p, s.replayRefusal x = none → s.plan.plan = some p →
        (x.bsu = true → s.mustWait x.loc 4 = true → exec .replayRun s = .next s) ∧
        (x.bsu = false ∨ s.mustWait x.loc 4 = false → completes .replayRun s (fun t =>
          let run := (List.range x.count).foldl (fun (a : Bool × State) i => if a.1 then a.2.replayOne p x (x.first + i) else a)
            (true, ((s.set Reg.RMISS 0).set Reg.RSKIP 0).set Reg.RFMISS 0)
          ended t ∧ t.get Reg.RCODE = (if run.1 then 0 else 3) ∧ t.mem = run.2.mem
          ∧ (∀ f ∈ [Reg.RMISS, Reg.RSKIP, Reg.RFMISS], t.get f = run.2.get f)
          ∧ t.get Reg.RSKIP ≤ x.count ∧ t.get Reg.RMISS ≤ 2 * x.count))))

/-! ### Keeper, power and bring-up -/

/-- Zeroization, lifecycle, debug requests and the root of trust's answers (R354 to R357, R360, R366 to R370): what each request
becomes, what it is refused with, what a zeroization leaves of its rows, and what each answer does.
Rests on the model's choices in log entries 9, 90, 111, 112, 113. -/
def Obligations.KeeperRequests : Prop :=
  ∀ (s : State) (v : Word), s.harebell = false →
    let reg := v.toNat % 64
    (s.served 0x482C = true → v.getLsbD 31 = true → s.req.z = none →
      (s.inRun = false ∨ s.inStep = false → s.zeroRefusal reg = none → completes (.zgo v) s (fun t =>
        t.req = { s.req with z := some ⟨reg, false⟩ } ∧ t.flag Reg.ZBUSY = true ∧ t.get Reg.ZROWS = 0 ∧ t.get Reg.ZERR = 0
        ∧ t.get Reg.ZSKIP = 0 ∧ Same [.req] s t)) ∧
      (∀ c, s.inRun = false ∨ s.inStep = false → s.zeroRefusal reg = some c → completes (.zgo v) s (fun t =>
        t.flag Reg.ZREFUSED = true ∧ t.get Reg.ZCODE = c ∧ s.onlyRegs t (regFields 0x482C))) ∧
      (s.inRun = true → s.inStep = true → completes (.zgo v) s (fun t =>
        t.req = { s.req with z := some ⟨reg, false⟩ } ∧ t.get Reg.ZBUSY = s.get Reg.ZBUSY))) ∧
    (∀ z, s.req.z = some z →
      (z.ran = false → s.flag Reg.ZBUSY = true → s.inReset = false → (∀ e ∈ s.fault.remap, e.slot < 4) →
        completes (.zeroizeRun 0) s (fun t =>
          (∀ l ∈ s.zeroRows z.region, s.mappedOut l.dev l.ch = false → l.row ≠ s.spareRow l.dev →
            memReads t.mem l.addr 2040 = List.replicate 2040 0 ∧ (t.rowMeta l).any (·.zeroed) = true)
          ∧ t.get Reg.ZROWS = ((s.zeroRows z.region).filter (fun l => !s.mappedOut l.dev l.ch)).length % 2 ^ 32
          ∧ t.get Reg.ZSKIP = min (s.get Reg.ZSKIP + ((s.zeroRows z.region).filter (fun l => s.mappedOut l.dev l.ch)).length) 0xFFFFFFFF
          ∧ t.req.z = some { z with ran := true } ∧ t.out = s.out)) ∧
      (z.ran = true → completes .zeroizeDone s (fun t => t.flag Reg.ZDONE = true ∧ t.flag Reg.ZBUSY = false
        ∧ t.get Reg.ZCODE = s.zeroCode ∧ t.bit Reg.IRQ_STAT 6 = true ∧ t.req.z = none ∧ t.mem = s.mem
        ∧ (z.region ≠ allRegions → t.fuses = s.fuses)
        ∧ (z.region = allRegions → s.get Reg.ZERR = 0 → t.fuses = { s.fuses with lcs := 2 } ∧ t.get Reg.LC_CODE = 0 ∧ t.keeper = none
            ∧ t.get Reg.DBG_LVL = 0 ∧ ∀ f : Field, spentKey f.key = true → t.get f = f.reset)
        ∧ (z.region = allRegions → s.get Reg.ZERR ≠ 0 → t.fuses = s.fuses ∧ t.get Reg.LC_CODE = 0x05)))) ∧
    (s.served 0x480C = true → v.getLsbD 27 = true →
      let tgt := v.toNat / 2 ^ 25 % 4
      (s.advanceRefusal tgt = none → s.req.rot = none → completes (.lcAdv v) s (fun t => t.req.lc = some tgt ∧ t.fuses = s.fuses
        ∧ t.out = s.out ++ [.rot 3 s.req.rotTag [s.fuses.lcs, s.fuses.uid.toNat, tgt] []])) ∧
      (∀ c, s.advanceRefusal tgt = some c → completes (.lcAdv v) s (fun t => t.flag Reg.LC_REFUSED = true ∧ t.get Reg.LC_CODE = c
        ∧ t.req.lc = s.req.lc ∧ t.fuses = s.fuses ∧ t.out = s.out))) ∧
    (s.served 0x4810 = true →
      let l := v.toNat / 2 ^ 28 % 4
      let cur := s.get Reg.DBG_LVL
      (cur < l → l ≤ 2 → s.fuses.lcs = 0 ∨ (s.fuses.lcs = 2 ∧ l = 1) → completes (.dbgReq v) s (fun t =>
        t.get Reg.DBG_LVL = l ∧ s.onlyRegs t (regFields 0x4810))) ∧
      (cur < l → l = 1 → s.fuses.lcs = 1 → s.flag Reg.DBG_PEND = false → s.req.rot = none → completes (.dbgReq v) s (fun t =>
        t.flag Reg.DBG_PEND = true ∧ t.get Reg.DBG_LVL = cur
        ∧ t.out = s.out ++ [.rot 2 s.req.rotTag [s.fuses.lcs, s.fuses.uid.toNat, 1] []])) ∧
      (cur < l → l = 3 ∨ (l = 2 ∧ (s.fuses.lcs = 1 ∨ s.fuses.lcs = 2)) → completes (.dbgReq v) s (fun t =>
        t.flag Reg.DBG_REFUSED = true ∧ t.get Reg.DBG_LVL = cur ∧ s.onlyRegs t (regFields 0x4810))) ∧
      (l ≤ cur → l ≠ 0 → s.flag Reg.DBG_PEND = false → completes (.dbgReq v) s (fun t => t.get Reg.DBG_LVL = l)) ∧
      (cur ≠ 0 → l = 0 → s.flag Reg.DBG_PEND = false → completes (.dbgReq v) s (fun t => t.get Reg.DBG_LVL = 0
        ∧ t.flag Reg.DBG_ENDED = true ∧ t.bit Reg.IRQ_STAT 6 = true))) ∧
    (∀ (r : RotReq) (tag : Byte), s.req.rot = some r →
      (r.tag ≠ tag.toNat → ∀ a, exec (.rotAnswer tag a) s = .next s) ∧
      (r.tag = tag.toNat → r.kind = 3 → r.item = 2 → completes (.rotAnswer tag true) s (fun t =>
        t.fuses = { s.fuses with zpend := true } ∧ t.plan = ⟨none, none, none⟩ ∧ t.inStep = false ∧ (∀ n < 64, t.enabled n = false)
        ∧ t.flag Reg.ZBUSY = true ∧ t.req.z = some ⟨allRegions, false⟩ ∧ t.req.rot = none ∧ t.req.rotQueue = [] ∧ t.mem = s.mem)) ∧
      (r.tag = tag.toNat → s.req.rotQueue = [] →
        (r.kind = 1 → completes (.rotAnswer tag true) s (fun t =>
          t.plan = { s.plan with load := s.plan.load.map (fun l => { l with answer := some true }) } ∧ t.req.rot = none ∧ t.regs = s.regs)) ∧
        (r.kind = 1 → s.plan.load.isSome = true → s.get Reg.BSTAGE = 5 → s.plan.plan = none → completes (.rotAnswer tag false) s (fun t =>
          t.get Reg.LOAD_CODE = 0x02 ∧ t.get Reg.BSTAGE = 4 ∧ t.bit Reg.IRQ_STAT 0 = true ∧ t.plan.load = none)) ∧
        (r.kind = 2 → completes (.rotAnswer tag true) s (fun t => t.get Reg.DBG_LVL = r.item % 4 ∧ t.flag Reg.DBG_PEND = false)
          ∧ completes (.rotAnswer tag false) s (fun t => t.flag Reg.DBG_REFUSED = true ∧ t.flag Reg.DBG_PEND = false
            ∧ t.get Reg.DBG_LVL = s.get Reg.DBG_LVL)) ∧
        (r.kind = 3 → completes (.rotAnswer tag false) s (fun t => t.flag Reg.LC_REFUSED = true ∧ t.get Reg.LC_CODE = 0x03
          ∧ t.bit Reg.IRQ_STAT 6 = true ∧ t.fuses = s.fuses ∧ t.req.lc = none)) ∧
        (r.kind = 3 → r.item = 1 → completes (.rotAnswer tag true) s (fun t => t.fuses = { s.fuses with lcs := 1 }
          ∧ t.get Reg.LC_CODE = 0 ∧ t.bit Reg.IRQ_STAT 6 = true ∧ t.get Reg.DBG_LVL = 0 ∧ t.mem = s.mem))))

/-- Power states (R343 to R353): PWR_REQ asks, or leaves Idle at once; Idle and Harebell are entered at a step boundary, Harebell with
the buffer written through, the ports down, the keeper's summary and the devices in self-refresh, or refused with its code; the
exit brings the core up again with S, G, the summary and the device rows kept, and ends in stage 4, or fails: the block stays in
Harebell, and no exit follows. Rests on the model's choices in log entries 102, 103, 104. -/
def Obligations.PowerTransitions : Prop :=
  ∀ (s : State) (v : Word), s.step.goHeld = false →
    (s.served 0x4820 = true →
      let n := v.toNat / 2 ^ 28 % 4
      let asks (want : Option Nat) := completes (.pwrReq v) s (fun t => t.req = { s.req with power := want }
        ∧ s.regsKept t (regFields 0x4820) ∧ t.get Reg.PSTATE = s.get Reg.PSTATE ∧ Same [.req] s t)
      (n = 1 → s.get Reg.PSTATE = 0 → asks (some 1)) ∧
      (n = 2 → s.get Reg.PSTATE ≠ 2 → asks (some 2)) ∧
      (n < 2 → s.get Reg.PSTATE = 2 → asks (some n)) ∧
      (n = 0 → s.get Reg.PSTATE = 0 → asks none) ∧
      (n = 0 → s.get Reg.PSTATE = 1 → completes (.pwrReq v) s (fun t => t.get Reg.PSTATE = 0 ∧ t.flag Reg.LE_ON = true
        ∧ t.bit Reg.IRQ_STAT 6 = true ∧ t.req.power = none ∧ t.mem = s.mem))) ∧
    (s.atBoundary = true → s.inReset = false → s.harebell = false →
      (s.req.power = some 1 → completes .idleEntry s (fun t => t.get Reg.PSTATE = 1
        ∧ t.flag Reg.LE_ON = s.req.st.any (fun r => r.running && r.cls == 3) ∧ t.bit Reg.IRQ_STAT 6 = true
        ∧ t.req = { s.req with power := none } ∧ s.regsKept t [Reg.PSTATE, Reg.LE_ON, Reg.IRQ_STAT] ∧ Same [.req] s t)) ∧
      (s.req.power = some 2 → s.harebellRefusal = none → completes .harebellEntry s (fun t => t.get Reg.PSTATE = 2
        ∧ t.keeper = some ⟨(s.log.map (·.logState)).getD 0, s.stepS⟩ ∧ t.wcb = [] ∧ t.mem = s.mem ∧ t.pins.selfRef = true
        ∧ t.pins.fRdy = 0 ∧ t.pins.tierRdy = false ∧ t.get Reg.DBG_LVL = 0 ∧ t.req.rot = none ∧ t.req.power = none
        ∧ t.bit Reg.IRQ_STAT 6 = true ∧ t.flag Reg.LE_ON = false)) ∧
      (∀ c, s.req.power = some 2 → s.harebellRefusal = some c → completes .harebellEntry s (fun t =>
        t.flag Reg.PWR_REFUSED = true ∧ t.get Reg.PWR_CODE = c ∧ t.bit Reg.IRQ_STAT 6 = true
        ∧ t.req = { s.req with power := none } ∧ s.regsKept t [Reg.PWR_REFUSED, Reg.PWR_CODE, Reg.IRQ_STAT] ∧ Same [.req] s t))) ∧
    (∀ (want : Nat) (found : List TrainResult), s.req.power = some want → s.harebell = true → s.inReset = false → want ≤ 1 →
      (s.exitFailed = true → ∀ f, exec (.harebellExit f found) s = .next s) ∧
      (s.exitFailed = false → s.fuses.zpend = false → s.wcb = [] → s.step.entries = [] →
        (∀ d < 24, trainCause (found.getD d noDevice) = 0 ∨ trainCause (found.getD d noDevice) = 1) →
        completes (.harebellExit none found) s (fun t => t.get Reg.BSTAGE = 4 ∧ t.get Reg.PSTATE = want ∧ t.mem = s.mem
          ∧ t.get Reg.STEP_LO = s.get Reg.STEP_LO ∧ t.get Reg.STEP_HI = s.get Reg.STEP_HI
          ∧ t.get Reg.GSTEP_LO = s.get Reg.GSTEP_LO ∧ t.get Reg.GSTEP_HI = s.get Reg.GSTEP_HI
          ∧ t.plan = ⟨none, none, none⟩ ∧ t.keeper = s.keeper ∧ t.get Reg.TSTATE = 2 ∧ t.flag Reg.LE_ON = decide (want = 0)
          ∧ t.get Reg.PWR_CODE = (if s.keeper.any (fun k => k.logState != 0) then 0x07 else s.get Reg.PWR_CODE)
          ∧ t.pins.fRdy = 0xFF ∧ t.bit Reg.IRQ_STAT 0 = true ∧ t.bit Reg.IRQ_STAT 6 = true)) ∧
      (s.exitFailed = false → (∃ d < 24, trainCause (found.getD d noDevice) ≠ 0 ∧ trainCause (found.getD d noDevice) ≠ 1) →
        completes (.harebellExit none found) s (fun t => t.get Reg.BSTAGE = 2 ∧ t.get Reg.TSTATE = 3 ∧ t.flag Reg.BFAIL = true
          ∧ t.get Reg.PSTATE = 2 ∧ t.bit Reg.IRQ_STAT 0 = true ∧ t.bit Reg.IRQ_STAT 6 = true)) ∧
      (s.exitFailed = false → ∀ f, completes (.harebellExit (some f) found) s (fun t => t.get Reg.BSTAGE = 1
        ∧ t.flag Reg.CHK_FAIL = true ∧ t.get Reg.PSTATE = 2 ∧ t.flag Reg.BFAIL = true ∧ t.bit Reg.IRQ_STAT 6 = true)))

/-- Resets, rail losses and bring-up (R5, R211, R244, R293, R329, R347, R349, R350, R353, R379, R380, R387, R394 to R397): what a reset
clears and keeps, the way from its release through the checker test, training and device setup to Run, which a failed training stops,
and the measured tick, the topology digest and a port failure.
Rests on the model's choices in log entries 1, 5, 22, 52, 105, 106, 107, 109. -/
def Obligations.BringUpResults : Prop :=
  ∀ (s : State),
    let held (t : State) := t.plan = ⟨none, none, none⟩ ∧ t.step = StepState.empty ∧ t.seq = Seq.idle ∧ t.pins.tierUp = false
      ∧ t.pins.fRdy = 0 ∧ t.pins.tierRdy = false ∧ t.fuses = s.fuses ∧ t.wcb = []
      ∧ t.pins.selfRefAt = if s.pins.selfRef then none else some (t.clock.time + 400)
    let cold (c : Instr) (cause : Nat) := completes c s (fun t => held t ∧ t.keeper = none ∧ t.pins.rstLow = true ∧ t.get Reg.RST_CAUSE = cause
      ∧ ∀ f : Field, f.key ≠ Reg.RST_CAUSE.key → t.get f = f.reset)
    let warm (c : Instr) (cause : Nat) := completes c s (fun t => held t ∧ t.keeper = s.keeper ∧ t.pins.wrstLow = true ∧ t.get Reg.RST_CAUSE = cause
      ∧ (∀ f : Field, f.key ≠ Reg.RST_CAUSE.key → keptKey f.key = false → t.get f = f.reset)
      ∧ ∀ f : Field, f.off ∈ keptOffsets → f.lo < 32 → t.get f = s.get f)
    let live := s.inReset = false ∧ s.harebell = false
    cold .powerOn 0x01 ∧ cold .coldReset 0x02 ∧ cold .vkeepGoodLoss 0x01
    ∧ (s.harebell = false ∨ s.inReset = true → cold .vphyGoodLoss 0x02)
    ∧ (s.harebell = true → s.inReset = false → completes .vphyGoodLoss s (fun t => t.flag Reg.VPHY_OK = false ∧ s.onlyRegs t [Reg.VPHY_OK]))
    ∧ (s.pins.rstLow = false → s.coldOnly = false → warm .warmReset 0x03)
    ∧ (s.pins.rstLow = true ∨ s.coldOnly = true → exec .warmReset s = .next s)
    ∧ (s.inReset = true ∨ (s.harebell = false ∧ s.coldOnly = false) → warm .vcoreGoodLoss 0x04)
    ∧ (s.inReset = false → s.harebell = true ∨ s.coldOnly = true → completes .vcoreGoodLoss s (fun t =>
        t.flag Reg.VCORE_OK = false ∧ s.onlyRegs t [Reg.VCORE_OK]))
    ∧ (∀ x, s.pins.selfRefAt = some x → completes .keeperSelfRefresh s (fun t => t.pins.selfRef = true ∧ t.pins.selfRefAt = none
        ∧ t.clock.time = max s.clock.time x ∧ t.mem = s.mem ∧ s.countsOnly t))
    ∧ (∀ kept, s.inReset = true → completes (.resetRelease kept none) s (fun t => t.get Reg.BSTAGE = 2 ∧ t.get Reg.TSTATE = 1
        ∧ t.flag Reg.CHK_DONE = true ∧ t.flag Reg.MEMKEPT = kept ∧ t.inReset = false ∧ t.pins.selfRef = false
        ∧ t.mem = (if kept then s.mem else [])))
    ∧ (∀ kept f, s.inReset = true → completes (.resetRelease kept (some f)) s (fun t => t.get Reg.BSTAGE = 1
        ∧ t.flag Reg.CHK_FAIL = true ∧ t.get Reg.CHK_PAT = f.pattern.toNat ∧ t.get Reg.CHK_UNIT = f.unit.toNat
        ∧ t.flag Reg.BFAIL = true ∧ t.bit Reg.IRQ_STAT 0 = true ∧ t.mem = s.mem))
    ∧ (∀ v : Word, s.served 0x8000 = true → v.getLsbD 31 = true → 2 ≤ s.get Reg.BSTAGE → s.get Reg.BSTAGE < 7 → s.get Reg.TSTATE ≠ 1 →
        s.coldOnly = false → completes (.train v) s (fun t => t.get Reg.TSTATE = 1 ∧ t.flag Reg.BFAIL = false ∧ t.regul.rate = v.toNat % 4
          ∧ t.mem = if s.flag Reg.MEMKEPT then s.mem else []))
    ∧ (live → ∀ found : List TrainResult, s.get Reg.TSTATE = 1 →
        ((∀ d < 24, trainCause (found.getD d noDevice) = 0 ∨ trainCause (found.getD d noDevice) = 1) →
          completes (.trainingDone found) s (fun t => t.get Reg.TSTATE = 2
            ∧ t.get Reg.BSTAGE = (if s.get Reg.BSTAGE = 2 then 3 else s.get Reg.BSTAGE)
            ∧ ∀ d < 24, t.bit Reg.PRESENT d = (found.getD d noDevice).responds ∧ t.bit Reg.UDEV d = trainIsU (found.getD d noDevice)
              ∧ t.get (Reg.TCAUSE d) = trainCause (found.getD d noDevice))) ∧
        ((∃ d < 24, trainCause (found.getD d noDevice) ≠ 0 ∧ trainCause (found.getD d noDevice) ≠ 1) →
          completes (.trainingDone found) s (fun t => t.get Reg.TSTATE = 3 ∧ t.get Reg.BSTAGE = s.get Reg.BSTAGE
            ∧ t.flag Reg.BFAIL = true ∧ t.bit Reg.IRQ_STAT 0 = true)))
    ∧ (live → s.flag Reg.BFAIL = true → exec .deviceSetup s = .next s ∧ exec .enterRun s = .next s)
    ∧ (live → s.get Reg.BSTAGE = 3 → s.flag Reg.BFAIL = false → s.fuses.zpend = false → completes .deviceSetup s (fun t =>
        t.get Reg.BSTAGE = 4 ∧ t.pins.fRdy = 0xFF ∧ t.pins.tierRdy = s.flag Reg.TEN ∧ t.bit Reg.IRQ_STAT 0 = true ∧ t.mem = s.mem))
    ∧ (live → s.get Reg.BSTAGE = 6 → (s.flag Reg.BFAIL = false → s.bwait = 0 → s.journalOut = true → s.step.goHeld = false → completes .enterRun s (fun t =>
          t.get Reg.BSTAGE = 7 ∧ t.bit Reg.IRQ_STAT 0 = true ∧ t.plan = s.plan)) ∧ (s.bwait ≠ 0 → exec .enterRun s = .next s))
    ∧ (live → ∀ n, completes (.tickCheck n) s (fun t => t.flag Reg.TICK_OK = decide (9900 ≤ n ∧ n ≤ 10100)
        ∧ (s.flag Reg.TICK_OK = true → t.flag Reg.TICK_OK = false → t.bit Reg.IRQ_STAT 0 = true)
        ∧ s.regsKept t [Reg.TICK_OK, Reg.IRQ_STAT]))
    ∧ (live → ∀ (d : DWord) (p : Plan), s.plan.plan = some p → completes (.topoDigest d) s (fun t =>
        t.get64 Reg.TOPO_LO Reg.TOPO_HI = d.toNat ∧ t.exch.topoSeen = true
        ∧ (s.inStep = false → t.flag Reg.BOUND = decide (d.toNat = p.hdr.topo ∨ d.toNat ∈ p.slices)
            ∧ t.flag Reg.SLICE = decide (d.toNat ≠ p.hdr.topo ∧ d.toNat ∈ p.slices))
        ∧ (s.inStep = true → t.get Reg.BOUND = s.get Reg.BOUND ∧ t.exch.topo = some d.toNat)))
    ∧ (live → ∀ n : BitVec 3, completes (.portFailed n) s (fun t => t.bit Reg.PORT_FAIL n.toNat = true
        ∧ (∀ k < 8, k ≠ n.toNat → t.bit Reg.PORT_FAIL k = s.bit Reg.PORT_FAIL k) ∧ s.regsKept t [Reg.PORT_FAIL] ∧ Same [.pins] s t))

/-! ### Tier, timed events, bank-side units, Yarrow -/

/-- Moves (R295, R296, R298 to R303, R305 to R308): a move in opens its journal entry and asks for its far slot; returned data is collected,
or halts the channel; a row moved in stands in its near row as the far image gives it; a due row goes out as a far image that
decodes to its lines, or only has its FAR bit set again; copies move row units; a bad entry is skipped and counted; what would put more than 512 rows in flight waits.
Rests on the model's choices in log entries 93, 94. -/
def Obligations.TierMoves : Prop :=
  ∀ (s : State) (slot : Word) (piece : BitVec 5) (data : Line),
    let n := slot.toNat
    let halted (t : State) (cause slot : Nat) : Prop := t.flag Reg.THALT = true ∧ t.get Reg.THALT_CAUSE = cause % 4
      ∧ t.get Reg.THALT_SLOT = slot % 2 ^ 32 ∧ t.tier.queue = [] ∧ t.bit Reg.IRQ_STAT 4 = true
    let skipped (t : State) (rest : List Move) : Prop := t.tier.queue = rest
      ∧ t.get Reg.TBADENT = min (s.get Reg.TBADENT + 1) 0xFFFFFFFF ∧ t.mem = s.mem ∧ t.out = s.out
    (∀ m rest, s.tier.queue = m :: rest → s.tierOpen = true → m.begun = false → m.op ≠ 2 → m.op ≠ 3 →
      (m.op = 1 → s.inAllowed m = true → s.moverRoom = false → exec .moveInStart s = .next s) ∧
      (m.op = 1 → s.inAllowed m = true → s.moverRoom = true →
        (s.tier.journal.length ≠ 4096 ∨ ∃ j ∈ s.tier.journal, j.opn = false) → completes .moveInStart s (fun t => t.out = s.out ++ (List.range 32).map (fun k => Out.tierRead m.fslot k)
          ∧ t.tier.moved = s.tier.moved ∧ ∃ i, t.tier.queue = { m with begun := true, jix := i } :: rest
            ∧ t.tier.journal[i]? = some ⟨m.loc, m.nrows, m.fslot, true, m.w0, m.w1⟩)) ∧
      (m.op ≠ 1 ∨ s.inAllowed m = false → completes .moveInStart s (fun t => skipped t rest))) ∧
    (s.xAwaits n piece.toNat = false → s.slotAwaited n piece.toNat = true → s.tierOpen = true →
      exec (.tierReadCompletion slot piece data false false) s
        = .next { s with tier := { s.tier with pieces := s.tier.pieces ++ [⟨n, piece.toNat, data, false⟩] } }
      ∧ completes (.tierReadCompletion slot piece data true false) s (fun t => halted t 2 n ∧ t.mem = s.mem)
      ∧ ∀ b, completes (.tierReadCompletion slot piece data b true) s (fun t => halted t 3 n ∧ t.mem = s.mem)) ∧
    (∀ m rest b, s.tier.queue = m :: rest → s.tierOpen = true → m.op = 1 → m.begun = true →
      let far := m.fslot + m.done
      let l := m.loc.at m.loc.bank (m.loc.row + m.done)
      s.slotPieces far 32 = some b →
      (∀ f, farDecode far b = .inl f → completes .moveInRow s (fun t =>
        (∃ r ∈ t.tier.moved, r.loc = l ∧ r.fslot = far ∧ r.jix = m.jix)
        ∧ t.get Reg.TMOVES = min (s.get Reg.TMOVES + 1) 0xFFFFFFFF
        ∧ t.tier.queue = (if m.done + 1 = m.nrows then rest else { m with done := m.done + 1 } :: rest)
        ∧ t.out = s.out ++ (if m.done + 1 = m.nrows then [] else (List.range 32).map (fun k => Out.tierRead (far + 1) k))
        ∧ (s.mappedOut l.dev l.ch = false → s.rowRemapped l = false → f.info.phase ≠ 3 →
            (∀ z ∈ s.epochLines, ∀ k < 30, s.disjoint ⟨l, k⟩ z) →
            t.isFar l = false ∧ ∀ x ∈ f.lines, t.lineVal ⟨l, x.1⟩ = .good x.2))) ∧
      (∀ c, farDecode far b = .inr c → completes .moveInRow s (fun t => halted t c far ∧ t.mem = s.mem))) ∧
    (∀ l rest r, s.tier.dueQ = l :: rest → s.tier.moved.find? (fun r => r.loc == l && r.st == .due) = some r →
      (r.committed = false → completes .moveOut s (fun t => t.tier.dueQ = rest ∧ t.out = s.out
        ∧ (∃ x ∈ t.tier.moved, x.loc = l ∧ x.st = .out) ∧ (s.tier.journal[r.jix]? = none → s.isStateRow l = true → s.mappedOut l.dev l.ch = false →
            t.isFar l = true))) ∧
      (r.committed = true → s.flag Reg.THALT = false → s.outRoom = false → exec .moveOut s = .next s) ∧
      (∀ m, r.committed = true → s.flag Reg.THALT = false → s.outRoom = true → s.rowMeta l = some m → s.pairHeld l.dev l.ch l.pair = false →
        (∀ k ∈ onBits 30 m.valid, s.clean ⟨l, k⟩) → completes .moveOut s (fun t => t.tier.dueQ = rest ∧ t.mem = s.mem
          ∧ (∃ x ∈ t.tier.moved, x.loc = l ∧ x.st = .writing ∧ x.left = 32)
          ∧ ∃ b f, t.out = s.out ++ (List.range 32).map (fun k => Out.tierWrite r.fslot k (lineOfBytes ((b.drop (64 * k)).take 64)))
            ∧ farDecode r.fslot b = .inl f ∧ f.lines = (onBits 30 m.valid).map (fun k => (k, s.lineBytes ⟨l, k⟩))
            ∧ f.info.epoch = m.epoch ∧ f.fixed = 0))) ∧
    (∀ r, s.tier.moved.find? (fun r => r.fslot == n && r.st == .writing && r.left != 0) = some r →
      exec (.tierWriteCompletion slot false) s = .next { s with tier := { s.tier with
        moved := s.tier.moved.map (fun x => if x.loc = r.loc then { x with left := x.left - 1 } else x) } }
      ∧ completes (.tierWriteCompletion slot true) s (fun t => t.flag Reg.THALT = true ∧ t.get Reg.THALT_CAUSE = 3
          ∧ ∃ x ∈ t.tier.moved, x.loc = r.loc ∧ x.st = .failed)) ∧
    (∀ r, s.tier.moved.find? (fun r => r.st == .writing && r.left == 0) = some r → completes .moveOutDone s (fun t =>
      t.get Reg.TOUTS = min (s.get Reg.TOUTS + 1) 0xFFFFFFFF ∧ (∃ x ∈ t.tier.moved, x.loc = r.loc ∧ x.st = .out) ∧ t.out = s.out
      ∧ (s.tier.journal[r.jix]? = none → s.isStateRow r.loc = true → s.mappedOut r.loc.dev r.loc.ch = false →
          t.isFar r.loc = true))) ∧
    (∀ m rest, s.tier.queue = m :: rest → s.tierOpen = true →
      let far := m.fslot + m.done
      let e := s.regionWords m.region
      let off := 1920 * (m.funit + m.done)
      let next := if m.done + 1 = m.nrows then rest else { m with done := m.done + 1, begun := false, left := 0 } :: rest
      (m.begun = false → m.op = 2 ∨ m.op = 3 → m.done = 0 → s.copyAllowed m = false → completes .copyMove s (fun t => skipped t rest)) ∧
      (m.begun = false → m.op = 2 → m.done ≠ 0 ∨ s.copyAllowed m = true → s.moverRoom = true → completes .copyMove s (fun t =>
        t.out = s.out ++ (List.range 30).map (fun k => Out.tierRead far k) ∧ t.tier.queue = { m with begun := true } :: rest)) ∧
      (∀ b, m.begun = true → m.op = 2 → s.slotPieces far 30 = some b → (∀ w ∈ lineWrites e off b, s.plain w.1) →
        completes .copyMove s (fun t => t.mem = s.linesAfter (lineWrites e off b) ∧ t.tier.queue = next ∧ t.out = s.out)) ∧
      (∀ b, m.begun = false → m.op = 3 → m.done ≠ 0 ∨ s.copyAllowed m = true → s.moverRoom = true → s.holds m.region off 1920 b →
        completes .copyMove s (fun t => t.tier.queue = { m with begun := true, left := 32 } :: rest ∧ t.mem = s.mem
          ∧ t.out = s.out ++ (List.range 32).map (fun k =>
            Out.tierWrite far k (lineOfBytes (((takePad 2048 b).drop (64 * k)).take 64))))) ∧
      (m.begun = true → m.op = 3 → m.left = 0 → completes .copyMove s (fun t => t.tier.queue = next ∧ t.mem = s.mem ∧ t.out = s.out)))

/-- What happens at its time (R76, R253, R281, R286, R287, R293, R322, R351, R410, R412): a window of the regulators ends, a
temperature is read, a refresh waits behind a sequence, a row is scrubbed with its corrected lines written back, a watched wait
passes its limit. Retraining and an undelayed refresh change only timing.
Rests on the model's choices in log entries 3, 89, 107, 110. -/
def Obligations.TimedEvents : Prop :=
  ∀ (s : State) (d : BitVec 5) (c : BitVec 2) (b : BitVec 4) (cel : Byte) (w : Watch),
    let n := d.toNat
    let temp := signedByte cel
    (s.inReset = false → s.harebell = false → completes .regulatorWindow s (fun t =>
      (∀ k < 8, t.get (Reg.LASTUSE k) = min (s.regul.charge.getD k 0) 0xFFFFF) ∧ t.regul.start = s.regul.start + 1000
      ∧ t.regul.charge = List.replicate 8 0 ∧ t.regul.caps = (List.range 8).map (fun k => s.get (Reg.CAP k))
      ∧ t.regul.budget = s.budget ∧ t.clock.time = max s.clock.time (s.regul.start + 1000) ∧ t.mem = s.mem ∧ t.out = s.out)) ∧
    (s.present n = true → n < 24 → s.pins.selfRef = false → s.inReset = false → completes (.tempReading d cel) s (fun t =>
      let steps (f : Field) (on off : Int) : Prop := (on ≤ temp → t.bit f n = true) ∧ (temp ≤ off → t.bit f n = false)
        ∧ (off < temp → temp < on → t.bit f n = s.bit f n) ∧ ∀ k < 24, k ≠ n → t.bit f k = s.bit f k
      t.get (Reg.TEMP n) = cel.toNat ∧ steps Reg.HOT85 86 83 ∧ steps Reg.HOT95 96 93 ∧ steps Reg.HOT105 105 103
      ∧ s.onlyRegs t [Reg.TEMP n, Reg.HOT85, Reg.HOT95, Reg.HOT105])) ∧
    (s.channelLive n c.toNat = true → (n, c.toNat, b.toNat) ∉ s.dev.refresh →
      (s.retire.pairHeld n c.toNat (b.toNat / 2) = true → completes (.refreshDue d c b) s (fun t =>
        (n, c.toNat, b.toNat) ∈ t.dev.refresh ∧ t.get Reg.REFPOST = min (s.get Reg.REFPOST + 1) 0xFFFFFFFF
        ∧ s.regsKept t [Reg.REFPOST] ∧ Same [.dev] s t)) ∧
      (s.retire.pairHeld n c.toNat (b.toNat / 2) = false → exec (.refreshDue d c b) s = .next s)) ∧
    exec (.channelRetrain d c) s = .next s ∧
    (∀ l m, s.scrubs = true → s.present n = true → s.pins.selfRef = false → n ∉ s.fault.lapDone → s.scrubNext n (s.scrubAt n) = some l →
      s.retire.dev.seqs.any (fun q => q.dev == n && q.ch == l.ch) = false → l.row ≠ s.spareRow l.dev → s.rowMeta l = some m →
      m.far = false → completes (.scrubRow d) s (fun t =>
        (∀ k ∈ onBits 30 m.valid, ∀ x sy, s.lineVal ⟨l, k⟩ = .fixed x sy → s.lineRemapped ⟨l, k⟩ = false → t.lineVal ⟨l, k⟩ = .good x)
        ∧ t.get Reg.SPOS_DEV = n ∧ t.get Reg.SPOS_ROW = (l.bankIx * 32768 + l.row + 1) % 32768
        ∧ ((∀ k ∈ onBits 30 m.valid, s.clean ⟨l, k⟩) → t.mem = s.mem ∧ t.get Reg.SCRUB_FIX = s.get Reg.SCRUB_FIX))) ∧
    (∀ x, s.waits.find? (fun y => y.watch == w && !y.marked) = some x → completes (.stallLimitPassed w) s (fun t =>
      t.flag Reg.STALLED = true ∧ t.bit Reg.IRQ_STAT 1 = true ∧ (∀ y ∈ t.waits, y.watch = w → y.key = x.key → y.marked = true)
      ∧ t.clock.time = max s.clock.time (x.since + s.get Reg.STALL_LIMIT * 1024) ∧ t.seq = s.seq ∧ t.step = s.step)) ∧
    (s.harebell = true → s.inReset = false →
      (signedByte (BitVec.ofNat 8 (s.get Reg.HB_TLIMIT)) < temp → completes (.hbTempSample cel) s (fun t =>
        t.flag Reg.HB_THERM = true ∧ t.bit Reg.IRQ_STAT 6 = true ∧ s.onlyRegs t [Reg.HB_THERM, Reg.IRQ_STAT])) ∧
      (temp ≤ signedByte (BitVec.ofNat 8 (s.get Reg.HB_TLIMIT)) → exec (.hbTempSample cel) s = .next s))

/-- The extended commands at a device (R12, R267 to R271, R273 to R278, R292, R376): ACTP starts a sequence on a free pair, its command
does its work in it, as the unit finds the lines, and a refused one sets XREF and changes no byte, nor does one of which a burst fails
four times; the status, the result and the signature of a bank-side unit are read; a group out of service gets but status
reads, tests and table loads; a device number beyond d23 faults. Rests on the model's choices in log entries 32, 101, 118, 119. -/
def Obligations.BsuCommands : Prop :=
  ∀ (s : State) (d : BitVec 5) (c : BitVec 2) (w : BitVec 48) (bs : List Byte) (consts row : Line) (dw : DWord) (sig : Word),
    let n := d.toNat
    let k := xk w
    let all : List Instr := [.actp d c w, .accw d c w ⟨bs, 0⟩ 0, .cmtr d c w consts row 0, .scnr d c w consts row 0,
      .atad d c w ⟨dw, 0⟩, .tbld d c w ⟨bs, 0⟩, .bist d c w sig, .strd d c w]
    let ran (t : State) : Prop := (t.seqOn n c.toNat k).map (·.ran) = some true
    (24 ≤ n → ∀ i ∈ all, exec i s = .fault (.noSuchDevice n)) ∧
    (n < 24 → s.bit Reg.OOS n = true → outOfServiceOk w = false → ∀ i ∈ all, exec i s = .next s) ∧
    (n < 24 → s.extendedOk n = true → s.mappedOut n c.toNat = false → s.bit Reg.OOS n = false ∨ outOfServiceOk w = true →
      (∀ x, xop w = 1 → xfld w 9 8 ≠ 3 → s.retire.pairStarts n c.toNat k = true → s.retire.startTime n (actpWeight w) = some x →
        completes (.actp d c w) s (fun t => actpSeq n c.toNat w t.clock.time ∈ t.dev.seqs ∧ (t.bsu n c.toNat k).result = none
          ∧ (∀ y ∈ t.wcb, bankOfAddr y.addr / 2 ≠ (n * 4 + c.toNat) * 8 + k) ∧ t.mem = s.mem ∧ s.countsOnly t)) ∧
      (∀ q, s.seqOn n c.toNat k = some q → q.ran = false → q.sb < 2 →
        let g16w := xfld w 36 36 == 1
        let xs := sectorLocs q.partnerRow g16w (xfld w 39 37)
        let r := PassRow.ofLine row
        let pass := (s.seenByBsu q.stateRow).runPass (s.bsu n c.toNat k).seed q.stateRow q.prow (PassConst.ofLine consts) r false
        let passed (t : State) : Prop := ran t ∧ t.mem = pass.2.mem ∧ t.out = s.out
          ∧ (pass.1.clean = true → ((t.bsu n c.toNat k).result).map (fun y => (y.amax, y.satn)) = some (pass.1.amax, pass.1.satn))
        let refused (t : State) : Prop := (t.bsu n c.toNat k).xref = true ∧ t.mem = s.mem ∧ t.out = s.out
        (∀ f x, 3 < f → ∀ i, (x = (2, 2) ∧ i = .accw d c w ⟨bs, f⟩ 0) ∨ (x = (3, 0) ∧ i = .cmtr d c w consts row f)
            ∨ (x = (4, 0) ∧ i = .scnr d c w consts row f) ∨ (x = (5, 1) ∧ i = .atad d c w ⟨dw, f⟩) ∨ (x = (6, 1) ∧ i = .tbld d c w ⟨bs, f⟩) →
          xop w = x.1 → q.opn = x.2 → completes i s (fun t => ran t ∧ t.mem = s.mem ∧ t.out = s.out
            ∧ t.bsu n c.toNat k = s.bsu n c.toNat k ∧ t.get Reg.LINKERR = min (s.get Reg.LINKERR + 1) 0xFFFFFFFF)) ∧
        (xop w = 2 → q.opn = 2 →
          (badSect g16w (xfld w 39 37) = false → completes (.accw d c w ⟨bs, 0⟩ 0) s (fun t => ran t
            ∧ (t.bsu n c.toNat k).accw = true
            ∧ t.mem = (State.addLines .bsu .through g16w (xfld w 34 34 == 1) false xs (accwValues g16w bs)
                ⟨true, Flags.clear, s.seenByBsu q.partnerRow⟩).s.mem
            ∧ t.out = s.out ++ (if xfld w 35 35 = 1 then
                [Out.device n c.toNat (xs.flatMap (t.seenByBsu q.partnerRow).lineBytes)] else []))) ∧
          (badSect g16w (xfld w 39 37) = true → completes (.accw d c w ⟨bs, 0⟩ 0) s refused)) ∧
        (xop w = 3 → q.opn = 0 → (badOperand false r = true → completes (.cmtr d c w consts row 0) s refused)
          ∧ (badOperand false r = false → r.rule ≠ 15 → completes (.cmtr d c w consts row 0) s passed)
          ∧ (badOperand false r = false → r.rule = 15 → completes (.cmtr d c w consts row 0) s (fun t => ran t
              ∧ t.mem = (((s.seenByBsu q.stateRow).zeroRow q.stateRow).zeroRow (q.stateRow.at (partnerBank q.stateRow.bank) q.prow)).mem))) ∧
        (xop w = 4 → q.opn = 0 → (badOperand true r = true → completes (.scnr d c w consts row 0) s refused)
          ∧ (badOperand true r = false → completes (.scnr d c w consts row 0) s passed)) ∧
        (∀ size b, xop w = 5 → q.opn = 1 → atomicSize (xfld w 39 38) = some size → xfld w 36 32 < 30 → 4 * xfld w 31 28 % size = 0 →
          let x : LineLoc := ⟨q.stateRow, xfld w 36 32⟩
          let at_ := 4 * xfld w 31 28
          let old := leAt b at_ size
          ((s.seenByBsu q.stateRow).lineVal x).bytes? = some b → completes (.atad d c w ⟨dw, 0⟩) s (fun t => ran t
            ∧ t.mem = (s.seenByBsu q.stateRow).memAfter x (spliceBytes b at_ (leBytes size (atomicSum (xfld w 39 38) old (dw.toNat % 2 ^ (8 * size)))))
            ∧ t.out = s.out ++ (if xfld w 37 37 = 1 then [Out.device n c.toNat (leBytes 8 old)] else []))) ∧
        (xop w = 5 → q.opn = 1 → atomicSize (xfld w 39 38) = none → completes (.atad d c w ⟨dw, 0⟩) s refused) ∧
        (xop w = 6 → q.opn = 1 →
          (xfld w 39 38 = 0 → completes (.tbld d c w ⟨bs, 0⟩) s (fun t => ran t ∧ (t.bsu n c.toNat k).seed = takePad 512 bs
            ∧ t.mem = s.mem ∧ s.countsOnly t)) ∧
          (xfld w 39 38 = 1 → completes (.tbld d c w ⟨bs, 0⟩) s (fun t => ran t ∧ t.mem = s.mem ∧ s.countsOnly t
            ∧ (if xsb w = 0 then (t.bsu n c.toNat k).remap else (t.bsu n c.toNat k).remapHi)
                = (List.range 4).map (fun i => BitVec.ofNat 32 (leAt bs (4 * i) 4)))) ∧
          (2 ≤ xfld w 39 38 → completes (.tbld d c w ⟨bs, 0⟩) s refused)) ∧
        (xop w = 7 → xfld w 35 35 = 0 → q.opn = 0 →
          (xfld w 39 36 < 3 → completes (.bist d c w sig) s (fun t => ran t ∧ (t.bsu n c.toNat k).bistDone = true
            ∧ (t.bsu n c.toNat k).bistPass = (sig == bsuSignature) ∧ (t.bsu n c.toNat k).sig = sig
            ∧ (xfld w 39 36 = 1 → (t.bsu n c.toNat k).seed = [] ∧ (t.bsu n c.toNat k).remap = []))) ∧
          (3 ≤ xfld w 39 36 → completes (.bist d c w sig) s refused))) ∧
      (xop w = 7 → xfld w 35 35 = 1 → completes (.bist d c w sig) s (fun t => t.mem = s.mem ∧ t.dev = s.dev
        ∧ t.out = s.out ++ [.device n c.toNat (leBytes 4 (s.bsu n c.toNat k).sig.toNat)])) ∧
      (xop w = 8 →
        let sent (t : State) (b : List Byte) : Prop := t.out = s.out ++ [.device n c.toNat b] ∧ t.mem = s.mem
          ∧ s.countsOnly t ∧ t.bsu n c.toNat k = if xfld w 37 37 = 1 then (s.bsu n c.toNat k).clearSticky else s.bsu n c.toNat k
        (xfld w 39 38 = 0 → completes (.strd d c w) s (fun t => sent t (leBytes 8 (s.retire.bsuStatus n c.toNat k (xsb w))))) ∧
        (∀ r, xfld w 39 38 = 1 → (s.bsu n c.toNat k).result = some r → completes (.strd d c w) s (fun t => sent t
          (resultBytes r (s.retire.pairHeld n c.toNat k)))) ∧
        (xfld w 39 38 = 1 → (s.bsu n c.toNat k).result = none → completes (.strd d c w) s (fun t => ∃ b : List Byte,
          sent t b ∧ b.length = 28 ∧ (leAt b 0x18 4).testBit 31 = s.retire.pairHeld n c.toNat k)) ∧
        (xfld w 39 38 = 2 → completes (.strd d c w) s (fun t => ∃ x < 256,
          sent t (leBytes 4 (0x5842 * 2 ^ 16 + x * 2 ^ 8 + s.get (Reg.PXB_REV n))))) ∧
        (xfld w 39 38 = 3 → completes (.strd d c w) s (fun t => (t.bsu n c.toNat k).xref = true ∧ t.mem = s.mem ∧ t.out = s.out))))

/-- Yarrow (R332 to R335): YGO acts on YVERD while YSTATE is 2; the resolution of a commit ends in the boundary of the step, or with
its code where the log cannot be read; the emission of the resolved step is sent again and ends.
Rests on the model's choices in log entries 30, 92. -/
def Obligations.YarrowResults : Prop :=
  ∀ (s : State) (v : Word) (p : Plan) (g : StepLog), s.plan.plan = some p → s.log = some g →
    let verd := v.toNat / 2 ^ 16 % 4
    let closed (t : State) (outcome : Nat) : Prop := t.get Reg.OUTCOME = outcome ∧ t.log.map (·.logState) = some 0
    let stepped (t : State) (lo hi : Field) : Prop := t.get64 lo hi = (s.get64 lo hi + 1) % 2 ^ 64
    (s.served 0x2048 = true → v.getLsbD 31 = true → s.get Reg.YSTATE = 2 →
      (verd = 1 → completes (.ygo v) s (fun t => t.get Reg.YSTATE = 1 ∧ t.log = some { g with logState := 3, normsq := s.ynsq }
        ∧ s.onlyLines t s.headerLines)) ∧
      (verd = 2 → completes (.ygo v) s (fun t => closed t 2 ∧ t.get Reg.YSTATE = 3 ∧ t.get Reg.YCODE = 0
        ∧ stepped t Reg.STEP_LO Reg.STEP_HI)) ∧
      (verd = 3 → completes (.ygo v) s (fun t => closed t 3 ∧ t.get Reg.YSTATE = 3 ∧ t.get Reg.YCODE = 0
        ∧ t.get64 Reg.STEP_LO Reg.STEP_HI = s.get64 Reg.STEP_LO Reg.STEP_HI)) ∧
      (verd = 0 → completes (.ygo v) s (fun t => t.get Reg.YSTATE = 4 ∧ t.get Reg.YCODE = 0x06 ∧ t.log = s.log ∧ t.mem = s.mem))) ∧
    (s.served 0x2048 = true → s.get Reg.YSTATE ≠ 2 → completes (.ygo v) s (fun t => s.onlyRegs t (regFields 0x2048))) ∧
    (s.get Reg.YSTATE = 1 →
      (s.areasLost g = true → completes .yarrowResolveCommit s (fun t => t.get Reg.YSTATE = 4 ∧ t.get Reg.YCODE = 0x04
        ∧ (s.get Reg.BSTAGE = 5 → t.get Reg.BSTAGE = 6) ∧ t.mem = s.mem)) ∧
      (s.areasLost g = false → s.yarrow.verdict ≠ none → s.tier.queue = [] → completes .yarrowResolveCommit s (fun t =>
        closed t 1 ∧ stepped t Reg.STEP_LO Reg.STEP_HI ∧ stepped t Reg.GSTEP_LO Reg.GSTEP_HI
        ∧ t.yarrow.verdict = none ∧ t.get Reg.YCODE ∈ [0, 3, 5] ∧ t.get Reg.YSTATE = (if t.get Reg.YCODE = 0 then 3 else 4)
        ∧ (s.get Reg.BSTAGE = 5 → t.get Reg.BSTAGE = 6)))) ∧
    (∀ r, s.yarrow.reemit = some r → s.inRun = true → s.inStep = false →
      (s.step.chunks = [] → s.step.insts = [] → (s.startReemit p g r).step.insts.all (·.ended) = false →
        completes .yarrowReemit s (fun t => t.yarrow.reemit = some r ∧ t.seq.openV = 1 ∧ t.seq.sealV = (if r.commit then 1 else 2)
          ∧ t.step.hdr = ⟨g.v, g.lse, g.seed, s.stepS - 1, if r.commit then s.stepG - 1 else s.stepG⟩ ∧ t.mem = s.mem)) ∧
      (s.step.chunks ≠ [] ∨ s.step.insts ≠ [] → s.settleInsts.step.insts.all (·.ended) = true → s.step.goHeld = false →
        completes .yarrowReemit s (fun t => t.yarrow.reemit = none ∧ t.step.insts = [] ∧ t.exch.givenUp = [] ∧ t.mem = s.mem)))

/-! ### The block as a whole -/

/-- A step runs the command at the front of the queue, with the queue's rest in the state; on an empty queue a nanosecond passes (log
entry 3). -/
def Obligations.StepRunsFront : Prop :=
  (∀ (c : Instr) (s : State) (rest : List Instr), step { s with pending := c :: rest } = exec c { s with pending := rest })
    ∧ ∀ s : State, s.pending = [] → step s = .next (s.pass 1)

/-- Every command keeps what no command changes: the queue's rest, the fused identity, a burnt ZPEND, what has been sent, the course
of the clock, the canonical forms, and every part of the state that it does not name. -/
def Obligations.CommandFrames : Prop :=
  ∀ (c : Instr) (s t : State), exec c s = .next t → Kept (touches c) s t

/-- The invariant of the block holds after every step from every state that meets it: registers and device bytes in canonical form,
and p0 reading 1 (R184). -/
def Obligations.InvKept : Prop := ∀ (s t : State), s.Inv → step s = .next t → t.Inv

/-- The invariant holds at reset. -/
def Obligations.InvAtReset : Prop := State.reset.Inv

/-- The block after power-on (R354, R394, R396, R400, R408): every register field at its reset value, no plan, no step, nothing sent;
PX_RST_N is low and the ports are down. Rests on the model's choices in log entries 4, 5, 121. -/
def Obligations.ResetState : Prop :=
  (∀ f : Field, State.reset.get f = f.reset) ∧ State.reset.get Reg.BSTAGE = 0 ∧ State.reset.get Reg.RST_CAUSE = 0x01
    ∧ State.reset.get Reg.PHASE = 0 ∧ State.reset.plan = ⟨none, none, none⟩ ∧ State.reset.seq = Seq.idle
    ∧ State.reset.seq.running = false ∧ State.reset.step = StepState.empty ∧ State.reset.out = [] ∧ State.reset.pending = []
    ∧ State.reset.inReset = true ∧ State.reset.pins.fRdy = 0 ∧ State.reset.pins.tierRdy = false ∧ State.reset.log = none

/-- Decoding an encoded well-formed Sarenina instruction gives it back (R186, R196 to R209), with every operand at every value that
the encoding admits; and the words of the worked example of 07_sarenina_reference.md, with the bytes in which index 5 is stored. -/
def Obligations.SareninaRoundTrip : Prop :=
  (∀ (i : Instr) (w : DWord), i.wf = true → sarEncode i = some w → sarDecode w = some i) ∧
  sarEncode (.sect ⟨false, 0⟩ 1 0x000D) = some 0x3B0100000000000D ∧ sarEncode (.cset ⟨false, 0⟩ 1 3) = some 0x5200002000000003
    ∧ sarEncode (.openStep ⟨false, 0⟩) = some 0x5000000000000000 ∧ sarEncode (.rdk ⟨false, 0⟩ 1 5) = some 0x3001000000000005
    ∧ sarEncode (.cmpeqi ⟨false, 0⟩ 1 1 1) = some 0x2601100000000001 ∧ sarEncode (.br ⟨true, 1⟩ 17) = some 0x0190000000000011
    ∧ sarEncode (.addai ⟨false, 0⟩ 2 1 0x40) = some 0x3902002000000040 ∧ sarEncode (.coll ⟨false, 0⟩ 3 2) = some 0x5300006000000002
    ∧ sarEncode (.sealStep ⟨false, 0⟩) = some 0x5100000000000000 ∧ sarEncode (.commit ⟨false, 2⟩) = some 0x6020000000000000
    ∧ sarEncode (.cdone ⟨false, 2⟩) = some 0x6120000000000000 ∧ sarEncode (.stepend ⟨false, 0⟩) = some 0x0600000000000000
    ∧ leBytes 8 0x0190000000000011 = [0x11, 0, 0, 0, 0, 0, 0x90, 0x01]

/-- The metadata code (R17): data bits [55:0], the check bits over the positions p(i), and MPAR; a stored word decodes to itself; one
flipped bit of bits [62:0] is corrected; two are reported uncorrectable; a row whose word is uncorrectable reads uncorrectable in
every line, and no line of it is written. -/
def Obligations.MetadataCode : Prop :=
  (∀ (s : State) (a : ErrSrc) (m : WriteMode) (x : LineLoc) (data : List Byte) (mask : Nat),
    metaDecode (BitVec.ofNat 64 (leNat (memReads s.mem (x.loc.addr + 0x7F8) 8))) = none →
      (∃ c sy, s.lineVal x = .bad c sy) ∧ (s.writeLine a m x data mask).1 = false
      ∧ (s.writeLine a m x data mask).2.mem = s.mem ∧ (s.writeLine a m x data mask).2.wcb = s.wcb) ∧
  ∀ (w : DWord),
    let c := metaEncode w
    let parity (l : List Bool) : Bool := l.foldl xor false
    let p : List Nat := (List.range 63).filter (fun n => 3 ≤ n ∧ ∀ k < 6, n ≠ 2 ^ k)
    p.length = 56 ∧ c &&& 0x00FFFFFFFFFFFFFF = w &&& 0x00FFFFFFFFFFFFFF ∧
    (∀ j < 6, c.getLsbD (56 + j) = parity ((List.range 56).map (fun i => c.getLsbD i && (p.getD i 0).testBit j))) ∧
    c.getLsbD 62 = parity ((List.range 62).map c.getLsbD) ∧
    metaDecode c = some (c, false) ∧
    (∀ i < 63, metaDecode (c ^^^ BitVec.ofNat 64 (2 ^ i)) = some (c, true)) ∧
    ∀ i < 63, ∀ j < i, metaDecode (c ^^^ BitVec.ofNat 64 (2 ^ i) ^^^ BitVec.ofNat 64 (2 ^ j)) = none

/-- Writing a line (R15, R18 to R24, R45, R46): it reads back as written, or merged under the byte mask, from wherever it is held; the
row's other lines read as before; no byte but the line's, its check word's and the row's metadata word's changes.
Rests on the model's choice in log entry 91. -/
def Obligations.LineWritesReadBack : Prop :=
  ∀ (s : State) (a : ErrSrc) (x : LineLoc) (data old : List Byte) (mask : Nat) (m : Meta),
    let home := s.lineHome x
    let r := s.writeLine a .buffered x data mask
    s.rowMeta x.loc = some m → m.far = false → s.mappedOut x.loc.dev x.loc.ch = false → data.length = 64 → x.line < 30 →
    home.2 < 30 → (home.1 = x.loc ∨ x.loc.row ≠ s.spareRow x.loc.dev) → (mask = fullMask ∨ (s.lineVal x).bytes? = some old) →
      r.1 = true ∧ r.2.lineVal x = .good (mergeBytes old data mask)
      ∧ (∀ y : LineLoc, y.loc = x.loc → y.line < 30 → y.line ≠ x.line → (s.lineHome y).1 = home.1 → (s.lineHome y).2 < 30 →
          (s.lineHome y).2 ≠ home.2 → r.2.lineVal y = s.lineVal y)
      ∧ ∀ b, (b < home.1.addr + 64 * home.2 ∨ home.1.addr + 64 * home.2 + 64 ≤ b) →
          (b < home.1.addr + 0x780 + 4 * home.2 ∨ home.1.addr + 0x784 + 4 * home.2 ≤ b) →
          (b < x.loc.addr + 0x7F8 ∨ x.loc.addr + 0x800 ≤ b) → memRead r.2.mem b = memRead s.mem b
end

