-- ==== Sys2Proof/Laws/Code.lean ====
section
/-! SUPPORT. What the line codes do with the checker's patterns: a decoder that works as R18 to R21 say gives each of the 64 patterns of
R379 its expected outcome, so that `checkerFinding` is what the operand reports. -/

namespace Sys2Proof.Machine

theorem patternOk_low : (List.range 32).all patternOk = true := by decide +kernel

theorem patternOk_high : (List.range' 32 32).all patternOk = true := by decide +kernel

theorem patternOk_all : (List.range 64).all patternOk = true := by
  have h : List.range 64 = List.range 32 ++ List.range' 32 32 := by decide
  rw [h, List.all_append, patternOk_low, patternOk_high]
  rfl

/-- Every checker pattern has the outcome of R379. -/
theorem firstBadPattern_none : firstBadPattern = none := by
  unfold firstBadPattern
  rw [List.find?_eq_none]
  intro i hi
  have h := List.all_eq_true.mp patternOk_all i hi
  simp [h]

/-- What the checker test finds is what the decoders report (R379, R380). -/
@[simp] theorem checkerFinding_eq (c : Option CheckFail) : checkerFinding c = c := by
  cases c <;> simp [checkerFinding, firstBadPattern_none]

end Sys2Proof.Machine
end

