-- ==== Sys2Proof/Laws/Ops.lean ====
section
/-! SUPPORT. The laws of sparse maps, registers and device bytes: a read after a write, and the canonical forms. -/

namespace Sys2Proof.Machine

theorem sparseFind_insert_self {α : Type} (l : List (Nat × α)) (k : Nat) (v : α) :
    sparseFind (sparseInsert (l.filter (fun c => c.1 != k)) k v) k = some v := by
  have : ∀ m : List (Nat × α), (∀ c ∈ m, c.1 ≠ k) → sparseFind (sparseInsert m k v) k = some v := by
    intro m
    induction m with
    | nil => intro _; simp [sparseInsert, sparseFind]
    | cons c t ih =>
      intro h
      have hc : c.1 ≠ k := h c (by simp)
      have ht := ih (fun x hx => h x (by simp [hx]))
      unfold sparseInsert
      split
      · simp only [sparseFind] at ht ⊢
        rw [List.find?_cons_of_neg (by simpa using hc)]
        exact ht
      · simp [sparseFind]
  exact this _ (by intro c hc; simpa using (List.mem_filter.mp hc).2)

theorem sparseFind_insert_ne {α : Type} (l : List (Nat × α)) (k j : Nat) (v : α) (h : j ≠ k) :
    sparseFind (sparseInsert l k v) j = sparseFind l j := by
  induction l with
  | nil => simp [sparseInsert, sparseFind, h.symm]
  | cons c t ih =>
    unfold sparseInsert
    split
    · by_cases hc : c.1 = j
      · simp [sparseFind, List.find?_cons, hc]
      · simp only [sparseFind, List.find?_cons] at ih ⊢
        have : (c.1 == j) = false := by simpa using hc
        simp only [this]; exact ih
    · simp [sparseFind, List.find?_cons, h.symm]

theorem sparseFind_filter_self {α : Type} (l : List (Nat × α)) (k : Nat) :
    sparseFind (l.filter (fun c => c.1 != k)) k = none := by
  simp [sparseFind]

theorem sparseFind_filter_ne {α : Type} (l : List (Nat × α)) (k j : Nat) (h : j ≠ k) :
    sparseFind (l.filter (fun c => c.1 != k)) j = sparseFind l j := by
  induction l with
  | nil => rfl
  | cons c t ih =>
    by_cases hk : c.1 = k
    · have h1 : (c.1 != k) = false := by simp [hk]
      have h2 : (c.1 == j) = false := by simpa [hk] using fun e => h e.symm
      simp only [sparseFind, List.find?_cons, h2] at ih ⊢
      rw [List.filter_cons_of_neg (by simp [hk])]; exact ih
    · rw [List.filter_cons_of_pos (by simpa using hk)]
      simp only [sparseFind, List.find?_cons] at ih ⊢
      cases (c.1 == j) with
      | true => rfl
      | false => exact ih

/-- A read of the key just put. -/
theorem sparsePut_self {α : Type} [DecidableEq α] (d : α) (l : List (Nat × α)) (k : Nat) (v : α) :
    (sparseFind (sparsePut d l k v) k).getD d = v := by
  unfold sparsePut
  split
  · next h => rw [sparseFind_filter_self]; simp [h]
  · rw [sparseFind_insert_self]; rfl

/-- A read of another key. -/
theorem sparsePut_ne {α : Type} [DecidableEq α] (d : α) (l : List (Nat × α)) (k j : Nat) (v : α) (h : j ≠ k) :
    sparseFind (sparsePut d l k v) j = sparseFind l j := by
  unfold sparsePut
  split
  · exact sparseFind_filter_ne l k j h
  · rw [sparseFind_insert_ne _ _ _ _ h, sparseFind_filter_ne l k j h]

/-- Inserting a key that a sorted map lacks keeps it sorted; nothing below `b` comes in but the key. -/
theorem sparseInsert_sorted {α : Type} (l : List (Nat × α)) (k : Nat) (v : α) (hk : ∀ c ∈ l, c.1 ≠ k)
    (h : (l.map (·.1)).Pairwise (· < ·)) : ((sparseInsert l k v).map (·.1)).Pairwise (· < ·) := by
  induction l with
  | nil => simp [sparseInsert]
  | cons c t ih =>
    have hc : c.1 ≠ k := hk c (by simp)
    have ht := ih (fun x hx => hk x (by simp [hx])) (by simpa using (List.pairwise_cons.mp h).2)
    unfold sparseInsert
    split
    · next hlt =>
      rw [List.map_cons, List.pairwise_cons]
      refine ⟨?_, ht⟩
      intro a ha
      have hm : ∀ (m : List (Nat × α)) x, x ∈ sparseInsert m k v → x = (k, v) ∨ x ∈ m := by
        intro m
        induction m with
        | nil => intro x hx; simpa [sparseInsert] using hx
        | cons y m ihm =>
          intro x hx
          unfold sparseInsert at hx
          split at hx
          · rcases List.mem_cons.mp hx with rfl | hx
            · simp
            · rcases ihm x hx with rfl | hx
              · simp
              · simp [hx]
          · simpa using hx
      obtain ⟨x, hx, rfl⟩ := List.mem_map.mp ha
      rcases hm t x hx with rfl | hx
      · exact hlt
      · exact (List.pairwise_cons.mp h).1 _ (List.mem_map.mpr ⟨x, hx, rfl⟩)
    · next hge =>
      rw [List.map_cons, List.pairwise_cons]
      refine ⟨?_, h⟩
      intro a ha
      have hkc : k < c.1 := by omega
      rcases List.mem_cons.mp (by simpa using ha : a ∈ c.1 :: t.map (·.1)) with rfl | ha
      · exact hkc
      · exact Nat.lt_trans hkc ((List.pairwise_cons.mp h).1 _ ha)

/-- A put keeps the keys strictly rising. -/
theorem sparsePut_sorted {α : Type} [DecidableEq α] (d : α) (l : List (Nat × α)) (k : Nat) (v : α)
    (h : (l.map (·.1)).Pairwise (· < ·)) : ((sparsePut d l k v).map (·.1)).Pairwise (· < ·) := by
  have hf : ((l.filter (fun c => c.1 != k)).map (·.1)).Pairwise (· < ·) :=
    List.Pairwise.sublist (List.Sublist.map _ List.filter_sublist) h
  unfold sparsePut
  split
  · exact hf
  · exact sparseInsert_sorted _ _ _ (by intro c hc; simpa using (List.mem_filter.mp hc).2) hf

theorem sparseInsert_all {α : Type} (p : Nat × α → Bool) (l : List (Nat × α)) (k : Nat) (v : α) (hp : p (k, v) = true)
    (h : l.all p = true) : (sparseInsert l k v).all p = true := by
  induction l with
  | nil => simpa [sparseInsert] using hp
  | cons c t ih =>
    simp only [List.all_cons, Bool.and_eq_true] at h
    unfold sparseInsert
    split
    · simp [h.1, ih h.2]
    · simp [hp, h.1, h.2]

/-! ### Registers -/

/-- A field reads what was set, cut to its width. -/
@[simp] theorem State.get_set_self (s : State) (f : Field) (v : Nat) : (s.set f v).get f = v % 2 ^ f.width := by
  simp [State.get, State.set, sparsePut_self]

/-- Every other field reads as before. -/
theorem State.get_set_ne (s : State) (f g : Field) (v : Nat) (h : g.key ≠ f.key) : (s.set f v).get g = s.get g := by
  simp [State.get, State.set, sparsePut_ne _ _ _ _ _ h]

/-- A field of the same key and reset value reads what was set. -/
theorem State.get_set_key (s : State) (f g : Field) (v : Nat) (h : g.key = f.key) (hr : g.reset = f.reset) :
    (s.set f v).get g = v % 2 ^ f.width := by
  simp [State.get, State.set, h, hr, sparsePut_self]

/-! ### Device bytes -/

/-- A byte reads what was written. -/
@[simp] theorem memRead_memWrite_self (m : List Host.Cell) (a : Nat) (b : Byte) : memRead (memWrite m a b) a = b := by
  simp [memRead, memWrite, sparsePut_self]

/-- Every other byte reads as before. -/
theorem memRead_memWrite_ne (m : List Host.Cell) (a x : Nat) (b : Byte) (h : x ≠ a) :
    memRead (memWrite m a b) x = memRead m x := by
  simp [memRead, memWrite, sparsePut_ne _ _ _ _ _ h]

/-- A write of bytes leaves every byte outside them. -/
theorem memRead_memWrites_out (m : List Host.Cell) (a x : Nat) (bs : List Byte) (h : x < a ∨ a + bs.length ≤ x) :
    memRead (memWrites m a bs) x = memRead m x := by
  induction bs generalizing m a with
  | nil => rfl
  | cons b t ih =>
    simp only [List.length_cons] at h
    rw [memWrites, ih _ _ (by omega), memRead_memWrite_ne _ _ _ _ (by omega)]

/-- A byte of a write of bytes reads what was written there. -/
theorem memRead_memWrites_in (m : List Host.Cell) (a i : Nat) (bs : List Byte) (h : i < bs.length) :
    memRead (memWrites m a bs) (a + i) = bs[i] := by
  induction bs generalizing m a i with
  | nil => simp at h
  | cons b t ih =>
    rw [memWrites]
    cases i with
    | zero => rw [Nat.add_zero, memRead_memWrites_out _ _ _ _ (by omega)]; simp
    | succ i =>
      have := ih (memWrite m a b) (a + 1) i (by simpa using h)
      rw [show a + (i + 1) = a + 1 + i by omega, this]; simp

/-- A write keeps the canonical form. -/
theorem memWrite_wf (m : List Host.Cell) (a : Nat) (b : Byte) (h : memWf m = true) : memWf (memWrite m a b) = true := by
  simp only [memWf, Bool.and_eq_true, decide_eq_true_eq] at h ⊢
  refine ⟨sparsePut_sorted _ _ _ _ h.1, ?_⟩
  have hf : (m.filter (fun c => c.1 != a)).all (fun c => c.2 != memDefault) = true := by
    simp only [List.all_eq_true] at h ⊢
    intro x hx; exact h.2 x (List.mem_filter.mp hx).1
  unfold memWrite sparsePut
  split
  · exact hf
  · next hb => exact sparseInsert_all _ _ _ _ (by simpa using hb) hf

/-- So does a write of bytes. -/
theorem memWrites_wf (m : List Host.Cell) (a : Nat) (bs : List Byte) (h : memWf m = true) :
    memWf (memWrites m a bs) = true := by
  induction bs generalizing m a with
  | nil => exact h
  | cons b t ih => exact ih _ _ (memWrite_wf m a b h)

end Sys2Proof.Machine
end

