-- ==== Sys2Proof/Laws/Kept.lean ====
section
/-! SUPPORT. What every command keeps: the relation `Kept` from state to state, and its laws for the basic updates. -/

namespace Sys2Proof.Machine

theorem Same.refl (m : List Part) (s : State) : Same m s s := by
  constructor <;> right <;> first | rfl | exact ⟨rfl, rfl⟩ | exact ⟨rfl, rfl, rfl⟩

@[refl] theorem Kept.refl (m : List Part) (s : State) : Kept m s s :=
  ⟨rfl, rfl, id, Nat.le_refl _, List.prefix_rfl, id, id, id, Same.refl m s⟩

/-- One part of `Same` along two changes. -/
theorem same_or {P A B : Prop} (h : P ∨ A) (k : P ∨ B) {C : Prop} (f : A → B → C) : P ∨ C := by
  rcases h with h | h
  · exact .inl h
  · rcases k with k | k
    · exact .inl k
    · exact .inr (f h k)

theorem Same.trans {m : List Part} {r s t : State} (h : Same m r s) (k : Same m s t) : Same m r t where
  seqRegs := same_or h.seqRegs k.seqRegs (fun a b => ⟨b.1.trans a.1, b.2.1.trans a.2.1, b.2.2.trans a.2.2⟩)
  seq := same_or h.seq k.seq (fun a b => b.trans a)
  mem := same_or h.mem k.mem (fun a b => b.trans a)
  wcb := same_or h.wcb k.wcb (fun a b => b.trans a)
  fault := same_or h.fault k.fault (fun a b => b.trans a)
  plan := same_or h.plan k.plan (fun a b => b.trans a)
  icache := same_or h.icache k.icache (fun a b => b.trans a)
  step := same_or h.step k.step (fun a b => b.trans a)
  exch := same_or h.exch k.exch (fun a b => b.trans a)
  dev := same_or h.dev k.dev (fun a b => b.trans a)
  regul := same_or h.regul k.regul (fun a b => b.trans a)
  tier := same_or h.tier k.tier (fun a b => b.trans a)
  log := same_or h.log k.log (fun a b => b.trans a)
  yarrow := same_or h.yarrow k.yarrow (fun a b => b.trans a)
  req := same_or h.req k.req (fun a b => b.trans a)
  waits := same_or h.waits k.waits (fun a b => b.trans a)
  pins := same_or h.pins k.pins (fun a b => b.trans a)
  fuses := same_or h.fuses k.fuses (fun a b => b.trans a)
  keeper := same_or h.keeper k.keeper (fun a b => b.trans a)
  clock := same_or h.clock k.clock (fun a b => b.trans a)
  latch := same_or h.latch k.latch (fun a b => ⟨b.1.trans a.1, b.2.trans a.2⟩)
  drawn := same_or h.drawn k.drawn (fun a b => b.trans a)
  out := same_or h.out k.out (fun a b => b.trans a)

theorem Kept.trans {m : List Part} {r s t : State} (h : Kept m r s) (k : Kept m s t) : Kept m r t :=
  ⟨k.queue.trans h.queue, k.uid.trans h.uid, k.zpend ∘ h.zpend, h.time.trans k.time, h.sent.trans k.sent,
    k.regs ∘ h.regs, k.bytes ∘ h.bytes, k.shape ∘ h.shape, h.same.trans k.same⟩

/-- An update that leaves the queue, the registers, the clock, the fuses, the device bytes and the outputs; the other fields
that it changes are in `m`. -/
theorem Kept.upd {m : List Part} {r t : State} (h : Kept m r t) {q : Seq} {cp db pins keeper wcb fault plan ic st ex dev regul
      tier log y req w fc}
    (hq : t.seq.ok → q.ok) (h0 : .seqRegs ∈ m ∨ (q.s = t.seq.s ∧ q.a = t.seq.a ∧ q.p = t.seq.p))
    (h1 : .seq ∈ m ∨ q = t.seq) (h2 : .wcb ∈ m ∨ wcb = t.wcb) (h3 : .fault ∈ m ∨ fault = t.fault)
    (h4 : .plan ∈ m ∨ plan = t.plan) (h5 : .icache ∈ m ∨ ic = t.icache) (h6 : .step ∈ m ∨ st = t.step)
    (h7 : .exch ∈ m ∨ ex = t.exch) (h8 : .dev ∈ m ∨ dev = t.dev) (h9 : .regul ∈ m ∨ regul = t.regul)
    (h10 : .tier ∈ m ∨ tier = t.tier) (h11 : .log ∈ m ∨ log = t.log) (h12 : .yarrow ∈ m ∨ y = t.yarrow)
    (h13 : .req ∈ m ∨ req = t.req) (h14 : .waits ∈ m ∨ w = t.waits) (h15 : .pins ∈ m ∨ pins = t.pins)
    (h16 : .keeper ∈ m ∨ keeper = t.keeper) (h17 : .latch ∈ m ∨ (cp = t.cpLatch ∧ db = t.dbgLatch))
    (h18 : .drawn ∈ m ∨ fc = t.freeCtr) :
    Kept m r ⟨t.pending, t.regs, cp, db, t.clock, pins, t.fuses, keeper, t.mem, wcb, fault, plan, q, ic, st, ex, dev, regul,
      tier, log, y, req, w, fc, t.out⟩ :=
  ⟨h.queue, h.uid, h.zpend, h.time, h.sent, h.regs, h.bytes, hq ∘ h.shape, h.same.trans
    ⟨h0, h1, .inr rfl, h2, h3, h4, h5, h6, h7, h8, h9, h10, h11, h12, h13, h14, h15, .inr rfl, h16, .inr rfl, h17, h18,
      .inr rfl⟩⟩

/-- The sequencer's program-visible registers are left. -/
theorem Seq.ok_upd {q : Seq} (h : q.ok) {pc stack count run trap wait o v sr sv c d} :
    Seq.ok ⟨q.s, q.a, q.p, pc, stack, count, run, trap, wait, o, v, sr, sv, c, d⟩ := h

theorem Seq.idle_ok : Seq.idle.ok := ⟨rfl, rfl, rfl, rfl⟩

theorem Kept.ite {m : List Part} {r a b : State} {c : Prop} [Decidable c] (ha : Kept m r a) (hb : Kept m r b) :
    Kept m r (if c then a else b) := by
  split <;> assumption

/-- A chain of updates. -/
theorem Kept.foldl {α : Type} {m : List Part} {r s : State} {f : State → α → State} (l : List α) (h : Kept m r s)
    (hf : ∀ t a, Kept m r t → Kept m r (f t a)) : Kept m r (l.foldl f s) := by
  induction l generalizing s with
  | nil => exact h
  | cons a t ih => exact ih (hf _ _ h)

/-- A chain of updates that gathers answers. -/
theorem Kept.foldlSnd {α β : Type} {m : List Part} {r : State} {f : β × State → α → β × State} (l : List α)
    {p : β × State} (h : Kept m r p.2) (hf : ∀ q a, Kept m r q.2 → Kept m r (f q a).2) : Kept m r (l.foldl f p).2 := by
  induction l generalizing p with
  | nil => exact h
  | cons a t ih => exact ih (hf _ _ h)

theorem Kept.foldlFst {α β : Type} {m : List Part} {r : State} {f : State × β → α → State × β} (l : List α)
    {p : State × β} (h : Kept m r p.1) (hf : ∀ q a, Kept m r q.1 → Kept m r (f q a).1) : Kept m r (l.foldl f p).1 := by
  induction l generalizing p with
  | nil => exact h
  | cons a t ih => exact ih (hf _ _ h)

theorem Kept.foldlTrd {α β γ : Type} {m : List Part} {r : State} {f : β × γ × State → α → β × γ × State} (l : List α)
    {p : β × γ × State} (h : Kept m r p.2.2) (hf : ∀ q a, Kept m r q.2.2 → Kept m r (f q a).2.2) :
    Kept m r (l.foldl f p).2.2 := by
  induction l generalizing p with
  | nil => exact h
  | cons a t ih => exact ih (hf _ _ h)

/-- An answer that comes with the next state. -/
theorem Kept.pair {α : Type} {m : List Part} {r s : State} {a : α} {x : α × State} (e : x = (a, s)) (h : Kept m r x.2) :
    Kept m r s := by
  rw [e] at h; exact h

theorem Kept.triple {α β : Type} {m : List Part} {r s : State} {a : α} {b : β} {x : α × β × State} (e : x = (a, b, s))
    (h : Kept m r x.2.2) : Kept m r s := by
  rw [e] at h; exact h

/-- The clock moves on. -/
theorem Kept.clock {m : List Part} {r s : State} (hm : [.clock] ⊆ m) (h : Kept m r s) (c : Clock)
    (hc : s.clock.time ≤ c.time) : Kept m r { s with clock := c } :=
  ⟨h.queue, h.uid, h.zpend, h.time.trans hc, h.sent, h.regs, h.bytes, h.shape,
    { h.same with clock := .inl (hm (by decide)) }⟩

/-- A fuse is burnt: the lifecycle state, or ZPEND. -/
theorem Kept.fuse {m : List Part} {r s : State} (hm : [.fuses, .keeper] ⊆ m) (h : Kept m r s) (n : Nat)
    (k : Option KeeperSummary) : Kept m r { s with fuses := { s.fuses with lcs := n }, keeper := k } :=
  ⟨h.queue, h.uid, h.zpend, h.time, h.sent, h.regs, h.bytes, h.shape,
    { h.same with fuses := .inl (hm (by decide)), keeper := .inl (hm (by decide)) }⟩

theorem Kept.fuseOnly {m : List Part} {r s : State} (hm : [.fuses] ⊆ m) (h : Kept m r s) (n : Nat) :
    Kept m r { s with fuses := { s.fuses with lcs := n } } :=
  ⟨h.queue, h.uid, h.zpend, h.time, h.sent, h.regs, h.bytes, h.shape, { h.same with fuses := .inl (hm (by decide)) }⟩

theorem Kept.fuseZ {m : List Part} {r s : State} (hm : [.fuses] ⊆ m) (h : Kept m r s) :
    Kept m r { s with fuses := { s.fuses with zpend := true } } :=
  ⟨h.queue, h.uid, fun _ => rfl, h.time, h.sent, h.regs, h.bytes, h.shape, { h.same with fuses := .inl (hm (by decide)) }⟩

/-- Registers are cleared: what is left of the register file is a part of it. -/
theorem Kept.regsSub {m : List Part} {r s : State} (h : Kept m r s) (l : RegFile) (hl : l.Sublist s.regs) :
    Kept m r { s with regs := l } :=
  ⟨h.queue, h.uid, h.zpend, h.time, h.sent, fun q => List.Pairwise.sublist (List.Sublist.map _ hl) (h.regs q), h.bytes,
    h.shape, { h.same with }⟩

/-- Device bytes change to others in canonical form. -/
theorem Kept.bytesTo {m : List Part} {r s : State} (hm : [.mem] ⊆ m) (h : Kept m r s) (b : List Host.Cell)
    (hb : memWf s.mem = true → memWf b = true) : Kept m r { s with mem := b } :=
  ⟨h.queue, h.uid, h.zpend, h.time, h.sent, h.regs, hb ∘ h.bytes, h.shape, { h.same with mem := .inl (hm (by decide)) }⟩

theorem Kept.wcbTo {m : List Part} {r s : State} (hm : [.wcb] ⊆ m) (h : Kept m r s) (b : List WcbSector) :
    Kept m r { s with wcb := b } :=
  ⟨h.queue, h.uid, h.zpend, h.time, h.sent, h.regs, h.bytes, h.shape, { h.same with wcb := .inl (hm (by decide)) }⟩

theorem State.set_kept {m : List Part} {r s : State} (h : Kept m r s) (f : Field) (v : Nat) : Kept m r (s.set f v) :=
  ⟨h.queue, h.uid, h.zpend, h.time, h.sent, fun k => sparsePut_sorted _ _ _ _ (h.regs k), h.bytes, h.shape,
    { h.same with }⟩

theorem State.emit_kept {m : List Part} {r s : State} (hm : [.out] ⊆ m) (h : Kept m r s) (o : Out) :
    Kept m r (s.emit o) :=
  ⟨h.queue, h.uid, h.zpend, h.time, h.sent.trans (List.prefix_append _ _), h.regs, h.bytes, h.shape,
    { h.same with out := .inl (hm (by decide)) }⟩

theorem State.free_kept {m : List Part} {r s : State} (hm : [.drawn] ⊆ m) (h : Kept m r s) : Kept m r s.free.2 :=
  ⟨h.queue, h.uid, h.zpend, h.time, h.sent, h.regs, h.bytes, h.shape, { h.same with drawn := .inl (hm (by decide)) }⟩

theorem State.putBuffered_kept {m : List Part} {r s : State} (hm : [.mem, .wcb] ⊆ m) (h : Kept m r s) (a : Nat)
    (bs : List Byte) : Kept m r (s.putBuffered a bs) :=
  ⟨h.queue, h.uid, h.zpend, h.time, h.sent, h.regs, fun k => memWrites_wf _ _ _ (h.bytes k), h.shape,
    { h.same with mem := .inl (hm (by decide)), wcb := .inl (hm (by decide)) }⟩

theorem State.putThrough_kept {m : List Part} {r s : State} (hm : [.mem, .wcb] ⊆ m) (h : Kept m r s) (a : Nat)
    (bs : List Byte) : Kept m r (s.putThrough a bs) :=
  ⟨h.queue, h.uid, h.zpend, h.time, h.sent, h.regs, fun k => memWrites_wf _ _ _ (h.bytes k), h.shape,
    { h.same with mem := .inl (hm (by decide)), wcb := .inl (hm (by decide)) }⟩

/-- Several writes of device bytes keep the canonical form. -/
theorem memWrites_foldl_wf {α : Type} (l : List α) (a : α → Nat) (b : α → List Byte) (m : List Host.Cell)
    (h : memWf m = true) : memWf (l.foldl (fun m x => memWrites m (a x) (b x)) m) = true := by
  induction l generalizing m with
  | nil => exact h
  | cons x t ih => exact ih _ (memWrites_wf _ _ _ h)

theorem State.dropBuffer_kept {m : List Part} {r s : State} (hm : [.mem, .wcb, .drawn] ⊆ m) (h : Kept m r s) :
    Kept m r s.dropBuffer := by
  unfold State.dropBuffer
  refine Kept.wcbTo (List.Subset.trans (by decide) hm) (Kept.foldl _ h ?_) _
  intro t x ht
  exact Kept.bytesTo (List.Subset.trans (by decide) hm) (State.free_kept (List.Subset.trans (by decide) hm) ht) _
    (fun k => memWrites_foldl_wf _ _ _ _ k)

theorem State.modSeq_kept {m : List Part} {r s : State} (hm : [.seq] ⊆ m) (h : Kept m r s) (f : Seq → Seq)
    (hk : ∀ q, q.ok → (f q).ok)
    (hq : .seqRegs ∈ m ∨ ∀ q : Seq, (f q).s = q.s ∧ (f q).a = q.a ∧ (f q).p = q.p) : Kept m r (s.modSeq f) :=
  ⟨h.queue, h.uid, h.zpend, h.time, h.sent, h.regs, h.bytes, hk _ ∘ h.shape, h.same.trans
    { Same.refl m s with seq := .inl (hm (by decide)), seqRegs := hq.imp_right (fun k => k s.seq) }⟩

end Sys2Proof.Machine
end

