-- ==== Sys2Proof/Laws/KeptOps.lean ====
section
/-! SUPPORT. What the functions of Machine/Ops.lean keep. -/

namespace Sys2Proof.Machine

theorem State.setFlag_kept {ms : List Part} {s₀ s : State} (hs : Kept ms s₀ s) (f : Field) (b : Bool) : Kept ms s₀ (State.setFlag s f b) := by
  unfold State.setFlag
  repeat' first | with_reducible assumption | dsimp only | with_reducible apply Kept.ite | with_reducible apply State.set_kept

theorem State.setBit_kept {ms : List Part} {s₀ s : State} (hs : Kept ms s₀ s) (f : Field) (n : Nat) (b : Bool) : Kept ms s₀ (State.setBit s f n b) := by
  unfold State.setBit
  repeat' first | with_reducible assumption | dsimp only | with_reducible apply Kept.ite | with_reducible apply State.set_kept

theorem State.set64_kept {ms : List Part} {s₀ s : State} (hs : Kept ms s₀ s) (lo hi : Field) (v : Nat) : Kept ms s₀ (State.set64 s lo hi v) := by
  unfold State.set64
  repeat' first | with_reducible assumption | dsimp only | with_reducible apply Kept.ite | with_reducible apply State.set_kept

theorem State.bump_kept {ms : List Part} {s₀ s : State} (hs : Kept ms s₀ s) (f : Field) (n : Nat) : Kept ms s₀ (State.bump s f n) := by
  unfold State.bump
  repeat' first | with_reducible assumption | dsimp only | with_reducible apply Kept.ite | with_reducible apply State.set_kept

theorem State.writeFields_kept {ms : List Part} {s₀ s : State} (hs : Kept ms s₀ s) (off : Nat) (v : Nat) : Kept ms s₀ (State.writeFields s off v) := by
  unfold State.writeFields
  repeat' first | intro _ | with_reducible assumption | dsimp only | with_reducible apply Kept.ite | with_reducible apply State.set_kept | with_reducible refine Kept.foldl _ ?_ ?_ | with_reducible refine Kept.foldlSnd _ ?_ ?_ | with_reducible refine Kept.foldlTrd _ ?_ ?_ | with_reducible refine Kept.foldlFst _ ?_ ?_ | split

theorem State.raise_kept {ms : List Part} {s₀ s : State} (hs : Kept ms s₀ s) (n : Nat) : Kept ms s₀ (State.raise s n) := by
  unfold State.raise
  repeat' first | with_reducible assumption | dsimp only | with_reducible apply Kept.ite | with_reducible apply State.setBit_kept

theorem State.perf_kept {ms : List Part} {s₀ s : State} (hs : Kept ms s₀ s) (i n : Nat) : Kept ms s₀ (State.perf s i n) := by
  unfold State.perf
  repeat' first | with_reducible assumption | dsimp only | with_reducible apply Kept.ite | with_reducible apply State.set64_kept

theorem State.pass_kept {ms : List Part} {s₀ s : State} (hm : [.clock] ⊆ ms) (hs : Kept ms s₀ s) (n : Nat) : Kept ms s₀ (State.pass s n) := by
  unfold State.pass
  dsimp only
  have hs' : Kept ms s₀ { s with clock := { s.clock with time := s.clock.time + n, tick := if s.clock.ticking = true then (s.clock.tick + n) % 2 ^ 64 else s.clock.tick } } := Kept.clock (List.Subset.trans (by decide) hm) hs _ (Nat.le_add_right _ _)
  repeat' first | with_reducible assumption | with_reducible apply State.perf_kept | with_reducible apply Kept.ite

theorem State.advance_kept {ms : List Part} {s₀ s : State} (hm : [.clock] ⊆ ms) (hs : Kept ms s₀ s) (t : Nat) : Kept ms s₀ (State.advance s t) := by
  unfold State.advance
  repeat' first | exact List.Subset.trans (by decide) hm | with_reducible assumption | dsimp only | with_reducible apply Kept.ite | with_reducible apply State.pass_kept

theorem State.stamp_kept {ms : List Part} {s₀ s : State} (hs : Kept ms s₀ s) (i : Nat) : Kept ms s₀ (State.stamp s i) := by
  unfold State.stamp
  repeat' first | with_reducible assumption | dsimp only | with_reducible apply Kept.ite | with_reducible apply State.set64_kept

theorem State.logEntry_kept {ms : List Part} {s₀ s : State} (hs : Kept ms s₀ s) (cls : Nat) (src : ErrSrc) (e : ErrInfo) : Kept ms s₀ (State.logEntry s cls src e) := by
  unfold State.logEntry
  repeat' first | with_reducible assumption | dsimp only | with_reducible apply Kept.ite | with_reducible apply State.set_kept | with_reducible apply State.set64_kept | with_reducible apply State.setFlag_kept

theorem State.log__kept {ms : List Part} {s₀ s : State} (hs : Kept ms s₀ s) (cls : Nat) (src : ErrSrc) (e : ErrInfo) : Kept ms s₀ (State.log_ s cls src e) := by
  unfold State.log_
  repeat' first | with_reducible assumption | dsimp only | with_reducible apply Kept.ite | with_reducible apply State.bump_kept | with_reducible apply State.logEntry_kept | with_reducible apply State.raise_kept | with_reducible apply State.setFlag_kept

theorem State.flushPair_kept {ms : List Part} {s₀ s : State} (hm : [.wcb] ⊆ ms) (hs : Kept ms s₀ s) (d c k : Nat) : Kept ms s₀ (State.flushPair s d c k) := by
  unfold State.flushPair
  repeat' first | exact List.Subset.trans (by decide) hm | intro _ | with_reducible assumption | dsimp only | with_reducible apply Kept.ite | fail_if_no_progress ((with_reducible apply Kept.upd) <;> first | with_reducible exact Or.inr rfl | exact Or.inl (hm (by decide)) | with_reducible exact id | exact fun h => Seq.ok_upd h | exact fun _ => Seq.idle_ok | exact fun _ => Seq.ok_upd Seq.idle_ok | with_reducible exact Or.inr ⟨rfl, rfl⟩ | exact Or.inr ⟨rfl, rfl, rfl⟩ | skip)

theorem State.flushAll_kept {ms : List Part} {s₀ s : State} (hm : [.wcb] ⊆ ms) (hs : Kept ms s₀ s)  : Kept ms s₀ (State.flushAll s) := by
  unfold State.flushAll
  repeat' first | exact List.Subset.trans (by decide) hm | with_reducible assumption | dsimp only | with_reducible apply Kept.ite | fail_if_no_progress ((with_reducible apply Kept.upd) <;> first | with_reducible exact Or.inr rfl | exact Or.inl (hm (by decide)) | with_reducible exact id | exact fun h => Seq.ok_upd h | exact fun _ => Seq.idle_ok | exact fun _ => Seq.ok_upd Seq.idle_ok | with_reducible exact Or.inr ⟨rfl, rfl⟩ | exact Or.inr ⟨rfl, rfl, rfl⟩ | skip)

end Sys2Proof.Machine
end

