-- ==== Sys2Proof/Laws/KeptOperands.lean ====
section
/-! SUPPORT. What the functions of Machine/Operands.lean keep. -/

namespace Sys2Proof.Machine

theorem State.setMappedOut_kept {ms : List Part} {s₀ s : State} (hs : Kept ms s₀ s) (d c : Nat) : Kept ms s₀ (State.setMappedOut s d c) := by
  unfold State.setMappedOut
  repeat' first | with_reducible assumption | dsimp only | with_reducible apply Kept.ite | with_reducible apply State.setBit_kept

theorem State.setInitPending_kept {ms : List Part} {s₀ s : State} (hs : Kept ms s₀ s) (n : Nat) (b : Bool) : Kept ms s₀ (State.setInitPending s n b) := by
  unfold State.setInitPending
  repeat' first | with_reducible assumption | dsimp only | with_reducible apply Kept.ite | with_reducible apply State.setBit_kept

end Sys2Proof.Machine
end

