-- ==== Sys2Proof/Laws/KeptRows.lean ====
section
/-! SUPPORT. What the functions of Machine/Rows.lean keep. -/

namespace Sys2Proof.Machine

theorem State.newWindow_kept {ms : List Part} {s₀ s : State} (hm : [.regul, .clock] ⊆ ms) (hs : Kept ms s₀ s)  : Kept ms s₀ (State.newWindow s) := by
  unfold State.newWindow
  repeat' first | exact List.Subset.trans (by decide) hm | intro _ | with_reducible assumption | dsimp only | with_reducible apply Kept.ite | with_reducible apply State.set_kept | with_reducible refine Kept.foldl _ ?_ ?_ | with_reducible refine Kept.foldlSnd _ ?_ ?_ | with_reducible refine Kept.foldlTrd _ ?_ ?_ | with_reducible refine Kept.foldlFst _ ?_ ?_ | fail_if_no_progress ((with_reducible apply Kept.upd) <;> first | with_reducible exact Or.inr rfl | exact Or.inl (hm (by decide)) | with_reducible exact id | exact fun h => Seq.ok_upd h | exact fun _ => Seq.idle_ok | exact fun _ => Seq.ok_upd Seq.idle_ok | with_reducible exact Or.inr ⟨rfl, rfl⟩ | exact Or.inr ⟨rfl, rfl, rfl⟩ | skip)

theorem State.chargePartition_kept {ms : List Part} {s₀ s : State} (hm : [.regul, .clock] ⊆ ms) (hs : Kept ms s₀ s) (p n : Nat) : Kept ms s₀ (State.chargePartition s p n) := by
  unfold State.chargePartition
  repeat' first | exact List.Subset.trans (by decide) hm | with_reducible assumption | dsimp only | with_reducible apply Kept.ite | with_reducible apply State.bump_kept | split | fail_if_no_progress ((with_reducible apply Kept.upd) <;> first | with_reducible exact Or.inr rfl | exact Or.inl (hm (by decide)) | with_reducible exact id | exact fun h => Seq.ok_upd h | exact fun _ => Seq.idle_ok | exact fun _ => Seq.ok_upd Seq.idle_ok | with_reducible exact Or.inr ⟨rfl, rfl⟩ | exact Or.inr ⟨rfl, rfl, rfl⟩ | skip)

theorem State.regulate_kept {ms : List Part} {s₀ s : State} (hm : [.regul, .clock] ⊆ ms) (hs : Kept ms s₀ s) (src : Nat) : Kept ms s₀ (State.regulate s src) := by
  unfold State.regulate
  repeat' first | exact List.Subset.trans (by decide) hm | intro _ | with_reducible assumption | dsimp only | with_reducible apply Kept.ite | with_reducible apply State.advance_kept | with_reducible apply State.newWindow_kept

theorem State.chargeSectors_kept {ms : List Part} {s₀ s : State} (hm : [.regul, .clock] ⊆ ms) (hs : Kept ms s₀ s) (src rd wr times : Nat) : Kept ms s₀ (State.chargeSectors s src rd wr times) := by
  unfold State.chargeSectors
  repeat' first | exact List.Subset.trans (by decide) hm | intro _ | with_reducible assumption | dsimp only | with_reducible apply Kept.ite | with_reducible apply State.chargePartition_kept | with_reducible apply State.perf_kept | with_reducible apply State.set64_kept

theorem State.charge_kept {ms : List Part} {s₀ s : State} (hm : [.regul, .clock] ⊆ ms) (hs : Kept ms s₀ s) (src rd wr times : Nat) : Kept ms s₀ (State.charge s src rd wr times) := by
  unfold State.charge
  repeat' first | exact List.Subset.trans (by decide) hm | intro _ | with_reducible assumption | dsimp only | with_reducible apply Kept.ite | with_reducible apply State.regulate_kept | with_reducible apply State.chargeSectors_kept

theorem State.put_kept {ms : List Part} {s₀ s : State} (hm : [.mem, .wcb] ⊆ ms) (hs : Kept ms s₀ s) (w : WriteMode) (l : RowLoc) (off : Nat) (bs : List Byte) : Kept ms s₀ (State.put s w l off bs) := by
  unfold State.put
  repeat' first | exact List.Subset.trans (by decide) hm | intro _ | with_reducible assumption | dsimp only | with_reducible apply Kept.ite | with_reducible apply State.putBuffered_kept | with_reducible apply State.putThrough_kept | split | with_reducible refine Kept.pair (by assumption) ?_ | with_reducible refine Kept.triple (by assumption) ?_

theorem State.putMeta_kept {ms : List Part} {s₀ s : State} (hm : [.mem, .wcb] ⊆ ms) (hs : Kept ms s₀ s) (w : WriteMode) (l : RowLoc) (m : Meta) : Kept ms s₀ (State.putMeta s w l m) := by
  unfold State.putMeta
  repeat' first | exact List.Subset.trans (by decide) hm | intro _ | with_reducible assumption | dsimp only | with_reducible apply Kept.ite | with_reducible apply State.put_kept

theorem State.countDevice_kept {ms : List Part} {s₀ s : State} (hm : [.fault] ⊆ ms) (hs : Kept ms s₀ s) (a : ErrSrc) (d : Nat) : Kept ms s₀ (State.countDevice s a d) := by
  unfold State.countDevice
  repeat' first | exact List.Subset.trans (by decide) hm | with_reducible assumption | dsimp only | with_reducible apply Kept.ite | with_reducible apply State.log__kept | with_reducible apply State.set_kept | with_reducible apply State.setBit_kept | split | fail_if_no_progress ((with_reducible apply Kept.upd) <;> first | with_reducible exact Or.inr rfl | exact Or.inl (hm (by decide)) | with_reducible exact id | exact fun h => Seq.ok_upd h | exact fun _ => Seq.idle_ok | exact fun _ => Seq.ok_upd Seq.idle_ok | with_reducible exact Or.inr ⟨rfl, rfl⟩ | exact Or.inr ⟨rfl, rfl, rfl⟩ | skip)

theorem State.corrected_kept {ms : List Part} {s₀ s : State} (hm : [.fault] ⊆ ms) (hs : Kept ms s₀ s) (a : ErrSrc) (x : LineLoc) (synd : Word) : Kept ms s₀ (State.corrected s a x synd) := by
  unfold State.corrected
  repeat' first | exact List.Subset.trans (by decide) hm | intro _ | with_reducible assumption | dsimp only | with_reducible apply Kept.ite | with_reducible apply State.bump_kept | with_reducible apply State.countDevice_kept | with_reducible apply State.log__kept | with_reducible apply State.setFlag_kept | split | fail_if_no_progress ((with_reducible apply Kept.upd) <;> first | with_reducible exact Or.inr rfl | exact Or.inl (hm (by decide)) | with_reducible exact id | exact fun h => Seq.ok_upd h | exact fun _ => Seq.idle_ok | exact fun _ => Seq.ok_upd Seq.idle_ok | with_reducible exact Or.inr ⟨rfl, rfl⟩ | exact Or.inr ⟨rfl, rfl, rfl⟩ | skip)

theorem State.noteLine_kept {ms : List Part} {s₀ s : State} (hm : [.fault, .step] ⊆ ms) (hs : Kept ms s₀ s) (a : ErrSrc) (x : LineLoc) (v : LineVal) : Kept ms s₀ (State.noteLine s a x v) := by
  unfold State.noteLine
  repeat' first | exact List.Subset.trans (by decide) hm | with_reducible assumption | dsimp only | with_reducible apply Kept.ite | with_reducible apply State.bump_kept | with_reducible apply State.corrected_kept | with_reducible apply State.log__kept | split

theorem State.readLine_kept {ms : List Part} {s₀ s : State} (hm : [.fault, .step] ⊆ ms) (hs : Kept ms s₀ s) (a : ErrSrc) (x : LineLoc) : Kept ms s₀ (State.readLine s a x).2 := by
  unfold State.readLine
  repeat' first | exact List.Subset.trans (by decide) hm | with_reducible assumption | dsimp only | with_reducible apply Kept.ite | with_reducible apply State.noteLine_kept

theorem State.arm_kept {ms : List Part} {s₀ s : State} (hm : [.fault] ⊆ ms) (hs : Kept ms s₀ s) (x : LineLoc) : Kept ms s₀ (State.arm s x) := by
  unfold State.arm
  repeat' first | exact List.Subset.trans (by decide) hm | intro _ | with_reducible assumption | dsimp only | with_reducible apply Kept.ite | split | fail_if_no_progress ((with_reducible apply Kept.upd) <;> first | with_reducible exact Or.inr rfl | exact Or.inl (hm (by decide)) | with_reducible exact id | exact fun h => Seq.ok_upd h | exact fun _ => Seq.idle_ok | exact fun _ => Seq.ok_upd Seq.idle_ok | with_reducible exact Or.inr ⟨rfl, rfl⟩ | exact Or.inr ⟨rfl, rfl, rfl⟩ | skip)

theorem State.storeLine_kept {ms : List Part} {s₀ s : State} (hm : [.mem, .wcb, .fault] ⊆ ms) (hs : Kept ms s₀ s) (w : WriteMode) (x : LineLoc) (data : List Byte) : Kept ms s₀ (State.storeLine s w x data) := by
  unfold State.storeLine
  repeat' first | exact List.Subset.trans (by decide) hm | intro _ | with_reducible assumption | dsimp only | with_reducible apply Kept.ite | with_reducible apply State.arm_kept | with_reducible apply State.put_kept | split | with_reducible refine Kept.pair (by assumption) ?_ | with_reducible refine Kept.triple (by assumption) ?_

theorem State.putLine_kept {ms : List Part} {s₀ s : State} (hm : [.mem, .wcb, .fault] ⊆ ms) (hs : Kept ms s₀ s) (w : WriteMode) (x : LineLoc) (m : Meta) (data : List Byte) : Kept ms s₀ (State.putLine s w x m data) := by
  unfold State.putLine
  repeat' first | exact List.Subset.trans (by decide) hm | with_reducible assumption | dsimp only | with_reducible apply Kept.ite | with_reducible apply State.putMeta_kept | with_reducible apply State.storeLine_kept

theorem State.writeLine_kept {ms : List Part} {s₀ s : State} (hm : [.mem, .wcb, .fault, .step] ⊆ ms) (hs : Kept ms s₀ s) (a : ErrSrc) (w : WriteMode) (x : LineLoc) (data : List Byte) (mask : Nat) : Kept ms s₀ (State.writeLine s a w x data mask).2 := by
  unfold State.writeLine
  repeat' first | exact List.Subset.trans (by decide) hm | with_reducible assumption | dsimp only | with_reducible apply Kept.ite | with_reducible apply State.noteLine_kept | with_reducible apply State.putLine_kept | split

theorem State.putLines_kept {ms : List Part} {s₀ s : State} (hm : [.mem, .wcb, .fault] ⊆ ms) (hs : Kept ms s₀ s) (w : WriteMode) (l : RowLoc) (lines : List (Nat × List Byte)) (m : Meta) : Kept ms s₀ (State.putLines s w l lines m) := by
  unfold State.putLines
  repeat' first | exact List.Subset.trans (by decide) hm | intro _ | with_reducible assumption | dsimp only | with_reducible apply Kept.ite | with_reducible apply State.putMeta_kept | with_reducible apply State.storeLine_kept | with_reducible refine Kept.foldl _ ?_ ?_

theorem State.initRow_kept {ms : List Part} {s₀ s : State} (hm : [.mem, .wcb] ⊆ ms) (hs : Kept ms s₀ s) (l : RowLoc) (kind : Nat) : Kept ms s₀ (State.initRow s l kind) := by
  unfold State.initRow
  repeat' first | exact List.Subset.trans (by decide) hm | intro _ | with_reducible assumption | dsimp only | with_reducible apply Kept.ite | with_reducible apply State.put_kept

theorem State.zeroSlots_kept {ms : List Part} {s₀ s : State} (hm : [.mem, .wcb] ⊆ ms) (hs : Kept ms s₀ s) (l : RowLoc) : Kept ms s₀ (State.zeroSlots s l) := by
  unfold State.zeroSlots
  repeat' first | exact List.Subset.trans (by decide) hm | intro _ | with_reducible assumption | dsimp only | with_reducible apply Kept.ite | with_reducible apply State.put_kept | with_reducible refine Kept.foldl _ ?_ ?_ | with_reducible refine Kept.foldlSnd _ ?_ ?_ | with_reducible refine Kept.foldlTrd _ ?_ ?_ | with_reducible refine Kept.foldlFst _ ?_ ?_

theorem State.zeroRow_kept {ms : List Part} {s₀ s : State} (hm : [.mem, .wcb] ⊆ ms) (hs : Kept ms s₀ s) (l : RowLoc) : Kept ms s₀ (State.zeroRow s l) := by
  unfold State.zeroRow
  repeat' first | exact List.Subset.trans (by decide) hm | intro _ | with_reducible assumption | dsimp only | with_reducible apply Kept.ite | with_reducible apply State.put_kept | with_reducible apply State.zeroSlots_kept | split | with_reducible refine Kept.pair (by assumption) ?_ | with_reducible refine Kept.triple (by assumption) ?_

end Sys2Proof.Machine
end

