-- ==== Sys2Proof/Laws/KeptRules.lean ====
section
/-! SUPPORT. What the functions of Machine/Rules.lean keep. -/

namespace Sys2Proof.Machine

theorem State.writePhase1_kept {ms : List Part} {s₀ s : State} (hm : [.mem, .wcb, .fault] ⊆ ms) (hs : Kept ms s₀ s) (l : RowLoc) (o : PassOut) : Kept ms s₀ (State.writePhase1 s l o) := by
  unfold State.writePhase1
  repeat' first | exact List.Subset.trans (by decide) hm | with_reducible assumption | dsimp only | with_reducible apply Kept.ite | with_reducible apply State.putLines_kept

theorem State.writePhase2_kept {ms : List Part} {s₀ s : State} (hm : [.mem, .wcb, .fault] ⊆ ms) (hs : Kept ms s₀ s) (l : RowLoc) (o : PassOut) : Kept ms s₀ (State.writePhase2 s l o) := by
  unfold State.writePhase2
  repeat' first | exact List.Subset.trans (by decide) hm | with_reducible assumption | dsimp only | with_reducible apply Kept.ite | with_reducible apply State.putLines_kept

theorem State.writePhase3_kept {ms : List Part} {s₀ s : State} (hm : [.mem, .wcb, .fault] ⊆ ms) (hs : Kept ms s₀ s) (l : RowLoc) (wrow : Nat) (o : PassOut) (recorded : Bool) : Kept ms s₀ (State.writePhase3 s l wrow o recorded) := by
  unfold State.writePhase3
  repeat' first | exact List.Subset.trans (by decide) hm | with_reducible assumption | dsimp only | with_reducible apply Kept.ite | with_reducible apply State.putLines_kept | with_reducible apply State.putMeta_kept

theorem State.runPass_kept {ms : List Part} {s₀ s : State} (hm : [.mem, .wcb, .fault] ⊆ ms) (hs : Kept ms s₀ s) (seed : List Byte) (l : RowLoc) (prow : Nat) (c : PassConst) (r : PassRow) (recorded : Bool) : Kept ms s₀ (State.runPass s seed l prow c r recorded).2 := by
  unfold State.runPass
  repeat' first | exact List.Subset.trans (by decide) hm | with_reducible assumption | dsimp only | with_reducible apply Kept.ite | with_reducible apply State.writePhase1_kept | with_reducible apply State.writePhase2_kept | with_reducible apply State.writePhase3_kept | split

end Sys2Proof.Machine
end

