-- ==== Sys2Proof/Laws/KeptHold.lean ====
section
/-! SUPPORT. What the functions of Machine/Hold.lean keep. -/

namespace Sys2Proof.Machine

theorem State.enterHold_kept {ms : List Part} {s₀ s : State} (hs : Kept ms s₀ s) (cause : Nat) : Kept ms s₀ (State.enterHold s cause) := by
  unfold State.enterHold
  repeat' first | with_reducible assumption | dsimp only | with_reducible apply Kept.ite | with_reducible apply State.raise_kept | with_reducible apply State.set_kept | with_reducible apply State.setFlag_kept

theorem State.holdFor_kept {ms : List Part} {s₀ s : State} (hm : [.fault] ⊆ ms) (hs : Kept ms s₀ s) (cause : Nat) : Kept ms s₀ (State.holdFor s cause) := by
  unfold State.holdFor
  repeat' first | exact List.Subset.trans (by decide) hm | with_reducible assumption | dsimp only | with_reducible apply Kept.ite | with_reducible apply State.enterHold_kept | split | fail_if_no_progress ((with_reducible apply Kept.upd) <;> first | with_reducible exact Or.inr rfl | exact Or.inl (hm (by decide)) | with_reducible exact id | exact fun h => Seq.ok_upd h | exact fun _ => Seq.idle_ok | exact fun _ => Seq.ok_upd Seq.idle_ok | with_reducible exact Or.inr ⟨rfl, rfl⟩ | exact Or.inr ⟨rfl, rfl, rfl⟩ | skip)

theorem State.takeHolds_kept {ms : List Part} {s₀ s : State} (hm : [.fault] ⊆ ms) (hs : Kept ms s₀ s)  : Kept ms s₀ (State.takeHolds s) := by
  unfold State.takeHolds
  repeat' first | exact List.Subset.trans (by decide) hm | intro _ | with_reducible assumption | dsimp only | with_reducible apply Kept.ite | with_reducible apply State.enterHold_kept | with_reducible refine Kept.foldl _ ?_ ?_ | with_reducible refine Kept.foldlSnd _ ?_ ?_ | with_reducible refine Kept.foldlTrd _ ?_ ?_ | with_reducible refine Kept.foldlFst _ ?_ ?_ | fail_if_no_progress ((with_reducible apply Kept.upd) <;> first | with_reducible exact Or.inr rfl | exact Or.inl (hm (by decide)) | with_reducible exact id | exact fun h => Seq.ok_upd h | exact fun _ => Seq.idle_ok | exact fun _ => Seq.ok_upd Seq.idle_ok | with_reducible exact Or.inr ⟨rfl, rfl⟩ | exact Or.inr ⟨rfl, rfl, rfl⟩ | skip)

theorem State.listLoss_kept {ms : List Part} {s₀ s : State} (hs : Kept ms s₀ s) (src : ErrSrc) (shard cause : Nat) : Kept ms s₀ (State.listLoss s src shard cause) := by
  unfold State.listLoss
  repeat' first | with_reducible assumption | dsimp only | with_reducible apply Kept.ite | with_reducible apply State.log__kept | with_reducible apply State.set_kept | with_reducible apply State.setFlag_kept

theorem State.loseShard_kept {ms : List Part} {s₀ s : State} (hm : [.fault] ⊆ ms) (hs : Kept ms s₀ s) (src : ErrSrc) (shard cause : Nat) : Kept ms s₀ (State.loseShard s src shard cause) := by
  unfold State.loseShard
  repeat' first | exact List.Subset.trans (by decide) hm | with_reducible assumption | dsimp only | with_reducible apply Kept.ite | with_reducible apply State.holdFor_kept | with_reducible apply State.listLoss_kept

theorem State.dropLosses_kept {ms : List Part} {s₀ s : State} (hs : Kept ms s₀ s) (p : Nat → Bool) : Kept ms s₀ (State.dropLosses s p) := by
  unfold State.dropLosses
  repeat' first | intro _ | with_reducible assumption | dsimp only | with_reducible apply Kept.ite | with_reducible apply State.set_kept | with_reducible refine Kept.foldl _ ?_ ?_

theorem State.endHold_kept {ms : List Part} {s₀ s : State} (hs : Kept ms s₀ s)  : Kept ms s₀ (State.endHold s) := by
  unfold State.endHold
  repeat' first | with_reducible assumption | dsimp only | with_reducible apply Kept.ite | with_reducible apply State.set_kept | with_reducible apply State.setFlag_kept

theorem State.poison_kept {ms : List Part} {s₀ s : State} (hm : [.step] ⊆ ms) (hs : Kept ms s₀ s)  : Kept ms s₀ (State.poison s) := by
  unfold State.poison
  repeat' first | exact List.Subset.trans (by decide) hm | with_reducible assumption | dsimp only | with_reducible apply Kept.ite | split | fail_if_no_progress ((with_reducible apply Kept.upd) <;> first | with_reducible exact Or.inr rfl | exact Or.inl (hm (by decide)) | with_reducible exact id | exact fun h => Seq.ok_upd h | exact fun _ => Seq.idle_ok | exact fun _ => Seq.ok_upd Seq.idle_ok | with_reducible exact Or.inr ⟨rfl, rfl⟩ | exact Or.inr ⟨rfl, rfl, rfl⟩ | skip)

end Sys2Proof.Machine
end

