-- ==== Sys2Proof/Laws/KeptRegions.lean ====
section
/-! SUPPORT. What the functions of Machine/Regions.lean keep. -/

namespace Sys2Proof.Machine

theorem State.putRegion_kept {ms : List Part} {s₀ s : State} (hs : Kept ms s₀ s) (n : Nat) (e : RegionWords) : Kept ms s₀ (State.putRegion s n e) := by
  unfold State.putRegion
  repeat' first | intro _ | with_reducible assumption | dsimp only | with_reducible apply Kept.ite | with_reducible apply State.writeFields_kept | with_reducible refine Kept.foldl _ ?_ ?_

theorem State.beginInit_kept {ms : List Part} {s₀ s : State} (hm : [.req] ⊆ ms) (hs : Kept ms s₀ s) (n : Nat) : Kept ms s₀ (State.beginInit s n) := by
  unfold State.beginInit
  repeat' first | exact List.Subset.trans (by decide) hm | intro _ | with_reducible assumption | dsimp only | with_reducible apply Kept.ite | with_reducible apply State.setFlag_kept | with_reducible apply State.setInitPending_kept | fail_if_no_progress ((with_reducible apply Kept.upd) <;> first | with_reducible exact Or.inr rfl | exact Or.inl (hm (by decide)) | with_reducible exact id | exact fun h => Seq.ok_upd h | exact fun _ => Seq.idle_ok | exact fun _ => Seq.ok_upd Seq.idle_ok | with_reducible exact Or.inr ⟨rfl, rfl⟩ | exact Or.inr ⟨rfl, rfl, rfl⟩ | skip)

theorem State.disableRegion_kept {ms : List Part} {s₀ s : State} (hs : Kept ms s₀ s) (n : Nat) : Kept ms s₀ (State.disableRegion s n) := by
  unfold State.disableRegion
  repeat' first | with_reducible assumption | dsimp only | with_reducible apply Kept.ite | with_reducible apply State.setFlag_kept

theorem State.refuseEntry_kept {ms : List Part} {s₀ s : State} (hs : Kept ms s₀ s) (n code : Nat) : Kept ms s₀ (State.refuseEntry s n code) := by
  unfold State.refuseEntry
  repeat' first | with_reducible assumption | dsimp only | with_reducible apply Kept.ite | with_reducible apply State.set_kept | with_reducible apply State.setFlag_kept

theorem State.writeEntry_kept {ms : List Part} {s₀ s : State} (hm : [.req] ⊆ ms) (hs : Kept ms s₀ s) (n w v : Nat) : Kept ms s₀ (State.writeEntry s n w v) := by
  unfold State.writeEntry
  repeat' first | exact List.Subset.trans (by decide) hm | intro _ | with_reducible assumption | dsimp only | with_reducible apply Kept.ite | with_reducible apply State.beginInit_kept | with_reducible apply State.putRegion_kept | with_reducible apply State.refuseEntry_kept | split | with_reducible refine Kept.pair (by assumption) ?_ | with_reducible refine Kept.triple (by assumption) ?_

theorem State.initRegion_kept {ms : List Part} {s₀ s : State} (hm : [.mem, .wcb] ⊆ ms) (hs : Kept ms s₀ s) (e : RegionWords) : Kept ms s₀ (State.initRegion s e) := by
  unfold State.initRegion
  repeat' first | exact List.Subset.trans (by decide) hm | intro _ | with_reducible assumption | dsimp only | with_reducible apply Kept.ite | with_reducible apply State.initRow_kept | with_reducible refine Kept.foldl _ ?_ ?_ | with_reducible refine Kept.foldlSnd _ ?_ ?_ | with_reducible refine Kept.foldlTrd _ ?_ ?_ | with_reducible refine Kept.foldlFst _ ?_ ?_

end Sys2Proof.Machine
end

