-- ==== Sys2Proof/Laws/KeptAccess.lean ====
section
/-! SUPPORT. What the functions of Machine/Access.lean keep. -/

namespace Sys2Proof.Machine

theorem State.cpRead_kept {ms : List Part} {s₀ s : State} (hm : [.latch, .out] ⊆ ms) (hs : Kept ms s₀ s) (off : Nat) : Kept ms s₀ (State.cpRead s off) := by
  unfold State.cpRead
  repeat' first | exact List.Subset.trans (by decide) hm | with_reducible assumption | dsimp only | with_reducible apply Kept.ite | with_reducible apply State.emit_kept | fail_if_no_progress ((with_reducible apply Kept.upd) <;> first | with_reducible exact Or.inr rfl | exact Or.inl (hm (by decide)) | with_reducible exact id | exact fun h => Seq.ok_upd h | exact fun _ => Seq.idle_ok | exact fun _ => Seq.ok_upd Seq.idle_ok | with_reducible exact Or.inr ⟨rfl, rfl⟩ | exact Or.inr ⟨rfl, rfl, rfl⟩ | skip)

theorem State.onWrite_kept {ms : List Part} {s₀ s : State} (hs : Kept ms s₀ s) (off : Nat) (v : Word) (act : State → State) (hk : ∀ t, Kept ms s₀ t → Kept ms s₀ (act t)) : Kept ms s₀ (State.onWrite s off v act) := by
  unfold State.onWrite
  repeat' first | intro _ | with_reducible assumption | dsimp only | with_reducible apply Kept.ite | with_reducible apply State.writeFields_kept | apply hk

theorem whenBit_kept {ms : List Part} {s₀ s : State} (hs : Kept ms s₀ s) (v : Word) (n : Nat) (f : State → State) (hk : ∀ t, Kept ms s₀ t → Kept ms s₀ (f t)) : Kept ms s₀ (whenBit v n f s) := by
  unfold whenBit
  repeat' first | intro _ | with_reducible assumption | dsimp only | with_reducible apply Kept.ite | apply hk

end Sys2Proof.Machine
end

