-- ==== Sys2Proof/Laws/KeptServe.lean ====
section
/-! SUPPORT. What the functions of Machine/Serve.lean keep. -/

namespace Sys2Proof.Machine

theorem State.chargeReads_kept {ms : List Part} {s₀ s : State} (hm : [.regul, .clock] ⊆ ms) (hs : Kept ms s₀ s) (src : Nat) (xs : List LineLoc) : Kept ms s₀ (State.chargeReads s src xs) := by
  unfold State.chargeReads
  repeat' first | exact List.Subset.trans (by decide) hm | intro _ | with_reducible assumption | dsimp only | with_reducible apply Kept.ite | with_reducible apply State.regulate_kept | with_reducible apply State.chargeSectors_kept | with_reducible refine Kept.foldl _ ?_ ?_ | with_reducible refine Kept.foldlSnd _ ?_ ?_ | with_reducible refine Kept.foldlTrd _ ?_ ?_ | with_reducible refine Kept.foldlFst _ ?_ ?_

theorem State.chargeWrites_kept {ms : List Part} {s₀ s : State} (hm : [.regul, .clock] ⊆ ms) (hs : Kept ms s₀ s) (src : Nat) (xs : List LineLoc) : Kept ms s₀ (State.chargeWrites s src xs) := by
  unfold State.chargeWrites
  repeat' first | exact List.Subset.trans (by decide) hm | intro _ | with_reducible assumption | dsimp only | with_reducible apply Kept.ite | with_reducible apply State.regulate_kept | with_reducible apply State.chargeSectors_kept | with_reducible refine Kept.foldl _ ?_ ?_ | with_reducible refine Kept.foldlSnd _ ?_ ?_ | with_reducible refine Kept.foldlTrd _ ?_ ?_ | with_reducible refine Kept.foldlFst _ ?_ ?_

theorem State.modStep_kept {ms : List Part} {s₀ s : State} (hm : [.step] ⊆ ms) (hs : Kept ms s₀ s) (f : StepState → StepState) : Kept ms s₀ (State.modStep s f) := by
  unfold State.modStep
  repeat' first | exact List.Subset.trans (by decide) hm | with_reducible assumption | dsimp only | with_reducible apply Kept.ite | fail_if_no_progress ((with_reducible apply Kept.upd) <;> first | with_reducible exact Or.inr rfl | exact Or.inl (hm (by decide)) | with_reducible exact id | exact fun h => Seq.ok_upd h | exact fun _ => Seq.idle_ok | exact fun _ => Seq.ok_upd Seq.idle_ok | with_reducible exact Or.inr ⟨rfl, rfl⟩ | exact Or.inr ⟨rfl, rfl, rfl⟩ | skip)

theorem State.modEntry_kept {ms : List Part} {s₀ s : State} (hm : [.step] ⊆ ms) (hs : Kept ms s₀ s) (n : Nat) (f : EntrySt → EntrySt) : Kept ms s₀ (State.modEntry s n f) := by
  unfold State.modEntry
  repeat' first | exact List.Subset.trans (by decide) hm | intro _ | with_reducible assumption | dsimp only | with_reducible apply Kept.ite | with_reducible apply State.modStep_kept

theorem State.retire_kept {ms : List Part} {s₀ s : State} (hm : [.dev] ⊆ ms) (hs : Kept ms s₀ s)  : Kept ms s₀ (State.retire s) := by
  unfold State.retire
  repeat' first | exact List.Subset.trans (by decide) hm | intro _ | with_reducible assumption | dsimp only | with_reducible apply Kept.ite | fail_if_no_progress ((with_reducible apply Kept.upd) <;> first | with_reducible exact Or.inr rfl | exact Or.inl (hm (by decide)) | with_reducible exact id | exact fun h => Seq.ok_upd h | exact fun _ => Seq.idle_ok | exact fun _ => Seq.ok_upd Seq.idle_ok | with_reducible exact Or.inr ⟨rfl, rfl⟩ | exact Or.inr ⟨rfl, rfl, rfl⟩ | skip)

theorem State.setBsu_kept {ms : List Part} {s₀ s : State} (hm : [.dev] ⊆ ms) (hs : Kept ms s₀ s) (d c k : Nat) (b : Bsu) : Kept ms s₀ (State.setBsu s d c k b) := by
  unfold State.setBsu
  repeat' first | exact List.Subset.trans (by decide) hm | with_reducible assumption | dsimp only | with_reducible apply Kept.ite | fail_if_no_progress ((with_reducible apply Kept.upd) <;> first | with_reducible exact Or.inr rfl | exact Or.inl (hm (by decide)) | with_reducible exact id | exact fun h => Seq.ok_upd h | exact fun _ => Seq.idle_ok | exact fun _ => Seq.ok_upd Seq.idle_ok | with_reducible exact Or.inr ⟨rfl, rfl⟩ | exact Or.inr ⟨rfl, rfl, rfl⟩ | skip)

theorem State.countCorr_kept {ms : List Part} {s₀ s : State} (hm : [.dev] ⊆ ms) (hs : Kept ms s₀ s) (l : RowLoc) (vs : List LineVal) : Kept ms s₀ (State.countCorr s l vs) := by
  unfold State.countCorr
  repeat' first | exact List.Subset.trans (by decide) hm | with_reducible assumption | dsimp only | with_reducible apply Kept.ite | with_reducible apply State.setBsu_kept

theorem State.seenByBsu_kept {ms : List Part} {s₀ s : State} (hm : [.fault] ⊆ ms) (hs : Kept ms s₀ s) (l : RowLoc) : Kept ms s₀ (State.seenByBsu s l) := by
  unfold State.seenByBsu
  repeat' first | exact List.Subset.trans (by decide) hm | intro _ | with_reducible assumption | dsimp only | with_reducible apply Kept.ite | fail_if_no_progress ((with_reducible apply Kept.upd) <;> first | with_reducible exact Or.inr rfl | exact Or.inl (hm (by decide)) | with_reducible exact id | exact fun h => Seq.ok_upd h | exact fun _ => Seq.idle_ok | exact fun _ => Seq.ok_upd Seq.idle_ok | with_reducible exact Or.inr ⟨rfl, rfl⟩ | exact Or.inr ⟨rfl, rfl, rfl⟩ | skip)

theorem State.withRemap_kept {ms : List Part} {s₀ s : State} (hm : [.fault] ⊆ ms) (hs : Kept ms s₀ s) (es : List RemapEntry) : Kept ms s₀ (State.withRemap s es) := by
  unfold State.withRemap
  repeat' first | exact List.Subset.trans (by decide) hm | intro _ | with_reducible assumption | dsimp only | with_reducible apply Kept.ite | fail_if_no_progress ((with_reducible apply Kept.upd) <;> first | with_reducible exact Or.inr rfl | exact Or.inl (hm (by decide)) | with_reducible exact id | exact fun h => Seq.ok_upd h | exact fun _ => Seq.idle_ok | exact fun _ => Seq.ok_upd Seq.idle_ok | with_reducible exact Or.inr ⟨rfl, rfl⟩ | exact Or.inr ⟨rfl, rfl, rfl⟩ | skip)

theorem State.readResult_kept {ms : List Part} {s₀ s : State} (hm : [.step, .dev, .regul, .clock] ⊆ ms) (hs : Kept ms s₀ s) (q : SeqFl) : Kept ms s₀ (State.readResult s q) := by
  unfold State.readResult
  repeat' first | exact List.Subset.trans (by decide) hm | intro _ | with_reducible assumption | dsimp only | with_reducible apply Kept.ite | with_reducible apply State.charge_kept | with_reducible apply State.modEntry_kept | split | with_reducible refine Kept.pair (by assumption) ?_ | with_reducible refine Kept.triple (by assumption) ?_ | fail_if_no_progress ((with_reducible apply Kept.upd) <;> first | with_reducible exact Or.inr rfl | exact Or.inl (hm (by decide)) | with_reducible exact id | exact fun h => Seq.ok_upd h | exact fun _ => Seq.idle_ok | exact fun _ => Seq.ok_upd Seq.idle_ok | with_reducible exact Or.inr ⟨rfl, rfl⟩ | exact Or.inr ⟨rfl, rfl, rfl⟩ | skip)

theorem State.freePair_kept {ms : List Part} {s₀ s : State} (hm : [.step, .dev, .regul, .clock] ⊆ ms) (hs : Kept ms s₀ s) (l : RowLoc) : Kept ms s₀ (State.freePair s l) := by
  unfold State.freePair
  repeat' first | exact List.Subset.trans (by decide) hm | intro _ | with_reducible assumption | dsimp only | with_reducible apply Kept.ite | with_reducible apply State.advance_kept | with_reducible apply State.modEntry_kept | with_reducible apply State.readResult_kept | split | with_reducible refine Kept.pair (by assumption) ?_ | with_reducible refine Kept.triple (by assumption) ?_

theorem State.awaitPair_kept {ms : List Part} {s₀ s : State} (hm : [.step, .dev, .regul, .clock] ⊆ ms) (hs : Kept ms s₀ s) (l : RowLoc) : Kept ms s₀ (State.awaitPair s l) := by
  unfold State.awaitPair
  repeat' first | exact List.Subset.trans (by decide) hm | intro _ | with_reducible assumption | dsimp only | with_reducible apply Kept.ite | with_reducible apply State.freePair_kept | with_reducible apply State.perf_kept

theorem State.noteStart_kept {ms : List Part} {s₀ s : State} (hm : [.dev] ⊆ ms) (hs : Kept ms s₀ s) (d t w : Nat) : Kept ms s₀ (State.noteStart s d t w) := by
  unfold State.noteStart
  repeat' first | exact List.Subset.trans (by decide) hm | intro _ | with_reducible assumption | dsimp only | with_reducible apply Kept.ite | fail_if_no_progress ((with_reducible apply Kept.upd) <;> first | with_reducible exact Or.inr rfl | exact Or.inl (hm (by decide)) | with_reducible exact id | exact fun h => Seq.ok_upd h | exact fun _ => Seq.idle_ok | exact fun _ => Seq.ok_upd Seq.idle_ok | with_reducible exact Or.inr ⟨rfl, rfl⟩ | exact Or.inr ⟨rfl, rfl, rfl⟩ | skip)

theorem State.openSeq_kept {ms : List Part} {s₀ s : State} (hm : [.wcb, .step, .dev, .regul, .clock] ⊆ ms) (hs : Kept ms s₀ s) (l : RowLoc) (prow opn weight bound : Nat) (entry : Option Nat) : Kept ms s₀ (State.openSeq s l prow opn weight bound entry) := by
  unfold State.openSeq
  repeat' first | exact List.Subset.trans (by decide) hm | intro _ | with_reducible assumption | dsimp only | with_reducible apply Kept.ite | with_reducible apply State.advance_kept | with_reducible apply State.flushPair_kept | with_reducible apply State.freePair_kept | with_reducible apply State.noteStart_kept | with_reducible apply State.retire_kept | fail_if_no_progress ((with_reducible apply Kept.upd) <;> first | with_reducible exact Or.inr rfl | exact Or.inl (hm (by decide)) | with_reducible exact id | exact fun h => Seq.ok_upd h | exact fun _ => Seq.idle_ok | exact fun _ => Seq.ok_upd Seq.idle_ok | with_reducible exact Or.inr ⟨rfl, rfl⟩ | exact Or.inr ⟨rfl, rfl, rfl⟩ | skip)

theorem State.openSeqRetried_kept {ms : List Part} {s₀ s : State} (hm : [.wcb, .step, .dev, .regul, .clock] ⊆ ms) (hs : Kept ms s₀ s) (l : RowLoc) (prow opn weight bound : Nat) (entry : Option Nat) (n : Nat) : Kept ms s₀ (State.openSeqRetried s l prow opn weight bound entry n) := by
  induction n generalizing s with
  | zero => exact State.openSeq_kept hm hs l prow opn weight bound entry
  | succ n ih => exact ih (State.openSeq_kept hm hs l prow opn weight bound none)

theorem State.poisonBy_kept {ms : List Part} {s₀ s : State} (hm : [.step] ⊆ ms) (hs : Kept ms s₀ s) (l : RowLoc) (v : LineVal) : Kept ms s₀ (State.poisonBy s l v) := by
  unfold State.poisonBy
  repeat' first | exact List.Subset.trans (by decide) hm | with_reducible assumption | dsimp only | with_reducible apply Kept.ite | with_reducible apply State.poison_kept | split

theorem State.fetchLine_kept {ms : List Part} {s₀ s : State} (hm : [.fault, .step, .dev, .regul, .clock] ⊆ ms) (hs : Kept ms s₀ s) (a : ErrSrc) (x : LineLoc) : Kept ms s₀ (State.fetchLine s a x).2 := by
  unfold State.fetchLine
  repeat' first | exact List.Subset.trans (by decide) hm | with_reducible assumption | dsimp only | with_reducible apply Kept.ite | with_reducible apply State.awaitPair_kept | with_reducible apply State.poisonBy_kept | with_reducible apply State.readLine_kept

theorem State.serveRead_kept {ms : List Part} {s₀ s : State} (hm : [.fault, .step, .dev, .regul, .clock] ⊆ ms) (hs : Kept ms s₀ s) (a : ErrSrc) (src : Nat) (e : RegionWords) (off n : Nat) : Kept ms s₀ (State.serveRead s a src e off n).2.2 := by
  unfold State.serveRead
  repeat' first | exact List.Subset.trans (by decide) hm | intro _ | with_reducible assumption | dsimp only | with_reducible apply Kept.ite | with_reducible apply State.chargeReads_kept | with_reducible apply State.fetchLine_kept | with_reducible refine Kept.foldl _ ?_ ?_ | with_reducible refine Kept.foldlSnd _ ?_ ?_

theorem State.serveWrite_kept {ms : List Part} {s₀ s : State} (hm : [.mem, .wcb, .fault, .step, .dev, .regul, .clock] ⊆ ms) (hs : Kept ms s₀ s) (a : ErrSrc) (src : Nat) (e : RegionWords) (off : Nat) (data : List LineWrite) : Kept ms s₀ (State.serveWrite s a src e off data).2 := by
  unfold State.serveWrite
  repeat' first | exact List.Subset.trans (by decide) hm | intro _ | with_reducible assumption | dsimp only | with_reducible apply Kept.ite | with_reducible apply State.awaitPair_kept | with_reducible apply State.chargeWrites_kept | with_reducible apply State.writeLine_kept | with_reducible refine Kept.foldl _ ?_ ?_ | with_reducible refine Kept.foldlSnd _ ?_ ?_

theorem State.refuseAccess_kept {ms : List Part} {s₀ s : State} (hs : Kept ms s₀ s) (a : ErrSrc) (n : Nat) (c : RegionCheck) : Kept ms s₀ (State.refuseAccess s a n c) := by
  unfold State.refuseAccess
  repeat' first | with_reducible assumption | dsimp only | with_reducible apply Kept.ite | with_reducible apply State.log__kept

theorem State.regionRead_kept {ms : List Part} {s₀ s : State} (hm : [.fault, .step, .dev, .regul, .clock] ⊆ ms) (hs : Kept ms s₀ s) (q : Requester) (a : ErrSrc) (src n off lines : Nat) : Kept ms s₀ (State.regionRead s q a src n off lines).2.2 := by
  unfold State.regionRead
  repeat' first | exact List.Subset.trans (by decide) hm | with_reducible assumption | dsimp only | with_reducible apply Kept.ite | with_reducible apply State.refuseAccess_kept | with_reducible apply State.serveRead_kept | split

theorem State.regionWrite_kept {ms : List Part} {s₀ s : State} (hm : [.mem, .wcb, .fault, .step, .dev, .regul, .clock] ⊆ ms) (hs : Kept ms s₀ s) (q : Requester) (a : ErrSrc) (src n off : Nat) (data : List LineWrite) : Kept ms s₀ (State.regionWrite s q a src n off data).2 := by
  unfold State.regionWrite
  repeat' first | exact List.Subset.trans (by decide) hm | intro _ | with_reducible assumption | dsimp only | with_reducible apply Kept.ite | with_reducible apply State.refuseAccess_kept | with_reducible apply State.serveWrite_kept | split

theorem State.linkTrouble_kept {ms : List Part} {s₀ s : State} (hm : [.fault, .step] ⊆ ms) (hs : Kept ms s₀ s) (a : ErrSrc) (x : LineLoc) (fails : Nat) : Kept ms s₀ (State.linkTrouble s a x fails) := by
  unfold State.linkTrouble
  repeat' first | exact List.Subset.trans (by decide) hm | intro _ | with_reducible assumption | dsimp only | with_reducible apply Kept.ite | with_reducible apply State.bump_kept | with_reducible apply State.noteLine_kept | with_reducible apply State.poisonBy_kept

theorem State.linkRead_kept {ms : List Part} {s₀ s : State} (hm : [.fault, .step, .dev, .regul, .clock] ⊆ ms) (hs : Kept ms s₀ s) (q : Requester) (a : ErrSrc) (src n off lines fails : Nat) : Kept ms s₀ (State.linkRead s q a src n off lines fails).2.2 := by
  unfold State.linkRead
  repeat' first | exact List.Subset.trans (by decide) hm | intro _ | with_reducible assumption | dsimp only | with_reducible apply Kept.ite | with_reducible apply State.linkTrouble_kept | with_reducible apply State.regionRead_kept | split | with_reducible refine Kept.pair (by assumption) ?_ | with_reducible refine Kept.triple (by assumption) ?_

theorem State.linkWrite_kept {ms : List Part} {s₀ s : State} (hm : [.mem, .wcb, .fault, .step, .dev, .regul, .clock] ⊆ ms) (hs : Kept ms s₀ s) (q : Requester) (a : ErrSrc) (src n off : Nat) (data : List LineWrite) (fails : Nat) : Kept ms s₀ (State.linkWrite s q a src n off data fails).2 := by
  unfold State.linkWrite
  repeat' first | exact List.Subset.trans (by decide) hm | intro _ | with_reducible assumption | dsimp only | with_reducible apply Kept.ite | with_reducible apply State.linkTrouble_kept | with_reducible apply State.regionWrite_kept | with_reducible apply State.serveWrite_kept | split | with_reducible refine Kept.pair (by assumption) ?_ | with_reducible refine Kept.triple (by assumption) ?_

theorem State.atomicCore_kept {ms : List Part} {s₀ s : State} (hm : [.mem, .wcb, .fault, .step, .dev] ⊆ ms) (hs : Kept ms s₀ s) (a : ErrSrc) (bsu : Bool) (x : LineLoc) (b form : Nat) (op : Nat) : Kept ms s₀ (State.atomicCore s a bsu x b form op).2 := by
  unfold State.atomicCore
  repeat' first | exact List.Subset.trans (by decide) hm | with_reducible assumption | dsimp only | with_reducible apply Kept.ite | with_reducible apply State.countCorr_kept | with_reducible apply State.noteLine_kept | with_reducible apply State.perf_kept | with_reducible apply State.poisonBy_kept | with_reducible apply State.setBsu_kept | with_reducible apply State.writeLine_kept | split

theorem State.chargeAtomic_kept {ms : List Part} {s₀ s : State} (hm : [.regul, .clock] ⊆ ms) (hs : Kept ms s₀ s) (src : Nat) (bsu ret : Bool) (x : LineLoc) : Kept ms s₀ (State.chargeAtomic s src bsu ret x) := by
  unfold State.chargeAtomic
  repeat' first | exact List.Subset.trans (by decide) hm | intro _ | with_reducible assumption | dsimp only | with_reducible apply Kept.ite | with_reducible apply State.chargeReads_kept | with_reducible apply State.chargeWrites_kept | with_reducible apply State.charge_kept

theorem State.atomicAdd_kept {ms : List Part} {s₀ s : State} (hm : [.mem, .wcb, .fault, .step, .dev, .regul, .clock] ⊆ ms) (hs : Kept ms s₀ s) (a : ErrSrc) (src : Nat) (ret : Bool) (x : LineLoc) (b form : Nat) (op : Nat) : Kept ms s₀ (State.atomicAdd s a src ret x b form op).2 := by
  unfold State.atomicAdd
  repeat' first | exact List.Subset.trans (by decide) hm | intro _ | with_reducible assumption | dsimp only | with_reducible apply Kept.ite | with_reducible apply State.atomicCore_kept | with_reducible apply State.awaitPair_kept | with_reducible apply State.chargeAtomic_kept | with_reducible apply State.openSeq_kept | with_reducible apply State.retire_kept | with_reducible apply State.seenByBsu_kept | with_reducible apply State.setBsu_kept | with_reducible apply State.withRemap_kept | split | with_reducible refine Kept.pair (by assumption) ?_ | with_reducible refine Kept.triple (by assumption) ?_

end Sys2Proof.Machine
end

