-- ==== Sys2Proof/Laws/KeptPorts.lean ====
section
/-! SUPPORT. What the functions of Machine/Ports.lean keep. -/

namespace Sys2Proof.Machine

theorem State.drainTokens_kept {ms : List Part} {s₀ s : State} (hm : [.exch, .out] ⊆ ms) (hs : Kept ms s₀ s) (n : Nat) : Kept ms s₀ (State.drainTokens s n) := by
  unfold State.drainTokens
  dsimp only
  apply State.perf_kept
  exact ⟨hs.queue, hs.uid, hs.zpend, hs.time, hs.sent.trans (List.prefix_append _ _), hs.regs, hs.bytes, hs.shape,
    { hs.same with exch := .inl (hm (by decide)), out := .inl (hm (by decide)) }⟩

theorem State.sendToken_kept {ms : List Part} {s₀ s : State} (hm : [.exch, .out] ⊆ ms) (hs : Kept ms s₀ s) (mask : Nat) (t : Token) : Kept ms s₀ (State.sendToken s mask t) := by
  unfold State.sendToken
  repeat' first | exact List.Subset.trans (by decide) hm | intro _ | with_reducible assumption | dsimp only | with_reducible apply Kept.ite | with_reducible apply State.drainTokens_kept | with_reducible refine Kept.foldl _ ?_ ?_ | with_reducible refine Kept.foldlSnd _ ?_ ?_ | with_reducible refine Kept.foldlTrd _ ?_ ?_ | with_reducible refine Kept.foldlFst _ ?_ ?_ | fail_if_no_progress ((with_reducible apply Kept.upd) <;> first | with_reducible exact Or.inr rfl | exact Or.inl (hm (by decide)) | with_reducible exact id | exact fun h => Seq.ok_upd h | exact fun _ => Seq.idle_ok | exact fun _ => Seq.ok_upd Seq.idle_ok | with_reducible exact Or.inr ⟨rfl, rfl⟩ | exact Or.inr ⟨rfl, rfl, rfl⟩ | skip)

theorem State.takeCredit_kept {ms : List Part} {s₀ s : State} (hm : [.exch, .out] ⊆ ms) (hs : Kept ms s₀ s) (n k : Nat) : Kept ms s₀ (State.takeCredit s n k) := by
  unfold State.takeCredit
  repeat' first | exact List.Subset.trans (by decide) hm | with_reducible assumption | dsimp only | with_reducible apply Kept.ite | with_reducible apply State.drainTokens_kept | fail_if_no_progress ((with_reducible apply Kept.upd) <;> first | with_reducible exact Or.inr rfl | exact Or.inl (hm (by decide)) | with_reducible exact id | exact fun h => Seq.ok_upd h | exact fun _ => Seq.idle_ok | exact fun _ => Seq.ok_upd Seq.idle_ok | with_reducible exact Or.inr ⟨rfl, rfl⟩ | exact Or.inr ⟨rfl, rfl, rfl⟩ | skip)

theorem execHostRegionRd_kept {ms : List Part} {s₀ s s' : State} (hm : [.fault, .step, .dev, .regul, .clock, .out] ⊆ ms) (hs : Kept ms s₀ s) (region : BitVec 6) (offset : BitVec 42) (lines : Linked Nat) (he : execHostRegionRd region offset lines s = .next s') : Kept ms s₀ s' := by
  unfold execHostRegionRd at he
  (try dsimp only at he)
  (repeat' split at he) <;> (try cases he) <;> (repeat' first | exact List.Subset.trans (by decide) hm | intro _ | with_reducible assumption | dsimp only | with_reducible apply Kept.ite | with_reducible apply State.emit_kept | with_reducible apply State.linkRead_kept | split | with_reducible refine Kept.pair (by assumption) ?_ | with_reducible refine Kept.triple (by assumption) ?_)

theorem execHostRegionWr_kept {ms : List Part} {s₀ s s' : State} (hm : [.mem, .wcb, .fault, .step, .dev, .regul, .clock, .out] ⊆ ms) (hs : Kept ms s₀ s) (region : BitVec 6) (offset : BitVec 42) (data : Linked (List LineWrite)) (he : execHostRegionWr region offset data s = .next s') : Kept ms s₀ s' := by
  unfold execHostRegionWr at he
  (try dsimp only at he)
  (repeat' split at he) <;> (try cases he) <;> (repeat' first | exact List.Subset.trans (by decide) hm | intro _ | with_reducible assumption | dsimp only | with_reducible apply Kept.ite | with_reducible apply State.emit_kept | with_reducible apply State.linkWrite_kept | split | with_reducible refine Kept.pair (by assumption) ?_ | with_reducible refine Kept.triple (by assumption) ?_)

theorem execEngineRd_kept {ms : List Part} {s₀ s s' : State} (hm : [.fault, .step, .dev, .regul, .clock, .out] ⊆ ms) (hs : Kept ms s₀ s) (port : BitVec 3) (engine : BitVec 4) (region : BitVec 6) (offset : BitVec 42) (lines : Nat) (linkFails : Nat) (he : execEngineRd port engine region offset lines linkFails s = .next s') : Kept ms s₀ s' := by
  unfold execEngineRd at he
  (try dsimp only at he)
  (repeat' split at he) <;> (try cases he) <;> (repeat' first | exact List.Subset.trans (by decide) hm | intro _ | with_reducible assumption | dsimp only | with_reducible apply Kept.ite | with_reducible apply State.emit_kept | with_reducible apply State.linkRead_kept | split | with_reducible refine Kept.pair (by assumption) ?_ | with_reducible refine Kept.triple (by assumption) ?_)

theorem execEngineWr_kept {ms : List Part} {s₀ s s' : State} (hm : [.mem, .wcb, .fault, .step, .dev, .regul, .clock, .out] ⊆ ms) (hs : Kept ms s₀ s) (port : BitVec 3) (engine : BitVec 4) (region : BitVec 6) (offset : BitVec 42) (data : List LineWrite) (linkFails : Nat) (he : execEngineWr port engine region offset data linkFails s = .next s') : Kept ms s₀ s' := by
  unfold execEngineWr at he
  (try dsimp only at he)
  (repeat' split at he) <;> (try cases he) <;> (repeat' first | exact List.Subset.trans (by decide) hm | intro _ | with_reducible assumption | dsimp only | with_reducible apply Kept.ite | with_reducible apply State.emit_kept | with_reducible apply State.linkWrite_kept | split | with_reducible refine Kept.pair (by assumption) ?_ | with_reducible refine Kept.triple (by assumption) ?_)

theorem execEngineAadd_kept {ms : List Part} {s₀ s s' : State} (hm : [.mem, .wcb, .fault, .step, .dev, .regul, .clock, .out] ⊆ ms) (hs : Kept ms s₀ s) (port : BitVec 3) (engine : BitVec 4) (region : BitVec 6) (offset : BitVec 42) (form : BitVec 2) (operand : DWord) (ret : Bool) (he : execEngineAadd port engine region offset form operand ret s = .next s') : Kept ms s₀ s' := by
  unfold execEngineAadd at he
  (try dsimp only at he)
  (repeat' split at he) <;> (try cases he) <;> (repeat' first | exact List.Subset.trans (by decide) hm | intro _ | with_reducible assumption | dsimp only | with_reducible apply Kept.ite | with_reducible apply State.answer_kept | with_reducible apply State.atomicAdd_kept | with_reducible apply State.emit_kept | with_reducible apply State.refuseAccess_kept | split | with_reducible refine Kept.pair (by assumption) ?_ | with_reducible refine Kept.triple (by assumption) ?_)

theorem execKend_kept {ms : List Part} {s₀ s s' : State} (hm : [.out] ⊆ ms) (hs : Kept ms s₀ s) (port : BitVec 3) (engine : BitVec 4) (he : execKend port engine s = .next s') : Kept ms s₀ s' := by
  unfold execKend at he
  (try dsimp only at he)
  (repeat' split at he) <;> (try cases he) <;> (repeat' first | exact List.Subset.trans (by decide) hm | with_reducible assumption | dsimp only | with_reducible apply Kept.ite | with_reducible apply State.emit_kept)

theorem execEngineTokenCredit_kept {ms : List Part} {s₀ s s' : State} (hm : [.exch, .out] ⊆ ms) (hs : Kept ms s₀ s) (port : BitVec 3) (n : BitVec 7) (he : execEngineTokenCredit port n s = .next s') : Kept ms s₀ s' := by
  unfold execEngineTokenCredit at he
  (try dsimp only at he)
  (repeat' split at he) <;> (try cases he) <;> (repeat' first | exact List.Subset.trans (by decide) hm | with_reducible assumption | dsimp only | with_reducible apply Kept.ite | with_reducible apply State.takeCredit_kept)

theorem State.entryWrite_kept {ms : List Part} {s₀ s : State} (hm : [.req] ⊆ ms) (hs : Kept ms s₀ s) (n w v : Nat) : Kept ms s₀ (State.entryWrite s n w v) := by
  unfold State.entryWrite
  repeat' first | exact List.Subset.trans (by decide) hm | intro _ | with_reducible assumption | dsimp only | with_reducible apply Kept.ite | with_reducible apply State.writeEntry_kept

theorem execInit_kept {ms : List Part} {s₀ s s' : State} (hm : [.mem, .wcb, .regul, .req, .clock] ⊆ ms) (hs : Kept ms s₀ s) (entry : BitVec 6) (he : execInit entry s = .next s') : Kept ms s₀ s' := by
  unfold execInit at he
  (try dsimp only at he)
  (repeat' split at he) <;> (try cases he) <;> (repeat' first | exact List.Subset.trans (by decide) hm | intro _ | with_reducible assumption | dsimp only | with_reducible apply Kept.ite | with_reducible apply State.charge_kept | with_reducible apply State.initRegion_kept | split | with_reducible refine Kept.pair (by assumption) ?_ | with_reducible refine Kept.triple (by assumption) ?_ | fail_if_no_progress ((with_reducible apply Kept.upd) <;> first | with_reducible exact Or.inr rfl | exact Or.inl (hm (by decide)) | with_reducible exact id | exact fun h => Seq.ok_upd h | exact fun _ => Seq.idle_ok | exact fun _ => Seq.ok_upd Seq.idle_ok | with_reducible exact Or.inr ⟨rfl, rfl⟩ | exact Or.inr ⟨rfl, rfl, rfl⟩ | skip))

theorem execInitDone_kept {ms : List Part} {s₀ s s' : State} (hm : [.req] ⊆ ms) (hs : Kept ms s₀ s) (entry : BitVec 6) (he : execInitDone entry s = .next s') : Kept ms s₀ s' := by
  unfold execInitDone at he
  (try dsimp only at he)
  (repeat' split at he) <;> (try cases he) <;> (repeat' first | exact List.Subset.trans (by decide) hm | intro _ | with_reducible assumption | dsimp only | with_reducible apply Kept.ite | with_reducible apply State.setFlag_kept | with_reducible apply State.setInitPending_kept | fail_if_no_progress ((with_reducible apply Kept.upd) <;> first | with_reducible exact Or.inr rfl | exact Or.inl (hm (by decide)) | with_reducible exact id | exact fun h => Seq.ok_upd h | exact fun _ => Seq.idle_ok | exact fun _ => Seq.ok_upd Seq.idle_ok | with_reducible exact Or.inr ⟨rfl, rfl⟩ | exact Or.inr ⟨rfl, rfl, rfl⟩ | skip))

theorem execPairLoRead_kept {ms : List Part} {s₀ s s' : State} (hm : [.latch, .out] ⊆ ms) (hs : Kept ms s₀ s) (off : Half) (he : execPairLoRead off s = .next s') : Kept ms s₀ s' := by
  unfold execPairLoRead at he
  (try dsimp only at he)
  (repeat' split at he) <;> (try cases he) <;> (repeat' first | exact List.Subset.trans (by decide) hm | with_reducible assumption | dsimp only | with_reducible apply Kept.ite | with_reducible apply State.cpRead_kept)

end Sys2Proof.Machine
end

