-- ==== Sys2Proof/Laws/KeptSteps.lean ====
section
/-! SUPPORT. What the functions of Machine/Steps.lean keep. -/

namespace Sys2Proof.Machine

theorem State.modPlan_kept {ms : List Part} {s₀ s : State} (hm : [.plan] ⊆ ms) (hs : Kept ms s₀ s) (f : Plan → Plan) : Kept ms s₀ (State.modPlan s f) := by
  unfold State.modPlan
  repeat' first | exact List.Subset.trans (by decide) hm | with_reducible assumption | dsimp only | with_reducible apply Kept.ite | fail_if_no_progress ((with_reducible apply Kept.upd) <;> first | with_reducible exact Or.inr rfl | exact Or.inl (hm (by decide)) | with_reducible exact id | exact fun h => Seq.ok_upd h | exact fun _ => Seq.idle_ok | exact fun _ => Seq.ok_upd Seq.idle_ok | with_reducible exact Or.inr ⟨rfl, rfl⟩ | exact Or.inr ⟨rfl, rfl, rfl⟩ | skip)

theorem State.patchImage_kept {ms : List Part} {s₀ s : State} (hm : [.mem, .wcb, .fault, .step, .regul, .clock] ⊆ ms) (hs : Kept ms s₀ s) (t i : Nat) (f : List Byte → List Byte) : Kept ms s₀ (State.patchImage s t i f) := by
  unfold State.patchImage
  repeat' first | exact List.Subset.trans (by decide) hm | intro _ | with_reducible assumption | dsimp only | with_reducible apply Kept.ite | with_reducible apply State.chargeWrites_kept | with_reducible apply State.writeLine_kept | split | with_reducible refine Kept.pair (by assumption) ?_ | with_reducible refine Kept.triple (by assumption) ?_

theorem State.modGroup_kept {ms : List Part} {s₀ s : State} (hm : [.mem, .wcb, .fault, .plan, .step, .regul, .clock] ⊆ ms) (hs : Kept ms s₀ s) (g : Nat) (f : Group → Group) : Kept ms s₀ (State.modGroup s g f) := by
  unfold State.modGroup
  repeat' first | exact List.Subset.trans (by decide) hm | intro _ | with_reducible assumption | dsimp only | with_reducible apply Kept.ite | with_reducible apply State.modPlan_kept | with_reducible apply State.patchImage_kept | split

theorem State.modShard_kept {ms : List Part} {s₀ s : State} (hm : [.mem, .wcb, .fault, .plan, .step, .regul, .clock] ⊆ ms) (hs : Kept ms s₀ s) (h : Nat) (f : Shard → Shard) : Kept ms s₀ (State.modShard s h f) := by
  unfold State.modShard
  repeat' first | exact List.Subset.trans (by decide) hm | intro _ | with_reducible assumption | dsimp only | with_reducible apply Kept.ite | with_reducible apply State.modPlan_kept | with_reducible apply State.patchImage_kept | split

theorem State.modLayer_kept {ms : List Part} {s₀ s : State} (hm : [.mem, .wcb, .fault, .plan, .step, .regul, .clock] ⊆ ms) (hs : Kept ms s₀ s) (l : Nat) (f : Layer → Layer) : Kept ms s₀ (State.modLayer s l f) := by
  unfold State.modLayer
  repeat' first | exact List.Subset.trans (by decide) hm | intro _ | with_reducible assumption | dsimp only | with_reducible apply Kept.ite | with_reducible apply State.modPlan_kept | with_reducible apply State.patchImage_kept | split

theorem State.patchAll_kept {ms : List Part} {s₀ s : State} (hm : [.mem, .wcb, .fault, .plan, .step, .regul, .clock] ⊆ ms) (hs : Kept ms s₀ s)  : Kept ms s₀ (State.patchAll s) := by
  unfold State.patchAll
  repeat' first | exact List.Subset.trans (by decide) hm | intro _ | with_reducible assumption | dsimp only | with_reducible apply Kept.ite | with_reducible apply State.modGroup_kept | with_reducible apply State.modLayer_kept | with_reducible apply State.modShard_kept | dsimp only [id] | with_reducible refine Kept.foldl _ ?_ ?_ | with_reducible refine Kept.foldlSnd _ ?_ ?_ | with_reducible refine Kept.foldlTrd _ ?_ ?_ | with_reducible refine Kept.foldlFst _ ?_ ?_ | split

theorem State.modSeal_kept {ms : List Part} {s₀ s : State} (hm : [.step] ⊆ ms) (hs : Kept ms s₀ s) (f : LocalSeal → LocalSeal) : Kept ms s₀ (State.modSeal s f) := by
  unfold State.modSeal
  repeat' first | exact List.Subset.trans (by decide) hm | intro _ | with_reducible assumption | dsimp only | with_reducible apply Kept.ite | with_reducible apply State.modStep_kept

theorem State.modExch_kept {ms : List Part} {s₀ s : State} (hm : [.exch] ⊆ ms) (hs : Kept ms s₀ s) (f : Exchange → Exchange) : Kept ms s₀ (State.modExch s f) := by
  unfold State.modExch
  repeat' first | exact List.Subset.trans (by decide) hm | with_reducible assumption | dsimp only | with_reducible apply Kept.ite | fail_if_no_progress ((with_reducible apply Kept.upd) <;> first | with_reducible exact Or.inr rfl | exact Or.inl (hm (by decide)) | with_reducible exact id | exact fun h => Seq.ok_upd h | exact fun _ => Seq.idle_ok | exact fun _ => Seq.ok_upd Seq.idle_ok | with_reducible exact Or.inr ⟨rfl, rfl⟩ | exact Or.inr ⟨rfl, rfl, rfl⟩ | skip)

theorem State.modLog_kept {ms : List Part} {s₀ s : State} (hm : [.log] ⊆ ms) (hs : Kept ms s₀ s) (f : StepLog → StepLog) : Kept ms s₀ (State.modLog s f) := by
  unfold State.modLog
  repeat' first | exact List.Subset.trans (by decide) hm | with_reducible assumption | dsimp only | with_reducible apply Kept.ite | fail_if_no_progress ((with_reducible apply Kept.upd) <;> first | with_reducible exact Or.inr rfl | exact Or.inl (hm (by decide)) | with_reducible exact id | exact fun h => Seq.ok_upd h | exact fun _ => Seq.idle_ok | exact fun _ => Seq.ok_upd Seq.idle_ok | with_reducible exact Or.inr ⟨rfl, rfl⟩ | exact Or.inr ⟨rfl, rfl, rfl⟩ | skip)

theorem State.orFlags_kept {ms : List Part} {s₀ s : State} (hm : [.mem, .wcb, .fault, .plan, .step, .regul, .clock] ⊆ ms) (hs : Kept ms s₀ s) (g : Nat) (f : Flags) : Kept ms s₀ (State.orFlags s g f) := by
  unfold State.orFlags
  repeat' first | exact List.Subset.trans (by decide) hm | intro _ | with_reducible assumption | dsimp only | with_reducible apply Kept.ite | with_reducible apply State.modGroup_kept

theorem State.tbldSeq_kept {ms : List Part} {s₀ s : State} (hm : [.wcb, .step, .dev, .regul, .clock] ⊆ ms) (hs : Kept ms s₀ s) (d c k n : Nat) (f : Bsu → Bsu) : Kept ms s₀ (State.tbldSeq s d c k n f) := by
  unfold State.tbldSeq
  repeat' first | exact List.Subset.trans (by decide) hm | intro _ | with_reducible assumption | dsimp only | with_reducible apply Kept.ite | with_reducible apply State.charge_kept | with_reducible apply State.openSeq_kept | with_reducible apply State.setBsu_kept

theorem State.loadSeed_kept {ms : List Part} {s₀ s : State} (hm : [.wcb, .step, .dev, .regul, .clock] ⊆ ms) (hs : Kept ms s₀ s) (d : Nat) (table : List Byte) : Kept ms s₀ (State.loadSeed s d table) := by
  unfold State.loadSeed
  repeat' first | exact List.Subset.trans (by decide) hm | intro _ | with_reducible assumption | dsimp only | with_reducible apply Kept.ite | with_reducible apply State.tbldSeq_kept | with_reducible refine Kept.foldl _ ?_ ?_ | with_reducible refine Kept.foldlSnd _ ?_ ?_ | with_reducible refine Kept.foldlTrd _ ?_ ?_ | with_reducible refine Kept.foldlFst _ ?_ ?_

theorem State.beginWait_kept {ms : List Part} {s₀ s : State} (hm : [.waits] ⊆ ms) (hs : Kept ms s₀ s) (w : Watch) (key : Nat) : Kept ms s₀ (State.beginWait s w key) := by
  unfold State.beginWait
  repeat' first | exact List.Subset.trans (by decide) hm | intro _ | with_reducible assumption | dsimp only | with_reducible apply Kept.ite | fail_if_no_progress ((with_reducible apply Kept.upd) <;> first | with_reducible exact Or.inr rfl | exact Or.inl (hm (by decide)) | with_reducible exact id | exact fun h => Seq.ok_upd h | exact fun _ => Seq.idle_ok | exact fun _ => Seq.ok_upd Seq.idle_ok | with_reducible exact Or.inr ⟨rfl, rfl⟩ | exact Or.inr ⟨rfl, rfl, rfl⟩ | skip)

theorem State.dropWaits_kept {ms : List Part} {s₀ s : State} (hm : [.waits] ⊆ ms) (hs : Kept ms s₀ s) (p : Waiting → Bool) : Kept ms s₀ (State.dropWaits s p) := by
  unfold State.dropWaits
  repeat' first | exact List.Subset.trans (by decide) hm | intro _ | with_reducible assumption | dsimp only | with_reducible apply Kept.ite | with_reducible apply State.setFlag_kept | fail_if_no_progress ((with_reducible apply Kept.upd) <;> first | with_reducible exact Or.inr rfl | exact Or.inl (hm (by decide)) | with_reducible exact id | exact fun h => Seq.ok_upd h | exact fun _ => Seq.idle_ok | exact fun _ => Seq.ok_upd Seq.idle_ok | with_reducible exact Or.inr ⟨rfl, rfl⟩ | exact Or.inr ⟨rfl, rfl, rfl⟩ | skip)

theorem State.endWait_kept {ms : List Part} {s₀ s : State} (hm : [.waits] ⊆ ms) (hs : Kept ms s₀ s) (w : Watch) (key : Nat) : Kept ms s₀ (State.endWait s w key) := by
  unfold State.endWait
  repeat' first | exact List.Subset.trans (by decide) hm | intro _ | with_reducible assumption | dsimp only | with_reducible apply Kept.ite | with_reducible apply State.dropWaits_kept

theorem State.trap_kept {ms : List Part} {s₀ s : State} (hm : [.seq, .fault, .drawn] ⊆ ms) (hs : Kept ms s₀ s) (cause info : Nat) : Kept ms s₀ (State.trap s cause info) := by
  unfold State.trap
  repeat' first | exact List.Subset.trans (by decide) hm | intro _ | with_reducible assumption | dsimp only | with_reducible apply Kept.ite | with_reducible apply Seq.ok_upd | exact Seq.idle_ok | exact Or.inr (fun _ => ⟨rfl, rfl, rfl⟩) | exact Or.inl (hm (by decide)) | with_reducible apply State.free_kept | with_reducible apply State.holdFor_kept | with_reducible apply State.log__kept | with_reducible apply State.modSeq_kept | with_reducible apply State.raise_kept | with_reducible apply State.set_kept | split | with_reducible refine Kept.pair (by assumption) ?_ | with_reducible refine Kept.triple (by assumption) ?_

theorem State.latchHeader_kept {ms : List Part} {s₀ s : State} (hm : [.step] ⊆ ms) (hs : Kept ms s₀ s)  : Kept ms s₀ (State.latchHeader s) := by
  unfold State.latchHeader
  repeat' first | exact List.Subset.trans (by decide) hm | intro _ | with_reducible assumption | dsimp only | with_reducible apply Kept.ite | with_reducible apply State.modStep_kept

theorem State.startStep_kept {ms : List Part} {s₀ s : State} (hm : [.seqRegs, .seq, .plan, .icache, .step, .tier] ⊆ ms) (hs : Kept ms s₀ s)  : Kept ms s₀ (State.startStep s) := by
  unfold State.startStep
  repeat' first | exact List.Subset.trans (by decide) hm | intro _ | with_reducible assumption | dsimp only | with_reducible apply Kept.ite | with_reducible apply Seq.ok_upd | exact Seq.idle_ok | exact Or.inr (fun _ => ⟨rfl, rfl, rfl⟩) | exact Or.inl (hm (by decide)) | with_reducible apply State.modPlan_kept | with_reducible apply State.set_kept | with_reducible apply State.setFlag_kept | with_reducible apply State.stamp_kept | split | fail_if_no_progress ((with_reducible apply Kept.upd) <;> first | with_reducible exact Or.inr rfl | exact Or.inl (hm (by decide)) | with_reducible exact id | exact fun h => Seq.ok_upd h | exact fun _ => Seq.idle_ok | exact fun _ => Seq.ok_upd Seq.idle_ok | with_reducible exact Or.inr ⟨rfl, rfl⟩ | exact Or.inr ⟨rfl, rfl, rfl⟩ | skip)

theorem State.takeGo_kept {ms : List Part} {s₀ s : State} (hm : [.seqRegs, .seq, .plan, .icache, .step, .tier] ⊆ ms) (hs : Kept ms s₀ s)  : Kept ms s₀ (State.takeGo s) := by
  unfold State.takeGo
  repeat' first | exact List.Subset.trans (by decide) hm | intro _ | with_reducible assumption | dsimp only | with_reducible apply Kept.ite | with_reducible apply State.latchHeader_kept | with_reducible apply State.modStep_kept | with_reducible apply State.setFlag_kept | with_reducible apply State.startStep_kept

theorem State.settleMoved_kept {ms : List Part} {s₀ s : State} (hm : [.dev, .tier] ⊆ ms) (hs : Kept ms s₀ s)  : Kept ms s₀ (State.settleMoved s) := by
  unfold State.settleMoved
  repeat' first | exact List.Subset.trans (by decide) hm | intro _ | with_reducible assumption | dsimp only | with_reducible apply Kept.ite | split | fail_if_no_progress ((with_reducible apply Kept.upd) <;> first | with_reducible exact Or.inr rfl | exact Or.inl (hm (by decide)) | with_reducible exact id | exact fun h => Seq.ok_upd h | exact fun _ => Seq.idle_ok | exact fun _ => Seq.ok_upd Seq.idle_ok | with_reducible exact Or.inr ⟨rfl, rfl⟩ | exact Or.inr ⟨rfl, rfl, rfl⟩ | skip)

theorem State.maybeEmission_kept {ms : List Part} {s₀ s : State} (hs : Kept ms s₀ s)  : Kept ms s₀ (State.maybeEmission s) := by
  unfold State.maybeEmission
  repeat' first | with_reducible assumption | dsimp only | with_reducible apply Kept.ite | with_reducible apply State.set_kept

end Sys2Proof.Machine
end

