-- ==== Sys2Proof/Laws/KeptLog.lean ====
section
/-! SUPPORT. What the functions of Machine/Log.lean keep. -/

namespace Sys2Proof.Machine

theorem State.putBytes_kept {ms : List Part} {s₀ s : State} (hm : [.mem, .wcb, .fault, .step, .dev, .regul, .clock] ⊆ ms) (hs : Kept ms s₀ s) (a : ErrSrc) (w : WriteMode) (e : RegionWords) (off : Nat) (bs : List Byte) : Kept ms s₀ (State.putBytes s a w e off bs).2 := by
  unfold State.putBytes
  repeat' first | exact List.Subset.trans (by decide) hm | intro _ | with_reducible assumption | dsimp only | with_reducible apply Kept.ite | with_reducible apply State.awaitPair_kept | with_reducible apply State.writeLine_kept | with_reducible refine Kept.foldl _ ?_ ?_ | with_reducible refine Kept.foldlSnd _ ?_ ?_ | with_reducible refine Kept.foldlTrd _ ?_ ?_ | with_reducible refine Kept.foldlFst _ ?_ ?_ | split | with_reducible refine Kept.pair (by assumption) ?_ | with_reducible refine Kept.triple (by assumption) ?_

theorem State.storeBytesOk_kept {ms : List Part} {s₀ s : State} (hm : [.mem, .wcb, .fault, .step, .dev, .regul, .clock] ⊆ ms) (hs : Kept ms s₀ s) (a : ErrSrc) (e : RegionWords) (off : Nat) (bs : List Byte) : Kept ms s₀ (State.storeBytesOk s a e off bs).2 := by
  unfold State.storeBytesOk
  repeat' first | exact List.Subset.trans (by decide) hm | intro _ | with_reducible assumption | dsimp only | with_reducible apply Kept.ite | with_reducible apply State.putBytes_kept

theorem State.storeBytes_kept {ms : List Part} {s₀ s : State} (hm : [.mem, .wcb, .fault, .step, .dev, .regul, .clock] ⊆ ms) (hs : Kept ms s₀ s) (a : ErrSrc) (e : RegionWords) (off : Nat) (bs : List Byte) : Kept ms s₀ (State.storeBytes s a e off bs) := by
  unfold State.storeBytes
  repeat' first | exact List.Subset.trans (by decide) hm | with_reducible assumption | dsimp only | with_reducible apply Kept.ite | with_reducible apply State.awaitPair_kept | with_reducible apply State.storeBytesOk_kept

theorem State.fetchBytes_kept {ms : List Part} {s₀ s : State} (hm : [.fault, .step, .dev, .regul, .clock] ⊆ ms) (hs : Kept ms s₀ s) (a : ErrSrc) (e : RegionWords) (off len : Nat) : Kept ms s₀ (State.fetchBytes s a e off len).2.2 := by
  unfold State.fetchBytes
  repeat' first | exact List.Subset.trans (by decide) hm | intro _ | with_reducible assumption | dsimp only | with_reducible apply Kept.ite | with_reducible apply State.fetchLine_kept | with_reducible refine Kept.foldl _ ?_ ?_ | with_reducible refine Kept.foldlSnd _ ?_ ?_

theorem State.putLog_kept {ms : List Part} {s₀ s : State} (hm : [.mem, .wcb, .fault, .step, .dev, .regul, .clock] ⊆ ms) (hs : Kept ms s₀ s) (g : StepLog) (off : Nat) (bs : List Byte) : Kept ms s₀ (State.putLog s g off bs) := by
  unfold State.putLog
  repeat' first | exact List.Subset.trans (by decide) hm | intro _ | with_reducible assumption | dsimp only | with_reducible apply Kept.ite | with_reducible apply State.chargeWrites_kept | with_reducible apply State.putBytes_kept

theorem State.putRecords_kept {ms : List Part} {s₀ s : State} (hm : [.mem, .wcb, .fault, .step, .dev, .regul, .clock] ⊆ ms) (hs : Kept ms s₀ s) (g : StepLog) (at_ last size n : Nat) (rs : List (List Byte)) : Kept ms s₀ (State.putRecords s g at_ last size n rs) := by
  unfold State.putRecords
  repeat' first | exact List.Subset.trans (by decide) hm | intro _ | with_reducible assumption | dsimp only | with_reducible apply Kept.ite | with_reducible apply State.putLog_kept

theorem State.openLog_kept {ms : List Part} {s₀ s : State} (hm : [.mem, .wcb, .fault, .step, .dev, .regul, .log, .clock] ⊆ ms) (hs : Kept ms s₀ s) (g : StepLog) : Kept ms s₀ (State.openLog s g) := by
  unfold State.openLog
  repeat' first | exact List.Subset.trans (by decide) hm | intro _ | with_reducible assumption | dsimp only | with_reducible apply Kept.ite | with_reducible apply State.putLog_kept | with_reducible apply State.putRecords_kept | fail_if_no_progress ((with_reducible apply Kept.upd) <;> first | with_reducible exact Or.inr rfl | exact Or.inl (hm (by decide)) | with_reducible exact id | exact fun h => Seq.ok_upd h | exact fun _ => Seq.idle_ok | exact fun _ => Seq.ok_upd Seq.idle_ok | with_reducible exact Or.inr ⟨rfl, rfl⟩ | exact Or.inr ⟨rfl, rfl, rfl⟩ | skip)

theorem State.putChange_kept {ms : List Part} {s₀ s : State} (hm : [.mem, .wcb, .fault, .step, .dev, .regul, .clock] ⊆ ms) (hs : Kept ms s₀ s) (g h : StepLog) : Kept ms s₀ (State.putChange s g h) := by
  unfold State.putChange
  repeat' first | exact List.Subset.trans (by decide) hm | intro _ | with_reducible assumption | dsimp only | with_reducible apply Kept.ite | with_reducible apply State.putLog_kept | with_reducible apply State.putRecords_kept | with_reducible refine Kept.foldl _ ?_ ?_ | with_reducible refine Kept.foldlSnd _ ?_ ?_ | with_reducible refine Kept.foldlTrd _ ?_ ?_ | with_reducible refine Kept.foldlFst _ ?_ ?_

theorem State.keepLog_kept {ms : List Part} {s₀ s : State} (hm : [.mem, .wcb, .fault, .step, .dev, .regul, .log, .clock] ⊆ ms) (hs : Kept ms s₀ s) (f : StepLog → StepLog) : Kept ms s₀ (State.keepLog s f) := by
  unfold State.keepLog
  repeat' first | exact List.Subset.trans (by decide) hm | intro _ | with_reducible assumption | dsimp only | with_reducible apply Kept.ite | with_reducible apply State.modLog_kept | with_reducible apply State.putChange_kept | split | with_reducible refine Kept.pair (by assumption) ?_ | with_reducible refine Kept.triple (by assumption) ?_

end Sys2Proof.Machine
end

