-- ==== Sys2Proof/Laws/KeptTree.lean ====
section
/-! SUPPORT. What the functions of Machine/Tree.lean keep. -/

namespace Sys2Proof.Machine

theorem State.anyPort_kept {ms : List Part} {s₀ s : State} (hm : [.drawn] ⊆ ms) (hs : Kept ms s₀ s)  : Kept ms s₀ (State.anyPort s).2 := by
  unfold State.anyPort
  repeat' first | exact List.Subset.trans (by decide) hm | intro _ | with_reducible assumption | dsimp only | with_reducible apply Kept.ite | with_reducible apply State.free_kept | split | with_reducible refine Kept.pair (by assumption) ?_ | with_reducible refine Kept.triple (by assumption) ?_

theorem State.send_kept {ms : List Part} {s₀ s : State} (hm : [.out] ⊆ ms) (hs : Kept ms s₀ s) (port kind dst epoch step q role index : Nat) (payload : List Byte) : Kept ms s₀ (State.send s port kind dst epoch step q role index payload) := by
  unfold State.send
  repeat' first | exact List.Subset.trans (by decide) hm | intro _ | with_reducible assumption | dsimp only | with_reducible apply Kept.ite | with_reducible apply State.emit_kept

theorem State.sendTree_kept {ms : List Part} {s₀ s : State} (hm : [.exch, .drawn, .out] ⊆ ms) (hs : Kept ms s₀ s) (kind dst step : Nat) (payload : List Byte) : Kept ms s₀ (State.sendTree s kind dst step payload) := by
  unfold State.sendTree
  repeat' first | exact List.Subset.trans (by decide) hm | intro _ | with_reducible assumption | dsimp only | with_reducible apply Kept.ite | with_reducible apply State.anyPort_kept | with_reducible apply State.modExch_kept | with_reducible apply State.send_kept | split | with_reducible refine Kept.pair (by assumption) ?_ | with_reducible refine Kept.triple (by assumption) ?_

theorem State.sendHeld_kept {ms : List Part} {s₀ s : State} (hm : [.exch, .drawn, .out] ⊆ ms) (hs : Kept ms s₀ s)  : Kept ms s₀ (State.sendHeld s) := by
  unfold State.sendHeld
  repeat' first | exact List.Subset.trans (by decide) hm | intro _ | with_reducible assumption | dsimp only | with_reducible apply Kept.ite | with_reducible apply State.modExch_kept | with_reducible apply State.sendTree_kept | with_reducible refine Kept.foldl _ ?_ ?_ | with_reducible refine Kept.foldlSnd _ ?_ ?_ | with_reducible refine Kept.foldlTrd _ ?_ ?_ | with_reducible refine Kept.foldlFst _ ?_ ?_

theorem State.seqDone_kept {ms : List Part} {s₀ s : State} (hm : [.seq] ⊆ ms) (hs : Kept ms s₀ s)  : Kept ms s₀ (State.seqDone s) := by
  unfold State.seqDone
  repeat' first | exact List.Subset.trans (by decide) hm | intro _ | with_reducible assumption | dsimp only | with_reducible apply Kept.ite | with_reducible apply Seq.ok_upd | exact Seq.idle_ok | exact Or.inr (fun _ => ⟨rfl, rfl, rfl⟩) | exact Or.inl (hm (by decide)) | with_reducible apply State.modSeq_kept

theorem State.openVerdict_kept {ms : List Part} {s₀ s : State} (hm : [.seq, .mem, .wcb, .fault, .step, .dev, .regul, .log, .waits, .clock] ⊆ ms) (hs : Kept ms s₀ s) (b : List Byte) : Kept ms s₀ (State.openVerdict s b) := by
  unfold State.openVerdict
  repeat' first | exact List.Subset.trans (by decide) hm | intro _ | with_reducible assumption | dsimp only | with_reducible apply Kept.ite | with_reducible apply Seq.ok_upd | exact Seq.idle_ok | exact Or.inr (fun _ => ⟨rfl, rfl, rfl⟩) | exact Or.inl (hm (by decide)) | with_reducible apply State.endWait_kept | with_reducible apply State.modSeq_kept | with_reducible apply State.openLog_kept | with_reducible apply State.raise_kept | with_reducible apply State.seqDone_kept | with_reducible apply State.set_kept | with_reducible apply State.stamp_kept | split | with_reducible refine Kept.pair (by assumption) ?_ | with_reducible refine Kept.triple (by assumption) ?_

theorem State.clipConstants_kept {ms : List Part} {s₀ s : State} (hm : [.mem, .wcb, .fault, .plan, .step, .regul, .clock] ⊆ ms) (hs : Kept ms s₀ s) (normsq : List DWord) : Kept ms s₀ (State.clipConstants s normsq) := by
  unfold State.clipConstants
  repeat' first | exact List.Subset.trans (by decide) hm | intro _ | with_reducible assumption | dsimp only | with_reducible apply Kept.ite | with_reducible apply State.modGroup_kept | with_reducible apply State.modStep_kept | with_reducible refine Kept.foldl _ ?_ ?_

theorem State.sealVerdict_kept {ms : List Part} {s₀ s : State} (hm : [.seq, .mem, .wcb, .fault, .plan, .step, .dev, .regul, .tier, .log, .waits, .clock] ⊆ ms) (hs : Kept ms s₀ s) (b : List Byte) : Kept ms s₀ (State.sealVerdict s b) := by
  unfold State.sealVerdict
  repeat' first | exact List.Subset.trans (by decide) hm | intro _ | with_reducible assumption | dsimp only | with_reducible apply Kept.ite | with_reducible apply Seq.ok_upd | exact Seq.idle_ok | exact Or.inr (fun _ => ⟨rfl, rfl, rfl⟩) | exact Or.inl (hm (by decide)) | with_reducible apply State.clipConstants_kept | with_reducible apply State.endWait_kept | with_reducible apply State.keepLog_kept | with_reducible apply State.modSeq_kept | with_reducible apply State.modStep_kept | with_reducible apply State.raise_kept | with_reducible apply State.seqDone_kept | with_reducible apply State.set64_kept | with_reducible apply State.set_kept | with_reducible apply State.settleMoved_kept | with_reducible apply State.stamp_kept | with_reducible refine Kept.foldl _ ?_ ?_ | with_reducible refine Kept.foldlSnd _ ?_ ?_ | with_reducible refine Kept.foldlTrd _ ?_ ?_ | with_reducible refine Kept.foldlFst _ ?_ ?_

theorem State.releaseGo_kept {ms : List Part} {s₀ s : State} (hm : [.seqRegs, .seq, .plan, .icache, .step, .tier] ⊆ ms) (hs : Kept ms s₀ s)  : Kept ms s₀ (State.releaseGo s) := by
  unfold State.releaseGo
  repeat' first | exact List.Subset.trans (by decide) hm | with_reducible assumption | dsimp only | with_reducible apply Kept.ite | with_reducible apply State.startStep_kept

theorem State.countDone_kept {ms : List Part} {s₀ s : State} (hm : [.seqRegs, .seq, .mem, .wcb, .fault, .plan, .icache, .step, .exch, .dev, .regul, .tier, .clock] ⊆ ms) (hs : Kept ms s₀ s) (b : List Byte) : Kept ms s₀ (State.countDone s b) := by
  unfold State.countDone
  repeat' first | exact List.Subset.trans (by decide) hm | intro _ | with_reducible assumption | dsimp only | with_reducible apply Kept.ite | with_reducible apply State.chargeWrites_kept | with_reducible apply State.modExch_kept | with_reducible apply State.raise_kept | with_reducible apply State.releaseGo_kept | with_reducible apply State.setFlag_kept | with_reducible apply State.storeBytes_kept | split

theorem State.evaluate_kept {ms : List Part} {s₀ s : State} (hm : [.seqRegs, .seq, .mem, .wcb, .fault, .plan, .icache, .step, .exch, .dev, .regul, .tier, .log, .waits, .clock] ⊆ ms) (hs : Kept ms s₀ s) (kind : Nat) (b : List Byte) : Kept ms s₀ (State.evaluate s kind b) := by
  unfold State.evaluate
  repeat' first | exact List.Subset.trans (by decide) hm | with_reducible assumption | dsimp only | with_reducible apply Kept.ite | with_reducible apply State.countDone_kept | with_reducible apply State.openVerdict_kept | with_reducible apply State.sealVerdict_kept

theorem State.deliver_kept {ms : List Part} {s₀ s : State} (hm : [.seqRegs, .seq, .mem, .wcb, .fault, .plan, .icache, .step, .exch, .dev, .regul, .tier, .log, .waits, .clock, .drawn, .out] ⊆ ms) (hs : Kept ms s₀ s) (kind step : Nat) (b : List Byte) : Kept ms s₀ (State.deliver s kind step b) := by
  unfold State.deliver
  repeat' first | exact List.Subset.trans (by decide) hm | intro _ | with_reducible assumption | dsimp only | with_reducible apply Kept.ite | with_reducible apply State.evaluate_kept | with_reducible apply State.sendTree_kept | with_reducible refine Kept.foldl _ ?_ ?_

theorem State.combine_kept {ms : List Part} {s₀ s : State} (hm : [.seqRegs, .seq, .mem, .wcb, .fault, .plan, .icache, .step, .exch, .dev, .regul, .tier, .log, .waits, .clock, .drawn, .out] ⊆ ms) (hs : Kept ms s₀ s) (kind : Nat) : Kept ms s₀ (State.combine s kind) := by
  unfold State.combine
  repeat' first | exact List.Subset.trans (by decide) hm | intro _ | with_reducible assumption | dsimp only | with_reducible apply Kept.ite | with_reducible apply State.deliver_kept | with_reducible apply State.modExch_kept | with_reducible apply State.sendTree_kept | with_reducible refine Kept.foldl _ ?_ ?_ | with_reducible refine Kept.foldlSnd _ ?_ ?_ | with_reducible refine Kept.foldlTrd _ ?_ ?_ | with_reducible refine Kept.foldlFst _ ?_ ?_ | split

theorem State.postOwn_kept {ms : List Part} {s₀ s : State} (hm : [.seqRegs, .seq, .mem, .wcb, .fault, .plan, .icache, .step, .exch, .dev, .regul, .tier, .log, .waits, .clock, .drawn, .out] ⊆ ms) (hs : Kept ms s₀ s) (kind step : Nat) (b : List Byte) : Kept ms s₀ (State.postOwn s kind step b) := by
  unfold State.postOwn
  repeat' first | exact List.Subset.trans (by decide) hm | intro _ | with_reducible assumption | dsimp only | with_reducible apply Kept.ite | with_reducible apply State.combine_kept | with_reducible apply State.modExch_kept

theorem State.startCount_kept {ms : List Part} {s₀ s : State} (hm : [.seqRegs, .seq, .mem, .wcb, .fault, .plan, .icache, .step, .exch, .dev, .regul, .tier, .log, .waits, .clock, .drawn, .out] ⊆ ms) (hs : Kept ms s₀ s)  : Kept ms s₀ (State.startCount s) := by
  unfold State.startCount
  repeat' first | exact List.Subset.trans (by decide) hm | intro _ | with_reducible assumption | dsimp only | with_reducible apply Kept.ite | with_reducible apply State.chargeReads_kept | with_reducible apply State.fetchBytes_kept | with_reducible apply State.modExch_kept | with_reducible apply State.postOwn_kept | with_reducible apply State.set_kept | with_reducible apply State.setFlag_kept | split | fail_if_no_progress ((with_reducible apply Kept.upd) <;> first | with_reducible exact Or.inr rfl | exact Or.inl (hm (by decide)) | with_reducible exact id | exact fun h => Seq.ok_upd h | exact fun _ => Seq.idle_ok | exact fun _ => Seq.ok_upd Seq.idle_ok | with_reducible exact Or.inr ⟨rfl, rfl⟩ | exact Or.inr ⟨rfl, rfl, rfl⟩ | skip)

theorem State.takeCnt_kept {ms : List Part} {s₀ s : State} (hm : [.seqRegs, .seq, .mem, .wcb, .fault, .plan, .icache, .step, .exch, .dev, .regul, .tier, .log, .waits, .clock, .drawn, .out] ⊆ ms) (hs : Kept ms s₀ s)  : Kept ms s₀ (State.takeCnt s) := by
  unfold State.takeCnt
  repeat' first | exact List.Subset.trans (by decide) hm | intro _ | with_reducible assumption | dsimp only | with_reducible apply Kept.ite | with_reducible apply State.modStep_kept | with_reducible apply State.setFlag_kept | with_reducible apply State.startCount_kept

theorem State.releaseHeld_kept {ms : List Part} {s₀ s : State} (hm : [.seqRegs, .seq, .mem, .wcb, .fault, .plan, .icache, .step, .exch, .dev, .regul, .tier, .log, .waits, .clock, .drawn, .out] ⊆ ms) (hs : Kept ms s₀ s)  : Kept ms s₀ (State.releaseHeld s) := by
  unfold State.releaseHeld
  repeat' first | exact List.Subset.trans (by decide) hm | intro _ | with_reducible assumption | dsimp only | with_reducible apply Kept.ite | with_reducible apply State.modStep_kept | with_reducible apply State.releaseGo_kept | with_reducible apply State.startCount_kept

end Sys2Proof.Machine
end

