-- ==== Sys2Proof/Laws/KeptSequencer.lean ====
section
/-! SUPPORT. What the functions of Machine/Sequencer.lean keep. -/

namespace Sys2Proof.Machine

theorem State.missLine_kept {ms : List Part} {s₀ s : State} (hm : [.icache] ⊆ ms) (hs : Kept ms s₀ s) (n : Nat) : Kept ms s₀ (State.missLine s n) := by
  unfold State.missLine
  repeat' first | exact List.Subset.trans (by decide) hm | with_reducible assumption | dsimp only | with_reducible apply Kept.ite | with_reducible apply State.perf_kept | fail_if_no_progress ((with_reducible apply Kept.upd) <;> first | with_reducible exact Or.inr rfl | exact Or.inl (hm (by decide)) | with_reducible exact id | exact fun h => Seq.ok_upd h | exact fun _ => Seq.idle_ok | exact fun _ => Seq.ok_upd Seq.idle_ok | with_reducible exact Or.inr ⟨rfl, rfl⟩ | exact Or.inr ⟨rfl, rfl, rfl⟩ | skip)

theorem State.sset_kept {ms : List Part} {s₀ s : State} (hm : [.seqRegs, .seq] ⊆ ms) (hs : Kept ms s₀ s) (r : BitVec 4) (v : DWord) : Kept ms s₀ (State.sset s r v) :=
  State.modSeq_kept (List.Subset.trans (by decide) hm) hs _ (fun _ h => ⟨by simpa using h.1, h.2.1, h.2.2.1, h.2.2.2⟩) (.inl (hm (by decide)))

theorem State.aset_kept {ms : List Part} {s₀ s : State} (hm : [.seqRegs, .seq] ⊆ ms) (hs : Kept ms s₀ s) (r : BitVec 3) (v : BitVec 48) : Kept ms s₀ (State.aset s r v) :=
  State.modSeq_kept (List.Subset.trans (by decide) hm) hs _ (fun _ h => ⟨h.1, by simpa using h.2.1, h.2.2.1, h.2.2.2⟩) (.inl (hm (by decide)))

theorem State.pset_kept {ms : List Part} {s₀ s : State} (hm : [.seqRegs, .seq] ⊆ ms) (hs : Kept ms s₀ s) (r : BitVec 3) (v : Bool) : Kept ms s₀ (State.pset s r v) := by
  unfold State.pset
  split
  · exact hs
  · next hr =>
    refine State.modSeq_kept (List.Subset.trans (by decide) hm) hs _ (fun q h => ⟨h.1, h.2.1, by simpa using h.2.2.1, ?_⟩) (.inl (hm (by decide)))
    have hn : r.toNat ≠ 0 := fun e => hr (by apply BitVec.eq_of_toNat_eq; simpa using e)
    have := h.2.2.2
    cases hp : q.p with
    | nil => simp [hp] at this
    | cons a t =>
      cases hm : r.toNat with
      | zero => exact absurd hm hn
      | succ n => simpa [hp] using this

theorem State.settleInsts_kept {ms : List Part} {s₀ s : State} (hm : [.step] ⊆ ms) (hs : Kept ms s₀ s)  : Kept ms s₀ (State.settleInsts s) := by
  unfold State.settleInsts
  repeat' first | exact List.Subset.trans (by decide) hm | intro _ | with_reducible assumption | dsimp only | with_reducible apply Kept.ite | with_reducible apply State.modStep_kept

theorem State.settleWait_kept {ms : List Part} {s₀ s : State} (hm : [.seq, .step] ⊆ ms) (hs : Kept ms s₀ s)  : Kept ms s₀ (State.settleWait s) := by
  unfold State.settleWait
  repeat' first | exact List.Subset.trans (by decide) hm | intro _ | with_reducible assumption | dsimp only | with_reducible apply Kept.ite | with_reducible apply Seq.ok_upd | exact Seq.idle_ok | exact Or.inr (fun _ => ⟨rfl, rfl, rfl⟩) | exact Or.inl (hm (by decide)) | with_reducible apply State.modSeq_kept | with_reducible apply State.seqDone_kept | with_reducible apply State.settleInsts_kept

theorem State.issue_kept {ms : List Part} {s₀ s : State} (hm : [.seq, .fault, .icache, .step, .drawn] ⊆ ms) (hs : Kept ms s₀ s) (i : Instr) (p : Pred) (run : State → State) (hk : ∀ t, Kept ms s₀ t → Kept ms s₀ (run t)) : Kept ms s₀ (State.issue s i p run) := by
  unfold State.issue
  repeat' first | exact List.Subset.trans (by decide) hm | intro _ | with_reducible assumption | dsimp only | with_reducible apply Kept.ite | with_reducible apply Seq.ok_upd | exact Seq.idle_ok | exact Or.inr (fun _ => ⟨rfl, rfl, rfl⟩) | exact Or.inl (hm (by decide)) | with_reducible apply State.missLine_kept | with_reducible apply State.modSeq_kept | with_reducible apply State.seqDone_kept | with_reducible apply State.settleWait_kept | with_reducible apply State.trap_kept | apply hk | split

theorem execIcacheFill_kept {ms : List Part} {s₀ s s' : State} (hm : [.seq, .fault, .icache, .step, .dev, .regul, .clock, .drawn] ⊆ ms) (hs : Kept ms s₀ s)  (he : execIcacheFill s = .next s') : Kept ms s₀ s' := by
  unfold execIcacheFill at he
  (try dsimp only at he)
  (repeat' split at he) <;> (try cases he) <;> (repeat' first | exact List.Subset.trans (by decide) hm | with_reducible assumption | dsimp only | with_reducible apply Kept.ite | with_reducible apply State.chargeReads_kept | with_reducible apply State.fetchLine_kept | with_reducible apply State.trap_kept | split | fail_if_no_progress ((with_reducible apply Kept.upd) <;> first | with_reducible exact Or.inr rfl | exact Or.inl (hm (by decide)) | with_reducible exact id | exact fun h => Seq.ok_upd h | exact fun _ => Seq.idle_ok | exact fun _ => Seq.ok_upd Seq.idle_ok | with_reducible exact Or.inr ⟨rfl, rfl⟩ | exact Or.inr ⟨rfl, rfl, rfl⟩ | skip))

theorem State.jump_kept {ms : List Part} {s₀ s : State} (hm : [.seq] ⊆ ms) (hs : Kept ms s₀ s) (t : Nat) : Kept ms s₀ (State.jump s t) := by
  unfold State.jump
  repeat' first | exact List.Subset.trans (by decide) hm | intro _ | with_reducible assumption | dsimp only | with_reducible apply Kept.ite | with_reducible apply Seq.ok_upd | exact Seq.idle_ok | exact Or.inr (fun _ => ⟨rfl, rfl, rfl⟩) | exact Or.inl (hm (by decide)) | with_reducible apply State.modSeq_kept

theorem execNop_kept {ms : List Part} {s₀ s s' : State} (hm : [.seq, .fault, .icache, .step, .drawn] ⊆ ms) (hs : Kept ms s₀ s) (p : Pred) (he : execNop p s = .next s') : Kept ms s₀ s' := by
  unfold execNop at he
  (try dsimp only at he)
  (repeat' split at he) <;> (try cases he) <;> (repeat' first | exact List.Subset.trans (by decide) hm | intro _ | with_reducible assumption | dsimp only | with_reducible apply Kept.ite | with_reducible apply State.issue_kept | with_reducible apply State.seqDone_kept)

theorem execBr_kept {ms : List Part} {s₀ s s' : State} (hm : [.seq, .fault, .icache, .step, .drawn] ⊆ ms) (hs : Kept ms s₀ s) (p : Pred) (t : Word) (he : execBr p t s = .next s') : Kept ms s₀ s' := by
  unfold execBr at he
  (try dsimp only at he)
  (repeat' split at he) <;> (try cases he) <;> (repeat' first | exact List.Subset.trans (by decide) hm | intro _ | with_reducible assumption | dsimp only | with_reducible apply Kept.ite | with_reducible apply State.issue_kept | with_reducible apply State.jump_kept)

theorem execCall_kept {ms : List Part} {s₀ s s' : State} (hm : [.seq, .fault, .icache, .step, .drawn] ⊆ ms) (hs : Kept ms s₀ s) (p : Pred) (t : Word) (he : execCall p t s = .next s') : Kept ms s₀ s' := by
  unfold execCall at he
  (try dsimp only at he)
  (repeat' split at he) <;> (try cases he) <;> (repeat' first | exact List.Subset.trans (by decide) hm | intro _ | with_reducible assumption | dsimp only | with_reducible apply Kept.ite | with_reducible apply Seq.ok_upd | exact Seq.idle_ok | exact Or.inr (fun _ => ⟨rfl, rfl, rfl⟩) | exact Or.inl (hm (by decide)) | with_reducible apply State.issue_kept | with_reducible apply State.jump_kept | with_reducible apply State.modSeq_kept | with_reducible apply State.trap_kept)

theorem execRet_kept {ms : List Part} {s₀ s s' : State} (hm : [.seq, .fault, .icache, .step, .drawn] ⊆ ms) (hs : Kept ms s₀ s) (p : Pred) (he : execRet p s = .next s') : Kept ms s₀ s' := by
  unfold execRet at he
  (try dsimp only at he)
  (repeat' split at he) <;> (try cases he) <;> (repeat' first | exact List.Subset.trans (by decide) hm | intro _ | with_reducible assumption | dsimp only | with_reducible apply Kept.ite | with_reducible apply Seq.ok_upd | exact Seq.idle_ok | exact Or.inr (fun _ => ⟨rfl, rfl, rfl⟩) | exact Or.inl (hm (by decide)) | with_reducible apply State.issue_kept | with_reducible apply State.modSeq_kept | with_reducible apply State.trap_kept | split)

theorem execJt_kept {ms : List Part} {s₀ s s' : State} (hm : [.seq, .fault, .icache, .step, .drawn] ⊆ ms) (hs : Kept ms s₀ s) (p : Pred) (ra : BitVec 4) (n : Word) (he : execJt p ra n s = .next s') : Kept ms s₀ s' := by
  unfold execJt at he
  (try dsimp only at he)
  (repeat' split at he) <;> (try cases he) <;> (repeat' first | exact List.Subset.trans (by decide) hm | intro _ | with_reducible assumption | dsimp only | with_reducible apply Kept.ite | with_reducible apply State.issue_kept | with_reducible apply State.jump_kept)

theorem execLoop_kept {ms : List Part} {s₀ s s' : State} (hm : [.seqRegs, .seq, .fault, .icache, .step, .drawn] ⊆ ms) (hs : Kept ms s₀ s) (p : Pred) (ra : BitVec 4) (t : Word) (he : execLoop p ra t s = .next s') : Kept ms s₀ s' := by
  unfold execLoop at he
  (try dsimp only at he)
  (repeat' split at he) <;> (try cases he) <;> (repeat' first | exact List.Subset.trans (by decide) hm | intro _ | with_reducible assumption | dsimp only | with_reducible apply Kept.ite | with_reducible apply State.issue_kept | with_reducible apply State.jump_kept | with_reducible apply State.seqDone_kept | with_reducible apply State.sset_kept)

theorem execStepend_kept {ms : List Part} {s₀ s s' : State} (hm : [.seq, .fault, .icache, .step, .drawn] ⊆ ms) (hs : Kept ms s₀ s) (p : Pred) (he : execStepend p s = .next s') : Kept ms s₀ s' := by
  unfold execStepend at he
  (try dsimp only at he)
  (repeat' split at he) <;> (try cases he) <;> (repeat' first | exact List.Subset.trans (by decide) hm | intro _ | with_reducible assumption | dsimp only | with_reducible apply Kept.ite | with_reducible apply Seq.ok_upd | exact Seq.idle_ok | exact Or.inr (fun _ => ⟨rfl, rfl, rfl⟩) | exact Or.inl (hm (by decide)) | with_reducible apply State.issue_kept | with_reducible apply State.modSeq_kept | with_reducible apply State.trap_kept)

theorem State.issueS_kept {ms : List Part} {s₀ s : State} (hm : [.seqRegs, .seq, .fault, .icache, .step, .drawn] ⊆ ms) (hs : Kept ms s₀ s) (i : Instr) (p : Pred) (rd : BitVec 4) (v : State → DWord) : Kept ms s₀ (State.issueS s i p rd v) := by
  unfold State.issueS
  repeat' first | exact List.Subset.trans (by decide) hm | intro _ | with_reducible assumption | dsimp only | with_reducible apply Kept.ite | with_reducible apply State.issue_kept | with_reducible apply State.seqDone_kept | with_reducible apply State.sset_kept

theorem State.issueP_kept {ms : List Part} {s₀ s : State} (hm : [.seqRegs, .seq, .fault, .icache, .step, .drawn] ⊆ ms) (hs : Kept ms s₀ s) (i : Instr) (p : Pred) (pd : BitVec 3) (v : State → Bool) : Kept ms s₀ (State.issueP s i p pd v) := by
  unfold State.issueP
  repeat' first | exact List.Subset.trans (by decide) hm | intro _ | with_reducible assumption | dsimp only | with_reducible apply Kept.ite | with_reducible apply State.issue_kept | with_reducible apply State.pset_kept | with_reducible apply State.seqDone_kept

theorem execLi_kept {ms : List Part} {s₀ s s' : State} (hm : [.seqRegs, .seq, .fault, .icache, .step, .drawn] ⊆ ms) (hs : Kept ms s₀ s) (p : Pred) (rd : BitVec 4) (imm : Word) (he : execLi p rd imm s = .next s') : Kept ms s₀ s' := by
  unfold execLi at he
  (try dsimp only at he)
  (repeat' split at he) <;> (try cases he) <;> (repeat' first | exact List.Subset.trans (by decide) hm | intro _ | with_reducible assumption | dsimp only | with_reducible apply Kept.ite | with_reducible apply State.issueS_kept)

theorem execLhi_kept {ms : List Part} {s₀ s s' : State} (hm : [.seqRegs, .seq, .fault, .icache, .step, .drawn] ⊆ ms) (hs : Kept ms s₀ s) (p : Pred) (rd : BitVec 4) (imm : Word) (he : execLhi p rd imm s = .next s') : Kept ms s₀ s' := by
  unfold execLhi at he
  (try dsimp only at he)
  (repeat' split at he) <;> (try cases he) <;> (repeat' first | exact List.Subset.trans (by decide) hm | intro _ | with_reducible assumption | dsimp only | with_reducible apply Kept.ite | with_reducible apply State.issueS_kept)

theorem execMov_kept {ms : List Part} {s₀ s s' : State} (hm : [.seqRegs, .seq, .fault, .icache, .step, .drawn] ⊆ ms) (hs : Kept ms s₀ s) (p : Pred) (rd ra : BitVec 4) (he : execMov p rd ra s = .next s') : Kept ms s₀ s' := by
  unfold execMov at he
  (try dsimp only at he)
  (repeat' split at he) <;> (try cases he) <;> (repeat' first | exact List.Subset.trans (by decide) hm | intro _ | with_reducible assumption | dsimp only | with_reducible apply Kept.ite | with_reducible apply State.issueS_kept)

theorem execAdd_kept {ms : List Part} {s₀ s s' : State} (hm : [.seqRegs, .seq, .fault, .icache, .step, .drawn] ⊆ ms) (hs : Kept ms s₀ s) (p : Pred) (rd ra rb : BitVec 4) (he : execAdd p rd ra rb s = .next s') : Kept ms s₀ s' := by
  unfold execAdd at he
  (try dsimp only at he)
  (repeat' split at he) <;> (try cases he) <;> (repeat' first | exact List.Subset.trans (by decide) hm | intro _ | with_reducible assumption | dsimp only | with_reducible apply Kept.ite | with_reducible apply State.issueS_kept)

theorem execAddi_kept {ms : List Part} {s₀ s s' : State} (hm : [.seqRegs, .seq, .fault, .icache, .step, .drawn] ⊆ ms) (hs : Kept ms s₀ s) (p : Pred) (rd ra : BitVec 4) (imm : Word) (he : execAddi p rd ra imm s = .next s') : Kept ms s₀ s' := by
  unfold execAddi at he
  (try dsimp only at he)
  (repeat' split at he) <;> (try cases he) <;> (repeat' first | exact List.Subset.trans (by decide) hm | intro _ | with_reducible assumption | dsimp only | with_reducible apply Kept.ite | with_reducible apply State.issueS_kept)

theorem execSub_kept {ms : List Part} {s₀ s s' : State} (hm : [.seqRegs, .seq, .fault, .icache, .step, .drawn] ⊆ ms) (hs : Kept ms s₀ s) (p : Pred) (rd ra rb : BitVec 4) (he : execSub p rd ra rb s = .next s') : Kept ms s₀ s' := by
  unfold execSub at he
  (try dsimp only at he)
  (repeat' split at he) <;> (try cases he) <;> (repeat' first | exact List.Subset.trans (by decide) hm | intro _ | with_reducible assumption | dsimp only | with_reducible apply Kept.ite | with_reducible apply State.issueS_kept)

theorem execMul_kept {ms : List Part} {s₀ s s' : State} (hm : [.seqRegs, .seq, .fault, .icache, .step, .drawn] ⊆ ms) (hs : Kept ms s₀ s) (p : Pred) (rd ra rb : BitVec 4) (he : execMul p rd ra rb s = .next s') : Kept ms s₀ s' := by
  unfold execMul at he
  (try dsimp only at he)
  (repeat' split at he) <;> (try cases he) <;> (repeat' first | exact List.Subset.trans (by decide) hm | intro _ | with_reducible assumption | dsimp only | with_reducible apply Kept.ite | with_reducible apply State.issueS_kept)

theorem execAnd_kept {ms : List Part} {s₀ s s' : State} (hm : [.seqRegs, .seq, .fault, .icache, .step, .drawn] ⊆ ms) (hs : Kept ms s₀ s) (p : Pred) (rd ra rb : BitVec 4) (he : execAnd p rd ra rb s = .next s') : Kept ms s₀ s' := by
  unfold execAnd at he
  (try dsimp only at he)
  (repeat' split at he) <;> (try cases he) <;> (repeat' first | exact List.Subset.trans (by decide) hm | intro _ | with_reducible assumption | dsimp only | with_reducible apply Kept.ite | with_reducible apply State.issueS_kept)

theorem execOr_kept {ms : List Part} {s₀ s s' : State} (hm : [.seqRegs, .seq, .fault, .icache, .step, .drawn] ⊆ ms) (hs : Kept ms s₀ s) (p : Pred) (rd ra rb : BitVec 4) (he : execOr p rd ra rb s = .next s') : Kept ms s₀ s' := by
  unfold execOr at he
  (try dsimp only at he)
  (repeat' split at he) <;> (try cases he) <;> (repeat' first | exact List.Subset.trans (by decide) hm | intro _ | with_reducible assumption | dsimp only | with_reducible apply Kept.ite | with_reducible apply State.issueS_kept)

theorem execXor_kept {ms : List Part} {s₀ s s' : State} (hm : [.seqRegs, .seq, .fault, .icache, .step, .drawn] ⊆ ms) (hs : Kept ms s₀ s) (p : Pred) (rd ra rb : BitVec 4) (he : execXor p rd ra rb s = .next s') : Kept ms s₀ s' := by
  unfold execXor at he
  (try dsimp only at he)
  (repeat' split at he) <;> (try cases he) <;> (repeat' first | exact List.Subset.trans (by decide) hm | intro _ | with_reducible assumption | dsimp only | with_reducible apply Kept.ite | with_reducible apply State.issueS_kept)

theorem execShl_kept {ms : List Part} {s₀ s s' : State} (hm : [.seqRegs, .seq, .fault, .icache, .step, .drawn] ⊆ ms) (hs : Kept ms s₀ s) (p : Pred) (rd ra rb : BitVec 4) (he : execShl p rd ra rb s = .next s') : Kept ms s₀ s' := by
  unfold execShl at he
  (try dsimp only at he)
  (repeat' split at he) <;> (try cases he) <;> (repeat' first | exact List.Subset.trans (by decide) hm | intro _ | with_reducible assumption | dsimp only | with_reducible apply Kept.ite | with_reducible apply State.issueS_kept)

theorem execShr_kept {ms : List Part} {s₀ s s' : State} (hm : [.seqRegs, .seq, .fault, .icache, .step, .drawn] ⊆ ms) (hs : Kept ms s₀ s) (p : Pred) (rd ra rb : BitVec 4) (he : execShr p rd ra rb s = .next s') : Kept ms s₀ s' := by
  unfold execShr at he
  (try dsimp only at he)
  (repeat' split at he) <;> (try cases he) <;> (repeat' first | exact List.Subset.trans (by decide) hm | intro _ | with_reducible assumption | dsimp only | with_reducible apply Kept.ite | with_reducible apply State.issueS_kept)

theorem execShli_kept {ms : List Part} {s₀ s s' : State} (hm : [.seqRegs, .seq, .fault, .icache, .step, .drawn] ⊆ ms) (hs : Kept ms s₀ s) (p : Pred) (rd ra : BitVec 4) (imm : Word) (he : execShli p rd ra imm s = .next s') : Kept ms s₀ s' := by
  unfold execShli at he
  (try dsimp only at he)
  (repeat' split at he) <;> (try cases he) <;> (repeat' first | exact List.Subset.trans (by decide) hm | intro _ | with_reducible assumption | dsimp only | with_reducible apply Kept.ite | with_reducible apply State.issueS_kept)

theorem execShri_kept {ms : List Part} {s₀ s s' : State} (hm : [.seqRegs, .seq, .fault, .icache, .step, .drawn] ⊆ ms) (hs : Kept ms s₀ s) (p : Pred) (rd ra : BitVec 4) (imm : Word) (he : execShri p rd ra imm s = .next s') : Kept ms s₀ s' := by
  unfold execShri at he
  (try dsimp only at he)
  (repeat' split at he) <;> (try cases he) <;> (repeat' first | exact List.Subset.trans (by decide) hm | intro _ | with_reducible assumption | dsimp only | with_reducible apply Kept.ite | with_reducible apply State.issueS_kept)

theorem execCmpeq_kept {ms : List Part} {s₀ s s' : State} (hm : [.seqRegs, .seq, .fault, .icache, .step, .drawn] ⊆ ms) (hs : Kept ms s₀ s) (p : Pred) (pd : BitVec 3) (ra rb : BitVec 4) (he : execCmpeq p pd ra rb s = .next s') : Kept ms s₀ s' := by
  unfold execCmpeq at he
  (try dsimp only at he)
  (repeat' split at he) <;> (try cases he) <;> (repeat' first | exact List.Subset.trans (by decide) hm | intro _ | with_reducible assumption | dsimp only | with_reducible apply Kept.ite | with_reducible apply State.issueP_kept)

theorem execCmpne_kept {ms : List Part} {s₀ s s' : State} (hm : [.seqRegs, .seq, .fault, .icache, .step, .drawn] ⊆ ms) (hs : Kept ms s₀ s) (p : Pred) (pd : BitVec 3) (ra rb : BitVec 4) (he : execCmpne p pd ra rb s = .next s') : Kept ms s₀ s' := by
  unfold execCmpne at he
  (try dsimp only at he)
  (repeat' split at he) <;> (try cases he) <;> (repeat' first | exact List.Subset.trans (by decide) hm | intro _ | with_reducible assumption | dsimp only | with_reducible apply Kept.ite | with_reducible apply State.issueP_kept)

theorem execCmplt_kept {ms : List Part} {s₀ s s' : State} (hm : [.seqRegs, .seq, .fault, .icache, .step, .drawn] ⊆ ms) (hs : Kept ms s₀ s) (p : Pred) (pd : BitVec 3) (ra rb : BitVec 4) (he : execCmplt p pd ra rb s = .next s') : Kept ms s₀ s' := by
  unfold execCmplt at he
  (try dsimp only at he)
  (repeat' split at he) <;> (try cases he) <;> (repeat' first | exact List.Subset.trans (by decide) hm | intro _ | with_reducible assumption | dsimp only | with_reducible apply Kept.ite | with_reducible apply State.issueP_kept)

theorem execCmple_kept {ms : List Part} {s₀ s s' : State} (hm : [.seqRegs, .seq, .fault, .icache, .step, .drawn] ⊆ ms) (hs : Kept ms s₀ s) (p : Pred) (pd : BitVec 3) (ra rb : BitVec 4) (he : execCmple p pd ra rb s = .next s') : Kept ms s₀ s' := by
  unfold execCmple at he
  (try dsimp only at he)
  (repeat' split at he) <;> (try cases he) <;> (repeat' first | exact List.Subset.trans (by decide) hm | intro _ | with_reducible assumption | dsimp only | with_reducible apply Kept.ite | with_reducible apply State.issueP_kept)

theorem execCmpltu_kept {ms : List Part} {s₀ s s' : State} (hm : [.seqRegs, .seq, .fault, .icache, .step, .drawn] ⊆ ms) (hs : Kept ms s₀ s) (p : Pred) (pd : BitVec 3) (ra rb : BitVec 4) (he : execCmpltu p pd ra rb s = .next s') : Kept ms s₀ s' := by
  unfold execCmpltu at he
  (try dsimp only at he)
  (repeat' split at he) <;> (try cases he) <;> (repeat' first | exact List.Subset.trans (by decide) hm | intro _ | with_reducible assumption | dsimp only | with_reducible apply Kept.ite | with_reducible apply State.issueP_kept)

theorem execCmpleu_kept {ms : List Part} {s₀ s s' : State} (hm : [.seqRegs, .seq, .fault, .icache, .step, .drawn] ⊆ ms) (hs : Kept ms s₀ s) (p : Pred) (pd : BitVec 3) (ra rb : BitVec 4) (he : execCmpleu p pd ra rb s = .next s') : Kept ms s₀ s' := by
  unfold execCmpleu at he
  (try dsimp only at he)
  (repeat' split at he) <;> (try cases he) <;> (repeat' first | exact List.Subset.trans (by decide) hm | intro _ | with_reducible assumption | dsimp only | with_reducible apply Kept.ite | with_reducible apply State.issueP_kept)

theorem execCmpeqi_kept {ms : List Part} {s₀ s s' : State} (hm : [.seqRegs, .seq, .fault, .icache, .step, .drawn] ⊆ ms) (hs : Kept ms s₀ s) (p : Pred) (pd : BitVec 3) (ra : BitVec 4) (imm : Word) (he : execCmpeqi p pd ra imm s = .next s') : Kept ms s₀ s' := by
  unfold execCmpeqi at he
  (try dsimp only at he)
  (repeat' split at he) <;> (try cases he) <;> (repeat' first | exact List.Subset.trans (by decide) hm | intro _ | with_reducible assumption | dsimp only | with_reducible apply Kept.ite | with_reducible apply State.issueP_kept)

theorem execCmpltui_kept {ms : List Part} {s₀ s s' : State} (hm : [.seqRegs, .seq, .fault, .icache, .step, .drawn] ⊆ ms) (hs : Kept ms s₀ s) (p : Pred) (pd : BitVec 3) (ra : BitVec 4) (imm : Word) (he : execCmpltui p pd ra imm s = .next s') : Kept ms s₀ s' := by
  unfold execCmpltui at he
  (try dsimp only at he)
  (repeat' split at he) <;> (try cases he) <;> (repeat' first | exact List.Subset.trans (by decide) hm | intro _ | with_reducible assumption | dsimp only | with_reducible apply Kept.ite | with_reducible apply State.issueP_kept)

theorem execPand_kept {ms : List Part} {s₀ s s' : State} (hm : [.seqRegs, .seq, .fault, .icache, .step, .drawn] ⊆ ms) (hs : Kept ms s₀ s) (p : Pred) (pd pa pb : BitVec 3) (he : execPand p pd pa pb s = .next s') : Kept ms s₀ s' := by
  unfold execPand at he
  (try dsimp only at he)
  (repeat' split at he) <;> (try cases he) <;> (repeat' first | exact List.Subset.trans (by decide) hm | intro _ | with_reducible assumption | dsimp only | with_reducible apply Kept.ite | with_reducible apply State.issueP_kept)

theorem execPor_kept {ms : List Part} {s₀ s s' : State} (hm : [.seqRegs, .seq, .fault, .icache, .step, .drawn] ⊆ ms) (hs : Kept ms s₀ s) (p : Pred) (pd pa pb : BitVec 3) (he : execPor p pd pa pb s = .next s') : Kept ms s₀ s' := by
  unfold execPor at he
  (try dsimp only at he)
  (repeat' split at he) <;> (try cases he) <;> (repeat' first | exact List.Subset.trans (by decide) hm | intro _ | with_reducible assumption | dsimp only | with_reducible apply Kept.ite | with_reducible apply State.issueP_kept)

theorem execPnot_kept {ms : List Part} {s₀ s s' : State} (hm : [.seqRegs, .seq, .fault, .icache, .step, .drawn] ⊆ ms) (hs : Kept ms s₀ s) (p : Pred) (pd pa : BitVec 3) (he : execPnot p pd pa s = .next s') : Kept ms s₀ s' := by
  unfold execPnot at he
  (try dsimp only at he)
  (repeat' split at he) <;> (try cases he) <;> (repeat' first | exact List.Subset.trans (by decide) hm | intro _ | with_reducible assumption | dsimp only | with_reducible apply Kept.ite | with_reducible apply State.issueP_kept)

theorem execPmov_kept {ms : List Part} {s₀ s s' : State} (hm : [.seqRegs, .seq, .fault, .icache, .step, .drawn] ⊆ ms) (hs : Kept ms s₀ s) (p : Pred) (rd : BitVec 4) (pa : BitVec 3) (he : execPmov p rd pa s = .next s') : Kept ms s₀ s' := by
  unfold execPmov at he
  (try dsimp only at he)
  (repeat' split at he) <;> (try cases he) <;> (repeat' first | exact List.Subset.trans (by decide) hm | intro _ | with_reducible assumption | dsimp only | with_reducible apply Kept.ite | with_reducible apply State.issueS_kept)

theorem execRdk_kept {ms : List Part} {s₀ s s' : State} (hm : [.seqRegs, .seq, .fault, .icache, .step, .drawn] ⊆ ms) (hs : Kept ms s₀ s) (p : Pred) (rd : BitVec 4) (key : Word) (he : execRdk p rd key s = .next s') : Kept ms s₀ s' := by
  unfold execRdk at he
  (try dsimp only at he)
  (repeat' split at he) <;> (try cases he) <;> (repeat' first | exact List.Subset.trans (by decide) hm | intro _ | with_reducible assumption | dsimp only | with_reducible apply Kept.ite | with_reducible apply State.issueS_kept)

theorem execVdig_kept {ms : List Part} {s₀ s s' : State} (hm : [.seqRegs, .seq, .fault, .icache, .step, .drawn] ⊆ ms) (hs : Kept ms s₀ s) (p : Pred) (rd : BitVec 4) (b : Word) (he : execVdig p rd b s = .next s') : Kept ms s₀ s' := by
  unfold execVdig at he
  (try dsimp only at he)
  (repeat' split at he) <;> (try cases he) <;> (repeat' first | exact List.Subset.trans (by decide) hm | intro _ | with_reducible assumption | dsimp only | with_reducible apply Kept.ite | with_reducible apply State.issueS_kept)

theorem State.issueA_kept {ms : List Part} {s₀ s : State} (hm : [.seqRegs, .seq, .fault, .icache, .step, .drawn] ⊆ ms) (hs : Kept ms s₀ s) (i : Instr) (p : Pred) (ad : BitVec 3) (v : State → BitVec 48) : Kept ms s₀ (State.issueA s i p ad v) := by
  unfold State.issueA
  repeat' first | exact List.Subset.trans (by decide) hm | intro _ | with_reducible assumption | dsimp only | with_reducible apply Kept.ite | with_reducible apply State.aset_kept | with_reducible apply State.issue_kept | with_reducible apply State.seqDone_kept

theorem execLia_kept {ms : List Part} {s₀ s s' : State} (hm : [.seqRegs, .seq, .fault, .icache, .step, .drawn] ⊆ ms) (hs : Kept ms s₀ s) (p : Pred) (ad : BitVec 3) (imm : Word) (he : execLia p ad imm s = .next s') : Kept ms s₀ s' := by
  unfold execLia at he
  (try dsimp only at he)
  (repeat' split at he) <;> (try cases he) <;> (repeat' first | exact List.Subset.trans (by decide) hm | intro _ | with_reducible assumption | dsimp only | with_reducible apply Kept.ite | with_reducible apply State.issueA_kept)

theorem execAddai_kept {ms : List Part} {s₀ s s' : State} (hm : [.seqRegs, .seq, .fault, .icache, .step, .drawn] ⊆ ms) (hs : Kept ms s₀ s) (p : Pred) (ad ar : BitVec 3) (imm : Word) (he : execAddai p ad ar imm s = .next s') : Kept ms s₀ s' := by
  unfold execAddai at he
  (try dsimp only at he)
  (repeat' split at he) <;> (try cases he) <;> (repeat' first | exact List.Subset.trans (by decide) hm | intro _ | with_reducible assumption | dsimp only | with_reducible apply Kept.ite | with_reducible apply State.issueA_kept)

theorem execAdda_kept {ms : List Part} {s₀ s s' : State} (hm : [.seqRegs, .seq, .fault, .icache, .step, .drawn] ⊆ ms) (hs : Kept ms s₀ s) (p : Pred) (ad ar : BitVec 3) (rb : BitVec 4) (he : execAdda p ad ar rb s = .next s') : Kept ms s₀ s' := by
  unfold execAdda at he
  (try dsimp only at he)
  (repeat' split at he) <;> (try cases he) <;> (repeat' first | exact List.Subset.trans (by decide) hm | intro _ | with_reducible assumption | dsimp only | with_reducible apply Kept.ite | with_reducible apply State.issueA_kept)

theorem execSect_kept {ms : List Part} {s₀ s s' : State} (hm : [.seqRegs, .seq, .fault, .icache, .step, .drawn] ⊆ ms) (hs : Kept ms s₀ s) (p : Pred) (ad : BitVec 3) (typ : Word) (he : execSect p ad typ s = .next s') : Kept ms s₀ s' := by
  unfold execSect at he
  (try dsimp only at he)
  (repeat' split at he) <;> (try cases he) <;> (repeat' first | exact List.Subset.trans (by decide) hm | intro _ | with_reducible assumption | dsimp only | with_reducible apply Kept.ite | with_reducible apply State.issueA_kept)

theorem execMova_kept {ms : List Part} {s₀ s s' : State} (hm : [.seqRegs, .seq, .fault, .icache, .step, .drawn] ⊆ ms) (hs : Kept ms s₀ s) (p : Pred) (rd : BitVec 4) (ar : BitVec 3) (he : execMova p rd ar s = .next s') : Kept ms s₀ s' := by
  unfold execMova at he
  (try dsimp only at he)
  (repeat' split at he) <;> (try cases he) <;> (repeat' first | exact List.Subset.trans (by decide) hm | intro _ | with_reducible assumption | dsimp only | with_reducible apply Kept.ite | with_reducible apply State.issueS_kept)

theorem State.seqBytes_kept {ms : List Part} {s₀ s : State} (hm : [.fault, .step, .dev, .regul, .clock] ⊆ ms) (hs : Kept ms s₀ s) (n off len : Nat) : Kept ms s₀ (State.seqBytes s n off len).2.2 := by
  unfold State.seqBytes
  repeat' first | exact List.Subset.trans (by decide) hm | with_reducible assumption | dsimp only | with_reducible apply Kept.ite | with_reducible apply State.chargeReads_kept | with_reducible apply State.fetchBytes_kept

theorem State.seqRead_kept {ms : List Part} {s₀ s : State} (hm : [.fault, .step, .dev, .regul, .clock] ⊆ ms) (hs : Kept ms s₀ s) (n off len : Nat) : Kept ms s₀ (State.seqRead s n off len).2 := by
  unfold State.seqRead
  repeat' first | exact List.Subset.trans (by decide) hm | with_reducible assumption | dsimp only | with_reducible apply Kept.ite | with_reducible apply State.seqBytes_kept

theorem execLd_kept {ms : List Part} {s₀ s s' : State} (hm : [.seqRegs, .seq, .fault, .icache, .step, .dev, .regul, .clock, .drawn] ⊆ ms) (hs : Kept ms s₀ s) (p : Pred) (rd : BitVec 4) (ar : BitVec 3) (sz : BitVec 2) (imm : Word) (he : execLd p rd ar sz imm s = .next s') : Kept ms s₀ s' := by
  unfold execLd at he
  (try dsimp only at he)
  (repeat' split at he) <;> (try cases he) <;> (repeat' first | exact List.Subset.trans (by decide) hm | intro _ | with_reducible assumption | dsimp only | with_reducible apply Kept.ite | with_reducible apply State.issue_kept | with_reducible apply State.seqDone_kept | with_reducible apply State.seqRead_kept | with_reducible apply State.sset_kept | with_reducible apply State.trap_kept)

theorem execLdc_kept {ms : List Part} {s₀ s s' : State} (hm : [.seqRegs, .seq, .fault, .icache, .step, .dev, .regul, .clock, .drawn] ⊆ ms) (hs : Kept ms s₀ s) (p : Pred) (rd : BitVec 4) (ar : BitVec 3) (sz : BitVec 2) (imm : Word) (he : execLdc p rd ar sz imm s = .next s') : Kept ms s₀ s' := by
  unfold execLdc at he
  (try dsimp only at he)
  (repeat' split at he) <;> (try cases he) <;> (repeat' first | exact List.Subset.trans (by decide) hm | intro _ | with_reducible assumption | dsimp only | with_reducible apply Kept.ite | with_reducible apply State.issue_kept | with_reducible apply State.seqDone_kept | with_reducible apply State.seqRead_kept | with_reducible apply State.sset_kept | with_reducible apply State.trap_kept | split | with_reducible refine Kept.pair (by assumption) ?_)

theorem execSt_kept {ms : List Part} {s₀ s s' : State} (hm : [.seq, .mem, .wcb, .fault, .icache, .step, .dev, .regul, .clock, .drawn] ⊆ ms) (hs : Kept ms s₀ s) (p : Pred) (rs : BitVec 4) (ar : BitVec 3) (sz : BitVec 2) (imm : Word) (he : execSt p rs ar sz imm s = .next s') : Kept ms s₀ s' := by
  unfold execSt at he
  (try dsimp only at he)
  (repeat' split at he) <;> (try cases he) <;> (repeat' first | exact List.Subset.trans (by decide) hm | intro _ | with_reducible assumption | dsimp only | with_reducible apply Kept.ite | with_reducible apply State.chargeWrites_kept | with_reducible apply State.issue_kept | with_reducible apply State.seqDone_kept | with_reducible apply State.storeBytes_kept | with_reducible apply State.trap_kept)

theorem State.seqAtomic_kept {ms : List Part} {s₀ s : State} (hm : [.seq, .mem, .wcb, .fault, .step, .dev, .regul, .clock, .drawn] ⊆ ms) (hs : Kept ms s₀ s) (ar : BitVec 3) (imm : Word) (size form op : Nat) : Kept ms s₀ (State.seqAtomic s ar imm size form op) := by
  unfold State.seqAtomic
  repeat' first | exact List.Subset.trans (by decide) hm | intro _ | with_reducible assumption | dsimp only | with_reducible apply Kept.ite | with_reducible apply Seq.ok_upd | exact Seq.idle_ok | exact Or.inr (fun _ => ⟨rfl, rfl, rfl⟩) | exact Or.inl (hm (by decide)) | with_reducible apply State.atomicAdd_kept | with_reducible apply State.modSeq_kept | with_reducible apply State.seqDone_kept | with_reducible apply State.trap_kept | split | with_reducible refine Kept.pair (by assumption) ?_ | with_reducible refine Kept.triple (by assumption) ?_

theorem execAadd_kept {ms : List Part} {s₀ s s' : State} (hm : [.seq, .mem, .wcb, .fault, .icache, .step, .dev, .regul, .clock, .drawn] ⊆ ms) (hs : Kept ms s₀ s) (p : Pred) (rs : BitVec 4) (ar : BitVec 3) (imm : Word) (he : execAadd p rs ar imm s = .next s') : Kept ms s₀ s' := by
  unfold execAadd at he
  (try dsimp only at he)
  (repeat' split at he) <;> (try cases he) <;> (repeat' first | exact List.Subset.trans (by decide) hm | intro _ | with_reducible assumption | dsimp only | with_reducible apply Kept.ite | with_reducible apply State.issue_kept | with_reducible apply State.seqAtomic_kept)

theorem execAaddf_kept {ms : List Part} {s₀ s s' : State} (hm : [.seq, .mem, .wcb, .fault, .icache, .step, .dev, .regul, .clock, .drawn] ⊆ ms) (hs : Kept ms s₀ s) (p : Pred) (rs : BitVec 4) (ar : BitVec 3) (imm : Word) (he : execAaddf p rs ar imm s = .next s') : Kept ms s₀ s' := by
  unfold execAaddf at he
  (try dsimp only at he)
  (repeat' split at he) <;> (try cases he) <;> (repeat' first | exact List.Subset.trans (by decide) hm | intro _ | with_reducible assumption | dsimp only | with_reducible apply Kept.ite | with_reducible apply State.issue_kept | with_reducible apply State.seqAtomic_kept)

theorem execRcr_kept {ms : List Part} {s₀ s s' : State} (hm : [.seqRegs, .seq, .fault, .icache, .step, .drawn] ⊆ ms) (hs : Kept ms s₀ s) (p : Pred) (rd : BitVec 4) (off : Word) (he : execRcr p rd off s = .next s') : Kept ms s₀ s' := by
  unfold execRcr at he
  (try dsimp only at he)
  (repeat' split at he) <;> (try cases he) <;> (repeat' first | exact List.Subset.trans (by decide) hm | intro _ | with_reducible assumption | dsimp only | with_reducible apply Kept.ite | with_reducible apply State.issueS_kept)

theorem execWcr_kept {ms : List Part} {s₀ s s' : State} (hm : [.seq, .fault, .icache, .step, .drawn] ⊆ ms) (hs : Kept ms s₀ s) (p : Pred) (rs : BitVec 4) (off : Word) (he : execWcr p rs off s = .next s') : Kept ms s₀ s' := by
  unfold execWcr at he
  (try dsimp only at he)
  (repeat' split at he) <;> (try cases he) <;> (repeat' first | exact List.Subset.trans (by decide) hm | intro _ | with_reducible assumption | dsimp only | with_reducible apply Kept.ite | with_reducible apply State.issue_kept | with_reducible apply State.seqDone_kept | with_reducible apply State.writeFields_kept)

theorem State.readLists_kept {ms : List Part} {s₀ s : State} (hm : [.seq, .fault, .step, .dev, .regul, .clock, .drawn] ⊆ ms) (hs : Kept ms s₀ s) (p : Plan) (rs : List (Nat × Nat)) (k : State → State) (hk : ∀ t, Kept ms s₀ t → Kept ms s₀ (k t)) : Kept ms s₀ (State.readLists s p rs k) := by
  unfold State.readLists
  repeat' first | exact List.Subset.trans (by decide) hm | intro _ | with_reducible assumption | dsimp only | with_reducible apply Kept.ite | with_reducible apply State.seqBytes_kept | with_reducible apply State.trap_kept | apply hk | with_reducible refine Kept.foldl _ ?_ ?_ | with_reducible refine Kept.foldlSnd _ ?_ ?_ | with_reducible refine Kept.foldlTrd _ ?_ ?_ | with_reducible refine Kept.foldlFst _ ?_ ?_ | split | with_reducible refine Kept.pair (by assumption) ?_ | with_reducible refine Kept.triple (by assumption) ?_

theorem execOpenStep_kept {ms : List Part} {s₀ s s' : State} (hm : [.seqRegs, .seq, .mem, .wcb, .fault, .plan, .icache, .step, .exch, .dev, .regul, .tier, .log, .waits, .clock, .drawn, .out] ⊆ ms) (hs : Kept ms s₀ s) (p : Pred) (he : execOpenStep p s = .next s') : Kept ms s₀ s' := by
  unfold execOpenStep at he
  (try dsimp only at he)
  (repeat' split at he) <;> (try cases he) <;> (repeat' first | exact List.Subset.trans (by decide) hm | intro _ | with_reducible assumption | dsimp only | with_reducible apply Kept.ite | with_reducible apply Seq.ok_upd | exact Seq.idle_ok | exact Or.inr (fun _ => ⟨rfl, rfl, rfl⟩) | exact Or.inl (hm (by decide)) | with_reducible apply State.beginWait_kept | with_reducible apply State.issue_kept | with_reducible apply State.modSeq_kept | with_reducible apply State.openVerdict_kept | with_reducible apply State.postOwn_kept | with_reducible apply State.readLists_kept | with_reducible apply State.trap_kept | split | with_reducible refine Kept.pair (by assumption) ?_ | with_reducible refine Kept.triple (by assumption) ?_)

theorem execSealStep_kept {ms : List Part} {s₀ s s' : State} (hm : [.seq, .fault, .icache, .step, .drawn] ⊆ ms) (hs : Kept ms s₀ s) (p : Pred) (he : execSealStep p s = .next s') : Kept ms s₀ s' := by
  unfold execSealStep at he
  (try dsimp only at he)
  (repeat' split at he) <;> (try cases he) <;> (repeat' first | exact List.Subset.trans (by decide) hm | intro _ | with_reducible assumption | dsimp only | with_reducible apply Kept.ite | with_reducible apply Seq.ok_upd | exact Seq.idle_ok | exact Or.inr (fun _ => ⟨rfl, rfl, rfl⟩) | exact Or.inl (hm (by decide)) | with_reducible apply State.issue_kept | with_reducible apply State.modSeq_kept | with_reducible apply State.trap_kept)

theorem State.readConst_kept {ms : List Part} {s₀ s : State} (hm : [.seq, .fault, .step, .dev, .regul, .clock, .drawn] ⊆ ms) (hs : Kept ms s₀ s) (n off len : Nat) (k : List Byte → State → State) (hk : ∀ a t, Kept ms s₀ t → Kept ms s₀ (k a t)) : Kept ms s₀ (State.readConst s n off len k) := by
  unfold State.readConst
  repeat' first | exact List.Subset.trans (by decide) hm | intro _ | with_reducible assumption | dsimp only | with_reducible apply Kept.ite | with_reducible apply State.seqBytes_kept | with_reducible apply State.trap_kept | apply hk | split | with_reducible refine Kept.pair (by assumption) ?_ | with_reducible refine Kept.triple (by assumption) ?_

theorem State.checkPosts_kept {ms : List Part} {s₀ s : State} (hm : [.step] ⊆ ms) (hs : Kept ms s₀ s) (l : List (Nat × Bool)) : Kept ms s₀ (State.checkPosts s l) := by
  unfold State.checkPosts
  repeat' first | exact List.Subset.trans (by decide) hm | intro _ | with_reducible assumption | dsimp only | with_reducible apply Kept.ite | with_reducible apply State.modStep_kept | with_reducible apply State.setFlag_kept

theorem State.trapNoQ_kept {ms : List Part} {s₀ s : State} (hm : [.seq, .fault, .drawn] ⊆ ms) (hs : Kept ms s₀ s)  : Kept ms s₀ (State.trapNoQ s) := by
  unfold State.trapNoQ
  repeat' first | exact List.Subset.trans (by decide) hm | with_reducible assumption | dsimp only | with_reducible apply Kept.ite | with_reducible apply State.free_kept | with_reducible apply State.trap_kept

theorem execCset_kept {ms : List Part} {s₀ s s' : State} (hm : [.seq, .mem, .wcb, .fault, .icache, .step, .dev, .regul, .log, .clock, .drawn] ⊆ ms) (hs : Kept ms s₀ s) (p : Pred) (ar : BitVec 3) (n : Word) (he : execCset p ar n s = .next s') : Kept ms s₀ s' := by
  unfold execCset at he
  (try dsimp only at he)
  (repeat' split at he) <;> (try cases he) <;> (repeat' first | exact List.Subset.trans (by decide) hm | intro _ | with_reducible assumption | dsimp only | with_reducible apply Kept.ite | with_reducible apply State.checkPosts_kept | with_reducible apply State.issue_kept | with_reducible apply State.keepLog_kept | with_reducible apply State.modStep_kept | with_reducible apply State.readConst_kept | with_reducible apply State.seqDone_kept | with_reducible apply State.trapNoQ_kept | with_reducible apply State.trap_kept | split | with_reducible refine Kept.pair (by assumption) ?_ | with_reducible refine Kept.triple (by assumption) ?_)

theorem State.beginInst_kept {ms : List Part} {s₀ s : State} (hm : [.seq, .fault, .step, .dev, .regul, .clock, .drawn] ⊆ ms) (hs : Kept ms s₀ s) (i : Inst) : Kept ms s₀ (State.beginInst s i) := by
  unfold State.beginInst
  repeat' first | exact List.Subset.trans (by decide) hm | intro _ | with_reducible assumption | dsimp only | with_reducible apply Kept.ite | with_reducible apply State.modStep_kept | with_reducible apply State.readLists_kept | with_reducible apply State.seqDone_kept | with_reducible apply State.settleInsts_kept | split | with_reducible refine Kept.pair (by assumption) ?_ | with_reducible refine Kept.triple (by assumption) ?_

theorem execColl_kept {ms : List Part} {s₀ s s' : State} (hm : [.seq, .fault, .icache, .step, .dev, .regul, .clock, .drawn] ⊆ ms) (hs : Kept ms s₀ s) (p : Pred) (ar : BitVec 3) (q : Word) (he : execColl p ar q s = .next s') : Kept ms s₀ s' := by
  unfold execColl at he
  (try dsimp only at he)
  (repeat' split at he) <;> (try cases he) <;> (repeat' first | exact List.Subset.trans (by decide) hm | intro _ | with_reducible assumption | dsimp only | with_reducible apply Kept.ite | with_reducible apply Seq.ok_upd | exact Seq.idle_ok | exact Or.inr (fun _ => ⟨rfl, rfl, rfl⟩) | exact Or.inl (hm (by decide)) | with_reducible apply State.beginInst_kept | with_reducible apply State.issue_kept | with_reducible apply State.modSeq_kept | with_reducible apply State.readConst_kept | with_reducible apply State.trap_kept)

theorem execCollBegin_kept {ms : List Part} {s₀ s s' : State} (hm : [.seq, .fault, .step, .dev, .regul, .clock, .drawn] ⊆ ms) (hs : Kept ms s₀ s)  (he : execCollBegin s = .next s') : Kept ms s₀ s' := by
  unfold execCollBegin at he
  (try dsimp only at he)
  (repeat' split at he) <;> (try cases he) <;> (repeat' first | exact List.Subset.trans (by decide) hm | with_reducible assumption | dsimp only | with_reducible apply Kept.ite | with_reducible apply State.beginInst_kept | with_reducible apply State.settleInsts_kept)

theorem execCwait_kept {ms : List Part} {s₀ s s' : State} (hm : [.seq, .fault, .icache, .step, .drawn] ⊆ ms) (hs : Kept ms s₀ s) (p : Pred) (q : Word) (he : execCwait p q s = .next s') : Kept ms s₀ s' := by
  unfold execCwait at he
  (try dsimp only at he)
  (repeat' split at he) <;> (try cases he) <;> (repeat' first | exact List.Subset.trans (by decide) hm | intro _ | with_reducible assumption | dsimp only | with_reducible apply Kept.ite | with_reducible apply Seq.ok_upd | exact Seq.idle_ok | exact Or.inr (fun _ => ⟨rfl, rfl, rfl⟩) | exact Or.inl (hm (by decide)) | with_reducible apply State.issue_kept | with_reducible apply State.modSeq_kept | with_reducible apply State.settleWait_kept | with_reducible apply State.trap_kept)

theorem State.post_kept {ms : List Part} {s₀ s : State} (hm : [.step] ⊆ ms) (hs : Kept ms s₀ s) (q : Nat) : Kept ms s₀ (State.post s q) := by
  unfold State.post
  repeat' first | exact List.Subset.trans (by decide) hm | intro _ | with_reducible assumption | dsimp only | with_reducible apply Kept.ite | with_reducible apply State.modStep_kept | with_reducible apply State.setFlag_kept

theorem execCollPost_kept {ms : List Part} {s₀ s s' : State} (hm : [.step] ⊆ ms) (hs : Kept ms s₀ s) (q : Half) (he : execCollPost q s = .next s') : Kept ms s₀ s' := by
  unfold execCollPost at he
  (try dsimp only at he)
  (repeat' split at he) <;> (try cases he) <;> (repeat' first | exact List.Subset.trans (by decide) hm | intro _ | with_reducible assumption | dsimp only | with_reducible apply Kept.ite | with_reducible apply State.onWrite_kept | with_reducible apply State.post_kept)

theorem execCommit_kept {ms : List Part} {s₀ s s' : State} (hm : [.seq, .fault, .icache, .step, .dev, .regul, .clock, .drawn] ⊆ ms) (hs : Kept ms s₀ s) (p : Pred) (he : execCommit p s = .next s') : Kept ms s₀ s' := by
  unfold execCommit at he
  (try dsimp only at he)
  (repeat' split at he) <;> (try cases he) <;> (repeat' first | exact List.Subset.trans (by decide) hm | intro _ | with_reducible assumption | dsimp only | with_reducible apply Kept.ite | with_reducible apply Seq.ok_upd | exact Seq.idle_ok | exact Or.inr (fun _ => ⟨rfl, rfl, rfl⟩) | exact Or.inl (hm (by decide)) | with_reducible apply State.issue_kept | with_reducible apply State.maybeEmission_kept | with_reducible apply State.modSeq_kept | with_reducible apply State.readLists_kept | with_reducible apply State.seqDone_kept | with_reducible apply State.trap_kept | split | with_reducible refine Kept.pair (by assumption) ?_ | with_reducible refine Kept.triple (by assumption) ?_)

theorem execCdone_kept {ms : List Part} {s₀ s s' : State} (hm : [.seq, .fault, .icache, .step, .drawn] ⊆ ms) (hs : Kept ms s₀ s) (p : Pred) (he : execCdone p s = .next s') : Kept ms s₀ s' := by
  unfold execCdone at he
  (try dsimp only at he)
  (repeat' split at he) <;> (try cases he) <;> (repeat' first | exact List.Subset.trans (by decide) hm | intro _ | with_reducible assumption | dsimp only | with_reducible apply Kept.ite | with_reducible apply Seq.ok_upd | exact Seq.idle_ok | exact Or.inr (fun _ => ⟨rfl, rfl, rfl⟩) | exact Or.inl (hm (by decide)) | with_reducible apply State.issue_kept | with_reducible apply State.modSeq_kept | with_reducible apply State.settleWait_kept | with_reducible apply State.trap_kept)

theorem execLwait_kept {ms : List Part} {s₀ s s' : State} (hm : [.seq, .fault, .icache, .step, .drawn] ⊆ ms) (hs : Kept ms s₀ s) (p : Pred) (he : execLwait p s = .next s') : Kept ms s₀ s' := by
  unfold execLwait at he
  (try dsimp only at he)
  (repeat' split at he) <;> (try cases he) <;> (repeat' first | exact List.Subset.trans (by decide) hm | intro _ | with_reducible assumption | dsimp only | with_reducible apply Kept.ite | with_reducible apply Seq.ok_upd | exact Seq.idle_ok | exact Or.inr (fun _ => ⟨rfl, rfl, rfl⟩) | exact Or.inl (hm (by decide)) | with_reducible apply State.issue_kept | with_reducible apply State.modSeq_kept | with_reducible apply State.settleWait_kept | with_reducible apply State.trap_kept)

theorem execBsutab_kept {ms : List Part} {s₀ s s' : State} (hm : [.seq, .wcb, .fault, .icache, .step, .dev, .regul, .clock, .drawn] ⊆ ms) (hs : Kept ms s₀ s) (p : Pred) (ra : BitVec 4) (ar : BitVec 3) (he : execBsutab p ra ar s = .next s') : Kept ms s₀ s' := by
  unfold execBsutab at he
  (try dsimp only at he)
  (repeat' split at he) <;> (try cases he) <;> (repeat' first | exact List.Subset.trans (by decide) hm | intro _ | with_reducible assumption | dsimp only | with_reducible apply Kept.ite | with_reducible apply State.issue_kept | with_reducible apply State.loadSeed_kept | with_reducible apply State.readLists_kept | with_reducible apply State.seqDone_kept | with_reducible apply State.trap_kept | with_reducible refine Kept.foldl _ ?_ ?_ | with_reducible refine Kept.foldlSnd _ ?_ ?_ | with_reducible refine Kept.foldlTrd _ ?_ ?_ | with_reducible refine Kept.foldlFst _ ?_ ?_ | split | with_reducible refine Kept.pair (by assumption) ?_ | with_reducible refine Kept.triple (by assumption) ?_)

theorem execBsust_kept {ms : List Part} {s₀ s s' : State} (hm : [.seqRegs, .seq, .fault, .icache, .step, .dev, .drawn] ⊆ ms) (hs : Kept ms s₀ s) (p : Pred) (rd ra : BitVec 4) (he : execBsust p rd ra s = .next s') : Kept ms s₀ s' := by
  unfold execBsust at he
  (try dsimp only at he)
  (repeat' split at he) <;> (try cases he) <;> (repeat' first | exact List.Subset.trans (by decide) hm | intro _ | with_reducible assumption | dsimp only | with_reducible apply Kept.ite | with_reducible apply State.issue_kept | with_reducible apply State.retire_kept | with_reducible apply State.seqDone_kept | with_reducible apply State.sset_kept | with_reducible apply State.trap_kept)

theorem execFclr_kept {ms : List Part} {s₀ s s' : State} (hm : [.seq, .mem, .wcb, .fault, .plan, .icache, .step, .regul, .clock, .drawn] ⊆ ms) (hs : Kept ms s₀ s) (p : Pred) (ra : BitVec 4) (kind : Word) (he : execFclr p ra kind s = .next s') : Kept ms s₀ s' := by
  unfold execFclr at he
  (try dsimp only at he)
  (repeat' split at he) <;> (try cases he) <;> (repeat' first | exact List.Subset.trans (by decide) hm | intro _ | with_reducible assumption | dsimp only | with_reducible apply Kept.ite | with_reducible apply State.issue_kept | with_reducible apply State.modGroup_kept | with_reducible apply State.modLayer_kept | with_reducible apply State.modShard_kept | with_reducible apply State.seqDone_kept | with_reducible apply State.trap_kept | with_reducible refine Kept.foldl _ ?_ ?_)

theorem execFrd_kept {ms : List Part} {s₀ s s' : State} (hm : [.seqRegs, .seq, .fault, .icache, .step, .drawn] ⊆ ms) (hs : Kept ms s₀ s) (p : Pred) (rd ra : BitVec 4) (he : execFrd p rd ra s = .next s') : Kept ms s₀ s' := by
  unfold execFrd at he
  (try dsimp only at he)
  (repeat' split at he) <;> (try cases he) <;> (repeat' first | exact List.Subset.trans (by decide) hm | intro _ | with_reducible assumption | dsimp only | with_reducible apply Kept.ite | with_reducible apply State.issueS_kept)

theorem State.failMoves_kept {ms : List Part} {s₀ s : State} (hm : [.step, .tier, .waits] ⊆ ms) (hs : Kept ms s₀ s)  : Kept ms s₀ (State.failMoves s) := by
  unfold State.failMoves
  repeat' first | exact List.Subset.trans (by decide) hm | intro _ | with_reducible assumption | dsimp only | with_reducible apply Kept.ite | with_reducible apply State.dropWaits_kept | with_reducible apply State.poison_kept | fail_if_no_progress ((with_reducible apply Kept.upd) <;> first | with_reducible exact Or.inr rfl | exact Or.inl (hm (by decide)) | with_reducible exact id | exact fun h => Seq.ok_upd h | exact fun _ => Seq.idle_ok | exact fun _ => Seq.ok_upd Seq.idle_ok | with_reducible exact Or.inr ⟨rfl, rfl⟩ | exact Or.inr ⟨rfl, rfl, rfl⟩ | skip)

theorem execTmov_kept {ms : List Part} {s₀ s s' : State} (hm : [.seq, .mem, .wcb, .fault, .icache, .step, .dev, .regul, .tier, .log, .waits, .clock, .drawn] ⊆ ms) (hs : Kept ms s₀ s) (p : Pred) (ar : BitVec 3) (n : Word) (he : execTmov p ar n s = .next s') : Kept ms s₀ s' := by
  unfold execTmov at he
  (try dsimp only at he)
  (repeat' split at he) <;> (try cases he) <;> (repeat' first | exact List.Subset.trans (by decide) hm | intro _ | with_reducible assumption | dsimp only | with_reducible apply Kept.ite | with_reducible apply State.failMoves_kept | with_reducible apply State.issue_kept | with_reducible apply State.keepLog_kept | with_reducible apply State.seqBytes_kept | with_reducible apply State.seqDone_kept | with_reducible apply State.trap_kept | split | with_reducible refine Kept.pair (by assumption) ?_ | with_reducible refine Kept.triple (by assumption) ?_ | fail_if_no_progress ((with_reducible apply Kept.upd) <;> first | with_reducible exact Or.inr rfl | exact Or.inl (hm (by decide)) | with_reducible exact id | exact fun h => Seq.ok_upd h | exact fun _ => Seq.idle_ok | exact fun _ => Seq.ok_upd Seq.idle_ok | with_reducible exact Or.inr ⟨rfl, rfl⟩ | exact Or.inr ⟨rfl, rfl, rfl⟩ | skip))

theorem execTwait_kept {ms : List Part} {s₀ s s' : State} (hm : [.seq, .fault, .icache, .step, .drawn] ⊆ ms) (hs : Kept ms s₀ s) (p : Pred) (he : execTwait p s = .next s') : Kept ms s₀ s' := by
  unfold execTwait at he
  (try dsimp only at he)
  (repeat' split at he) <;> (try cases he) <;> (repeat' first | exact List.Subset.trans (by decide) hm | intro _ | with_reducible assumption | dsimp only | with_reducible apply Kept.ite | with_reducible apply Seq.ok_upd | exact Seq.idle_ok | exact Or.inr (fun _ => ⟨rfl, rfl, rfl⟩) | exact Or.inl (hm (by decide)) | with_reducible apply State.issue_kept | with_reducible apply State.modSeq_kept | with_reducible apply State.settleWait_kept)

theorem execRecArm_kept {ms : List Part} {s₀ s s' : State} (hm : [.seq, .fault, .icache, .step, .dev, .regul, .clock, .drawn] ⊆ ms) (hs : Kept ms s₀ s) (p : Pred) (ar : BitVec 3) (n : Word) (he : execRecArm p ar n s = .next s') : Kept ms s₀ s' := by
  unfold execRecArm at he
  (try dsimp only at he)
  (repeat' split at he) <;> (try cases he) <;> (repeat' first | exact List.Subset.trans (by decide) hm | intro _ | with_reducible assumption | dsimp only | with_reducible apply Kept.ite | with_reducible apply State.issue_kept | with_reducible apply State.modStep_kept | with_reducible apply State.seqBytes_kept | with_reducible apply State.seqDone_kept | with_reducible apply State.trap_kept | split | with_reducible refine Kept.pair (by assumption) ?_ | with_reducible refine Kept.triple (by assumption) ?_)

theorem execHsh_kept {ms : List Part} {s₀ s s' : State} (hm : [.seqRegs, .seq, .fault, .icache, .step, .dev, .regul, .clock, .drawn] ⊆ ms) (hs : Kept ms s₀ s) (p : Pred) (rd : BitVec 4) (ar : BitVec 3) (len : Word) (he : execHsh p rd ar len s = .next s') : Kept ms s₀ s' := by
  unfold execHsh at he
  (try dsimp only at he)
  (repeat' split at he) <;> (try cases he) <;> (repeat' first | exact List.Subset.trans (by decide) hm | intro _ | with_reducible assumption | dsimp only | with_reducible apply Kept.ite | with_reducible apply State.issue_kept | with_reducible apply State.seqBytes_kept | with_reducible apply State.seqDone_kept | with_reducible apply State.sset_kept | with_reducible apply State.trap_kept)

theorem execOdig_kept {ms : List Part} {s₀ s s' : State} (hm : [.seqRegs, .seq, .fault, .icache, .step, .drawn] ⊆ ms) (hs : Kept ms s₀ s) (p : Pred) (rd : BitVec 4) (he : execOdig p rd s = .next s') : Kept ms s₀ s' := by
  unfold execOdig at he
  (try dsimp only at he)
  (repeat' split at he) <;> (try cases he) <;> (repeat' first | exact List.Subset.trans (by decide) hm | intro _ | with_reducible assumption | dsimp only | with_reducible apply Kept.ite | with_reducible apply State.issueS_kept)

theorem execDmix_kept {ms : List Part} {s₀ s s' : State} (hm : [.seqRegs, .seq, .fault, .icache, .step, .drawn] ⊆ ms) (hs : Kept ms s₀ s) (p : Pred) (rd ra rb : BitVec 4) (he : execDmix p rd ra rb s = .next s') : Kept ms s₀ s' := by
  unfold execDmix at he
  (try dsimp only at he)
  (repeat' split at he) <;> (try cases he) <;> (repeat' first | exact List.Subset.trans (by decide) hm | intro _ | with_reducible assumption | dsimp only | with_reducible apply Kept.ite | with_reducible apply State.issueS_kept)

end Sys2Proof.Machine
end

