-- ==== Sys2Proof/Laws/KeptArrival.lean ====
section
/-! SUPPORT. What the functions of Machine/Arrival.lean keep. -/

namespace Sys2Proof.Machine

theorem State.modSlot_kept {ms : List Part} {s₀ s : State} (hm : [.step] ⊆ ms) (hs : Kept ms s₀ s) (n : Nat) (f : SlotSt → SlotSt) : Kept ms s₀ (State.modSlot s n f) := by
  unfold State.modSlot
  repeat' first | exact List.Subset.trans (by decide) hm | intro _ | with_reducible assumption | dsimp only | with_reducible apply Kept.ite | with_reducible apply State.modStep_kept

theorem State.modSector_kept {ms : List Part} {s₀ s : State} (hm : [.step] ⊆ ms) (hs : Kept ms s₀ s) (n : Nat) (f : SectorSt → SectorSt) : Kept ms s₀ (State.modSector s n f) := by
  unfold State.modSector
  repeat' first | exact List.Subset.trans (by decide) hm | intro _ | with_reducible assumption | dsimp only | with_reducible apply Kept.ite | with_reducible apply State.modStep_kept

theorem State.imageRow_kept {ms : List Part} {s₀ s : State} (hm : [.mem, .wcb, .fault, .step, .dev, .regul, .log, .clock] ⊆ ms) (hs : Kept ms s₀ s) (x : SectorSt) : Kept ms s₀ (State.imageRow s x) := by
  unfold State.imageRow
  repeat' first | exact List.Subset.trans (by decide) hm | intro _ | with_reducible assumption | dsimp only | with_reducible apply Kept.ite | with_reducible apply State.keepLog_kept | with_reducible apply State.modStep_kept | with_reducible apply State.noteLine_kept | with_reducible apply State.poison_kept | with_reducible apply XAcc.far_kept | split | with_reducible refine Kept.pair (by assumption) ?_ | with_reducible refine Kept.triple (by assumption) ?_

theorem State.slotClosed_kept {ms : List Part} {s₀ s : State} (hm : [.mem, .wcb, .fault, .step, .dev, .regul, .log, .clock] ⊆ ms) (hs : Kept ms s₀ s) (n : Nat) : Kept ms s₀ (State.slotClosed s n) := by
  unfold State.slotClosed
  repeat' first | exact List.Subset.trans (by decide) hm | intro _ | with_reducible assumption | dsimp only | with_reducible apply Kept.ite | with_reducible apply State.imageRow_kept | with_reducible apply State.settleInsts_kept | with_reducible refine Kept.foldl _ ?_ ?_

theorem State.freeWords_kept (n : Nat) {ms : List Part} {s₀ s : State} (hm : [.drawn] ⊆ ms) (hs : Kept ms s₀ s) : Kept ms s₀ (State.freeWords n s).2 := by
  induction n generalizing s with
  | zero => exact hs
  | succ n ih => exact ih (State.free_kept (List.Subset.trans (by decide) hm) hs)

theorem State.addLine_kept {ms : List Part} {s₀ s : State} (hm : [.mem, .wcb, .fault, .step, .drawn] ⊆ ms) (hs : Kept ms s₀ s) (a : ErrSrc) (w : WriteMode) (g16w flush : Bool) (x : LineLoc)
    (vs : List Word) (residueFault : Bool) : Kept ms s₀ (State.addLine s a w g16w flush x vs residueFault).s := by
  unfold State.addLine
  dsimp only
  split
  · repeat' first | with_reducible assumption | dsimp only | exact (List.Subset.trans (by decide) hm) | with_reducible apply State.poisonBy_kept | with_reducible apply State.noteLine_kept
  · dsimp only
    repeat' first | with_reducible assumption | dsimp only | exact (List.Subset.trans (by decide) hm) | with_reducible apply State.writeLine_kept | with_reducible apply Kept.ite | with_reducible apply State.noteLine_kept | with_reducible apply State.freeWords_kept | split

theorem State.addLines_kept (a : ErrSrc) (w : WriteMode) (g16w flush residueFault : Bool) (xs : List LineLoc) {ms : List Part}
    {s₀ : State} (vs : List Word) {r : LineAdd} (hm : [.mem, .wcb, .fault, .step, .drawn] ⊆ ms) (hs : Kept ms s₀ r.s) :
    Kept ms s₀ (State.addLines a w g16w flush residueFault xs vs r).s := by
  induction xs generalizing vs r with
  | nil => exact hs
  | cons x t ih => exact ih _ (State.addLine_kept (List.Subset.trans (by decide) hm) hs _ _ _ _ _ _ _)

theorem State.residueFault_kept {ms : List Part} {s₀ s : State} (hm : [.step] ⊆ ms) (hs : Kept ms s₀ s) (a : ErrSrc) (n : Nat) : Kept ms s₀ (State.residueFault s a n) := by
  unfold State.residueFault
  repeat' first | exact List.Subset.trans (by decide) hm | intro _ | with_reducible assumption | dsimp only | with_reducible apply Kept.ite | with_reducible apply State.bump_kept | with_reducible apply State.log__kept | with_reducible apply State.modSeal_kept

theorem State.addToSector_kept {ms : List Part} {s₀ s : State} (hm : [.mem, .wcb, .fault, .plan, .step, .dev, .regul, .clock, .drawn] ⊆ ms) (hs : Kept ms s₀ s) (x : SectorSt) (vals : List Half) (residueFaults linkFails : Nat) : Kept ms s₀ (State.addToSector s x vals residueFaults linkFails) := by
  unfold State.addToSector
  repeat' first | exact List.Subset.trans (by decide) hm | intro _ | with_reducible assumption | dsimp only | with_reducible apply Kept.ite | with_reducible apply State.addLines_kept | with_reducible apply State.awaitPair_kept | with_reducible apply State.chargeReads_kept | with_reducible apply State.chargeWrites_kept | with_reducible apply State.charge_kept | with_reducible apply State.countCorr_kept | with_reducible apply State.linkTrouble_kept | with_reducible apply State.openSeqRetried_kept | with_reducible apply State.orFlags_kept | with_reducible apply State.perf_kept | with_reducible apply State.residueFault_kept | with_reducible apply State.seenByBsu_kept | with_reducible apply State.setBsu_kept | with_reducible apply State.withRemap_kept | split | with_reducible refine Kept.pair (by assumption) ?_ | with_reducible refine Kept.triple (by assumption) ?_

theorem State.closeRead_kept {ms : List Part} {s₀ s : State} (hm : [.fault, .step, .dev, .regul, .clock] ⊆ ms) (hs : Kept ms s₀ s) (fused : Bool) (red : RowLoc) (xs : List LineLoc) : Kept ms s₀ (State.closeRead s fused red xs).2 := by
  unfold State.closeRead
  repeat' first | exact List.Subset.trans (by decide) hm | intro _ | with_reducible assumption | dsimp only | with_reducible apply Kept.ite | with_reducible apply State.chargeReads_kept | with_reducible apply State.charge_kept | with_reducible apply State.fetchLine_kept | with_reducible apply State.poisonBy_kept | with_reducible refine Kept.foldl _ ?_ ?_ | with_reducible refine Kept.foldlSnd _ ?_ ?_ | with_reducible refine Kept.foldlTrd _ ?_ ?_ | with_reducible refine Kept.foldlFst _ ?_ ?_ | split | with_reducible refine Kept.pair (by assumption) ?_ | with_reducible refine Kept.triple (by assumption) ?_

theorem State.closeSector_kept {ms : List Part} {s₀ s : State} (hm : [.fault, .step, .dev, .regul, .clock, .drawn] ⊆ ms) (hs : Kept ms s₀ s) (n : Nat) (fused : Bool) : Kept ms s₀ (State.closeSector s n fused) := by
  unfold State.closeSector
  repeat' first | exact List.Subset.trans (by decide) hm | intro _ | with_reducible assumption | dsimp only | with_reducible apply Kept.ite | with_reducible apply State.closeRead_kept | with_reducible apply State.free_kept | with_reducible apply State.modSector_kept | with_reducible apply State.poison_kept | split | with_reducible refine Kept.pair (by assumption) ?_ | with_reducible refine Kept.triple (by assumption) ?_

theorem execContribAdd_kept {ms : List Part} {s₀ s s' : State} (hm : [.mem, .wcb, .fault, .plan, .step, .dev, .regul, .log, .clock, .drawn] ⊆ ms) (hs : Kept ms s₀ s) (slot : Linked Word) (residueFaults : Nat) (he : execContribAdd slot residueFaults s = .next s') : Kept ms s₀ s' := by
  unfold execContribAdd at he
  (try dsimp only at he)
  (repeat' split at he) <;> (try cases he) <;> (repeat' first | exact List.Subset.trans (by decide) hm | intro _ | with_reducible assumption | dsimp only | with_reducible apply Kept.ite | with_reducible apply State.addToSector_kept | with_reducible apply State.closeSector_kept | with_reducible apply State.modSeal_kept | with_reducible apply State.modSector_kept | with_reducible apply State.modSlot_kept | with_reducible apply State.perf_kept | with_reducible apply State.slotClosed_kept | with_reducible refine Kept.foldl _ ?_ ?_ | with_reducible refine Kept.foldlSnd _ ?_ ?_ | with_reducible refine Kept.foldlTrd _ ?_ ?_ | with_reducible refine Kept.foldlFst _ ?_ ?_ | split | with_reducible refine Kept.pair (by assumption) ?_ | with_reducible refine Kept.triple (by assumption) ?_)

theorem execSectorCloseRead_kept {ms : List Part} {s₀ s s' : State} (hm : [.fault, .step, .dev, .regul, .clock, .drawn] ⊆ ms) (hs : Kept ms s₀ s) (sector : Nat) (he : execSectorCloseRead sector s = .next s') : Kept ms s₀ s' := by
  unfold execSectorCloseRead at he
  (try dsimp only at he)
  (repeat' split at he) <;> (try cases he) <;> (repeat' first | exact List.Subset.trans (by decide) hm | intro _ | with_reducible assumption | dsimp only | with_reducible apply Kept.ite | with_reducible apply State.closeSector_kept | split | with_reducible refine Kept.pair (by assumption) ?_ | with_reducible refine Kept.triple (by assumption) ?_)

theorem execSectorSummaryFold_kept {ms : List Part} {s₀ s s' : State} (hm : [.step] ⊆ ms) (hs : Kept ms s₀ s)  (he : execSectorSummaryFold s = .next s') : Kept ms s₀ s' := by
  unfold execSectorSummaryFold at he
  (try dsimp only at he)
  (repeat' split at he) <;> (try cases he) <;> (repeat' first | exact List.Subset.trans (by decide) hm | intro _ | with_reducible assumption | dsimp only | with_reducible apply Kept.ite | with_reducible apply State.modSeal_kept | with_reducible apply State.modSector_kept)

theorem State.readArrivalStatus_kept {ms : List Part} {s₀ s : State} (hm : [.step, .dev, .regul, .clock] ⊆ ms) (hs : Kept ms s₀ s)  : Kept ms s₀ (State.readArrivalStatus s) := by
  unfold State.readArrivalStatus
  repeat' first | exact List.Subset.trans (by decide) hm | intro _ | with_reducible assumption | dsimp only | with_reducible apply Kept.ite | with_reducible apply State.charge_kept | with_reducible apply State.poison_kept | with_reducible apply State.residueFault_kept | with_reducible apply State.setBsu_kept | with_reducible refine Kept.foldl _ ?_ ?_ | with_reducible refine Kept.foldlSnd _ ?_ ?_ | with_reducible refine Kept.foldlTrd _ ?_ ?_ | with_reducible refine Kept.foldlFst _ ?_ ?_ | split | with_reducible refine Kept.pair (by assumption) ?_ | with_reducible refine Kept.triple (by assumption) ?_

theorem State.expandMasks_kept {ms : List Part} {s₀ s : State} (hm : [.mem, .wcb, .fault, .step, .dev, .regul, .log, .clock] ⊆ ms) (hs : Kept ms s₀ s)  : Kept ms s₀ (State.expandMasks s) := by
  unfold State.expandMasks
  repeat' first | exact List.Subset.trans (by decide) hm | intro _ | with_reducible assumption | dsimp only | with_reducible apply Kept.ite | with_reducible apply State.keepLog_kept | with_reducible apply State.modStep_kept | split | with_reducible refine Kept.pair (by assumption) ?_ | with_reducible refine Kept.triple (by assumption) ?_

theorem execArrivalEnd_kept {ms : List Part} {s₀ s s' : State} (hm : [.seqRegs, .seq, .mem, .wcb, .fault, .plan, .icache, .step, .exch, .dev, .regul, .tier, .log, .waits, .clock, .drawn, .out] ⊆ ms) (hs : Kept ms s₀ s)  (he : execArrivalEnd s = .next s') : Kept ms s₀ s' := by
  unfold execArrivalEnd at he
  (try dsimp only at he)
  (repeat' split at he) <;> (try cases he) <;> (repeat' first | exact List.Subset.trans (by decide) hm | intro _ | with_reducible assumption | dsimp only | with_reducible apply Kept.ite | with_reducible apply Seq.ok_upd | exact Seq.idle_ok | exact Or.inr (fun _ => ⟨rfl, rfl, rfl⟩) | exact Or.inl (hm (by decide)) | with_reducible apply State.beginWait_kept | with_reducible apply State.expandMasks_kept | with_reducible apply State.keepLog_kept | with_reducible apply State.modSeal_kept | with_reducible apply State.modSeq_kept | with_reducible apply State.modStep_kept | with_reducible apply State.postOwn_kept | with_reducible apply State.readArrivalStatus_kept | with_reducible apply State.sealVerdict_kept | with_reducible apply State.set_kept | with_reducible apply State.stamp_kept)

end Sys2Proof.Machine
end

