-- ==== Sys2Proof/Laws/KeptExchange.lean ====
section
/-! SUPPORT. What the functions of Machine/Exchange.lean keep. -/

namespace Sys2Proof.Machine

theorem State.answer_kept {ms : List Part} {s₀ s : State} (hm : [.out] ⊆ ms) (hs : Kept ms s₀ s) (m : Msg) (kind : Nat) (payload : List Byte) : Kept ms s₀ (State.answer s m kind payload) := by
  unfold State.answer
  repeat' first | exact List.Subset.trans (by decide) hm | with_reducible assumption | dsimp only | with_reducible apply Kept.ite | with_reducible apply State.send_kept

theorem State.refuse_kept {ms : List Part} {s₀ s : State} (hm : [.out] ⊆ ms) (hs : Kept ms s₀ s) (kind : Nat) (m : Msg) (code : Nat) : Kept ms s₀ (State.refuse s kind m code) := by
  unfold State.refuse
  repeat' first | exact List.Subset.trans (by decide) hm | with_reducible assumption | dsimp only | with_reducible apply Kept.ite | with_reducible apply State.answer_kept | with_reducible apply State.bump_kept | with_reducible apply State.set_kept

theorem State.receive_kept {ms : List Part} {s₀ s : State} (hm : [.out] ⊆ ms) (hs : Kept ms s₀ s) (kind : Nat) (m : Msg) (k : State → State) (hk : ∀ t, Kept ms s₀ t → Kept ms s₀ (k t)) : Kept ms s₀ (State.receive s kind m k) := by
  unfold State.receive
  repeat' first | exact List.Subset.trans (by decide) hm | intro _ | with_reducible assumption | dsimp only | with_reducible apply Kept.ite | with_reducible apply State.refuse_kept | apply hk | split | with_reducible refine Kept.pair (by assumption) ?_ | with_reducible refine Kept.triple (by assumption) ?_

theorem State.deferMsg_kept {ms : List Part} {s₀ s : State} (hm : [.out] ⊆ ms) (hs : Kept ms s₀ s) (m : Msg) : Kept ms s₀ (State.deferMsg s m) := by
  unfold State.deferMsg
  repeat' first | exact List.Subset.trans (by decide) hm | with_reducible assumption | dsimp only | with_reducible apply Kept.ite | with_reducible apply State.answer_kept | with_reducible apply State.bump_kept

theorem State.deferUnlessFifth_kept {ms : List Part} {s₀ s : State} (hm : [.out] ⊆ ms) (hs : Kept ms s₀ s) (kind : Nat) (m : Msg) : Kept ms s₀ (State.deferUnlessFifth s kind m) := by
  unfold State.deferUnlessFifth
  repeat' first | exact List.Subset.trans (by decide) hm | intro _ | with_reducible assumption | dsimp only | with_reducible apply Kept.ite | with_reducible apply State.deferMsg_kept | with_reducible apply State.refuse_kept

theorem State.onGreq_kept {ms : List Part} {s₀ s : State} (hm : [.step, .out] ⊆ ms) (hs : Kept ms s₀ s) (m : Msg) : Kept ms s₀ (State.onGreq s m) := by
  unfold State.onGreq
  repeat' first | exact List.Subset.trans (by decide) hm | intro _ | with_reducible assumption | dsimp only | with_reducible apply Kept.ite | with_reducible apply State.answer_kept | with_reducible apply State.deferMsg_kept | with_reducible apply State.deferUnlessFifth_kept | with_reducible apply State.modSlot_kept | with_reducible apply State.perf_kept | with_reducible apply State.refuse_kept | split | with_reducible refine Kept.pair (by assumption) ?_ | with_reducible refine Kept.triple (by assumption) ?_

theorem execGreq_kept {ms : List Part} {s₀ s s' : State} (hm : [.step, .out] ⊆ ms) (hs : Kept ms s₀ s) (m : Msg) (he : execGreq m s = .next s') : Kept ms s₀ s' := by
  unfold execGreq at he
  (try dsimp only at he)
  (repeat' split at he) <;> (try cases he) <;> (repeat' first | exact List.Subset.trans (by decide) hm | intro _ | with_reducible assumption | dsimp only | with_reducible apply Kept.ite | with_reducible apply State.onGreq_kept | with_reducible apply State.receive_kept)

theorem State.onMark_kept {ms : List Part} {s₀ s : State} (hm : [.mem, .wcb, .fault, .step, .dev, .regul, .log, .clock, .out] ⊆ ms) (hs : Kept ms s₀ s) (m : Msg) : Kept ms s₀ (State.onMark s m) := by
  unfold State.onMark
  repeat' first | exact List.Subset.trans (by decide) hm | intro _ | with_reducible assumption | dsimp only | with_reducible apply Kept.ite | with_reducible apply State.answer_kept | with_reducible apply State.deferMsg_kept | with_reducible apply State.deferUnlessFifth_kept | with_reducible apply State.modSeal_kept | with_reducible apply State.modSlot_kept | with_reducible apply State.perf_kept | with_reducible apply State.refuse_kept | with_reducible apply State.slotClosed_kept | split | with_reducible refine Kept.pair (by assumption) ?_ | with_reducible refine Kept.triple (by assumption) ?_

theorem execMark_kept {ms : List Part} {s₀ s s' : State} (hm : [.mem, .wcb, .fault, .step, .dev, .regul, .log, .clock, .out] ⊆ ms) (hs : Kept ms s₀ s) (m : Msg) (he : execMark m s = .next s') : Kept ms s₀ s' := by
  unfold execMark at he
  (try dsimp only at he)
  (repeat' split at he) <;> (try cases he) <;> (repeat' first | exact List.Subset.trans (by decide) hm | intro _ | with_reducible assumption | dsimp only | with_reducible apply Kept.ite | with_reducible apply State.onMark_kept | with_reducible apply State.receive_kept)

theorem State.onContrib_kept {ms : List Part} {s₀ s : State} (hm : [.step, .out] ⊆ ms) (hs : Kept ms s₀ s) (m : Msg) : Kept ms s₀ (State.onContrib s m) := by
  unfold State.onContrib
  repeat' first | exact List.Subset.trans (by decide) hm | intro _ | with_reducible assumption | dsimp only | with_reducible apply Kept.ite | with_reducible apply State.modSeal_kept | with_reducible apply State.modSlot_kept | with_reducible apply State.perf_kept | with_reducible apply State.refuse_kept | split

theorem execContrib_kept {ms : List Part} {s₀ s s' : State} (hm : [.step, .out] ⊆ ms) (hs : Kept ms s₀ s) (m : Msg) (he : execContrib m s = .next s') : Kept ms s₀ s' := by
  unfold execContrib at he
  (try dsimp only at he)
  (repeat' split at he) <;> (try cases he) <;> (repeat' first | exact List.Subset.trans (by decide) hm | intro _ | with_reducible assumption | dsimp only | with_reducible apply Kept.ite | with_reducible apply State.onContrib_kept | with_reducible apply State.receive_kept)

theorem State.unmatched_kept {ms : List Part} {s₀ s : State} (hm : [.out] ⊆ ms) (hs : Kept ms s₀ s) (kind : Nat) (m : Msg) : Kept ms s₀ (State.unmatched s kind m) := by
  unfold State.unmatched
  repeat' first | exact List.Subset.trans (by decide) hm | with_reducible assumption | dsimp only | with_reducible apply Kept.ite | with_reducible apply State.refuse_kept

theorem State.answered_kept {ms : List Part} {s₀ s : State} (hm : [.exch] ⊆ ms) (hs : Kept ms s₀ s) (r : Unanswered) : Kept ms s₀ (State.answered s r) := by
  unfold State.answered
  repeat' first | exact List.Subset.trans (by decide) hm | intro _ | with_reducible assumption | dsimp only | with_reducible apply Kept.ite | with_reducible apply State.modExch_kept

theorem State.settleCredit_kept {ms : List Part} {s₀ s : State} (hm : [.waits] ⊆ ms) (hs : Kept ms s₀ s)  : Kept ms s₀ (State.settleCredit s) := by
  unfold State.settleCredit
  repeat' first | exact List.Subset.trans (by decide) hm | intro _ | with_reducible assumption | dsimp only | with_reducible apply Kept.ite | with_reducible apply State.dropWaits_kept

theorem execGrant_kept {ms : List Part} {s₀ s s' : State} (hm : [.out] ⊆ ms) (hs : Kept ms s₀ s) (m : Msg) (he : execGrant m s = .next s') : Kept ms s₀ s' := by
  unfold execGrant at he
  (try dsimp only at he)
  (repeat' split at he) <;> (try cases he) <;> (repeat' first | exact List.Subset.trans (by decide) hm | intro _ | with_reducible assumption | dsimp only | with_reducible apply Kept.ite | with_reducible apply State.receive_kept | with_reducible apply State.unmatched_kept)

theorem State.onDefer_kept {ms : List Part} {s₀ s : State} (hm : [.exch, .out] ⊆ ms) (hs : Kept ms s₀ s) (m : Msg) : Kept ms s₀ (State.onDefer s m) := by
  unfold State.onDefer
  repeat' first | exact List.Subset.trans (by decide) hm | intro _ | with_reducible assumption | dsimp only | with_reducible apply Kept.ite | with_reducible apply State.answered_kept | with_reducible apply State.modExch_kept | with_reducible apply State.unmatched_kept | split

theorem execDefer_kept {ms : List Part} {s₀ s s' : State} (hm : [.exch, .out] ⊆ ms) (hs : Kept ms s₀ s) (m : Msg) (he : execDefer m s = .next s') : Kept ms s₀ s' := by
  unfold execDefer at he
  (try dsimp only at he)
  (repeat' split at he) <;> (try cases he) <;> (repeat' first | exact List.Subset.trans (by decide) hm | intro _ | with_reducible assumption | dsimp only | with_reducible apply Kept.ite | with_reducible apply State.onDefer_kept | with_reducible apply State.receive_kept)

theorem State.onAck_kept {ms : List Part} {s₀ s : State} (hm : [.exch, .out] ⊆ ms) (hs : Kept ms s₀ s) (m : Msg) : Kept ms s₀ (State.onAck s m) := by
  unfold State.onAck
  repeat' first | exact List.Subset.trans (by decide) hm | with_reducible assumption | dsimp only | with_reducible apply Kept.ite | with_reducible apply State.answered_kept | with_reducible apply State.unmatched_kept | split

theorem execAck_kept {ms : List Part} {s₀ s s' : State} (hm : [.exch, .out] ⊆ ms) (hs : Kept ms s₀ s) (m : Msg) (he : execAck m s = .next s') : Kept ms s₀ s' := by
  unfold execAck at he
  (try dsimp only at he)
  (repeat' split at he) <;> (try cases he) <;> (repeat' first | exact List.Subset.trans (by decide) hm | intro _ | with_reducible assumption | dsimp only | with_reducible apply Kept.ite | with_reducible apply State.onAck_kept | with_reducible apply State.receive_kept)

theorem State.giveUp_kept {ms : List Part} {s₀ s : State} (hm : [.step, .exch] ⊆ ms) (hs : Kept ms s₀ s) (q block : Nat) : Kept ms s₀ (State.giveUp s q block) := by
  unfold State.giveUp
  repeat' first | exact List.Subset.trans (by decide) hm | intro _ | with_reducible assumption | dsimp only | with_reducible apply Kept.ite | with_reducible apply State.modExch_kept | with_reducible apply State.settleInsts_kept

theorem State.onNack_kept {ms : List Part} {s₀ s : State} (hm : [.step, .exch, .waits, .out] ⊆ ms) (hs : Kept ms s₀ s) (m : Msg) : Kept ms s₀ (State.onNack s m) := by
  unfold State.onNack
  repeat' first | exact List.Subset.trans (by decide) hm | with_reducible assumption | dsimp only | with_reducible apply Kept.ite | with_reducible apply State.answered_kept | with_reducible apply State.giveUp_kept | with_reducible apply State.settleCredit_kept | with_reducible apply State.unmatched_kept | split

theorem execNack_kept {ms : List Part} {s₀ s s' : State} (hm : [.step, .exch, .waits, .out] ⊆ ms) (hs : Kept ms s₀ s) (m : Msg) (he : execNack m s = .next s') : Kept ms s₀ s' := by
  unfold execNack at he
  (try dsimp only at he)
  (repeat' split at he) <;> (try cases he) <;> (repeat' first | exact List.Subset.trans (by decide) hm | intro _ | with_reducible assumption | dsimp only | with_reducible apply Kept.ite | with_reducible apply State.bump_kept | with_reducible apply State.onNack_kept | with_reducible apply State.receive_kept)

theorem State.onEcred_kept {ms : List Part} {s₀ s : State} (hm : [.exch, .waits, .out] ⊆ ms) (hs : Kept ms s₀ s) (m : Msg) : Kept ms s₀ (State.onEcred s m) := by
  unfold State.onEcred
  repeat' first | exact List.Subset.trans (by decide) hm | intro _ | with_reducible assumption | dsimp only | with_reducible apply Kept.ite | with_reducible apply State.answered_kept | with_reducible apply State.modExch_kept | with_reducible apply State.settleCredit_kept | with_reducible apply State.unmatched_kept | split

theorem execEcred_kept {ms : List Part} {s₀ s s' : State} (hm : [.exch, .waits, .out] ⊆ ms) (hs : Kept ms s₀ s) (m : Msg) (he : execEcred m s = .next s') : Kept ms s₀ s' := by
  unfold execEcred at he
  (try dsimp only at he)
  (repeat' split at he) <;> (try cases he) <;> (repeat' first | exact List.Subset.trans (by decide) hm | intro _ | with_reducible assumption | dsimp only | with_reducible apply Kept.ite | with_reducible apply State.onEcred_kept | with_reducible apply State.receive_kept)

theorem State.onEcreq_kept {ms : List Part} {s₀ s : State} (hm : [.exch, .out] ⊆ ms) (hs : Kept ms s₀ s) (m : Msg) : Kept ms s₀ (State.onEcreq s m) := by
  unfold State.onEcreq
  repeat' first | exact List.Subset.trans (by decide) hm | intro _ | with_reducible assumption | dsimp only | with_reducible apply Kept.ite | with_reducible apply State.answer_kept | with_reducible apply State.deferMsg_kept | with_reducible apply State.modExch_kept | with_reducible apply State.refuse_kept

theorem execEcreq_kept {ms : List Part} {s₀ s s' : State} (hm : [.exch, .out] ⊆ ms) (hs : Kept ms s₀ s) (m : Msg) (he : execEcreq m s = .next s') : Kept ms s₀ s' := by
  unfold execEcreq at he
  (try dsimp only at he)
  (repeat' split at he) <;> (try cases he) <;> (repeat' first | exact List.Subset.trans (by decide) hm | intro _ | with_reducible assumption | dsimp only | with_reducible apply Kept.ite | with_reducible apply State.onEcreq_kept | with_reducible apply State.receive_kept)

theorem State.freeBuffer_kept {ms : List Part} {s₀ s : State} (hm : [.exch] ⊆ ms) (hs : Kept ms s₀ s) (m : Msg) : Kept ms s₀ (State.freeBuffer s m) := by
  unfold State.freeBuffer
  repeat' first | exact List.Subset.trans (by decide) hm | intro _ | with_reducible assumption | dsimp only | with_reducible apply Kept.ite | with_reducible apply State.modExch_kept

theorem State.noteLines_kept {ms : List Part} {s₀ s : State} (hm : [.fault, .step] ⊆ ms) (hs : Kept ms s₀ s) (a : ErrSrc) (xs : List LineLoc) : Kept ms s₀ (State.noteLines s a xs) := by
  unfold State.noteLines
  repeat' first | exact List.Subset.trans (by decide) hm | intro _ | with_reducible assumption | dsimp only | with_reducible apply Kept.ite | with_reducible apply State.noteLine_kept | with_reducible refine Kept.foldl _ ?_ ?_

theorem State.refuseChunk_kept {ms : List Part} {s₀ s : State} (hm : [.exch, .out] ⊆ ms) (hs : Kept ms s₀ s) (m : Msg) : Kept ms s₀ (State.refuseChunk s m) := by
  unfold State.refuseChunk
  repeat' first | exact List.Subset.trans (by decide) hm | intro _ | with_reducible assumption | dsimp only | with_reducible apply Kept.ite | with_reducible apply State.modExch_kept | with_reducible apply State.refuse_kept

theorem State.onChunk_kept {ms : List Part} {s₀ s : State} (hm : [.mem, .wcb, .fault, .step, .exch, .dev, .regul, .clock, .out] ⊆ ms) (hs : Kept ms s₀ s) (m : Msg) : Kept ms s₀ (State.onChunk s m) := by
  unfold State.onChunk
  repeat' first | exact List.Subset.trans (by decide) hm | intro _ | with_reducible assumption | dsimp only | with_reducible apply Kept.ite | with_reducible apply State.chargeWrites_kept | with_reducible apply State.freeBuffer_kept | with_reducible apply State.noteLines_kept | with_reducible apply State.perf_kept | with_reducible apply State.refuseAccess_kept | with_reducible apply State.refuseChunk_kept | with_reducible apply State.storeBytes_kept | split

theorem execChunk_kept {ms : List Part} {s₀ s s' : State} (hm : [.mem, .wcb, .fault, .step, .exch, .dev, .regul, .clock, .out] ⊆ ms) (hs : Kept ms s₀ s) (m : Msg) (he : execChunk m s = .next s') : Kept ms s₀ s' := by
  unfold execChunk at he
  (try dsimp only at he)
  (repeat' split at he) <;> (try cases he) <;> (repeat' first | exact List.Subset.trans (by decide) hm | intro _ | with_reducible assumption | dsimp only | with_reducible apply Kept.ite | with_reducible apply State.freeBuffer_kept | with_reducible apply State.onChunk_kept | with_reducible apply State.receive_kept | split | with_reducible refine Kept.pair (by assumption) ?_ | with_reducible refine Kept.triple (by assumption) ?_)

theorem State.onToken_kept {ms : List Part} {s₀ s : State} (hm : [.exch, .out] ⊆ ms) (hs : Kept ms s₀ s) (m : Msg) : Kept ms s₀ (State.onToken s m) := by
  unfold State.onToken
  repeat' first | exact List.Subset.trans (by decide) hm | intro _ | with_reducible assumption | dsimp only | with_reducible apply Kept.ite | with_reducible apply State.modExch_kept | with_reducible apply State.sendToken_kept

theorem execToken_kept {ms : List Part} {s₀ s s' : State} (hm : [.exch, .out] ⊆ ms) (hs : Kept ms s₀ s) (m : Msg) (he : execToken m s = .next s') : Kept ms s₀ s' := by
  unfold execToken at he
  (try dsimp only at he)
  (repeat' split at he) <;> (try cases he) <;> (repeat' first | exact List.Subset.trans (by decide) hm | intro _ | with_reducible assumption | dsimp only | with_reducible apply Kept.ite | with_reducible apply State.onToken_kept | with_reducible apply State.receive_kept)

theorem State.onSkip_kept {ms : List Part} {s₀ s : State} (hm : [.exch, .out] ⊆ ms) (hs : Kept ms s₀ s) (m : Msg) : Kept ms s₀ (State.onSkip s m) := by
  unfold State.onSkip
  repeat' first | exact List.Subset.trans (by decide) hm | intro _ | with_reducible assumption | dsimp only | with_reducible apply Kept.ite | with_reducible apply State.answer_kept | with_reducible apply State.refuse_kept | with_reducible apply State.sendToken_kept

theorem execSkip_kept {ms : List Part} {s₀ s s' : State} (hm : [.exch, .out] ⊆ ms) (hs : Kept ms s₀ s) (m : Msg) (he : execSkip m s = .next s') : Kept ms s₀ s' := by
  unfold execSkip at he
  (try dsimp only at he)
  (repeat' split at he) <;> (try cases he) <;> (repeat' first | exact List.Subset.trans (by decide) hm | intro _ | with_reducible assumption | dsimp only | with_reducible apply Kept.ite | with_reducible apply State.onSkip_kept | with_reducible apply State.receive_kept)

theorem State.onUp_kept {ms : List Part} {s₀ s : State} (hm : [.seqRegs, .seq, .mem, .wcb, .fault, .plan, .icache, .step, .exch, .dev, .regul, .tier, .log, .waits, .clock, .drawn, .out] ⊆ ms) (hs : Kept ms s₀ s) (kind : Nat) (m : Msg) : Kept ms s₀ (State.onUp s kind m) := by
  unfold State.onUp
  repeat' first | exact List.Subset.trans (by decide) hm | intro _ | with_reducible assumption | dsimp only | with_reducible apply Kept.ite | with_reducible apply State.combine_kept | with_reducible apply State.modExch_kept | with_reducible apply State.refuse_kept

theorem State.onDn_kept {ms : List Part} {s₀ s : State} (hm : [.seqRegs, .seq, .mem, .wcb, .fault, .plan, .icache, .step, .exch, .dev, .regul, .tier, .log, .waits, .clock, .drawn, .out] ⊆ ms) (hs : Kept ms s₀ s) (kind : Nat) (m : Msg) : Kept ms s₀ (State.onDn s kind m) := by
  unfold State.onDn
  repeat' first | exact List.Subset.trans (by decide) hm | intro _ | with_reducible assumption | dsimp only | with_reducible apply Kept.ite | with_reducible apply State.deliver_kept | with_reducible apply State.modExch_kept | with_reducible apply State.refuse_kept

theorem execOpenUp_kept {ms : List Part} {s₀ s s' : State} (hm : [.seqRegs, .seq, .mem, .wcb, .fault, .plan, .icache, .step, .exch, .dev, .regul, .tier, .log, .waits, .clock, .drawn, .out] ⊆ ms) (hs : Kept ms s₀ s) (m : Msg) (he : execOpenUp m s = .next s') : Kept ms s₀ s' := by
  unfold execOpenUp at he
  (try dsimp only at he)
  (repeat' split at he) <;> (try cases he) <;> (repeat' first | exact List.Subset.trans (by decide) hm | intro _ | with_reducible assumption | dsimp only | with_reducible apply Kept.ite | with_reducible apply State.onUp_kept | with_reducible apply State.receive_kept)

theorem execOpenDn_kept {ms : List Part} {s₀ s s' : State} (hm : [.seqRegs, .seq, .mem, .wcb, .fault, .plan, .icache, .step, .exch, .dev, .regul, .tier, .log, .waits, .clock, .drawn, .out] ⊆ ms) (hs : Kept ms s₀ s) (m : Msg) (he : execOpenDn m s = .next s') : Kept ms s₀ s' := by
  unfold execOpenDn at he
  (try dsimp only at he)
  (repeat' split at he) <;> (try cases he) <;> (repeat' first | exact List.Subset.trans (by decide) hm | intro _ | with_reducible assumption | dsimp only | with_reducible apply Kept.ite | with_reducible apply State.onDn_kept | with_reducible apply State.receive_kept)

theorem execSealUp_kept {ms : List Part} {s₀ s s' : State} (hm : [.seqRegs, .seq, .mem, .wcb, .fault, .plan, .icache, .step, .exch, .dev, .regul, .tier, .log, .waits, .clock, .drawn, .out] ⊆ ms) (hs : Kept ms s₀ s) (m : Msg) (he : execSealUp m s = .next s') : Kept ms s₀ s' := by
  unfold execSealUp at he
  (try dsimp only at he)
  (repeat' split at he) <;> (try cases he) <;> (repeat' first | exact List.Subset.trans (by decide) hm | intro _ | with_reducible assumption | dsimp only | with_reducible apply Kept.ite | with_reducible apply State.onUp_kept | with_reducible apply State.receive_kept)

theorem execSealDn_kept {ms : List Part} {s₀ s s' : State} (hm : [.seqRegs, .seq, .mem, .wcb, .fault, .plan, .icache, .step, .exch, .dev, .regul, .tier, .log, .waits, .clock, .drawn, .out] ⊆ ms) (hs : Kept ms s₀ s) (m : Msg) (he : execSealDn m s = .next s') : Kept ms s₀ s' := by
  unfold execSealDn at he
  (try dsimp only at he)
  (repeat' split at he) <;> (try cases he) <;> (repeat' first | exact List.Subset.trans (by decide) hm | intro _ | with_reducible assumption | dsimp only | with_reducible apply Kept.ite | with_reducible apply State.onDn_kept | with_reducible apply State.receive_kept)

theorem execCntUp_kept {ms : List Part} {s₀ s s' : State} (hm : [.seqRegs, .seq, .mem, .wcb, .fault, .plan, .icache, .step, .exch, .dev, .regul, .tier, .log, .waits, .clock, .drawn, .out] ⊆ ms) (hs : Kept ms s₀ s) (m : Msg) (he : execCntUp m s = .next s') : Kept ms s₀ s' := by
  unfold execCntUp at he
  (try dsimp only at he)
  (repeat' split at he) <;> (try cases he) <;> (repeat' first | exact List.Subset.trans (by decide) hm | intro _ | with_reducible assumption | dsimp only | with_reducible apply Kept.ite | with_reducible apply State.onUp_kept | with_reducible apply State.receive_kept)

theorem execCntDn_kept {ms : List Part} {s₀ s s' : State} (hm : [.seqRegs, .seq, .mem, .wcb, .fault, .plan, .icache, .step, .exch, .dev, .regul, .tier, .log, .waits, .clock, .drawn, .out] ⊆ ms) (hs : Kept ms s₀ s) (m : Msg) (he : execCntDn m s = .next s') : Kept ms s₀ s' := by
  unfold execCntDn at he
  (try dsimp only at he)
  (repeat' split at he) <;> (try cases he) <;> (repeat' first | exact List.Subset.trans (by decide) hm | intro _ | with_reducible assumption | dsimp only | with_reducible apply Kept.ite | with_reducible apply State.onDn_kept | with_reducible apply State.receive_kept)

theorem State.remoteStatus_kept {ms : List Part} {s₀ s : State} (hm : [.out] ⊆ ms) (hs : Kept ms s₀ s) (m : Msg) (st : Nat) : Kept ms s₀ (State.remoteStatus s m st) := by
  unfold State.remoteStatus
  repeat' first | exact List.Subset.trans (by decide) hm | with_reducible assumption | dsimp only | with_reducible apply Kept.ite | with_reducible apply State.answer_kept | with_reducible apply State.perf_kept

theorem State.onRwr_kept {ms : List Part} {s₀ s : State} (hm : [.mem, .wcb, .fault, .step, .dev, .regul, .clock, .out] ⊆ ms) (hs : Kept ms s₀ s) (m : Msg) (linkFails : Nat) : Kept ms s₀ (State.onRwr s m linkFails) := by
  unfold State.onRwr
  repeat' first | exact List.Subset.trans (by decide) hm | intro _ | with_reducible assumption | dsimp only | with_reducible apply Kept.ite | with_reducible apply State.chargeWrites_kept | with_reducible apply State.linkTrouble_kept | with_reducible apply State.refuseAccess_kept | with_reducible apply State.remoteStatus_kept | with_reducible apply State.storeBytesOk_kept | split | with_reducible refine Kept.pair (by assumption) ?_ | with_reducible refine Kept.triple (by assumption) ?_

theorem execRwr_kept {ms : List Part} {s₀ s s' : State} (hm : [.mem, .wcb, .fault, .step, .dev, .regul, .clock, .out] ⊆ ms) (hs : Kept ms s₀ s) (m : Linked Msg) (he : execRwr m s = .next s') : Kept ms s₀ s' := by
  unfold execRwr at he
  (try dsimp only at he)
  (repeat' split at he) <;> (try cases he) <;> (repeat' first | exact List.Subset.trans (by decide) hm | intro _ | with_reducible assumption | dsimp only | with_reducible apply Kept.ite | with_reducible apply State.onRwr_kept | with_reducible apply State.receive_kept)

theorem State.onRrd_kept {ms : List Part} {s₀ s : State} (hm : [.fault, .step, .dev, .regul, .clock, .out] ⊆ ms) (hs : Kept ms s₀ s) (m : Msg) (linkFails : Nat) : Kept ms s₀ (State.onRrd s m linkFails) := by
  unfold State.onRrd
  repeat' first | exact List.Subset.trans (by decide) hm | intro _ | with_reducible assumption | dsimp only | with_reducible apply Kept.ite | with_reducible apply State.answer_kept | with_reducible apply State.chargeReads_kept | with_reducible apply State.fetchBytes_kept | with_reducible apply State.linkTrouble_kept | with_reducible apply State.perf_kept | with_reducible apply State.refuseAccess_kept | with_reducible apply State.remoteStatus_kept | split | with_reducible refine Kept.pair (by assumption) ?_ | with_reducible refine Kept.triple (by assumption) ?_

theorem execRrd_kept {ms : List Part} {s₀ s s' : State} (hm : [.fault, .step, .dev, .regul, .clock, .out] ⊆ ms) (hs : Kept ms s₀ s) (m : Linked Msg) (he : execRrd m s = .next s') : Kept ms s₀ s' := by
  unfold execRrd at he
  (try dsimp only at he)
  (repeat' split at he) <;> (try cases he) <;> (repeat' first | exact List.Subset.trans (by decide) hm | intro _ | with_reducible assumption | dsimp only | with_reducible apply Kept.ite | with_reducible apply State.onRrd_kept | with_reducible apply State.receive_kept)

theorem execRrsp_kept {ms : List Part} {s₀ s s' : State} (hm : [.out] ⊆ ms) (hs : Kept ms s₀ s) (m : Msg) (he : execRrsp m s = .next s') : Kept ms s₀ s' := by
  unfold execRrsp at he
  (try dsimp only at he)
  (repeat' split at he) <;> (try cases he) <;> (repeat' first | exact List.Subset.trans (by decide) hm | intro _ | with_reducible assumption | dsimp only | with_reducible apply Kept.ite | with_reducible apply State.receive_kept | with_reducible apply State.unmatched_kept)

theorem execRwack_kept {ms : List Part} {s₀ s s' : State} (hm : [.out] ⊆ ms) (hs : Kept ms s₀ s) (m : Msg) (he : execRwack m s = .next s') : Kept ms s₀ s' := by
  unfold execRwack at he
  (try dsimp only at he)
  (repeat' split at he) <;> (try cases he) <;> (repeat' first | exact List.Subset.trans (by decide) hm | intro _ | with_reducible assumption | dsimp only | with_reducible apply Kept.ite | with_reducible apply State.receive_kept | with_reducible apply State.unmatched_kept)

theorem State.modChunk_kept {ms : List Part} {s₀ s : State} (hm : [.step] ⊆ ms) (hs : Kept ms s₀ s) (n : Nat) (f : ChunkSt → ChunkSt) : Kept ms s₀ (State.modChunk s n f) := by
  unfold State.modChunk
  repeat' first | exact List.Subset.trans (by decide) hm | intro _ | with_reducible assumption | dsimp only | with_reducible apply Kept.ite | with_reducible apply State.modStep_kept

theorem State.modInst_kept {ms : List Part} {s₀ s : State} (hm : [.step] ⊆ ms) (hs : Kept ms s₀ s) (q : Nat) (f : Inst → Inst) : Kept ms s₀ (State.modInst s q f) := by
  unfold State.modInst
  repeat' first | exact List.Subset.trans (by decide) hm | intro _ | with_reducible assumption | dsimp only | with_reducible apply Kept.ite | with_reducible apply State.modStep_kept

theorem State.readSlot_kept {ms : List Part} {s₀ s : State} (hm : [.fault, .step, .dev, .regul, .clock] ⊆ ms) (hs : Kept ms s₀ s) (f : EmFmt) (e : CommitEntry) : Kept ms s₀ (State.readSlot s f e).2.2 := by
  unfold State.readSlot
  repeat' first | exact List.Subset.trans (by decide) hm | intro _ | with_reducible assumption | dsimp only | with_reducible apply Kept.ite | with_reducible apply State.chargeReads_kept | with_reducible apply State.fetchLine_kept | with_reducible refine Kept.foldl _ ?_ ?_ | with_reducible refine Kept.foldlSnd _ ?_ ?_

theorem State.haltInst_kept {ms : List Part} {s₀ s : State} (hm : [.step] ⊆ ms) (hs : Kept ms s₀ s) (q n : Nat) : Kept ms s₀ (State.haltInst s q n) := by
  unfold State.haltInst
  repeat' first | exact List.Subset.trans (by decide) hm | intro _ | with_reducible assumption | dsimp only | with_reducible apply Kept.ite | with_reducible apply State.modChunk_kept | with_reducible apply State.modInst_kept

theorem State.readChunk_kept {ms : List Part} {s₀ s : State} (hm : [.fault, .step, .dev, .regul, .clock] ⊆ ms) (hs : Kept ms s₀ s) (p : Plan) (q n : Nat) (c : ChunkSt) : Kept ms s₀ (State.readChunk s p q n c) := by
  unfold State.readChunk
  repeat' first | exact List.Subset.trans (by decide) hm | intro _ | with_reducible assumption | dsimp only | with_reducible apply Kept.ite | with_reducible apply State.haltInst_kept | with_reducible apply State.modChunk_kept | with_reducible apply State.readSlot_kept | with_reducible refine Kept.foldl _ ?_ ?_ | with_reducible refine Kept.foldlSnd _ ?_ ?_ | with_reducible refine Kept.foldlTrd _ ?_ ?_ | with_reducible refine Kept.foldlFst _ ?_ ?_ | split | with_reducible refine Kept.pair (by assumption) ?_ | with_reducible refine Kept.triple (by assumption) ?_

theorem execChunkRead_kept {ms : List Part} {s₀ s s' : State} (hm : [.fault, .step, .dev, .regul, .clock] ⊆ ms) (hs : Kept ms s₀ s) (q : Half) (he : execChunkRead q s = .next s') : Kept ms s₀ s' := by
  unfold execChunkRead at he
  (try dsimp only at he)
  (repeat' split at he) <;> (try cases he) <;> (repeat' first | exact List.Subset.trans (by decide) hm | with_reducible assumption | dsimp only | with_reducible apply Kept.ite | with_reducible apply State.readChunk_kept)

theorem State.sendInst_kept {ms : List Part} {s₀ s : State} (hm : [.out] ⊆ ms) (hs : Kept ms s₀ s) (i : Inst) (port kind dest n : Nat) (payload : List Byte) : Kept ms s₀ (State.sendInst s i port kind dest n payload) := by
  unfold State.sendInst
  repeat' first | exact List.Subset.trans (by decide) hm | with_reducible assumption | dsimp only | with_reducible apply Kept.ite | with_reducible apply State.send_kept

theorem State.served__kept {ms : List Part} {s₀ s : State} (hm : [.step] ⊆ ms) (hs : Kept ms s₀ s) (n k : Nat) : Kept ms s₀ (State.served_ s n k) := by
  unfold State.served_
  repeat' first | exact List.Subset.trans (by decide) hm | intro _ | with_reducible assumption | dsimp only | with_reducible apply Kept.ite | with_reducible apply State.modChunk_kept | with_reducible apply State.settleInsts_kept

theorem State.askCredit_kept {ms : List Part} {s₀ s : State} (hm : [.exch, .waits, .out] ⊆ ms) (hs : Kept ms s₀ s) (i : Inst) (port dest n : Nat) : Kept ms s₀ (State.askCredit s i port dest n) := by
  unfold State.askCredit
  repeat' first | exact List.Subset.trans (by decide) hm | intro _ | with_reducible assumption | dsimp only | with_reducible apply Kept.ite | with_reducible apply State.beginWait_kept | with_reducible apply State.modExch_kept | with_reducible apply State.sendInst_kept | split | with_reducible refine Kept.pair (by assumption) ?_ | with_reducible refine Kept.triple (by assumption) ?_

theorem State.askCredits_kept {ms : List Part} {s₀ s : State} (hm : [.exch, .waits, .out] ⊆ ms) (hs : Kept ms s₀ s) (i : Inst) (port dest : Nat) : Kept ms s₀ (State.askCredits s i port dest) := by
  unfold State.askCredits
  repeat' first | exact List.Subset.trans (by decide) hm | intro _ | with_reducible assumption | dsimp only | with_reducible apply Kept.ite | with_reducible apply State.askCredit_kept | with_reducible refine Kept.foldl _ ?_ ?_

theorem State.sendChunk_kept {ms : List Part} {s₀ s : State} (hm : [.step, .exch, .waits, .out] ⊆ ms) (hs : Kept ms s₀ s) (p : Plan) (i : Inst) (port n k : Nat) (c : ChunkSt) (d : DestRec) (data : List Byte) : Kept ms s₀ (State.sendChunk s p i port n k c d data) := by
  unfold State.sendChunk
  repeat' first | exact List.Subset.trans (by decide) hm | intro _ | with_reducible assumption | dsimp only | with_reducible apply Kept.ite | with_reducible apply State.modExch_kept | with_reducible apply State.perf_kept | with_reducible apply State.sendInst_kept | with_reducible apply State.served__kept | with_reducible apply State.settleCredit_kept

theorem execChunkSend_kept {ms : List Part} {s₀ s s' : State} (hm : [.step, .exch, .waits, .out] ⊆ ms) (hs : Kept ms s₀ s) (q : Half) (dest : Half) (he : execChunkSend q dest s = .next s') : Kept ms s₀ s' := by
  unfold execChunkSend at he
  (try dsimp only at he)
  (repeat' split at he) <;> (try cases he) <;> (repeat' first | exact List.Subset.trans (by decide) hm | intro _ | with_reducible assumption | dsimp only | with_reducible apply Kept.ite | with_reducible apply State.askCredits_kept | with_reducible apply State.beginWait_kept | with_reducible apply State.endWait_kept | with_reducible apply State.sendChunk_kept | with_reducible apply State.sendInst_kept | with_reducible apply State.served__kept | with_reducible apply State.settleCredit_kept | split | with_reducible refine Kept.pair (by assumption) ?_ | with_reducible refine Kept.triple (by assumption) ?_)

theorem execSkipNoticeSend_kept {ms : List Part} {s₀ s s' : State} (hm : [.step, .exch, .waits, .out] ⊆ ms) (hs : Kept ms s₀ s) (q : Half) (dest : Half) (he : execSkipNoticeSend q dest s = .next s') : Kept ms s₀ s' := by
  unfold execSkipNoticeSend at he
  (try dsimp only at he)
  (repeat' split at he) <;> (try cases he) <;> (repeat' first | exact List.Subset.trans (by decide) hm | intro _ | with_reducible assumption | dsimp only | with_reducible apply Kept.ite | with_reducible apply State.beginWait_kept | with_reducible apply State.endWait_kept | with_reducible apply State.modExch_kept | with_reducible apply State.sendInst_kept | with_reducible apply State.served__kept | split | with_reducible refine Kept.pair (by assumption) ?_ | with_reducible refine Kept.triple (by assumption) ?_)

end Sys2Proof.Machine
end

