-- ==== Sys2Proof/Laws/KeptRot.lean ====
section
/-! SUPPORT. What the functions of Machine/Rot.lean keep. -/

namespace Sys2Proof.Machine

theorem State.modReq_kept {ms : List Part} {s₀ s : State} (hm : [.req] ⊆ ms) (hs : Kept ms s₀ s) (f : Requests → Requests) : Kept ms s₀ (State.modReq s f) := by
  unfold State.modReq
  repeat' first | exact List.Subset.trans (by decide) hm | with_reducible assumption | dsimp only | with_reducible apply Kept.ite | fail_if_no_progress ((with_reducible apply Kept.upd) <;> first | with_reducible exact Or.inr rfl | exact Or.inl (hm (by decide)) | with_reducible exact id | exact fun h => Seq.ok_upd h | exact fun _ => Seq.idle_ok | exact fun _ => Seq.ok_upd Seq.idle_ok | with_reducible exact Or.inr ⟨rfl, rfl⟩ | exact Or.inr ⟨rfl, rfl, rfl⟩ | skip)

theorem State.rotSend_kept {ms : List Part} {s₀ s : State} (hm : [.req, .out] ⊆ ms) (hs : Kept ms s₀ s) (kind item : Nat) : Kept ms s₀ (State.rotSend s kind item) := by
  unfold State.rotSend
  repeat' first | exact List.Subset.trans (by decide) hm | intro _ | with_reducible assumption | dsimp only | with_reducible apply Kept.ite | with_reducible apply State.emit_kept | with_reducible apply State.modReq_kept

theorem State.rotAsk_kept {ms : List Part} {s₀ s : State} (hm : [.req, .out] ⊆ ms) (hs : Kept ms s₀ s) (kind item : Nat) : Kept ms s₀ (State.rotAsk s kind item) := by
  unfold State.rotAsk
  repeat' first | exact List.Subset.trans (by decide) hm | intro _ | with_reducible assumption | dsimp only | with_reducible apply Kept.ite | with_reducible apply State.modReq_kept | with_reducible apply State.rotSend_kept

theorem State.rotNext_kept {ms : List Part} {s₀ s : State} (hm : [.req, .out] ⊆ ms) (hs : Kept ms s₀ s)  : Kept ms s₀ (State.rotNext s) := by
  unfold State.rotNext
  repeat' first | exact List.Subset.trans (by decide) hm | intro _ | with_reducible assumption | dsimp only | with_reducible apply Kept.ite | with_reducible apply State.modReq_kept | with_reducible apply State.rotSend_kept | split

theorem State.rotDrop_kept {ms : List Part} {s₀ s : State} (hm : [.req, .out] ⊆ ms) (hs : Kept ms s₀ s) (kind : Nat) : Kept ms s₀ (State.rotDrop s kind) := by
  unfold State.rotDrop
  repeat' first | exact List.Subset.trans (by decide) hm | intro _ | with_reducible assumption | dsimp only | with_reducible apply Kept.ite | with_reducible apply State.modReq_kept | with_reducible apply State.rotNext_kept

theorem State.rotClear_kept {ms : List Part} {s₀ s : State} (hm : [.req] ⊆ ms) (hs : Kept ms s₀ s)  : Kept ms s₀ (State.rotClear s) := by
  unfold State.rotClear
  repeat' first | exact List.Subset.trans (by decide) hm | intro _ | with_reducible assumption | dsimp only | with_reducible apply Kept.ite | with_reducible apply State.modReq_kept

end Sys2Proof.Machine
end

