-- ==== Sys2Proof/Laws/KeptRepair.lean ====
section
/-! SUPPORT. What the functions of Machine/Repair.lean keep. -/

namespace Sys2Proof.Machine

theorem State.endTest_kept {ms : List Part} {s₀ s : State} (hm : [.seqRegs, .seq, .mem, .wcb, .fault, .plan, .icache, .step, .exch, .dev, .regul, .tier, .log, .req, .waits, .clock, .drawn, .out] ⊆ ms) (hs : Kept ms s₀ s) (code : Nat) : Kept ms s₀ (State.endTest s code) := by
  unfold State.endTest
  repeat' first | exact List.Subset.trans (by decide) hm | intro _ | with_reducible assumption | dsimp only | with_reducible apply Kept.ite | with_reducible apply State.modReq_kept | with_reducible apply State.raise_kept | with_reducible apply State.releaseGo_kept | with_reducible apply State.releaseHeld_kept | with_reducible apply State.set_kept | with_reducible apply State.setFlag_kept

theorem State.dropTestPower_kept {ms : List Part} {s₀ s : State} (hs : Kept ms s₀ s) (r : StReq) : Kept ms s₀ (State.dropTestPower s r) := by
  unfold State.dropTestPower
  repeat' first | intro _ | with_reducible assumption | dsimp only | with_reducible apply Kept.ite | with_reducible apply State.setFlag_kept

theorem State.settleTest_kept {ms : List Part} {s₀ s : State} (hm : [.seqRegs, .seq, .mem, .wcb, .fault, .plan, .icache, .step, .exch, .dev, .regul, .tier, .log, .req, .waits, .clock, .drawn, .out] ⊆ ms) (hs : Kept ms s₀ s)  : Kept ms s₀ (State.settleTest s) := by
  unfold State.settleTest
  repeat' first | exact List.Subset.trans (by decide) hm | intro _ | with_reducible assumption | dsimp only | with_reducible apply Kept.ite | with_reducible apply State.dropTestPower_kept | with_reducible apply State.endTest_kept | split | with_reducible refine Kept.pair (by assumption) ?_ | with_reducible refine Kept.triple (by assumption) ?_

theorem State.loadBsuRemap_kept {ms : List Part} {s₀ s : State} (hm : [.wcb, .step, .dev, .regul, .clock] ⊆ ms) (hs : Kept ms s₀ s) (d bank : Nat) : Kept ms s₀ (State.loadBsuRemap s d bank) := by
  unfold State.loadBsuRemap
  repeat' first | exact List.Subset.trans (by decide) hm | intro _ | with_reducible assumption | dsimp only | with_reducible apply Kept.ite | with_reducible apply State.tbldSeq_kept

theorem State.loadIfServing_kept {ms : List Part} {s₀ s : State} (hm : [.wcb, .step, .dev, .regul, .clock] ⊆ ms) (hs : Kept ms s₀ s) (d bank : Nat) : Kept ms s₀ (State.loadIfServing s d bank) := by
  unfold State.loadIfServing
  repeat' first | exact List.Subset.trans (by decide) hm | with_reducible assumption | dsimp only | with_reducible apply Kept.ite | with_reducible apply State.loadBsuRemap_kept

theorem State.writeRecord_kept {ms : List Part} {s₀ s : State} (hm : [.mem, .wcb, .fault, .regul, .clock] ⊆ ms) (hs : Kept ms s₀ s) (d bank : Nat) : Kept ms s₀ (State.writeRecord s d bank) := by
  unfold State.writeRecord
  repeat' first | exact List.Subset.trans (by decide) hm | intro _ | with_reducible assumption | dsimp only | with_reducible apply Kept.ite | with_reducible apply State.charge_kept | with_reducible apply State.putLine_kept | with_reducible apply State.storeLine_kept | split | with_reducible refine Kept.pair (by assumption) ?_ | with_reducible refine Kept.triple (by assumption) ?_

theorem State.takeEntry_kept {ms : List Part} {s₀ s : State} (hm : [.fault] ⊆ ms) (hs : Kept ms s₀ s) (e : RemapEntry) : Kept ms s₀ (State.takeEntry s e) := by
  unfold State.takeEntry
  repeat' first | exact List.Subset.trans (by decide) hm | with_reducible assumption | dsimp only | with_reducible apply Kept.ite | fail_if_no_progress ((with_reducible apply Kept.upd) <;> first | with_reducible exact Or.inr rfl | exact Or.inl (hm (by decide)) | with_reducible exact id | exact fun h => Seq.ok_upd h | exact fun _ => Seq.idle_ok | exact fun _ => Seq.ok_upd Seq.idle_ok | with_reducible exact Or.inr ⟨rfl, rfl⟩ | exact Or.inr ⟨rfl, rfl, rfl⟩ | skip)

theorem State.copyToSlot_kept {ms : List Part} {s₀ s : State} (hm : [.mem, .wcb, .fault] ⊆ ms) (hs : Kept ms s₀ s) (x : LineLoc) (n : Nat) : Kept ms s₀ (State.copyToSlot s x n) := by
  unfold State.copyToSlot
  repeat' first | exact List.Subset.trans (by decide) hm | intro _ | with_reducible assumption | dsimp only | with_reducible apply Kept.ite | with_reducible apply State.put_kept | with_reducible apply State.storeLine_kept | with_reducible apply State.takeEntry_kept | split | with_reducible refine Kept.pair (by assumption) ?_ | with_reducible refine Kept.triple (by assumption) ?_

theorem State.markRemapped_kept {ms : List Part} {s₀ s : State} (hm : [.mem, .wcb] ⊆ ms) (hs : Kept ms s₀ s) (l : RowLoc) : Kept ms s₀ (State.markRemapped s l) := by
  unfold State.markRemapped
  repeat' first | exact List.Subset.trans (by decide) hm | with_reducible assumption | dsimp only | with_reducible apply Kept.ite | with_reducible apply State.putMeta_kept | split

theorem State.remapInto_kept {ms : List Part} {s₀ s : State} (hm : [.mem, .wcb, .fault, .step, .dev, .regul, .clock] ⊆ ms) (hs : Kept ms s₀ s) (x : LineLoc) (n : Nat) : Kept ms s₀ (State.remapInto s x n) := by
  unfold State.remapInto
  repeat' first | exact List.Subset.trans (by decide) hm | with_reducible assumption | dsimp only | with_reducible apply Kept.ite | with_reducible apply State.charge_kept | with_reducible apply State.copyToSlot_kept | with_reducible apply State.loadIfServing_kept | with_reducible apply State.log__kept | with_reducible apply State.markRemapped_kept | with_reducible apply State.writeRecord_kept

theorem State.remapLine_kept {ms : List Part} {s₀ s : State} (hm : [.mem, .wcb, .fault, .step, .dev, .regul, .clock] ⊆ ms) (hs : Kept ms s₀ s) (x : LineLoc) : Kept ms s₀ (State.remapLine s x) := by
  unfold State.remapLine
  repeat' first | exact List.Subset.trans (by decide) hm | intro _ | with_reducible assumption | dsimp only | with_reducible apply Kept.ite | with_reducible apply State.bump_kept | with_reducible apply State.log__kept | with_reducible apply State.remapInto_kept | with_reducible apply State.setBit_kept | with_reducible apply State.setFlag_kept | split | with_reducible refine Kept.pair (by assumption) ?_ | with_reducible refine Kept.triple (by assumption) ?_

theorem State.remapAll_kept {ms : List Part} {s₀ s : State} (hm : [.mem, .wcb, .fault, .step, .dev, .regul, .clock] ⊆ ms) (hs : Kept ms s₀ s) (d bank : Nat) (es : List (Nat × Nat × Nat)) : Kept ms s₀ (State.remapAll s d bank es) := by
  unfold State.remapAll
  repeat' first | exact List.Subset.trans (by decide) hm | intro _ | with_reducible assumption | dsimp only | with_reducible apply Kept.ite | with_reducible apply State.remapInto_kept | with_reducible refine Kept.foldl _ ?_ ?_

theorem State.dropRepair_kept {ms : List Part} {s₀ s : State} (hm : [.drawn] ⊆ ms) (hs : Kept ms s₀ s) (d : Nat) : Kept ms s₀ (State.dropRepair s d) := by
  unfold State.dropRepair
  repeat' first | exact List.Subset.trans (by decide) hm | intro _ | with_reducible assumption | dsimp only | with_reducible apply Kept.ite | with_reducible apply State.free_kept | with_reducible apply State.log__kept | with_reducible apply State.setFlag_kept | split | with_reducible refine Kept.pair (by assumption) ?_ | with_reducible refine Kept.triple (by assumption) ?_

theorem State.reloadTables_kept {ms : List Part} {s₀ s : State} (hm : [.wcb, .step, .dev, .regul, .clock] ⊆ ms) (hs : Kept ms s₀ s) (d : Nat) : Kept ms s₀ (State.reloadTables s d) := by
  unfold State.reloadTables
  repeat' first | exact List.Subset.trans (by decide) hm | intro _ | with_reducible assumption | dsimp only | with_reducible apply Kept.ite | with_reducible apply State.loadBsuRemap_kept | with_reducible apply State.loadSeed_kept | with_reducible refine Kept.foldl _ ?_ ?_ | with_reducible refine Kept.foldlSnd _ ?_ ?_ | with_reducible refine Kept.foldlTrd _ ?_ ?_ | with_reducible refine Kept.foldlFst _ ?_ ?_ | split | with_reducible refine Kept.pair (by assumption) ?_ | with_reducible refine Kept.triple (by assumption) ?_

theorem State.repairTables_kept {ms : List Part} {s₀ s : State} (hm : [.wcb, .step, .dev, .regul, .clock, .drawn] ⊆ ms) (hs : Kept ms s₀ s) (d : Nat) : Kept ms s₀ (State.repairTables s d) := by
  unfold State.repairTables
  repeat' first | exact List.Subset.trans (by decide) hm | with_reducible assumption | dsimp only | with_reducible apply Kept.ite | with_reducible apply State.dropRepair_kept | with_reducible apply State.reloadTables_kept

theorem State.leaveService_kept {ms : List Part} {s₀ s : State} (hs : Kept ms s₀ s) (d : Nat) : Kept ms s₀ (State.leaveService s d) := by
  unfold State.leaveService
  repeat' first | with_reducible assumption | dsimp only | with_reducible apply Kept.ite | with_reducible apply State.setBit_kept

theorem State.enterService_kept {ms : List Part} {s₀ s : State} (hm : [.wcb, .step, .dev, .regul, .clock, .drawn] ⊆ ms) (hs : Kept ms s₀ s) (d : Nat) : Kept ms s₀ (State.enterService s d) := by
  unfold State.enterService
  repeat' first | exact List.Subset.trans (by decide) hm | with_reducible assumption | dsimp only | with_reducible apply Kept.ite | with_reducible apply State.dropRepair_kept | with_reducible apply State.reloadTables_kept | with_reducible apply State.setBit_kept

theorem State.applyService_kept {ms : List Part} {s₀ s : State} (hm : [.seqRegs, .seq, .mem, .wcb, .fault, .plan, .icache, .step, .exch, .dev, .regul, .tier, .log, .req, .waits, .clock, .drawn, .out] ⊆ ms) (hs : Kept ms s₀ s)  : Kept ms s₀ (State.applyService s) := by
  unfold State.applyService
  repeat' first | exact List.Subset.trans (by decide) hm | intro _ | with_reducible assumption | dsimp only | with_reducible apply Kept.ite | with_reducible apply State.enterService_kept | with_reducible apply State.leaveService_kept | with_reducible apply State.settleTest_kept | with_reducible refine Kept.foldl _ ?_ ?_ | with_reducible refine Kept.foldlSnd _ ?_ ?_ | with_reducible refine Kept.foldlTrd _ ?_ ?_ | with_reducible refine Kept.foldlFst _ ?_ ?_

theorem State.popRepair_kept {ms : List Part} {s₀ s : State} (hm : [.req] ⊆ ms) (hs : Kept ms s₀ s) (rest : List Repair) : Kept ms s₀ (State.popRepair s rest) := by
  unfold State.popRepair
  repeat' first | exact List.Subset.trans (by decide) hm | intro _ | with_reducible assumption | dsimp only | with_reducible apply Kept.ite | fail_if_no_progress ((with_reducible apply Kept.upd) <;> first | with_reducible exact Or.inr rfl | exact Or.inl (hm (by decide)) | with_reducible exact id | exact fun h => Seq.ok_upd h | exact fun _ => Seq.idle_ok | exact fun _ => Seq.ok_upd Seq.idle_ok | with_reducible exact Or.inr ⟨rfl, rfl⟩ | exact Or.inr ⟨rfl, rfl, rfl⟩ | skip)

theorem State.takeService_kept {ms : List Part} {s₀ s : State} (hm : [.seqRegs, .seq, .mem, .wcb, .fault, .plan, .icache, .step, .exch, .dev, .regul, .tier, .log, .req, .waits, .clock, .drawn, .out] ⊆ ms) (hs : Kept ms s₀ s)  : Kept ms s₀ (State.takeService s) := by
  unfold State.takeService
  repeat' first | exact List.Subset.trans (by decide) hm | intro _ | with_reducible assumption | dsimp only | with_reducible apply Kept.ite | with_reducible apply State.applyService_kept | with_reducible apply State.popRepair_kept | split | with_reducible refine Kept.pair (by assumption) ?_ | with_reducible refine Kept.triple (by assumption) ?_

theorem State.doRepair_kept {ms : List Part} {s₀ s : State} (hm : [.seqRegs, .seq, .mem, .wcb, .fault, .plan, .icache, .step, .exch, .dev, .regul, .tier, .log, .req, .waits, .clock, .drawn, .out] ⊆ ms) (hs : Kept ms s₀ s) (rest : List Repair) (f : State → State) (hf : ∀ t, Kept ms s₀ t → Kept ms s₀ (f t)) : Kept ms s₀ (State.doRepair s rest f) := by
  unfold State.doRepair
  repeat' first | exact List.Subset.trans (by decide) hm | intro _ | with_reducible assumption | dsimp only | with_reducible apply Kept.ite | with_reducible apply State.popRepair_kept | with_reducible apply State.releaseGo_kept | with_reducible apply State.takeService_kept | apply hf

theorem State.queueRepair_kept {ms : List Part} {s₀ s : State} (hm : [.req] ⊆ ms) (hs : Kept ms s₀ s) (r : Repair) : Kept ms s₀ (State.queueRepair s r) := by
  unfold State.queueRepair
  repeat' first | exact List.Subset.trans (by decide) hm | intro _ | with_reducible assumption | dsimp only | with_reducible apply Kept.ite | fail_if_no_progress ((with_reducible apply Kept.upd) <;> first | with_reducible exact Or.inr rfl | exact Or.inl (hm (by decide)) | with_reducible exact id | exact fun h => Seq.ok_upd h | exact fun _ => Seq.idle_ok | exact fun _ => Seq.ok_upd Seq.idle_ok | with_reducible exact Or.inr ⟨rfl, rfl⟩ | exact Or.inr ⟨rfl, rfl, rfl⟩ | skip)

theorem State.askService_kept {ms : List Part} {s₀ s : State} (hm : [.seqRegs, .seq, .mem, .wcb, .fault, .plan, .icache, .step, .exch, .dev, .regul, .tier, .log, .req, .waits, .clock, .drawn, .out] ⊆ ms) (hs : Kept ms s₀ s)  : Kept ms s₀ (State.askService s) := by
  unfold State.askService
  repeat' first | exact List.Subset.trans (by decide) hm | intro _ | with_reducible assumption | dsimp only | with_reducible apply Kept.ite | with_reducible apply State.applyService_kept | with_reducible apply State.queueRepair_kept

theorem execTableReload_kept {ms : List Part} {s₀ s s' : State} (hm : [.seqRegs, .seq, .mem, .wcb, .fault, .plan, .icache, .step, .exch, .dev, .regul, .tier, .log, .req, .waits, .clock, .drawn, .out] ⊆ ms) (hs : Kept ms s₀ s)  (he : execTableReload s = .next s') : Kept ms s₀ s' := by
  unfold execTableReload at he
  (try dsimp only at he)
  (repeat' split at he) <;> (try cases he) <;> (repeat' first | exact List.Subset.trans (by decide) hm | intro _ | with_reducible assumption | dsimp only | with_reducible apply Kept.ite | with_reducible apply State.doRepair_kept | with_reducible apply State.repairTables_kept | split | with_reducible refine Kept.pair (by assumption) ?_ | with_reducible refine Kept.triple (by assumption) ?_)

theorem execRemapApply_kept {ms : List Part} {s₀ s s' : State} (hm : [.seqRegs, .seq, .mem, .wcb, .fault, .plan, .icache, .step, .exch, .dev, .regul, .tier, .log, .req, .waits, .clock, .drawn, .out] ⊆ ms) (hs : Kept ms s₀ s)  (he : execRemapApply s = .next s') : Kept ms s₀ s' := by
  unfold execRemapApply at he
  (try dsimp only at he)
  (repeat' split at he) <;> (try cases he) <;> (repeat' first | exact List.Subset.trans (by decide) hm | intro _ | with_reducible assumption | dsimp only | with_reducible apply Kept.ite | with_reducible apply State.doRepair_kept | with_reducible apply State.releaseGo_kept | with_reducible apply State.remapAll_kept | with_reducible apply State.remapLine_kept | split | with_reducible refine Kept.pair (by assumption) ?_ | with_reducible refine Kept.triple (by assumption) ?_ | fail_if_no_progress ((with_reducible apply Kept.upd) <;> first | with_reducible exact Or.inr rfl | exact Or.inl (hm (by decide)) | with_reducible exact id | exact fun h => Seq.ok_upd h | exact fun _ => Seq.idle_ok | exact fun _ => Seq.ok_upd Seq.idle_ok | with_reducible exact Or.inr ⟨rfl, rfl⟩ | exact Or.inr ⟨rfl, rfl, rfl⟩ | skip))

theorem State.showMirror_kept {ms : List Part} {s₀ s : State} (hs : Kept ms s₀ s)  : Kept ms s₀ (State.showMirror s) := by
  unfold State.showMirror
  repeat' first | intro _ | with_reducible assumption | dsimp only | with_reducible apply Kept.ite | with_reducible apply State.set_kept | with_reducible refine Kept.foldl _ ?_ ?_ | with_reducible refine Kept.foldlSnd _ ?_ ?_ | with_reducible refine Kept.foldlTrd _ ?_ ?_ | with_reducible refine Kept.foldlFst _ ?_ ?_ | split

theorem State.mirrorWrite_kept {ms : List Part} {s₀ s : State} (hm : [.mem, .wcb, .fault, .step, .dev, .regul, .req, .clock] ⊆ ms) (hs : Kept ms s₀ s)  : Kept ms s₀ (State.mirrorWrite s) := by
  unfold State.mirrorWrite
  repeat' first | exact List.Subset.trans (by decide) hm | intro _ | with_reducible assumption | dsimp only | with_reducible apply Kept.ite | with_reducible apply State.loadIfServing_kept | with_reducible apply State.queueRepair_kept | with_reducible apply State.remapAll_kept | with_reducible apply State.setFlag_kept | with_reducible apply State.writeRecord_kept | split | with_reducible refine Kept.pair (by assumption) ?_ | with_reducible refine Kept.triple (by assumption) ?_ | fail_if_no_progress ((with_reducible apply Kept.upd) <;> first | with_reducible exact Or.inr rfl | exact Or.inl (hm (by decide)) | with_reducible exact id | exact fun h => Seq.ok_upd h | exact fun _ => Seq.idle_ok | exact fun _ => Seq.ok_upd Seq.idle_ok | with_reducible exact Or.inr ⟨rfl, rfl⟩ | exact Or.inr ⟨rfl, rfl, rfl⟩ | skip)

theorem execRmWrite_kept {ms : List Part} {s₀ s s' : State} (hm : [.mem, .wcb, .fault, .step, .dev, .regul, .req, .clock] ⊆ ms) (hs : Kept ms s₀ s) (v : Word) (he : execRmWrite v s = .next s') : Kept ms s₀ s' := by
  unfold execRmWrite at he
  (try dsimp only at he)
  (repeat' split at he) <;> (try cases he) <;> (repeat' first | exact List.Subset.trans (by decide) hm | intro _ | with_reducible assumption | dsimp only | with_reducible apply Kept.ite | with_reducible apply State.mirrorWrite_kept | with_reducible apply State.onWrite_kept | with_reducible apply whenBit_kept)

theorem State.mapOut_kept {ms : List Part} {s₀ s : State} (hm : [.fault] ⊆ ms) (hs : Kept ms s₀ s) (d c : Nat) : Kept ms s₀ (State.mapOut s d c) := by
  unfold State.mapOut
  repeat' first | exact List.Subset.trans (by decide) hm | intro _ | with_reducible assumption | dsimp only | with_reducible apply Kept.ite | with_reducible apply State.disableRegion_kept | with_reducible apply State.holdFor_kept | with_reducible apply State.log__kept | with_reducible apply State.loseShard_kept | with_reducible apply State.setMappedOut_kept | with_reducible refine Kept.foldl _ ?_ ?_

theorem State.repairMapout_kept {ms : List Part} {s₀ s : State} (hm : [.fault, .drawn] ⊆ ms) (hs : Kept ms s₀ s) (d c : Nat) : Kept ms s₀ (State.repairMapout s d c) := by
  unfold State.repairMapout
  repeat' first | exact List.Subset.trans (by decide) hm | with_reducible assumption | dsimp only | with_reducible apply Kept.ite | with_reducible apply State.dropRepair_kept | with_reducible apply State.mapOut_kept

theorem State.mapoutGo_kept {ms : List Part} {s₀ s : State} (hm : [.fault, .req, .drawn] ⊆ ms) (hs : Kept ms s₀ s)  : Kept ms s₀ (State.mapoutGo s) := by
  unfold State.mapoutGo
  repeat' first | exact List.Subset.trans (by decide) hm | intro _ | with_reducible assumption | dsimp only | with_reducible apply Kept.ite | with_reducible apply State.queueRepair_kept | with_reducible apply State.repairMapout_kept | split | with_reducible refine Kept.pair (by assumption) ?_ | with_reducible refine Kept.triple (by assumption) ?_

theorem State.tabldGo_kept {ms : List Part} {s₀ s : State} (hm : [.req] ⊆ ms) (hs : Kept ms s₀ s)  : Kept ms s₀ (State.tabldGo s) := by
  unfold State.tabldGo
  repeat' first | exact List.Subset.trans (by decide) hm | intro _ | with_reducible assumption | dsimp only | with_reducible apply Kept.ite | with_reducible apply State.queueRepair_kept

theorem State.writeRepair_kept {ms : List Part} {s₀ s : State} (hm : [.fault, .req, .drawn] ⊆ ms) (hs : Kept ms s₀ s) (v : Word) : Kept ms s₀ (State.writeRepair s v) := by
  unfold State.writeRepair
  repeat' first | exact List.Subset.trans (by decide) hm | intro _ | with_reducible assumption | dsimp only | with_reducible apply Kept.ite | with_reducible apply State.mapoutGo_kept | with_reducible apply State.onWrite_kept | with_reducible apply State.tabldGo_kept | with_reducible apply whenBit_kept

theorem execMapoutGo_kept {ms : List Part} {s₀ s s' : State} (hm : [.fault, .req, .drawn] ⊆ ms) (hs : Kept ms s₀ s) (v : Word) (he : execMapoutGo v s = .next s') : Kept ms s₀ s' := by
  unfold execMapoutGo at he
  (try dsimp only at he)
  (repeat' split at he) <;> (try cases he) <;> (repeat' first | exact List.Subset.trans (by decide) hm | with_reducible assumption | dsimp only | with_reducible apply Kept.ite | with_reducible apply State.writeRepair_kept)

theorem execTabldGo_kept {ms : List Part} {s₀ s s' : State} (hm : [.fault, .req, .drawn] ⊆ ms) (hs : Kept ms s₀ s) (v : Word) (he : execTabldGo v s = .next s') : Kept ms s₀ s' := by
  unfold execTabldGo at he
  (try dsimp only at he)
  (repeat' split at he) <;> (try cases he) <;> (repeat' first | exact List.Subset.trans (by decide) hm | with_reducible assumption | dsimp only | with_reducible apply Kept.ite | with_reducible apply State.writeRepair_kept)

theorem execChannelMapout_kept {ms : List Part} {s₀ s s' : State} (hm : [.seqRegs, .seq, .mem, .wcb, .fault, .plan, .icache, .step, .exch, .dev, .regul, .tier, .log, .req, .waits, .clock, .drawn, .out] ⊆ ms) (hs : Kept ms s₀ s)  (he : execChannelMapout s = .next s') : Kept ms s₀ s' := by
  unfold execChannelMapout at he
  (try dsimp only at he)
  (repeat' split at he) <;> (try cases he) <;> (repeat' first | exact List.Subset.trans (by decide) hm | intro _ | with_reducible assumption | dsimp only | with_reducible apply Kept.ite | with_reducible apply State.doRepair_kept | with_reducible apply State.repairMapout_kept | split | with_reducible refine Kept.pair (by assumption) ?_ | with_reducible refine Kept.triple (by assumption) ?_)

theorem State.holdClr_kept {ms : List Part} {s₀ s : State} (hs : Kept ms s₀ s)  : Kept ms s₀ (State.holdClr s) := by
  unfold State.holdClr
  repeat' first | with_reducible assumption | dsimp only | with_reducible apply Kept.ite | with_reducible apply State.endHold_kept | with_reducible apply State.setFlag_kept

theorem State.enterClover_kept {ms : List Part} {s₀ s : State} (hm : [.seq, .plan, .icache, .step, .exch, .tier, .waits] ⊆ ms) (hs : Kept ms s₀ s)  : Kept ms s₀ (State.enterClover s) := by
  unfold State.enterClover
  repeat' first | exact List.Subset.trans (by decide) hm | intro _ | with_reducible assumption | dsimp only | with_reducible apply Kept.ite | with_reducible apply Seq.ok_upd | exact Seq.idle_ok | exact Or.inr (fun _ => ⟨rfl, rfl, rfl⟩) | exact Or.inl (hm (by decide)) | with_reducible apply State.set64_kept | with_reducible apply State.setFlag_kept | with_reducible apply State.set_kept | fail_if_no_progress ((with_reducible apply Kept.upd) <;> first | with_reducible exact Or.inr rfl | exact Or.inl (hm (by decide)) | with_reducible exact id | exact fun h => Seq.ok_upd h | exact fun _ => Seq.idle_ok | exact fun _ => Seq.ok_upd Seq.idle_ok | with_reducible exact Or.inr ⟨rfl, rfl⟩ | exact Or.inr ⟨rfl, rfl, rfl⟩ | skip)

theorem State.cloverGo_kept {ms : List Part} {s₀ s : State} (hm : [.seqRegs, .seq, .mem, .wcb, .fault, .plan, .icache, .step, .exch, .dev, .regul, .tier, .log, .req, .waits, .clock, .drawn, .out] ⊆ ms) (hs : Kept ms s₀ s)  : Kept ms s₀ (State.cloverGo s) := by
  unfold State.cloverGo
  repeat' first | exact List.Subset.trans (by decide) hm | intro _ | with_reducible assumption | dsimp only | with_reducible apply Kept.ite | with_reducible apply State.enterClover_kept | with_reducible apply State.rotDrop_kept | with_reducible apply State.settleTest_kept

theorem State.writeFaultControl_kept {ms : List Part} {s₀ s : State} (hm : [.seqRegs, .seq, .mem, .wcb, .fault, .plan, .icache, .step, .exch, .dev, .regul, .tier, .log, .req, .waits, .clock, .drawn, .out] ⊆ ms) (hs : Kept ms s₀ s) (v : Word) : Kept ms s₀ (State.writeFaultControl s v) := by
  unfold State.writeFaultControl
  repeat' first | exact List.Subset.trans (by decide) hm | intro _ | with_reducible assumption | dsimp only | with_reducible apply Kept.ite | with_reducible apply State.cloverGo_kept | with_reducible apply State.holdClr_kept | with_reducible apply State.onWrite_kept | with_reducible apply whenBit_kept

theorem execHoldClr_kept {ms : List Part} {s₀ s s' : State} (hm : [.seqRegs, .seq, .mem, .wcb, .fault, .plan, .icache, .step, .exch, .dev, .regul, .tier, .log, .req, .waits, .clock, .drawn, .out] ⊆ ms) (hs : Kept ms s₀ s) (v : Word) (he : execHoldClr v s = .next s') : Kept ms s₀ s' := by
  unfold execHoldClr at he
  (try dsimp only at he)
  (repeat' split at he) <;> (try cases he) <;> (repeat' first | exact List.Subset.trans (by decide) hm | with_reducible assumption | dsimp only | with_reducible apply Kept.ite | with_reducible apply State.writeFaultControl_kept)

theorem execCloverGo_kept {ms : List Part} {s₀ s s' : State} (hm : [.seqRegs, .seq, .mem, .wcb, .fault, .plan, .icache, .step, .exch, .dev, .regul, .tier, .log, .req, .waits, .clock, .drawn, .out] ⊆ ms) (hs : Kept ms s₀ s) (v : Word) (he : execCloverGo v s = .next s') : Kept ms s₀ s' := by
  unfold execCloverGo at he
  (try dsimp only at he)
  (repeat' split at he) <;> (try cases he) <;> (repeat' first | exact List.Subset.trans (by decide) hm | with_reducible assumption | dsimp only | with_reducible apply Kept.ite | with_reducible apply State.writeFaultControl_kept)

end Sys2Proof.Machine
end

