-- ==== Sys2Proof/Laws/KeptBoundary.lean ====
section
/-! SUPPORT. What the functions of Machine/Boundary.lean keep. -/

namespace Sys2Proof.Machine

theorem execGo_kept {ms : List Part} {s₀ s s' : State} (hm : [.seqRegs, .seq, .plan, .icache, .step, .tier] ⊆ ms) (hs : Kept ms s₀ s) (v : Word) (he : execGo v s = .next s') : Kept ms s₀ s' := by
  unfold execGo at he
  (try dsimp only at he)
  (repeat' split at he) <;> (try cases he) <;> (repeat' first | exact List.Subset.trans (by decide) hm | intro _ | with_reducible assumption | dsimp only | with_reducible apply Kept.ite | with_reducible apply State.onWrite_kept | with_reducible apply State.takeGo_kept | with_reducible apply whenBit_kept)

theorem State.setSG_kept {ms : List Part} {s₀ s : State} (hs : Kept ms s₀ s)  : Kept ms s₀ (State.setSG s) := by
  unfold State.setSG
  repeat' first | with_reducible assumption | dsimp only | with_reducible apply Kept.ite | with_reducible apply State.set64_kept | with_reducible apply State.setFlag_kept

theorem execSgSet_kept {ms : List Part} {s₀ s s' : State} (hs : Kept ms s₀ s) (v : Word) (he : execSgSet v s = .next s') : Kept ms s₀ s' := by
  unfold execSgSet at he
  (try dsimp only at he)
  (repeat' split at he) <;> (try cases he) <;> (repeat' first | intro _ | with_reducible assumption | dsimp only | with_reducible apply Kept.ite | with_reducible apply State.onWrite_kept | with_reducible apply State.setSG_kept | with_reducible apply whenBit_kept)

theorem execCntGo_kept {ms : List Part} {s₀ s s' : State} (hm : [.seqRegs, .seq, .mem, .wcb, .fault, .plan, .icache, .step, .exch, .dev, .regul, .tier, .log, .waits, .clock, .drawn, .out] ⊆ ms) (hs : Kept ms s₀ s) (v : Word) (he : execCntGo v s = .next s') : Kept ms s₀ s' := by
  unfold execCntGo at he
  (try dsimp only at he)
  (repeat' split at he) <;> (try cases he) <;> (repeat' first | exact List.Subset.trans (by decide) hm | intro _ | with_reducible assumption | dsimp only | with_reducible apply Kept.ite | with_reducible apply State.onWrite_kept | with_reducible apply State.takeCnt_kept | with_reducible apply whenBit_kept)

theorem State.releaseRow_kept {ms : List Part} {s₀ s : State} (hm : [.mem, .wcb, .step, .dev, .regul, .clock] ⊆ ms) (hs : Kept ms s₀ s) (l : RowLoc) : Kept ms s₀ (State.releaseRow s l) := by
  unfold State.releaseRow
  repeat' first | exact List.Subset.trans (by decide) hm | intro _ | with_reducible assumption | dsimp only | with_reducible apply Kept.ite | with_reducible apply State.awaitPair_kept | with_reducible apply State.charge_kept | with_reducible apply State.modStep_kept | with_reducible apply State.put_kept

theorem execReductionRelease_kept {ms : List Part} {s₀ s s' : State} (hm : [.mem, .wcb, .step, .dev, .regul, .clock] ⊆ ms) (hs : Kept ms s₀ s) (row : Nat) (he : execReductionRelease row s = .next s') : Kept ms s₀ s' := by
  unfold execReductionRelease at he
  (try dsimp only at he)
  (repeat' split at he) <;> (try cases he) <;> (repeat' first | exact List.Subset.trans (by decide) hm | with_reducible assumption | dsimp only | with_reducible apply Kept.ite | with_reducible apply State.releaseRow_kept)

theorem State.releaseAll_kept {ms : List Part} {s₀ s : State} (hm : [.mem, .wcb, .step, .dev, .regul, .clock] ⊆ ms) (hs : Kept ms s₀ s)  : Kept ms s₀ (State.releaseAll s) := by
  unfold State.releaseAll
  repeat' first | exact List.Subset.trans (by decide) hm | intro _ | with_reducible assumption | dsimp only | with_reducible apply Kept.ite | with_reducible apply State.releaseRow_kept | with_reducible refine Kept.foldl _ ?_ ?_

theorem State.updateShards_kept {ms : List Part} {s₀ s : State} (hm : [.mem, .wcb, .fault, .plan, .step, .regul, .clock] ⊆ ms) (hs : Kept ms s₀ s)  : Kept ms s₀ (State.updateShards s) := by
  unfold State.updateShards
  repeat' first | exact List.Subset.trans (by decide) hm | intro _ | with_reducible assumption | dsimp only | with_reducible apply Kept.ite | with_reducible apply State.modShard_kept | with_reducible refine Kept.foldl _ ?_ ?_

theorem State.advanceOdig_kept {ms : List Part} {s₀ s : State} (hs : Kept ms s₀ s)  : Kept ms s₀ (State.advanceOdig s) := by
  unfold State.advanceOdig
  repeat' first | intro _ | with_reducible assumption | dsimp only | with_reducible apply Kept.ite | with_reducible apply State.set64_kept | with_reducible refine Kept.foldl _ ?_ ?_ | with_reducible refine Kept.foldlSnd _ ?_ ?_ | with_reducible refine Kept.foldlTrd _ ?_ ?_ | with_reducible refine Kept.foldlFst _ ?_ ?_ | split

theorem State.advance64_kept {ms : List Part} {s₀ s : State} (hs : Kept ms s₀ s) (lo hi : Field) : Kept ms s₀ (State.advance64 s lo hi) := by
  unfold State.advance64
  repeat' first | with_reducible assumption | dsimp only | with_reducible apply Kept.ite | with_reducible apply State.set64_kept

theorem State.bindTopo_kept {ms : List Part} {s₀ s : State} (hs : Kept ms s₀ s) (d : Nat) : Kept ms s₀ (State.bindTopo s d) := by
  unfold State.bindTopo
  repeat' first | intro _ | with_reducible assumption | dsimp only | with_reducible apply Kept.ite | with_reducible apply State.set_kept | with_reducible apply State.setFlag_kept

theorem execTopoDigest_kept {ms : List Part} {s₀ s s' : State} (hm : [.exch] ⊆ ms) (hs : Kept ms s₀ s) (digest : DWord) (he : execTopoDigest digest s = .next s') : Kept ms s₀ s' := by
  unfold execTopoDigest at he
  (try dsimp only at he)
  (repeat' split at he) <;> (try cases he) <;> (repeat' first | exact List.Subset.trans (by decide) hm | intro _ | with_reducible assumption | dsimp only | with_reducible apply Kept.ite | with_reducible apply State.bindTopo_kept | with_reducible apply State.modExch_kept | with_reducible apply State.set64_kept)

theorem State.takeTopo_kept {ms : List Part} {s₀ s : State} (hm : [.exch] ⊆ ms) (hs : Kept ms s₀ s)  : Kept ms s₀ (State.takeTopo s) := by
  unfold State.takeTopo
  repeat' first | exact List.Subset.trans (by decide) hm | intro _ | with_reducible assumption | dsimp only | with_reducible apply Kept.ite | with_reducible apply State.bindTopo_kept | with_reducible apply State.modExch_kept | split

theorem execPortFailed_kept {ms : List Part} {s₀ s s' : State} (hm : [.pins] ⊆ ms) (hs : Kept ms s₀ s) (port : BitVec 3) (he : execPortFailed port s = .next s') : Kept ms s₀ s' := by
  unfold execPortFailed at he
  (try dsimp only at he)
  (repeat' split at he) <;> (try cases he) <;> (repeat' first | exact List.Subset.trans (by decide) hm | with_reducible assumption | dsimp only | with_reducible apply Kept.ite | with_reducible apply State.setBit_kept | split | fail_if_no_progress ((with_reducible apply Kept.upd) <;> first | with_reducible exact Or.inr rfl | exact Or.inl (hm (by decide)) | with_reducible exact id | exact fun h => Seq.ok_upd h | exact fun _ => Seq.idle_ok | exact fun _ => Seq.ok_upd Seq.idle_ok | with_reducible exact Or.inr ⟨rfl, rfl⟩ | exact Or.inr ⟨rfl, rfl, rfl⟩ | skip))

theorem State.checkBreak_kept {ms : List Part} {s₀ s : State} (hs : Kept ms s₀ s)  : Kept ms s₀ (State.checkBreak s) := by
  unfold State.checkBreak
  repeat' first | with_reducible assumption | dsimp only | with_reducible apply Kept.ite | with_reducible apply State.setFlag_kept

theorem State.clearStep_kept {ms : List Part} {s₀ s : State} (hm : [.seq, .step, .exch, .tier, .waits] ⊆ ms) (hs : Kept ms s₀ s)  : Kept ms s₀ (State.clearStep s) := by
  unfold State.clearStep
  repeat' first | exact List.Subset.trans (by decide) hm | intro _ | with_reducible assumption | dsimp only | with_reducible apply Kept.ite | with_reducible apply Seq.ok_upd | exact Seq.idle_ok | exact Or.inr (fun _ => ⟨rfl, rfl, rfl⟩) | exact Or.inl (hm (by decide)) | with_reducible apply State.setFlag_kept | fail_if_no_progress ((with_reducible apply Kept.upd) <;> first | with_reducible exact Or.inr rfl | exact Or.inl (hm (by decide)) | with_reducible exact id | exact fun h => Seq.ok_upd h | exact fun _ => Seq.idle_ok | exact fun _ => Seq.ok_upd Seq.idle_ok | with_reducible exact Or.inr ⟨rfl, rfl⟩ | exact Or.inr ⟨rfl, rfl, rfl⟩ | skip)

theorem State.takeZero_kept {ms : List Part} {s₀ s : State} (hm : [.req] ⊆ ms) (hs : Kept ms s₀ s) (n : Nat) : Kept ms s₀ (State.takeZero s n) := by
  unfold State.takeZero
  repeat' first | exact List.Subset.trans (by decide) hm | intro _ | with_reducible assumption | dsimp only | with_reducible apply Kept.ite | with_reducible apply State.setFlag_kept | with_reducible apply State.set_kept | split | with_reducible refine Kept.pair (by assumption) ?_ | with_reducible refine Kept.triple (by assumption) ?_ | fail_if_no_progress ((with_reducible apply Kept.upd) <;> first | with_reducible exact Or.inr rfl | exact Or.inl (hm (by decide)) | with_reducible exact id | exact fun h => Seq.ok_upd h | exact fun _ => Seq.idle_ok | exact fun _ => Seq.ok_upd Seq.idle_ok | with_reducible exact Or.inr ⟨rfl, rfl⟩ | exact Or.inr ⟨rfl, rfl, rfl⟩ | skip)

theorem State.takeWaitingZero_kept {ms : List Part} {s₀ s : State} (hm : [.req] ⊆ ms) (hs : Kept ms s₀ s)  : Kept ms s₀ (State.takeWaitingZero s) := by
  unfold State.takeWaitingZero
  repeat' first | exact List.Subset.trans (by decide) hm | intro _ | with_reducible assumption | dsimp only | with_reducible apply Kept.ite | with_reducible apply State.takeZero_kept | split | with_reducible refine Kept.pair (by assumption) ?_ | with_reducible refine Kept.triple (by assumption) ?_

theorem State.dropPassedSwap_kept {ms : List Part} {s₀ s : State} (hm : [.plan] ⊆ ms) (hs : Kept ms s₀ s)  : Kept ms s₀ (State.dropPassedSwap s) := by
  unfold State.dropPassedSwap
  repeat' first | exact List.Subset.trans (by decide) hm | with_reducible assumption | dsimp only | with_reducible apply Kept.ite | with_reducible apply State.set_kept | with_reducible apply State.set64_kept | split | fail_if_no_progress ((with_reducible apply Kept.upd) <;> first | with_reducible exact Or.inr rfl | exact Or.inl (hm (by decide)) | with_reducible exact id | exact fun h => Seq.ok_upd h | exact fun _ => Seq.idle_ok | exact fun _ => Seq.ok_upd Seq.idle_ok | with_reducible exact Or.inr ⟨rfl, rfl⟩ | exact Or.inr ⟨rfl, rfl, rfl⟩ | skip)

theorem State.latchRequests_kept {ms : List Part} {s₀ s : State} (hm : [.req] ⊆ ms) (hs : Kept ms s₀ s)  : Kept ms s₀ (State.latchRequests s) := by
  unfold State.latchRequests
  repeat' first | exact List.Subset.trans (by decide) hm | intro _ | with_reducible assumption | dsimp only | with_reducible apply Kept.ite | fail_if_no_progress ((with_reducible apply Kept.upd) <;> first | with_reducible exact Or.inr rfl | exact Or.inl (hm (by decide)) | with_reducible exact id | exact fun h => Seq.ok_upd h | exact fun _ => Seq.idle_ok | exact fun _ => Seq.ok_upd Seq.idle_ok | with_reducible exact Or.inr ⟨rfl, rfl⟩ | exact Or.inr ⟨rfl, rfl, rfl⟩ | skip)

theorem State.reachBoundary_kept {ms : List Part} {s₀ s : State} (hm : [.seqRegs, .seq, .mem, .wcb, .fault, .plan, .icache, .step, .exch, .dev, .regul, .tier, .log, .req, .waits, .clock, .drawn, .out] ⊆ ms) (hs : Kept ms s₀ s) (outcome : Nat) : Kept ms s₀ (State.reachBoundary s outcome) := by
  unfold State.reachBoundary
  repeat' first | exact List.Subset.trans (by decide) hm | intro _ | with_reducible assumption | dsimp only | with_reducible apply Kept.ite | with_reducible apply State.checkBreak_kept | with_reducible apply State.clearStep_kept | with_reducible apply State.dropPassedSwap_kept | with_reducible apply State.latchRequests_kept | with_reducible apply State.perf_kept | with_reducible apply State.raise_kept | with_reducible apply State.set_kept | with_reducible apply State.stamp_kept | with_reducible apply State.takeHolds_kept | with_reducible apply State.takeService_kept | with_reducible apply State.takeTopo_kept | with_reducible apply State.takeWaitingZero_kept

theorem State.closeLog_kept {ms : List Part} {s₀ s : State} (hm : [.mem, .wcb, .fault, .step, .dev, .regul, .log, .clock] ⊆ ms) (hs : Kept ms s₀ s)  : Kept ms s₀ (State.closeLog s) := by
  unfold State.closeLog
  repeat' first | exact List.Subset.trans (by decide) hm | intro _ | with_reducible assumption | dsimp only | with_reducible apply Kept.ite | with_reducible apply State.keepLog_kept

theorem State.commitBoundary_kept {ms : List Part} {s₀ s : State} (hm : [.seqRegs, .seq, .mem, .wcb, .fault, .plan, .icache, .step, .exch, .dev, .regul, .tier, .log, .req, .waits, .clock, .drawn, .out] ⊆ ms) (hs : Kept ms s₀ s)  : Kept ms s₀ (State.commitBoundary s) := by
  unfold State.commitBoundary
  repeat' first | exact List.Subset.trans (by decide) hm | with_reducible assumption | dsimp only | with_reducible apply Kept.ite | with_reducible apply State.advance64_kept | with_reducible apply State.advanceOdig_kept | with_reducible apply State.closeLog_kept | with_reducible apply State.reachBoundary_kept | with_reducible apply State.releaseAll_kept | with_reducible apply State.updateShards_kept

theorem State.skipBoundary_kept {ms : List Part} {s₀ s : State} (hm : [.seqRegs, .seq, .mem, .wcb, .fault, .plan, .icache, .step, .exch, .dev, .regul, .tier, .log, .req, .waits, .clock, .drawn, .out] ⊆ ms) (hs : Kept ms s₀ s)  : Kept ms s₀ (State.skipBoundary s) := by
  unfold State.skipBoundary
  repeat' first | exact List.Subset.trans (by decide) hm | with_reducible assumption | dsimp only | with_reducible apply Kept.ite | with_reducible apply State.advance64_kept | with_reducible apply State.closeLog_kept | with_reducible apply State.reachBoundary_kept | with_reducible apply State.releaseAll_kept

theorem State.refuseBoundary_kept {ms : List Part} {s₀ s : State} (hm : [.seqRegs, .seq, .mem, .wcb, .fault, .plan, .icache, .step, .exch, .dev, .regul, .tier, .log, .req, .waits, .clock, .drawn, .out] ⊆ ms) (hs : Kept ms s₀ s)  : Kept ms s₀ (State.refuseBoundary s) := by
  unfold State.refuseBoundary
  repeat' first | exact List.Subset.trans (by decide) hm | with_reducible assumption | dsimp only | with_reducible apply Kept.ite | with_reducible apply State.reachBoundary_kept

theorem execStepBoundary_kept {ms : List Part} {s₀ s s' : State} (hm : [.seqRegs, .seq, .mem, .wcb, .fault, .plan, .icache, .step, .exch, .dev, .regul, .tier, .log, .req, .waits, .clock, .drawn, .out] ⊆ ms) (hs : Kept ms s₀ s)  (he : execStepBoundary s = .next s') : Kept ms s₀ s' := by
  have h := State.settleInsts_kept (List.Subset.trans (by decide) hm) hs
  unfold execStepBoundary at he
  generalize s.settleInsts = t at h he
  have h1 := fun v => State.trap_kept (List.Subset.trans (by decide) hm) h 0x03 v
  have h2 := State.refuseBoundary_kept (List.Subset.trans (by decide) hm) h
  have h3 := State.commitBoundary_kept (List.Subset.trans (by decide) hm) h
  have h4 := State.skipBoundary_kept (List.Subset.trans (by decide) hm) h
  dsimp only at he
  (repeat' split at he) <;> obtain rfl := Host.Outcome.next.inj he <;> first | with_reducible assumption | with_reducible exact h1 _

theorem execStallLimitPassed_kept {ms : List Part} {s₀ s s' : State} (hm : [.waits, .clock] ⊆ ms) (hs : Kept ms s₀ s) (w : Watch) (he : execStallLimitPassed w s = .next s') : Kept ms s₀ s' := by
  unfold execStallLimitPassed at he
  (try dsimp only at he)
  (repeat' split at he) <;> (try cases he) <;> (repeat' first | exact List.Subset.trans (by decide) hm | intro _ | with_reducible assumption | dsimp only | with_reducible apply Kept.ite | with_reducible apply State.advance_kept | with_reducible apply State.raise_kept | with_reducible apply State.setFlag_kept | split | with_reducible refine Kept.pair (by assumption) ?_ | with_reducible refine Kept.triple (by assumption) ?_ | fail_if_no_progress ((with_reducible apply Kept.upd) <;> first | with_reducible exact Or.inr rfl | exact Or.inl (hm (by decide)) | with_reducible exact id | exact fun h => Seq.ok_upd h | exact fun _ => Seq.idle_ok | exact fun _ => Seq.ok_upd Seq.idle_ok | with_reducible exact Or.inr ⟨rfl, rfl⟩ | exact Or.inr ⟨rfl, rfl, rfl⟩ | skip))

end Sys2Proof.Machine
end

