-- ==== Sys2Proof/Laws/KeptCommit.lean ====
section
/-! SUPPORT. What the functions of Machine/Commit.lean keep. -/

namespace Sys2Proof.Machine

theorem State.evalGroup_kept {ms : List Part} {s₀ s : State} (hm : [.mem, .wcb, .fault, .plan, .step, .regul, .clock] ⊆ ms) (hs : Kept ms s₀ s) (p : Plan) (g : Nat) : Kept ms s₀ (State.evalGroup s p g) := by
  unfold State.evalGroup
  repeat' first | exact List.Subset.trans (by decide) hm | intro _ | with_reducible assumption | dsimp only | with_reducible apply Kept.ite | with_reducible apply State.modGroup_kept | with_reducible apply State.modStep_kept

theorem execScheduleEval_kept {ms : List Part} {s₀ s s' : State} (hm : [.mem, .wcb, .fault, .plan, .step, .regul, .clock] ⊆ ms) (hs : Kept ms s₀ s)  (he : execScheduleEval s = .next s') : Kept ms s₀ s' := by
  unfold execScheduleEval at he
  (try dsimp only at he)
  (repeat' split at he) <;> (try cases he) <;> (repeat' first | exact List.Subset.trans (by decide) hm | intro _ | with_reducible assumption | dsimp only | with_reducible apply Kept.ite | with_reducible apply State.evalGroup_kept | with_reducible refine Kept.foldl _ ?_ ?_)

theorem State.markLate_kept {ms : List Part} {s₀ s : State} (hm : [.step, .waits] ⊆ ms) (hs : Kept ms s₀ s) (m : Nat) : Kept ms s₀ (State.markLate s m) := by
  unfold State.markLate
  repeat' first | exact List.Subset.trans (by decide) hm | intro _ | with_reducible assumption | dsimp only | with_reducible apply Kept.ite | with_reducible apply State.beginWait_kept | with_reducible apply State.bump_kept | with_reducible apply State.modEntry_kept

theorem State.readUnit_kept {ms : List Part} {s₀ s : State} (hm : [.fault, .step, .dev, .regul, .clock] ⊆ ms) (hs : Kept ms s₀ s) (a : ErrSrc) (p : Plan) (u : Nat) : Kept ms s₀ (State.readUnit s a p u).2 := by
  unfold State.readUnit
  repeat' first | exact List.Subset.trans (by decide) hm | intro _ | with_reducible assumption | dsimp only | with_reducible apply Kept.ite | with_reducible apply State.chargeReads_kept | with_reducible apply State.fetchLine_kept | with_reducible refine Kept.foldl _ ?_ ?_ | with_reducible refine Kept.foldlSnd _ ?_ ?_ | with_reducible refine Kept.foldlTrd _ ?_ ?_ | with_reducible refine Kept.foldlFst _ ?_ ?_ | split

theorem State.writeUnit_kept {ms : List Part} {s₀ s : State} (hm : [.mem, .wcb, .fault, .step, .regul, .clock] ⊆ ms) (hs : Kept ms s₀ s) (a : ErrSrc) (p : Plan) (u : Nat) (r : UnitRec) : Kept ms s₀ (State.writeUnit s a p u r) := by
  unfold State.writeUnit
  repeat' first | exact List.Subset.trans (by decide) hm | intro _ | with_reducible assumption | dsimp only | with_reducible apply Kept.ite | with_reducible apply State.chargeWrites_kept | with_reducible apply State.writeLine_kept | with_reducible refine Kept.foldl _ ?_ ?_

theorem State.openUnit_kept {ms : List Part} {s₀ s : State} (hm : [.mem, .wcb, .fault, .plan, .step, .dev, .regul, .log, .clock] ⊆ ms) (hs : Kept ms s₀ s) (p : Plan) (g u : Nat) : Kept ms s₀ (State.openUnit s p g u).2 := by
  unfold State.openUnit
  repeat' first | exact List.Subset.trans (by decide) hm | intro _ | with_reducible assumption | dsimp only | with_reducible apply Kept.ite | with_reducible apply State.keepLog_kept | with_reducible apply State.modStep_kept | with_reducible apply State.orFlags_kept | with_reducible apply State.readUnit_kept | with_reducible apply State.writeUnit_kept | split | with_reducible refine Kept.pair (by assumption) ?_ | with_reducible refine Kept.triple (by assumption) ?_

theorem State.openUnits_kept (p : Plan) (g : Nat) (us : List Nat) {ms : List Part} {s₀ s : State} (hm : [.mem, .wcb, .fault, .plan, .step, .dev, .regul, .log, .clock] ⊆ ms) (hs : Kept ms s₀ s) :
    Kept ms s₀ (State.openUnits p g us s).2 := by
  induction us generalizing s with
  | nil => exact hs
  | cons u t ih =>
    unfold State.openUnits
    split
    · next heq => exact ih (Kept.pair heq (State.openUnit_kept (List.Subset.trans (by decide) hm) hs _ _ _))
    · next heq => exact Kept.pair heq (State.openUnit_kept (List.Subset.trans (by decide) hm) hs _ _ _)

theorem State.afterEntries_kept {ms : List Part} {s₀ s : State} (hm : [.dev, .tier] ⊆ ms) (hs : Kept ms s₀ s)  : Kept ms s₀ (State.afterEntries s) := by
  unfold State.afterEntries
  repeat' first | exact List.Subset.trans (by decide) hm | with_reducible assumption | dsimp only | with_reducible apply Kept.ite | with_reducible apply State.maybeEmission_kept | with_reducible apply State.settleMoved_kept | with_reducible apply State.stamp_kept

theorem State.endEntry_kept {ms : List Part} {s₀ s : State} (hm : [.fault, .step, .dev, .tier] ⊆ ms) (hs : Kept ms s₀ s) (a : ErrSrc) (n : Nat) (ok : Bool) : Kept ms s₀ (State.endEntry s a n ok) := by
  unfold State.endEntry
  repeat' first | exact List.Subset.trans (by decide) hm | intro _ | with_reducible assumption | dsimp only | with_reducible apply Kept.ite | with_reducible apply State.afterEntries_kept | with_reducible apply State.loseShard_kept | with_reducible apply State.modEntry_kept

theorem State.loseUnit_kept {ms : List Part} {s₀ s : State} (hm : [.fault, .step, .dev, .tier] ⊆ ms) (hs : Kept ms s₀ s) (u : Nat) : Kept ms s₀ (State.loseUnit s u) := by
  unfold State.loseUnit
  repeat' first | exact List.Subset.trans (by decide) hm | intro _ | with_reducible assumption | dsimp only | with_reducible apply Kept.ite | with_reducible apply State.afterEntries_kept | with_reducible apply State.loseShard_kept | with_reducible apply State.modStep_kept | with_reducible refine Kept.foldl _ ?_ ?_

theorem State.blockBc_kept {ms : List Part} {s₀ s : State} (hm : [.drawn] ⊆ ms) (hs : Kept ms s₀ s) (e : CommitEntry) : Kept ms s₀ (State.blockBc s e).2 := by
  unfold State.blockBc
  repeat' first | exact List.Subset.trans (by decide) hm | intro _ | with_reducible assumption | dsimp only | with_reducible apply Kept.ite | with_reducible apply State.free_kept | with_reducible refine Kept.foldl _ ?_ ?_ | with_reducible refine Kept.foldlSnd _ ?_ ?_ | with_reducible refine Kept.foldlTrd _ ?_ ?_ | with_reducible refine Kept.foldlFst _ ?_ ?_ | split

theorem State.openPartials_kept {ms : List Part} {s₀ s : State} (hm : [.drawn] ⊆ ms) (hs : Kept ms s₀ s) (r : PassRow) (o : PassOut) : Kept ms s₀ (State.openPartials s r o).2 := by
  unfold State.openPartials
  repeat' first | exact List.Subset.trans (by decide) hm | with_reducible assumption | dsimp only | with_reducible apply Kept.ite | with_reducible apply State.free_kept | split

theorem State.bsuPass_kept {ms : List Part} {s₀ s : State} (hm : [.mem, .wcb, .fault, .dev, .drawn] ⊆ ms) (hs : Kept ms s₀ s) (l : RowLoc) (prow : Nat) (consts row : Line) (recorded : Bool) : Kept ms s₀ (State.bsuPass s l prow consts row recorded) := by
  unfold State.bsuPass
  repeat' first | exact List.Subset.trans (by decide) hm | intro _ | with_reducible assumption | dsimp only | with_reducible apply Kept.ite | with_reducible apply State.corrected_kept | with_reducible apply State.countCorr_kept | with_reducible apply State.openPartials_kept | with_reducible apply State.runPass_kept | with_reducible apply State.seenByBsu_kept | with_reducible apply State.setBsu_kept | with_reducible apply State.withRemap_kept | with_reducible apply State.zeroRow_kept | with_reducible refine Kept.foldl _ ?_ ?_ | with_reducible refine Kept.foldlSnd _ ?_ ?_ | with_reducible refine Kept.foldlTrd _ ?_ ?_ | with_reducible refine Kept.foldlFst _ ?_ ?_ | split | with_reducible refine Kept.pair (by assumption) ?_ | with_reducible refine Kept.triple (by assumption) ?_

theorem State.foldResult_kept {ms : List Part} {s₀ s : State} (hm : [.mem, .wcb, .fault, .plan, .step, .regul, .clock] ⊆ ms) (hs : Kept ms s₀ s) (n : Nat) (e : EntrySt) (r : RowResult) : Kept ms s₀ (State.foldResult s n e r) := by
  unfold State.foldResult
  repeat' first | exact List.Subset.trans (by decide) hm | intro _ | with_reducible assumption | dsimp only | with_reducible apply Kept.ite | with_reducible apply State.modEntry_kept | with_reducible apply State.modShard_kept | with_reducible apply State.orFlags_kept

theorem State.noteBad_kept {ms : List Part} {s₀ s : State} (hm : [.step] ⊆ ms) (hs : Kept ms s₀ s) (x : LineLoc) : Kept ms s₀ (State.noteBad s x) := by
  unfold State.noteBad
  repeat' first | exact List.Subset.trans (by decide) hm | intro _ | with_reducible assumption | dsimp only | with_reducible apply Kept.ite | with_reducible apply State.log__kept | with_reducible apply State.poison_kept | with_reducible apply XAcc.far_kept | split | with_reducible refine Kept.pair (by assumption) ?_ | with_reducible refine Kept.triple (by assumption) ?_

theorem State.noteResult_kept {ms : List Part} {s₀ s : State} (hm : [.step] ⊆ ms) (hs : Kept ms s₀ s) (e : EntrySt) (r : RowResult) : Kept ms s₀ (State.noteResult s e r) := by
  unfold State.noteResult
  repeat' first | exact List.Subset.trans (by decide) hm | intro _ | with_reducible assumption | dsimp only | with_reducible apply Kept.ite | with_reducible apply State.log__kept | with_reducible apply State.noteBad_kept | with_reducible refine Kept.foldl _ ?_ ?_ | with_reducible refine Kept.foldlSnd _ ?_ ?_ | with_reducible refine Kept.foldlTrd _ ?_ ?_ | with_reducible refine Kept.foldlFst _ ?_ ?_

theorem State.chargePassWrites_kept {ms : List Part} {s₀ s : State} (hm : [.regul, .clock] ⊆ ms) (hs : Kept ms s₀ s) (l : RowLoc) (r : PassRow) (o : PassOut) : Kept ms s₀ (State.chargePassWrites s l r o) := by
  unfold State.chargePassWrites
  repeat' first | exact List.Subset.trans (by decide) hm | intro _ | with_reducible assumption | dsimp only | with_reducible apply Kept.ite | with_reducible apply State.chargeWrites_kept | with_reducible apply State.charge_kept

theorem State.chargeCsu_kept {ms : List Part} {s₀ s : State} (hm : [.regul, .clock] ⊆ ms) (hs : Kept ms s₀ s) (l : RowLoc) (prow : Nat) (r : PassRow) (o : PassOut) : Kept ms s₀ (State.chargeCsu s l prow r o) := by
  unfold State.chargeCsu
  repeat' first | exact List.Subset.trans (by decide) hm | intro _ | with_reducible assumption | dsimp only | with_reducible apply Kept.ite | with_reducible apply State.chargePassWrites_kept | with_reducible apply State.chargeReads_kept

theorem State.noteReads_kept {ms : List Part} {s₀ s : State} (hm : [.fault, .step] ⊆ ms) (hs : Kept ms s₀ s) (o : PassOut) : Kept ms s₀ (State.noteReads s o) := by
  unfold State.noteReads
  repeat' first | exact List.Subset.trans (by decide) hm | intro _ | with_reducible assumption | dsimp only | with_reducible apply Kept.ite | with_reducible apply State.log__kept | with_reducible apply State.noteLine_kept | with_reducible refine Kept.foldl _ ?_ ?_ | with_reducible refine Kept.foldlSnd _ ?_ ?_ | with_reducible refine Kept.foldlTrd _ ?_ ?_ | with_reducible refine Kept.foldlFst _ ?_ ?_ | split

theorem State.putUnitLine_kept {ms : List Part} {s₀ s : State} (hm : [.mem, .wcb, .fault, .step] ⊆ ms) (hs : Kept ms s₀ s) (a : ErrSrc) (e : RegionWords) (u i : Nat) (b : List Byte) : Kept ms s₀ (State.putUnitLine s a e u i b) := by
  unfold State.putUnitLine
  repeat' first | exact List.Subset.trans (by decide) hm | with_reducible assumption | dsimp only | with_reducible apply Kept.ite | with_reducible apply State.writeLine_kept

theorem State.writeRecordOf_kept {ms : List Part} {s₀ s : State} (hm : [.mem, .wcb, .fault, .step, .regul, .clock] ⊆ ms) (hs : Kept ms s₀ s) (p : Plan) (e : EntrySt) (r : RecSel) (i : Nat) : Kept ms s₀ (State.writeRecordOf s p e r i) := by
  unfold State.writeRecordOf
  repeat' first | exact List.Subset.trans (by decide) hm | intro _ | with_reducible assumption | dsimp only | with_reducible apply Kept.ite | with_reducible apply State.bump_kept | with_reducible apply State.chargeReads_kept | with_reducible apply State.chargeWrites_kept | with_reducible apply State.putUnitLine_kept | with_reducible refine Kept.foldl _ ?_ ?_ | with_reducible refine Kept.foldlSnd _ ?_ ?_ | with_reducible refine Kept.foldlTrd _ ?_ ?_ | with_reducible refine Kept.foldlFst _ ?_ ?_ | split

theorem execRecordWrite_kept {ms : List Part} {s₀ s s' : State} (hm : [.mem, .wcb, .fault, .step, .regul, .clock] ⊆ ms) (hs : Kept ms s₀ s) (entry : Nat) (he : execRecordWrite entry s = .next s') : Kept ms s₀ s' := by
  unfold execRecordWrite at he
  (try dsimp only at he)
  (repeat' split at he) <;> (try cases he) <;> (repeat' first | exact List.Subset.trans (by decide) hm | intro _ | with_reducible assumption | dsimp only | with_reducible apply Kept.ite | with_reducible apply State.modStep_kept | with_reducible apply State.writeRecordOf_kept | split | with_reducible refine Kept.pair (by assumption) ?_ | with_reducible refine Kept.triple (by assumption) ?_)

theorem State.recordLines_kept {ms : List Part} {s₀ s : State} (hm : [.mem, .wcb, .fault, .step] ⊆ ms) (hs : Kept ms s₀ s) (p : Plan) (e : EntrySt) (consts row : Line) : Kept ms s₀ (State.recordLines s p e consts row) := by
  unfold State.recordLines
  repeat' first | exact List.Subset.trans (by decide) hm | with_reducible assumption | dsimp only | with_reducible apply Kept.ite | with_reducible apply State.putUnitLine_kept | split

theorem State.finishRecord_kept {ms : List Part} {s₀ s : State} (hm : [.mem, .wcb, .fault, .step] ⊆ ms) (hs : Kept ms s₀ s) (p : Plan) (e : EntrySt) (step : Nat) : Kept ms s₀ (State.finishRecord s p e step) := by
  unfold State.finishRecord
  repeat' first | exact List.Subset.trans (by decide) hm | intro _ | with_reducible assumption | dsimp only | with_reducible apply Kept.ite | with_reducible apply State.writeLine_kept | split

theorem State.startBsu_kept {ms : List Part} {s₀ s : State} (hm : [.mem, .wcb, .fault, .step, .dev, .regul, .tier, .clock, .drawn] ⊆ ms) (hs : Kept ms s₀ s) (n : Nat) (e : EntrySt) (prow : Nat) (consts row : Line) (linkFails : Nat) : Kept ms s₀ (State.startBsu s n e prow consts row linkFails) := by
  unfold State.startBsu
  repeat' first | exact List.Subset.trans (by decide) hm | intro _ | with_reducible assumption | dsimp only | with_reducible apply Kept.ite | with_reducible apply State.bsuPass_kept | with_reducible apply State.charge_kept | with_reducible apply State.endEntry_kept | with_reducible apply State.linkTrouble_kept | with_reducible apply State.openSeqRetried_kept | with_reducible apply State.perf_kept

theorem State.startCsu_kept {ms : List Part} {s₀ s : State} (hm : [.mem, .wcb, .fault, .step, .dev, .regul, .tier, .clock, .drawn] ⊆ ms) (hs : Kept ms s₀ s) (seed : List Byte) (n : Nat) (e : EntrySt) (prow : Nat) (consts row : Line) (linkFails : Nat) : Kept ms s₀ (State.startCsu s seed n e prow consts row linkFails) := by
  unfold State.startCsu
  repeat' first | exact List.Subset.trans (by decide) hm | intro _ | with_reducible assumption | dsimp only | with_reducible apply Kept.ite | with_reducible apply State.chargeCsu_kept | with_reducible apply State.endEntry_kept | with_reducible apply State.linkTrouble_kept | with_reducible apply State.modEntry_kept | with_reducible apply State.noteReads_kept | with_reducible apply State.openPartials_kept | with_reducible apply State.perf_kept | with_reducible apply State.runPass_kept | split | with_reducible refine Kept.pair (by assumption) ?_ | with_reducible refine Kept.triple (by assumption) ?_

theorem State.countStartWait_kept {ms : List Part} {s₀ s : State} (hs : Kept ms s₀ s) (n t : Nat) : Kept ms s₀ (State.countStartWait s n t) := by
  unfold State.countStartWait
  repeat' first | with_reducible assumption | dsimp only | with_reducible apply Kept.ite | with_reducible apply State.perf_kept

theorem State.startEntry_kept {ms : List Part} {s₀ s : State} (hm : [.mem, .wcb, .fault, .plan, .step, .dev, .regul, .tier, .log, .waits, .clock, .drawn] ⊆ ms) (hs : Kept ms s₀ s) (p : Plan) (n : Nat) (e : EntrySt) (k : GroupK) (linkFails : Nat) : Kept ms s₀ (State.startEntry s p n e k linkFails) := by
  unfold State.startEntry
  repeat' first | exact List.Subset.trans (by decide) hm | intro _ | with_reducible assumption | dsimp only | with_reducible apply Kept.ite | with_reducible apply State.blockBc_kept | with_reducible apply State.endWait_kept | with_reducible apply State.loseUnit_kept | with_reducible apply State.modEntry_kept | with_reducible apply State.openUnits_kept | with_reducible apply State.recordLines_kept | with_reducible apply State.startBsu_kept | with_reducible apply State.startCsu_kept | split | with_reducible refine Kept.pair (by assumption) ?_ | with_reducible refine Kept.triple (by assumption) ?_

theorem execCommitEntryStart_kept {ms : List Part} {s₀ s s' : State} (hm : [.mem, .wcb, .fault, .plan, .step, .dev, .regul, .tier, .log, .waits, .clock, .drawn] ⊆ ms) (hs : Kept ms s₀ s) (entry : Linked Nat) (he : execCommitEntryStart entry s = .next s') : Kept ms s₀ s' := by
  unfold execCommitEntryStart at he
  (try dsimp only at he)
  (repeat' split at he) <;> (try cases he) <;> (repeat' first | exact List.Subset.trans (by decide) hm | intro _ | with_reducible assumption | dsimp only | with_reducible apply Kept.ite | with_reducible apply State.afterEntries_kept | with_reducible apply State.beginWait_kept | with_reducible apply State.countStartWait_kept | with_reducible apply State.markLate_kept | with_reducible apply State.modEntry_kept | with_reducible apply State.retire_kept | with_reducible apply State.startEntry_kept | split | with_reducible refine Kept.pair (by assumption) ?_ | with_reducible refine Kept.triple (by assumption) ?_)

theorem State.foldEntry_kept {ms : List Part} {s₀ s : State} (hm : [.mem, .wcb, .fault, .plan, .step, .dev, .regul, .tier, .clock] ⊆ ms) (hs : Kept ms s₀ s) (a : ErrSrc) (n : Nat) : Kept ms s₀ (State.foldEntry s a n) := by
  unfold State.foldEntry
  repeat' first | exact List.Subset.trans (by decide) hm | intro _ | with_reducible assumption | dsimp only | with_reducible apply Kept.ite | with_reducible apply State.endEntry_kept | with_reducible apply State.finishRecord_kept | with_reducible apply State.foldResult_kept | with_reducible apply State.noteResult_kept | split | with_reducible refine Kept.pair (by assumption) ?_ | with_reducible refine Kept.triple (by assumption) ?_

theorem execCsuPass_kept {ms : List Part} {s₀ s s' : State} (hm : [.mem, .wcb, .fault, .plan, .step, .dev, .regul, .tier, .clock] ⊆ ms) (hs : Kept ms s₀ s) (entry : Nat) (phases : Nat) (he : execCsuPass entry phases s = .next s') : Kept ms s₀ s' := by
  unfold execCsuPass at he
  (try dsimp only at he)
  (repeat' split at he) <;> (try cases he) <;> (repeat' first | exact List.Subset.trans (by decide) hm | intro _ | with_reducible assumption | dsimp only | with_reducible apply Kept.ite | with_reducible apply State.foldEntry_kept | with_reducible apply State.modEntry_kept | with_reducible apply State.retire_kept | split | with_reducible refine Kept.pair (by assumption) ?_ | with_reducible refine Kept.triple (by assumption) ?_)

theorem State.foldPair_kept {ms : List Part} {s₀ s : State} (hm : [.mem, .wcb, .fault, .plan, .step, .dev, .regul, .tier, .clock] ⊆ ms) (hs : Kept ms s₀ s) (d c k : Nat) : Kept ms s₀ (State.foldPair s d c k) := by
  unfold State.foldPair
  repeat' first | exact List.Subset.trans (by decide) hm | intro _ | with_reducible assumption | dsimp only | with_reducible apply Kept.ite | with_reducible apply State.foldEntry_kept | with_reducible refine Kept.foldl _ ?_ ?_ | with_reducible refine Kept.foldlSnd _ ?_ ?_ | with_reducible refine Kept.foldlTrd _ ?_ ?_ | with_reducible refine Kept.foldlFst _ ?_ ?_

theorem State.finishSeq_kept {ms : List Part} {s₀ s : State} (hm : [.mem, .wcb, .fault, .plan, .step, .dev, .regul, .tier, .clock] ⊆ ms) (hs : Kept ms s₀ s) (q : SeqFl) : Kept ms s₀ (State.finishSeq s q) := by
  unfold State.finishSeq
  repeat' first | exact List.Subset.trans (by decide) hm | intro _ | with_reducible assumption | dsimp only | with_reducible apply Kept.ite | with_reducible apply State.foldPair_kept | with_reducible apply State.readResult_kept | with_reducible apply State.retire_kept

theorem State.overrun_kept {ms : List Part} {s₀ s : State} (hm : [.dev] ⊆ ms) (hs : Kept ms s₀ s) (q : SeqFl) : Kept ms s₀ (State.overrun s q) := by
  unfold State.overrun
  repeat' first | exact List.Subset.trans (by decide) hm | intro _ | with_reducible assumption | dsimp only | with_reducible apply Kept.ite | with_reducible apply State.bump_kept | with_reducible apply State.log__kept | with_reducible apply State.setBit_kept | with_reducible apply State.setBsu_kept | fail_if_no_progress ((with_reducible apply Kept.upd) <;> first | with_reducible exact Or.inr rfl | exact Or.inl (hm (by decide)) | with_reducible exact id | exact fun h => Seq.ok_upd h | exact fun _ => Seq.idle_ok | exact fun _ => Seq.ok_upd Seq.idle_ok | with_reducible exact Or.inr ⟨rfl, rfl⟩ | exact Or.inr ⟨rfl, rfl, rfl⟩ | skip)

theorem execSeqBoundEnd_kept {ms : List Part} {s₀ s s' : State} (hm : [.mem, .wcb, .fault, .plan, .step, .dev, .regul, .tier, .clock] ⊆ ms) (hs : Kept ms s₀ s) (d : BitVec 5) (c : BitVec 2) (k : BitVec 3) (busy : Bool) (he : execSeqBoundEnd d c k busy s = .next s') : Kept ms s₀ s' := by
  unfold execSeqBoundEnd at he
  (try dsimp only at he)
  (repeat' split at he) <;> (try cases he) <;> (repeat' first | exact List.Subset.trans (by decide) hm | intro _ | with_reducible assumption | dsimp only | with_reducible apply Kept.ite | with_reducible apply State.advance_kept | with_reducible apply State.finishSeq_kept | with_reducible apply State.foldPair_kept | with_reducible apply State.overrun_kept | split | with_reducible refine Kept.pair (by assumption) ?_ | with_reducible refine Kept.triple (by assumption) ?_)

theorem execResultReread_kept {ms : List Part} {s₀ s s' : State} (hm : [.mem, .wcb, .fault, .plan, .step, .dev, .regul, .tier, .clock] ⊆ ms) (hs : Kept ms s₀ s) (d : BitVec 5) (c : BitVec 2) (k : BitVec 3) (busy : Bool) (he : execResultReread d c k busy s = .next s') : Kept ms s₀ s' := by
  unfold execResultReread at he
  (try dsimp only at he)
  (repeat' split at he) <;> (try cases he) <;> (repeat' first | exact List.Subset.trans (by decide) hm | intro _ | with_reducible assumption | dsimp only | with_reducible apply Kept.ite | with_reducible apply State.advance_kept | with_reducible apply State.finishSeq_kept | split | with_reducible refine Kept.pair (by assumption) ?_ | with_reducible refine Kept.triple (by assumption) ?_)

theorem State.setTrust_kept {ms : List Part} {s₀ s : State} (hm : [.mem, .wcb, .fault, .plan, .step, .dev, .regul, .log, .clock] ⊆ ms) (hs : Kept ms s₀ s) (p : Plan) (k : GroupK) (w x : DWord) : Kept ms s₀ (State.setTrust s p k w x) := by
  unfold State.setTrust
  repeat' first | exact List.Subset.trans (by decide) hm | intro _ | with_reducible assumption | dsimp only | with_reducible apply Kept.ite | with_reducible apply State.keepLog_kept | with_reducible apply State.modGroup_kept | with_reducible apply State.modStep_kept | split | with_reducible refine Kept.pair (by assumption) ?_ | with_reducible refine Kept.triple (by assumption) ?_

theorem execTrustRatio_kept {ms : List Part} {s₀ s s' : State} (hm : [.mem, .wcb, .fault, .plan, .step, .dev, .regul, .log, .clock] ⊆ ms) (hs : Kept ms s₀ s) (group : Half) (he : execTrustRatio group s = .next s') : Kept ms s₀ s' := by
  unfold execTrustRatio at he
  (try dsimp only at he)
  (repeat' split at he) <;> (try cases he) <;> (repeat' first | exact List.Subset.trans (by decide) hm | intro _ | with_reducible assumption | dsimp only | with_reducible apply Kept.ite | with_reducible apply State.setTrust_kept)

end Sys2Proof.Machine
end

