-- ==== Sys2Proof/Laws/KeptLayer.lean ====
section
/-! SUPPORT. What the functions of Machine/Layer.lean keep. -/

namespace Sys2Proof.Machine

theorem State.layerRead_kept {ms : List Part} {s₀ s : State} (hm : [.fault, .step, .dev, .regul, .clock] ⊆ ms) (hs : Kept ms s₀ s) (reg off len : Nat) : Kept ms s₀ (State.layerRead s reg off len).2.2 := by
  unfold State.layerRead
  repeat' first | exact List.Subset.trans (by decide) hm | intro _ | with_reducible assumption | dsimp only | with_reducible apply Kept.ite | with_reducible apply State.chargeReads_kept | with_reducible apply State.fetchBytes_kept

theorem State.layerWrite_kept {ms : List Part} {s₀ s : State} (hm : [.mem, .wcb, .fault, .step, .dev, .regul, .clock] ⊆ ms) (hs : Kept ms s₀ s) (reg off : Nat) (b : List Byte) : Kept ms s₀ (State.layerWrite s reg off b).2 := by
  unfold State.layerWrite
  repeat' first | exact List.Subset.trans (by decide) hm | intro _ | with_reducible assumption | dsimp only | with_reducible apply Kept.ite | with_reducible apply State.chargeWrites_kept | with_reducible apply State.putBytes_kept

theorem State.readItem_kept {ms : List Part} {s₀ s : State} (hm : [.fault, .step, .dev, .regul, .clock] ⊆ ms) (hs : Kept ms s₀ s) (c : LayerCfg) (right root copy : Bool) : Kept ms s₀ (State.readItem s c right root copy).2 := by
  unfold State.readItem
  repeat' first | exact List.Subset.trans (by decide) hm | with_reducible assumption | dsimp only | with_reducible apply Kept.ite | with_reducible apply State.layerRead_kept

theorem State.writeItem_kept {ms : List Part} {s₀ s : State} (hm : [.mem, .wcb, .fault, .step, .dev, .regul, .clock] ⊆ ms) (hs : Kept ms s₀ s) (c : LayerCfg) (right root copy : Bool) (m : Mat) : Kept ms s₀ (State.writeItem s c right root copy m).2 := by
  unfold State.writeItem
  repeat' first | exact List.Subset.trans (by decide) hm | intro _ | with_reducible assumption | dsimp only | with_reducible apply Kept.ite | with_reducible apply State.layerWrite_kept

theorem State.readSector_kept {ms : List Part} {s₀ s : State} (hm : [.fault, .step, .dev, .regul, .clock] ⊆ ms) (hs : Kept ms s₀ s) (xs : List LineLoc) : Kept ms s₀ (State.readSector s xs).2.2 := by
  unfold State.readSector
  repeat' first | exact List.Subset.trans (by decide) hm | intro _ | with_reducible assumption | dsimp only | with_reducible apply Kept.ite | with_reducible apply State.chargeReads_kept | with_reducible apply State.fetchLine_kept | with_reducible refine Kept.foldl _ ?_ ?_ | with_reducible refine Kept.foldlSnd _ ?_ ?_ | with_reducible refine Kept.foldlTrd _ ?_ ?_

theorem State.readSums_kept {ms : List Part} {s₀ s : State} (hm : [.fault, .step, .dev, .regul, .clock] ⊆ ms) (hs : Kept ms s₀ s) (p : Plan) (c : LayerCfg) (flush : Bool) : Kept ms s₀ (State.readSums s p c flush).2 := by
  unfold State.readSums
  repeat' first | exact List.Subset.trans (by decide) hm | intro _ | with_reducible assumption | dsimp only | with_reducible apply Kept.ite | with_reducible apply State.readSector_kept | with_reducible refine Kept.foldl _ ?_ ?_ | with_reducible refine Kept.foldlSnd _ ?_ ?_ | with_reducible refine Kept.foldlTrd _ ?_ ?_ | with_reducible refine Kept.foldlFst _ ?_ ?_ | split

theorem State.putScratch_kept {ms : List Part} {s₀ s : State} (hm : [.mem, .wcb, .fault, .step, .dev, .regul, .clock] ⊆ ms) (hs : Kept ms s₀ s) (c : LayerCfg) (d : List Word) : Kept ms s₀ (State.putScratch s c d).2 := by
  unfold State.putScratch
  repeat' first | exact List.Subset.trans (by decide) hm | intro _ | with_reducible assumption | dsimp only | with_reducible apply Kept.ite | with_reducible apply State.layerWrite_kept

theorem State.getScratch_kept {ms : List Part} {s₀ s : State} (hm : [.fault, .step, .dev, .regul, .clock] ⊆ ms) (hs : Kept ms s₀ s) (c : LayerCfg) : Kept ms s₀ (State.getScratch s c).2 := by
  unfold State.getScratch
  repeat' first | exact List.Subset.trans (by decide) hm | intro _ | with_reducible assumption | dsimp only | with_reducible apply Kept.ite | with_reducible apply State.layerRead_kept | split | with_reducible refine Kept.pair (by assumption) ?_ | with_reducible refine Kept.triple (by assumption) ?_

theorem State.throughScratch_kept {ms : List Part} {s₀ s : State} (hm : [.mem, .wcb, .fault, .step, .dev, .regul, .clock] ⊆ ms) (hs : Kept ms s₀ s) (c : LayerCfg) (d : List Word) : Kept ms s₀ (State.throughScratch s c d).2 := by
  unfold State.throughScratch
  repeat' first | exact List.Subset.trans (by decide) hm | intro _ | with_reducible assumption | dsimp only | with_reducible apply Kept.ite | with_reducible apply State.getScratch_kept | with_reducible apply State.putScratch_kept | split | with_reducible refine Kept.pair (by assumption) ?_ | with_reducible refine Kept.triple (by assumption) ?_

theorem State.streamX_kept {ms : List Part} {s₀ s : State} (hm : [.mem, .wcb, .fault, .step, .dev, .regul, .clock] ⊆ ms) (hs : Kept ms s₀ s) (c : LayerCfg) (flush : Bool) (ks : List (Word × Word × Word)) (x : Mat) : Kept ms s₀ (State.streamX s c flush ks x).2.2 := by
  induction ks generalizing s x with
  | nil => exact State.throughScratch_kept hm hs c (c.ofX x)
  | cons k t ih =>
    have h := State.throughScratch_kept hm hs c (c.ofX x)
    unfold State.streamX
    split
    · rename_i e; rw [e] at h; exact h
    · rename_i e; rw [e] at h; exact ih h _

theorem State.workOrtho_kept {ms : List Part} {s₀ s : State} (hm : [.mem, .wcb, .fault, .step, .dev, .regul, .clock] ⊆ ms) (hs : Kept ms s₀ s) (p : Plan) (c : LayerCfg) (flush : Bool) (g : Mat) : Kept ms s₀ (State.workOrtho s p c flush g).2.2 := by
  unfold State.workOrtho
  repeat' first | exact List.Subset.trans (by decide) hm | intro _ | with_reducible assumption | dsimp only | with_reducible apply Kept.ite | with_reducible apply State.streamX_kept | with_reducible apply State.throughScratch_kept | split | with_reducible refine Kept.pair (by assumption) ?_ | with_reducible refine Kept.triple (by assumption) ?_

theorem State.workSide_kept {ms : List Part} {s₀ s : State} (hm : [.mem, .wcb, .fault, .plan, .step, .dev, .regul, .clock] ⊆ ms) (hs : Kept ms s₀ s) (p : Plan) (ix : Nat) (y : Layer) (flush right refresh : Bool) (h : Mat) : Kept ms s₀ (State.workSide s p ix y flush right refresh h).2 := by
  unfold State.workSide
  repeat' first | exact List.Subset.trans (by decide) hm | intro _ | with_reducible assumption | dsimp only | with_reducible apply Kept.ite | with_reducible apply State.modLayer_kept | with_reducible apply State.orFlags_kept | with_reducible apply State.readItem_kept | with_reducible apply State.writeItem_kept | split | with_reducible refine Kept.pair (by assumption) ?_ | with_reducible refine Kept.triple (by assumption) ?_

theorem State.workPrecond_kept {ms : List Part} {s₀ s : State} (hm : [.mem, .wcb, .fault, .plan, .step, .dev, .regul, .clock] ⊆ ms) (hs : Kept ms s₀ s) (p : Plan) (ix : Nat) (y : Layer) (flush : Bool) (g : Mat) : Kept ms s₀ (State.workPrecond s p ix y flush g).2 := by
  unfold State.workPrecond
  repeat' first | exact List.Subset.trans (by decide) hm | intro _ | with_reducible assumption | dsimp only | with_reducible apply Kept.ite | with_reducible apply State.orFlags_kept | with_reducible apply State.throughScratch_kept | with_reducible apply State.workSide_kept | split | with_reducible refine Kept.pair (by assumption) ?_ | with_reducible refine Kept.triple (by assumption) ?_

theorem State.modLayerSt_kept {ms : List Part} {s₀ s : State} (hm : [.step] ⊆ ms) (hs : Kept ms s₀ s) (n : Nat) (f : LayerSt → LayerSt) : Kept ms s₀ (State.modLayerSt s n f) := by
  unfold State.modLayerSt
  repeat' first | exact List.Subset.trans (by decide) hm | intro _ | with_reducible assumption | dsimp only | with_reducible apply Kept.ite | with_reducible apply State.modStep_kept

theorem State.abandonLayer_kept {ms : List Part} {s₀ s : State} (hm : [.fault, .step, .dev, .tier] ⊆ ms) (hs : Kept ms s₀ s) (n : Nat) (c : LayerCfg) : Kept ms s₀ (State.abandonLayer s n c) := by
  unfold State.abandonLayer
  repeat' first | exact List.Subset.trans (by decide) hm | intro _ | with_reducible assumption | dsimp only | with_reducible apply Kept.ite | with_reducible apply State.afterEntries_kept | with_reducible apply State.loseShard_kept | with_reducible apply State.modLayerSt_kept | with_reducible apply State.modStep_kept

theorem State.layerWork_kept {ms : List Part} {s₀ s : State} (hm : [.mem, .wcb, .fault, .plan, .step, .dev, .regul, .tier, .clock] ⊆ ms) (hs : Kept ms s₀ s) (p : Plan) (n : Nat) (x : LayerSt) (y : Layer) : Kept ms s₀ (State.layerWork s p n x y) := by
  unfold State.layerWork
  repeat' first | exact List.Subset.trans (by decide) hm | intro _ | with_reducible assumption | dsimp only | with_reducible apply Kept.ite | with_reducible apply State.abandonLayer_kept | with_reducible apply State.modLayerSt_kept | with_reducible apply State.orFlags_kept | with_reducible apply State.readSums_kept | with_reducible apply State.workOrtho_kept | with_reducible apply State.workPrecond_kept | split | with_reducible refine Kept.pair (by assumption) ?_ | with_reducible refine Kept.triple (by assumption) ?_

theorem execLayerWorkStart_kept {ms : List Part} {s₀ s s' : State} (hm : [.mem, .wcb, .fault, .plan, .step, .dev, .regul, .tier, .clock, .drawn] ⊆ ms) (hs : Kept ms s₀ s)  (he : execLayerWorkStart s = .next s') : Kept ms s₀ s' := by
  unfold execLayerWorkStart at he
  (try dsimp only at he)
  (repeat' split at he) <;> (try cases he) <;> (repeat' first | exact List.Subset.trans (by decide) hm | with_reducible assumption | dsimp only | with_reducible apply Kept.ite | with_reducible apply State.layerWork_kept)

theorem execDirectionComplete_kept {ms : List Part} {s₀ s s' : State} (hm : [.mem, .wcb, .fault, .plan, .step, .regul, .clock] ⊆ ms) (hs : Kept ms s₀ s)  (he : execDirectionComplete s = .next s') : Kept ms s₀ s' := by
  unfold execDirectionComplete at he
  (try dsimp only at he)
  (repeat' split at he) <;> (try cases he) <;> (repeat' first | exact List.Subset.trans (by decide) hm | intro _ | with_reducible assumption | dsimp only | with_reducible apply Kept.ite | with_reducible apply State.modLayer_kept | with_reducible apply State.modLayerSt_kept)

theorem State.putDirection_kept {ms : List Part} {s₀ s : State} (hm : [.mem, .wcb, .fault, .step, .dev, .regul, .clock] ⊆ ms) (hs : Kept ms s₀ s) (p : Plan) (c : LayerCfg) (row : Nat) (delta : List Word) : Kept ms s₀ (State.putDirection s p c row delta).2 := by
  unfold State.putDirection
  repeat' first | exact List.Subset.trans (by decide) hm | intro _ | with_reducible assumption | dsimp only | with_reducible apply Kept.ite | with_reducible apply State.awaitPair_kept | with_reducible apply State.chargeWrites_kept | with_reducible apply State.writeLine_kept | with_reducible refine Kept.foldl _ ?_ ?_ | with_reducible refine Kept.foldlSnd _ ?_ ?_ | with_reducible refine Kept.foldlTrd _ ?_ ?_ | with_reducible refine Kept.foldlFst _ ?_ ?_ | split | with_reducible refine Kept.pair (by assumption) ?_ | with_reducible refine Kept.triple (by assumption) ?_

theorem State.copyDirection_kept {ms : List Part} {s₀ s : State} (hm : [.mem, .wcb, .fault, .step, .dev, .regul, .clock] ⊆ ms) (hs : Kept ms s₀ s) (p : Plan) (c : LayerCfg) : Kept ms s₀ (State.copyDirection s p c).2 := by
  unfold State.copyDirection
  repeat' first | exact List.Subset.trans (by decide) hm | intro _ | with_reducible assumption | dsimp only | with_reducible apply Kept.ite | with_reducible apply State.getScratch_kept | with_reducible apply State.putDirection_kept | with_reducible refine Kept.foldl _ ?_ ?_ | with_reducible refine Kept.foldlSnd _ ?_ ?_ | with_reducible refine Kept.foldlTrd _ ?_ ?_ | with_reducible refine Kept.foldlFst _ ?_ ?_ | split | with_reducible refine Kept.pair (by assumption) ?_ | with_reducible refine Kept.triple (by assumption) ?_

theorem execDirectionCopyDone_kept {ms : List Part} {s₀ s s' : State} (hm : [.mem, .wcb, .fault, .plan, .step, .dev, .regul, .tier, .clock] ⊆ ms) (hs : Kept ms s₀ s)  (he : execDirectionCopyDone s = .next s') : Kept ms s₀ s' := by
  unfold execDirectionCopyDone at he
  (try dsimp only at he)
  (repeat' split at he) <;> (try cases he) <;> (repeat' first | exact List.Subset.trans (by decide) hm | intro _ | with_reducible assumption | dsimp only | with_reducible apply Kept.ite | with_reducible apply State.abandonLayer_kept | with_reducible apply State.copyDirection_kept | with_reducible apply State.maybeEmission_kept | with_reducible apply State.modLayer_kept | with_reducible apply State.modLayerSt_kept | split | with_reducible refine Kept.pair (by assumption) ?_)

end Sys2Proof.Machine
end

