-- ==== Sys2Proof/Laws/KeptTier.lean ====
section
/-! SUPPORT. What the functions of Machine/Tier.lean keep. -/

namespace Sys2Proof.Machine

theorem State.freeBytes_kept (n : Nat) {ms : List Part} {s₀ s : State} (hm : [.drawn] ⊆ ms) (hs : Kept ms s₀ s) : Kept ms s₀ (State.freeBytes n s).2 := by
  induction n generalizing s with
  | zero => exact hs
  | succ n ih => exact ih (State.free_kept (List.Subset.trans (by decide) hm) hs)

theorem State.farImage_kept {ms : List Part} {s₀ s : State} (hm : [.drawn] ⊆ ms) (hs : Kept ms s₀ s) (n : Nat) (m : Meta) (lines : List (Nat × List Byte)) : Kept ms s₀ (State.farImage s n m lines).2 := by
  unfold State.farImage
  repeat' first | exact List.Subset.trans (by decide) hm | intro _ | with_reducible assumption | dsimp only | with_reducible apply Kept.ite | with_reducible apply State.freeBytes_kept | with_reducible refine Kept.foldl _ ?_ ?_ | with_reducible refine Kept.foldlSnd _ ?_ ?_ | with_reducible refine Kept.foldlTrd _ ?_ ?_ | with_reducible refine Kept.foldlFst _ ?_ ?_ | split

theorem State.modTier_kept {ms : List Part} {s₀ s : State} (hm : [.tier] ⊆ ms) (hs : Kept ms s₀ s) (f : TierState → TierState) : Kept ms s₀ (State.modTier s f) := by
  unfold State.modTier
  repeat' first | exact List.Subset.trans (by decide) hm | with_reducible assumption | dsimp only | with_reducible apply Kept.ite | fail_if_no_progress ((with_reducible apply Kept.upd) <;> first | with_reducible exact Or.inr rfl | exact Or.inl (hm (by decide)) | with_reducible exact id | exact fun h => Seq.ok_upd h | exact fun _ => Seq.idle_ok | exact fun _ => Seq.ok_upd Seq.idle_ok | with_reducible exact Or.inr ⟨rfl, rfl⟩ | exact Or.inr ⟨rfl, rfl, rfl⟩ | skip)

theorem State.readSlotFar_kept {ms : List Part} {s₀ s : State} (hm : [.out] ⊆ ms) (hs : Kept ms s₀ s) (slot n : Nat) : Kept ms s₀ (State.readSlotFar s slot n) := by
  unfold State.readSlotFar
  repeat' first | exact List.Subset.trans (by decide) hm | intro _ | with_reducible assumption | dsimp only | with_reducible apply Kept.ite | with_reducible apply State.emit_kept | with_reducible refine Kept.foldl _ ?_ ?_

theorem State.writeSlotFar_kept {ms : List Part} {s₀ s : State} (hm : [.out] ⊆ ms) (hs : Kept ms s₀ s) (slot : Nat) (b : List Byte) : Kept ms s₀ (State.writeSlotFar s slot b) := by
  unfold State.writeSlotFar
  repeat' first | exact List.Subset.trans (by decide) hm | intro _ | with_reducible assumption | dsimp only | with_reducible apply Kept.ite | with_reducible apply State.emit_kept | with_reducible refine Kept.foldl _ ?_ ?_

theorem State.dropPieces_kept {ms : List Part} {s₀ s : State} (hm : [.tier] ⊆ ms) (hs : Kept ms s₀ s) (slot : Nat) : Kept ms s₀ (State.dropPieces s slot) := by
  unfold State.dropPieces
  repeat' first | exact List.Subset.trans (by decide) hm | intro _ | with_reducible assumption | dsimp only | with_reducible apply Kept.ite | with_reducible apply State.modTier_kept

theorem State.haltTier_kept {ms : List Part} {s₀ s : State} (hm : [.step, .tier, .waits] ⊆ ms) (hs : Kept ms s₀ s) (cause slot : Nat) : Kept ms s₀ (State.haltTier s cause slot) := by
  unfold State.haltTier
  repeat' first | exact List.Subset.trans (by decide) hm | intro _ | with_reducible assumption | dsimp only | with_reducible apply Kept.ite | with_reducible apply State.failMoves_kept | with_reducible apply State.log__kept | with_reducible apply State.modTier_kept | with_reducible apply State.set_kept | with_reducible apply State.setFlag_kept

theorem State.settleLate_kept {ms : List Part} {s₀ s : State} (hm : [.waits] ⊆ ms) (hs : Kept ms s₀ s)  : Kept ms s₀ (State.settleLate s) := by
  unfold State.settleLate
  repeat' first | exact List.Subset.trans (by decide) hm | intro _ | with_reducible assumption | dsimp only | with_reducible apply Kept.ite | with_reducible apply State.dropWaits_kept

theorem State.popMove_kept {ms : List Part} {s₀ s : State} (hm : [.tier, .waits] ⊆ ms) (hs : Kept ms s₀ s)  : Kept ms s₀ (State.popMove s) := by
  unfold State.popMove
  repeat' first | exact List.Subset.trans (by decide) hm | intro _ | with_reducible assumption | dsimp only | with_reducible apply Kept.ite | with_reducible apply State.modTier_kept | with_reducible apply State.settleLate_kept

theorem State.skipMove_kept {ms : List Part} {s₀ s : State} (hm : [.tier, .waits, .drawn] ⊆ ms) (hs : Kept ms s₀ s) (m : Move) : Kept ms s₀ (State.skipMove s m) := by
  unfold State.skipMove
  repeat' first | exact List.Subset.trans (by decide) hm | intro _ | with_reducible assumption | dsimp only | with_reducible apply Kept.ite | with_reducible apply State.bump_kept | with_reducible apply State.free_kept | with_reducible apply State.log__kept | with_reducible apply State.popMove_kept | split | with_reducible refine Kept.pair (by assumption) ?_ | with_reducible refine Kept.triple (by assumption) ?_

theorem State.modMove_kept {ms : List Part} {s₀ s : State} (hm : [.tier] ⊆ ms) (hs : Kept ms s₀ s) (f : Move → Move) : Kept ms s₀ (State.modMove s f) := by
  unfold State.modMove
  repeat' first | exact List.Subset.trans (by decide) hm | intro _ | with_reducible assumption | dsimp only | with_reducible apply Kept.ite | with_reducible apply State.modTier_kept

theorem State.putJournal_kept {ms : List Part} {s₀ s : State} (hm : [.mem, .wcb, .fault, .step, .dev, .regul, .clock] ⊆ ms) (hs : Kept ms s₀ s) (i : Nat) : Kept ms s₀ (State.putJournal s i) := by
  unfold State.putJournal
  repeat' first | exact List.Subset.trans (by decide) hm | with_reducible assumption | dsimp only | with_reducible apply Kept.ite | with_reducible apply State.charge_kept | with_reducible apply State.storeBytes_kept | split

theorem State.openJournal_kept {ms : List Part} {s₀ s : State} (hm : [.mem, .wcb, .fault, .step, .dev, .regul, .tier, .clock] ⊆ ms) (hs : Kept ms s₀ s) (j : JournalEntry) : Kept ms s₀ (State.openJournal s j).2 := by
  unfold State.openJournal
  repeat' first | exact List.Subset.trans (by decide) hm | intro _ | with_reducible assumption | dsimp only | with_reducible apply Kept.ite | with_reducible apply State.modTier_kept | with_reducible apply State.putJournal_kept

theorem State.settleJournal_kept {ms : List Part} {s₀ s : State} (hm : [.mem, .wcb, .fault, .step, .dev, .regul, .tier, .clock] ⊆ ms) (hs : Kept ms s₀ s) (i : Nat) : Kept ms s₀ (State.settleJournal s i) := by
  unfold State.settleJournal
  repeat' first | exact List.Subset.trans (by decide) hm | intro _ | with_reducible assumption | dsimp only | with_reducible apply Kept.ite | with_reducible apply State.modTier_kept | with_reducible apply State.putJournal_kept | split | with_reducible refine Kept.pair (by assumption) ?_ | with_reducible refine Kept.triple (by assumption) ?_

theorem State.startIn_kept {ms : List Part} {s₀ s : State} (hm : [.mem, .wcb, .fault, .step, .dev, .regul, .tier, .clock, .out] ⊆ ms) (hs : Kept ms s₀ s) (m : Move) : Kept ms s₀ (State.startIn s m) := by
  unfold State.startIn
  repeat' first | exact List.Subset.trans (by decide) hm | intro _ | with_reducible assumption | dsimp only | with_reducible apply Kept.ite | with_reducible apply State.modMove_kept | with_reducible apply State.openJournal_kept | with_reducible apply State.readSlotFar_kept | split | with_reducible refine Kept.pair (by assumption) ?_ | with_reducible refine Kept.triple (by assumption) ?_

theorem execMoveInStart_kept {ms : List Part} {s₀ s s' : State} (hm : [.mem, .wcb, .fault, .step, .dev, .regul, .tier, .waits, .clock, .drawn, .out] ⊆ ms) (hs : Kept ms s₀ s)  (he : execMoveInStart s = .next s') : Kept ms s₀ s' := by
  unfold execMoveInStart at he
  (try dsimp only at he)
  (repeat' split at he) <;> (try cases he) <;> (repeat' first | exact List.Subset.trans (by decide) hm | intro _ | with_reducible assumption | dsimp only | with_reducible apply Kept.ite | with_reducible apply State.skipMove_kept | with_reducible apply State.startIn_kept | split | with_reducible refine Kept.pair (by assumption) ?_ | with_reducible refine Kept.triple (by assumption) ?_)

theorem State.imageMoved_kept {ms : List Part} {s₀ s : State} (hm : [.mem, .wcb, .fault, .step, .dev, .regul, .log, .clock] ⊆ ms) (hs : Kept ms s₀ s) (l : RowLoc) (epoch : Nat) : Kept ms s₀ (State.imageMoved s l epoch) := by
  unfold State.imageMoved
  repeat' first | exact List.Subset.trans (by decide) hm | intro _ | with_reducible assumption | dsimp only | with_reducible apply Kept.ite | with_reducible apply State.keepLog_kept | with_reducible apply State.modStep_kept

theorem State.putNear_kept {ms : List Part} {s₀ s : State} (hm : [.mem, .wcb, .fault, .step, .dev, .regul, .clock] ⊆ ms) (hs : Kept ms s₀ s) (l : RowLoc) (f : FarRow) : Kept ms s₀ (State.putNear s l f) := by
  unfold State.putNear
  repeat' first | exact List.Subset.trans (by decide) hm | intro _ | with_reducible assumption | dsimp only | with_reducible apply Kept.ite | with_reducible apply State.awaitPair_kept | with_reducible apply State.chargeWrites_kept | with_reducible apply State.putMeta_kept | with_reducible apply State.storeLine_kept | with_reducible refine Kept.foldl _ ?_ ?_

theorem State.movedIn_kept {ms : List Part} {s₀ s : State} (hm : [.mem, .wcb, .fault, .step, .dev, .regul, .tier, .log, .waits, .clock, .out] ⊆ ms) (hs : Kept ms s₀ s) (m : Move) (l : RowLoc) (slot : Nat) (f : FarRow) : Kept ms s₀ (State.movedIn s m l slot f) := by
  unfold State.movedIn
  repeat' first | exact List.Subset.trans (by decide) hm | intro _ | with_reducible assumption | dsimp only | with_reducible apply Kept.ite | with_reducible apply State.bump_kept | with_reducible apply State.dropPieces_kept | with_reducible apply State.imageMoved_kept | with_reducible apply State.modMove_kept | with_reducible apply State.modTier_kept | with_reducible apply State.popMove_kept | with_reducible apply State.putNear_kept | with_reducible apply State.readSlotFar_kept | with_reducible apply State.setFlag_kept | with_reducible apply State.settleLate_kept | with_reducible apply State.settleMoved_kept

theorem execMoveInRow_kept {ms : List Part} {s₀ s s' : State} (hm : [.mem, .wcb, .fault, .step, .dev, .regul, .tier, .log, .waits, .clock, .out] ⊆ ms) (hs : Kept ms s₀ s)  (he : execMoveInRow s = .next s') : Kept ms s₀ s' := by
  unfold execMoveInRow at he
  (try dsimp only at he)
  (repeat' split at he) <;> (try cases he) <;> (repeat' first | exact List.Subset.trans (by decide) hm | with_reducible assumption | dsimp only | with_reducible apply Kept.ite | with_reducible apply State.haltTier_kept | with_reducible apply State.movedIn_kept)

theorem State.modX_kept {ms : List Part} {s₀ s : State} (hm : [.req] ⊆ ms) (hs : Kept ms s₀ s) (f : XReq → XReq) : Kept ms s₀ (State.modX s f) := by
  unfold State.modX
  repeat' first | exact List.Subset.trans (by decide) hm | with_reducible assumption | dsimp only | with_reducible apply Kept.ite | fail_if_no_progress ((with_reducible apply Kept.upd) <;> first | with_reducible exact Or.inr rfl | exact Or.inl (hm (by decide)) | with_reducible exact id | exact fun h => Seq.ok_upd h | exact fun _ => Seq.idle_ok | exact fun _ => Seq.ok_upd Seq.idle_ok | with_reducible exact Or.inr ⟨rfl, rfl⟩ | exact Or.inr ⟨rfl, rfl, rfl⟩ | skip)

theorem execTierReadCompletion_kept {ms : List Part} {s₀ s s' : State} (hm : [.step, .tier, .req, .waits] ⊆ ms) (hs : Kept ms s₀ s) (slot : Word) (line : BitVec 5) (data : Line) (poison error : Bool) (he : execTierReadCompletion slot line data poison error s = .next s') : Kept ms s₀ s' := by
  unfold execTierReadCompletion at he
  (try dsimp only at he)
  (repeat' split at he) <;> (try cases he) <;> (repeat' first | exact List.Subset.trans (by decide) hm | intro _ | with_reducible assumption | dsimp only | with_reducible apply Kept.ite | with_reducible apply State.haltTier_kept | with_reducible apply State.modTier_kept | with_reducible apply State.modX_kept)

theorem State.modMoved_kept {ms : List Part} {s₀ s : State} (hm : [.tier] ⊆ ms) (hs : Kept ms s₀ s) (l : RowLoc) (f : MovedRow → MovedRow) : Kept ms s₀ (State.modMoved s l f) := by
  unfold State.modMoved
  repeat' first | exact List.Subset.trans (by decide) hm | intro _ | with_reducible assumption | dsimp only | with_reducible apply Kept.ite | with_reducible apply State.modTier_kept

theorem State.rowOut_kept {ms : List Part} {s₀ s : State} (hm : [.mem, .wcb, .fault, .step, .dev, .regul, .tier, .clock] ⊆ ms) (hs : Kept ms s₀ s) (r : MovedRow) : Kept ms s₀ (State.rowOut s r) := by
  unfold State.rowOut
  repeat' first | exact List.Subset.trans (by decide) hm | intro _ | with_reducible assumption | dsimp only | with_reducible apply Kept.ite | with_reducible apply State.awaitPair_kept | with_reducible apply State.charge_kept | with_reducible apply State.modMoved_kept | with_reducible apply State.putMeta_kept | with_reducible apply State.settleJournal_kept

theorem State.outFailed_kept {ms : List Part} {s₀ s : State} (hm : [.fault, .tier] ⊆ ms) (hs : Kept ms s₀ s) (r : MovedRow) : Kept ms s₀ (State.outFailed s r) := by
  unfold State.outFailed
  repeat' first | exact List.Subset.trans (by decide) hm | intro _ | with_reducible assumption | dsimp only | with_reducible apply Kept.ite | with_reducible apply State.holdFor_kept | with_reducible apply State.loseShard_kept | with_reducible apply State.modMoved_kept | split

theorem State.writeOut_kept {ms : List Part} {s₀ s : State} (hm : [.fault, .step, .dev, .regul, .tier, .waits, .clock, .drawn, .out] ⊆ ms) (hs : Kept ms s₀ s) (r : MovedRow) : Kept ms s₀ (State.writeOut s r) := by
  unfold State.writeOut
  repeat' first | exact List.Subset.trans (by decide) hm | intro _ | with_reducible assumption | dsimp only | with_reducible apply Kept.ite | with_reducible apply State.awaitPair_kept | with_reducible apply State.chargeReads_kept | with_reducible apply State.farImage_kept | with_reducible apply State.haltTier_kept | with_reducible apply State.modMoved_kept | with_reducible apply State.outFailed_kept | with_reducible apply State.readLine_kept | with_reducible apply State.writeSlotFar_kept | with_reducible refine Kept.foldl _ ?_ ?_ | with_reducible refine Kept.foldlSnd _ ?_ ?_

theorem execMoveOut_kept {ms : List Part} {s₀ s s' : State} (hm : [.mem, .wcb, .fault, .step, .dev, .regul, .tier, .waits, .clock, .drawn, .out] ⊆ ms) (hs : Kept ms s₀ s)  (he : execMoveOut s = .next s') : Kept ms s₀ s' := by
  unfold execMoveOut at he
  (try dsimp only at he)
  (repeat' split at he) <;> (try cases he) <;> (repeat' first | exact List.Subset.trans (by decide) hm | intro _ | with_reducible assumption | dsimp only | with_reducible apply Kept.ite | with_reducible apply State.modTier_kept | with_reducible apply State.outFailed_kept | with_reducible apply State.rowOut_kept | with_reducible apply State.writeOut_kept | split | with_reducible refine Kept.pair (by assumption) ?_ | with_reducible refine Kept.triple (by assumption) ?_)

theorem execTierWriteCompletion_kept {ms : List Part} {s₀ s s' : State} (hm : [.fault, .step, .tier, .req, .waits] ⊆ ms) (hs : Kept ms s₀ s) (slot : Word) (error : Bool) (he : execTierWriteCompletion slot error s = .next s') : Kept ms s₀ s' := by
  unfold execTierWriteCompletion at he
  (try dsimp only at he)
  (repeat' split at he) <;> (try cases he) <;> (repeat' first | exact List.Subset.trans (by decide) hm | intro _ | with_reducible assumption | dsimp only | with_reducible apply Kept.ite | with_reducible apply State.haltTier_kept | with_reducible apply State.modMove_kept | with_reducible apply State.modMoved_kept | with_reducible apply State.modX_kept | with_reducible apply State.outFailed_kept)

theorem execMoveOutDone_kept {ms : List Part} {s₀ s s' : State} (hm : [.mem, .wcb, .fault, .step, .dev, .regul, .tier, .clock] ⊆ ms) (hs : Kept ms s₀ s)  (he : execMoveOutDone s = .next s') : Kept ms s₀ s' := by
  unfold execMoveOutDone at he
  (try dsimp only at he)
  (repeat' split at he) <;> (try cases he) <;> (repeat' first | exact List.Subset.trans (by decide) hm | intro _ | with_reducible assumption | dsimp only | with_reducible apply Kept.ite | with_reducible apply State.bump_kept | with_reducible apply State.rowOut_kept)

theorem State.copyNext_kept {ms : List Part} {s₀ s : State} (hm : [.tier, .waits] ⊆ ms) (hs : Kept ms s₀ s) (m : Move) : Kept ms s₀ (State.copyNext s m) := by
  unfold State.copyNext
  repeat' first | exact List.Subset.trans (by decide) hm | intro _ | with_reducible assumption | dsimp only | with_reducible apply Kept.ite | with_reducible apply State.modMove_kept | with_reducible apply State.popMove_kept

theorem State.startCopy_kept {ms : List Part} {s₀ s : State} (hm : [.fault, .step, .dev, .regul, .tier, .waits, .clock, .out] ⊆ ms) (hs : Kept ms s₀ s) (m : Move) : Kept ms s₀ (State.startCopy s m) := by
  unfold State.startCopy
  repeat' first | exact List.Subset.trans (by decide) hm | intro _ | with_reducible assumption | dsimp only | with_reducible apply Kept.ite | with_reducible apply State.chargeReads_kept | with_reducible apply State.fetchBytes_kept | with_reducible apply State.haltTier_kept | with_reducible apply State.modMove_kept | with_reducible apply State.readSlotFar_kept | with_reducible apply State.writeSlotFar_kept

theorem execCopyMove_kept {ms : List Part} {s₀ s s' : State} (hm : [.mem, .wcb, .fault, .step, .dev, .regul, .tier, .waits, .clock, .drawn, .out] ⊆ ms) (hs : Kept ms s₀ s)  (he : execCopyMove s = .next s') : Kept ms s₀ s' := by
  unfold execCopyMove at he
  (try dsimp only at he)
  (repeat' split at he) <;> (try cases he) <;> (repeat' first | exact List.Subset.trans (by decide) hm | intro _ | with_reducible assumption | dsimp only | with_reducible apply Kept.ite | with_reducible apply State.chargeWrites_kept | with_reducible apply State.copyNext_kept | with_reducible apply State.dropPieces_kept | with_reducible apply State.skipMove_kept | with_reducible apply State.startCopy_kept | with_reducible apply State.storeBytes_kept | split | with_reducible refine Kept.pair (by assumption) ?_ | with_reducible refine Kept.triple (by assumption) ?_)

end Sys2Proof.Machine
end

