-- ==== Sys2Proof/Laws/KeptYarrow.lean ====
section
/-! SUPPORT. What the functions of Machine/Yarrow.lean keep. -/

namespace Sys2Proof.Machine

theorem State.yarrowEnd_kept {ms : List Part} {s₀ s : State} (hm : [.fault] ⊆ ms) (hs : Kept ms s₀ s) (code : Nat) : Kept ms s₀ (State.yarrowEnd s code) := by
  unfold State.yarrowEnd
  repeat' first | exact List.Subset.trans (by decide) hm | with_reducible assumption | dsimp only | with_reducible apply Kept.ite | with_reducible apply State.holdFor_kept | with_reducible apply State.log__kept | with_reducible apply State.set_kept

theorem State.logLists_kept {ms : List Part} {s₀ s : State} (hm : [.step] ⊆ ms) (hs : Kept ms s₀ s) (p : Plan) (g : StepLog) : Kept ms s₀ (State.logLists s p g) := by
  unfold State.logLists
  repeat' first | exact List.Subset.trans (by decide) hm | intro _ | with_reducible assumption | dsimp only | with_reducible apply Kept.ite | split | fail_if_no_progress ((with_reducible apply Kept.upd) <;> first | with_reducible exact Or.inr rfl | exact Or.inl (hm (by decide)) | with_reducible exact id | exact fun h => Seq.ok_upd h | exact fun _ => Seq.idle_ok | exact fun _ => Seq.ok_upd Seq.idle_ok | with_reducible exact Or.inr ⟨rfl, rfl⟩ | exact Or.inr ⟨rfl, rfl, rfl⟩ | skip)

theorem State.endLists_kept {ms : List Part} {s₀ s : State} (hm : [.seqRegs, .seq, .step] ⊆ ms) (hs : Kept ms s₀ s)  : Kept ms s₀ (State.endLists s) := by
  unfold State.endLists
  repeat' first | exact List.Subset.trans (by decide) hm | with_reducible assumption | dsimp only | with_reducible apply Kept.ite | with_reducible apply Seq.ok_upd | exact Seq.idle_ok | exact Or.inr (fun _ => ⟨rfl, rfl, rfl⟩) | exact Or.inl (hm (by decide)) | fail_if_no_progress ((with_reducible apply Kept.upd) <;> first | with_reducible exact Or.inr rfl | exact Or.inl (hm (by decide)) | with_reducible exact id | exact fun h => Seq.ok_upd h | exact fun _ => Seq.idle_ok | exact fun _ => Seq.ok_upd Seq.idle_ok | with_reducible exact Or.inr ⟨rfl, rfl⟩ | exact Or.inr ⟨rfl, rfl, rfl⟩ | skip)

theorem State.askReemit_kept {ms : List Part} {s₀ s : State} (hm : [.yarrow] ⊆ ms) (hs : Kept ms s₀ s) (commit : Bool) (xexps : List Int) : Kept ms s₀ (State.askReemit s commit xexps) := by
  unfold State.askReemit
  repeat' first | exact List.Subset.trans (by decide) hm | intro _ | with_reducible assumption | dsimp only | with_reducible apply Kept.ite | fail_if_no_progress ((with_reducible apply Kept.upd) <;> first | with_reducible exact Or.inr rfl | exact Or.inl (hm (by decide)) | with_reducible exact id | exact fun h => Seq.ok_upd h | exact fun _ => Seq.idle_ok | exact fun _ => Seq.ok_upd Seq.idle_ok | with_reducible exact Or.inr ⟨rfl, rfl⟩ | exact Or.inr ⟨rfl, rfl, rfl⟩ | skip)

theorem State.yarrowAbandon_kept {ms : List Part} {s₀ s : State} (hm : [.seqRegs, .seq, .mem, .wcb, .fault, .step, .dev, .regul, .log, .clock] ⊆ ms) (hs : Kept ms s₀ s) (p : Plan) (g : StepLog) : Kept ms s₀ (State.yarrowAbandon s p g) := by
  unfold State.yarrowAbandon
  repeat' first | exact List.Subset.trans (by decide) hm | intro _ | with_reducible assumption | dsimp only | with_reducible apply Kept.ite | with_reducible apply State.endLists_kept | with_reducible apply State.keepLog_kept | with_reducible apply State.logLists_kept | with_reducible apply State.releaseAll_kept | with_reducible apply State.set_kept | with_reducible apply State.yarrowEnd_kept

theorem State.yarrowSkip_kept {ms : List Part} {s₀ s : State} (hm : [.seqRegs, .seq, .mem, .wcb, .fault, .step, .dev, .regul, .log, .yarrow, .clock] ⊆ ms) (hs : Kept ms s₀ s) (p : Plan) (g : StepLog) : Kept ms s₀ (State.yarrowSkip s p g) := by
  unfold State.yarrowSkip
  repeat' first | exact List.Subset.trans (by decide) hm | intro _ | with_reducible assumption | dsimp only | with_reducible apply Kept.ite | with_reducible apply State.advance64_kept | with_reducible apply State.askReemit_kept | with_reducible apply State.closeLog_kept | with_reducible apply State.endLists_kept | with_reducible apply State.logLists_kept | with_reducible apply State.releaseAll_kept | with_reducible apply State.set_kept | with_reducible apply State.yarrowEnd_kept

theorem State.readJournal_kept {ms : List Part} {s₀ s : State} (hm : [.fault, .step, .dev, .regul, .clock] ⊆ ms) (hs : Kept ms s₀ s) (p : Plan) : Kept ms s₀ (State.readJournal s p).2 := by
  unfold State.readJournal
  repeat' first | exact List.Subset.trans (by decide) hm | intro _ | with_reducible assumption | dsimp only | with_reducible apply Kept.ite | with_reducible apply State.chargeReads_kept | with_reducible apply State.fetchBytes_kept | split | with_reducible refine Kept.pair (by assumption) ?_ | with_reducible refine Kept.triple (by assumption) ?_

theorem State.recoverJournal_kept {ms : List Part} {s₀ s : State} (hm : [.fault, .step, .dev, .regul, .tier, .clock] ⊆ ms) (hs : Kept ms s₀ s) (p : Plan) : Kept ms s₀ (State.recoverJournal s p) := by
  unfold State.recoverJournal
  repeat' first | exact List.Subset.trans (by decide) hm | intro _ | with_reducible assumption | dsimp only | with_reducible apply Kept.ite | with_reducible apply State.modTier_kept | with_reducible apply State.readJournal_kept

theorem State.closeJournal_kept {ms : List Part} {s₀ s : State} (hm : [.mem, .wcb, .fault, .step, .dev, .regul, .tier, .clock] ⊆ ms) (hs : Kept ms s₀ s)  : Kept ms s₀ (State.closeJournal s) := by
  unfold State.closeJournal
  repeat' first | exact List.Subset.trans (by decide) hm | intro _ | with_reducible assumption | dsimp only | with_reducible apply Kept.ite | with_reducible apply State.modTier_kept | with_reducible apply State.putJournal_kept | with_reducible refine Kept.foldl _ ?_ ?_ | with_reducible refine Kept.foldlSnd _ ?_ ?_ | with_reducible refine Kept.foldlTrd _ ?_ ?_ | with_reducible refine Kept.foldlFst _ ?_ ?_ | split

theorem State.actOnLog_kept {ms : List Part} {s₀ s : State} (hm : [.seqRegs, .seq, .mem, .wcb, .fault, .step, .dev, .regul, .tier, .log, .yarrow, .clock] ⊆ ms) (hs : Kept ms s₀ s) (p : Plan) (g : StepLog) : Kept ms s₀ (State.actOnLog s p g) := by
  unfold State.actOnLog
  repeat' first | exact List.Subset.trans (by decide) hm | with_reducible assumption | dsimp only | with_reducible apply Kept.ite | with_reducible apply State.holdFor_kept | with_reducible apply State.recoverJournal_kept | with_reducible apply State.set_kept | with_reducible apply State.yarrowAbandon_kept | with_reducible apply State.yarrowSkip_kept | split

theorem State.readLog_kept {ms : List Part} {s₀ s : State} (hm : [.seqRegs, .seq, .mem, .wcb, .fault, .step, .dev, .regul, .tier, .log, .yarrow, .clock] ⊆ ms) (hs : Kept ms s₀ s) (p : Plan) : Kept ms s₀ (State.readLog s p) := by
  unfold State.readLog
  repeat' first | exact List.Subset.trans (by decide) hm | intro _ | with_reducible assumption | dsimp only | with_reducible apply Kept.ite | with_reducible apply State.actOnLog_kept | with_reducible apply State.fetchBytes_kept | with_reducible apply State.recoverJournal_kept | with_reducible apply State.set64_kept | with_reducible apply State.set_kept | with_reducible apply State.yarrowEnd_kept | split | with_reducible refine Kept.pair (by assumption) ?_ | with_reducible refine Kept.triple (by assumption) ?_ | fail_if_no_progress ((with_reducible apply Kept.upd) <;> first | with_reducible exact Or.inr rfl | exact Or.inl (hm (by decide)) | with_reducible exact id | exact fun h => Seq.ok_upd h | exact fun _ => Seq.idle_ok | exact fun _ => Seq.ok_upd Seq.idle_ok | with_reducible exact Or.inr ⟨rfl, rfl⟩ | exact Or.inr ⟨rfl, rfl, rfl⟩ | skip)

theorem State.yarrowUnits_kept {ms : List Part} {s₀ s : State} (hm : [.mem, .wcb, .fault, .plan, .step, .dev, .regul, .log, .clock] ⊆ ms) (hs : Kept ms s₀ s) (p : Plan) (us : List LogUnit) : Kept ms s₀ (State.yarrowUnits s p us) := by
  unfold State.yarrowUnits
  repeat' first | exact List.Subset.trans (by decide) hm | intro _ | with_reducible assumption | dsimp only | with_reducible apply Kept.ite | with_reducible apply State.openUnit_kept | with_reducible apply State.writeUnit_kept | with_reducible refine Kept.foldl _ ?_ ?_ | with_reducible refine Kept.foldlSnd _ ?_ ?_ | with_reducible refine Kept.foldlTrd _ ?_ ?_ | with_reducible refine Kept.foldlFst _ ?_ ?_ | fail_if_no_progress ((with_reducible apply Kept.upd) <;> first | with_reducible exact Or.inr rfl | exact Or.inl (hm (by decide)) | with_reducible exact id | exact fun h => Seq.ok_upd h | exact fun _ => Seq.idle_ok | exact fun _ => Seq.ok_upd Seq.idle_ok | with_reducible exact Or.inr ⟨rfl, rfl⟩ | exact Or.inr ⟨rfl, rfl, rfl⟩ | skip)

theorem State.yarrowConsts_kept {ms : List Part} {s₀ s : State} (hm : [.mem, .wcb, .fault, .plan, .step, .regul, .clock] ⊆ ms) (hs : Kept ms s₀ s) (p : Plan) (g : StepLog) : Kept ms s₀ (State.yarrowConsts s p g) := by
  unfold State.yarrowConsts
  repeat' first | exact List.Subset.trans (by decide) hm | intro _ | with_reducible assumption | dsimp only | with_reducible apply Kept.ite | with_reducible apply State.clipConstants_kept | with_reducible apply State.evalGroup_kept | with_reducible apply State.modStep_kept | with_reducible refine Kept.foldl _ ?_ ?_

theorem State.yarrowLines_kept {ms : List Part} {s₀ s : State} (hm : [.mem, .wcb, .fault, .plan, .step, .dev, .regul, .log, .clock, .drawn] ⊆ ms) (hs : Kept ms s₀ s) (p : Plan) (e : EntrySt) : Kept ms s₀ (State.yarrowLines s p e).2 := by
  unfold State.yarrowLines
  repeat' first | exact List.Subset.trans (by decide) hm | with_reducible assumption | dsimp only | with_reducible apply Kept.ite | with_reducible apply State.blockBc_kept | with_reducible apply State.openUnits_kept | split | with_reducible refine Kept.pair (by assumption) ?_

theorem State.yarrowNote_kept {ms : List Part} {s₀ s : State} (hm : [.fault, .step, .regul, .clock] ⊆ ms) (hs : Kept ms s₀ s) (o : PassOut) : Kept ms s₀ (State.yarrowNote s o) := by
  unfold State.yarrowNote
  repeat' first | exact List.Subset.trans (by decide) hm | intro _ | with_reducible assumption | dsimp only | with_reducible apply Kept.ite | with_reducible apply State.chargeReads_kept | with_reducible apply State.noteLine_kept | with_reducible refine Kept.foldl _ ?_ ?_ | with_reducible refine Kept.foldlSnd _ ?_ ?_ | with_reducible refine Kept.foldlTrd _ ?_ ?_ | with_reducible refine Kept.foldlFst _ ?_ ?_

theorem State.yarrowLose_kept {ms : List Part} {s₀ s : State} (hm : [.fault, .step] ⊆ ms) (hs : Kept ms s₀ s) (n : Nat) (h : Nat) : Kept ms s₀ (State.yarrowLose s n h) := by
  unfold State.yarrowLose
  repeat' first | exact List.Subset.trans (by decide) hm | intro _ | with_reducible assumption | dsimp only | with_reducible apply Kept.ite | with_reducible apply State.loseShard_kept | with_reducible apply State.modEntry_kept

theorem State.yarrowScan_kept {ms : List Part} {s₀ s : State} (hm : [.mem, .wcb, .fault, .plan, .step, .dev, .regul, .log, .clock, .drawn] ⊆ ms) (hs : Kept ms s₀ s) (p : Plan) (n : Nat) (e : EntrySt) : Kept ms s₀ (State.yarrowScan s p n e) := by
  unfold State.yarrowScan
  repeat' first | exact List.Subset.trans (by decide) hm | intro _ | with_reducible assumption | dsimp only | with_reducible apply Kept.ite | with_reducible apply State.modEntry_kept | with_reducible apply State.orFlags_kept | with_reducible apply State.yarrowLines_kept | with_reducible apply State.yarrowLose_kept | with_reducible apply State.yarrowNote_kept | split | with_reducible refine Kept.pair (by assumption) ?_

theorem State.yarrowTrust_kept {ms : List Part} {s₀ s : State} (hm : [.mem, .wcb, .fault, .plan, .step, .dev, .regul, .log, .clock, .drawn] ⊆ ms) (hs : Kept ms s₀ s) (p : Plan) (k : GroupK) : Kept ms s₀ (State.yarrowTrust s p k) := by
  unfold State.yarrowTrust
  repeat' first | exact List.Subset.trans (by decide) hm | intro _ | with_reducible assumption | dsimp only | with_reducible apply Kept.ite | with_reducible apply State.setTrust_kept | with_reducible apply State.yarrowScan_kept | with_reducible refine Kept.foldl _ ?_ ?_

theorem State.yarrowLayer_kept {ms : List Part} {s₀ s : State} (hm : [.mem, .wcb, .fault, .plan, .step, .dev, .regul, .tier, .clock, .drawn] ⊆ ms) (hs : Kept ms s₀ s) (p : Plan) (n : Nat) : Kept ms s₀ (State.yarrowLayer s p n) := by
  unfold State.yarrowLayer
  repeat' first | exact List.Subset.trans (by decide) hm | intro _ | with_reducible assumption | dsimp only | with_reducible apply Kept.ite | with_reducible apply State.abandonLayer_kept | with_reducible apply State.copyDirection_kept | with_reducible apply State.layerWork_kept | with_reducible apply State.modLayer_kept | with_reducible apply State.modLayerSt_kept | split | with_reducible refine Kept.pair (by assumption) ?_

theorem State.yarrowRow_kept {ms : List Part} {s₀ s : State} (hm : [.mem, .wcb, .fault, .plan, .step, .dev, .regul, .log, .clock, .drawn] ⊆ ms) (hs : Kept ms s₀ s) (p : Plan) (n : Nat) (e : EntrySt) : Kept ms s₀ (State.yarrowRow s p n e) := by
  unfold State.yarrowRow
  repeat' first | exact List.Subset.trans (by decide) hm | intro _ | with_reducible assumption | dsimp only | with_reducible apply Kept.ite | with_reducible apply State.chargePassWrites_kept | with_reducible apply State.charge_kept | with_reducible apply State.modEntry_kept | with_reducible apply State.orFlags_kept | with_reducible apply State.writePhase1_kept | with_reducible apply State.writePhase2_kept | with_reducible apply State.writePhase3_kept | with_reducible apply State.yarrowLines_kept | with_reducible apply State.yarrowLose_kept | with_reducible apply State.yarrowNote_kept | with_reducible apply XAcc.far_kept | split | with_reducible refine Kept.pair (by assumption) ?_ | with_reducible refine Kept.triple (by assumption) ?_

theorem State.yarrowFlags_kept {ms : List Part} {s₀ s : State} (hm : [.mem, .wcb, .fault, .plan, .step, .dev, .regul, .clock] ⊆ ms) (hs : Kept ms s₀ s) (done : List EntrySt) : Kept ms s₀ (State.yarrowFlags s done) := by
  unfold State.yarrowFlags
  repeat' first | exact List.Subset.trans (by decide) hm | intro _ | with_reducible assumption | dsimp only | with_reducible apply Kept.ite | with_reducible apply State.orFlags_kept | with_reducible apply State.setBsu_kept | with_reducible refine Kept.foldl _ ?_ ?_ | with_reducible refine Kept.foldlSnd _ ?_ ?_ | with_reducible refine Kept.foldlTrd _ ?_ ?_ | with_reducible refine Kept.foldlFst _ ?_ ?_ | split | with_reducible refine Kept.pair (by assumption) ?_ | with_reducible refine Kept.triple (by assumption) ?_

theorem State.yarrowReport_kept {ms : List Part} {s₀ s : State} (hm : [.mem, .wcb, .fault, .plan, .step, .dev, .regul, .log, .clock, .drawn] ⊆ ms) (hs : Kept ms s₀ s) (p : Plan) (e : EntrySt) : Kept ms s₀ (State.yarrowReport s p e) := by
  unfold State.yarrowReport
  repeat' first | exact List.Subset.trans (by decide) hm | intro _ | with_reducible assumption | dsimp only | with_reducible apply Kept.ite | with_reducible apply State.chargeReads_kept | with_reducible apply State.modShard_kept | with_reducible apply State.yarrowLines_kept | split | with_reducible refine Kept.pair (by assumption) ?_ | with_reducible refine Kept.triple (by assumption) ?_

theorem State.recomputeOdig_kept {ms : List Part} {s₀ s : State} (hm : [.fault, .step, .dev, .regul, .clock, .drawn] ⊆ ms) (hs : Kept ms s₀ s) (p : Plan) : Kept ms s₀ (State.recomputeOdig s p) := by
  unfold State.recomputeOdig
  repeat' first | exact List.Subset.trans (by decide) hm | intro _ | with_reducible assumption | dsimp only | with_reducible apply Kept.ite | with_reducible apply State.free_kept | with_reducible apply State.readUnit_kept | with_reducible apply State.set64_kept | with_reducible refine Kept.foldl _ ?_ ?_ | with_reducible refine Kept.foldlSnd _ ?_ ?_ | with_reducible refine Kept.foldlTrd _ ?_ ?_ | with_reducible refine Kept.foldlFst _ ?_ ?_ | split | with_reducible refine Kept.pair (by assumption) ?_

theorem State.yarrowFinish_kept {ms : List Part} {s₀ s : State} (hm : [.seqRegs, .seq, .mem, .wcb, .fault, .plan, .step, .dev, .regul, .tier, .log, .yarrow, .clock, .drawn] ⊆ ms) (hs : Kept ms s₀ s) (p : Plan) : Kept ms s₀ (State.yarrowFinish s p) := by
  unfold State.yarrowFinish
  repeat' first | exact List.Subset.trans (by decide) hm | intro _ | with_reducible assumption | dsimp only | with_reducible apply Kept.ite | with_reducible apply State.advance64_kept | with_reducible apply State.askReemit_kept | with_reducible apply State.closeLog_kept | with_reducible apply State.endLists_kept | with_reducible apply State.modTier_kept | with_reducible apply State.pass_kept | with_reducible apply State.recomputeOdig_kept | with_reducible apply State.recoverJournal_kept | with_reducible apply State.releaseAll_kept | with_reducible apply State.set_kept | with_reducible apply State.updateShards_kept | with_reducible apply State.yarrowEnd_kept | with_reducible apply State.yarrowFlags_kept | with_reducible apply State.yarrowReport_kept | with_reducible apply State.yarrowRow_kept | with_reducible refine Kept.foldl _ ?_ ?_ | with_reducible refine Kept.foldlSnd _ ?_ ?_ | with_reducible refine Kept.foldlTrd _ ?_ ?_ | with_reducible refine Kept.foldlFst _ ?_ ?_ | split | with_reducible refine Kept.pair (by assumption) ?_ | with_reducible refine Kept.triple (by assumption) ?_

theorem State.yarrowBegin_kept {ms : List Part} {s₀ s : State} (hm : [.mem, .wcb, .fault, .plan, .step, .dev, .regul, .tier, .log, .clock, .drawn] ⊆ ms) (hs : Kept ms s₀ s) (p : Plan) (g : StepLog) : Kept ms s₀ (State.yarrowBegin s p g) := by
  unfold State.yarrowBegin
  repeat' first | exact List.Subset.trans (by decide) hm | intro _ | with_reducible assumption | dsimp only | with_reducible apply Kept.ite | with_reducible apply State.logLists_kept | with_reducible apply State.modPlan_kept | with_reducible apply State.modTier_kept | with_reducible apply State.readJournal_kept | with_reducible apply State.yarrowConsts_kept | with_reducible apply State.yarrowLayer_kept | with_reducible apply State.yarrowTrust_kept | with_reducible apply State.yarrowUnits_kept | with_reducible refine Kept.foldl _ ?_ ?_ | with_reducible refine Kept.foldlSnd _ ?_ ?_ | with_reducible refine Kept.foldlTrd _ ?_ ?_ | with_reducible refine Kept.foldlFst _ ?_ ?_ | split

theorem State.leaveLoad_kept {ms : List Part} {s₀ s : State} (hs : Kept ms s₀ s)  : Kept ms s₀ (State.leaveLoad s) := by
  unfold State.leaveLoad
  repeat' first | with_reducible assumption | dsimp only | with_reducible apply Kept.ite | with_reducible apply State.set_kept

theorem execYarrowResolveCommit_kept {ms : List Part} {s₀ s s' : State} (hm : [.seqRegs, .seq, .mem, .wcb, .fault, .plan, .step, .dev, .regul, .tier, .log, .yarrow, .clock, .drawn] ⊆ ms) (hs : Kept ms s₀ s)  (he : execYarrowResolveCommit s = .next s') : Kept ms s₀ s' := by
  unfold execYarrowResolveCommit at he
  (try dsimp only at he)
  (repeat' split at he) <;> (try cases he) <;> (repeat' first | exact List.Subset.trans (by decide) hm | intro _ | with_reducible assumption | dsimp only | with_reducible apply Kept.ite | with_reducible apply State.leaveLoad_kept | with_reducible apply State.yarrowBegin_kept | with_reducible apply State.yarrowEnd_kept | with_reducible apply State.yarrowFinish_kept | split | with_reducible refine Kept.pair (by assumption) ?_ | with_reducible refine Kept.triple (by assumption) ?_ | fail_if_no_progress ((with_reducible apply Kept.upd) <;> first | with_reducible exact Or.inr rfl | exact Or.inl (hm (by decide)) | with_reducible exact id | exact fun h => Seq.ok_upd h | exact fun _ => Seq.idle_ok | exact fun _ => Seq.ok_upd Seq.idle_ok | with_reducible exact Or.inr ⟨rfl, rfl⟩ | exact Or.inr ⟨rfl, rfl, rfl⟩ | skip))

theorem State.endYarrowHold_kept {ms : List Part} {s₀ s : State} (hs : Kept ms s₀ s)  : Kept ms s₀ (State.endYarrowHold s) := by
  unfold State.endYarrowHold
  repeat' first | with_reducible assumption | dsimp only | with_reducible apply Kept.ite | with_reducible apply State.endHold_kept

theorem State.ygo_kept {ms : List Part} {s₀ s : State} (hm : [.seqRegs, .seq, .mem, .wcb, .fault, .step, .dev, .regul, .tier, .log, .yarrow, .clock] ⊆ ms) (hs : Kept ms s₀ s)  : Kept ms s₀ (State.ygo s) := by
  unfold State.ygo
  repeat' first | exact List.Subset.trans (by decide) hm | intro _ | with_reducible assumption | dsimp only | with_reducible apply Kept.ite | with_reducible apply State.endYarrowHold_kept | with_reducible apply State.keepLog_kept | with_reducible apply State.recoverJournal_kept | with_reducible apply State.set_kept | with_reducible apply State.yarrowAbandon_kept | with_reducible apply State.yarrowEnd_kept | with_reducible apply State.yarrowSkip_kept | split | with_reducible refine Kept.pair (by assumption) ?_ | with_reducible refine Kept.triple (by assumption) ?_

theorem execYgo_kept {ms : List Part} {s₀ s s' : State} (hm : [.seqRegs, .seq, .mem, .wcb, .fault, .step, .dev, .regul, .tier, .log, .yarrow, .clock] ⊆ ms) (hs : Kept ms s₀ s) (v : Word) (he : execYgo v s = .next s') : Kept ms s₀ s' := by
  unfold execYgo at he
  (try dsimp only at he)
  (repeat' split at he) <;> (try cases he) <;> (repeat' first | exact List.Subset.trans (by decide) hm | intro _ | with_reducible assumption | dsimp only | with_reducible apply Kept.ite | with_reducible apply State.onWrite_kept | with_reducible apply State.ygo_kept | with_reducible apply whenBit_kept)

theorem State.reemitInsts_kept {ms : List Part} {s₀ s : State} (hm : [.step] ⊆ ms) (hs : Kept ms s₀ s) (p : Plan) (g : StepLog) : Kept ms s₀ (State.reemitInsts s p g) := by
  unfold State.reemitInsts
  repeat' first | exact List.Subset.trans (by decide) hm | intro _ | with_reducible assumption | dsimp only | with_reducible apply Kept.ite | with_reducible apply State.modStep_kept | with_reducible refine Kept.foldl _ ?_ ?_ | with_reducible refine Kept.foldlSnd _ ?_ ?_ | with_reducible refine Kept.foldlTrd _ ?_ ?_ | with_reducible refine Kept.foldlFst _ ?_ ?_ | split

theorem State.startReemit_kept {ms : List Part} {s₀ s : State} (hm : [.seqRegs, .seq, .step] ⊆ ms) (hs : Kept ms s₀ s) (p : Plan) (g : StepLog) (r : Reemit) : Kept ms s₀ (State.startReemit s p g r) := by
  unfold State.startReemit
  repeat' first | exact List.Subset.trans (by decide) hm | intro _ | with_reducible assumption | dsimp only | with_reducible apply Kept.ite | with_reducible apply Seq.ok_upd | exact Seq.idle_ok | exact Or.inr (fun _ => ⟨rfl, rfl, rfl⟩) | exact Or.inl (hm (by decide)) | with_reducible apply State.reemitInsts_kept | with_reducible apply State.set_kept | with_reducible apply State.settleInsts_kept | fail_if_no_progress ((with_reducible apply Kept.upd) <;> first | with_reducible exact Or.inr rfl | exact Or.inl (hm (by decide)) | with_reducible exact id | exact fun h => Seq.ok_upd h | exact fun _ => Seq.idle_ok | exact fun _ => Seq.ok_upd Seq.idle_ok | with_reducible exact Or.inr ⟨rfl, rfl⟩ | exact Or.inr ⟨rfl, rfl, rfl⟩ | skip)

theorem State.endReemit_kept {ms : List Part} {s₀ s : State} (hm : [.seqRegs, .seq, .plan, .icache, .step, .exch, .tier, .yarrow] ⊆ ms) (hs : Kept ms s₀ s)  : Kept ms s₀ (State.endReemit s) := by
  unfold State.endReemit
  repeat' first | exact List.Subset.trans (by decide) hm | with_reducible assumption | dsimp only | with_reducible apply Kept.ite | with_reducible apply State.endLists_kept | with_reducible apply State.releaseGo_kept | fail_if_no_progress ((with_reducible apply Kept.upd) <;> first | with_reducible exact Or.inr rfl | exact Or.inl (hm (by decide)) | with_reducible exact id | exact fun h => Seq.ok_upd h | exact fun _ => Seq.idle_ok | exact fun _ => Seq.ok_upd Seq.idle_ok | with_reducible exact Or.inr ⟨rfl, rfl⟩ | exact Or.inr ⟨rfl, rfl, rfl⟩ | skip)

theorem execYarrowReemit_kept {ms : List Part} {s₀ s s' : State} (hm : [.seqRegs, .seq, .plan, .icache, .step, .exch, .tier, .yarrow] ⊆ ms) (hs : Kept ms s₀ s)  (he : execYarrowReemit s = .next s') : Kept ms s₀ s' := by
  unfold execYarrowReemit at he
  (try dsimp only at he)
  (repeat' split at he) <;> (try cases he) <;> (repeat' first | exact List.Subset.trans (by decide) hm | with_reducible assumption | dsimp only | with_reducible apply Kept.ite | with_reducible apply State.endReemit_kept | with_reducible apply State.settleInsts_kept | with_reducible apply State.startReemit_kept)

end Sys2Proof.Machine
end

