-- ==== Sys2Proof/Laws/KeptLoad.lean ====
section
/-! SUPPORT. What the functions of Machine/Load.lean keep. -/

namespace Sys2Proof.Machine

theorem State.restoreLstate_kept {ms : List Part} {s₀ s : State} (hs : Kept ms s₀ s)  : Kept ms s₀ (State.restoreLstate s) := by
  unfold State.restoreLstate
  repeat' first | with_reducible assumption | dsimp only | with_reducible apply Kept.ite | with_reducible apply State.set_kept

theorem State.loadResult_kept {ms : List Part} {s₀ s : State} (hs : Kept ms s₀ s) (code : Nat) (o : Offender) : Kept ms s₀ (State.loadResult s code o) := by
  unfold State.loadResult
  repeat' first | with_reducible assumption | dsimp only | with_reducible apply Kept.ite | with_reducible apply State.set_kept

theorem State.loadFailed_kept {ms : List Part} {s₀ s : State} (hm : [.seqRegs, .seq, .plan, .icache, .step, .tier] ⊆ ms) (hs : Kept ms s₀ s) (code : Nat) (o : Offender) : Kept ms s₀ (State.loadFailed s code o) := by
  unfold State.loadFailed
  repeat' first | exact List.Subset.trans (by decide) hm | with_reducible assumption | dsimp only | with_reducible apply Kept.ite | with_reducible apply State.loadResult_kept | with_reducible apply State.raise_kept | with_reducible apply State.releaseGo_kept | with_reducible apply State.restoreLstate_kept | with_reducible apply State.set_kept | split | fail_if_no_progress ((with_reducible apply Kept.upd) <;> first | with_reducible exact Or.inr rfl | exact Or.inl (hm (by decide)) | with_reducible exact id | exact fun h => Seq.ok_upd h | exact fun _ => Seq.idle_ok | exact fun _ => Seq.ok_upd Seq.idle_ok | with_reducible exact Or.inr ⟨rfl, rfl⟩ | exact Or.inr ⟨rfl, rfl, rfl⟩ | skip)

theorem State.startVerify_kept {ms : List Part} {s₀ s : State} (hm : [.seqRegs, .seq, .fault, .plan, .icache, .step, .regul, .tier, .req, .clock, .out] ⊆ ms) (hs : Kept ms s₀ s) (reg : Nat) : Kept ms s₀ (State.startVerify s reg) := by
  unfold State.startVerify
  repeat' first | exact List.Subset.trans (by decide) hm | intro _ | with_reducible assumption | dsimp only | with_reducible apply Kept.ite | with_reducible apply State.charge_kept | with_reducible apply State.loadFailed_kept | with_reducible apply State.noteLine_kept | with_reducible apply State.rotAsk_kept | with_reducible refine Kept.foldl _ ?_ ?_ | with_reducible refine Kept.foldlSnd _ ?_ ?_ | with_reducible refine Kept.foldlTrd _ ?_ ?_ | with_reducible refine Kept.foldlFst _ ?_ ?_ | split

theorem State.setLoad_kept {ms : List Part} {s₀ s : State} (hm : [.plan] ⊆ ms) (hs : Kept ms s₀ s) (swap : Bool) : Kept ms s₀ (State.setLoad s swap) := by
  unfold State.setLoad
  repeat' first | exact List.Subset.trans (by decide) hm | with_reducible assumption | dsimp only | with_reducible apply Kept.ite | with_reducible apply State.restoreLstate_kept | fail_if_no_progress ((with_reducible apply Kept.upd) <;> first | with_reducible exact Or.inr rfl | exact Or.inl (hm (by decide)) | with_reducible exact id | exact fun h => Seq.ok_upd h | exact fun _ => Seq.idle_ok | exact fun _ => Seq.ok_upd Seq.idle_ok | with_reducible exact Or.inr ⟨rfl, rfl⟩ | exact Or.inr ⟨rfl, rfl, rfl⟩ | skip)

theorem State.firstLoad_kept {ms : List Part} {s₀ s : State} (hm : [.seqRegs, .seq, .fault, .plan, .icache, .step, .regul, .tier, .req, .clock, .out] ⊆ ms) (hs : Kept ms s₀ s)  : Kept ms s₀ (State.firstLoad s) := by
  unfold State.firstLoad
  repeat' first | exact List.Subset.trans (by decide) hm | intro _ | with_reducible assumption | dsimp only | with_reducible apply Kept.ite | with_reducible apply State.loadFailed_kept | with_reducible apply State.setLoad_kept | with_reducible apply State.set_kept | with_reducible apply State.startVerify_kept

theorem State.swapLoad_kept {ms : List Part} {s₀ s : State} (hm : [.seqRegs, .seq, .fault, .plan, .icache, .step, .regul, .tier, .req, .clock, .out] ⊆ ms) (hs : Kept ms s₀ s)  : Kept ms s₀ (State.swapLoad s) := by
  unfold State.swapLoad
  repeat' first | exact List.Subset.trans (by decide) hm | with_reducible assumption | dsimp only | with_reducible apply Kept.ite | with_reducible apply State.loadResult_kept | with_reducible apply State.rotDrop_kept | with_reducible apply State.set64_kept | with_reducible apply State.setLoad_kept | with_reducible apply State.startVerify_kept | split | fail_if_no_progress ((with_reducible apply Kept.upd) <;> first | with_reducible exact Or.inr rfl | exact Or.inl (hm (by decide)) | with_reducible exact id | exact fun h => Seq.ok_upd h | exact fun _ => Seq.idle_ok | exact fun _ => Seq.ok_upd Seq.idle_ok | with_reducible exact Or.inr ⟨rfl, rfl⟩ | exact Or.inr ⟨rfl, rfl, rfl⟩ | skip)

theorem State.writeLoad_kept {ms : List Part} {s₀ s : State} (hm : [.seqRegs, .seq, .fault, .plan, .icache, .step, .regul, .tier, .req, .clock, .out] ⊆ ms) (hs : Kept ms s₀ s) (v : Word) : Kept ms s₀ (State.writeLoad s v) := by
  unfold State.writeLoad
  repeat' first | exact List.Subset.trans (by decide) hm | intro _ | with_reducible assumption | dsimp only | with_reducible apply Kept.ite | with_reducible apply State.firstLoad_kept | with_reducible apply State.onWrite_kept | with_reducible apply State.setFlag_kept | with_reducible apply State.swapLoad_kept | with_reducible apply whenBit_kept

theorem execLoad_kept {ms : List Part} {s₀ s s' : State} (hm : [.seqRegs, .seq, .fault, .plan, .icache, .step, .regul, .tier, .req, .clock, .out] ⊆ ms) (hs : Kept ms s₀ s) (v : Word) (he : execLoad v s = .next s') : Kept ms s₀ s' := by
  unfold execLoad at he
  (try dsimp only at he)
  (repeat' split at he) <;> (try cases he) <;> (repeat' first | exact List.Subset.trans (by decide) hm | with_reducible assumption | dsimp only | with_reducible apply Kept.ite | with_reducible apply State.writeLoad_kept)

theorem execSwap_kept {ms : List Part} {s₀ s s' : State} (hm : [.seqRegs, .seq, .fault, .plan, .icache, .step, .regul, .tier, .req, .clock, .out] ⊆ ms) (hs : Kept ms s₀ s) (v : Word) (he : execSwap v s = .next s') : Kept ms s₀ s' := by
  unfold execSwap at he
  (try dsimp only at he)
  (repeat' split at he) <;> (try cases he) <;> (repeat' first | exact List.Subset.trans (by decide) hm | with_reducible assumption | dsimp only | with_reducible apply Kept.ite | with_reducible apply State.writeLoad_kept)

theorem State.verifyFailed_kept {ms : List Part} {s₀ s : State} (hm : [.seqRegs, .seq, .plan, .icache, .step, .tier] ⊆ ms) (hs : Kept ms s₀ s) (p : Plan) (x : Nat × Offender) : Kept ms s₀ (State.verifyFailed s p x) := by
  unfold State.verifyFailed
  repeat' first | exact List.Subset.trans (by decide) hm | with_reducible assumption | dsimp only | with_reducible apply Kept.ite | with_reducible apply State.loadFailed_kept | with_reducible apply State.refuseEntry_kept | split

theorem State.putPlanEntry_kept {ms : List Part} {s₀ s : State} (hm : [.req] ⊆ ms) (hs : Kept ms s₀ s) (r : RegionRec) : Kept ms s₀ (State.putPlanEntry s r) := by
  unfold State.putPlanEntry
  repeat' first | exact List.Subset.trans (by decide) hm | intro _ | with_reducible assumption | dsimp only | with_reducible apply Kept.ite | with_reducible apply State.beginInit_kept | with_reducible apply State.putRegion_kept

theorem State.putPlanEntries_kept {ms : List Part} {s₀ s : State} (hm : [.req] ⊆ ms) (hs : Kept ms s₀ s) (p : Plan) : Kept ms s₀ (State.putPlanEntries s p) := by
  unfold State.putPlanEntries
  repeat' first | exact List.Subset.trans (by decide) hm | intro _ | with_reducible assumption | dsimp only | with_reducible apply Kept.ite | with_reducible apply State.putPlanEntry_kept | with_reducible refine Kept.foldl _ ?_ ?_ | with_reducible refine Kept.foldlSnd _ ?_ ?_ | with_reducible refine Kept.foldlTrd _ ?_ ?_ | with_reducible refine Kept.foldlFst _ ?_ ?_

theorem State.dropOldEntries_kept {ms : List Part} {s₀ s : State} (hs : Kept ms s₀ s) (p : Plan) : Kept ms s₀ (State.dropOldEntries s p) := by
  unfold State.dropOldEntries
  repeat' first | intro _ | with_reducible assumption | dsimp only | with_reducible apply Kept.ite | with_reducible apply State.disableRegion_kept | with_reducible refine Kept.foldl _ ?_ ?_ | with_reducible refine Kept.foldlSnd _ ?_ ?_ | with_reducible refine Kept.foldlTrd _ ?_ ?_ | with_reducible refine Kept.foldlFst _ ?_ ?_ | split

theorem State.loadSeeds_kept {ms : List Part} {s₀ s : State} (hm : [.wcb, .step, .dev, .regul, .clock] ⊆ ms) (hs : Kept ms s₀ s) (p : Plan) : Kept ms s₀ (State.loadSeeds s p) := by
  unfold State.loadSeeds
  repeat' first | exact List.Subset.trans (by decide) hm | intro _ | with_reducible assumption | dsimp only | with_reducible apply Kept.ite | with_reducible apply State.loadSeed_kept | with_reducible refine Kept.foldl _ ?_ ?_ | with_reducible refine Kept.foldlSnd _ ?_ ?_ | with_reducible refine Kept.foldlTrd _ ?_ ?_ | with_reducible refine Kept.foldlFst _ ?_ ?_

theorem State.keepJournal_kept {ms : List Part} {s₀ s : State} (hm : [.tier] ⊆ ms) (hs : Kept ms s₀ s) (p : Plan) : Kept ms s₀ (State.keepJournal s p) := by
  unfold State.keepJournal
  repeat' first | exact List.Subset.trans (by decide) hm | intro _ | with_reducible assumption | dsimp only | with_reducible apply Kept.ite | split | fail_if_no_progress ((with_reducible apply Kept.upd) <;> first | with_reducible exact Or.inr rfl | exact Or.inl (hm (by decide)) | with_reducible exact id | exact fun h => Seq.ok_upd h | exact fun _ => Seq.idle_ok | exact fun _ => Seq.ok_upd Seq.idle_ok | with_reducible exact Or.inr ⟨rfl, rfl⟩ | exact Or.inr ⟨rfl, rfl, rfl⟩ | skip)

theorem State.installPlan_kept {ms : List Part} {s₀ s : State} (hm : [.mem, .wcb, .fault, .plan, .icache, .step, .dev, .regul, .tier, .req, .clock, .drawn] ⊆ ms) (hs : Kept ms s₀ s) (p : Plan) : Kept ms s₀ (State.installPlan s p) := by
  unfold State.installPlan
  repeat' first | exact List.Subset.trans (by decide) hm | with_reducible assumption | dsimp only | with_reducible apply Kept.ite | with_reducible apply State.bindTopo_kept | with_reducible apply State.charge_kept | with_reducible apply State.dropOldEntries_kept | with_reducible apply State.keepJournal_kept | with_reducible apply State.loadSeeds_kept | with_reducible apply State.patchAll_kept | with_reducible apply State.putPlanEntries_kept | with_reducible apply State.recomputeOdig_kept | with_reducible apply State.set_kept | with_reducible apply State.set64_kept | split | fail_if_no_progress ((with_reducible apply Kept.upd) <;> first | with_reducible exact Or.inr rfl | exact Or.inl (hm (by decide)) | with_reducible exact id | exact fun h => Seq.ok_upd h | exact fun _ => Seq.idle_ok | exact fun _ => Seq.ok_upd Seq.idle_ok | with_reducible exact Or.inr ⟨rfl, rfl⟩ | exact Or.inr ⟨rfl, rfl, rfl⟩ | skip)

theorem State.firstLoaded_kept {ms : List Part} {s₀ s : State} (hm : [.seqRegs, .seq, .mem, .wcb, .fault, .plan, .icache, .step, .dev, .regul, .tier, .log, .yarrow, .req, .clock, .drawn] ⊆ ms) (hs : Kept ms s₀ s) (p : Plan) : Kept ms s₀ (State.firstLoaded s p) := by
  unfold State.firstLoaded
  repeat' first | exact List.Subset.trans (by decide) hm | with_reducible assumption | dsimp only | with_reducible apply Kept.ite | with_reducible apply State.installPlan_kept | with_reducible apply State.leaveLoad_kept | with_reducible apply State.loadResult_kept | with_reducible apply State.readLog_kept

theorem State.swapVerified_kept {ms : List Part} {s₀ s : State} (hm : [.plan] ⊆ ms) (hs : Kept ms s₀ s) (p : Plan) : Kept ms s₀ (State.swapVerified s p) := by
  unfold State.swapVerified
  repeat' first | exact List.Subset.trans (by decide) hm | with_reducible assumption | dsimp only | with_reducible apply Kept.ite | with_reducible apply State.loadResult_kept | with_reducible apply State.restoreLstate_kept | with_reducible apply State.set64_kept | fail_if_no_progress ((with_reducible apply Kept.upd) <;> first | with_reducible exact Or.inr rfl | exact Or.inl (hm (by decide)) | with_reducible exact id | exact fun h => Seq.ok_upd h | exact fun _ => Seq.idle_ok | exact fun _ => Seq.ok_upd Seq.idle_ok | with_reducible exact Or.inr ⟨rfl, rfl⟩ | exact Or.inr ⟨rfl, rfl, rfl⟩ | skip)

theorem State.imageLost_kept {ms : List Part} {s₀ s : State} (hm : [.seqRegs, .seq, .fault, .plan, .icache, .step, .tier] ⊆ ms) (hs : Kept ms s₀ s) (l : LoadRun) (p : Plan) (bad : List LineLoc) : Kept ms s₀ (State.imageLost s l p bad) := by
  unfold State.imageLost
  repeat' first | exact List.Subset.trans (by decide) hm | intro _ | with_reducible assumption | dsimp only | with_reducible apply Kept.ite | with_reducible apply State.loadFailed_kept | with_reducible apply State.noteLine_kept | with_reducible refine Kept.foldl _ ?_ ?_ | with_reducible refine Kept.foldlSnd _ ?_ ?_ | with_reducible refine Kept.foldlTrd _ ?_ ?_ | with_reducible refine Kept.foldlFst _ ?_ ?_ | split | with_reducible refine Kept.pair (by assumption) ?_ | with_reducible refine Kept.triple (by assumption) ?_

theorem execLoadVerifyDone_kept {ms : List Part} {s₀ s s' : State} (hm : [.seqRegs, .seq, .mem, .wcb, .fault, .plan, .icache, .step, .exch, .dev, .regul, .tier, .log, .yarrow, .req, .waits, .clock, .drawn, .out] ⊆ ms) (hs : Kept ms s₀ s)  (he : execLoadVerifyDone s = .next s') : Kept ms s₀ s' := by
  unfold execLoadVerifyDone at he
  (try dsimp only at he)
  (repeat' split at he) <;> (try cases he) <;> (repeat' first | exact List.Subset.trans (by decide) hm | intro _ | with_reducible assumption | dsimp only | with_reducible apply Kept.ite | with_reducible apply State.answer_kept | with_reducible apply State.firstLoaded_kept | with_reducible apply State.imageLost_kept | with_reducible apply State.settleTest_kept | with_reducible apply State.swapVerified_kept | with_reducible apply State.verifyFailed_kept | split | with_reducible refine Kept.pair (by assumption) ?_ | with_reducible refine Kept.triple (by assumption) ?_)

theorem State.dropSwap_kept {ms : List Part} {s₀ s : State} (hm : [.plan] ⊆ ms) (hs : Kept ms s₀ s) (n : Nat) : Kept ms s₀ (State.dropSwap s n) := by
  unfold State.dropSwap
  repeat' first | exact List.Subset.trans (by decide) hm | intro _ | with_reducible assumption | dsimp only | with_reducible apply Kept.ite | with_reducible apply State.loadResult_kept | with_reducible apply State.restoreLstate_kept | with_reducible apply State.set64_kept | fail_if_no_progress ((with_reducible apply Kept.upd) <;> first | with_reducible exact Or.inr rfl | exact Or.inl (hm (by decide)) | with_reducible exact id | exact fun h => Seq.ok_upd h | exact fun _ => Seq.idle_ok | exact fun _ => Seq.ok_upd Seq.idle_ok | with_reducible exact Or.inr ⟨rfl, rfl⟩ | exact Or.inr ⟨rfl, rfl, rfl⟩ | skip)

theorem State.takeSwap_kept {ms : List Part} {s₀ s : State} (hm : [.mem, .wcb, .fault, .plan, .icache, .step, .dev, .regul, .tier, .req, .clock, .drawn] ⊆ ms) (hs : Kept ms s₀ s) (p : Plan) : Kept ms s₀ (State.takeSwap s p) := by
  unfold State.takeSwap
  repeat' first | exact List.Subset.trans (by decide) hm | intro _ | with_reducible assumption | dsimp only | with_reducible apply Kept.ite | with_reducible apply State.dropLosses_kept | with_reducible apply State.dropSwap_kept | with_reducible apply State.installPlan_kept | with_reducible apply State.noteLine_kept | split | with_reducible refine Kept.pair (by assumption) ?_ | with_reducible refine Kept.triple (by assumption) ?_

theorem execSwapTakeEffect_kept {ms : List Part} {s₀ s s' : State} (hm : [.seqRegs, .seq, .mem, .wcb, .fault, .plan, .icache, .step, .exch, .dev, .regul, .tier, .log, .req, .waits, .clock, .drawn, .out] ⊆ ms) (hs : Kept ms s₀ s)  (he : execSwapTakeEffect s = .next s') : Kept ms s₀ s' := by
  unfold execSwapTakeEffect at he
  (try dsimp only at he)
  (repeat' split at he) <;> (try cases he) <;> (repeat' first | exact List.Subset.trans (by decide) hm | intro _ | with_reducible assumption | dsimp only | with_reducible apply Kept.ite | with_reducible apply State.dropPassedSwap_kept | with_reducible apply State.releaseGo_kept | with_reducible apply State.settleTest_kept | with_reducible apply State.takeSwap_kept | split | with_reducible refine Kept.pair (by assumption) ?_ | with_reducible refine Kept.triple (by assumption) ?_)

end Sys2Proof.Machine
end

