-- ==== Sys2Proof/Laws/KeptBank.lean ====
section
/-! SUPPORT. What the functions of Machine/Bank.lean keep. -/

namespace Sys2Proof.Machine

theorem State.extended_kept {ms : List Part} {s₀ s s' : State} (hs : Kept ms s₀ s) (d c : Nat) (k : Nat) (w : BitVec 48) (run : State → State) (hrun : ∀ t, Kept ms s₀ t → Kept ms s₀ (run t)) (he : State.extended s d c k w run = .next s') : Kept ms s₀ s' := by
  unfold State.extended at he
  (try dsimp only at he)
  (repeat' split at he) <;> (try cases he) <;> (repeat' first | intro _ | with_reducible assumption | dsimp only | with_reducible apply Kept.ite | apply hrun)

theorem State.modBsu_kept {ms : List Part} {s₀ s : State} (hm : [.dev] ⊆ ms) (hs : Kept ms s₀ s) (d c k : Nat) (f : Bsu → Bsu) : Kept ms s₀ (State.modBsu s d c k f) := by
  unfold State.modBsu
  repeat' first | exact List.Subset.trans (by decide) hm | with_reducible assumption | dsimp only | with_reducible apply Kept.ite | with_reducible apply State.setBsu_kept

theorem State.refuseX_kept {ms : List Part} {s₀ s : State} (hm : [.dev] ⊆ ms) (hs : Kept ms s₀ s) (d c k : Nat) : Kept ms s₀ (State.refuseX s d c k) := by
  unfold State.refuseX
  repeat' first | exact List.Subset.trans (by decide) hm | intro _ | with_reducible assumption | dsimp only | with_reducible apply Kept.ite | with_reducible apply State.modBsu_kept

theorem State.modSeqOn_kept {ms : List Part} {s₀ s : State} (hm : [.dev] ⊆ ms) (hs : Kept ms s₀ s) (d c k : Nat) (f : SeqFl → SeqFl) : Kept ms s₀ (State.modSeqOn s d c k f) := by
  unfold State.modSeqOn
  repeat' first | exact List.Subset.trans (by decide) hm | intro _ | with_reducible assumption | dsimp only | with_reducible apply Kept.ite | with_reducible apply Seq.ok_upd | exact Seq.idle_ok | exact Or.inr (fun _ => ⟨rfl, rfl, rfl⟩) | exact Or.inl (hm (by decide)) | split | fail_if_no_progress ((with_reducible apply Kept.upd) <;> first | with_reducible exact Or.inr rfl | exact Or.inl (hm (by decide)) | with_reducible exact id | exact fun h => Seq.ok_upd h | exact fun _ => Seq.idle_ok | exact fun _ => Seq.ok_upd Seq.idle_ok | with_reducible exact Or.inr ⟨rfl, rfl⟩ | exact Or.inr ⟨rfl, rfl, rfl⟩ | skip)

theorem State.activate_kept {ms : List Part} {s₀ s : State} (hm : [.wcb, .dev, .clock] ⊆ ms) (hs : Kept ms s₀ s) (d c : Nat) (w : BitVec 48) : Kept ms s₀ (State.activate s d c w) := by
  unfold State.activate
  repeat' first | exact List.Subset.trans (by decide) hm | intro _ | with_reducible assumption | dsimp only | with_reducible apply Kept.ite | with_reducible apply State.advance_kept | with_reducible apply State.flushPair_kept | with_reducible apply State.modBsu_kept | with_reducible apply State.noteStart_kept | with_reducible apply State.refuseX_kept | with_reducible apply State.retire_kept | split | with_reducible refine Kept.pair (by assumption) ?_ | with_reducible refine Kept.triple (by assumption) ?_ | fail_if_no_progress ((with_reducible apply Kept.upd) <;> first | with_reducible exact Or.inr rfl | exact Or.inl (hm (by decide)) | with_reducible exact id | exact fun h => Seq.ok_upd h | exact fun _ => Seq.idle_ok | exact fun _ => Seq.ok_upd Seq.idle_ok | with_reducible exact Or.inr ⟨rfl, rfl⟩ | exact Or.inr ⟨rfl, rfl, rfl⟩ | skip)

theorem execActp_kept {ms : List Part} {s₀ s s' : State} (hm : [.wcb, .dev, .clock] ⊆ ms) (hs : Kept ms s₀ s) (d : BitVec 5) (c : BitVec 2) (w : BitVec 48) (he : execActp d c w s = .next s') : Kept ms s₀ s' := by
  unfold execActp at he
  (try dsimp only at he)
  (repeat' split at he) <;> (try cases he) <;> (repeat' first | exact List.Subset.trans (by decide) hm | intro _ | refine State.extended_kept hs _ _ _ _ _ ?_ he | with_reducible assumption | dsimp only | with_reducible apply Kept.ite | with_reducible apply State.activate_kept)

theorem State.inSeq_kept {ms : List Part} {s₀ s : State} (hm : [.fault, .step, .dev, .regul, .clock] ⊆ ms) (hs : Kept ms s₀ s) (d c : Nat) (w : BitVec 48) (opn src wr linkFails : Nat) (bound : SeqFl → Nat) (run : SeqFl → State → State) (hrun : ∀ a t, Kept ms s₀ t → Kept ms s₀ (run a t)) : Kept ms s₀ (State.inSeq s d c w opn src wr linkFails bound run) := by
  unfold State.inSeq
  repeat' first | exact List.Subset.trans (by decide) hm | intro _ | with_reducible assumption | dsimp only | with_reducible apply Kept.ite | with_reducible apply Seq.ok_upd | exact Seq.idle_ok | exact Or.inr (fun _ => ⟨rfl, rfl, rfl⟩) | exact Or.inl (hm (by decide)) | with_reducible apply State.charge_kept | with_reducible apply State.linkTrouble_kept | with_reducible apply State.modSeqOn_kept | with_reducible apply State.noteStart_kept | apply hrun | with_reducible refine Kept.foldl _ ?_ ?_ | with_reducible refine Kept.foldlSnd _ ?_ ?_ | with_reducible refine Kept.foldlTrd _ ?_ ?_ | with_reducible refine Kept.foldlFst _ ?_ ?_ | split | with_reducible refine Kept.pair (by assumption) ?_ | with_reducible refine Kept.triple (by assumption) ?_

theorem State.onBsu_kept {ms : List Part} {s₀ s : State} (hm : [.fault] ⊆ ms) (hs : Kept ms s₀ s) (l : RowLoc) (run : State → State) (hrun : ∀ t, Kept ms s₀ t → Kept ms s₀ (run t)) : Kept ms s₀ (State.onBsu s l run) := by
  unfold State.onBsu
  repeat' first | exact List.Subset.trans (by decide) hm | intro _ | with_reducible assumption | dsimp only | with_reducible apply Kept.ite | with_reducible apply State.seenByBsu_kept | with_reducible apply State.withRemap_kept | apply hrun

theorem State.returnSector_kept {ms : List Part} {s₀ s : State} (hm : [.out] ⊆ ms) (hs : Kept ms s₀ s) (q : SeqFl) (xs : List LineLoc) : Kept ms s₀ (State.returnSector s q xs) := by
  unfold State.returnSector
  repeat' first | exact List.Subset.trans (by decide) hm | intro _ | with_reducible assumption | dsimp only | with_reducible apply Kept.ite | with_reducible apply State.emit_kept

theorem State.accumulate_kept {ms : List Part} {s₀ s : State} (hm : [.mem, .wcb, .fault, .step, .dev, .regul, .clock, .drawn, .out] ⊆ ms) (hs : Kept ms s₀ s) (q : SeqFl) (w : BitVec 48) (data : List Byte) (residueFaults : Nat) : Kept ms s₀ (State.accumulate s q w data residueFaults) := by
  unfold State.accumulate
  repeat' first | exact List.Subset.trans (by decide) hm | intro _ | with_reducible assumption | dsimp only | with_reducible apply Kept.ite | with_reducible apply State.addLines_kept | with_reducible apply State.charge_kept | with_reducible apply State.countCorr_kept | with_reducible apply State.modBsu_kept | with_reducible apply State.perf_kept | with_reducible apply State.refuseX_kept | with_reducible apply State.returnSector_kept

theorem State.zeroResult_kept {ms : List Part} {s₀ s : State} (hm : [.dev] ⊆ ms) (hs : Kept ms s₀ s) (q : SeqFl) : Kept ms s₀ (State.zeroResult s q) := by
  unfold State.zeroResult
  repeat' first | exact List.Subset.trans (by decide) hm | intro _ | with_reducible assumption | dsimp only | with_reducible apply Kept.ite | with_reducible apply State.modBsu_kept

theorem execAccw_kept {ms : List Part} {s₀ s s' : State} (hm : [.mem, .wcb, .fault, .step, .dev, .regul, .clock, .drawn, .out] ⊆ ms) (hs : Kept ms s₀ s) (d : BitVec 5) (c : BitVec 2) (w : BitVec 48) (data : Linked (List Byte)) (residueFaults : Nat) (he : execAccw d c w data residueFaults s = .next s') : Kept ms s₀ s' := by
  unfold execAccw at he
  refine State.extended_kept hs _ _ _ _ _ (fun t ht => ?_) he
  refine State.inSeq_kept (List.Subset.trans (by decide) hm) ht _ _ _ _ _ _ _ _ _ (fun q u hu => ?_)
  exact State.onBsu_kept (List.Subset.trans (by decide) hm) (State.zeroResult_kept (List.Subset.trans (by decide) hm) hu q) _ _
    (fun v hv => State.accumulate_kept (List.Subset.trans (by decide) hm) hv q w data.val residueFaults)

theorem State.pass__kept {ms : List Part} {s₀ s : State} (hm : [.mem, .wcb, .fault, .dev, .drawn] ⊆ ms) (hs : Kept ms s₀ s) (q : SeqFl) (scan : Bool) (consts row : Line) : Kept ms s₀ (State.pass_ s q scan consts row) := by
  unfold State.pass_
  repeat' first | exact List.Subset.trans (by decide) hm | intro _ | with_reducible assumption | dsimp only | with_reducible apply Kept.ite | with_reducible apply State.bsuPass_kept | with_reducible apply State.perf_kept | with_reducible apply State.refuseX_kept

theorem execCmtr_kept {ms : List Part} {s₀ s s' : State} (hm : [.mem, .wcb, .fault, .step, .dev, .regul, .clock, .drawn] ⊆ ms) (hs : Kept ms s₀ s) (d : BitVec 5) (c : BitVec 2) (w : BitVec 48) (consts row : Line) (linkFails : Nat) (he : execCmtr d c w consts row linkFails s = .next s') : Kept ms s₀ s' := by
  unfold execCmtr at he
  refine State.extended_kept hs _ _ _ _ _ (fun t ht => ?_) he
  refine State.inSeq_kept (List.Subset.trans (by decide) hm) ht _ _ _ _ _ _ _ _ _ (fun q u hu => ?_)
  exact State.pass__kept (List.Subset.trans (by decide) hm) hu q false consts row

theorem execScnr_kept {ms : List Part} {s₀ s s' : State} (hm : [.mem, .wcb, .fault, .step, .dev, .regul, .clock, .drawn] ⊆ ms) (hs : Kept ms s₀ s) (d : BitVec 5) (c : BitVec 2) (w : BitVec 48) (consts row : Line) (linkFails : Nat) (he : execScnr d c w consts row linkFails s = .next s') : Kept ms s₀ s' := by
  unfold execScnr at he
  refine State.extended_kept hs _ _ _ _ _ (fun t ht => ?_) he
  refine State.inSeq_kept (List.Subset.trans (by decide) hm) ht _ _ _ _ _ _ _ _ _ (fun q u hu => ?_)
  exact State.pass__kept (List.Subset.trans (by decide) hm) hu q true consts row

theorem State.atomicX_kept {ms : List Part} {s₀ s : State} (hm : [.mem, .wcb, .fault, .step, .dev, .regul, .clock, .out] ⊆ ms) (hs : Kept ms s₀ s) (q : SeqFl) (w : BitVec 48) (operand : DWord) : Kept ms s₀ (State.atomicX s q w operand) := by
  unfold State.atomicX
  repeat' first | exact List.Subset.trans (by decide) hm | intro _ | with_reducible assumption | dsimp only | with_reducible apply Kept.ite | with_reducible apply State.atomicCore_kept | with_reducible apply State.charge_kept | with_reducible apply State.emit_kept | with_reducible apply State.refuseX_kept | split | with_reducible refine Kept.pair (by assumption) ?_ | with_reducible refine Kept.triple (by assumption) ?_

theorem execAtad_kept {ms : List Part} {s₀ s s' : State} (hm : [.mem, .wcb, .fault, .step, .dev, .regul, .clock, .out] ⊆ ms) (hs : Kept ms s₀ s) (d : BitVec 5) (c : BitVec 2) (w : BitVec 48) (operand : Linked DWord) (he : execAtad d c w operand s = .next s') : Kept ms s₀ s' := by
  unfold execAtad at he
  refine State.extended_kept hs _ _ _ _ _ (fun t ht => ?_) he
  refine State.inSeq_kept (List.Subset.trans (by decide) hm) ht _ _ _ _ _ _ _ _ _ (fun q u hu => ?_)
  exact State.onBsu_kept (List.Subset.trans (by decide) hm) (State.zeroResult_kept (List.Subset.trans (by decide) hm) hu q) _ _
    (fun v hv => State.atomicX_kept (List.Subset.trans (by decide) hm) hv q w operand.val)

theorem State.tableLoad_kept {ms : List Part} {s₀ s : State} (hm : [.dev] ⊆ ms) (hs : Kept ms s₀ s) (q : SeqFl) (w : BitVec 48) (data : List Byte) : Kept ms s₀ (State.tableLoad s q w data) := by
  unfold State.tableLoad
  repeat' first | exact List.Subset.trans (by decide) hm | intro _ | with_reducible assumption | dsimp only | with_reducible apply Kept.ite | with_reducible apply State.modBsu_kept | with_reducible apply State.refuseX_kept | split | with_reducible refine Kept.pair (by assumption) ?_ | with_reducible refine Kept.triple (by assumption) ?_

theorem execTbld_kept {ms : List Part} {s₀ s s' : State} (hm : [.fault, .step, .dev, .regul, .clock] ⊆ ms) (hs : Kept ms s₀ s) (d : BitVec 5) (c : BitVec 2) (w : BitVec 48) (data : Linked (List Byte)) (he : execTbld d c w data s = .next s') : Kept ms s₀ s' := by
  unfold execTbld at he
  refine State.extended_kept hs _ _ _ _ _ (fun t ht => ?_) he
  refine State.inSeq_kept (List.Subset.trans (by decide) hm) ht _ _ _ _ _ _ _ _ _ (fun q u hu => ?_)
  exact State.tableLoad_kept (List.Subset.trans (by decide) hm) (State.zeroResult_kept (List.Subset.trans (by decide) hm) hu q) q w data.val

theorem State.freeLines_kept (n : Nat) {ms : List Part} {s₀ s : State} (hm : [.drawn] ⊆ ms) (hs : Kept ms s₀ s) : Kept ms s₀ (State.freeLines n s).2 := by
  induction n generalizing s with
  | zero => exact hs
  | succ n ih =>
    unfold State.freeLines
    dsimp only
    with_reducible apply ih
    with_reducible apply Kept.foldlSnd
    · exact hs
    · intro q a hq
      exact State.free_kept (List.Subset.trans (by decide) hm) hq

theorem State.testRow_kept {ms : List Part} {s₀ s : State} (hm : [.mem, .wcb, .fault, .drawn] ⊆ ms) (hs : Kept ms s₀ s) (l : RowLoc) : Kept ms s₀ (State.testRow s l) := by
  unfold State.testRow
  repeat' first | exact List.Subset.trans (by decide) hm | with_reducible assumption | dsimp only | with_reducible apply Kept.ite | with_reducible apply State.freeLines_kept | with_reducible apply State.putLines_kept

theorem State.runBist_kept {ms : List Part} {s₀ s : State} (hm : [.mem, .wcb, .fault, .dev, .drawn] ⊆ ms) (hs : Kept ms s₀ s) (d c k row test : Nat) (sig : Word) : Kept ms s₀ (State.runBist s d c k row test sig) := by
  unfold State.runBist
  repeat' first | exact List.Subset.trans (by decide) hm | intro _ | with_reducible assumption | dsimp only | with_reducible apply Kept.ite | with_reducible apply State.modBsu_kept | with_reducible apply State.testRow_kept

theorem execBist_kept {ms : List Part} {s₀ s s' : State} (hm : [.mem, .wcb, .fault, .step, .dev, .regul, .clock, .drawn, .out] ⊆ ms) (hs : Kept ms s₀ s) (d : BitVec 5) (c : BitVec 2) (w : BitVec 48) (sig : Word) (he : execBist d c w sig s = .next s') : Kept ms s₀ s' := by
  unfold execBist at he
  refine State.extended_kept hs _ _ _ _ _ (fun t ht => ?_) he
  refine Kept.ite (State.emit_kept (List.Subset.trans (by decide) hm) (State.charge_kept (List.Subset.trans (by decide) hm) ht _ _ _ _) _) ?_
  refine State.inSeq_kept (List.Subset.trans (by decide) hm) ht _ _ _ _ _ _ _ _ _ (fun q u hu => ?_)
  exact Kept.ite (State.refuseX_kept (List.Subset.trans (by decide) hm) hu _ _ _) (State.runBist_kept (List.Subset.trans (by decide) hm) hu _ _ _ _ _ _)

theorem State.openResult_kept {ms : List Part} {s₀ s : State} (hm : [.drawn] ⊆ ms) (hs : Kept ms s₀ s) (busy : Bool) : Kept ms s₀ (State.openResult s busy).2 := by
  unfold State.openResult
  repeat' first | exact List.Subset.trans (by decide) hm | intro _ | with_reducible assumption | dsimp only | with_reducible apply Kept.ite | with_reducible apply State.free_kept | with_reducible refine Kept.foldl _ ?_ ?_ | with_reducible refine Kept.foldlSnd _ ?_ ?_ | with_reducible refine Kept.foldlTrd _ ?_ ?_ | with_reducible refine Kept.foldlFst _ ?_ ?_ | with_reducible refine Kept.pair (by assumption) ?_ | with_reducible refine Kept.triple (by assumption) ?_

theorem State.strdData_kept {ms : List Part} {s₀ s : State} (hm : [.drawn] ⊆ ms) (hs : Kept ms s₀ s) (d c k sb sel : Nat) : Kept ms s₀ (State.strdData s d c k sb sel).2 := by
  unfold State.strdData
  repeat' first | exact List.Subset.trans (by decide) hm | with_reducible assumption | dsimp only | with_reducible apply Kept.ite | with_reducible apply State.free_kept | with_reducible apply State.openResult_kept | split

theorem State.statusRead_kept {ms : List Part} {s₀ s : State} (hm : [.dev, .regul, .clock, .drawn, .out] ⊆ ms) (hs : Kept ms s₀ s) (d c : Nat) (w : BitVec 48) : Kept ms s₀ (State.statusRead s d c w) := by
  unfold State.statusRead
  repeat' first | exact List.Subset.trans (by decide) hm | intro _ | with_reducible assumption | dsimp only | with_reducible apply Kept.ite | with_reducible apply State.charge_kept | with_reducible apply State.emit_kept | with_reducible apply State.modBsu_kept | with_reducible apply State.refuseX_kept | with_reducible apply State.retire_kept | with_reducible apply State.strdData_kept | split | with_reducible refine Kept.pair (by assumption) ?_ | with_reducible refine Kept.triple (by assumption) ?_

theorem execStrd_kept {ms : List Part} {s₀ s s' : State} (hm : [.dev, .regul, .clock, .drawn, .out] ⊆ ms) (hs : Kept ms s₀ s) (d : BitVec 5) (c : BitVec 2) (w : BitVec 48) (he : execStrd d c w s = .next s') : Kept ms s₀ s' := by
  unfold execStrd at he
  (try dsimp only at he)
  (repeat' split at he) <;> (try cases he) <;> (repeat' first | exact List.Subset.trans (by decide) hm | intro _ | refine State.extended_kept hs _ _ _ _ _ ?_ he | with_reducible assumption | dsimp only | with_reducible apply Kept.ite | with_reducible apply State.statusRead_kept)

theorem execRefreshDue_kept {ms : List Part} {s₀ s s' : State} (hm : [.dev] ⊆ ms) (hs : Kept ms s₀ s) (d : BitVec 5) (c : BitVec 2) (b : BitVec 4) (he : execRefreshDue d c b s = .next s') : Kept ms s₀ s' := by
  unfold execRefreshDue at he
  (try dsimp only at he)
  (repeat' split at he) <;> (try cases he) <;> (repeat' first | exact List.Subset.trans (by decide) hm | with_reducible assumption | dsimp only | with_reducible apply Kept.ite | with_reducible apply State.bump_kept | with_reducible apply State.retire_kept | split | fail_if_no_progress ((with_reducible apply Kept.upd) <;> first | with_reducible exact Or.inr rfl | exact Or.inl (hm (by decide)) | with_reducible exact id | exact fun h => Seq.ok_upd h | exact fun _ => Seq.idle_ok | exact fun _ => Seq.ok_upd Seq.idle_ok | with_reducible exact Or.inr ⟨rfl, rfl⟩ | exact Or.inr ⟨rfl, rfl, rfl⟩ | skip))

theorem State.thermal_kept {ms : List Part} {s₀ s : State} (hs : Kept ms s₀ s) (f : Field) (d : Nat) (t on off : Int) : Kept ms s₀ (State.thermal s f d t on off) := by
  unfold State.thermal
  repeat' first | with_reducible assumption | dsimp only | with_reducible apply Kept.ite | with_reducible apply State.setBit_kept

theorem execTempReading_kept {ms : List Part} {s₀ s s' : State} (hs : Kept ms s₀ s) (d : BitVec 5) (celsius : Byte) (he : execTempReading d celsius s = .next s') : Kept ms s₀ s' := by
  unfold execTempReading at he
  (try dsimp only at he)
  (repeat' split at he) <;> (try cases he) <;> (repeat' first | with_reducible assumption | dsimp only | with_reducible apply Kept.ite | with_reducible apply State.set_kept | with_reducible apply State.thermal_kept)

theorem execChannelRetrain_kept {ms : List Part} {s₀ s s' : State} (hs : Kept ms s₀ s) (_d : BitVec 5) (_c : BitVec 2) (he : execChannelRetrain _d _c s = .next s') : Kept ms s₀ s' := by
  unfold execChannelRetrain at he
  (try dsimp only at he)
  (repeat' split at he) <;> (try cases he) <;> (repeat' first | with_reducible assumption)

theorem execRegulatorWindow_kept {ms : List Part} {s₀ s s' : State} (hm : [.regul, .clock] ⊆ ms) (hs : Kept ms s₀ s)  (he : execRegulatorWindow s = .next s') : Kept ms s₀ s' := by
  unfold execRegulatorWindow at he
  (try dsimp only at he)
  (repeat' split at he) <;> (try cases he) <;> (repeat' first | exact List.Subset.trans (by decide) hm | with_reducible assumption | dsimp only | with_reducible apply Kept.ite | with_reducible apply State.advance_kept | with_reducible apply State.newWindow_kept)

end Sys2Proof.Machine
end

