-- ==== Sys2Proof/Laws/KeptFaults.lean ====
section
/-! SUPPORT. What the functions of Machine/Faults.lean keep. -/

namespace Sys2Proof.Machine

theorem State.scrubLoss_kept {ms : List Part} {s₀ s : State} (hm : [.fault] ⊆ ms) (hs : Kept ms s₀ s) (hs : List Nat) : Kept ms s₀ (State.scrubLoss s hs) := by
  unfold State.scrubLoss
  repeat' first | exact List.Subset.trans (by decide) hm | intro _ | with_reducible assumption | dsimp only | with_reducible apply Kept.ite | with_reducible apply State.holdFor_kept | with_reducible apply State.loseShard_kept | with_reducible refine Kept.foldl _ ?_ ?_

theorem State.scrubBad_kept {ms : List Part} {s₀ s : State} (hm : [.fault] ⊆ ms) (hs : Kept ms s₀ s) (x : LineLoc) (whole : Bool) : Kept ms s₀ (State.scrubBad s x whole) := by
  unfold State.scrubBad
  repeat' first | exact List.Subset.trans (by decide) hm | intro _ | with_reducible assumption | dsimp only | with_reducible apply Kept.ite | with_reducible apply State.holdFor_kept | with_reducible apply State.scrubLoss_kept | split | with_reducible refine Kept.pair (by assumption) ?_ | with_reducible refine Kept.triple (by assumption) ?_

theorem State.scrubLine_kept {ms : List Part} {s₀ s : State} (hm : [.mem, .wcb, .fault, .step, .regul, .clock] ⊆ ms) (hs : Kept ms s₀ s) (x : LineLoc) : Kept ms s₀ (State.scrubLine s x) := by
  unfold State.scrubLine
  repeat' first | exact List.Subset.trans (by decide) hm | with_reducible assumption | dsimp only | with_reducible apply Kept.ite | with_reducible apply State.bump_kept | with_reducible apply State.charge_kept | with_reducible apply State.noteLine_kept | with_reducible apply State.poisonBy_kept | with_reducible apply State.scrubBad_kept | with_reducible apply State.storeLine_kept | split

theorem State.scrubRecord_kept {ms : List Part} {s₀ s : State} (hm : [.mem, .wcb, .fault, .step] ⊆ ms) (hs : Kept ms s₀ s) (l : RowLoc) : Kept ms s₀ (State.scrubRecord s l) := by
  unfold State.scrubRecord
  repeat' first | exact List.Subset.trans (by decide) hm | with_reducible assumption | dsimp only | with_reducible apply Kept.ite | with_reducible apply State.bump_kept | with_reducible apply State.corrected_kept | with_reducible apply State.noteLine_kept | with_reducible apply State.storeLine_kept | split

theorem State.scrubRead_kept {ms : List Part} {s₀ s : State} (hm : [.mem, .wcb, .fault, .step, .regul, .clock] ⊆ ms) (hs : Kept ms s₀ s) (l : RowLoc) : Kept ms s₀ (State.scrubRead s l) := by
  unfold State.scrubRead
  repeat' first | exact List.Subset.trans (by decide) hm | intro _ | with_reducible assumption | dsimp only | with_reducible apply Kept.ite | with_reducible apply State.charge_kept | with_reducible apply State.noteLine_kept | with_reducible apply State.poisonBy_kept | with_reducible apply State.scrubBad_kept | with_reducible apply State.scrubLine_kept | with_reducible apply State.scrubRecord_kept | with_reducible refine Kept.foldl _ ?_ ?_ | with_reducible refine Kept.foldlSnd _ ?_ ?_ | with_reducible refine Kept.foldlTrd _ ?_ ?_ | with_reducible refine Kept.foldlFst _ ?_ ?_ | split

theorem State.setScrub_kept {ms : List Part} {s₀ s : State} (hm : [.fault] ⊆ ms) (hs : Kept ms s₀ s) (d at_ : Nat) : Kept ms s₀ (State.setScrub s d at_) := by
  unfold State.setScrub
  repeat' first | exact List.Subset.trans (by decide) hm | with_reducible assumption | dsimp only | with_reducible apply Kept.ite | with_reducible apply State.set_kept | fail_if_no_progress ((with_reducible apply Kept.upd) <;> first | with_reducible exact Or.inr rfl | exact Or.inl (hm (by decide)) | with_reducible exact id | exact fun h => Seq.ok_upd h | exact fun _ => Seq.idle_ok | exact fun _ => Seq.ok_upd Seq.idle_ok | with_reducible exact Or.inr ⟨rfl, rfl⟩ | exact Or.inr ⟨rfl, rfl, rfl⟩ | skip)

theorem State.scrubEnded_kept {ms : List Part} {s₀ s : State} (hm : [.fault] ⊆ ms) (hs : Kept ms s₀ s) (d : Nat) : Kept ms s₀ (State.scrubEnded s d) := by
  unfold State.scrubEnded
  repeat' first | exact List.Subset.trans (by decide) hm | intro _ | with_reducible assumption | dsimp only | with_reducible apply Kept.ite | with_reducible apply State.set64_kept | split | fail_if_no_progress ((with_reducible apply Kept.upd) <;> first | with_reducible exact Or.inr rfl | exact Or.inl (hm (by decide)) | with_reducible exact id | exact fun h => Seq.ok_upd h | exact fun _ => Seq.idle_ok | exact fun _ => Seq.ok_upd Seq.idle_ok | with_reducible exact Or.inr ⟨rfl, rfl⟩ | exact Or.inr ⟨rfl, rfl, rfl⟩ | skip)

theorem execScrubRow_kept {ms : List Part} {s₀ s s' : State} (hm : [.mem, .wcb, .fault, .step, .dev, .regul, .clock] ⊆ ms) (hs : Kept ms s₀ s) (d : BitVec 5) (he : execScrubRow d s = .next s') : Kept ms s₀ s' := by
  unfold execScrubRow at he
  (try dsimp only at he)
  (repeat' split at he) <;> (try cases he) <;> (repeat' first | exact List.Subset.trans (by decide) hm | intro _ | with_reducible assumption | dsimp only | with_reducible apply Kept.ite | with_reducible apply State.retire_kept | with_reducible apply State.scrubEnded_kept | with_reducible apply State.scrubRead_kept | with_reducible apply State.setScrub_kept | split | fail_if_no_progress ((with_reducible apply Kept.upd) <;> first | with_reducible exact Or.inr rfl | exact Or.inl (hm (by decide)) | with_reducible exact id | exact fun h => Seq.ok_upd h | exact fun _ => Seq.idle_ok | exact fun _ => Seq.ok_upd Seq.idle_ok | with_reducible exact Or.inr ⟨rfl, rfl⟩ | exact Or.inr ⟨rfl, rfl, rfl⟩ | skip))

end Sys2Proof.Machine
end

