-- ==== Sys2Proof/Laws/KeptExport.lean ====
section
/-! SUPPORT. What the functions of Machine/Export.lean keep. -/

namespace Sys2Proof.Machine

theorem State.askX_kept {ms : List Part} {s₀ s : State} (hm : [.req] ⊆ ms) (hs : Kept ms s₀ s) (imp : Bool) : Kept ms s₀ (State.askX s imp) := by
  unfold State.askX
  repeat' first | exact List.Subset.trans (by decide) hm | intro _ | with_reducible assumption | dsimp only | with_reducible apply Kept.ite | with_reducible apply State.modReq_kept

theorem State.writeX_kept {ms : List Part} {s₀ s : State} (hm : [.req] ⊆ ms) (hs : Kept ms s₀ s) (v : Word) : Kept ms s₀ (State.writeX s v) := by
  unfold State.writeX
  repeat' first | exact List.Subset.trans (by decide) hm | intro _ | with_reducible assumption | dsimp only | with_reducible apply Kept.ite | with_reducible apply State.askX_kept | with_reducible apply State.onWrite_kept | with_reducible apply whenBit_kept

theorem execXgo_kept {ms : List Part} {s₀ s s' : State} (hm : [.req] ⊆ ms) (hs : Kept ms s₀ s) (v : Word) (he : execXgo v s = .next s') : Kept ms s₀ s' := by
  unfold execXgo at he
  (try dsimp only at he)
  (repeat' split at he) <;> (try cases he) <;> (repeat' first | exact List.Subset.trans (by decide) hm | with_reducible assumption | dsimp only | with_reducible apply Kept.ite | with_reducible apply State.writeX_kept)

theorem execXimp_kept {ms : List Part} {s₀ s s' : State} (hm : [.req] ⊆ ms) (hs : Kept ms s₀ s) (v : Word) (he : execXimp v s = .next s') : Kept ms s₀ s' := by
  unfold execXimp at he
  (try dsimp only at he)
  (repeat' split at he) <;> (try cases he) <;> (repeat' first | exact List.Subset.trans (by decide) hm | with_reducible assumption | dsimp only | with_reducible apply Kept.ite | with_reducible apply State.writeX_kept)

theorem State.endX_kept {ms : List Part} {s₀ s : State} (hm : [.seqRegs, .seq, .plan, .icache, .step, .tier, .req] ⊆ ms) (hs : Kept ms s₀ s) (code : Nat) : Kept ms s₀ (State.endX s code) := by
  unfold State.endX
  repeat' first | exact List.Subset.trans (by decide) hm | intro _ | with_reducible assumption | dsimp only | with_reducible apply Kept.ite | with_reducible apply State.modReq_kept | with_reducible apply State.modTier_kept | with_reducible apply State.raise_kept | with_reducible apply State.releaseGo_kept | with_reducible apply State.set_kept | with_reducible apply State.setFlag_kept

theorem XAcc.near_kept {ms : List Part} {s₀ : State} {a : XAcc} (hm : [.fault, .step, .dev, .regul, .clock] ⊆ ms) (ha : Kept ms s₀ a.s) (elems r n : Nat) (l : RowLoc) :
    Kept ms s₀ (XAcc.near a elems r n l).s := by
  unfold XAcc.near
  split
  · exact ha
  · dsimp only
    split <;>
    · with_reducible apply Kept.foldlSnd
      · repeat' first | with_reducible assumption | dsimp only | exact (List.Subset.trans (by decide) hm) | with_reducible apply State.chargeReads_kept
      · intro q x hq
        repeat' first | with_reducible assumption | dsimp only | exact (List.Subset.trans (by decide) hm) | with_reducible apply State.fetchLine_kept

theorem State.noteFar_kept {ms : List Part} {s₀ s : State} (hs : Kept ms s₀ s) (cause slot : Nat) : Kept ms s₀ (State.noteFar s cause slot) := by
  unfold State.noteFar
  repeat' first | intro _ | with_reducible assumption | dsimp only | with_reducible apply Kept.ite | with_reducible apply State.log__kept

theorem XAcc.far_kept {ms : List Part} {s₀ : State} {a : XAcc} (ha : Kept ms s₀ a.s) (elems r n slot : Nat) (ps : List FarPiece) :
    Kept ms s₀ (XAcc.far a elems r n slot ps).s := by
  unfold XAcc.far
  split
  · exact ha
  · split
    · exact State.noteFar_kept ha _ _
    · repeat' first | with_reducible assumption | dsimp only | with_reducible apply State.setFlag_kept | with_reducible apply State.bump_kept | split

theorem State.unitRecs_kept {ms : List Part} {s₀ s : State} (hm : [.fault, .step, .dev, .regul, .clock] ⊆ ms) (hs : Kept ms s₀ s) (p : Plan) (us : List Nat) : Kept ms s₀ (State.unitRecs s p us).2 := by
  unfold State.unitRecs
  repeat' first | exact List.Subset.trans (by decide) hm | intro _ | with_reducible assumption | dsimp only | with_reducible apply Kept.ite | with_reducible apply State.readUnit_kept | with_reducible refine Kept.foldl _ ?_ ?_ | with_reducible refine Kept.foldlSnd _ ?_ ?_ | with_reducible refine Kept.foldlTrd _ ?_ ?_ | with_reducible refine Kept.foldlFst _ ?_ ?_ | split | with_reducible refine Kept.pair (by assumption) ?_

theorem State.askFar_kept {ms : List Part} {s₀ s : State} (hm : [.out] ⊆ ms) (hs : Kept ms s₀ s) (slot0 a n : Nat) : Kept ms s₀ (State.askFar s slot0 a n) := by
  unfold State.askFar
  repeat' first | exact List.Subset.trans (by decide) hm | intro _ | with_reducible assumption | dsimp only | with_reducible apply Kept.ite | with_reducible apply State.emit_kept | with_reducible refine Kept.foldl _ ?_ ?_

theorem State.writeFar_kept {ms : List Part} {s₀ s : State} (hm : [.out] ⊆ ms) (hs : Kept ms s₀ s) (slot0 : Nat) (b : List Byte) : Kept ms s₀ (State.writeFar s slot0 b) := by
  unfold State.writeFar
  repeat' first | exact List.Subset.trans (by decide) hm | intro _ | with_reducible assumption | dsimp only | with_reducible apply Kept.ite | with_reducible apply State.emit_kept | with_reducible refine Kept.foldl _ ?_ ?_

theorem State.sendNear_kept {ms : List Part} {s₀ s : State} (hm : [.mem, .wcb, .fault, .step, .dev, .regul, .clock] ⊆ ms) (hs : Kept ms s₀ s) (x : XReq) (o : Nat) (b : List Byte) : Kept ms s₀ (State.sendNear s x o b).2 := by
  unfold State.sendNear
  repeat' first | exact List.Subset.trans (by decide) hm | intro _ | with_reducible assumption | dsimp only | with_reducible apply Kept.ite | with_reducible apply State.chargeWrites_kept | with_reducible apply State.storeBytesOk_kept

theorem State.sendRecord_kept {ms : List Part} {s₀ s : State} (hm : [.mem, .wcb, .fault, .step, .dev, .regul, .req, .clock, .out] ⊆ ms) (hs : Kept ms s₀ s) (x : XReq) (b : List Byte) (dig : DWord) : Kept ms s₀ (State.sendRecord s x b dig).2 := by
  unfold State.sendRecord
  repeat' first | exact List.Subset.trans (by decide) hm | intro _ | with_reducible assumption | dsimp only | with_reducible apply Kept.ite | with_reducible apply State.modX_kept | with_reducible apply State.sendNear_kept | with_reducible apply State.writeFar_kept | with_reducible apply XAcc.far_kept | split | with_reducible refine Kept.pair (by assumption) ?_ | with_reducible refine Kept.triple (by assumption) ?_

theorem State.sendHalted_kept {ms : List Part} {s₀ s : State} (hm : [.mem, .wcb, .fault, .step, .dev, .regul, .clock, .out] ⊆ ms) (hs : Kept ms s₀ s) (x : XReq) (b : List Byte) : Kept ms s₀ (State.sendHalted s x b) := by
  unfold State.sendHalted
  repeat' first | exact List.Subset.trans (by decide) hm | intro _ | with_reducible assumption | dsimp only | with_reducible apply Kept.ite | with_reducible apply State.sendNear_kept | with_reducible apply State.writeFar_kept | with_reducible apply XAcc.far_kept

theorem State.showRecord_kept {ms : List Part} {s₀ s : State} (hs : Kept ms s₀ s) (len : Nat) (dig : DWord) : Kept ms s₀ (State.showRecord s len dig) := by
  unfold State.showRecord
  repeat' first | with_reducible assumption | dsimp only | with_reducible apply Kept.ite | with_reducible apply State.set_kept | with_reducible apply State.set64_kept

theorem State.exportOut_kept (s : State) {ms : List Part} {s₀ : State} (p : Plan) (x : XReq) (h : ShardCfg) (us : List (Nat × UnitRec))
    {rows : XAcc} (hm : [.seqRegs, .seq, .mem, .wcb, .fault, .plan, .icache, .step, .dev, .regul, .tier, .req, .clock, .out] ⊆ ms) (hr : Kept ms s₀ rows.s) : Kept ms s₀ (State.exportOut s p x h us rows) := by
  unfold State.exportOut
  dsimp only
  split
  · exact State.endX_kept (List.Subset.trans (by decide) hm) (State.sendHalted_kept (List.Subset.trans (by decide) hm) hr _ _) _
  · refine Kept.ite (State.endX_kept (List.Subset.trans (by decide) hm) (State.sendRecord_kept (List.Subset.trans (by decide) hm) hr _ _ _) _) (Kept.ite ?_ (State.endX_kept (List.Subset.trans (by decide) hm) ?_ _)) <;>
    · with_reducible apply State.showRecord_kept
      with_reducible apply State.sendRecord_kept
      exacts [(List.Subset.trans (by decide) hm), hr]

theorem State.exportRows_kept {ms : List Part} {s₀ s : State} (hm : [.seqRegs, .seq, .mem, .wcb, .fault, .plan, .icache, .step, .dev, .regul, .tier, .req, .clock, .out] ⊆ ms) (hs : Kept ms s₀ s) (p : Plan) (x : XReq) (h : ShardCfg) (home : Option Nat)
    (ps : List FarPiece) : Kept ms s₀ (State.exportRows s p x h home ps) := by
  have hf : ∀ (l : List Nat) (f : XAcc → Nat → XAcc) (a : XAcc), (∀ a r, Kept ms s₀ a.s → Kept ms s₀ (f a r).s) →
      Kept ms s₀ a.s → Kept ms s₀ (l.foldl f a).s := by
    intro l f
    induction l with
    | nil => exact fun a _ ha => ha
    | cons y t ih => exact fun a h ha => ih _ h (h _ _ ha)
  unfold State.exportRows
  split
  · repeat' first | with_reducible assumption | dsimp only | exact (List.Subset.trans (by decide) hm) | with_reducible apply State.endX_kept | with_reducible refine Kept.pair (by assumption) ?_ | with_reducible apply State.unitRecs_kept
  · next heq =>
    have ht := Kept.pair heq (State.unitRecs_kept (List.Subset.trans (by decide) hm) hs p (p.shardUnits x.shard))
    refine State.exportOut_kept _ _ _ _ _ (List.Subset.trans (by decide) hm) (hf _ _ _ ?_ ht)
    intro a r ha
    split
    · exact XAcc.far_kept ha _ _ _ _ _
    · exact XAcc.near_kept (List.Subset.trans (by decide) hm) ha _ _ _ _

theorem execExportRun_kept {ms : List Part} {s₀ s s' : State} (hm : [.seqRegs, .seq, .mem, .wcb, .fault, .plan, .icache, .step, .dev, .regul, .tier, .req, .clock, .out] ⊆ ms) (hs : Kept ms s₀ s)  (he : execExportRun s = .next s') : Kept ms s₀ s' := by
  unfold execExportRun at he
  (try dsimp only at he)
  (repeat' split at he) <;> (try cases he) <;> (repeat' first | exact List.Subset.trans (by decide) hm | intro _ | with_reducible assumption | dsimp only | with_reducible apply Kept.ite | with_reducible apply State.askFar_kept | with_reducible apply State.endX_kept | with_reducible apply State.exportRows_kept | with_reducible apply State.modTier_kept | with_reducible apply State.modX_kept)

theorem State.importNear_kept {ms : List Part} {s₀ s : State} (hm : [.mem, .wcb, .fault, .step, .dev, .regul, .clock] ⊆ ms) (hs : Kept ms s₀ s) (l : RowLoc) (lines : List (Nat × List Byte)) : Kept ms s₀ (State.importNear s l lines) := by
  unfold State.importNear
  repeat' first | exact List.Subset.trans (by decide) hm | intro _ | with_reducible assumption | dsimp only | with_reducible apply Kept.ite | with_reducible apply State.awaitPair_kept | with_reducible apply State.chargeWrites_kept | with_reducible apply State.putLines_kept

theorem State.importFar_kept {ms : List Part} {s₀ s : State} (hm : [.drawn, .out] ⊆ ms) (hs : Kept ms s₀ s) (slot : Nat) (lines : List (Nat × List Byte)) : Kept ms s₀ (State.importFar s slot lines) := by
  unfold State.importFar
  repeat' first | exact List.Subset.trans (by decide) hm | with_reducible assumption | dsimp only | with_reducible apply Kept.ite | with_reducible apply State.farImage_kept | with_reducible apply State.writeSlotFar_kept

theorem State.importUnit_kept {ms : List Part} {s₀ s : State} (hm : [.mem, .wcb, .fault, .step, .dev, .regul, .clock, .drawn] ⊆ ms) (hs : Kept ms s₀ s) (p : Plan) (cont : Nat) (x : Nat × UnitRec) : Kept ms s₀ (State.importUnit s p cont x) := by
  unfold State.importUnit
  repeat' first | exact List.Subset.trans (by decide) hm | with_reducible assumption | dsimp only | with_reducible apply Kept.ite | with_reducible apply State.free_kept | with_reducible apply State.readUnit_kept | with_reducible apply State.set64_kept | with_reducible apply State.writeUnit_kept | split | with_reducible refine Kept.pair (by assumption) ?_

theorem State.importDone_kept {ms : List Part} {s₀ s : State} (hm : [.seqRegs, .seq, .plan, .icache, .step, .tier, .req] ⊆ ms) (hs : Kept ms s₀ s) (shard : Nat) : Kept ms s₀ (State.importDone s shard) := by
  unfold State.importDone
  repeat' first | exact List.Subset.trans (by decide) hm | with_reducible assumption | dsimp only | with_reducible apply Kept.ite | with_reducible apply State.dropLosses_kept | with_reducible apply State.endX_kept

theorem State.importFailed_kept {ms : List Part} {s₀ s : State} (hm : [.seqRegs, .seq, .fault, .plan, .icache, .step, .tier, .req] ⊆ ms) (hs : Kept ms s₀ s) (shard code : Nat) : Kept ms s₀ (State.importFailed s shard code) := by
  unfold State.importFailed
  repeat' first | exact List.Subset.trans (by decide) hm | with_reducible assumption | dsimp only | with_reducible apply Kept.ite | with_reducible apply State.endX_kept | with_reducible apply State.loseShard_kept

theorem State.importWrite_kept {ms : List Part} {s₀ s : State} (hm : [.seqRegs, .seq, .mem, .wcb, .fault, .plan, .icache, .step, .dev, .regul, .tier, .req, .clock, .drawn, .out] ⊆ ms) (hs : Kept ms s₀ s) (p : Plan) (b : List Byte) : Kept ms s₀ (State.importWrite s p b) := by
  unfold State.importWrite
  repeat' first | exact List.Subset.trans (by decide) hm | intro _ | with_reducible assumption | dsimp only | with_reducible apply Kept.ite | with_reducible apply State.endX_kept | with_reducible apply State.importDone_kept | with_reducible apply State.importFar_kept | with_reducible apply State.importNear_kept | with_reducible apply State.importUnit_kept | with_reducible apply State.modX_kept | with_reducible refine Kept.foldl _ ?_ ?_ | with_reducible refine Kept.foldlSnd _ ?_ ?_ | with_reducible refine Kept.foldlTrd _ ?_ ?_ | with_reducible refine Kept.foldlFst _ ?_ ?_ | split

theorem State.importChecked_kept {ms : List Part} {s₀ s : State} (hm : [.seqRegs, .seq, .mem, .wcb, .fault, .plan, .icache, .step, .dev, .regul, .tier, .req, .clock, .drawn, .out] ⊆ ms) (hs : Kept ms s₀ s) (p : Plan) (x : XReq) (b : List Byte) : Kept ms s₀ (State.importChecked s p x b) := by
  unfold State.importChecked
  repeat' first | exact List.Subset.trans (by decide) hm | intro _ | with_reducible assumption | dsimp only | with_reducible apply Kept.ite | with_reducible apply State.askFar_kept | with_reducible apply State.endX_kept | with_reducible apply State.importWrite_kept | with_reducible apply State.modTier_kept | with_reducible apply State.modX_kept | split

theorem State.importNearRecord_kept {ms : List Part} {s₀ s : State} (hm : [.seqRegs, .seq, .mem, .wcb, .fault, .plan, .icache, .step, .dev, .regul, .tier, .req, .clock, .drawn, .out] ⊆ ms) (hs : Kept ms s₀ s) (p : Plan) (x : XReq) : Kept ms s₀ (State.importNearRecord s p x) := by
  unfold State.importNearRecord
  repeat' first | exact List.Subset.trans (by decide) hm | with_reducible assumption | dsimp only | with_reducible apply Kept.ite | with_reducible apply State.chargeReads_kept | with_reducible apply State.endX_kept | with_reducible apply State.fetchBytes_kept | with_reducible apply State.importChecked_kept

theorem State.importFarRecord_kept {ms : List Part} {s₀ s : State} (hm : [.seqRegs, .seq, .mem, .wcb, .fault, .plan, .icache, .step, .dev, .regul, .tier, .req, .clock, .drawn, .out] ⊆ ms) (hs : Kept ms s₀ s) (p : Plan) (x : XReq) (ps : List FarPiece) : Kept ms s₀ (State.importFarRecord s p x ps) := by
  unfold State.importFarRecord
  repeat' first | exact List.Subset.trans (by decide) hm | intro _ | with_reducible assumption | dsimp only | with_reducible apply Kept.ite | with_reducible apply State.askFar_kept | with_reducible apply State.endX_kept | with_reducible apply State.importChecked_kept | with_reducible apply State.modX_kept | with_reducible apply State.noteFar_kept | with_reducible apply State.poison_kept

theorem execImportRun_kept {ms : List Part} {s₀ s s' : State} (hm : [.seqRegs, .seq, .mem, .wcb, .fault, .plan, .icache, .step, .dev, .regul, .tier, .req, .clock, .drawn, .out] ⊆ ms) (hs : Kept ms s₀ s)  (he : execImportRun s = .next s') : Kept ms s₀ s' := by
  unfold execImportRun at he
  (try dsimp only at he)
  (repeat' split at he) <;> (try cases he) <;> (repeat' first | exact List.Subset.trans (by decide) hm | intro _ | with_reducible assumption | dsimp only | with_reducible apply Kept.ite | with_reducible apply State.askFar_kept | with_reducible apply State.endX_kept | with_reducible apply State.importDone_kept | with_reducible apply State.importFailed_kept | with_reducible apply State.importFarRecord_kept | with_reducible apply State.importNearRecord_kept | with_reducible apply State.importWrite_kept | with_reducible apply State.modTier_kept | with_reducible apply State.modX_kept | with_reducible apply State.noteFar_kept | with_reducible apply State.poison_kept | with_reducible apply XAcc.far_kept | split | with_reducible refine Kept.pair (by assumption) ?_ | with_reducible refine Kept.triple (by assumption) ?_)

theorem State.askReplay_kept {ms : List Part} {s₀ s : State} (hm : [.req] ⊆ ms) (hs : Kept ms s₀ s)  : Kept ms s₀ (State.askReplay s) := by
  unfold State.askReplay
  repeat' first | exact List.Subset.trans (by decide) hm | intro _ | with_reducible assumption | dsimp only | with_reducible apply Kept.ite | with_reducible apply State.modReq_kept

theorem execRgo_kept {ms : List Part} {s₀ s s' : State} (hm : [.req] ⊆ ms) (hs : Kept ms s₀ s) (v : Word) (he : execRgo v s = .next s') : Kept ms s₀ s' := by
  unfold execRgo at he
  (try dsimp only at he)
  (repeat' split at he) <;> (try cases he) <;> (repeat' first | exact List.Subset.trans (by decide) hm | intro _ | with_reducible assumption | dsimp only | with_reducible apply Kept.ite | with_reducible apply State.askReplay_kept | with_reducible apply State.onWrite_kept | with_reducible apply whenBit_kept)

theorem State.endReplay_kept {ms : List Part} {s₀ s : State} (hm : [.seqRegs, .seq, .plan, .icache, .step, .tier, .req] ⊆ ms) (hs : Kept ms s₀ s) (code : Nat) : Kept ms s₀ (State.endReplay s code) := by
  unfold State.endReplay
  repeat' first | exact List.Subset.trans (by decide) hm | intro _ | with_reducible assumption | dsimp only | with_reducible apply Kept.ite | with_reducible apply State.modReq_kept | with_reducible apply State.raise_kept | with_reducible apply State.releaseGo_kept | with_reducible apply State.set_kept | with_reducible apply State.setFlag_kept

theorem State.unitRun_kept {ms : List Part} {s₀ s : State} (hm : [.fault, .step, .dev, .regul, .clock] ⊆ ms) (hs : Kept ms s₀ s) (e : RegionWords) (u a b : Nat) : Kept ms s₀ (State.unitRun s e u a b).2 := by
  unfold State.unitRun
  repeat' first | exact List.Subset.trans (by decide) hm | intro _ | with_reducible assumption | dsimp only | with_reducible apply Kept.ite | with_reducible apply State.chargeReads_kept | with_reducible apply State.fetchLine_kept | with_reducible refine Kept.foldl _ ?_ ?_ | with_reducible refine Kept.foldlSnd _ ?_ ?_

theorem State.putReplay_kept {ms : List Part} {s₀ s : State} (hm : [.mem, .wcb, .fault, .step, .dev, .regul, .clock] ⊆ ms) (hs : Kept ms s₀ s) (l : RowLoc) (lines : List (List Byte)) : Kept ms s₀ (State.putReplay s l lines) := by
  unfold State.putReplay
  repeat' first | exact List.Subset.trans (by decide) hm | intro _ | with_reducible assumption | dsimp only | with_reducible apply Kept.ite | with_reducible apply State.awaitPair_kept | with_reducible apply State.chargeWrites_kept | with_reducible apply State.putLines_kept

theorem State.replayPass_kept {ms : List Part} {s₀ s : State} (hm : [.mem, .wcb, .fault, .step, .dev, .regul, .clock, .drawn] ⊆ ms) (hs : Kept ms s₀ s) (p : Plan) (x : RReq) (consts : Line) (r : PassRow) : Kept ms s₀ (State.replayPass s p x consts r).2 := by
  unfold State.replayPass
  repeat' first | exact List.Subset.trans (by decide) hm | intro _ | with_reducible assumption | dsimp only | with_reducible apply Kept.ite | with_reducible apply State.advance_kept | with_reducible apply State.bsuPass_kept | with_reducible apply State.openSeq_kept | with_reducible apply State.retire_kept | with_reducible apply State.runPass_kept | split

theorem State.replayMiss_kept {ms : List Part} {s₀ s : State} (hs : Kept ms s₀ s) (k : Nat) (miss : Bool) : Kept ms s₀ (State.replayMiss s k miss) := by
  unfold State.replayMiss
  repeat' first | with_reducible assumption | dsimp only | with_reducible apply Kept.ite | with_reducible apply State.bump_kept | with_reducible apply State.set_kept

theorem State.replayRecord_kept {ms : List Part} {s₀ s : State} (hm : [.mem, .wcb, .fault, .step, .dev, .regul, .clock, .drawn] ⊆ ms) (hs : Kept ms s₀ s) (p : Plan) (x : RReq) (k : Nat) (st un : List (List Byte)) : Kept ms s₀ (State.replayRecord s p x k st un).2 := by
  unfold State.replayRecord
  repeat' first | exact List.Subset.trans (by decide) hm | intro _ | with_reducible assumption | dsimp only | with_reducible apply Kept.ite | with_reducible apply State.putReplay_kept | with_reducible apply State.replayMiss_kept | with_reducible apply State.replayPass_kept | split | with_reducible refine Kept.pair (by assumption) ?_ | with_reducible refine Kept.triple (by assumption) ?_

theorem State.replayOne_kept {ms : List Part} {s₀ s : State} (hm : [.mem, .wcb, .fault, .step, .dev, .regul, .clock, .drawn] ⊆ ms) (hs : Kept ms s₀ s) (p : Plan) (x : RReq) (k : Nat) : Kept ms s₀ (State.replayOne s p x k).2 := by
  unfold State.replayOne
  repeat' first | exact List.Subset.trans (by decide) hm | with_reducible assumption | dsimp only | with_reducible apply Kept.ite | with_reducible apply State.bump_kept | with_reducible apply State.replayRecord_kept | with_reducible apply State.unitRun_kept | split | with_reducible refine Kept.pair (by assumption) ?_

theorem execReplayRun_kept {ms : List Part} {s₀ s s' : State} (hm : [.seqRegs, .seq, .mem, .wcb, .fault, .plan, .icache, .step, .dev, .regul, .tier, .req, .clock, .drawn] ⊆ ms) (hs : Kept ms s₀ s)  (he : execReplayRun s = .next s') : Kept ms s₀ s' := by
  unfold execReplayRun at he
  (try dsimp only at he)
  (repeat' split at he) <;> (try cases he) <;> (repeat' first | exact List.Subset.trans (by decide) hm | intro _ | with_reducible assumption | dsimp only | with_reducible apply Kept.ite | with_reducible apply State.endReplay_kept | with_reducible apply State.replayOne_kept | with_reducible apply State.set_kept | with_reducible refine Kept.foldl _ ?_ ?_ | with_reducible refine Kept.foldlSnd _ ?_ ?_ | with_reducible refine Kept.foldlTrd _ ?_ ?_ | with_reducible refine Kept.foldlFst _ ?_ ?_ | split | with_reducible refine Kept.pair (by assumption) ?_ | with_reducible refine Kept.triple (by assumption) ?_)

end Sys2Proof.Machine
end

