-- ==== Sys2Proof/Laws/KeptSelfTest.lean ====
section
/-! SUPPORT. What the functions of Machine/SelfTest.lean keep. -/

namespace Sys2Proof.Machine

theorem State.beginTest_kept {ms : List Part} {s₀ s : State} (hm : [.icache, .dev] ⊆ ms) (hs : Kept ms s₀ s) (r : StReq) : Kept ms s₀ (State.beginTest s r) := by
  unfold State.beginTest
  repeat' first | exact List.Subset.trans (by decide) hm | intro _ | with_reducible assumption | dsimp only | with_reducible apply Kept.ite | with_reducible apply State.modBsu_kept | with_reducible apply State.setFlag_kept | with_reducible refine Kept.foldl _ ?_ ?_ | with_reducible refine Kept.foldlSnd _ ?_ ?_ | with_reducible refine Kept.foldlTrd _ ?_ ?_ | with_reducible refine Kept.foldlFst _ ?_ ?_ | split | with_reducible refine Kept.pair (by assumption) ?_ | with_reducible refine Kept.triple (by assumption) ?_ | fail_if_no_progress ((with_reducible apply Kept.upd) <;> first | with_reducible exact Or.inr rfl | exact Or.inl (hm (by decide)) | with_reducible exact id | exact fun h => Seq.ok_upd h | exact fun _ => Seq.idle_ok | exact fun _ => Seq.ok_upd Seq.idle_ok | with_reducible exact Or.inr ⟨rfl, rfl⟩ | exact Or.inr ⟨rfl, rfl, rfl⟩ | skip)

theorem State.takeTest_kept {ms : List Part} {s₀ s : State} (hm : [.seqRegs, .seq, .mem, .wcb, .fault, .plan, .icache, .step, .exch, .dev, .regul, .tier, .log, .req, .waits, .clock, .drawn, .out] ⊆ ms) (hs : Kept ms s₀ s) (r : StReq) : Kept ms s₀ (State.takeTest s r) := by
  unfold State.takeTest
  repeat' first | exact List.Subset.trans (by decide) hm | intro _ | with_reducible assumption | dsimp only | with_reducible apply Kept.ite | with_reducible apply State.beginTest_kept | with_reducible apply State.endTest_kept | with_reducible apply State.modReq_kept | split

theorem State.askTest_kept {ms : List Part} {s₀ s : State} (hm : [.seqRegs, .seq, .mem, .wcb, .fault, .plan, .icache, .step, .exch, .dev, .regul, .tier, .log, .req, .waits, .clock, .drawn, .out] ⊆ ms) (hs : Kept ms s₀ s)  : Kept ms s₀ (State.askTest s) := by
  unfold State.askTest
  repeat' first | exact List.Subset.trans (by decide) hm | intro _ | with_reducible assumption | dsimp only | with_reducible apply Kept.ite | with_reducible apply State.modReq_kept | with_reducible apply State.set_kept | with_reducible apply State.takeTest_kept

theorem execStGo_kept {ms : List Part} {s₀ s s' : State} (hm : [.seqRegs, .seq, .mem, .wcb, .fault, .plan, .icache, .step, .exch, .dev, .regul, .tier, .log, .req, .waits, .clock, .drawn, .out] ⊆ ms) (hs : Kept ms s₀ s) (v : Word) (he : execStGo v s = .next s') : Kept ms s₀ s' := by
  unfold execStGo at he
  (try dsimp only at he)
  (repeat' split at he) <;> (try cases he) <;> (repeat' first | exact List.Subset.trans (by decide) hm | intro _ | with_reducible assumption | dsimp only | with_reducible apply Kept.ite | with_reducible apply State.askTest_kept | with_reducible apply State.onWrite_kept | with_reducible apply whenBit_kept)

theorem execSelfTestStart_kept {ms : List Part} {s₀ s s' : State} (hm : [.seqRegs, .seq, .mem, .wcb, .fault, .plan, .icache, .step, .exch, .dev, .regul, .tier, .log, .req, .waits, .clock, .drawn, .out] ⊆ ms) (hs : Kept ms s₀ s)  (he : execSelfTestStart s = .next s') : Kept ms s₀ s' := by
  unfold execSelfTestStart at he
  (try dsimp only at he)
  (repeat' split at he) <;> (try cases he) <;> (repeat' first | exact List.Subset.trans (by decide) hm | with_reducible assumption | dsimp only | with_reducible apply Kept.ite | with_reducible apply State.takeTest_kept)

theorem State.bistSeq_kept {ms : List Part} {s₀ s : State} (hm : [.mem, .wcb, .fault, .step, .dev, .regul, .clock, .drawn] ⊆ ms) (hs : Kept ms s₀ s) (r : StReq) (test i : Nat) (sig : Word) : Kept ms s₀ (State.bistSeq s r test i sig) := by
  unfold State.bistSeq
  repeat' first | exact List.Subset.trans (by decide) hm | intro _ | with_reducible assumption | dsimp only | with_reducible apply Kept.ite | with_reducible apply State.charge_kept | with_reducible apply State.openSeq_kept | with_reducible apply State.runBist_kept | split | with_reducible refine Kept.pair (by assumption) ?_ | with_reducible refine Kept.triple (by assumption) ?_

theorem State.bistAll_kept {ms : List Part} {s₀ s : State} (hm : [.mem, .wcb, .fault, .step, .dev, .regul, .clock, .drawn] ⊆ ms) (hs : Kept ms s₀ s) (r : StReq) (sigs : List Word) : Kept ms s₀ (State.bistAll s r sigs) := by
  unfold State.bistAll
  repeat' first | exact List.Subset.trans (by decide) hm | intro _ | with_reducible assumption | dsimp only | with_reducible apply Kept.ite | with_reducible apply State.bistSeq_kept | with_reducible refine Kept.foldl _ ?_ ?_ | with_reducible refine Kept.foldlSnd _ ?_ ?_ | with_reducible refine Kept.foldlTrd _ ?_ ?_ | with_reducible refine Kept.foldlFst _ ?_ ?_

theorem State.leaveTest_kept {ms : List Part} {s₀ s : State} (hm : [.mem, .wcb, .fault, .icache, .step, .dev, .regul, .clock, .drawn] ⊆ ms) (hs : Kept ms s₀ s) (r : StReq) (sigs : List Word) (pass : Bool) : Kept ms s₀ (State.leaveTest s r sigs pass) := by
  unfold State.leaveTest
  repeat' first | exact List.Subset.trans (by decide) hm | intro _ | with_reducible assumption | dsimp only | with_reducible apply Kept.ite | with_reducible apply State.bistAll_kept | with_reducible apply State.dropTestPower_kept | with_reducible apply State.pass_kept | with_reducible apply State.reloadTables_kept | with_reducible apply State.setBit_kept | split | with_reducible refine Kept.pair (by assumption) ?_ | with_reducible refine Kept.triple (by assumption) ?_ | fail_if_no_progress ((with_reducible apply Kept.upd) <;> first | with_reducible exact Or.inr rfl | exact Or.inl (hm (by decide)) | with_reducible exact id | exact fun h => Seq.ok_upd h | exact fun _ => Seq.idle_ok | exact fun _ => Seq.ok_upd Seq.idle_ok | with_reducible exact Or.inr ⟨rfl, rfl⟩ | exact Or.inr ⟨rfl, rfl, rfl⟩ | skip)

theorem execSelfTestDone_kept {ms : List Part} {s₀ s s' : State} (hm : [.seqRegs, .seq, .mem, .wcb, .fault, .plan, .icache, .step, .exch, .dev, .regul, .tier, .log, .req, .waits, .clock, .drawn, .out] ⊆ ms) (hs : Kept ms s₀ s) (sigs : List Word) (he : execSelfTestDone sigs s = .next s') : Kept ms s₀ s' := by
  unfold execSelfTestDone at he
  (try dsimp only at he)
  (repeat' split at he) <;> (try cases he) <;> (repeat' first | exact List.Subset.trans (by decide) hm | intro _ | with_reducible assumption | dsimp only | with_reducible apply Kept.ite | with_reducible apply State.bump_kept | with_reducible apply State.endTest_kept | with_reducible apply State.leaveTest_kept | with_reducible apply State.set_kept | split | with_reducible refine Kept.pair (by assumption) ?_ | with_reducible refine Kept.triple (by assumption) ?_)

end Sys2Proof.Machine
end

