-- ==== Sys2Proof/Laws/KeptPower.lean ====
section
/-! SUPPORT. What the functions of Machine/Power.lean keep. -/

namespace Sys2Proof.Machine

theorem State.endSession_kept {ms : List Part} {s₀ s : State} (hs : Kept ms s₀ s)  : Kept ms s₀ (State.endSession s) := by
  unfold State.endSession
  repeat' first | with_reducible assumption | dsimp only | with_reducible apply Kept.ite | with_reducible apply State.raise_kept | with_reducible apply State.set_kept | with_reducible apply State.setFlag_kept

theorem State.dropRaise_kept {ms : List Part} {s₀ s : State} (hm : [.req, .out] ⊆ ms) (hs : Kept ms s₀ s)  : Kept ms s₀ (State.dropRaise s) := by
  unfold State.dropRaise
  repeat' first | exact List.Subset.trans (by decide) hm | with_reducible assumption | dsimp only | with_reducible apply Kept.ite | with_reducible apply State.rotDrop_kept | with_reducible apply State.setFlag_kept

theorem State.raiseDebug_kept {ms : List Part} {s₀ s : State} (hm : [.req, .out] ⊆ ms) (hs : Kept ms s₀ s) (l : Nat) : Kept ms s₀ (State.raiseDebug s l) := by
  unfold State.raiseDebug
  repeat' first | exact List.Subset.trans (by decide) hm | with_reducible assumption | dsimp only | with_reducible apply Kept.ite | with_reducible apply State.rotAsk_kept | with_reducible apply State.set_kept | with_reducible apply State.setFlag_kept | split

theorem State.askDebug_kept {ms : List Part} {s₀ s : State} (hm : [.req, .out] ⊆ ms) (hs : Kept ms s₀ s)  : Kept ms s₀ (State.askDebug s) := by
  unfold State.askDebug
  repeat' first | exact List.Subset.trans (by decide) hm | intro _ | with_reducible assumption | dsimp only | with_reducible apply Kept.ite | with_reducible apply State.dropRaise_kept | with_reducible apply State.endSession_kept | with_reducible apply State.raiseDebug_kept | with_reducible apply State.setFlag_kept | with_reducible apply State.set_kept

theorem State.writeDebugControl_kept {ms : List Part} {s₀ s : State} (hm : [.req, .out] ⊆ ms) (hs : Kept ms s₀ s) (v : Word) : Kept ms s₀ (State.writeDebugControl s v) := by
  unfold State.writeDebugControl
  repeat' first | exact List.Subset.trans (by decide) hm | intro _ | with_reducible assumption | dsimp only | with_reducible apply Kept.ite | with_reducible apply State.askDebug_kept | with_reducible apply State.onWrite_kept

theorem execDbgReq_kept {ms : List Part} {s₀ s s' : State} (hm : [.req, .out] ⊆ ms) (hs : Kept ms s₀ s) (v : Word) (he : execDbgReq v s = .next s') : Kept ms s₀ s' := by
  unfold execDbgReq at he
  (try dsimp only at he)
  (repeat' split at he) <;> (try cases he) <;> (repeat' first | exact List.Subset.trans (by decide) hm | with_reducible assumption | dsimp only | with_reducible apply Kept.ite | with_reducible apply State.writeDebugControl_kept)

theorem State.askPower_kept {ms : List Part} {s₀ s : State} (hm : [.req] ⊆ ms) (hs : Kept ms s₀ s)  : Kept ms s₀ (State.askPower s) := by
  unfold State.askPower
  repeat' first | exact List.Subset.trans (by decide) hm | intro _ | with_reducible assumption | dsimp only | with_reducible apply Kept.ite | with_reducible apply State.modReq_kept | with_reducible apply State.raise_kept | with_reducible apply State.set_kept | with_reducible apply State.setFlag_kept | split

theorem State.writePower_kept {ms : List Part} {s₀ s : State} (hm : [.seqRegs, .seq, .plan, .icache, .step, .tier, .req] ⊆ ms) (hs : Kept ms s₀ s) (v : Word) : Kept ms s₀ (State.writePower s v) := by
  unfold State.writePower
  repeat' first | exact List.Subset.trans (by decide) hm | intro _ | with_reducible assumption | dsimp only | with_reducible apply Kept.ite | with_reducible apply State.askPower_kept | with_reducible apply State.onWrite_kept | with_reducible apply State.releaseGo_kept

theorem execPwrReq_kept {ms : List Part} {s₀ s s' : State} (hm : [.seqRegs, .seq, .plan, .icache, .step, .tier, .req] ⊆ ms) (hs : Kept ms s₀ s) (v : Word) (he : execPwrReq v s = .next s') : Kept ms s₀ s' := by
  unfold execPwrReq at he
  (try dsimp only at he)
  (repeat' split at he) <;> (try cases he) <;> (repeat' first | exact List.Subset.trans (by decide) hm | with_reducible assumption | dsimp only | with_reducible apply Kept.ite | with_reducible apply State.writePower_kept)

theorem State.endPower_kept {ms : List Part} {s₀ s : State} (hm : [.seqRegs, .seq, .plan, .icache, .step, .tier, .req] ⊆ ms) (hs : Kept ms s₀ s)  : Kept ms s₀ (State.endPower s) := by
  unfold State.endPower
  repeat' first | exact List.Subset.trans (by decide) hm | intro _ | with_reducible assumption | dsimp only | with_reducible apply Kept.ite | with_reducible apply State.modReq_kept | with_reducible apply State.raise_kept | with_reducible apply State.releaseGo_kept

theorem execIdleEntry_kept {ms : List Part} {s₀ s s' : State} (hm : [.seqRegs, .seq, .plan, .icache, .step, .tier, .req] ⊆ ms) (hs : Kept ms s₀ s)  (he : execIdleEntry s = .next s') : Kept ms s₀ s' := by
  unfold execIdleEntry at he
  (try dsimp only at he)
  (repeat' split at he) <;> (try cases he) <;> (repeat' first | exact List.Subset.trans (by decide) hm | intro _ | with_reducible assumption | dsimp only | with_reducible apply Kept.ite | with_reducible apply State.endPower_kept | with_reducible apply State.set_kept | with_reducible apply State.setFlag_kept)

theorem State.portsDown_kept {ms : List Part} {s₀ s : State} (hm : [.pins] ⊆ ms) (hs : Kept ms s₀ s)  : Kept ms s₀ (State.portsDown s) := by
  unfold State.portsDown
  repeat' first | exact List.Subset.trans (by decide) hm | with_reducible assumption | dsimp only | with_reducible apply Kept.ite | fail_if_no_progress ((with_reducible apply Kept.upd) <;> first | with_reducible exact Or.inr rfl | exact Or.inl (hm (by decide)) | with_reducible exact id | exact fun h => Seq.ok_upd h | exact fun _ => Seq.idle_ok | exact fun _ => Seq.ok_upd Seq.idle_ok | with_reducible exact Or.inr ⟨rfl, rfl⟩ | exact Or.inr ⟨rfl, rfl, rfl⟩ | skip)

theorem State.portsUp_kept {ms : List Part} {s₀ s : State} (hm : [.pins] ⊆ ms) (hs : Kept ms s₀ s)  : Kept ms s₀ (State.portsUp s) := by
  unfold State.portsUp
  repeat' first | exact List.Subset.trans (by decide) hm | with_reducible assumption | dsimp only | with_reducible apply Kept.ite | fail_if_no_progress ((with_reducible apply Kept.upd) <;> first | with_reducible exact Or.inr rfl | exact Or.inl (hm (by decide)) | with_reducible exact id | exact fun h => Seq.ok_upd h | exact fun _ => Seq.idle_ok | exact fun _ => Seq.ok_upd Seq.idle_ok | with_reducible exact Or.inr ⟨rfl, rfl⟩ | exact Or.inr ⟨rfl, rfl, rfl⟩ | skip)

theorem State.dropLatches_kept {ms : List Part} {s₀ s : State} (hm : [.latch] ⊆ ms) (hs : Kept ms s₀ s)  : Kept ms s₀ (State.dropLatches s) := by
  unfold State.dropLatches
  repeat' first | exact List.Subset.trans (by decide) hm | intro _ | with_reducible assumption | dsimp only | with_reducible apply Kept.ite | fail_if_no_progress ((with_reducible apply Kept.upd) <;> first | with_reducible exact Or.inr rfl | exact Or.inl (hm (by decide)) | with_reducible exact id | exact fun h => Seq.ok_upd h | exact fun _ => Seq.idle_ok | exact fun _ => Seq.ok_upd Seq.idle_ok | with_reducible exact Or.inr ⟨rfl, rfl⟩ | exact Or.inr ⟨rfl, rfl, rfl⟩ | skip)

theorem State.enterHarebell_kept {ms : List Part} {s₀ s : State} (hm : [.wcb, .plan, .step, .req, .pins, .keeper, .latch] ⊆ ms) (hs : Kept ms s₀ s)  : Kept ms s₀ (State.enterHarebell s) := by
  unfold State.enterHarebell
  repeat' first | exact List.Subset.trans (by decide) hm | intro _ | with_reducible assumption | dsimp only | with_reducible apply Kept.ite | with_reducible apply State.dropLatches_kept | with_reducible apply State.endSession_kept | with_reducible apply State.flushAll_kept | with_reducible apply State.modReq_kept | with_reducible apply State.modStep_kept | with_reducible apply State.portsDown_kept | with_reducible apply State.raise_kept | with_reducible apply State.rotClear_kept | with_reducible apply State.setFlag_kept | with_reducible apply State.set_kept | fail_if_no_progress ((with_reducible apply Kept.upd) <;> first | with_reducible exact Or.inr rfl | exact Or.inl (hm (by decide)) | with_reducible exact id | exact fun h => Seq.ok_upd h | exact fun _ => Seq.idle_ok | exact fun _ => Seq.ok_upd Seq.idle_ok | with_reducible exact Or.inr ⟨rfl, rfl⟩ | exact Or.inr ⟨rfl, rfl, rfl⟩ | skip)

theorem execHarebellEntry_kept {ms : List Part} {s₀ s s' : State} (hm : [.seqRegs, .seq, .wcb, .plan, .icache, .step, .tier, .req, .pins, .keeper, .latch] ⊆ ms) (hs : Kept ms s₀ s)  (he : execHarebellEntry s = .next s') : Kept ms s₀ s' := by
  unfold execHarebellEntry at he
  (try dsimp only at he)
  (repeat' split at he) <;> (try cases he) <;> (repeat' first | exact List.Subset.trans (by decide) hm | with_reducible assumption | dsimp only | with_reducible apply Kept.ite | with_reducible apply State.endPower_kept | with_reducible apply State.enterHarebell_kept | with_reducible apply State.set_kept | with_reducible apply State.setFlag_kept)

theorem execHbTempSample_kept {ms : List Part} {s₀ s s' : State} (hs : Kept ms s₀ s) (celsius : Byte) (he : execHbTempSample celsius s = .next s') : Kept ms s₀ s' := by
  unfold execHbTempSample at he
  (try dsimp only at he)
  (repeat' split at he) <;> (try cases he) <;> (repeat' first | with_reducible assumption | dsimp only | with_reducible apply Kept.ite | with_reducible apply State.raise_kept | with_reducible apply State.setFlag_kept)

theorem State.unloadPlan_kept {ms : List Part} {s₀ s : State} (hm : [.seqRegs, .seq, .plan, .icache, .step, .exch, .tier, .yarrow, .waits] ⊆ ms) (hs : Kept ms s₀ s)  : Kept ms s₀ (State.unloadPlan s) := by
  unfold State.unloadPlan
  repeat' first | exact List.Subset.trans (by decide) hm | intro _ | with_reducible assumption | dsimp only | with_reducible apply Kept.ite | with_reducible apply Seq.ok_upd | exact Seq.idle_ok | exact Or.inr (fun _ => ⟨rfl, rfl, rfl⟩) | exact Or.inl (hm (by decide)) | with_reducible apply State.set64_kept | with_reducible apply State.setFlag_kept | with_reducible apply State.set_kept | fail_if_no_progress ((with_reducible apply Kept.upd) <;> first | with_reducible exact Or.inr rfl | exact Or.inl (hm (by decide)) | with_reducible exact id | exact fun h => Seq.ok_upd h | exact fun _ => Seq.idle_ok | exact fun _ => Seq.ok_upd Seq.idle_ok | with_reducible exact Or.inr ⟨rfl, rfl⟩ | exact Or.inr ⟨rfl, rfl, rfl⟩ | skip)

theorem State.disableAll_kept {ms : List Part} {s₀ s : State} (hs : Kept ms s₀ s)  : Kept ms s₀ (State.disableAll s) := by
  unfold State.disableAll
  repeat' first | intro _ | with_reducible assumption | dsimp only | with_reducible apply Kept.ite | with_reducible apply State.disableRegion_kept | with_reducible refine Kept.foldl _ ?_ ?_

theorem State.askZero_kept {ms : List Part} {s₀ s : State} (hm : [.req] ⊆ ms) (hs : Kept ms s₀ s)  : Kept ms s₀ (State.askZero s) := by
  unfold State.askZero
  repeat' first | exact List.Subset.trans (by decide) hm | intro _ | with_reducible assumption | dsimp only | with_reducible apply Kept.ite | with_reducible apply State.modReq_kept | with_reducible apply State.takeZero_kept

theorem execZgo_kept {ms : List Part} {s₀ s s' : State} (hm : [.req] ⊆ ms) (hs : Kept ms s₀ s) (v : Word) (he : execZgo v s = .next s') : Kept ms s₀ s' := by
  unfold execZgo at he
  (try dsimp only at he)
  (repeat' split at he) <;> (try cases he) <;> (repeat' first | exact List.Subset.trans (by decide) hm | intro _ | with_reducible assumption | dsimp only | with_reducible apply Kept.ite | with_reducible apply State.askZero_kept | with_reducible apply State.onWrite_kept | with_reducible apply whenBit_kept)

theorem State.zeroSpare_kept {ms : List Part} {s₀ s : State} (hm : [.mem, .wcb, .regul, .clock] ⊆ ms) (hs : Kept ms s₀ s) (l : RowLoc) : Kept ms s₀ (State.zeroSpare s l) := by
  unfold State.zeroSpare
  repeat' first | exact List.Subset.trans (by decide) hm | intro _ | with_reducible assumption | dsimp only | with_reducible apply Kept.ite | with_reducible apply State.charge_kept | with_reducible apply State.put_kept

theorem State.zeroOne_kept {ms : List Part} {s₀ s : State} (hm : [.mem, .wcb, .step, .dev, .regul, .clock] ⊆ ms) (hs : Kept ms s₀ s) (l : RowLoc) : Kept ms s₀ (State.zeroOne s l) := by
  unfold State.zeroOne
  repeat' first | exact List.Subset.trans (by decide) hm | intro _ | with_reducible assumption | dsimp only | with_reducible apply Kept.ite | with_reducible apply State.awaitPair_kept | with_reducible apply State.charge_kept | with_reducible apply State.flushPair_kept | with_reducible apply State.modBsu_kept | with_reducible apply State.retire_kept | with_reducible apply State.zeroRow_kept | with_reducible apply State.zeroSpare_kept

theorem State.zeroFailing_kept {ms : List Part} {s₀ s : State} (hm : [.mem, .wcb, .fault, .step, .dev, .regul, .clock] ⊆ ms) (hs : Kept ms s₀ s) (l : RowLoc) (n : Nat) : Kept ms s₀ (State.zeroFailing s l n) := by
  unfold State.zeroFailing
  repeat' first | exact List.Subset.trans (by decide) hm | intro _ | with_reducible assumption | dsimp only | with_reducible apply Kept.ite | with_reducible apply State.linkTrouble_kept | with_reducible apply State.put_kept | with_reducible apply State.zeroOne_kept | with_reducible refine Kept.foldl _ ?_ ?_ | with_reducible refine Kept.foldlSnd _ ?_ ?_ | with_reducible refine Kept.foldlTrd _ ?_ ?_ | with_reducible refine Kept.foldlFst _ ?_ ?_

theorem State.zeroNext_kept {ms : List Part} {s₀ : State} {x : ZeroRun × State} (hm : [.mem, .wcb, .fault, .step, .dev, .regul, .clock] ⊆ ms) (hx : Kept ms s₀ x.2) (l : RowLoc) : Kept ms s₀ (State.zeroNext x l).2 := by
  unfold State.zeroNext
  dsimp only
  generalize (if x.2.inService l.dev && l.row != x.2.spareRow l.dev then 1 else 64) = most
  split
  · exact State.zeroOne_kept (List.Subset.trans (by decide) hm) (State.linkTrouble_kept (List.Subset.trans (by decide) hm) hx _ _ _) l
  · exact State.zeroFailing_kept hm hx l _

theorem State.zeroAll_kept {ms : List Part} {s₀ s : State} (hm : [.mem, .wcb, .fault, .step, .dev, .regul, .clock] ⊆ ms) (hs : Kept ms s₀ s) (rows : List RowLoc) (linkFails : Nat) : Kept ms s₀ (State.zeroAll s rows linkFails) := by
  unfold State.zeroAll
  dsimp only
  refine State.set_kept (State.bump_kept ?_ _ _) _ _
  exact Kept.foldlSnd _ (State.bump_kept hs _ _) (fun q l hq => State.zeroNext_kept hm hq l)

theorem execZeroizeRun_kept {ms : List Part} {s₀ s s' : State} (hm : [.mem, .wcb, .fault, .step, .dev, .regul, .req, .clock] ⊆ ms) (hs : Kept ms s₀ s) (linkFails : Nat) (he : execZeroizeRun linkFails s = .next s') : Kept ms s₀ s' := by
  unfold execZeroizeRun at he
  (try dsimp only at he)
  (repeat' split at he) <;> (try cases he) <;> (repeat' first | exact List.Subset.trans (by decide) hm | intro _ | with_reducible assumption | dsimp only | with_reducible apply Kept.ite | with_reducible apply State.modReq_kept | with_reducible apply State.takeZero_kept | with_reducible apply State.zeroAll_kept | split | with_reducible refine Kept.pair (by assumption) ?_ | with_reducible refine Kept.triple (by assumption) ?_)

theorem State.endSpent_kept {ms : List Part} {s₀ s : State} (hm : [.req, .fuses, .keeper, .latch, .out] ⊆ ms) (hs : Kept ms s₀ s) : Kept ms s₀ (State.endSpent s) := by
  have h0 : Kept ms s₀ (s.modReq (fun r => { r with lc := none, lcMapped := .none })) := State.modReq_kept (List.Subset.trans (by decide) hm) hs _
  unfold State.endSpent
  generalize s.modReq (fun r => { r with lc := none, lcMapped := .none }) = t at h0
  dsimp only
  split
  · exact State.raise_kept (State.set_kept h0 _ _) _
  · have h1 : Kept ms s₀ (if t.flag Reg.DBG_PEND then t.dropRaise else t) := Kept.ite (State.dropRaise_kept (List.Subset.trans (by decide) hm) h0) h0
    generalize (if t.flag Reg.DBG_PEND then t.dropRaise else t) = u at h1
    have h2 := State.dropLatches_kept (List.Subset.trans (by decide) hm) (State.endSession_kept h1)
    generalize u.endSession.dropLatches = w at h2
    exact State.raise_kept (State.set_kept ((Kept.fuse (List.Subset.trans (by decide) hm) h2 2 none).regsSub _ List.filter_sublist) _ _) _

theorem execZeroizeDone_kept {ms : List Part} {s₀ s s' : State} (hm : [.req, .fuses, .keeper, .latch, .out] ⊆ ms) (hs : Kept ms s₀ s)  (he : execZeroizeDone s = .next s') : Kept ms s₀ s' := by
  unfold execZeroizeDone at he
  (try dsimp only at he)
  (repeat' split at he) <;> (try cases he) <;> (repeat' first | exact List.Subset.trans (by decide) hm | intro _ | with_reducible assumption | dsimp only | with_reducible apply Kept.ite | with_reducible apply State.endSpent_kept | with_reducible apply State.modReq_kept | with_reducible apply State.raise_kept | with_reducible apply State.set_kept | with_reducible apply State.setFlag_kept)

theorem State.advance__kept {ms : List Part} {s₀ s : State} (hm : [.req, .out] ⊆ ms) (hs : Kept ms s₀ s) (tgt : Nat) : Kept ms s₀ (State.advance_ s tgt) := by
  unfold State.advance_
  repeat' first | exact List.Subset.trans (by decide) hm | intro _ | with_reducible assumption | dsimp only | with_reducible apply Kept.ite | with_reducible apply State.modReq_kept | with_reducible apply State.rotAsk_kept | with_reducible apply State.set_kept | with_reducible apply State.setFlag_kept | split

theorem execLcAdv_kept {ms : List Part} {s₀ s s' : State} (hm : [.req, .out] ⊆ ms) (hs : Kept ms s₀ s) (v : Word) (he : execLcAdv v s = .next s') : Kept ms s₀ s' := by
  unfold execLcAdv at he
  (try dsimp only at he)
  (repeat' split at he) <;> (try cases he) <;> (repeat' first | exact List.Subset.trans (by decide) hm | intro _ | with_reducible assumption | dsimp only | with_reducible apply Kept.ite | with_reducible apply State.advance__kept | with_reducible apply State.onWrite_kept | with_reducible apply whenBit_kept)

theorem State.seal_kept {ms : List Part} {s₀ s : State} (hm : [.req, .fuses] ⊆ ms) (hs : Kept ms s₀ s) : Kept ms s₀ (State.seal s) :=
  State.raise_kept (State.set_kept (State.modReq_kept (List.Subset.trans (by decide) hm) (Kept.fuseOnly (List.Subset.trans (by decide) hm) (State.endSession_kept hs) 1) _) _ _) _

theorem State.beginSpent_kept {ms : List Part} {s₀ s : State} (hm : [.seqRegs, .seq, .plan, .icache, .step, .exch, .tier, .yarrow, .req, .waits, .fuses, .latch, .out] ⊆ ms) (hs : Kept ms s₀ s) : Kept ms s₀ (State.beginSpent s) := by
  have h1 : Kept ms s₀ (if s.flag Reg.DBG_PEND then s.dropRaise else s) := Kept.ite (State.dropRaise_kept (List.Subset.trans (by decide) hm) hs) hs
  unfold State.beginSpent
  generalize (if s.flag Reg.DBG_PEND then s.dropRaise else s) = t at h1
  have h2 := State.dropLatches_kept (List.Subset.trans (by decide) hm) (State.endSession_kept h1)
  dsimp only
  generalize t.endSession.dropLatches = u at h2
  with_reducible apply State.takeZero_kept (List.Subset.trans (by decide) hm)
  with_reducible apply State.disableAll_kept
  with_reducible apply State.unloadPlan_kept (List.Subset.trans (by decide) hm)
  exact Kept.fuseZ (List.Subset.trans (by decide) hm) h2

theorem State.rotAnswered_kept {ms : List Part} {s₀ s : State} (hm : [.seqRegs, .seq, .plan, .icache, .step, .exch, .tier, .yarrow, .req, .waits, .fuses, .latch, .out] ⊆ ms) (hs : Kept ms s₀ s) (r : RotReq) (accept : Bool) : Kept ms s₀ (State.rotAnswered s r accept) := by
  unfold State.rotAnswered
  repeat' first | exact List.Subset.trans (by decide) hm | intro _ | with_reducible assumption | dsimp only | with_reducible apply Kept.ite | with_reducible apply State.beginSpent_kept | with_reducible apply State.loadFailed_kept | with_reducible apply State.modReq_kept | with_reducible apply State.raise_kept | with_reducible apply State.seal_kept | with_reducible apply State.set_kept | with_reducible apply State.setFlag_kept | split | fail_if_no_progress ((with_reducible apply Kept.upd) <;> first | with_reducible exact Or.inr rfl | exact Or.inl (hm (by decide)) | with_reducible exact id | exact fun h => Seq.ok_upd h | exact fun _ => Seq.idle_ok | exact fun _ => Seq.ok_upd Seq.idle_ok | with_reducible exact Or.inr ⟨rfl, rfl⟩ | exact Or.inr ⟨rfl, rfl, rfl⟩ | skip)

theorem execRotAnswer_kept {ms : List Part} {s₀ s s' : State} (hm : [.seqRegs, .seq, .plan, .icache, .step, .exch, .tier, .yarrow, .req, .waits, .fuses, .latch, .out] ⊆ ms) (hs : Kept ms s₀ s) (tag : Byte) (accept : Bool) (he : execRotAnswer tag accept s = .next s') : Kept ms s₀ s' := by
  unfold execRotAnswer at he
  (try dsimp only at he)
  (repeat' split at he) <;> (try cases he) <;> (repeat' first | exact List.Subset.trans (by decide) hm | intro _ | with_reducible assumption | dsimp only | with_reducible apply Kept.ite | with_reducible apply State.modReq_kept | with_reducible apply State.rotAnswered_kept | with_reducible apply State.rotNext_kept | split | with_reducible refine Kept.pair (by assumption) ?_ | with_reducible refine Kept.triple (by assumption) ?_)

end Sys2Proof.Machine
end

