-- ==== Sys2Proof/Laws/KeptBringUp.lean ====
section
/-! SUPPORT. What the functions of Machine/BringUp.lean keep. -/

namespace Sys2Proof.Machine

theorem State.restoreKeeper_kept {ms : List Part} {s₀ s : State} (hs : Kept ms s₀ s)  : Kept ms s₀ (State.restoreKeeper s) := by
  unfold State.restoreKeeper
  repeat' first | with_reducible assumption | dsimp only | with_reducible apply Kept.ite | with_reducible apply State.set_kept | with_reducible apply State.setFlag_kept

/-- A part of the device bytes is in canonical form. -/
theorem memWf_filter (m : List Host.Cell) (f : Host.Cell → Bool) (h : memWf m = true) : memWf (m.filter f) = true := by
  simp only [memWf, Bool.and_eq_true, decide_eq_true_eq, List.all_eq_true] at h ⊢
  exact ⟨h.1.sublist (List.filter_sublist.map _), fun c hc => h.2 c (List.mem_of_mem_filter hc)⟩

theorem State.unwritten_kept {ms : List Part} {s₀ s : State} (hm : [.mem] ⊆ ms) (hs : Kept ms s₀ s) (l wl : RowLoc) (saved : List Host.Cell) : Kept ms s₀ (State.unwritten s l wl saved) := by
  refine Kept.bytesTo hm hs _ (fun h => ?_)
  suffices g : ∀ (l : List Host.Cell) (m : List Host.Cell), memWf m = true → memWf (l.foldl (fun m x => memWrite m x.1 x.2) m) = true from
    g saved _ (memWf_filter _ _ h)
  intro l
  induction l with
  | nil => exact fun _ h => h
  | cons x t ih => exact fun m h => ih _ (memWrite_wf m x.1 x.2 h)

theorem State.completeBatches_kept {ms : List Part} {s₀ s : State} (hm : [.mem, .wcb, .fault, .clock] ⊆ ms) (hs : Kept ms s₀ s) (p : Plan) (e : EntrySt) : Kept ms s₀ (State.completeBatches s p e) := by
  unfold State.completeBatches
  repeat' first | exact List.Subset.trans (by decide) hm | intro _ | with_reducible assumption | dsimp only | with_reducible apply Kept.ite | with_reducible apply State.pass_kept | with_reducible apply State.unwritten_kept | with_reducible apply State.writePhase1_kept | with_reducible apply State.writePhase2_kept

theorem State.completeWrites_kept {ms : List Part} {s₀ s : State} (hm : [.mem, .wcb, .fault, .clock] ⊆ ms) (hs : Kept ms s₀ s)  : Kept ms s₀ (State.completeWrites s) := by
  unfold State.completeWrites
  repeat' first | exact List.Subset.trans (by decide) hm | intro _ | with_reducible assumption | dsimp only | with_reducible apply Kept.ite | with_reducible apply State.completeBatches_kept | with_reducible refine Kept.foldl _ ?_ ?_ | with_reducible refine Kept.foldlSnd _ ?_ ?_ | with_reducible refine Kept.foldlTrd _ ?_ ?_ | with_reducible refine Kept.foldlFst _ ?_ ?_ | split

theorem State.coreReset_kept {ms : List Part} {s₀ s : State} (hm : [.seqRegs, .seq, .mem, .wcb, .fault, .plan, .icache, .step, .exch, .dev, .regul, .tier, .log, .yarrow, .req, .waits, .pins, .keeper, .clock, .latch, .drawn] ⊆ ms) (hs : Kept ms s₀ s) (cause : Nat) (keep : Bool) :
    Kept ms s₀ (State.coreReset s cause keep) := by
  have h := State.dropBuffer_kept (List.Subset.trans (by decide) hm) (State.completeWrites_kept (List.Subset.trans (by decide) hm) hs)
  unfold State.coreReset
  dsimp only
  apply State.set_kept
  have h' : Kept ms s₀ ((s.completeWrites.dropBuffer.req.st.filter (·.running)).elim s.completeWrites.dropBuffer
      s.completeWrites.dropBuffer.dropTestPower) := by
    cases s.completeWrites.dropBuffer.req.st.filter (·.running) with
    | none => exact h
    | some x => exact State.dropTestPower_kept h x
  generalize (s.completeWrites.dropBuffer.req.st.filter (·.running)).elim s.completeWrites.dropBuffer
      s.completeWrites.dropBuffer.dropTestPower = u at h'
  have hr : Kept ms s₀ (if keep = true then { u with regs := u.regs.filter (fun x => keptKey x.1) }.restoreKeeper
      else { u with regs := [], keeper := none }) := by
    split
    · exact State.restoreKeeper_kept (Kept.regsSub h' _ List.filter_sublist)
    · have k := Kept.regsSub h' [] (List.nil_sublist _)
      exact { k with same := { k.same with keeper := .inl (hm (by decide)) } }
  exact ⟨hr.queue, hr.uid, hr.zpend, hr.time, hr.sent, hr.regs, hr.bytes, fun _ => Seq.idle_ok,
    { hr.same with
      seqRegs := .inl (hm (by decide)), seq := .inl (hm (by decide)), fault := .inl (hm (by decide)),
      plan := .inl (hm (by decide)), icache := .inl (hm (by decide)), step := .inl (hm (by decide)),
      exch := .inl (hm (by decide)), dev := .inl (hm (by decide)), regul := .inl (hm (by decide)),
      tier := .inl (hm (by decide)), log := .inl (hm (by decide)), yarrow := .inl (hm (by decide)),
      req := .inl (hm (by decide)), waits := .inl (hm (by decide)), latch := .inl (hm (by decide)),
      pins := .inl (hm (by decide)) }⟩

theorem State.holdReset_kept {ms : List Part} {s₀ s : State} (hm : [.pins] ⊆ ms) (hs : Kept ms s₀ s) (warm : Bool) : Kept ms s₀ (State.holdReset s warm) := by
  unfold State.holdReset
  repeat' first | exact List.Subset.trans (by decide) hm | with_reducible assumption | dsimp only | with_reducible apply Kept.ite | with_reducible apply State.portsDown_kept | split | fail_if_no_progress ((with_reducible apply Kept.upd) <;> first | with_reducible exact Or.inr rfl | exact Or.inl (hm (by decide)) | with_reducible exact id | exact fun h => Seq.ok_upd h | exact fun _ => Seq.idle_ok | exact fun _ => Seq.ok_upd Seq.idle_ok | with_reducible exact Or.inr ⟨rfl, rfl⟩ | exact Or.inr ⟨rfl, rfl, rfl⟩ | skip)

theorem State.coldReset__kept {ms : List Part} {s₀ s : State} (hm : [.seqRegs, .seq, .mem, .wcb, .fault, .plan, .icache, .step, .exch, .dev, .regul, .tier, .log, .yarrow, .req, .waits, .pins, .keeper, .clock, .latch, .drawn] ⊆ ms) (hs : Kept ms s₀ s) (cause : Nat) : Kept ms s₀ (State.coldReset_ s cause) := by
  unfold State.coldReset_
  repeat' first | exact List.Subset.trans (by decide) hm | intro _ | with_reducible assumption | dsimp only | with_reducible apply Kept.ite | with_reducible apply State.coreReset_kept | with_reducible apply State.holdReset_kept | with_reducible apply State.modReq_kept

theorem State.warmReset__kept {ms : List Part} {s₀ s : State} (hm : [.seqRegs, .seq, .mem, .wcb, .fault, .plan, .icache, .step, .exch, .dev, .regul, .tier, .log, .yarrow, .req, .waits, .pins, .keeper, .clock, .latch, .drawn] ⊆ ms) (hs : Kept ms s₀ s) (cause : Nat) : Kept ms s₀ (State.warmReset_ s cause) := by
  unfold State.warmReset_
  repeat' first | exact List.Subset.trans (by decide) hm | intro _ | with_reducible assumption | dsimp only | with_reducible apply Kept.ite | with_reducible apply State.coreReset_kept | with_reducible apply State.holdReset_kept | with_reducible apply State.set_kept

theorem execPowerOn_kept {ms : List Part} {s₀ s s' : State} (hm : [.seqRegs, .seq, .mem, .wcb, .fault, .plan, .icache, .step, .exch, .dev, .regul, .tier, .log, .yarrow, .req, .waits, .pins, .keeper, .clock, .latch, .drawn] ⊆ ms) (hs : Kept ms s₀ s)  (he : execPowerOn s = .next s') : Kept ms s₀ s' := by
  unfold execPowerOn at he
  (try dsimp only at he)
  (repeat' split at he) <;> (try cases he) <;> (repeat' first | exact List.Subset.trans (by decide) hm | with_reducible assumption | dsimp only | with_reducible apply Kept.ite | with_reducible apply State.coldReset__kept)

theorem execColdReset_kept {ms : List Part} {s₀ s s' : State} (hm : [.seqRegs, .seq, .mem, .wcb, .fault, .plan, .icache, .step, .exch, .dev, .regul, .tier, .log, .yarrow, .req, .waits, .pins, .keeper, .clock, .latch, .drawn] ⊆ ms) (hs : Kept ms s₀ s)  (he : execColdReset s = .next s') : Kept ms s₀ s' := by
  unfold execColdReset at he
  (try dsimp only at he)
  (repeat' split at he) <;> (try cases he) <;> (repeat' first | exact List.Subset.trans (by decide) hm | with_reducible assumption | dsimp only | with_reducible apply Kept.ite | with_reducible apply State.coldReset__kept)

theorem execWarmReset_kept {ms : List Part} {s₀ s s' : State} (hm : [.seqRegs, .seq, .mem, .wcb, .fault, .plan, .icache, .step, .exch, .dev, .regul, .tier, .log, .yarrow, .req, .waits, .pins, .keeper, .clock, .latch, .drawn] ⊆ ms) (hs : Kept ms s₀ s)  (he : execWarmReset s = .next s') : Kept ms s₀ s' := by
  unfold execWarmReset at he
  (try dsimp only at he)
  (repeat' split at he) <;> (try cases he) <;> (repeat' first | exact List.Subset.trans (by decide) hm | intro _ | with_reducible assumption | dsimp only | with_reducible apply Kept.ite | with_reducible apply State.warmReset__kept)

theorem execVcoreGoodLoss_kept {ms : List Part} {s₀ s s' : State} (hm : [.seqRegs, .seq, .mem, .wcb, .fault, .plan, .icache, .step, .exch, .dev, .regul, .tier, .log, .yarrow, .req, .waits, .pins, .keeper, .clock, .latch, .drawn] ⊆ ms) (hs : Kept ms s₀ s)  (he : execVcoreGoodLoss s = .next s') : Kept ms s₀ s' := by
  unfold execVcoreGoodLoss at he
  (try dsimp only at he)
  (repeat' split at he) <;> (try cases he) <;> (repeat' first | exact List.Subset.trans (by decide) hm | intro _ | with_reducible assumption | dsimp only | with_reducible apply Kept.ite | with_reducible apply State.setFlag_kept | with_reducible apply State.warmReset__kept)

theorem execVkeepGoodLoss_kept {ms : List Part} {s₀ s s' : State} (hm : [.seqRegs, .seq, .mem, .wcb, .fault, .plan, .icache, .step, .exch, .dev, .regul, .tier, .log, .yarrow, .req, .waits, .pins, .keeper, .clock, .latch, .drawn] ⊆ ms) (hs : Kept ms s₀ s)  (he : execVkeepGoodLoss s = .next s') : Kept ms s₀ s' := by
  unfold execVkeepGoodLoss at he
  (try dsimp only at he)
  (repeat' split at he) <;> (try cases he) <;> (repeat' first | exact List.Subset.trans (by decide) hm | with_reducible assumption | dsimp only | with_reducible apply Kept.ite | with_reducible apply State.coldReset__kept)

theorem execVphyGoodLoss_kept {ms : List Part} {s₀ s s' : State} (hm : [.seqRegs, .seq, .mem, .wcb, .fault, .plan, .icache, .step, .exch, .dev, .regul, .tier, .log, .yarrow, .req, .waits, .pins, .keeper, .clock, .latch, .drawn] ⊆ ms) (hs : Kept ms s₀ s)  (he : execVphyGoodLoss s = .next s') : Kept ms s₀ s' := by
  unfold execVphyGoodLoss at he
  (try dsimp only at he)
  (repeat' split at he) <;> (try cases he) <;> (repeat' first | exact List.Subset.trans (by decide) hm | with_reducible assumption | dsimp only | with_reducible apply Kept.ite | with_reducible apply State.coldReset__kept | with_reducible apply State.setFlag_kept)

theorem State.selfRefresh_kept {ms : List Part} {s₀ s : State} (hm : [.pins, .clock] ⊆ ms) (hs : Kept ms s₀ s)  : Kept ms s₀ (State.selfRefresh s) := by
  unfold State.selfRefresh
  repeat' first | exact List.Subset.trans (by decide) hm | with_reducible assumption | dsimp only | with_reducible apply Kept.ite | with_reducible apply State.advance_kept | split | fail_if_no_progress ((with_reducible apply Kept.upd) <;> first | with_reducible exact Or.inr rfl | exact Or.inl (hm (by decide)) | with_reducible exact id | exact fun h => Seq.ok_upd h | exact fun _ => Seq.idle_ok | exact fun _ => Seq.ok_upd Seq.idle_ok | with_reducible exact Or.inr ⟨rfl, rfl⟩ | exact Or.inr ⟨rfl, rfl, rfl⟩ | skip)

theorem execKeeperSelfRefresh_kept {ms : List Part} {s₀ s s' : State} (hm : [.pins, .clock] ⊆ ms) (hs : Kept ms s₀ s)  (he : execKeeperSelfRefresh s = .next s') : Kept ms s₀ s' := by
  unfold execKeeperSelfRefresh at he
  (try dsimp only at he)
  (repeat' split at he) <;> (try cases he) <;> (repeat' first | exact List.Subset.trans (by decide) hm | with_reducible assumption | dsimp only | with_reducible apply Kept.ite | with_reducible apply State.selfRefresh_kept)

theorem State.loseContents_kept {ms : List Part} {s₀ s : State} (hm : [.mem, .wcb, .dev] ⊆ ms) (hs : Kept ms s₀ s) : Kept ms s₀ (State.loseContents s) :=
  ⟨hs.queue, hs.uid, hs.zpend, hs.time, hs.sent, hs.regs, fun _ => rfl, hs.shape,
    { hs.same with
      mem := .inl (hm (by decide)), wcb := .inl (hm (by decide)),
      dev := .inl (hm (by decide)) }⟩

theorem State.beginTraining_kept {ms : List Part} {s₀ s : State} (hm : [.mem, .wcb, .dev, .regul, .log, .pins] ⊆ ms) (hs : Kept ms s₀ s)  : Kept ms s₀ (State.beginTraining s) := by
  unfold State.beginTraining
  repeat' first | exact List.Subset.trans (by decide) hm | with_reducible assumption | dsimp only | with_reducible apply Kept.ite | with_reducible apply State.loseContents_kept | with_reducible apply State.set_kept | with_reducible apply State.setFlag_kept | split | fail_if_no_progress ((with_reducible apply Kept.upd) <;> first | with_reducible exact Or.inr rfl | exact Or.inl (hm (by decide)) | with_reducible exact id | exact fun h => Seq.ok_upd h | exact fun _ => Seq.idle_ok | exact fun _ => Seq.ok_upd Seq.idle_ok | with_reducible exact Or.inr ⟨rfl, rfl⟩ | exact Or.inr ⟨rfl, rfl, rfl⟩ | skip)

theorem State.askTraining_kept {ms : List Part} {s₀ s : State} (hm : [.mem, .wcb, .dev, .regul, .log, .pins] ⊆ ms) (hs : Kept ms s₀ s)  : Kept ms s₀ (State.askTraining s) := by
  unfold State.askTraining
  repeat' first | exact List.Subset.trans (by decide) hm | intro _ | with_reducible assumption | dsimp only | with_reducible apply Kept.ite | with_reducible apply State.beginTraining_kept

theorem execTrain_kept {ms : List Part} {s₀ s s' : State} (hm : [.mem, .wcb, .dev, .regul, .log, .pins] ⊆ ms) (hs : Kept ms s₀ s) (v : Word) (he : execTrain v s = .next s') : Kept ms s₀ s' := by
  unfold execTrain at he
  (try dsimp only at he)
  (repeat' split at he) <;> (try cases he) <;> (repeat' first | exact List.Subset.trans (by decide) hm | intro _ | with_reducible assumption | dsimp only | with_reducible apply Kept.ite | with_reducible apply State.askTraining_kept | with_reducible apply State.onWrite_kept | with_reducible apply whenBit_kept)

theorem State.trained_kept {ms : List Part} {s₀ s : State} (hs : Kept ms s₀ s) (d : Nat) (t : TrainResult) : Kept ms s₀ (State.trained s d t) := by
  unfold State.trained
  repeat' first | with_reducible assumption | dsimp only | with_reducible apply Kept.ite | with_reducible apply State.set_kept | with_reducible apply State.setBit_kept

theorem State.trainedAll_kept {ms : List Part} {s₀ s : State} (hs : Kept ms s₀ s) (found : List TrainResult) : Kept ms s₀ (State.trainedAll s found) := by
  unfold State.trainedAll
  repeat' first | intro _ | with_reducible assumption | dsimp only | with_reducible apply Kept.ite | with_reducible apply State.set_kept | with_reducible apply State.trained_kept | with_reducible refine Kept.foldl _ ?_ ?_

theorem execTrainingDone_kept {ms : List Part} {s₀ s s' : State} (hs : Kept ms s₀ s) (found : List TrainResult) (he : execTrainingDone found s = .next s') : Kept ms s₀ s' := by
  unfold execTrainingDone at he
  (try dsimp only at he)
  (repeat' split at he) <;> (try cases he) <;> (repeat' first | intro _ | with_reducible assumption | dsimp only | with_reducible apply Kept.ite | with_reducible apply State.raise_kept | with_reducible apply State.setFlag_kept | with_reducible apply State.set_kept | with_reducible apply State.trainedAll_kept)

theorem State.checkerDone_kept {ms : List Part} {s₀ s : State} (hs : Kept ms s₀ s) (c : Option CheckFail) : Kept ms s₀ (State.checkerDone s c) := by
  unfold State.checkerDone
  repeat' first | with_reducible assumption | dsimp only | with_reducible apply Kept.ite | with_reducible apply State.raise_kept | with_reducible apply State.set_kept | with_reducible apply State.setFlag_kept | split

theorem State.startCore_kept {ms : List Part} {s₀ s : State} (hm : [.regul] ⊆ ms) (hs : Kept ms s₀ s)  : Kept ms s₀ (State.startCore s) := by
  unfold State.startCore
  repeat' first | exact List.Subset.trans (by decide) hm | with_reducible assumption | dsimp only | with_reducible apply Kept.ite | with_reducible apply State.setFlag_kept | fail_if_no_progress ((with_reducible apply Kept.upd) <;> first | with_reducible exact Or.inr rfl | exact Or.inl (hm (by decide)) | with_reducible exact id | exact fun h => Seq.ok_upd h | exact fun _ => Seq.idle_ok | exact fun _ => Seq.ok_upd Seq.idle_ok | with_reducible exact Or.inr ⟨rfl, rfl⟩ | exact Or.inr ⟨rfl, rfl, rfl⟩ | skip)

theorem execResetRelease_kept {ms : List Part} {s₀ s s' : State} (hm : [.mem, .wcb, .dev, .regul, .log, .pins, .clock] ⊆ ms) (hs : Kept ms s₀ s) (memkept : Bool) (checker : Option CheckFail) (he : execResetRelease memkept checker s = .next s') : Kept ms s₀ s' := by
  unfold execResetRelease at he
  (try dsimp only at he)
  (repeat' split at he) <;> (try cases he) <;> (repeat' first | exact List.Subset.trans (by decide) hm | intro _ | with_reducible assumption | dsimp only | with_reducible apply Kept.ite | with_reducible apply State.beginTraining_kept | with_reducible apply State.checkerDone_kept | with_reducible apply State.selfRefresh_kept | with_reducible apply State.setFlag_kept | with_reducible apply State.startCore_kept | fail_if_no_progress ((with_reducible apply Kept.upd) <;> first | with_reducible exact Or.inr rfl | exact Or.inl (hm (by decide)) | with_reducible exact id | exact fun h => Seq.ok_upd h | exact fun _ => Seq.idle_ok | exact fun _ => Seq.ok_upd Seq.idle_ok | with_reducible exact Or.inr ⟨rfl, rfl⟩ | exact Or.inr ⟨rfl, rfl, rfl⟩ | skip))

theorem State.takeRecord_kept {ms : List Part} {s₀ s : State} (hm : [.wcb, .fault, .step, .dev, .regul, .clock] ⊆ ms) (hs : Kept ms s₀ s) (d bank : Nat) (es : List RemapEntry) : Kept ms s₀ (State.takeRecord s d bank es) := by
  unfold State.takeRecord
  repeat' first | exact List.Subset.trans (by decide) hm | with_reducible assumption | dsimp only | with_reducible apply Kept.ite | with_reducible apply State.loadIfServing_kept | fail_if_no_progress ((with_reducible apply Kept.upd) <;> first | with_reducible exact Or.inr rfl | exact Or.inl (hm (by decide)) | with_reducible exact id | exact fun h => Seq.ok_upd h | exact fun _ => Seq.idle_ok | exact fun _ => Seq.ok_upd Seq.idle_ok | with_reducible exact Or.inr ⟨rfl, rfl⟩ | exact Or.inr ⟨rfl, rfl, rfl⟩ | skip)

theorem State.setupBank_kept {ms : List Part} {s₀ s : State} (hm : [.wcb, .fault, .step, .dev, .regul, .clock] ⊆ ms) (hs : Kept ms s₀ s) (d bank : Nat) : Kept ms s₀ (State.setupBank s d bank) := by
  unfold State.setupBank
  repeat' first | exact List.Subset.trans (by decide) hm | intro _ | with_reducible assumption | dsimp only | with_reducible apply Kept.ite | with_reducible apply State.charge_kept | with_reducible apply State.corrected_kept | with_reducible apply State.noteLine_kept | with_reducible apply State.takeRecord_kept | split | with_reducible refine Kept.pair (by assumption) ?_ | with_reducible refine Kept.triple (by assumption) ?_

theorem State.setupBanks_kept {ms : List Part} {s₀ s : State} (hm : [.wcb, .fault, .step, .dev, .regul, .clock] ⊆ ms) (hs : Kept ms s₀ s)  : Kept ms s₀ (State.setupBanks s) := by
  unfold State.setupBanks
  repeat' first | exact List.Subset.trans (by decide) hm | intro _ | with_reducible assumption | dsimp only | with_reducible apply Kept.ite | with_reducible apply State.setupBank_kept | with_reducible refine Kept.foldl _ ?_ ?_

theorem State.resumeSpent_kept {ms : List Part} {s₀ s : State} (hm : [.seqRegs, .seq, .mem, .wcb, .fault, .plan, .icache, .step, .exch, .dev, .regul, .tier, .yarrow, .req, .waits, .fuses, .keeper, .clock, .latch, .drawn, .out] ⊆ ms) (hs : Kept ms s₀ s)  : Kept ms s₀ (State.resumeSpent s) := by
  unfold State.resumeSpent
  repeat' first | exact List.Subset.trans (by decide) hm | intro _ | with_reducible assumption | dsimp only | with_reducible apply Kept.ite | with_reducible apply State.disableAll_kept | with_reducible apply State.endSpent_kept | with_reducible apply State.free_kept | with_reducible apply State.modReq_kept | with_reducible apply State.raise_kept | with_reducible apply State.setFlag_kept | with_reducible apply State.set_kept | with_reducible apply State.takeZero_kept | with_reducible apply State.unloadPlan_kept | with_reducible apply State.zeroAll_kept | split | with_reducible refine Kept.pair (by assumption) ?_ | with_reducible refine Kept.triple (by assumption) ?_

theorem State.enterConfig_kept {ms : List Part} {s₀ s : State} (hm : [.seqRegs, .seq, .mem, .wcb, .fault, .plan, .icache, .step, .exch, .dev, .regul, .tier, .yarrow, .req, .waits, .pins, .fuses, .keeper, .clock, .latch, .drawn, .out] ⊆ ms) (hs : Kept ms s₀ s)  : Kept ms s₀ (State.enterConfig s) := by
  unfold State.enterConfig
  repeat' first | exact List.Subset.trans (by decide) hm | intro _ | with_reducible assumption | dsimp only | with_reducible apply Kept.ite | with_reducible apply State.portsUp_kept | with_reducible apply State.raise_kept | with_reducible apply State.resumeSpent_kept | with_reducible apply State.set_kept | with_reducible apply State.setupBanks_kept

theorem execDeviceSetup_kept {ms : List Part} {s₀ s s' : State} (hm : [.seqRegs, .seq, .mem, .wcb, .fault, .plan, .icache, .step, .exch, .dev, .regul, .tier, .yarrow, .req, .waits, .pins, .fuses, .keeper, .clock, .latch, .drawn, .out] ⊆ ms) (hs : Kept ms s₀ s)  (he : execDeviceSetup s = .next s') : Kept ms s₀ s' := by
  unfold execDeviceSetup at he
  (try dsimp only at he)
  (repeat' split at he) <;> (try cases he) <;> (repeat' first | exact List.Subset.trans (by decide) hm | intro _ | with_reducible assumption | dsimp only | with_reducible apply Kept.ite | with_reducible apply State.enterConfig_kept)

theorem execEnterRun_kept {ms : List Part} {s₀ s s' : State} (hm : [.seqRegs, .seq, .mem, .wcb, .fault, .plan, .icache, .step, .dev, .regul, .tier, .clock] ⊆ ms) (hs : Kept ms s₀ s)  (he : execEnterRun s = .next s') : Kept ms s₀ s' := by
  unfold execEnterRun at he
  (try dsimp only at he)
  (repeat' split at he) <;> (try cases he) <;> (repeat' first | exact List.Subset.trans (by decide) hm | intro _ | with_reducible assumption | dsimp only | with_reducible apply Kept.ite | with_reducible apply State.closeJournal_kept | with_reducible apply State.modTier_kept | with_reducible apply State.raise_kept | with_reducible apply State.releaseGo_kept | with_reducible apply State.setFlag_kept | with_reducible apply State.set_kept)

theorem execTickCheck_kept {ms : List Part} {s₀ s s' : State} (hm : [.clock] ⊆ ms) (hs : Kept ms s₀ s) (advance : Nat) (he : execTickCheck advance s = .next s') : Kept ms s₀ s' := by
  unfold execTickCheck at he
  (try dsimp only at he)
  (repeat' split at he) <;> (try cases he) <;> (repeat' first | exact List.Subset.trans (by decide) hm | with_reducible assumption | dsimp only | with_reducible apply Kept.ite | exact Kept.clock (List.Subset.trans (by decide) hm) (by with_reducible assumption) _ (Nat.le_refl _) | with_reducible apply State.raise_kept | with_reducible apply State.setFlag_kept)

theorem State.wake_kept {ms : List Part} {s₀ s : State} (hm : [.seqRegs, .seq, .mem, .wcb, .fault, .plan, .icache, .step, .exch, .dev, .regul, .tier, .log, .yarrow, .req, .waits, .pins, .keeper, .clock, .latch, .drawn] ⊆ ms) (hs : Kept ms s₀ s)  : Kept ms s₀ (State.wake s) := by
  unfold State.wake
  repeat' first | exact List.Subset.trans (by decide) hm | intro _ | with_reducible assumption | dsimp only | with_reducible apply Kept.ite | with_reducible apply State.coreReset_kept | with_reducible apply State.setFlag_kept | with_reducible apply State.startCore_kept

theorem execHarebellExit_kept {ms : List Part} {s₀ s s' : State} (hm : [.seqRegs, .seq, .mem, .wcb, .fault, .plan, .icache, .step, .exch, .dev, .regul, .tier, .log, .yarrow, .req, .waits, .pins, .fuses, .keeper, .clock, .latch, .drawn, .out] ⊆ ms) (hs : Kept ms s₀ s) (checker : Option CheckFail) (found : List TrainResult) (he : execHarebellExit checker found s = .next s') : Kept ms s₀ s' := by
  unfold execHarebellExit at he
  (try dsimp only at he)
  (repeat' split at he) <;> (try cases he) <;> (repeat' first | exact List.Subset.trans (by decide) hm | intro _ | with_reducible assumption | dsimp only | with_reducible apply Kept.ite | with_reducible apply State.beginTraining_kept | with_reducible apply State.checkerDone_kept | with_reducible apply State.enterConfig_kept | with_reducible apply State.raise_kept | with_reducible apply State.setFlag_kept | with_reducible apply State.set_kept | with_reducible apply State.trainedAll_kept | with_reducible apply State.wake_kept | split | with_reducible refine Kept.pair (by assumption) ?_ | with_reducible refine Kept.triple (by assumption) ?_)

end Sys2Proof.Machine
end

