-- ==== Sys2Proof/Laws/KeptRegisters.lean ====
section
/-! SUPPORT. What the functions of Machine/Registers.lean keep. -/

namespace Sys2Proof.Machine

theorem State.sampleTier_kept {ms : List Part} {s₀ s : State} (hm : [.pins, .drawn] ⊆ ms) (hs : Kept ms s₀ s)  : Kept ms s₀ (State.sampleTier s) := by
  unfold State.sampleTier
  repeat' first | exact List.Subset.trans (by decide) hm | intro _ | with_reducible assumption | dsimp only | with_reducible apply Kept.ite | with_reducible apply State.free_kept | split | with_reducible refine Kept.pair (by assumption) ?_ | with_reducible refine Kept.triple (by assumption) ?_ | fail_if_no_progress ((with_reducible apply Kept.upd) <;> first | with_reducible exact Or.inr rfl | exact Or.inl (hm (by decide)) | with_reducible exact id | exact fun h => Seq.ok_upd h | exact fun _ => Seq.idle_ok | exact fun _ => Seq.ok_upd Seq.idle_ok | with_reducible exact Or.inr ⟨rfl, rfl⟩ | exact Or.inr ⟨rfl, rfl, rfl⟩ | skip)

theorem State.writeTier_kept {ms : List Part} {s₀ s : State} (hm : [.pins, .drawn] ⊆ ms) (hs : Kept ms s₀ s) (v : Word) : Kept ms s₀ (State.writeTier s v) := by
  unfold State.writeTier
  repeat' first | exact List.Subset.trans (by decide) hm | intro _ | with_reducible assumption | dsimp only | with_reducible apply Kept.ite | with_reducible apply State.onWrite_kept | with_reducible apply State.sampleTier_kept | fail_if_no_progress ((with_reducible apply Kept.upd) <;> first | with_reducible exact Or.inr rfl | exact Or.inl (hm (by decide)) | with_reducible exact id | exact fun h => Seq.ok_upd h | exact fun _ => Seq.idle_ok | exact fun _ => Seq.ok_upd Seq.idle_ok | with_reducible exact Or.inr ⟨rfl, rfl⟩ | exact Or.inr ⟨rfl, rfl, rfl⟩ | skip)

theorem execThaltClear_kept {ms : List Part} {s₀ s s' : State} (hm : [.pins, .drawn] ⊆ ms) (hs : Kept ms s₀ s) (v : Word) (he : execThaltClear v s = .next s') : Kept ms s₀ s' := by
  unfold execThaltClear at he
  (try dsimp only at he)
  (repeat' split at he) <;> (try cases he) <;> (repeat' first | exact List.Subset.trans (by decide) hm | with_reducible assumption | dsimp only | with_reducible apply Kept.ite | with_reducible apply State.writeTier_kept)

theorem State.writeWindow_kept {ms : List Part} {s₀ s : State} (hs : Kept ms s₀ s) (off : Nat) (v : Word) : Kept ms s₀ (State.writeWindow s off v) := by
  unfold State.writeWindow
  repeat' first | intro _ | with_reducible assumption | dsimp only | with_reducible apply Kept.ite | with_reducible apply State.onWrite_kept | dsimp only [id]

theorem State.retryPort_kept {ms : List Part} {s₀ s : State} (hm : [.pins, .drawn] ⊆ ms) (hs : Kept ms s₀ s) (n : Nat) : Kept ms s₀ (State.retryPort s n) := by
  unfold State.retryPort
  repeat' first | exact List.Subset.trans (by decide) hm | with_reducible assumption | dsimp only | with_reducible apply Kept.ite | with_reducible apply State.free_kept | with_reducible apply State.setBit_kept | split | fail_if_no_progress ((with_reducible apply Kept.upd) <;> first | with_reducible exact Or.inr rfl | exact Or.inl (hm (by decide)) | with_reducible exact id | exact fun h => Seq.ok_upd h | exact fun _ => Seq.idle_ok | exact fun _ => Seq.ok_upd Seq.idle_ok | with_reducible exact Or.inr ⟨rfl, rfl⟩ | exact Or.inr ⟨rfl, rfl, rfl⟩ | skip)

theorem State.writePortFail_kept {ms : List Part} {s₀ s : State} (hm : [.exch, .pins, .drawn, .out] ⊆ ms) (hs : Kept ms s₀ s) (v : Word) : Kept ms s₀ (State.writePortFail s v) := by
  unfold State.writePortFail
  repeat' first | exact List.Subset.trans (by decide) hm | intro _ | with_reducible assumption | dsimp only | with_reducible apply Kept.ite | with_reducible apply State.onWrite_kept | with_reducible apply State.retryPort_kept | with_reducible apply State.sendHeld_kept | with_reducible refine Kept.foldl _ ?_ ?_ | with_reducible refine Kept.foldlSnd _ ?_ ?_ | with_reducible refine Kept.foldlTrd _ ?_ ?_ | with_reducible refine Kept.foldlFst _ ?_ ?_

theorem execPortFailClear_kept {ms : List Part} {s₀ s s' : State} (hm : [.exch, .pins, .drawn, .out] ⊆ ms) (hs : Kept ms s₀ s) (v : Word) (he : execPortFailClear v s = .next s') : Kept ms s₀ s' := by
  unfold execPortFailClear at he
  (try dsimp only at he)
  (repeat' split at he) <;> (try cases he) <;> (repeat' first | exact List.Subset.trans (by decide) hm | with_reducible assumption | dsimp only | with_reducible apply Kept.ite | with_reducible apply State.writePortFail_kept)

theorem State.writeBreak_kept {ms : List Part} {s₀ s : State} (hm : [.seqRegs, .seq, .plan, .icache, .step, .tier] ⊆ ms) (hs : Kept ms s₀ s) (v : Word) : Kept ms s₀ (State.writeBreak s v) := by
  unfold State.writeBreak
  repeat' first | exact List.Subset.trans (by decide) hm | intro _ | with_reducible assumption | dsimp only | with_reducible apply Kept.ite | with_reducible apply State.onWrite_kept | with_reducible apply State.releaseGo_kept

theorem execBrkHitClear_kept {ms : List Part} {s₀ s s' : State} (hm : [.seqRegs, .seq, .plan, .icache, .step, .tier] ⊆ ms) (hs : Kept ms s₀ s) (v : Word) (he : execBrkHitClear v s = .next s') : Kept ms s₀ s' := by
  unfold execBrkHitClear at he
  (try dsimp only at he)
  (repeat' split at he) <;> (try cases he) <;> (repeat' first | exact List.Subset.trans (by decide) hm | with_reducible assumption | dsimp only | with_reducible apply Kept.ite | with_reducible apply State.writeBreak_kept)

theorem State.clearCounters_kept {ms : List Part} {s₀ s : State} (hs : Kept ms s₀ s)  : Kept ms s₀ (State.clearCounters s) := by
  unfold State.clearCounters
  repeat' first | intro _ | with_reducible assumption | dsimp only | with_reducible apply Kept.ite | with_reducible apply State.set64_kept | with_reducible refine Kept.foldl _ ?_ ?_

theorem State.writeCounterControl_kept {ms : List Part} {s₀ s : State} (hs : Kept ms s₀ s) (v : Word) : Kept ms s₀ (State.writeCounterControl s v) := by
  unfold State.writeCounterControl
  repeat' first | intro _ | with_reducible assumption | dsimp only | with_reducible apply Kept.ite | with_reducible apply State.clearCounters_kept | with_reducible apply State.onWrite_kept | with_reducible apply whenBit_kept

theorem execPcClr_kept {ms : List Part} {s₀ s s' : State} (hs : Kept ms s₀ s) (v : Word) (he : execPcClr v s = .next s') : Kept ms s₀ s' := by
  unfold execPcClr at he
  (try dsimp only at he)
  (repeat' split at he) <;> (try cases he) <;> (repeat' first | with_reducible assumption | dsimp only | with_reducible apply Kept.ite | with_reducible apply State.writeCounterControl_kept)

theorem State.writeRegulator_kept {ms : List Part} {s₀ s : State} (hs : Kept ms s₀ s) (off : Nat) (v : Word) : Kept ms s₀ (State.writeRegulator s off v) := by
  unfold State.writeRegulator
  repeat' first | with_reducible assumption | dsimp only | with_reducible apply Kept.ite | with_reducible apply State.set_kept | with_reducible apply State.setFlag_kept | with_reducible apply State.writeFields_kept | split

theorem execRegulatorWrite_kept {ms : List Part} {s₀ s s' : State} (hs : Kept ms s₀ s) (r : RegulatorReg) (v : Word) (he : execRegulatorWrite r v s = .next s') : Kept ms s₀ s' := by
  unfold execRegulatorWrite at he
  (try dsimp only at he)
  (repeat' split at he) <;> (try cases he) <;> (repeat' first | with_reducible assumption | dsimp only | with_reducible apply Kept.ite | with_reducible apply State.writeRegulator_kept)

theorem State.writeMirror_kept {ms : List Part} {s₀ s : State} (hs : Kept ms s₀ s) (off : Nat) (v : Word) : Kept ms s₀ (State.writeMirror s off v) := by
  unfold State.writeMirror
  repeat' first | intro _ | with_reducible assumption | dsimp only | with_reducible apply Kept.ite | with_reducible apply State.onWrite_kept | with_reducible apply State.showMirror_kept

theorem execRegionEntryWrite_kept {ms : List Part} {s₀ s s' : State} (hm : [.seqRegs, .seq, .mem, .wcb, .fault, .plan, .icache, .step, .exch, .dev, .regul, .tier, .log, .req, .waits, .clock, .drawn, .out] ⊆ ms) (hs : Kept ms s₀ s) (entry : BitVec 6) (word : BitVec 2) (v : Word) (he : execRegionEntryWrite entry word v s = .next s') : Kept ms s₀ s' := by
  unfold execRegionEntryWrite at he
  (try dsimp only at he)
  (repeat' split at he) <;> (try cases he) <;> (repeat' first | exact List.Subset.trans (by decide) hm | intro _ | with_reducible assumption | dsimp only | with_reducible apply Kept.ite | with_reducible apply State.entryWrite_kept | with_reducible apply State.settleTest_kept)

theorem State.writeService_kept {ms : List Part} {s₀ s : State} (hm : [.seqRegs, .seq, .mem, .wcb, .fault, .plan, .icache, .step, .exch, .dev, .regul, .tier, .log, .req, .waits, .clock, .drawn, .out] ⊆ ms) (hs : Kept ms s₀ s) (v : Word) : Kept ms s₀ (State.writeService s v) := by
  unfold State.writeService
  repeat' first | exact List.Subset.trans (by decide) hm | intro _ | with_reducible assumption | dsimp only | with_reducible apply Kept.ite | with_reducible apply State.askService_kept | with_reducible apply State.onWrite_kept

theorem State.writeReg_kept {ms : List Part} {s₀ s : State} (hm : [.seqRegs, .seq, .mem, .wcb, .fault, .plan, .icache, .step, .exch, .dev, .regul, .tier, .log, .yarrow, .req, .waits, .pins, .clock, .drawn, .out] ⊆ ms) (hs : Kept ms s₀ s) (off : Nat) (v : Word) : Kept ms s₀ (State.writeReg s off v) := by
  unfold State.writeReg
  repeat' first | exact List.Subset.trans (by decide) hm | intro _ | with_reducible assumption | dsimp only | with_reducible apply Kept.ite | with_reducible apply State.advance__kept | with_reducible apply State.askReplay_kept | with_reducible apply State.askTest_kept | with_reducible apply State.askTraining_kept | with_reducible apply State.askZero_kept | with_reducible apply State.entryWrite_kept | with_reducible apply State.mirrorWrite_kept | with_reducible apply State.onWrite_kept | with_reducible apply State.post_kept | with_reducible apply State.setSG_kept | with_reducible apply State.settleTest_kept | with_reducible apply State.takeCnt_kept | with_reducible apply State.takeGo_kept | with_reducible apply State.writeBreak_kept | with_reducible apply State.writeCounterControl_kept | with_reducible apply State.writeDebugControl_kept | with_reducible apply State.writeFaultControl_kept | with_reducible apply State.writeLoad_kept | with_reducible apply State.writeMirror_kept | with_reducible apply State.writePortFail_kept | with_reducible apply State.writePower_kept | with_reducible apply State.writeRegulator_kept | with_reducible apply State.writeRepair_kept | with_reducible apply State.writeService_kept | with_reducible apply State.writeTier_kept | with_reducible apply State.writeWindow_kept | with_reducible apply State.writeX_kept | with_reducible apply State.ygo_kept | with_reducible apply whenBit_kept | split | with_reducible refine Kept.pair (by assumption) ?_ | with_reducible refine Kept.triple (by assumption) ?_

theorem execRegisterWrite_kept {ms : List Part} {s₀ s s' : State} (hm : [.seqRegs, .seq, .mem, .wcb, .fault, .plan, .icache, .step, .exch, .dev, .regul, .tier, .log, .yarrow, .req, .waits, .pins, .clock, .drawn, .out] ⊆ ms) (hs : Kept ms s₀ s) (off : Half) (v : Word) (he : execRegisterWrite off v s = .next s') : Kept ms s₀ s' := by
  unfold execRegisterWrite at he
  (try dsimp only at he)
  (repeat' split at he) <;> (try cases he) <;> (repeat' first | exact List.Subset.trans (by decide) hm | with_reducible assumption | dsimp only | with_reducible apply Kept.ite | with_reducible apply State.releaseGo_kept | with_reducible apply State.writeReg_kept)

theorem State.refuseDebug_kept {ms : List Part} {s₀ s : State} (hm : [.out] ⊆ ms) (hs : Kept ms s₀ s) (o : Out) : Kept ms s₀ (State.refuseDebug s o) := by
  unfold State.refuseDebug
  repeat' first | exact List.Subset.trans (by decide) hm | with_reducible assumption | dsimp only | with_reducible apply Kept.ite | with_reducible apply State.emit_kept | with_reducible apply State.setFlag_kept

theorem State.debugRead_kept {ms : List Part} {s₀ s : State} (hm : [.latch, .out] ⊆ ms) (hs : Kept ms s₀ s) (off : Nat) : Kept ms s₀ (State.debugRead s off) := by
  unfold State.debugRead
  repeat' first | exact List.Subset.trans (by decide) hm | with_reducible assumption | dsimp only | with_reducible apply Kept.ite | with_reducible apply State.emit_kept | with_reducible apply State.refuseDebug_kept | split | fail_if_no_progress ((with_reducible apply Kept.upd) <;> first | with_reducible exact Or.inr rfl | exact Or.inl (hm (by decide)) | with_reducible exact id | exact fun h => Seq.ok_upd h | exact fun _ => Seq.idle_ok | exact fun _ => Seq.ok_upd Seq.idle_ok | with_reducible exact Or.inr ⟨rfl, rfl⟩ | exact Or.inr ⟨rfl, rfl, rfl⟩ | skip)

theorem State.debugWrite_kept {ms : List Part} {s₀ s : State} (hm : [.seqRegs, .seq, .mem, .wcb, .fault, .plan, .icache, .step, .exch, .dev, .regul, .tier, .log, .yarrow, .req, .waits, .pins, .clock, .drawn, .out] ⊆ ms) (hs : Kept ms s₀ s) (off : Nat) (v : Word) : Kept ms s₀ (State.debugWrite s off v) := by
  unfold State.debugWrite
  repeat' first | exact List.Subset.trans (by decide) hm | with_reducible assumption | dsimp only | with_reducible apply Kept.ite | with_reducible apply State.releaseGo_kept | with_reducible apply State.setFlag_kept | with_reducible apply State.writeReg_kept

theorem State.refuseRegion_kept {ms : List Part} {s₀ s : State} (hm : [.out] ⊆ ms) (hs : Kept ms s₀ s) (n lines : Nat) (c : RegionCheck) : Kept ms s₀ (State.refuseRegion s n lines c) := by
  unfold State.refuseRegion
  repeat' first | exact List.Subset.trans (by decide) hm | intro _ | with_reducible assumption | dsimp only | with_reducible apply Kept.ite | with_reducible apply State.refuseAccess_kept | with_reducible apply State.refuseDebug_kept

theorem State.debugRegionRead_kept {ms : List Part} {s₀ s : State} (hm : [.fault, .step, .dev, .regul, .clock, .out] ⊆ ms) (hs : Kept ms s₀ s) (region off lines : Nat) : Kept ms s₀ (State.debugRegionRead s region off lines) := by
  unfold State.debugRegionRead
  repeat' first | exact List.Subset.trans (by decide) hm | intro _ | with_reducible assumption | dsimp only | with_reducible apply Kept.ite | with_reducible apply State.emit_kept | with_reducible apply State.refuseDebug_kept | with_reducible apply State.refuseRegion_kept | with_reducible apply State.regionRead_kept | split | with_reducible refine Kept.pair (by assumption) ?_ | with_reducible refine Kept.triple (by assumption) ?_

theorem State.debugRegionWrite_kept {ms : List Part} {s₀ s : State} (hm : [.out] ⊆ ms) (hs : Kept ms s₀ s) (region off lines : Nat) : Kept ms s₀ (State.debugRegionWrite s region off lines) := by
  unfold State.debugRegionWrite
  repeat' first | exact List.Subset.trans (by decide) hm | intro _ | with_reducible assumption | dsimp only | with_reducible apply Kept.ite | with_reducible apply State.refuseDebug_kept | with_reducible apply State.refuseRegion_kept | split | with_reducible refine Kept.pair (by assumption) ?_ | with_reducible refine Kept.triple (by assumption) ?_

theorem execDebugRequest_kept {ms : List Part} {s₀ s s' : State} (hm : [.seqRegs, .seq, .mem, .wcb, .fault, .plan, .icache, .step, .exch, .dev, .regul, .tier, .log, .yarrow, .req, .waits, .pins, .clock, .latch, .drawn, .out] ⊆ ms) (hs : Kept ms s₀ s) (req : DebugReq) (he : execDebugRequest req s = .next s') : Kept ms s₀ s' := by
  unfold execDebugRequest at he
  (try dsimp only at he)
  (repeat' split at he) <;> (try cases he) <;> (repeat' first | exact List.Subset.trans (by decide) hm | intro _ | with_reducible assumption | dsimp only | with_reducible apply Kept.ite | with_reducible apply State.debugRead_kept | with_reducible apply State.debugRegionRead_kept | with_reducible apply State.debugRegionWrite_kept | with_reducible apply State.debugWrite_kept | with_reducible apply State.regionRead_kept | with_reducible apply State.regionWrite_kept | split | with_reducible refine Kept.pair (by assumption) ?_ | with_reducible refine Kept.triple (by assumption) ?_)

end Sys2Proof.Machine
end

