-- ==== Sys2Proof/Laws/Sequencer.lean ====
section
/-! SUPPORT. What issuing a Sarenina instruction does: its effect, the next instruction when its predicate does not hold, the
trap of INSN_LIMIT. -/

namespace Sys2Proof.Machine

theorem State.settleWait_none {s : State} (h : s.seq.wait = none) : s.settleWait = s.settleInsts := by
  have h2 : s.settleInsts.waitOver = false := by
    unfold State.waitOver
    rw [show s.settleInsts.seq.wait = none from h]
  unfold State.settleWait
  simp [h2]

/-- An instruction that is fetched and whose predicate holds runs. -/
theorem State.issue_take {s : State} {pl : Plan} {i : Instr} {p : Pred} (run : State → State) (h : s.Fetches pl i)
    (hp : s.takes p) : s.issue i p run = run s.issued := by
  obtain ⟨h1, h2, h3, h4, h5, h6, h7⟩ := h
  unfold State.issue
  rw [State.settleWait_none h3]
  have e1 : s.settleInsts.plan.plan = some pl := h1
  have e2 : s.settleInsts.seq = s.seq := rfl
  have e3 : s.settleInsts.icache = s.icache := rfl
  have hp' : ((s.settleInsts.modSeq (fun q => { q with count := q.count + 1 })).pget p.pr ^^ p.pn) = true := hp
  simp only [e1, e2, e3, h2, h3, h4, h5, h6, hp', Nat.not_le.mpr h7, Bool.not_true, Option.isSome_none, Bool.or_false,
    Bool.false_eq_true, if_false, if_true, bne_self_eq_false]
  rfl

/-- One whose predicate does not hold only counts (R186). -/
theorem State.issue_skip {s : State} {pl : Plan} {i : Instr} {p : Pred} (run : State → State) (h : s.Fetches pl i)
    (hp : ¬ s.takes p) : s.issue i p run = s.stepped id := by
  obtain ⟨h1, h2, h3, h4, h5, h6, h7⟩ := h
  unfold State.issue
  rw [State.settleWait_none h3]
  have e1 : s.settleInsts.plan.plan = some pl := h1
  have e2 : s.settleInsts.seq = s.seq := rfl
  have e3 : s.settleInsts.icache = s.icache := rfl
  have hp' : ((s.settleInsts.modSeq (fun q => { q with count := q.count + 1 })).pget p.pr ^^ p.pn) = false :=
    Bool.eq_false_iff.mpr hp
  simp only [e1, e2, e3, h2, h3, h4, h5, h6, hp', Nat.not_le.mpr h7, Bool.not_true, Option.isSome_none, Bool.or_false,
    Bool.false_eq_true, if_false, bne_self_eq_false]
  simp [State.seqDone, State.modSeq, State.stepped, e2, h2, h3]

/-- One that would pass INSN_LIMIT traps (R194). -/
theorem State.issue_limit {s : State} {pl : Plan} {i : Instr} {p : Pred} (run : State → State)
    (h1 : s.plan.plan = some pl) (h2 : s.seq.running = true) (h3 : s.seq.wait = none) (h4 : s.icache.miss = none)
    (h5 : sarEncode i = some (pl.codeWord s.seq.pc)) (h6 : s.icache.holds (s.seq.pc / 8) = true)
    (h7 : pl.hdr.insnLimit ≤ s.seq.count) : s.issue i p run = s.settleInsts.trap 0x07 pl.hdr.insnLimit := by
  unfold State.issue
  rw [State.settleWait_none h3]
  have e1 : s.settleInsts.plan.plan = some pl := h1
  have e2 : s.settleInsts.seq = s.seq := rfl
  have e3 : s.settleInsts.icache = s.icache := rfl
  simp only [e1, e2, e3, h2, h3, h4, h5, h6, h7, Bool.not_true, Option.isSome_none, Bool.or_false, Bool.false_eq_true,
    if_false, if_true, bne_self_eq_false]

/-- The sequencer goes on to the next instruction. -/
theorem State.seqDone_issued {s : State} (h : s.seq.wait = none) : s.issued.seqDone = s.stepped id := by
  simp [State.seqDone, State.modSeq, State.stepped, State.issued, h]

/-- An instruction that writes one scalar register. -/
theorem State.issueS_take {s : State} {pl : Plan} {i : Instr} {p : Pred} {rd : BitVec 4} (v : State → DWord)
    (h : s.Fetches pl i) (hp : s.takes p) :
    s.issueS i p rd v = s.stepped (fun q => { q with s := q.s.set rd.toNat (v s.issued) }) := by
  unfold State.issueS
  rw [State.issue_take _ h hp]
  simp [State.sset, State.seqDone, State.modSeq, State.stepped, State.issued, h.wait]

/-- An instruction that writes one address register. -/
theorem State.issueA_take {s : State} {pl : Plan} {i : Instr} {p : Pred} {ad : BitVec 3} (v : State → BitVec 48)
    (h : s.Fetches pl i) (hp : s.takes p) :
    s.issueA i p ad v = s.stepped (fun q => { q with a := q.a.set ad.toNat (v s.issued) }) := by
  unfold State.issueA
  rw [State.issue_take _ h hp]
  simp [State.aset, State.seqDone, State.modSeq, State.stepped, State.issued, h.wait]

/-- An instruction that writes one predicate register; p0 takes no write. -/
theorem State.issueP_take {s : State} {pl : Plan} {i : Instr} {p : Pred} {pd : BitVec 3} (v : State → Bool)
    (h : s.Fetches pl i) (hp : s.takes p) :
    s.issueP i p pd v = s.stepped (fun q => if pd = 0 then q else { q with p := q.p.set pd.toNat (v s.issued) }) := by
  unfold State.issueP
  rw [State.issue_take _ h hp]
  unfold State.pset
  split <;> simp [State.seqDone, State.modSeq, State.stepped, State.issued, h.wait]

end Sys2Proof.Machine
end

