-- ==== Sys2Proof/Laws/State.lean ====
section
/-! SUPPORT. What each basic update of the state leaves in each field. All true by `rfl`, so that no proof unfolds a record update. -/

namespace Sys2Proof.Machine

/-! `State.set` -/

@[simp] theorem State.set_pending (s : State) (f : Field) (v : Nat) : (s.set f v).pending = s.pending := rfl
@[simp] theorem State.set_regs (s : State) (f : Field) (v : Nat) : (s.set f v).regs = sparsePut f.reset s.regs f.key (v % 2 ^ f.width) := rfl
@[simp] theorem State.set_cpLatch (s : State) (f : Field) (v : Nat) : (s.set f v).cpLatch = s.cpLatch := rfl
@[simp] theorem State.set_dbgLatch (s : State) (f : Field) (v : Nat) : (s.set f v).dbgLatch = s.dbgLatch := rfl
@[simp] theorem State.set_clock (s : State) (f : Field) (v : Nat) : (s.set f v).clock = s.clock := rfl
@[simp] theorem State.set_pins (s : State) (f : Field) (v : Nat) : (s.set f v).pins = s.pins := rfl
@[simp] theorem State.set_fuses (s : State) (f : Field) (v : Nat) : (s.set f v).fuses = s.fuses := rfl
@[simp] theorem State.set_keeper (s : State) (f : Field) (v : Nat) : (s.set f v).keeper = s.keeper := rfl
@[simp] theorem State.set_mem (s : State) (f : Field) (v : Nat) : (s.set f v).mem = s.mem := rfl
@[simp] theorem State.set_wcb (s : State) (f : Field) (v : Nat) : (s.set f v).wcb = s.wcb := rfl
@[simp] theorem State.set_fault (s : State) (f : Field) (v : Nat) : (s.set f v).fault = s.fault := rfl
@[simp] theorem State.set_plan (s : State) (f : Field) (v : Nat) : (s.set f v).plan = s.plan := rfl
@[simp] theorem State.set_seq (s : State) (f : Field) (v : Nat) : (s.set f v).seq = s.seq := rfl
@[simp] theorem State.set_icache (s : State) (f : Field) (v : Nat) : (s.set f v).icache = s.icache := rfl
@[simp] theorem State.set_step (s : State) (f : Field) (v : Nat) : (s.set f v).step = s.step := rfl
@[simp] theorem State.set_exch (s : State) (f : Field) (v : Nat) : (s.set f v).exch = s.exch := rfl
@[simp] theorem State.set_dev (s : State) (f : Field) (v : Nat) : (s.set f v).dev = s.dev := rfl
@[simp] theorem State.set_regul (s : State) (f : Field) (v : Nat) : (s.set f v).regul = s.regul := rfl
@[simp] theorem State.set_tier (s : State) (f : Field) (v : Nat) : (s.set f v).tier = s.tier := rfl
@[simp] theorem State.set_log (s : State) (f : Field) (v : Nat) : (s.set f v).log = s.log := rfl
@[simp] theorem State.set_yarrow (s : State) (f : Field) (v : Nat) : (s.set f v).yarrow = s.yarrow := rfl
@[simp] theorem State.set_req (s : State) (f : Field) (v : Nat) : (s.set f v).req = s.req := rfl
@[simp] theorem State.set_waits (s : State) (f : Field) (v : Nat) : (s.set f v).waits = s.waits := rfl
@[simp] theorem State.set_freeCtr (s : State) (f : Field) (v : Nat) : (s.set f v).freeCtr = s.freeCtr := rfl
@[simp] theorem State.set_out (s : State) (f : Field) (v : Nat) : (s.set f v).out = s.out := rfl

/-! `State.setFlag` -/

@[simp] theorem State.setFlag_pending (s : State) (f : Field) (b : Bool) : (s.setFlag f b).pending = s.pending := rfl
@[simp] theorem State.setFlag_cpLatch (s : State) (f : Field) (b : Bool) : (s.setFlag f b).cpLatch = s.cpLatch := rfl
@[simp] theorem State.setFlag_dbgLatch (s : State) (f : Field) (b : Bool) : (s.setFlag f b).dbgLatch = s.dbgLatch := rfl
@[simp] theorem State.setFlag_clock (s : State) (f : Field) (b : Bool) : (s.setFlag f b).clock = s.clock := rfl
@[simp] theorem State.setFlag_pins (s : State) (f : Field) (b : Bool) : (s.setFlag f b).pins = s.pins := rfl
@[simp] theorem State.setFlag_fuses (s : State) (f : Field) (b : Bool) : (s.setFlag f b).fuses = s.fuses := rfl
@[simp] theorem State.setFlag_keeper (s : State) (f : Field) (b : Bool) : (s.setFlag f b).keeper = s.keeper := rfl
@[simp] theorem State.setFlag_mem (s : State) (f : Field) (b : Bool) : (s.setFlag f b).mem = s.mem := rfl
@[simp] theorem State.setFlag_wcb (s : State) (f : Field) (b : Bool) : (s.setFlag f b).wcb = s.wcb := rfl
@[simp] theorem State.setFlag_fault (s : State) (f : Field) (b : Bool) : (s.setFlag f b).fault = s.fault := rfl
@[simp] theorem State.setFlag_plan (s : State) (f : Field) (b : Bool) : (s.setFlag f b).plan = s.plan := rfl
@[simp] theorem State.setFlag_seq (s : State) (f : Field) (b : Bool) : (s.setFlag f b).seq = s.seq := rfl
@[simp] theorem State.setFlag_icache (s : State) (f : Field) (b : Bool) : (s.setFlag f b).icache = s.icache := rfl
@[simp] theorem State.setFlag_step (s : State) (f : Field) (b : Bool) : (s.setFlag f b).step = s.step := rfl
@[simp] theorem State.setFlag_exch (s : State) (f : Field) (b : Bool) : (s.setFlag f b).exch = s.exch := rfl
@[simp] theorem State.setFlag_dev (s : State) (f : Field) (b : Bool) : (s.setFlag f b).dev = s.dev := rfl
@[simp] theorem State.setFlag_regul (s : State) (f : Field) (b : Bool) : (s.setFlag f b).regul = s.regul := rfl
@[simp] theorem State.setFlag_tier (s : State) (f : Field) (b : Bool) : (s.setFlag f b).tier = s.tier := rfl
@[simp] theorem State.setFlag_log (s : State) (f : Field) (b : Bool) : (s.setFlag f b).log = s.log := rfl
@[simp] theorem State.setFlag_yarrow (s : State) (f : Field) (b : Bool) : (s.setFlag f b).yarrow = s.yarrow := rfl
@[simp] theorem State.setFlag_req (s : State) (f : Field) (b : Bool) : (s.setFlag f b).req = s.req := rfl
@[simp] theorem State.setFlag_waits (s : State) (f : Field) (b : Bool) : (s.setFlag f b).waits = s.waits := rfl
@[simp] theorem State.setFlag_freeCtr (s : State) (f : Field) (b : Bool) : (s.setFlag f b).freeCtr = s.freeCtr := rfl
@[simp] theorem State.setFlag_out (s : State) (f : Field) (b : Bool) : (s.setFlag f b).out = s.out := rfl

/-! `State.setBit` -/

@[simp] theorem State.setBit_pending (s : State) (f : Field) (n : Nat) (b : Bool) : (s.setBit f n b).pending = s.pending := rfl
@[simp] theorem State.setBit_cpLatch (s : State) (f : Field) (n : Nat) (b : Bool) : (s.setBit f n b).cpLatch = s.cpLatch := rfl
@[simp] theorem State.setBit_dbgLatch (s : State) (f : Field) (n : Nat) (b : Bool) : (s.setBit f n b).dbgLatch = s.dbgLatch := rfl
@[simp] theorem State.setBit_clock (s : State) (f : Field) (n : Nat) (b : Bool) : (s.setBit f n b).clock = s.clock := rfl
@[simp] theorem State.setBit_pins (s : State) (f : Field) (n : Nat) (b : Bool) : (s.setBit f n b).pins = s.pins := rfl
@[simp] theorem State.setBit_fuses (s : State) (f : Field) (n : Nat) (b : Bool) : (s.setBit f n b).fuses = s.fuses := rfl
@[simp] theorem State.setBit_keeper (s : State) (f : Field) (n : Nat) (b : Bool) : (s.setBit f n b).keeper = s.keeper := rfl
@[simp] theorem State.setBit_mem (s : State) (f : Field) (n : Nat) (b : Bool) : (s.setBit f n b).mem = s.mem := rfl
@[simp] theorem State.setBit_wcb (s : State) (f : Field) (n : Nat) (b : Bool) : (s.setBit f n b).wcb = s.wcb := rfl
@[simp] theorem State.setBit_fault (s : State) (f : Field) (n : Nat) (b : Bool) : (s.setBit f n b).fault = s.fault := rfl
@[simp] theorem State.setBit_plan (s : State) (f : Field) (n : Nat) (b : Bool) : (s.setBit f n b).plan = s.plan := rfl
@[simp] theorem State.setBit_seq (s : State) (f : Field) (n : Nat) (b : Bool) : (s.setBit f n b).seq = s.seq := rfl
@[simp] theorem State.setBit_icache (s : State) (f : Field) (n : Nat) (b : Bool) : (s.setBit f n b).icache = s.icache := rfl
@[simp] theorem State.setBit_step (s : State) (f : Field) (n : Nat) (b : Bool) : (s.setBit f n b).step = s.step := rfl
@[simp] theorem State.setBit_exch (s : State) (f : Field) (n : Nat) (b : Bool) : (s.setBit f n b).exch = s.exch := rfl
@[simp] theorem State.setBit_dev (s : State) (f : Field) (n : Nat) (b : Bool) : (s.setBit f n b).dev = s.dev := rfl
@[simp] theorem State.setBit_regul (s : State) (f : Field) (n : Nat) (b : Bool) : (s.setBit f n b).regul = s.regul := rfl
@[simp] theorem State.setBit_tier (s : State) (f : Field) (n : Nat) (b : Bool) : (s.setBit f n b).tier = s.tier := rfl
@[simp] theorem State.setBit_log (s : State) (f : Field) (n : Nat) (b : Bool) : (s.setBit f n b).log = s.log := rfl
@[simp] theorem State.setBit_yarrow (s : State) (f : Field) (n : Nat) (b : Bool) : (s.setBit f n b).yarrow = s.yarrow := rfl
@[simp] theorem State.setBit_req (s : State) (f : Field) (n : Nat) (b : Bool) : (s.setBit f n b).req = s.req := rfl
@[simp] theorem State.setBit_waits (s : State) (f : Field) (n : Nat) (b : Bool) : (s.setBit f n b).waits = s.waits := rfl
@[simp] theorem State.setBit_freeCtr (s : State) (f : Field) (n : Nat) (b : Bool) : (s.setBit f n b).freeCtr = s.freeCtr := rfl
@[simp] theorem State.setBit_out (s : State) (f : Field) (n : Nat) (b : Bool) : (s.setBit f n b).out = s.out := rfl

/-! `State.set64` -/

@[simp] theorem State.set64_pending (s : State) (lo hi : Field) (v : Nat) : (s.set64 lo hi v).pending = s.pending := rfl
@[simp] theorem State.set64_cpLatch (s : State) (lo hi : Field) (v : Nat) : (s.set64 lo hi v).cpLatch = s.cpLatch := rfl
@[simp] theorem State.set64_dbgLatch (s : State) (lo hi : Field) (v : Nat) : (s.set64 lo hi v).dbgLatch = s.dbgLatch := rfl
@[simp] theorem State.set64_clock (s : State) (lo hi : Field) (v : Nat) : (s.set64 lo hi v).clock = s.clock := rfl
@[simp] theorem State.set64_pins (s : State) (lo hi : Field) (v : Nat) : (s.set64 lo hi v).pins = s.pins := rfl
@[simp] theorem State.set64_fuses (s : State) (lo hi : Field) (v : Nat) : (s.set64 lo hi v).fuses = s.fuses := rfl
@[simp] theorem State.set64_keeper (s : State) (lo hi : Field) (v : Nat) : (s.set64 lo hi v).keeper = s.keeper := rfl
@[simp] theorem State.set64_mem (s : State) (lo hi : Field) (v : Nat) : (s.set64 lo hi v).mem = s.mem := rfl
@[simp] theorem State.set64_wcb (s : State) (lo hi : Field) (v : Nat) : (s.set64 lo hi v).wcb = s.wcb := rfl
@[simp] theorem State.set64_fault (s : State) (lo hi : Field) (v : Nat) : (s.set64 lo hi v).fault = s.fault := rfl
@[simp] theorem State.set64_plan (s : State) (lo hi : Field) (v : Nat) : (s.set64 lo hi v).plan = s.plan := rfl
@[simp] theorem State.set64_seq (s : State) (lo hi : Field) (v : Nat) : (s.set64 lo hi v).seq = s.seq := rfl
@[simp] theorem State.set64_icache (s : State) (lo hi : Field) (v : Nat) : (s.set64 lo hi v).icache = s.icache := rfl
@[simp] theorem State.set64_step (s : State) (lo hi : Field) (v : Nat) : (s.set64 lo hi v).step = s.step := rfl
@[simp] theorem State.set64_exch (s : State) (lo hi : Field) (v : Nat) : (s.set64 lo hi v).exch = s.exch := rfl
@[simp] theorem State.set64_dev (s : State) (lo hi : Field) (v : Nat) : (s.set64 lo hi v).dev = s.dev := rfl
@[simp] theorem State.set64_regul (s : State) (lo hi : Field) (v : Nat) : (s.set64 lo hi v).regul = s.regul := rfl
@[simp] theorem State.set64_tier (s : State) (lo hi : Field) (v : Nat) : (s.set64 lo hi v).tier = s.tier := rfl
@[simp] theorem State.set64_log (s : State) (lo hi : Field) (v : Nat) : (s.set64 lo hi v).log = s.log := rfl
@[simp] theorem State.set64_yarrow (s : State) (lo hi : Field) (v : Nat) : (s.set64 lo hi v).yarrow = s.yarrow := rfl
@[simp] theorem State.set64_req (s : State) (lo hi : Field) (v : Nat) : (s.set64 lo hi v).req = s.req := rfl
@[simp] theorem State.set64_waits (s : State) (lo hi : Field) (v : Nat) : (s.set64 lo hi v).waits = s.waits := rfl
@[simp] theorem State.set64_freeCtr (s : State) (lo hi : Field) (v : Nat) : (s.set64 lo hi v).freeCtr = s.freeCtr := rfl
@[simp] theorem State.set64_out (s : State) (lo hi : Field) (v : Nat) : (s.set64 lo hi v).out = s.out := rfl

/-! `State.bump` -/

@[simp] theorem State.bump_pending (s : State) (f : Field) (n : Nat) : (s.bump f n).pending = s.pending := rfl
@[simp] theorem State.bump_cpLatch (s : State) (f : Field) (n : Nat) : (s.bump f n).cpLatch = s.cpLatch := rfl
@[simp] theorem State.bump_dbgLatch (s : State) (f : Field) (n : Nat) : (s.bump f n).dbgLatch = s.dbgLatch := rfl
@[simp] theorem State.bump_clock (s : State) (f : Field) (n : Nat) : (s.bump f n).clock = s.clock := rfl
@[simp] theorem State.bump_pins (s : State) (f : Field) (n : Nat) : (s.bump f n).pins = s.pins := rfl
@[simp] theorem State.bump_fuses (s : State) (f : Field) (n : Nat) : (s.bump f n).fuses = s.fuses := rfl
@[simp] theorem State.bump_keeper (s : State) (f : Field) (n : Nat) : (s.bump f n).keeper = s.keeper := rfl
@[simp] theorem State.bump_mem (s : State) (f : Field) (n : Nat) : (s.bump f n).mem = s.mem := rfl
@[simp] theorem State.bump_wcb (s : State) (f : Field) (n : Nat) : (s.bump f n).wcb = s.wcb := rfl
@[simp] theorem State.bump_fault (s : State) (f : Field) (n : Nat) : (s.bump f n).fault = s.fault := rfl
@[simp] theorem State.bump_plan (s : State) (f : Field) (n : Nat) : (s.bump f n).plan = s.plan := rfl
@[simp] theorem State.bump_seq (s : State) (f : Field) (n : Nat) : (s.bump f n).seq = s.seq := rfl
@[simp] theorem State.bump_icache (s : State) (f : Field) (n : Nat) : (s.bump f n).icache = s.icache := rfl
@[simp] theorem State.bump_step (s : State) (f : Field) (n : Nat) : (s.bump f n).step = s.step := rfl
@[simp] theorem State.bump_exch (s : State) (f : Field) (n : Nat) : (s.bump f n).exch = s.exch := rfl
@[simp] theorem State.bump_dev (s : State) (f : Field) (n : Nat) : (s.bump f n).dev = s.dev := rfl
@[simp] theorem State.bump_regul (s : State) (f : Field) (n : Nat) : (s.bump f n).regul = s.regul := rfl
@[simp] theorem State.bump_tier (s : State) (f : Field) (n : Nat) : (s.bump f n).tier = s.tier := rfl
@[simp] theorem State.bump_log (s : State) (f : Field) (n : Nat) : (s.bump f n).log = s.log := rfl
@[simp] theorem State.bump_yarrow (s : State) (f : Field) (n : Nat) : (s.bump f n).yarrow = s.yarrow := rfl
@[simp] theorem State.bump_req (s : State) (f : Field) (n : Nat) : (s.bump f n).req = s.req := rfl
@[simp] theorem State.bump_waits (s : State) (f : Field) (n : Nat) : (s.bump f n).waits = s.waits := rfl
@[simp] theorem State.bump_freeCtr (s : State) (f : Field) (n : Nat) : (s.bump f n).freeCtr = s.freeCtr := rfl
@[simp] theorem State.bump_out (s : State) (f : Field) (n : Nat) : (s.bump f n).out = s.out := rfl

/-! `State.raise` -/

@[simp] theorem State.raise_pending (s : State) (n : Nat) : (s.raise n).pending = s.pending := rfl
@[simp] theorem State.raise_cpLatch (s : State) (n : Nat) : (s.raise n).cpLatch = s.cpLatch := rfl
@[simp] theorem State.raise_dbgLatch (s : State) (n : Nat) : (s.raise n).dbgLatch = s.dbgLatch := rfl
@[simp] theorem State.raise_clock (s : State) (n : Nat) : (s.raise n).clock = s.clock := rfl
@[simp] theorem State.raise_pins (s : State) (n : Nat) : (s.raise n).pins = s.pins := rfl
@[simp] theorem State.raise_fuses (s : State) (n : Nat) : (s.raise n).fuses = s.fuses := rfl
@[simp] theorem State.raise_keeper (s : State) (n : Nat) : (s.raise n).keeper = s.keeper := rfl
@[simp] theorem State.raise_mem (s : State) (n : Nat) : (s.raise n).mem = s.mem := rfl
@[simp] theorem State.raise_wcb (s : State) (n : Nat) : (s.raise n).wcb = s.wcb := rfl
@[simp] theorem State.raise_fault (s : State) (n : Nat) : (s.raise n).fault = s.fault := rfl
@[simp] theorem State.raise_plan (s : State) (n : Nat) : (s.raise n).plan = s.plan := rfl
@[simp] theorem State.raise_seq (s : State) (n : Nat) : (s.raise n).seq = s.seq := rfl
@[simp] theorem State.raise_icache (s : State) (n : Nat) : (s.raise n).icache = s.icache := rfl
@[simp] theorem State.raise_step (s : State) (n : Nat) : (s.raise n).step = s.step := rfl
@[simp] theorem State.raise_exch (s : State) (n : Nat) : (s.raise n).exch = s.exch := rfl
@[simp] theorem State.raise_dev (s : State) (n : Nat) : (s.raise n).dev = s.dev := rfl
@[simp] theorem State.raise_regul (s : State) (n : Nat) : (s.raise n).regul = s.regul := rfl
@[simp] theorem State.raise_tier (s : State) (n : Nat) : (s.raise n).tier = s.tier := rfl
@[simp] theorem State.raise_log (s : State) (n : Nat) : (s.raise n).log = s.log := rfl
@[simp] theorem State.raise_yarrow (s : State) (n : Nat) : (s.raise n).yarrow = s.yarrow := rfl
@[simp] theorem State.raise_req (s : State) (n : Nat) : (s.raise n).req = s.req := rfl
@[simp] theorem State.raise_waits (s : State) (n : Nat) : (s.raise n).waits = s.waits := rfl
@[simp] theorem State.raise_freeCtr (s : State) (n : Nat) : (s.raise n).freeCtr = s.freeCtr := rfl
@[simp] theorem State.raise_out (s : State) (n : Nat) : (s.raise n).out = s.out := rfl

/-! `State.emit` -/

@[simp] theorem State.emit_pending (s : State) (o : Out) : (s.emit o).pending = s.pending := rfl
@[simp] theorem State.emit_regs (s : State) (o : Out) : (s.emit o).regs = s.regs := rfl
@[simp] theorem State.emit_cpLatch (s : State) (o : Out) : (s.emit o).cpLatch = s.cpLatch := rfl
@[simp] theorem State.emit_dbgLatch (s : State) (o : Out) : (s.emit o).dbgLatch = s.dbgLatch := rfl
@[simp] theorem State.emit_clock (s : State) (o : Out) : (s.emit o).clock = s.clock := rfl
@[simp] theorem State.emit_pins (s : State) (o : Out) : (s.emit o).pins = s.pins := rfl
@[simp] theorem State.emit_fuses (s : State) (o : Out) : (s.emit o).fuses = s.fuses := rfl
@[simp] theorem State.emit_keeper (s : State) (o : Out) : (s.emit o).keeper = s.keeper := rfl
@[simp] theorem State.emit_mem (s : State) (o : Out) : (s.emit o).mem = s.mem := rfl
@[simp] theorem State.emit_wcb (s : State) (o : Out) : (s.emit o).wcb = s.wcb := rfl
@[simp] theorem State.emit_fault (s : State) (o : Out) : (s.emit o).fault = s.fault := rfl
@[simp] theorem State.emit_plan (s : State) (o : Out) : (s.emit o).plan = s.plan := rfl
@[simp] theorem State.emit_seq (s : State) (o : Out) : (s.emit o).seq = s.seq := rfl
@[simp] theorem State.emit_icache (s : State) (o : Out) : (s.emit o).icache = s.icache := rfl
@[simp] theorem State.emit_step (s : State) (o : Out) : (s.emit o).step = s.step := rfl
@[simp] theorem State.emit_exch (s : State) (o : Out) : (s.emit o).exch = s.exch := rfl
@[simp] theorem State.emit_dev (s : State) (o : Out) : (s.emit o).dev = s.dev := rfl
@[simp] theorem State.emit_regul (s : State) (o : Out) : (s.emit o).regul = s.regul := rfl
@[simp] theorem State.emit_tier (s : State) (o : Out) : (s.emit o).tier = s.tier := rfl
@[simp] theorem State.emit_log (s : State) (o : Out) : (s.emit o).log = s.log := rfl
@[simp] theorem State.emit_yarrow (s : State) (o : Out) : (s.emit o).yarrow = s.yarrow := rfl
@[simp] theorem State.emit_req (s : State) (o : Out) : (s.emit o).req = s.req := rfl
@[simp] theorem State.emit_waits (s : State) (o : Out) : (s.emit o).waits = s.waits := rfl
@[simp] theorem State.emit_freeCtr (s : State) (o : Out) : (s.emit o).freeCtr = s.freeCtr := rfl
@[simp] theorem State.emit_out (s : State) (o : Out) : (s.emit o).out = s.out ++ [o] := rfl
@[simp] theorem State.emit_get (s : State) (o : Out) (x : Field) : (s.emit o).get x = s.get x := rfl

/-! `State.free` -/

@[simp] theorem State.free_pending (s : State) : (s.free.2).pending = s.pending := rfl
@[simp] theorem State.free_regs (s : State) : (s.free.2).regs = s.regs := rfl
@[simp] theorem State.free_cpLatch (s : State) : (s.free.2).cpLatch = s.cpLatch := rfl
@[simp] theorem State.free_dbgLatch (s : State) : (s.free.2).dbgLatch = s.dbgLatch := rfl
@[simp] theorem State.free_clock (s : State) : (s.free.2).clock = s.clock := rfl
@[simp] theorem State.free_pins (s : State) : (s.free.2).pins = s.pins := rfl
@[simp] theorem State.free_fuses (s : State) : (s.free.2).fuses = s.fuses := rfl
@[simp] theorem State.free_keeper (s : State) : (s.free.2).keeper = s.keeper := rfl
@[simp] theorem State.free_mem (s : State) : (s.free.2).mem = s.mem := rfl
@[simp] theorem State.free_wcb (s : State) : (s.free.2).wcb = s.wcb := rfl
@[simp] theorem State.free_fault (s : State) : (s.free.2).fault = s.fault := rfl
@[simp] theorem State.free_plan (s : State) : (s.free.2).plan = s.plan := rfl
@[simp] theorem State.free_seq (s : State) : (s.free.2).seq = s.seq := rfl
@[simp] theorem State.free_icache (s : State) : (s.free.2).icache = s.icache := rfl
@[simp] theorem State.free_step (s : State) : (s.free.2).step = s.step := rfl
@[simp] theorem State.free_exch (s : State) : (s.free.2).exch = s.exch := rfl
@[simp] theorem State.free_dev (s : State) : (s.free.2).dev = s.dev := rfl
@[simp] theorem State.free_regul (s : State) : (s.free.2).regul = s.regul := rfl
@[simp] theorem State.free_tier (s : State) : (s.free.2).tier = s.tier := rfl
@[simp] theorem State.free_log (s : State) : (s.free.2).log = s.log := rfl
@[simp] theorem State.free_yarrow (s : State) : (s.free.2).yarrow = s.yarrow := rfl
@[simp] theorem State.free_req (s : State) : (s.free.2).req = s.req := rfl
@[simp] theorem State.free_waits (s : State) : (s.free.2).waits = s.waits := rfl
@[simp] theorem State.free_freeCtr (s : State) : (s.free.2).freeCtr = s.freeCtr + 1 := rfl
@[simp] theorem State.free_out (s : State) : (s.free.2).out = s.out := rfl
@[simp] theorem State.free_get (s : State) (x : Field) : (s.free.2).get x = s.get x := rfl

/-! `State.modStep` -/

@[simp] theorem State.modStep_pending (s : State) (f : StepState → StepState) : (s.modStep f).pending = s.pending := rfl
@[simp] theorem State.modStep_regs (s : State) (f : StepState → StepState) : (s.modStep f).regs = s.regs := rfl
@[simp] theorem State.modStep_cpLatch (s : State) (f : StepState → StepState) : (s.modStep f).cpLatch = s.cpLatch := rfl
@[simp] theorem State.modStep_dbgLatch (s : State) (f : StepState → StepState) : (s.modStep f).dbgLatch = s.dbgLatch := rfl
@[simp] theorem State.modStep_clock (s : State) (f : StepState → StepState) : (s.modStep f).clock = s.clock := rfl
@[simp] theorem State.modStep_pins (s : State) (f : StepState → StepState) : (s.modStep f).pins = s.pins := rfl
@[simp] theorem State.modStep_fuses (s : State) (f : StepState → StepState) : (s.modStep f).fuses = s.fuses := rfl
@[simp] theorem State.modStep_keeper (s : State) (f : StepState → StepState) : (s.modStep f).keeper = s.keeper := rfl
@[simp] theorem State.modStep_mem (s : State) (f : StepState → StepState) : (s.modStep f).mem = s.mem := rfl
@[simp] theorem State.modStep_wcb (s : State) (f : StepState → StepState) : (s.modStep f).wcb = s.wcb := rfl
@[simp] theorem State.modStep_fault (s : State) (f : StepState → StepState) : (s.modStep f).fault = s.fault := rfl
@[simp] theorem State.modStep_plan (s : State) (f : StepState → StepState) : (s.modStep f).plan = s.plan := rfl
@[simp] theorem State.modStep_seq (s : State) (f : StepState → StepState) : (s.modStep f).seq = s.seq := rfl
@[simp] theorem State.modStep_icache (s : State) (f : StepState → StepState) : (s.modStep f).icache = s.icache := rfl
@[simp] theorem State.modStep_step (s : State) (f : StepState → StepState) : (s.modStep f).step = f s.step := rfl
@[simp] theorem State.modStep_exch (s : State) (f : StepState → StepState) : (s.modStep f).exch = s.exch := rfl
@[simp] theorem State.modStep_dev (s : State) (f : StepState → StepState) : (s.modStep f).dev = s.dev := rfl
@[simp] theorem State.modStep_regul (s : State) (f : StepState → StepState) : (s.modStep f).regul = s.regul := rfl
@[simp] theorem State.modStep_tier (s : State) (f : StepState → StepState) : (s.modStep f).tier = s.tier := rfl
@[simp] theorem State.modStep_log (s : State) (f : StepState → StepState) : (s.modStep f).log = s.log := rfl
@[simp] theorem State.modStep_yarrow (s : State) (f : StepState → StepState) : (s.modStep f).yarrow = s.yarrow := rfl
@[simp] theorem State.modStep_req (s : State) (f : StepState → StepState) : (s.modStep f).req = s.req := rfl
@[simp] theorem State.modStep_waits (s : State) (f : StepState → StepState) : (s.modStep f).waits = s.waits := rfl
@[simp] theorem State.modStep_freeCtr (s : State) (f : StepState → StepState) : (s.modStep f).freeCtr = s.freeCtr := rfl
@[simp] theorem State.modStep_out (s : State) (f : StepState → StepState) : (s.modStep f).out = s.out := rfl
@[simp] theorem State.modStep_get (s : State) (f : StepState → StepState) (x : Field) : (s.modStep f).get x = s.get x := rfl

/-! `State.modSeq` -/

@[simp] theorem State.modSeq_pending (s : State) (f : Seq → Seq) : (s.modSeq f).pending = s.pending := rfl
@[simp] theorem State.modSeq_regs (s : State) (f : Seq → Seq) : (s.modSeq f).regs = s.regs := rfl
@[simp] theorem State.modSeq_cpLatch (s : State) (f : Seq → Seq) : (s.modSeq f).cpLatch = s.cpLatch := rfl
@[simp] theorem State.modSeq_dbgLatch (s : State) (f : Seq → Seq) : (s.modSeq f).dbgLatch = s.dbgLatch := rfl
@[simp] theorem State.modSeq_clock (s : State) (f : Seq → Seq) : (s.modSeq f).clock = s.clock := rfl
@[simp] theorem State.modSeq_pins (s : State) (f : Seq → Seq) : (s.modSeq f).pins = s.pins := rfl
@[simp] theorem State.modSeq_fuses (s : State) (f : Seq → Seq) : (s.modSeq f).fuses = s.fuses := rfl
@[simp] theorem State.modSeq_keeper (s : State) (f : Seq → Seq) : (s.modSeq f).keeper = s.keeper := rfl
@[simp] theorem State.modSeq_mem (s : State) (f : Seq → Seq) : (s.modSeq f).mem = s.mem := rfl
@[simp] theorem State.modSeq_wcb (s : State) (f : Seq → Seq) : (s.modSeq f).wcb = s.wcb := rfl
@[simp] theorem State.modSeq_fault (s : State) (f : Seq → Seq) : (s.modSeq f).fault = s.fault := rfl
@[simp] theorem State.modSeq_plan (s : State) (f : Seq → Seq) : (s.modSeq f).plan = s.plan := rfl
@[simp] theorem State.modSeq_seq (s : State) (f : Seq → Seq) : (s.modSeq f).seq = f s.seq := rfl
@[simp] theorem State.modSeq_icache (s : State) (f : Seq → Seq) : (s.modSeq f).icache = s.icache := rfl
@[simp] theorem State.modSeq_step (s : State) (f : Seq → Seq) : (s.modSeq f).step = s.step := rfl
@[simp] theorem State.modSeq_exch (s : State) (f : Seq → Seq) : (s.modSeq f).exch = s.exch := rfl
@[simp] theorem State.modSeq_dev (s : State) (f : Seq → Seq) : (s.modSeq f).dev = s.dev := rfl
@[simp] theorem State.modSeq_regul (s : State) (f : Seq → Seq) : (s.modSeq f).regul = s.regul := rfl
@[simp] theorem State.modSeq_tier (s : State) (f : Seq → Seq) : (s.modSeq f).tier = s.tier := rfl
@[simp] theorem State.modSeq_log (s : State) (f : Seq → Seq) : (s.modSeq f).log = s.log := rfl
@[simp] theorem State.modSeq_yarrow (s : State) (f : Seq → Seq) : (s.modSeq f).yarrow = s.yarrow := rfl
@[simp] theorem State.modSeq_req (s : State) (f : Seq → Seq) : (s.modSeq f).req = s.req := rfl
@[simp] theorem State.modSeq_waits (s : State) (f : Seq → Seq) : (s.modSeq f).waits = s.waits := rfl
@[simp] theorem State.modSeq_freeCtr (s : State) (f : Seq → Seq) : (s.modSeq f).freeCtr = s.freeCtr := rfl
@[simp] theorem State.modSeq_out (s : State) (f : Seq → Seq) : (s.modSeq f).out = s.out := rfl
@[simp] theorem State.modSeq_get (s : State) (f : Seq → Seq) (x : Field) : (s.modSeq f).get x = s.get x := rfl

/-! `State.modExch` -/

@[simp] theorem State.modExch_pending (s : State) (f : Exchange → Exchange) : (s.modExch f).pending = s.pending := rfl
@[simp] theorem State.modExch_regs (s : State) (f : Exchange → Exchange) : (s.modExch f).regs = s.regs := rfl
@[simp] theorem State.modExch_cpLatch (s : State) (f : Exchange → Exchange) : (s.modExch f).cpLatch = s.cpLatch := rfl
@[simp] theorem State.modExch_dbgLatch (s : State) (f : Exchange → Exchange) : (s.modExch f).dbgLatch = s.dbgLatch := rfl
@[simp] theorem State.modExch_clock (s : State) (f : Exchange → Exchange) : (s.modExch f).clock = s.clock := rfl
@[simp] theorem State.modExch_pins (s : State) (f : Exchange → Exchange) : (s.modExch f).pins = s.pins := rfl
@[simp] theorem State.modExch_fuses (s : State) (f : Exchange → Exchange) : (s.modExch f).fuses = s.fuses := rfl
@[simp] theorem State.modExch_keeper (s : State) (f : Exchange → Exchange) : (s.modExch f).keeper = s.keeper := rfl
@[simp] theorem State.modExch_mem (s : State) (f : Exchange → Exchange) : (s.modExch f).mem = s.mem := rfl
@[simp] theorem State.modExch_wcb (s : State) (f : Exchange → Exchange) : (s.modExch f).wcb = s.wcb := rfl
@[simp] theorem State.modExch_fault (s : State) (f : Exchange → Exchange) : (s.modExch f).fault = s.fault := rfl
@[simp] theorem State.modExch_plan (s : State) (f : Exchange → Exchange) : (s.modExch f).plan = s.plan := rfl
@[simp] theorem State.modExch_seq (s : State) (f : Exchange → Exchange) : (s.modExch f).seq = s.seq := rfl
@[simp] theorem State.modExch_icache (s : State) (f : Exchange → Exchange) : (s.modExch f).icache = s.icache := rfl
@[simp] theorem State.modExch_step (s : State) (f : Exchange → Exchange) : (s.modExch f).step = s.step := rfl
@[simp] theorem State.modExch_exch (s : State) (f : Exchange → Exchange) : (s.modExch f).exch = f s.exch := rfl
@[simp] theorem State.modExch_dev (s : State) (f : Exchange → Exchange) : (s.modExch f).dev = s.dev := rfl
@[simp] theorem State.modExch_regul (s : State) (f : Exchange → Exchange) : (s.modExch f).regul = s.regul := rfl
@[simp] theorem State.modExch_tier (s : State) (f : Exchange → Exchange) : (s.modExch f).tier = s.tier := rfl
@[simp] theorem State.modExch_log (s : State) (f : Exchange → Exchange) : (s.modExch f).log = s.log := rfl
@[simp] theorem State.modExch_yarrow (s : State) (f : Exchange → Exchange) : (s.modExch f).yarrow = s.yarrow := rfl
@[simp] theorem State.modExch_req (s : State) (f : Exchange → Exchange) : (s.modExch f).req = s.req := rfl
@[simp] theorem State.modExch_waits (s : State) (f : Exchange → Exchange) : (s.modExch f).waits = s.waits := rfl
@[simp] theorem State.modExch_freeCtr (s : State) (f : Exchange → Exchange) : (s.modExch f).freeCtr = s.freeCtr := rfl
@[simp] theorem State.modExch_out (s : State) (f : Exchange → Exchange) : (s.modExch f).out = s.out := rfl
@[simp] theorem State.modExch_get (s : State) (f : Exchange → Exchange) (x : Field) : (s.modExch f).get x = s.get x := rfl

/-! `State.modTier` -/

@[simp] theorem State.modTier_pending (s : State) (f : TierState → TierState) : (s.modTier f).pending = s.pending := rfl
@[simp] theorem State.modTier_regs (s : State) (f : TierState → TierState) : (s.modTier f).regs = s.regs := rfl
@[simp] theorem State.modTier_cpLatch (s : State) (f : TierState → TierState) : (s.modTier f).cpLatch = s.cpLatch := rfl
@[simp] theorem State.modTier_dbgLatch (s : State) (f : TierState → TierState) : (s.modTier f).dbgLatch = s.dbgLatch := rfl
@[simp] theorem State.modTier_clock (s : State) (f : TierState → TierState) : (s.modTier f).clock = s.clock := rfl
@[simp] theorem State.modTier_pins (s : State) (f : TierState → TierState) : (s.modTier f).pins = s.pins := rfl
@[simp] theorem State.modTier_fuses (s : State) (f : TierState → TierState) : (s.modTier f).fuses = s.fuses := rfl
@[simp] theorem State.modTier_keeper (s : State) (f : TierState → TierState) : (s.modTier f).keeper = s.keeper := rfl
@[simp] theorem State.modTier_mem (s : State) (f : TierState → TierState) : (s.modTier f).mem = s.mem := rfl
@[simp] theorem State.modTier_wcb (s : State) (f : TierState → TierState) : (s.modTier f).wcb = s.wcb := rfl
@[simp] theorem State.modTier_fault (s : State) (f : TierState → TierState) : (s.modTier f).fault = s.fault := rfl
@[simp] theorem State.modTier_plan (s : State) (f : TierState → TierState) : (s.modTier f).plan = s.plan := rfl
@[simp] theorem State.modTier_seq (s : State) (f : TierState → TierState) : (s.modTier f).seq = s.seq := rfl
@[simp] theorem State.modTier_icache (s : State) (f : TierState → TierState) : (s.modTier f).icache = s.icache := rfl
@[simp] theorem State.modTier_step (s : State) (f : TierState → TierState) : (s.modTier f).step = s.step := rfl
@[simp] theorem State.modTier_exch (s : State) (f : TierState → TierState) : (s.modTier f).exch = s.exch := rfl
@[simp] theorem State.modTier_dev (s : State) (f : TierState → TierState) : (s.modTier f).dev = s.dev := rfl
@[simp] theorem State.modTier_regul (s : State) (f : TierState → TierState) : (s.modTier f).regul = s.regul := rfl
@[simp] theorem State.modTier_tier (s : State) (f : TierState → TierState) : (s.modTier f).tier = f s.tier := rfl
@[simp] theorem State.modTier_log (s : State) (f : TierState → TierState) : (s.modTier f).log = s.log := rfl
@[simp] theorem State.modTier_yarrow (s : State) (f : TierState → TierState) : (s.modTier f).yarrow = s.yarrow := rfl
@[simp] theorem State.modTier_req (s : State) (f : TierState → TierState) : (s.modTier f).req = s.req := rfl
@[simp] theorem State.modTier_waits (s : State) (f : TierState → TierState) : (s.modTier f).waits = s.waits := rfl
@[simp] theorem State.modTier_freeCtr (s : State) (f : TierState → TierState) : (s.modTier f).freeCtr = s.freeCtr := rfl
@[simp] theorem State.modTier_out (s : State) (f : TierState → TierState) : (s.modTier f).out = s.out := rfl
@[simp] theorem State.modTier_get (s : State) (f : TierState → TierState) (x : Field) : (s.modTier f).get x = s.get x := rfl

/-! `State.modReq` -/

@[simp] theorem State.modReq_pending (s : State) (f : Requests → Requests) : (s.modReq f).pending = s.pending := rfl
@[simp] theorem State.modReq_regs (s : State) (f : Requests → Requests) : (s.modReq f).regs = s.regs := rfl
@[simp] theorem State.modReq_cpLatch (s : State) (f : Requests → Requests) : (s.modReq f).cpLatch = s.cpLatch := rfl
@[simp] theorem State.modReq_dbgLatch (s : State) (f : Requests → Requests) : (s.modReq f).dbgLatch = s.dbgLatch := rfl
@[simp] theorem State.modReq_clock (s : State) (f : Requests → Requests) : (s.modReq f).clock = s.clock := rfl
@[simp] theorem State.modReq_pins (s : State) (f : Requests → Requests) : (s.modReq f).pins = s.pins := rfl
@[simp] theorem State.modReq_fuses (s : State) (f : Requests → Requests) : (s.modReq f).fuses = s.fuses := rfl
@[simp] theorem State.modReq_keeper (s : State) (f : Requests → Requests) : (s.modReq f).keeper = s.keeper := rfl
@[simp] theorem State.modReq_mem (s : State) (f : Requests → Requests) : (s.modReq f).mem = s.mem := rfl
@[simp] theorem State.modReq_wcb (s : State) (f : Requests → Requests) : (s.modReq f).wcb = s.wcb := rfl
@[simp] theorem State.modReq_fault (s : State) (f : Requests → Requests) : (s.modReq f).fault = s.fault := rfl
@[simp] theorem State.modReq_plan (s : State) (f : Requests → Requests) : (s.modReq f).plan = s.plan := rfl
@[simp] theorem State.modReq_seq (s : State) (f : Requests → Requests) : (s.modReq f).seq = s.seq := rfl
@[simp] theorem State.modReq_icache (s : State) (f : Requests → Requests) : (s.modReq f).icache = s.icache := rfl
@[simp] theorem State.modReq_step (s : State) (f : Requests → Requests) : (s.modReq f).step = s.step := rfl
@[simp] theorem State.modReq_exch (s : State) (f : Requests → Requests) : (s.modReq f).exch = s.exch := rfl
@[simp] theorem State.modReq_dev (s : State) (f : Requests → Requests) : (s.modReq f).dev = s.dev := rfl
@[simp] theorem State.modReq_regul (s : State) (f : Requests → Requests) : (s.modReq f).regul = s.regul := rfl
@[simp] theorem State.modReq_tier (s : State) (f : Requests → Requests) : (s.modReq f).tier = s.tier := rfl
@[simp] theorem State.modReq_log (s : State) (f : Requests → Requests) : (s.modReq f).log = s.log := rfl
@[simp] theorem State.modReq_yarrow (s : State) (f : Requests → Requests) : (s.modReq f).yarrow = s.yarrow := rfl
@[simp] theorem State.modReq_req (s : State) (f : Requests → Requests) : (s.modReq f).req = f s.req := rfl
@[simp] theorem State.modReq_waits (s : State) (f : Requests → Requests) : (s.modReq f).waits = s.waits := rfl
@[simp] theorem State.modReq_freeCtr (s : State) (f : Requests → Requests) : (s.modReq f).freeCtr = s.freeCtr := rfl
@[simp] theorem State.modReq_out (s : State) (f : Requests → Requests) : (s.modReq f).out = s.out := rfl
@[simp] theorem State.modReq_get (s : State) (f : Requests → Requests) (x : Field) : (s.modReq f).get x = s.get x := rfl

/-! `State.modLog` -/

@[simp] theorem State.modLog_pending (s : State) (f : StepLog → StepLog) : (s.modLog f).pending = s.pending := rfl
@[simp] theorem State.modLog_regs (s : State) (f : StepLog → StepLog) : (s.modLog f).regs = s.regs := rfl
@[simp] theorem State.modLog_cpLatch (s : State) (f : StepLog → StepLog) : (s.modLog f).cpLatch = s.cpLatch := rfl
@[simp] theorem State.modLog_dbgLatch (s : State) (f : StepLog → StepLog) : (s.modLog f).dbgLatch = s.dbgLatch := rfl
@[simp] theorem State.modLog_clock (s : State) (f : StepLog → StepLog) : (s.modLog f).clock = s.clock := rfl
@[simp] theorem State.modLog_pins (s : State) (f : StepLog → StepLog) : (s.modLog f).pins = s.pins := rfl
@[simp] theorem State.modLog_fuses (s : State) (f : StepLog → StepLog) : (s.modLog f).fuses = s.fuses := rfl
@[simp] theorem State.modLog_keeper (s : State) (f : StepLog → StepLog) : (s.modLog f).keeper = s.keeper := rfl
@[simp] theorem State.modLog_mem (s : State) (f : StepLog → StepLog) : (s.modLog f).mem = s.mem := rfl
@[simp] theorem State.modLog_wcb (s : State) (f : StepLog → StepLog) : (s.modLog f).wcb = s.wcb := rfl
@[simp] theorem State.modLog_fault (s : State) (f : StepLog → StepLog) : (s.modLog f).fault = s.fault := rfl
@[simp] theorem State.modLog_plan (s : State) (f : StepLog → StepLog) : (s.modLog f).plan = s.plan := rfl
@[simp] theorem State.modLog_seq (s : State) (f : StepLog → StepLog) : (s.modLog f).seq = s.seq := rfl
@[simp] theorem State.modLog_icache (s : State) (f : StepLog → StepLog) : (s.modLog f).icache = s.icache := rfl
@[simp] theorem State.modLog_step (s : State) (f : StepLog → StepLog) : (s.modLog f).step = s.step := rfl
@[simp] theorem State.modLog_exch (s : State) (f : StepLog → StepLog) : (s.modLog f).exch = s.exch := rfl
@[simp] theorem State.modLog_dev (s : State) (f : StepLog → StepLog) : (s.modLog f).dev = s.dev := rfl
@[simp] theorem State.modLog_regul (s : State) (f : StepLog → StepLog) : (s.modLog f).regul = s.regul := rfl
@[simp] theorem State.modLog_tier (s : State) (f : StepLog → StepLog) : (s.modLog f).tier = s.tier := rfl
@[simp] theorem State.modLog_log (s : State) (f : StepLog → StepLog) : (s.modLog f).log = s.log.map f := rfl
@[simp] theorem State.modLog_yarrow (s : State) (f : StepLog → StepLog) : (s.modLog f).yarrow = s.yarrow := rfl
@[simp] theorem State.modLog_req (s : State) (f : StepLog → StepLog) : (s.modLog f).req = s.req := rfl
@[simp] theorem State.modLog_waits (s : State) (f : StepLog → StepLog) : (s.modLog f).waits = s.waits := rfl
@[simp] theorem State.modLog_freeCtr (s : State) (f : StepLog → StepLog) : (s.modLog f).freeCtr = s.freeCtr := rfl
@[simp] theorem State.modLog_out (s : State) (f : StepLog → StepLog) : (s.modLog f).out = s.out := rfl
@[simp] theorem State.modLog_get (s : State) (f : StepLog → StepLog) (x : Field) : (s.modLog f).get x = s.get x := rfl

/-! `State.modPlan` -/

@[simp] theorem State.modPlan_pending (s : State) (f : Plan → Plan) : (s.modPlan f).pending = s.pending := rfl
@[simp] theorem State.modPlan_regs (s : State) (f : Plan → Plan) : (s.modPlan f).regs = s.regs := rfl
@[simp] theorem State.modPlan_cpLatch (s : State) (f : Plan → Plan) : (s.modPlan f).cpLatch = s.cpLatch := rfl
@[simp] theorem State.modPlan_dbgLatch (s : State) (f : Plan → Plan) : (s.modPlan f).dbgLatch = s.dbgLatch := rfl
@[simp] theorem State.modPlan_clock (s : State) (f : Plan → Plan) : (s.modPlan f).clock = s.clock := rfl
@[simp] theorem State.modPlan_pins (s : State) (f : Plan → Plan) : (s.modPlan f).pins = s.pins := rfl
@[simp] theorem State.modPlan_fuses (s : State) (f : Plan → Plan) : (s.modPlan f).fuses = s.fuses := rfl
@[simp] theorem State.modPlan_keeper (s : State) (f : Plan → Plan) : (s.modPlan f).keeper = s.keeper := rfl
@[simp] theorem State.modPlan_mem (s : State) (f : Plan → Plan) : (s.modPlan f).mem = s.mem := rfl
@[simp] theorem State.modPlan_wcb (s : State) (f : Plan → Plan) : (s.modPlan f).wcb = s.wcb := rfl
@[simp] theorem State.modPlan_fault (s : State) (f : Plan → Plan) : (s.modPlan f).fault = s.fault := rfl
@[simp] theorem State.modPlan_plan (s : State) (f : Plan → Plan) : (s.modPlan f).plan = { s.plan with plan := s.plan.plan.map f } := rfl
@[simp] theorem State.modPlan_seq (s : State) (f : Plan → Plan) : (s.modPlan f).seq = s.seq := rfl
@[simp] theorem State.modPlan_icache (s : State) (f : Plan → Plan) : (s.modPlan f).icache = s.icache := rfl
@[simp] theorem State.modPlan_step (s : State) (f : Plan → Plan) : (s.modPlan f).step = s.step := rfl
@[simp] theorem State.modPlan_exch (s : State) (f : Plan → Plan) : (s.modPlan f).exch = s.exch := rfl
@[simp] theorem State.modPlan_dev (s : State) (f : Plan → Plan) : (s.modPlan f).dev = s.dev := rfl
@[simp] theorem State.modPlan_regul (s : State) (f : Plan → Plan) : (s.modPlan f).regul = s.regul := rfl
@[simp] theorem State.modPlan_tier (s : State) (f : Plan → Plan) : (s.modPlan f).tier = s.tier := rfl
@[simp] theorem State.modPlan_log (s : State) (f : Plan → Plan) : (s.modPlan f).log = s.log := rfl
@[simp] theorem State.modPlan_yarrow (s : State) (f : Plan → Plan) : (s.modPlan f).yarrow = s.yarrow := rfl
@[simp] theorem State.modPlan_req (s : State) (f : Plan → Plan) : (s.modPlan f).req = s.req := rfl
@[simp] theorem State.modPlan_waits (s : State) (f : Plan → Plan) : (s.modPlan f).waits = s.waits := rfl
@[simp] theorem State.modPlan_freeCtr (s : State) (f : Plan → Plan) : (s.modPlan f).freeCtr = s.freeCtr := rfl
@[simp] theorem State.modPlan_out (s : State) (f : Plan → Plan) : (s.modPlan f).out = s.out := rfl
@[simp] theorem State.modPlan_get (s : State) (f : Plan → Plan) (x : Field) : (s.modPlan f).get x = s.get x := rfl

/-! `State.setBsu` -/

@[simp] theorem State.setBsu_pending (s : State) (d c k : Nat) (b : Bsu) : (s.setBsu d c k b).pending = s.pending := rfl
@[simp] theorem State.setBsu_regs (s : State) (d c k : Nat) (b : Bsu) : (s.setBsu d c k b).regs = s.regs := rfl
@[simp] theorem State.setBsu_cpLatch (s : State) (d c k : Nat) (b : Bsu) : (s.setBsu d c k b).cpLatch = s.cpLatch := rfl
@[simp] theorem State.setBsu_dbgLatch (s : State) (d c k : Nat) (b : Bsu) : (s.setBsu d c k b).dbgLatch = s.dbgLatch := rfl
@[simp] theorem State.setBsu_clock (s : State) (d c k : Nat) (b : Bsu) : (s.setBsu d c k b).clock = s.clock := rfl
@[simp] theorem State.setBsu_pins (s : State) (d c k : Nat) (b : Bsu) : (s.setBsu d c k b).pins = s.pins := rfl
@[simp] theorem State.setBsu_fuses (s : State) (d c k : Nat) (b : Bsu) : (s.setBsu d c k b).fuses = s.fuses := rfl
@[simp] theorem State.setBsu_keeper (s : State) (d c k : Nat) (b : Bsu) : (s.setBsu d c k b).keeper = s.keeper := rfl
@[simp] theorem State.setBsu_mem (s : State) (d c k : Nat) (b : Bsu) : (s.setBsu d c k b).mem = s.mem := rfl
@[simp] theorem State.setBsu_wcb (s : State) (d c k : Nat) (b : Bsu) : (s.setBsu d c k b).wcb = s.wcb := rfl
@[simp] theorem State.setBsu_fault (s : State) (d c k : Nat) (b : Bsu) : (s.setBsu d c k b).fault = s.fault := rfl
@[simp] theorem State.setBsu_plan (s : State) (d c k : Nat) (b : Bsu) : (s.setBsu d c k b).plan = s.plan := rfl
@[simp] theorem State.setBsu_seq (s : State) (d c k : Nat) (b : Bsu) : (s.setBsu d c k b).seq = s.seq := rfl
@[simp] theorem State.setBsu_icache (s : State) (d c k : Nat) (b : Bsu) : (s.setBsu d c k b).icache = s.icache := rfl
@[simp] theorem State.setBsu_step (s : State) (d c k : Nat) (b : Bsu) : (s.setBsu d c k b).step = s.step := rfl
@[simp] theorem State.setBsu_exch (s : State) (d c k : Nat) (b : Bsu) : (s.setBsu d c k b).exch = s.exch := rfl
@[simp] theorem State.setBsu_dev (s : State) (d c k : Nat) (b : Bsu) : (s.setBsu d c k b).dev = { s.dev with bsus := sparsePut Bsu.blank s.dev.bsus (bsuIx d c k) b } := rfl
@[simp] theorem State.setBsu_regul (s : State) (d c k : Nat) (b : Bsu) : (s.setBsu d c k b).regul = s.regul := rfl
@[simp] theorem State.setBsu_tier (s : State) (d c k : Nat) (b : Bsu) : (s.setBsu d c k b).tier = s.tier := rfl
@[simp] theorem State.setBsu_log (s : State) (d c k : Nat) (b : Bsu) : (s.setBsu d c k b).log = s.log := rfl
@[simp] theorem State.setBsu_yarrow (s : State) (d c k : Nat) (b : Bsu) : (s.setBsu d c k b).yarrow = s.yarrow := rfl
@[simp] theorem State.setBsu_req (s : State) (d c k : Nat) (b : Bsu) : (s.setBsu d c k b).req = s.req := rfl
@[simp] theorem State.setBsu_waits (s : State) (d c k : Nat) (b : Bsu) : (s.setBsu d c k b).waits = s.waits := rfl
@[simp] theorem State.setBsu_freeCtr (s : State) (d c k : Nat) (b : Bsu) : (s.setBsu d c k b).freeCtr = s.freeCtr := rfl
@[simp] theorem State.setBsu_out (s : State) (d c k : Nat) (b : Bsu) : (s.setBsu d c k b).out = s.out := rfl
@[simp] theorem State.setBsu_get (s : State) (d c k : Nat) (b : Bsu) (x : Field) : (s.setBsu d c k b).get x = s.get x := rfl

end Sys2Proof.Machine
end

