-- ==== Sys2Proof/Tests/Slice0.lean ====
section
/-! SUPPORT. The model's own tests: ill-formed commands that the checks refuse, words and answers worked out from the manual, and for
every statement states and operands that meet its hypotheses. -/

namespace Sys2Proof.Tests
open Sys2Proof Sys2Proof.Machine

set_option Elab.async false

/-! ### Small states -/

/-- The predicate "always". -/
def al : Pred := ⟨false, 0⟩

def sub0 : SubVariant := ⟨0, 0, 0, 0, 0, 0, 0, 0, 0, 0, 0, 0, 0, 0, 0⟩

def tree0 : Tree := ⟨0xFFFF, 1, 0, 1, List.replicate 16 1, []⟩

def hdr0 : PlanHeader where
  planId := 5
  imageLen := 0
  markLen := 0
  cfg := 0
  topo := 9
  pxbRev := 1
  sched := 0
  ngroup := 1
  nlayer := 1
  nshard := 1
  stepEntry := 0
  hotLen := 0
  unitReg := 63
  nunit := 0
  nblock := 2
  blockNo := 1
  insnLimit := 100

def cfg0 : GroupCfg where
  rule := 0
  clipen := false
  clipcls := 0
  ukind := 0
  bc := false
  flush := false
  schedix := 0
  offset := 0
  lr := 0x3F800000
  beta1 := 0
  beta2 := 0
  eps := 0
  wd := 0
  clipmax := 0
  trust := 0
  dscale := 0

def group0 : Group := ⟨cfg0, ⟨true, true, true, true⟩, 0, 0, 0, 0, 0⟩

def shard0 : Shard := ⟨⟨0, 0, 0, 0, 0, [], 1, 0, 1, 160, 0⟩, 0, 0, true, 0, 0, 0, false⟩

def layer0 : Layer where
  cfg := ⟨1, 1, 1, 0, 0, 16, 16, 1, 0, 0, 2, 2, 0, 0, 0, 0, 0⟩
  dstate := 0
  fsel := false
  rselL := false
  rselR := false
  okL := false
  okR := false
  rootfb := true
  zerog := false
  dstep := 0
  residL := 0
  residR := 0

/-- A plan for a root of one block, with code `code` in section 1 and `consts` in section 0xD, image in region 5. -/
def plan0 (code consts : List Byte) : Plan where
  region := 5
  hdr := hdr0
  sections := [⟨1, false, 0x100, code⟩, ⟨0xD, false, 0x200, consts⟩, ⟨9, false, 0x400, []⟩]
  regions := []
  devices := []
  groups := [group0]
  shards := [shard0]
  layers := [layer0]
  base := sub0
  bundles := []
  tree := tree0
  slices := [7]
  odig := []
  far := []
  jreg := 0
  junit := 0

/-- Set register fields. -/
def withRegs (s : State) (l : List (Field × Nat)) : State := l.foldl (fun s x => s.set x.1 x.2) s

/-- Fields of region entry `n` in rising order: enabled, of a class, all permissions, device 0, channel 0, bank 0, rows `r0` to `r1`. -/
def entry (n cls r0 r1 : Nat) : List (Field × Nat) :=
  [(Reg.R_CLASS n, cls), (Reg.R_EN n, 1), (Reg.R_DEVMASK n, 1), (Reg.R_CHMASK n, 1), (Reg.R_BANKMASK n, 1), (Reg.R_PERM_ENGINE n, 3),
    (Reg.R_PERM_REMOTE n, 3), (Reg.R_PERM_TIER n, 3), (Reg.R_PERM_DEBUG n, 3), (Reg.R_PERM_HOST n, 3), (Reg.R_FIRSTROW n, r0),
    (Reg.R_LASTROW n, r1)]

/-- Out of reset in Run, at a step boundary, devices 0 and 1 present and U-devices, region 1 of class activation (rows 0 to 1),
region 2 of class spare (rows 10 to 11), region 3 of class state (rows 8 to 9), region 5 of class plan (rows 2 to 3). -/
def run0 : State :=
  { State.reset with
    pins := ⟨false, false, true, 0xFF, 0, false, true, false, none⟩
    regs := ([(Reg.BSTAGE, 7), (Reg.LSTATE, 2)] ++ entry 1 6 0 1 ++ entry 2 7 10 11 ++ entry 3 0 8 9 ++ entry 5 5 2 3
      ++ [(Reg.PRESENT, 3), (Reg.UDEV, 3)] : List (Field × Nat)).map (fun x => (x.1.key, x.2)) }

/-- The registers of `run0` are in canonical form. -/
theorem test_run0 : regsOk run0.regs ∧ (run0.regionWords 1).size = 3840 := by unfold regsOk; decide +kernel

/-- `run0` in a step with the plan whose code is instruction `i` at index 0. -/
def seq0 (i : Instr) : State :=
  let w := match sarEncode i with
    | some w => leBytes 8 w.toNat
    | none => []
  let s : State := { run0 with plan := ⟨some (plan0 w (List.replicate 64 0)), none, none⟩,
                               seq := { Seq.idle with running := true }, icache := ⟨[(0, false)], none, none⟩ }
  s.set Reg.PHASE 1

/-- The plan of `seq0 i`. -/
def plan1 (i : Instr) : Plan := plan0 (match sarEncode i with
    | some w => leBytes 8 w.toNat
    | none => []) (List.replicate 64 0)

/-- What `Fetches` asks for, as a test. -/
def fetchesB (s : State) (pl : Plan) (i : Instr) : Bool :=
  decide (s.plan.plan = some pl) && s.seq.running && decide (s.seq.wait = none) && decide (s.icache.miss = none)
    && decide (sarEncode i = some (pl.codeWord s.seq.pc)) && s.icache.holds (s.seq.pc / 8) && decide (s.seq.count < pl.hdr.insnLimit)

theorem fetches_of {s : State} {pl : Plan} {i : Instr} (h : fetchesB s pl i = true) : s.Fetches pl i := by
  simp only [fetchesB, Bool.and_eq_true, decide_eq_true_eq] at h
  obtain ⟨⟨⟨⟨⟨⟨h1, h2⟩, h3⟩, h4⟩, h5⟩, h6⟩, h7⟩ := h
  exact ⟨h1, h2, h3, h4, h5, h6, h7⟩

theorem fetches_all {f : Instr → State} {g : Instr → Plan} {l : List Instr} (h : l.all (fun i => fetchesB (f i) (g i) i) = true) :
    ∀ i ∈ l, (f i).Fetches (g i) i := fun i hi => fetches_of (List.all_eq_true.mp h i hi)

/-- `seq0 i` with the sequencer changed by `f`. -/
def seq1 (i : Instr) (f : Seq → Seq) : State := { seq0 i with seq := f (seq0 i).seq }

/-- `seq0 i` with a1 pointing at a dense offset of a region. -/
def seqA (i : Instr) (region off : Nat) : State := seq1 i (fun q => { q with a := q.a.set 1 (BitVec.ofNat 48 (region * 2 ^ 42 + off)) })

/-- The predicate "always" holds. -/
theorem takes_al (s : State) : s.takes al := by simp [State.takes, State.pget, al]

def cleanB (s : State) (x : LineLoc) : Bool :=
  (match s.lineVal x with
    | .zero | .good _ => true
    | .fixed _ _ | .bad _ _ | .poison _ _ | .far => false) && !s.pairHeld x.loc.dev x.loc.ch x.loc.pair

theorem clean_of {s : State} {x : LineLoc} (h : cleanB s x = true) : s.clean x := by
  simp only [cleanB, Bool.and_eq_true, Bool.not_eq_true'] at h
  refine ⟨?_, h.2⟩
  have h1 := h.1
  split at h1
  · exact .inl ‹_›
  · exact .inr ⟨_, ‹_›⟩
  all_goals cases h1

def plainB (s : State) (x : LineLoc) : Bool := cleanB s x && decide (s.lineHome x = (x.loc, x.line))

theorem plain_of {s : State} {x : LineLoc} (h : plainB s x = true) : s.plain x := by
  simp only [plainB, Bool.and_eq_true, decide_eq_true_eq] at h
  exact ⟨clean_of h.1, h.2⟩

def holdsB (s : State) (n off len : Nat) (b : List Byte) : Bool :=
  ((s.regionWords n).span off len).all (cleanB s)
    && decide (b = ((((s.regionWords n).span off len).flatMap s.lineBytes).drop (off % 64)).take len)

theorem holds_of {s : State} {n off len : Nat} {b : List Byte} (h : holdsB s n off len b = true) : s.holds n off len b := by
  simp only [holdsB, Bool.and_eq_true, decide_eq_true_eq] at h
  exact ⟨fun x hx => clean_of (List.all_eq_true.mp h.1 x hx), h.2⟩

def listsCleanB (s : State) (pl : Plan) (rs : List (Nat × Nat)) : Bool :=
  rs.all (fun r => ((s.regionWords pl.region).span r.1 r.2).all (cleanB s))

theorem lists_of {s : State} {pl : Plan} {rs : List (Nat × Nat)} (h : listsCleanB s pl rs = true) : s.listsClean pl rs := by
  simp only [listsCleanB, List.all_eq_true] at h
  exact fun r hr x hx => clean_of (h r hr x hx)

/-- The loaded plan changed by `f`. -/
def withPlan (s : State) (f : Plan → Plan) : State := { s with plan := { s.plan with plan := s.plan.plan.map f } }

/-- The running step changed by `f`. -/
def withStep (s : State) (f : StepState → StepState) : State := { s with step := f s.step }

/-- A plan with a parent and children in the control tree. -/
def treeOf (parent : Nat) (children : List Nat) (p : Plan) : Plan := { p with tree := { p.tree with parent := parent, children := children } }

/-- `seq0 i` with line `line` of dense offset `off` of a region written with `b` and zeros. -/
def lined (s : State) (region off : Nat) (b : List Byte) : State :=
  (s.writeLine .host .through ((s.regionWords region).lineAt off) (takePad 64 b) fullMask).2
def openI : Instr := .openStep al
def sealI : Instr := .sealStep al
def inst0 : Inst := ⟨0, false, 1, 0, 0, 0, 0, [], false, false⟩
def entry0 : CommitEntry := ⟨⟨0, 0, 0, 8⟩, 0, 0, 0, 160, 0, 0, 0⟩
def entrySt0 : EntrySt := ⟨entry0, .waiting, 31, none, none, false, false, 0, 0, 0, 0, [], false⟩
/-! ### Sarenina -/

def scalars : List Instr :=
  [.li al 1 5, .lhi al 1 5, .mov al 1 2, .add al 1 2 3, .addi al 1 2 5, .sub al 1 2 3, .mul al 1 2 3, .and al 1 2 3, .or al 1 2 3,
    .xor al 1 2 3, .shl al 1 2 3, .shr al 1 2 3, .shli al 1 2 63, .shri al 1 2 63, .pmov al 1 0]

theorem test_ScalarResults_hyps : ∀ i ∈ scalars, (seq0 i).Fetches (plan1 i) i ∧ (seq0 i).takes al := fun i hi =>
  ⟨fetches_all (l := scalars) (by decide +kernel) i hi, takes_al _⟩

def compares : List Instr :=
  [.cmpeq al 1 2 3, .cmpne al 1 2 3, .cmplt al 0 2 3, .cmple al 1 2 3, .cmpltu al 1 2 3, .cmpleu al 1 2 3, .cmpeqi al 1 2 5,
    .cmpltui al 1 2 5, .pand al 1 2 3, .por al 1 2 3, .pnot al 1 2]

theorem test_CompareResults_hyps : ∀ i ∈ compares, (seq0 i).Fetches (plan1 i) i ∧ (seq0 i).takes al := fun i hi =>
  ⟨fetches_all (l := compares) (by decide +kernel) i hi, takes_al _⟩

def reads : List Instr :=
  [.rdk al 1 0, .rdk al 1 1, .rdk al 1 2, .rdk al 1 3, .rdk al 1 4, .rdk al 1 5, .rdk al 1 6, .rdk al 1 7, .rdk al 1 8, .rdk al 1 9,
    .rdk al 1 10, .rdk al 1 11, .vdig al 1 0, .rcr al 1 0x800, .frd al 1 2, .odig al 1, .bsust al 1 2, .dmix al 1 2 3]

theorem test_ReadsIntoScalar_hyps : ∀ i ∈ reads, (seq0 i).Fetches (plan1 i) i ∧ (seq0 i).takes al
    ∧ (seq0 i).inService (((seq0 i).sget 2).toNat / 32 % 32) = true := fun i hi =>
  ⟨fetches_all (l := reads) (by decide +kernel) i hi, takes_al _, by revert i; decide +kernel⟩

def addrs : List Instr := [.lia al 1 0x04000040, .addai al 1 2 5, .adda al 1 2 3, .sect al 1 1, .mova al 1 2]

theorem test_AddressResults_hyps : ∀ i ∈ addrs, (seq0 i).Fetches (plan1 i) i ∧ (seq0 i).takes al := fun i hi =>
  ⟨fetches_all (l := addrs) (by decide +kernel) i hi, takes_al _⟩

/-- States for the control instructions: 15 entries on the stack for call, one for ret, 1 and 0 in s1 for loop. -/
def controls : List (Instr × State) :=
  [(.nop al, seq0 (.nop al)), (.br al 3, seq0 (.br al 3)),
    (.call al 3, seq1 (.call al 3) (fun q => { q with stack := List.replicate 15 0 })),
    (.ret al, seq1 (.ret al) (fun q => { q with stack := [7] })), (.jt al 1 3, seq0 (.jt al 1 3)),
    (.loop al 1 3, seq1 (.loop al 1 3) (fun q => { q with s := q.s.set 1 1 })), (.loop al 1 3, seq0 (.loop al 1 3))]

theorem test_ControlResults_hyps :
    (∀ x ∈ controls, x.2.Fetches (plan1 x.1) x.1 ∧ x.2.takes al)
      ∧ (seq1 (.call al 3) (fun q => { q with stack := List.replicate 15 0 })).seq.stack.length < 16
      ∧ (seq1 (.loop al 1 3) (fun q => { q with s := q.s.set 1 1 })).sget 1 ≠ 0 ∧ (seq0 (.loop al 1 3)).sget 1 = 0 :=
  ⟨fun x hx => ⟨fetches_of (List.all_eq_true.mp (show controls.all (fun x => fetchesB x.2 (plan1 x.1) x.1) = true by decide +kernel) x hx),
    takes_al _⟩, by decide +kernel⟩

/-- States in which an instruction traps. -/
def trapping : List (Instr × State) :=
  [(.call al 3, seq1 (.call al 3) (fun q => { q with stack := List.replicate 16 0 })), (.ret al, seq0 (.ret al)),
    (.openStep al, (seq0 (.openStep al)).set Reg.PHASE 2), (.sealStep al, seq0 (.sealStep al)),
    (.recArm al 1 1, seq0 (.recArm al 1 1)), (.commit al, seq0 (.commit al)), (.cdone al, seq0 (.cdone al)),
    (.lwait al, seq0 (.lwait al)), (.tmov al 1 1, seq0 (.tmov al 1 1))]

theorem test_SequencerTraps_hyps :
    (∀ x ∈ trapping, x.2.Fetches (plan1 x.1) x.1 ∧ x.2.takes al)
      ∧ trapping.map (fun x => (x.2.seq.stack.length, x.2.get Reg.PHASE, x.2.seq.openV, x.2.seq.sealV, x.2.seq.commitRun))
        = (16, 1, 0, 0, false) :: (0, 1, 0, 0, false) :: (0, 2, 0, 0, false) :: List.replicate 6 (0, 1, 0, 0, false) :=
  ⟨fun x hx => ⟨fetches_of (List.all_eq_true.mp (show trapping.all (fun x => fetchesB x.2 (plan1 x.1) x.1) = true by decide +kernel) x hx),
    takes_al _⟩, by decide +kernel⟩

/-- The image's first row cannot be read. -/
def noImage (s : State) : State := { s with mem := [(4096 + 0x7F8, 3)] }

theorem test_SequencerTraps_lists_hyps :
    (let s := noImage (seq0 openI)
     s.Fetches (plan1 openI) openI
       ∧ ((plan1 openI).openRanges s.step.hdr.v).findSome? (fun r => s.badUnit? (plan1 openI).region r.1 r.2) = some 0
       ∧ s.get Reg.PHASE = 1 ∧ s.seq.openRun = false)
    ∧ (let i : Instr := .commit al
       let f (p : Plan) : Plan := { p with base := { sub0 with ceN := 1 } }
       let s := withPlan (noImage (seq1 i (fun q => { q with sealV := 1 }))) f
       s.Fetches (f (plan1 i)) i
         ∧ ((f (plan1 i)).commitRanges s.step.hdr.v).findSome? (fun r => s.badUnit? (f (plan1 i)).region r.1 r.2) = some 0
         ∧ s.seq.sealV = 1 ∧ s.seq.commitRun = false) :=
  ⟨⟨fetches_of (by decide +kernel), by decide +kernel⟩, ⟨fetches_of (by decide +kernel), by decide +kernel⟩⟩

theorem test_PredicateAndLimit_hyps :
    sarPred (.nop ⟨true, 0⟩) = some ⟨true, 0⟩ ∧ (seq0 (.nop ⟨true, 0⟩)).Fetches (plan1 (.nop ⟨true, 0⟩)) (.nop ⟨true, 0⟩)
      ∧ ¬ (seq0 (.nop ⟨true, 0⟩)).takes ⟨true, 0⟩ ∧ leAt [] 0x44 4 = 0
      ∧ (let s := seq1 (.nop al) (fun q => { q with count := 100 })
         s.plan.plan = some (plan1 (.nop al)) ∧ s.seq.running = true ∧ s.seq.wait = none ∧ s.icache.miss = none
           ∧ sarEncode (.nop al) = some ((plan1 (.nop al)).codeWord s.seq.pc) ∧ s.icache.holds (s.seq.pc / 8) = true
           ∧ (plan1 (.nop al)).hdr.insnLimit ≤ s.seq.count) :=
  ⟨by decide +kernel, fetches_of (by decide +kernel), by simp [State.takes, State.pget], by decide +kernel, by decide +kernel⟩

def instrLd : Instr := .ld al 1 1 0 0
def instrLdc : Instr := .ldc al 1 1 0 0
def instrSt : Instr := .st al 1 1 3 0xFFFFFFFF
def instrAadd : Instr := .aadd al 1 1 0
def instrAaddf : Instr := .aaddf al 1 1 0

theorem test_LoadStoreResults_hyps :
    (let s := seqA instrLd 1 3832
     s.Fetches (plan1 instrLd) instrLd ∧ s.clean ((s.regionWords (s.accessAt 1 0 8).1).lineAt (s.accessAt 1 0 8).2)
       ∧ s.beyond (s.accessAt 1 0 8).1 (s.accessAt 1 0 8).2 8 = false)
    ∧ (let s := seqA instrLdc 5 0x238
       s.Fetches (plan1 instrLdc) instrLdc ∧ s.clean ((s.regionWords (s.accessAt 1 0 8).1).lineAt (s.accessAt 1 0 8).2)
         ∧ s.beyond (s.accessAt 1 0 8).1 (s.accessAt 1 0 8).2 8 = false
         ∧ s.inConstSection (s.accessAt 1 0 8).1 (s.accessAt 1 0 8).2 8 = true)
    ∧ (let s := seqA instrSt 1 64
       s.Fetches (plan1 instrSt) instrSt
         ∧ s.clean ((s.regionWords (s.accessAt 1 0xFFFFFFFF 1).1).lineAt (s.accessAt 1 0xFFFFFFFF 1).2)
         ∧ s.beyond (s.accessAt 1 0xFFFFFFFF 1).1 (s.accessAt 1 0xFFFFFFFF 1).2 1 = false
         ∧ s.seqWritable (s.accessAt 1 0xFFFFFFFF 1).1 = true) :=
  ⟨⟨fetches_of (by decide +kernel), clean_of (by decide +kernel), by decide +kernel⟩,
    ⟨fetches_of (by decide +kernel), clean_of (by decide +kernel), by decide +kernel, by decide +kernel⟩,
    ⟨fetches_of (by decide +kernel), clean_of (by decide +kernel), by decide +kernel, by decide +kernel⟩⟩

theorem one_of {s : State} {x : LineLoc} (h : (s.seenByBsu x.loc).lineHome x = s.lineHome x) : s.oneHome x := fun _ => h

theorem test_AtomicAddResults_hyps : ∀ i ∈ [instrAadd, instrAaddf], ∃ n, let s := seqA i 1 3832
    let x := (s.regionWords (s.accessAt 1 0 n).1).lineAt (s.accessAt 1 0 n).2
    s.Fetches (plan1 i) i ∧ s.beyond (s.accessAt 1 0 n).1 (s.accessAt 1 0 n).2 n = false
      ∧ s.seqWritable (s.accessAt 1 0 n).1 = true ∧ s.clean x ∧ s.oneHome x ∧ s.issued.atomicHeld 1 0 n = false := by
  intro i hi
  rcases List.mem_cons.mp hi with rfl | hi
  · exact ⟨8, fetches_of (by decide +kernel), by decide +kernel, by decide +kernel, clean_of (by decide +kernel), one_of (by decide +kernel),
      by decide +kernel⟩
  · rcases List.mem_cons.mp hi with rfl | hi
    · exact ⟨4, fetches_of (by decide +kernel), by decide +kernel, by decide +kernel, clean_of (by decide +kernel), one_of (by decide +kernel),
        by decide +kernel⟩
    · cases hi

/-- On a device at 105 degrees an atomic add is held. -/
theorem test_PredicateAndLimit_held_hyps : ∀ i ∈ [instrAadd, instrAaddf], ∃ n, let s := (seqA i 1 64).set Reg.HOT105 1
    s.Fetches (plan1 i) i ∧ s.takes al ∧ s.issued.atomicHeld 1 0 n = true := by
  intro i hi
  rcases List.mem_cons.mp hi with rfl | hi
  · exact ⟨8, fetches_of (by decide +kernel), takes_al _, by decide +kernel⟩
  · rcases List.mem_cons.mp hi with rfl | hi
    · exact ⟨4, fetches_of (by decide +kernel), takes_al _, by decide +kernel⟩
    · cases hi

/-- An address in a disabled region, one byte beyond the end, outside the constant sections, and in regions not to be written: a state
region and the image's own. -/
theorem test_AccessTraps_hyps :
    (let s := seqA instrLd 9 0
     s.Fetches (plan1 instrLd) instrLd ∧ s.enabled (s.accessAt 1 0 8).1 = false)
    ∧ (let s := seqA instrLd 1 3840
       s.Fetches (plan1 instrLd) instrLd ∧ (s.regionWords (s.accessAt 1 0 8).1).size < (s.accessAt 1 0 8).2 + 8
         ∧ (s.regionWords 1).size < 3833 + 8)
    ∧ (let s := seqA instrLdc 5 0x240
       s.Fetches (plan1 instrLdc) instrLdc ∧ s.inConstSection (s.accessAt 1 0 8).1 (s.accessAt 1 0 8).2 8 = false)
    ∧ (∀ i ∈ [instrSt, instrAadd, instrAaddf], (seqA i 3 64).Fetches (plan1 i) i ∧ ((seqA i 3 64).regionWords 3).cls = .state)
    ∧ (let s := seqA instrSt 5 64
       s.Fetches (plan1 instrSt) instrSt ∧ (s.regionWords 5).cls = .plan ∧ (plan1 instrSt).region = 5)
    ∧ (let s := seqA instrSt 2 3839
       s.Fetches (plan1 instrSt) instrSt ∧ (s.regionWords 2).cls = .spare ∧ s.enabled 2 = true ∧ (s.regionWords 2).size = 3840
         ∧ s.clean ((s.regionWords 2).lineAt 3839)) :=
  ⟨⟨fetches_of (by decide +kernel), by decide +kernel⟩, ⟨fetches_of (by decide +kernel), by decide +kernel, by decide +kernel⟩,
    ⟨fetches_of (by decide +kernel), by decide +kernel⟩,
    fun i hi => ⟨fetches_all (f := fun i => seqA i 3 64) (g := plan1) (l := [instrSt, instrAadd, instrAaddf]) (by decide +kernel) i hi,
      by revert i; decide +kernel⟩,
    ⟨fetches_of (by decide +kernel), by decide +kernel, by decide +kernel⟩,
    ⟨fetches_of (by decide +kernel), by decide +kernel, by decide +kernel, by decide +kernel, clean_of (by decide +kernel)⟩⟩

def instrWcr (o : Word) : Instr := .wcr al 1 o
def instrHsh : Instr := .hsh al 1 1 64
def instrRec : Instr := .recArm al 1 4
def instrTmov : Instr := .tmov al 1 4

/-- `seqA i region off` with the plan holding sections 0x13 and 0x14 of 64 B. -/
def seqS (i : Instr) (off : Nat) (f : Seq → Seq) : State :=
  let s := seqA i 5 off
  { s with seq := f s.seq, plan := ⟨some { plan1 i with
      sections := (plan1 i).sections ++ [⟨0x13, false, 0x600, List.replicate 64 0⟩, ⟨0x14, false, 0x640, List.replicate 64 0⟩] },
    none, none⟩ }

def planS (i : Instr) : Plan :=
  { plan1 i with
      sections := (plan1 i).sections ++ [⟨0x13, false, 0x600, List.replicate 64 0⟩, ⟨0x14, false, 0x640, List.replicate 64 0⟩] }

theorem test_WcrHshDmixRecTmov_hyps :
    (∀ i ∈ [instrWcr 0x08C0, instrWcr 0x08FC, .dmix al 1 2 3], (seq0 i).Fetches (plan1 i) i)
    ∧ (let s := seqA instrHsh 1 3776
       s.Fetches (plan1 instrHsh) instrHsh ∧ s.addrOf 1 = (1, 3776) ∧ s.beyond 1 3776 64 = false
         ∧ s.holds 1 3776 64 (List.replicate 64 0))
    ∧ (let s := seqS instrRec 0x640 (fun q => { q with sealV := 1 })
       s.Fetches (planS instrRec) instrRec ∧ s.addrOf 1 = (5, 0x640) ∧ s.seq.sealV = 1 ∧ s.seq.commitRun = false
         ∧ s.inSection 0x14 5 0x640 4 = true ∧ s.holds 5 0x640 64 (List.replicate 64 0))
    ∧ (let s := { seqS instrTmov 0x600 (fun q => { q with openV := 1 }) with tier := { TierState.empty with tmovs := 4095 } }
       s.Fetches (planS instrTmov) instrTmov ∧ s.addrOf 1 = (5, 0x600) ∧ s.seq.openV = 1 ∧ s.inSection 0x13 5 0x600 4 = true
         ∧ s.tier.tmovs < 4096 ∧ s.flag Reg.THALT = false ∧ s.holds 5 0x600 64 (List.replicate 64 0)) :=
  ⟨fetches_all (f := seq0) (g := plan1) (by decide +kernel), ⟨fetches_of (by decide +kernel), by decide +kernel, by decide +kernel, holds_of (by decide +kernel)⟩,
    ⟨fetches_of (by decide +kernel), by decide +kernel, by decide +kernel, by decide +kernel, by decide +kernel, holds_of (by decide +kernel)⟩,
    ⟨fetches_of (by decide +kernel), by decide +kernel, by decide +kernel, by decide +kernel, by decide +kernel, by decide +kernel, holds_of (by decide +kernel)⟩⟩


/-- A state whose open record gives no reason to refuse. -/
def boundS (s : State) : State := s.setFlag Reg.BOUND true

theorem test_OpenSealResults_hyps :
    (let s := withPlan (seq0 openI) (treeOf 3 [])
     let pl := treeOf 3 [] (plan1 openI)
     s.Fetches pl openI ∧ s.get Reg.PHASE = 1 ∧ s.seq.openRun = false ∧ (∀ r ∈ s.exch.own, r.kind ≠ 0x30)
       ∧ pl.tree.children = [] ∧ pl.tree.parent ≠ 0xFFFF ∧ s.portsOf 0 ≠ [] ∧ listsCleanB s pl (pl.openRanges s.step.hdr.v) = true
       ∧ (s.set Reg.PORT_FAIL 0xFF).portsOf 0 = [])
    ∧ (let s := boundS (seq0 openI)
       s.Fetches (plan1 openI) openI ∧ s.get Reg.PHASE = 1 ∧ s.seq.openRun = false ∧ (∀ r ∈ s.exch.own, r.kind ≠ 0x30)
         ∧ (plan1 openI).tree.children = [] ∧ (plan1 openI).tree.parent = 0xFFFF ∧ openReason (s.openRecord (plan1 openI)) = 0
         ∧ listsCleanB s (plan1 openI) ((plan1 openI).openRanges s.step.hdr.v) = true)
    ∧ (let s := withPlan (seq0 openI) (treeOf 3 [4, 6])
       let pl := treeOf 3 [4, 6] (plan1 openI)
       s.Fetches pl openI ∧ s.get Reg.PHASE = 1 ∧ s.seq.openRun = false ∧ (∀ r ∈ s.exch.own, r.kind ≠ 0x30)
         ∧ listsCleanB s pl (pl.openRanges s.step.hdr.v) = true
         ∧ ∃ c ∈ pl.tree.children, s.upFrom 0x30 s.step.hdr.s c = none)
    ∧ (let s := seq1 sealI (fun q => { q with openV := 1 })
       s.Fetches (plan1 sealI) sealI ∧ s.seq.openV = 1 ∧ s.seq.sealRun = false
         ∧ ∀ n < s.step.slots.length, ∃ i ∈ s.step.insts, i.emission = false ∧ n ∈ i.items) :=
  ⟨⟨fetches_of (by decide +kernel), by decide +kernel⟩, ⟨fetches_of (by decide +kernel), by decide +kernel⟩,
    ⟨fetches_of (by decide +kernel), by decide +kernel, by decide +kernel, by decide +kernel, by decide +kernel, 4,
      by decide +kernel, by decide +kernel⟩,
    ⟨fetches_of (by decide +kernel), by decide +kernel⟩⟩

def csetI : Instr := .cset al 1 2
def collI : Instr := .coll al 1 0
def collI5 : Instr := .coll al 1 5
def cwaitI : Instr := .cwait al 0

/-- Instances 3 and 7, the second one CORE. -/
def csetBytes : List Byte := [3, 0, 0, 0, 7, 0, 0, 0x80]


/-- Before coll: the instance list is taken and names instance 0. -/
def collS (core : Bool) : State :=
  withStep (seqA collI 5 0x200) (fun t => { t with cset := some [(0, core)] })

/-- A coll whose instance of kind CORE waits for its post, which has come. -/
def waitS : State :=
  let s := withStep (seqA collI 5 0x200) (fun t => { t with cset := some [(0, true)], posts := [0] })
  { s with seq := { s.seq with openV := 1, wait := some (.coll 0) } }

theorem test_CollectiveResults_hyps :
    (let s := lined (withStep (seqA csetI 5 0x200) (fun t => { t with posts := [3] })) 5 0x200 csetBytes
     let n : Word := 2
     s.Fetches (plan1 csetI) csetI ∧ 1 ≤ n.toNat ∧ n.toNat ≤ 1024 ∧ s.step.cset = none ∧ s.addrOf 1 = (5, 0x200)
       ∧ s.beyond 5 0x200 8 = false ∧ s.inConstSection 5 0x200 8 = true
       ∧ (∀ x ∈ (s.regionWords 5).span 0x200 8, s.lineVal x = .good (takePad 64 csetBytes) ∧ s.pairHeld x.loc.dev x.loc.ch x.loc.pair = false)
       ∧ ((((s.regionWords 5).span 0x200 8).flatMap s.lineBytes).drop (0x200 % 64)).take 8 = csetBytes
       ∧ (∀ i < 2, bits (leAt csetBytes (4 * i) 4) 30 16 = 0) ∧ leAt csetBytes 0 2 < leAt csetBytes 4 2
       ∧ s.step.posts = [3])
    ∧ (∀ core, let s := { collS core with seq := { (collS core).seq with openV := 1 } }
       let i := s.issued.parseInst (List.replicate 32 0)
       s.Fetches (plan1 collI) collI ∧ s.addrOf 1 = (5, 0x200) ∧ s.beyond 5 0x200 32 = false ∧ s.inConstSection 5 0x200 32 = true
         ∧ s.holds 5 0x200 32 (List.replicate 32 0) ∧ (s.step.cset.getD []).any (fun e => e.1 == 0) = true ∧ s.inst? 0 = none
         ∧ i.q = 0 ∧ i.emission = false ∧ s.seq.openV = 1 ∧ s.seq.sealRun = false ∧ s.issued.mayBegin i = !core)
    ∧ (∃ i, waitS.settleInsts.waitingInst = some i ∧ waitS.settleInsts.mayBegin i = true ∧ waitS.inst? i.q = none)
    ∧ (let s := withStep (seq0 cwaitI) (fun t => { t with insts := [inst0] })
       s.Fetches (plan1 cwaitI) cwaitI ∧ (s.issued.inst? 0).map (·.ended) = some true)
    ∧ (let s := withStep (seq0 cwaitI) (fun t =>
         { t with insts := [{ inst0 with items := [0] }], slots := [⟨⟨3, 0, 0, 1, true, false, 0, 0xFFFF⟩, .open_, []⟩] })
       s.Fetches (plan1 cwaitI) cwaitI ∧ (s.issued.inst? 0).map (·.ended) = some false) :=
  ⟨⟨fetches_of (by decide +kernel), by decide +kernel⟩,
    fun core => ⟨fetches_of (by cases core <;> decide +kernel), by cases core <;> decide +kernel, by cases core <;> decide +kernel,
      by cases core <;> decide +kernel, holds_of (by cases core <;> decide +kernel), by cases core <;> decide +kernel⟩,
    ⟨waitS.parseInst (List.replicate 32 0), by decide +kernel⟩,
    ⟨fetches_of (by decide +kernel), by decide +kernel⟩, ⟨fetches_of (by decide +kernel), by decide +kernel⟩⟩

/-- An emission instance after the seal verdict. -/
def emitBytes : List Byte := leBytes 4 0x80FF ++ List.replicate 28 0

theorem test_CollectiveResults_emission_hyps :
    let s := lined { collS false with seq := { (collS false).seq with openV := 1, sealV := 1 } } 5 0x200 emitBytes
    let i := s.issued.parseInst emitBytes
    s.Fetches (plan1 collI) collI ∧ s.addrOf 1 = (5, 0x200) ∧ s.beyond 5 0x200 32 = false ∧ s.inConstSection 5 0x200 32 = true
      ∧ s.holds 5 0x200 32 emitBytes ∧ (s.step.cset.getD []).any (fun e => e.1 == 0) = true ∧ s.inst? 0 = none ∧ i.q = 0
      ∧ i.emission = true ∧ s.seq.sealV ≠ 0 ∧ s.issued.mayBegin i = true
      ∧ listsCleanB s (plan1 collI) ((plan1 collI).emissionRanges s.step.hdr.v) = true :=
  ⟨fetches_of (by decide +kernel), by decide +kernel, by decide +kernel, by decide +kernel, holds_of (by decide +kernel),
    by decide +kernel⟩

def stependI : Instr := .stepend al
def bsutabI : Instr := .bsutab al 1 1

/-- The states in which the waiting instructions go on, and those in which they wait. -/
def waiting : List (Instr × State × Bool) :=
  [(.cdone al, seq1 (.cdone al) (fun q => { q with commitRun := true }), true),
    (.cdone al, withStep (seq1 (.cdone al) (fun q => { q with commitRun := true })) (fun t => { t with entries := [entrySt0] }), false),
    (.lwait al, seq1 (.lwait al) (fun q => { q with commitRun := true }), true),
    (.lwait al, withStep (seq1 (.lwait al) (fun q => { q with commitRun := true })) (fun t =>
      { t with layers := [⟨0, .waiting, false, false, false, false, false⟩] }), false)]

theorem test_CommitWaitResults_hyps :
    ((seq1 (.commit al) (fun q => { q with sealV := 1 })).Fetches (plan1 (.commit al)) (.commit al)
      ∧ (let s := seq1 (.commit al) (fun q => { q with sealV := 1 })
         s.seq.commitRun = false ∧ listsCleanB s (plan1 (.commit al)) ((plan1 (.commit al)).commitRanges s.step.hdr.v) = true))
    ∧ (∀ x ∈ waiting, x.2.1.Fetches (plan1 x.1) x.1)
    ∧ waiting.map (fun x => (x.2.1.seq.commitRun, x.2.1.step.layersEnded && (x.2.1.step.rowsEnded || decide (x.1 = .lwait al))))
        = waiting.map (fun x => (true, x.2.2))
    ∧ (seq0 (.twait al)).Fetches (plan1 (.twait al)) (.twait al)
    ∧ (let s := withStep (seq0 stependI) (fun t =>
         { t with insts := [{ inst0 with items := [0] }], slots := [⟨⟨3, 0, 0, 1, true, false, 0, 0xFFFF⟩, .open_, []⟩] })
       s.Fetches (plan1 stependI) stependI ∧ s.issued.stependReady = false)
    ∧ (let s := seq1 stependI (fun q => { q with openV := 2 })
       s.Fetches (plan1 stependI) stependI ∧ s.issued.stependReady = true ∧ s.issued.stependOk = true) :=
  ⟨⟨fetches_of (by decide +kernel), by decide +kernel⟩,
    fun x hx => fetches_of (List.all_eq_true.mp (show waiting.all (fun x => fetchesB x.2.1 (plan1 x.1) x.1) = true by decide +kernel) x hx),
    by decide +kernel, fetches_of (by decide +kernel), ⟨fetches_of (by decide +kernel), by decide +kernel⟩,
    ⟨fetches_of (by decide +kernel), by decide +kernel⟩⟩

def fclrs : List Instr := [.fclr al 1 0, .fclr al 0 1, .fclr al 1 2, .fclr al 0 3, .fclr al 1 4, .fclr al 0 5]

theorem test_TableAndFlagResults_hyps :
    (let s := { seqA bsutabI 5 0x400 with seq := { (seqA bsutabI 5 0x400).seq with s := (seqA bsutabI 5 0x400).seq.s.set 1 3 } }
     s.Fetches (plan1 bsutabI) bsutabI ∧ s.seq.openRun = false ∧ s.addrOf 1 = ((plan1 bsutabI).region, (plan1 bsutabI).sectionOff 9)
       ∧ (s.sget 1).toNat = 3 ∧ ∀ d < 24, (3 : Nat).testBit d = true → s.present d = true ∧ s.inService d = true)
    ∧ (let s := seqA bsutabI 5 0x400
       listsCleanB s (plan1 bsutabI) [((plan1 bsutabI).sectionOff 9, 512)] = true)
    ∧ (∀ i ∈ fclrs, (seq0 i).Fetches (plan1 i) i ∧ (seq0 i).seq.openRun = false)
    ∧ (let s : State := { seq0 openI with icache := ⟨[], none, some 0⟩ }
       s.plan.plan = some (plan1 openI) ∧ s.icache.miss = some 0 ∧ s.clean (s.codeLine (plan1 openI) 0)) :=
  ⟨⟨fetches_of (by decide +kernel), by decide +kernel⟩, by decide +kernel,
    fun i hi => ⟨fetches_all (f := seq0) (g := plan1) (l := fclrs) (by decide +kernel) i hi, by revert i; decide +kernel⟩,
    ⟨by decide +kernel, by decide +kernel, clean_of (by decide +kernel)⟩⟩

/-! ### The exchange -/

/-- A message of kind `k` from block 3 on port 7, of the running step. -/
def msg0 (k index : Nat) (payload : List Byte) : Msg :=
  ⟨7, { ver := 1, vc := BitVec.ofNat 2 (kindVc k), src := 3, dst := 1, epoch := if 0x40 ≤ k then 0 else 1, step := 0, q := 0, role := 1,
        index := BitVec.ofNat 32 index, len := BitVec.ofNat 32 payload.length }, payload, 0⟩

/-- The same with `n` unanswered requests of its source. -/
def asked (n : Nat) (m : Msg) : Msg := { m with unanswered := n }
/-- The same from another block. -/
def msgFrom (src : Half) (m : Msg) : Msg := { m with hdr := { m.hdr with src := src } }
/-- The same with another step. -/
def msgAt (step : DWord) (m : Msg) : Msg := { m with hdr := { m.hdr with step := step } }

/-- In a step, after the "proceed" verdict; block 3 is the parent. -/
def arr0 : State :=
  { withPlan (seq1 openI (fun q => { q with openV := 1, openRun := true })) (treeOf 3 []) with
    regs := ((seq0 openI).set Reg.PHASE 2).regs }

/-- `arr0` with the plan's parent and children. -/
def arrT (parent : Nat) (children : List Nat) : State := withPlan arr0 (treeOf parent children)

def plan2 : Plan := treeOf 3 [] (plan1 openI)

/-- The first check of a received message, as a test. -/
def formB (s : State) (k : Nat) (m : Msg) : Bool :=
  m.hdr.ver == 1 && m.hdr.vc.toNat == kindVc k && s.lenOk k m

theorem test_HeaderCheckOrder_hyps :
    formB arr0 0x01 { msg0 0x01 0 [] with hdr := { (msg0 0x01 0 []).hdr with ver := 2 } } = false
    ∧ formB arr0 0x10 { msg0 0x10 0 [] with hdr := { (msg0 0x10 0 []).hdr with vc := 0 } } = false
    ∧ formB arr0 0x01 (msg0 0x01 0 [0]) = false
    ∧ (let m : Msg := { msg0 0x01 0 [] with hdr := { (msg0 0x01 0 []).hdr with epoch := 2 } }
       formB arr0 0x01 m = true ∧ arr0.epochOk 0x01 m = false)
    ∧ ([4, 5, 6, 7].all (fun v => formB arr0 0x01 (msgAt v (msg0 0x01 0 []))
        && (arr0.set Reg.STEP_LO 5).epochOk 0x01 (msgAt v (msg0 0x01 0 [])))) = true
    ∧ formB arr0 0x03 (msg0 0x03 0 (leBytes 8 0)) = true ∧ arr0.epochOk 0x03 (msg0 0x03 0 (leBytes 8 0)) = true
    ∧ run0.plan.plan = none := by decide +kernel

/-- Messages refused with codes 0x05, 0x03, 0x01 and 0x02. -/
def refusedMsgs : List (Nat × Msg × Nat) :=
  [(0x01, msg0 0x01 0 [0], 5), (0x20, { msg0 0x20 0 (List.replicate 16 0) with hdr := { (msg0 0x20 0 (List.replicate 16 0)).hdr with epoch := 2 } }, 3),
    (0x10, msgAt 4 (msg0 0x10 0 []), 1), (0x01, msgAt 7 (msg0 0x01 0 []), 2), (0x06, msg0 0x06 0 [], 5)]

theorem test_MessageRefused_hyps : ∀ x ∈ refusedMsgs, let s := arr0.set Reg.STEP_LO 5
    s.reaches x.2.1 ∧ s.flag Reg.CLOVER = false ∧ s.headerChecks x.1 x.2.1 = some x.2.2 := by
  unfold State.reaches
  decide +kernel

theorem test_MessageNotTaken_hyps :
    (let s : State := { arr0 with pins := { arr0.pins with fRdy := 0x7F } }
     ¬ s.reaches (msg0 0x01 0 []))
    ∧ (let s := arr0.setFlag Reg.CLOVER true
       s.reaches (msg0 0x01 0 []) ∧ s.flag Reg.CLOVER = true) := by
  unfold State.reaches
  decide +kernel

/-- A message of the block to itself on a port that is not ready. -/
theorem test_own_message : ({ arr0 with pins := { arr0.pins with fRdy := 0 } } : State).reaches (msgFrom 1 (msg0 0x01 0 [])) := by
  unfold State.reaches
  decide +kernel

def slotE (nsec : Nat) : SlotEntry := ⟨3, 0, 0, nsec, false, false, 0, 0xFFFF⟩
def slot0 (st : SlotPhase) : SlotSt := ⟨slotE 1, st, if st = .arrived then List.replicate 320 0 else []⟩

/-- Two slots; the second is in the window of its instance. -/
def arrS (st : SlotPhase) : State :=
  withStep arr0 (fun t => { t with slots := [slot0 .open_, slot0 st], insts := [{ inst0 with items := [0, 1], poolch := 1 }] })

theorem test_ArrivalMessages_hyps :
    (let s := arrS .open_
     s.step.slots[1]? = some (slot0 .open_) ∧ s.accepts 0x01 (msg0 0x01 1 []) ∧ s.stepS = 0 ∧ s.atBoundary = false ∧ s.seq.openV = 1
       ∧ s.flag Reg.HELD = false ∧ s.trapped = false ∧ (s.slotInst 1).isSome = true ∧ s.beyondWindow 1 = false ∧ s.lowerOutside 1 = false
       ∧ s.accepts 0x02 (msg0 0x02 1 []) ∧ s.slotCached 1 = true ∧ fifthAsked (msg0 0x01 1 []) = false)
    ∧ (let s := arrS .open_
       s.accepts 0x01 (asked 4 (msg0 0x01 1 [])) ∧ s.accepts 0x02 (asked 4 (msg0 0x02 1 []))
         ∧ fifthAsked (asked 4 (msg0 0x01 1 [])) = true)
    ∧ (let s := (arrS .open_).setFlag Reg.HELD true
       s.accepts 0x01 (msg0 0x01 1 []) ∧ s.accepts 0x02 (msg0 0x02 1 []) ∧ s.flag Reg.HELD = true)
    ∧ (let s := withStep (arrS .open_) (fun t => { t with insts := [{ inst0 with items := [0, 1], poolch := 0 }] })
       s.accepts 0x01 (msg0 0x01 1 []) ∧ s.beyondWindow 1 = true)
    ∧ (let s := arrS .granted
       s.step.slots[1]? = some (slot0 .granted) ∧ s.accepts 0x02 (msg0 0x02 1 []) ∧ s.accepts 0x10 (msg0 0x10 1 (List.replicate 320 0))
         ∧ (slot0 .granted).e.bytes = 320)
    ∧ (let s := arrS .open_
       s.accepts 0x01 (msgAt 1 (msg0 0x01 1 [])) ∧ s.stepS ≠ 1)
    ∧ (let s := arrS .open_
       let s : State := { s with seq := { s.seq with openV := 0 } }
       s.accepts 0x02 (msg0 0x02 1 []) ∧ s.seq.openV ≠ 1) := by
  unfold State.accepts State.reaches
  decide +kernel

def ecreq0 : Unanswered := ⟨0x24, 3, 0, 1, 0, 0, none⟩
def skip0 : Unanswered := ⟨0x22, 3, 0, 1, 0, 0, none⟩
/-- With an unanswered credit request and an unanswered skip notice to block 3. -/
def asked0 : State :=
  { withStep arr0 (fun t => { t with insts := [{ inst0 with emission := true }] }) with
    exch := { Exchange.empty with requests := [ecreq0, skip0] } }

theorem test_AnswerMessages_hyps :
    (arr0.accepts 0x03 (msg0 0x03 0 (leBytes 8 0)) ∧ arr0.accepts 0x42 (msg0 0x42 0 [1]) ∧ arr0.accepts 0x43 (msg0 0x43 0 (leBytes 8 0)))
    ∧ (arr0.accepts 0x05 (msg0 0x05 0 []) ∧ arr0.matching 0x22 (msg0 0x05 0 []) = none)
    ∧ (arr0.accepts 0x23 (msg0 0x23 0 []) ∧ arr0.matching 0x24 (msg0 0x23 0 []) = none)
    ∧ (asked0.accepts 0x05 (msg0 0x05 0 []) ∧ asked0.matching 0x22 (msg0 0x05 0 []) = some skip0)
    ∧ (asked0.accepts 0x04 (msg0 0x04 0 (leBytes 8 9)) ∧ asked0.matching 0x24 (msg0 0x04 0 (leBytes 8 9)) = some ecreq0)
    ∧ (asked0.accepts 0x23 (msg0 0x23 0 []) ∧ asked0.matching 0x24 (msg0 0x23 0 []) = some ecreq0)
    ∧ (∀ k ∈ [0x22, 0x24], asked0.accepts 0x06 (msg0 0x06 0 (leBytes 8 (6 + 256 * k)))
        ∧ leAt (msg0 0x06 0 (leBytes 8 (6 + 256 * k))).payload 1 1 = k
        ∧ (asked0.matching k (msg0 0x06 0 (leBytes 8 (6 + 256 * k)))).isSome = true)
    ∧ asked0.ofStep ecreq0 = true := by
  unfold State.accepts State.reaches
  decide +kernel

/-- The head of a chunk, a remote write or a remote read: region, length, offset. -/
def head0 (region len off : Nat) : List Byte := leBytes 4 region ++ leBytes 4 len ++ leBytes 8 off

/-- A chunk of one line for the last line of region 1, and one beyond it. -/
def chunk0 (off : Nat) : Msg := msg0 0x20 0 (head0 1 0 off ++ List.replicate 64 0)
def token0 : Msg := msg0 0x21 0 (leBytes 4 0 ++ leBytes 4 (0xFF * 2 ^ 12) ++ List.replicate 24 0)
/-- Ports 0 to 6 with a token waiting or none, port 7 with one credit. -/
def tokS : State :=
  { arr0 with exch := { Exchange.empty with ports := ⟨0, []⟩ :: ⟨0, [⟨0x21, 4, 0, [], true⟩]⟩ :: List.replicate 6 ⟨1, []⟩ } }

theorem test_EmissionReceived_hyps :
    (arr0.accepts 0x24 (msg0 0x24 0 []) ∧ arr0.buffersHeld < 64 ∧ fifthAsked (msg0 0x24 0 []) = false)
    ∧ (arr0.accepts 0x24 (asked 4 (msg0 0x24 0 [])) ∧ fifthAsked (asked 4 (msg0 0x24 0 [])) = true
      ∧ arr0.accepts 0x22 (asked 4 (msg0 0x22 0 (leBytes 8 0))))
    ∧ (let s : State := { arr0 with exch := { Exchange.empty with granted := List.replicate 63 3 } }
       s.accepts 0x24 (msg0 0x24 0 []) ∧ s.buffersHeld = 63)
    ∧ (let s : State := { arr0 with exch := { Exchange.empty with granted := List.replicate 64 3 } }
       s.accepts 0x24 (msg0 0x24 0 []) ∧ 64 ≤ s.buffersHeld)
    ∧ (arr0.accepts 0x20 (chunk0 3776) ∧ headPlace (chunk0 3776).payload = (1, 3776)
        ∧ arr0.checkRequest .remote true 1 3776 64 = .ok
        ∧ (lineWrites (arr0.regionWords 1) 3776 (List.replicate 64 0)).all (fun w => plainB arr0 w.1) = true)
    ∧ (arr0.accepts 0x20 (chunk0 3777) ∧ headPlace (chunk0 3777).payload = (1, 3777)
        ∧ arr0.checkRequest .remote true 1 3777 64 ≠ .ok)
    ∧ (tokS.accepts 0x21 token0 ∧ tokS.exch.badChunks.contains (3, 0) = false ∧ wordFld token0.payload 4 19 12 = 0xFF
        ∧ tokS.exch.ports[0]? = some ⟨0, []⟩ ∧ tokS.exch.ports[7]? = some ⟨0 + 1, []⟩)
    ∧ (let s : State := { tokS with exch := { tokS.exch with badChunks := [(3, 0)] } }
       s.accepts 0x21 token0 ∧ s.exch.badChunks.contains (3, 0) = true)
    ∧ tokS.accepts 0x22 (msg0 0x22 0 (leBytes 8 (0xFF * 2 ^ 16))) := by
  unfold State.accepts State.reaches
  decide +kernel

/-- A leaf's messages up and the parent's messages down, as large as their kinds require. -/
def upMsg (k n : Nat) : Msg := msgFrom 4 (msg0 k 0 (List.replicate n 0))

/-- Kinds, lengths, and for each a state in which a child's record is taken and held. -/
def ups : List (Nat × Nat × State) :=
  [(0x30, 96, { arrT 3 [4] with seq := { arr0.seq with openRun := false } }), (0x32, 128, arrT 3 [4]), (0x34, 8, arrT 3 [4])]

/-- The same with the node's own record ready. -/
def upsOwn : List (Nat × Nat × State) :=
  ups.map (fun x => (x.1, x.2.1, { x.2.2 with exch := { x.2.2.exch with own := [⟨x.1, 1, 0, List.replicate x.2.1 0⟩] } }))

/-- Kinds, lengths, and for each a state that awaits the parent's record. -/
def dns : List (Nat × Nat × State) :=
  [(0x31, 96), (0x33, 128), (0x35, 8)].map (fun x =>
    (x.1, x.2, { arrT 3 [4, 5] with exch := { arr0.exch with upSent := [x.1 - 1], cnt := some ⟨1, 3760⟩ } }))

theorem test_TreeMessages_hyps :
    (∀ x ∈ ups, x.2.2.plan.plan = some (treeOf 3 [4] plan2) ∧ x.2.2.accepts x.1 (upMsg x.1 x.2.1)
      ∧ (upMsg x.1 x.2.1).hdr.src.toNat ∈ (treeOf 3 [4] plan2).tree.children ∧ x.2.2.upFrom x.1 0 4 = none
      ∧ x.2.2.exchangeDone x.1 = false ∧ ∀ r ∈ x.2.2.exch.own, r.kind ≠ x.1)
    ∧ (∀ x ∈ upsOwn, x.2.2.accepts x.1 (upMsg x.1 x.2.1) ∧ x.2.2.upFrom x.1 0 4 = none ∧ x.2.2.exchangeDone x.1 = false
      ∧ (x.2.2.exch.own.find? (·.kind == x.1)).any (fun own => own.step == 0) = true)
    ∧ (∀ x ∈ dns, x.2.2.plan.plan = some (treeOf 3 [4, 5] plan2) ∧ x.2.2.accepts x.1 (msg0 x.1 0 (List.replicate x.2.1 0))
      ∧ x.2.2.exch.upSent.contains (x.1 - 1) = true ∧ x.2.2.portsOf 0 ≠ [])
    ∧ (∀ x ∈ upsOwn, x.2.2.portsOf 0 ≠ [] ∧ (x.2.2.set Reg.PORT_FAIL 0xFF).portsOf 0 = [])
    ∧ (let s := arrT 3 [4, 5]
       (lineWrites (s.regionWords 1) (3760 + 8) (List.replicate 8 0)).all (fun w => plainB s w.1) = true ∧ s.step.goHeld = false) := by
  unfold State.accepts State.reaches
  decide +kernel

/-- A remote write of the last byte of region 1, and one beyond it; reads of the same bytes. -/
def rwr0 (off : Nat) : Msg := msg0 0x40 0 (head0 1 1 off ++ [0xAB])
def rrd0 (off : Nat) : Msg := msg0 0x41 0 (head0 1 1 off)
def spentS : State := { arr0 with fuses := { arr0.fuses with lcs := 2 } }

theorem test_RemoteRequests_hyps :
    (arr0.accepts 0x40 (rwr0 3839) ∧ arr0.spent = false ∧ headPlace (rwr0 3839).payload = (1, 3839)
      ∧ arr0.checkRequest .remote true 1 3839 1 = .ok
      ∧ (lineWrites (arr0.regionWords 1) 3839 [0xAB]).all (fun w => plainB arr0 w.1) = true)
    ∧ (arr0.accepts 0x41 (rrd0 3839) ∧ leAt (rrd0 3839).payload 4 4 = 1 ∧ arr0.checkRequest .remote false 1 3839 1 = .ok
      ∧ holdsB arr0 1 3839 1 [0] = true)
    ∧ (spentS.accepts 0x40 (rwr0 3839) ∧ spentS.spent = true ∧ spentS.accepts 0x41 (rrd0 3839))
    ∧ (arr0.accepts 0x40 (rwr0 3840) ∧ arr0.checkRequest .remote true 1 3840 1 ≠ .ok)
    ∧ (arr0.accepts 0x41 (rrd0 3840) ∧ arr0.checkRequest .remote false 1 3840 1 ≠ .ok) := by
  unfold State.accepts State.reaches
  decide +kernel

/-- Emission: one chunk of one row for block 3, its row in state region 3 at rest. -/
def chunkSt : ChunkSt := ⟨⟨0, 1, 0, 0, [⟨3, 0xFF, 1, 0⟩]⟩, none, false, []⟩
def emInst : Inst := { inst0 with emission := true, items := [0] }
def emPlan : Plan := { plan2 with shards := [{ shard0 with cfg := { shard0.cfg with sregion := 3 } }] }
def emS (c : ChunkSt) (st : EntryPhase) (sealV : Nat) : State :=
  let s := withStep (withPlan arr0 (fun _ => emPlan)) (fun t =>
    { t with chunks := [c], insts := [emInst], entries := [{ entrySt0 with e := { entry0 with loc := emPlan.shardRow 0 0 }, st := st }] })
  { s with seq := { s.seq with sealV := sealV } }

/-- The lines of the slot that the chunk's row has written. -/
def emLines (s : State) : List LineLoc :=
  let f := emPlan.shardFmt 0
  let p := s.poolPlace (emPlan.shardRow 0 0) 0 f
  (List.range f.lines).map (fun j => ⟨p.wloc, f.lines * p.slot + j⟩)

theorem test_EmissionSent_hyps :
    (let s := emS chunkSt .atRest 1
     s.plan.plan = some emPlan ∧ s.inst? 0 = some emInst ∧ emInst.emission = true ∧ s.seq.sealV = 1 ∧ emInst.halted = false
       ∧ s.sendBuffers < 64 ∧ s.nextRead emInst = some (0, chunkSt) ∧ s.chunkEligible emPlan chunkSt.e = true
       ∧ (s.chunkEntries emPlan chunkSt.e).map (·.st) = [.atRest] ∧ (emLines s).all (cleanB s) = true)
    ∧ (let s := emS chunkSt .unchanged 1
       s.inst? 0 = some emInst ∧ s.nextRead emInst = some (0, chunkSt) ∧ s.chunkEligible emPlan chunkSt.e = true
         ∧ (s.chunkEntries emPlan chunkSt.e).map (·.st) = [.unchanged])
    ∧ (let c : ChunkSt := { chunkSt with data := some (List.replicate 330 0) }
       let s : State := { emS c .atRest 1 with exch := { Exchange.empty with credits := [3] } }
       s.inst? 0 = some emInst ∧ s.exch.givenUp.contains (0, 3) = false ∧ s.nextDest emInst 3 = some (0, 0, c, 0, ⟨3, 0xFF, 1, 0⟩)
         ∧ s.instPort emInst 0 3 = some 0 ∧ s.haltsAt emInst 0 = false ∧ s.exch.credits.contains 3 = true)
    ∧ (let c : ChunkSt := { chunkSt with halt := true }
       let s := emS c .unchanged 1
       s.nextDest emInst 3 = some (0, 0, c, 0, ⟨3, 0xFF, 1, 0⟩) ∧ s.instPort emInst 0 3 = some 0 ∧ s.haltsAt emInst 0 = true)
    ∧ (let s := emS chunkSt .atRest 1
       s.nextDest emInst 3 = some (0, 0, chunkSt, 0, ⟨3, 0xFF, 1, 0⟩) ∧ s.haltsAt emInst 0 = false ∧ s.exch.credits.contains 3 = false
         ∧ (∀ r ∈ s.exch.requests, ¬ (r.kind = 0x24 ∧ r.dst = 3)) ∧ s.chunksDue emInst 3 = [0])
    ∧ (let s := emS chunkSt .atRest 2
       s.seq.sealV = 2 ∧ s.nextDest emInst 3 = some (0, 0, chunkSt, 0, ⟨3, 0xFF, 1, 0⟩)
         ∧ (s.exch.requests.filter (fun r => r.dst == 3 && r.retry.isNone)).length < 4) :=
  ⟨by decide +kernel, by decide +kernel, by decide +kernel, by decide +kernel, by decide +kernel, by decide +kernel⟩

/-! ### Arrival, commit, the ends of a step -/

def row0 : RowLoc := emPlan.shardRow 0 0
def sector0 : SectorSt := ⟨row0, 0, 0, 160, [0, 1], false, none, false, 0⟩
/-- Two slots of one sector, the second as given. -/
def secS (a b : SlotPhase) (f : SectorSt → SectorSt) : State :=
  withStep (withPlan arr0 (fun _ => emPlan)) (fun t => { t with slots := [slot0 a, slot0 b], sectors := [f sector0] })

theorem test_ArrivalWork_hyps :
    (let s := secS .marked .arrived id
     s.plan.plan = some emPlan ∧ s.step.slots[1]? = some (slot0 .arrived) ∧ s.get Reg.PHASE = 2 ∧ s.slotTurn 1 = true)
    ∧ (let s := secS .granted .arrived id
       s.step.slots[1]? = some (slot0 .arrived) ∧ s.slotTurn 1 = false)
    ∧ (let s := secS .added .marked id
       s.step.sectors[0]? = some sector0 ∧ s.get Reg.PHASE = 2 ∧ s.step.covered sector0 = true ∧ sector0.slots.getLast? = some 1
         ∧ s.step.slots[1]? = some (slot0 .marked)
         ∧ (sectorLocs (s.sectorPlace sector0).red (s.sectorPlace sector0).g16w (s.sectorPlace sector0).sect).all (cleanB s) = true)
    ∧ (let f := fun x : SectorSt => { x with closed := true, summary := some (true, 1) }
       let s := secS .added .marked f
       s.step.sectors.findIdx? (fun x => !x.folded) = some 0 ∧ s.step.sectors[0]? = some (f sector0))
    ∧ (let s0 := secS .added .marked (fun x => { x with closed := true, folded := true })
       let s : State := { s0 with seq := { s0.seq with wait := some .sealArrival } }
       s.get Reg.PHASE = 2 ∧ s.step.arrivalDone = true ∧ s.seq.wait = some .sealArrival ∧ s.dev.bsus = [] ∧ s.step.tallyMixed = false
         ∧ s.exch.own = [] ∧ emPlan.tree.children = [] ∧ emPlan.tree.parent ≠ 0xFFFF ∧ s.portsOf 0 ≠ []) :=
  ⟨by decide +kernel, by decide +kernel, by decide +kernel, by decide +kernel, by decide +kernel⟩

theorem disjoint_of {s : State} {x y : LineLoc} (h : s.lineHome x = (x.loc, x.line) ∧ s.lineHome y = (y.loc, y.line) ∧ x.line < 30
    ∧ y.line < 30 ∧ (x.loc.addr + 2048 ≤ y.loc.addr ∨ y.loc.addr + 2048 ≤ x.loc.addr)) : s.disjoint x y := by
  obtain ⟨hx, hy, lx, ly, h⟩ := h
  intro a
  simp only [State.apart, hx, hy]
  omega

/-- One slot of one sector, its BSUs free and hot; its lines are clean and lie apart from the group's descriptor. -/
theorem test_ArrivalWork_sector_hyps :
    let s := secS .marked .arrived id
    s.slotSectors emPlan 1 = [(0, sector0, 0)] ∧ s.slotStarts [(0, sector0, 0)] = true
      ∧ (s.set Reg.HOT105 0xFFFFFF).slotStarts [(0, sector0, 0)] = false
      ∧ ∀ z ∈ s.sectLines sector0, s.clean z ∧ s.oneHome z ∧ s.disjoint (s.descLine emPlan 5 0) z := by
  intro s
  have h : (s.sectLines sector0).all (fun z => cleanB s z && decide ((s.seenByBsu z.loc).lineHome z = s.lineHome z)
      && decide (s.lineHome (s.descLine emPlan 5 0) = ((s.descLine emPlan 5 0).loc, (s.descLine emPlan 5 0).line)
        ∧ s.lineHome z = (z.loc, z.line) ∧ (s.descLine emPlan 5 0).line < 30 ∧ z.line < 30
        ∧ ((s.descLine emPlan 5 0).loc.addr + 2048 ≤ z.loc.addr ∨ z.loc.addr + 2048 ≤ (s.descLine emPlan 5 0).loc.addr))) = true := by
    decide +kernel
  refine ⟨by decide +kernel, by decide +kernel, by decide +kernel, fun z hz => ?_⟩
  have k := List.all_eq_true.mp h z hz
  simp only [Bool.and_eq_true, decide_eq_true_eq] at k
  exact ⟨clean_of k.1.1, one_of k.1.2, disjoint_of k.2⟩

theorem test_SectorLineAddition_hyps : arr0.clean ⟨⟨1, 3, 15, 8⟩, 29⟩ := clean_of (by decide +kernel)

/-- In commit: one entry, in the given place, of a group whose constants are formed. -/
def comS (st : EntryPhase) (rule : Nat) (pass : Nat) : State :=
  let s := withStep (withPlan arr0 (fun p => { emPlan with groups := [{ group0 with cfg := { cfg0 with rule := rule } }], tree := p.tree }))
    (fun t => { t with entries := [{ entrySt0 with e := { entry0 with loc := row0, pass := pass }, st := st }],
                       groupK := [⟨0, some fpOne, fpOne, 0, 0, fpOne, none, 0, 0⟩], unitK := [⟨0, fpOne, fpOne, 1, 0, 0⟩] })
  { s with seq := { s.seq with sealV := 1, commitRun := true } }

/-- The same with device 0 out of service for bank-side units. -/
def csuS (st : EntryPhase) : State := (comS st 0 0).set Reg.UDEV 2

/-- The first entry of the step. -/
def ent (s : State) : EntrySt := s.step.entries.headD entrySt0

theorem test_CommitEntryWork_hyps :
    (let s := withStep (comS .waiting 0 0) (fun t => { t with groupK := [] })
     s.plan.plan.isSome = true ∧ s.inStep = true ∧ s.seq.openV = 1 ∧ s.seq.sealV ≠ 2 ∧ s.step.groupK = [])
    ∧ (∀ s ∈ [comS .waiting 0 0, csuS .waiting], s.step.entries[0]? = some (ent s) ∧ s.seq.commitRun = true ∧ s.seq.sealV = 1
        ∧ (ent s).st = .waiting ∧ (ent s).recorded = false ∧ s.step.inWindow 0 = true ∧ s.lateEntry 0 = none
        ∧ (s.step.groupK? 0).isSome = true ∧ s.plan.plan.any (fun pl => s.retire.entryReady pl 0 (ent s)) = true
        ∧ ∀ u ∈ (ent s).units, ∃ x ∈ s.step.unitK, x.unit = u)
    ∧ (csuS .waiting).inService 0 = false
    ∧ (let s := comS .waiting 0 0
       s.inService 0 = true ∧ s.bit Reg.HOT105 0 = false ∧ s.retire.refreshDueAt row0 = false ∧ (s.retire.startTime 0 4).isSome = true)
    ∧ (let s := csuS .started
       let r := PassRow.ofLine (ent s).operand
       let o := s.computePass emPlan.seedTable row0 (s.poolPlace row0 0 (emPlan.shardFmt 0)).red.row (PassConst.ofLine (ent s).consts) r
       s.step.entries[0]? = some (ent s) ∧ (ent s).st = .started ∧ o.clean = true ∧ (ent s).csuPhase + 1 < passBatches r
         ∧ passBatches r ≤ (ent s).csuPhase + 3)
    ∧ (let s := withStep (comS .waiting 0 0) (fun t => { t with armed := [⟨0, 1, 0, 1, 0⟩] })
       s.plan.plan.any (fun pl => (s.armedBy pl row0).isSome) = true ∧ (ent s).st = .waiting ∧ (ent s).recorded = false
         ∧ (ent s).mask % 32 ≠ 0 ∧ s.awaitsIn row0 = false ∧ s.plan.plan.any (fun pl => s.awaitsLayer pl (ent s).e) = false) :=
  ⟨by decide +kernel, by decide +kernel, by decide +kernel, by decide +kernel, by decide +kernel, by decide +kernel⟩

/-- The entry waits for its IN; its unit is hot; it has run on the controller-side unit, with a clean result and with a bad one; its row
is armed, can be read, and cannot. -/
theorem test_CommitEntryWork_more_hyps :
    (let s : State := { comS .waiting 0 0 with tier := { TierState.empty with queue := [⟨1, row0, 1, 1, 3, 0, 0, 0, false, 0, 0, 0⟩] } }
     s.lateEntry 0 = some 0)
    ∧ ((comS .waiting 0 0).set Reg.HOT105 1).bit Reg.HOT105 0 = true
    ∧ (∀ st ∈ [EntryPhase.started, .executed], ∀ uel ∈ [0, 1],
        let s := withStep (csuS st) (fun t => { t with entries := t.entries.map (fun e => { e with result := some ⟨0, 0, 0, 0, Flags.clear, 0, false, uel, 0, 0⟩ }) })
        s.inService (ent s).e.loc.dev = false ∧ (ent s).st = st ∧ ((ent s).result.map (·.uel)) = some uel)
    ∧ (let s := withStep (comS .waiting 0 0) (fun t => { t with armed := [⟨0, 2, 0, 1, 0⟩] })
       s.plan.plan.any (fun pl => (s.armedBy pl row0).isSome && s.passReadable pl (ent s)) = true
         ∧ (let a := (s.regionWords 2).unitRow 0
            let b := (s.regionWords 2).unitRow 1
            (s.rowMeta a).any (!·.far) = true ∧ (s.rowMeta b).any (!·.far) = true ∧ a.addr ≠ b.addr ∧ a.addr ≠ row0.addr
              ∧ b.addr ≠ row0.addr ∧ (∀ i < 30, s.lineHome ⟨a, i⟩ = (a, i) ∧ s.lineHome ⟨b, i⟩ = (b, i))))
    ∧ (let s := withStep { comS .waiting 0 0 with mem := [(row0.addr + 0x7F8, 3)] } (fun t => { t with armed := [⟨0, 2, 0, 1, 0⟩] })
       s.plan.plan.any (fun pl => (s.armedBy pl row0).isSome && !s.passReadable pl (ent s)) = true) := by
  refine ⟨?_, ?_, ?_, ?_, ?_⟩ <;> decide +kernel

/-- A pass of SGD on the state row of region 3, on every block and on one, and one of accumulate-only. -/
def stateRow0 : RowLoc := ⟨0, 0, 0, 8⟩
def passRow0 (rule mask : Nat) : PassRow := ⟨rule, 0, 5, 0, false, 1, 0, 150, 0, mask, 9, 0, 0, [], []⟩

theorem test_CommitPassWrites_hyps : ∀ x ∈ [(0, 31), (0, 4), (9, 31)],
    (run0.findPass stateRow0 3 (passRow0 x.1 x.2)).clean = true ∧ (passRow0 x.1 x.2).rule ≤ 9 := by decide +kernel

theorem test_CommitPassWrites_rows_hyps :
    run0.isStateRow stateRow0 = true ∧ (passRow0 0 31).pass ≠ 1 ∧ (passRow0 0 31).wrow = 9 ∧ stateRow0.addr ≠ (stateRow0.at 1 9).addr
      ∧ slotLine0 (passRow0 0 31) + (EmFmt.ofCode 5).lines ≤ 30 ∧ partnerBank stateRow0.bank = 1
      ∧ ∀ l ∈ [stateRow0, stateRow0.at 1 9], (run0.rowMeta l).any (!·.far) = true ∧ run0.mappedOut l.dev l.ch = false
          ∧ ∀ i < 30, run0.lineHome ⟨l, i⟩ = (l, i) := by decide +kernel

/-- Masters of 1, their largest magnitude, and a codebook whose largest entry is 1. -/
theorem test_EmissionValues_hyps :
    (∀ i < 160, fpIsFinite ((List.replicate 160 fpOne).getD i 0) = true) ∧ (2 : Rat) ^ (0 : Int) ≤ fpRat fpOne
      ∧ fpRat fpOne < 2 ^ ((0 : Int) + 1) ∧ (∀ h ∈ ([0x3C00, 0xBC00, 0x3800, 0] : List Half), fp16IsFinite h = true
        ∧ |fp16Rat h| < 2 ^ ((0 : Int) + 1)) ∧ (2 : Rat) ^ (0 : Int) ≤ |fp16Rat 0x3C00|
      ∧ (∃ w : Word, fpIsFinite w = false ∧ fpIsNaN w = true) := by
  have h1 : fpRat fpOne = 1 := by decide +kernel
  have h2 : fp16Rat 0x3C00 = 1 ∧ fp16Rat 0xBC00 = -1 ∧ fp16Rat 0x3800 = 1 / 2 ∧ fp16Rat 0 = 0 := by decide +kernel
  obtain ⟨a, b, c, d⟩ := h2
  refine ⟨by decide +kernel, by rw [h1]; norm_num, by rw [h1]; norm_num, ?_, by rw [a]; norm_num, 0x7FC00000, by decide +kernel⟩
  intro h hh
  simp only [List.mem_cons, List.not_mem_nil, or_false] at hh
  rcases hh with rfl | rfl | rfl | rfl
  · exact ⟨by decide +kernel, by rw [a]; norm_num⟩
  · exact ⟨by decide +kernel, by rw [b]; norm_num⟩
  · exact ⟨by decide +kernel, by rw [c]; norm_num⟩
  · exact ⟨by decide +kernel, by rw [d]; norm_num⟩

def result0 : RowResult := ⟨0, 0, 0, 0, Flags.clear, 0, false, 0, 0, 0⟩
/-- A sequence on the pair of the entry's row, overran or not, with a result to read. -/
def seqF (overran : Bool) : SeqFl := ⟨row0.dev, row0.ch, row0.pair, 0, row0.row, 0, 0, 0, 240, 4, some 0, true, overran⟩
def endS (overran : Bool) : State :=
  let s := comS .started 0 0
  { s with dev := { s.dev with seqs := [seqF overran], bsus := [(bsuIx row0.dev row0.ch row0.pair,
      { s.bsu row0.dev row0.ch row0.pair with result := some result0 })] } }

theorem test_SequenceEnds_hyps : ∀ b, (endS b).plan.plan.isSome = true ∧ (endS b).seqOn 0 0 0 = some (seqF b) ∧ (seqF b).entry = some 0
    ∧ (endS b).step.entries[0]?.isSome = true ∧ ((endS b).bsu (seqF b).dev (seqF b).ch (seqF b).k).result = some result0
    ∧ (seqF b).overran = b ∧ (seqF b).ran = true ∧ (seqF b).dev < 24 := by decide +kernel

/-- An entry whose result an access to the pair has read. -/
theorem test_SequenceEnds_read_hyps :
    let s := withStep (comS .executed 0 0) (fun t => { t with entries := t.entries.map (fun e => { e with result := some result0 }) })
    s.seqOn 0 0 0 = none ∧ (ent s).st = .executed ∧ (ent s).result = some result0 ∧ (ent s).e.loc = row0 ∧ row0.dev = 0 ∧ row0.ch = 0
      ∧ row0.pair = 0 ∧ s.inService 0 = true := by decide +kernel

/-- A sector row whose one state row is at rest. -/
def relS : State :=
  withStep (comS .atRest 0 0) (fun t => { t with slots := [slot0 .added, slot0 .marked], sectors := [{ sector0 with closed := true, folded := true }] })

theorem test_TrustAndRelease_hyps :
    (let s := comS .atRest 6 1
     (s.step.groupK? 0).isSome = true ∧ s.seq.commitRun = true ∧ (s.groupCfg 0).rule = 6
       ∧ (s.step.groupK? 0).bind (·.etaTrust) = none
       ∧ s.step.entries.filter (fun e => e.e.group == 0 && e.e.pass == 1) = s.step.entries ∧ s.step.entries ≠ []
       ∧ ∀ e ∈ s.step.entries, e.ended = true)
    ∧ ((comS .atRest 7 1).groupCfg 0).rule = 7
    ∧ (let l := (relS.sectorPlace sector0).red
       relS.reductionRows[0]? = some l ∧ relS.rowReleasable l = true ∧ relS.pairHeld l.dev l.ch l.pair = false
         ∧ relS.mappedOut l.dev l.ch = false) :=
  ⟨by decide +kernel, by decide +kernel, by decide +kernel⟩

/-- In commit with one touched layer, as given. -/
def layS (st : LayerPhase) : State :=
  withStep (comS .atRest 0 0) (fun t => { t with layers := [⟨0, st, false, false, false, false, false⟩] })

theorem test_LayerWork_hyps :
    (∀ st ∈ [LayerPhase.waiting, .formed, .scratch], (layS st).plan.plan.any (fun pl => pl.layers[0]? == some layer0) = true
      ∧ (layS st).step.layers[0]? = some ⟨0, st, false, false, false, false, false⟩ ∧ (layS st).seq.commitRun = true
      ∧ (layS st).seq.sealV = 1)
    ∧ (layS .waiting).nextLayer = some 0 ∧ (layS .formed).layerAt .formed = some 0 ∧ (layS .scratch).layerAt .scratch = some 0
    ∧ holdsB (layS .scratch) layer0.cfg.sreg (1920 * layer0.cfg.srow) (2 * layer0.cfg.rows * layer0.cfg.cols)
        (List.replicate (2 * layer0.cfg.rows * layer0.cfg.cols) 0) = true :=
  ⟨by decide +kernel, by decide +kernel, by decide +kernel, by decide +kernel, by decide +kernel⟩

/-- At stepend, with the verdicts given. -/
def endStep (openV sealV : Nat) (commitRun : Bool) : State :=
  { arr0 with seq := { arr0.seq with wait := some .stepend, openV := openV, sealV := sealV, commitRun := commitRun } }

/-- A layer of two by two. -/
def smallLayer : Layer := { layer0 with cfg := { layer0.cfg with rows := 2, cols := 2 } }

/-- A layer whose gradient is zero: every value is at hand, and none where its sectors cannot be read; scratch of its own lines, apart from
the descriptors; scratch that cannot be read. -/
theorem test_LayerWork_values_hyps :
    let s := withPlan (layS .waiting) (fun p => { p with layers := [smallLayer] })
    let flush := (s.groupCfg smallLayer.cfg.group).flush
    let scratch := (s.regionWords smallLayer.cfg.sreg).span (1920 * smallLayer.cfg.srow) 8
    (s.plan.plan.any (fun pl => match (s.readSums pl smallLayer.cfg flush).1 with
      | some v => (((s.readSums pl smallLayer.cfg flush).2.orFlags smallLayer.cfg.group v.go.2).workOrtho pl smallLayer.cfg flush
          (rowsOf 2 2 v.go.1)).1.isSome
      | none => false)) = true
    ∧ (let u : State := { s with mem := [(2048 * 10 + 0x7F8, 3)] }
       u.plan.plan.any (fun pl => !(u.copyDirection pl smallLayer.cfg).1) = true)
    ∧ (∀ z ∈ scratch, s.lineHome z = (z.loc, z.line) ∧ z.line < 30)
    ∧ (scratch.map (fun x => x.loc.addr + 64 * x.line)).Nodup :=
  ⟨by decide +kernel, by decide +kernel, by decide +kernel, by decide +kernel⟩

theorem test_StepBoundaryResults_hyps :
    (∀ x ∈ [(2, 0, false), (1, 2, false), (1, 1, true), (1, 0, false)], (endStep x.1 x.2.1 x.2.2).seq.wait = some .stepend
      ∧ (endStep x.1 x.2.1 x.2.2).settleInsts.stependReady = true ∧ (endStep x.1 x.2.1 x.2.2).fault.holdNext = [])
    ∧ (endStep 2 0 false).seq.openV = 2
    ∧ (endStep 1 2 false).settleInsts.stependOk = true ∧ (endStep 1 1 true).settleInsts.stependOk = true
    ∧ (endStep 1 0 false).settleInsts.stependOk = false := by decide +kernel

/-! ### Registers, regions, engines, the host -/

/-- In Run at a step boundary, a plan loaded, block 3 its parent. -/
def run1 : State := { run0 with plan := ⟨some emPlan, none, none⟩ }

theorem test_GoStartsStep_hyps :
    (run1.served 0x0800 = true ∧ run1.plan.plan = some emPlan ∧ run1.goTaken = true ∧ run1.goBlocked = false
      ∧ (0x80000000 : Word).getLsbD 31 = true)
    ∧ (let s : State := { run1 with req := { run1.req with x := some ⟨false, 0, 0, false, 1, 0, 0, 0, 0, 0, false⟩ } }
       s.served 0x0800 = true ∧ s.plan.plan = some emPlan ∧ s.goTaken = true ∧ s.goBlocked = true)
    ∧ (let s := run1.set Reg.PHASE 6
       s.served 0x0800 = true ∧ s.plan.plan = some emPlan ∧ s.atBoundary = false)
    ∧ (let s := withStep run1 (fun t => { t with goHeld := true })
       s.served 0x0800 = true ∧ s.plan.plan = some emPlan ∧ s.step.goHeld = true)
    ∧ (0x7FFFFFFF : Word).getLsbD 31 = false := by decide +kernel

def stage4 : State := run0.set Reg.BSTAGE 4

theorem test_GoStartsStep_numbers_hyps :
    (stage4.served 0x0900 = true ∧ stage4.get Reg.BSTAGE = 4 ∧ stage4.plan.plan = none ∧ stage4.get Reg.SET_S_LO < 2 ^ 32)
    ∧ (run0.served 0x0900 = true ∧ run0.get Reg.BSTAGE ≠ 4)
    ∧ (let s : State := { stage4 with plan := ⟨some emPlan, none, none⟩ }
       s.served 0x0900 = true ∧ s.plan.plan ≠ none) := by decide +kernel

/-- The count area ends with region 1. -/
def cntS : State := run1.set Reg.CNT_OFF_LO 3824

theorem test_CountsAndPosts_hyps :
    (let u := cntS.writeFields 0x5010 0x80000001
     cntS.plan.plan = some emPlan ∧ cntS.served 0x5010 = true ∧ u.cntTaken = true ∧ cntS.req.st = none ∧ cntS.get Reg.PSTATE ≠ 1
       ∧ emPlan.tree.nexpt = 1 ∧ u.checkRegion .host false 1 3824 16 = .ok ∧ u.checkRegion .host true 1 3824 16 = .ok
       ∧ holdsB u 1 3824 8 (List.replicate 8 0) = true ∧ (∀ r ∈ cntS.exch.own, r.kind ≠ 0x34) ∧ emPlan.tree.children = []
       ∧ emPlan.tree.parent ≠ 0xFFFF ∧ cntS.portsOf 0 ≠ [])
    ∧ (let s := run1.set Reg.PHASE 1
       s.served 0x5010 = true ∧ (s.writeFields 0x5010 0x80000001).cntTaken = false)
    ∧ (let s := withStep run1 (fun t => { t with cset := some [(2, true)] })
       s.served 0x0430 = true ∧ s.step.cset = some [(2, true)] ∧ s.inst? 2 = none)
    ∧ run1.step.cset = none
    ∧ (let s := withStep run1 (fun t => { t with cset := some [(2, false)] })
       s.served 0x0430 = true ∧ ∃ l, s.step.cset = some l ∧ (2, true) ∉ l)
    ∧ ((withStep run1 (fun t => { t with insts := [inst0] })).inst? 0).isSome = true :=
  ⟨by decide +kernel, by decide +kernel, by decide +kernel, by decide +kernel, ⟨by decide +kernel, _, rfl, by decide +kernel⟩,
    by decide +kernel⟩

/-- Entry 4 with device 0, channel 0, bank 2, rows 100 to 101, no permission, not yet enabled. -/
def tabS : State :=
  withRegs run0 [(Reg.R_DEVMASK 4, 1), (Reg.R_CHMASK 4, 1), (Reg.R_BANKMASK 4, 4), (Reg.R_FIRSTROW 4, 100), (Reg.R_LASTROW 4, 101)]

theorem test_RegionTableWrites_hyps :
    (let e := (tabS.regionWords 4).withWord 0 0xF1000000
     tabS.served 0x1040 = true ∧ tabS.writeRefusal 4 e true = none ∧ e.en = true ∧ tabS.enabled 4 = false)
    ∧ (tabS.served 0x104C = true ∧ tabS.writeRefusal 4 ((tabS.regionWords 4).withWord 3 0) false = none)
    ∧ tabS.writeRefusal 4 ((tabS.regionWords 4).withWord 0 0xF0000000) true = some 0x05
    ∧ (∀ ran, let s : State := { (tabS.setInitPending 4 true).setFlag Reg.BUSY true with
                 req := { tabS.req with inits := [⟨4, tabS.regionWords 4, ran⟩] } }
       s.initPending 4 = true ∧ s.req.inits.find? (fun i => i.entry == 4) = some ⟨4, tabS.regionWords 4, ran⟩
         ∧ ∀ l ∈ RegionWords.allRows (tabS.regionWords 4), s.mappedOut l.dev l.ch = false)
    ∧ tabS.req.st = none := by decide +kernel

def line1 : List LineWrite := [⟨0xAB, 1⟩]

theorem test_RegionRequests_hyps :
    (run1.harebell = false ∧ run1.spent = false ∧ badLines 3776 1 = false
      ∧ (requestLines (run1.regionWords 1) 3776 1).all (plainB run1) = true
      ∧ ∀ q ∈ [Requester.host, .engine], ∀ w ∈ [true, false], run1.checkRequest q w 1 3776 64 = .ok)
    ∧ badLines 0 64 = false ∧ badLines 0 65 = true ∧ badLines 0 0 = true ∧ badLines 32 1 = true
    ∧ run1.checkRequest .host false 1 3776 128 ≠ .ok ∧ run1.checkRequest .host true 9 0 64 ≠ .ok
    ∧ (run1.set Reg.PSTATE 2).harebell = true ∧ spentS.spent = true := by decide +kernel

theorem test_EnginePortResults_hyps :
    (run1.harebell = false ∧ run1.spent = false
      ∧ (∀ x ∈ [(0, 4), (1, 8), (2, 4)], atomicSize x.1 = some x.2 ∧ (3840 - x.2) % x.2 = 0
          ∧ run1.checkRequest .engine true 1 (3840 - x.2) x.2 = .ok ∧ run1.checkRequest .engine false 1 (3840 - x.2) x.2 = .ok
          ∧ cleanB run1 ((run1.regionWords 1).lineAt (3840 - x.2)) = true
          ∧ (let y := (run1.regionWords 1).lineAt (3840 - x.2)
             run1.atomicWaits y = false ∧ (run1.set Reg.HOT105 0xFFFFFF).atomicWaits y = true
               ∧ (run1.seenByBsu y.loc).lineHome y = run1.lineHome y)))
    ∧ (run1.set Reg.PSTATE 2).harebell = true
    ∧ tokS.exch.ports[7]? = some ⟨1, []⟩ ∧ tokS.exch.ports[1]? = some ⟨0, [⟨0x21, 4, 0, [], true⟩]⟩ := by decide +kernel

theorem test_RegisterWriteFields_hyps :
    (run1.step.goHeld = false ∧ (0x0008 ∈ [0x0008, 0x80AC]) ∧ ∀ o ∈ [0x0008, 0x0910, 0x2050, 0x6138, 0x80AC], run1.served o = true)
    ∧ State.reset.served 0x0910 = false ∧ (0x0910 : Nat) ≠ 0x0400 ∧ State.reset.step.goHeld = false
    ∧ (0x0911 : Nat) % 4 ≠ 0 ∧ run1.inReset = false := by decide +kernel

theorem test_RegisterWriteFields_reset : State.reset.settleTest = State.reset := rfl

theorem test_RegisterReads_hyps :
    (sparseFind run1.cpLatch 0x0020 = none ∧ (0x0020 : Nat) % 4 = 0)
    ∧ sparseFind ({ run1 with cpLatch := [(0x0024, 7)] } : State).cpLatch 0x0024 = some 7
    ∧ (let s := run1.set Reg.DBG_LVL 1
       s.inReset = false ∧ s.harebell = false ∧ s.get Reg.DBG_LVL ≠ 0 ∧ s.fuses.lcs = 0 ∧ sparseFind s.dbgLatch 0x0020 = none)
    ∧ (run1.served 0x0020 = true ∧ run1.inReset = false ∧ run1.harebell = false ∧ run1.spent = false)
    ∧ (run1.get Reg.DBG_LVL = 0 ∧ 0x480C ∉ [0x4800, 0x4804, 0x4808, 0x4810]) := by decide +kernel

theorem test_CountersAndLimits_hyps :
    (run1.served 0x6000 = true ∧ (0x40000000 : Word).getLsbD 30 = true)
    ∧ (let off := regulatorOff (.partition 4)
       run1.served off = true ∧ (run1.writeFields off 0x00100000).partitionsRefused = none)
    ∧ (∀ x ∈ [(0x00100010, 1), (0x00000000, 3)], (run1.writeFields (regulatorOff (.partition 4)) x.1).partitionsRefused ≠ none)
    ∧ (run1.served 0x0200 = true ∧ run1.farPlan = false ∧ run1.inStep = false ∧ (run1.set Reg.PHASE 1).inStep = true)
    ∧ (run1.served 0x481C = true ∧ run1.step.goHeld = false ∧ run1.served 0x5004 = true ∧ run1.pins.fFail = 0 ∧ run1.exch.held = []) := by decide +kernel

/-! ### Loads, faults, tests, transfers -/

/-- The lines of a plan image: header, directory, then sections 1, 2, 3, 4, 9, 0xA, 0xF, 0x12, 0x11 (5, 6, 0xB, 0xC, 0xD empty). -/
def imgLines : List Nat :=
  [0x1000000000000000000000900000000000000000000000100001200000000000000004d0001000e5a524e31, 0x6400020001,
    0x800000028000040000000000000000006000000200000300000000000000000014000001c00002000000000000000000080000018000010000,
    0x4c00000500000a0000000000000000020000000300000900000000000000000000000003000006000100000000000000000000030000050001,
    0x4000000580000f0000000000000000000000000580000d0000000000000000000000000580000c0000000000000000000000000580000b0000,
    0xc0000000600001100000000000000000010000005c000120000, 0x600000000000000, 0x5000600023000001100000001a8000000,
    0x4000000040000000, 0, 0, 0,
    0x80008000800080008000800080008000800080008000800080008000800080008000800080008000800080008000800080008000800080008000800080008000,
    0x80008000800080008000800080008000800080008000800080008000800080008000800080008000800080008000800080008000800080008000800080008000,
    0x80008000800080008000800080008000800080008000800080008000800080008000800080008000800080008000800080008000800080008000800080008000,
    0x80008000800080008000800080008000800080008000800080008000800080008000800080008000800080008000800080008000800080008000800080008000,
    0x80008000800080008000800080008000800080008000800080008000800080008000800080008000800080008000800080008000800080008000800080008000,
    0x80008000800080008000800080008000800080008000800080008000800080008000800080008000800080008000800080008000800080008000800080008000,
    0x80008000800080008000800080008000800080008000800080008000800080008000800080008000800080008000800080008000800080008000800080008000,
    0x80008000800080008000800080008000800080008000800080008000800080008000800080008000800080008000800080008000800080008000800080008000,
    0x1, 0x100000048, 0xffff0000]

def imgCells0 : List (Nat × Byte) :=
  [
    (4096, 49), (4097, 78), (4098, 82), (4099, 90), (4100, 14), (4102, 1), (4104, 77), (4113, 18), (4116, 1), (4128, 9), (4139, 1),
    (4160, 1), (4162, 2), (4164, 100), (4226, 1), (4228, 128), (4229, 1), (4232, 8), (4242, 2), (4244, 192), (4245, 1), (4248, 20),
    (4258, 3), (4261, 2), (4264, 96), (4274, 4), (4276, 128), (4277, 2), (4280, 128), (4288, 1), (4290, 5), (4293, 3), (4304, 1),
    (4306, 6), (4309, 3), (4322, 9), (4325, 3), (4329, 2), (4338, 10), (4341, 5), (4344, 76), (4354, 11), (4356, 128), (4357, 5),
    (4370, 12), (4372, 128), (4373, 5), (4386, 13), (4388, 128), (4389, 5), (4402, 15), (4404, 128), (4405, 5), (4408, 64), (4418, 18),
    (4420, 192), (4421, 5), (4424, 16), (4434, 17), (4437, 6), (4441, 12), (4487, 6), (4547, 168), (4548, 1), (4552, 17), (4555, 48),
    (4556, 2), (4558, 6), (4560, 5), (4611, 64), (4615, 64), (4865, 128), (4867, 128), (4869, 128), (4871, 128), (4873, 128),
    (4875, 128), (4877, 128), (4879, 128), (4881, 128), (4883, 128), (4885, 128), (4887, 128), (4889, 128), (4891, 128), (4893, 128),
    (4895, 128), (4897, 128), (4899, 128), (4901, 128), (4903, 128), (4905, 128), (4907, 128), (4909, 128), (4911, 128), (4913, 128),
    (4915, 128), (4917, 128), (4919, 128), (4921, 128)]
def imgCells1 : List (Nat × Byte) :=
  [
    (4923, 128), (4925, 128), (4927, 128), (4929, 128), (4931, 128), (4933, 128), (4935, 128), (4937, 128), (4939, 128), (4941, 128),
    (4943, 128), (4945, 128), (4947, 128), (4949, 128), (4951, 128), (4953, 128), (4955, 128), (4957, 128), (4959, 128), (4961, 128),
    (4963, 128), (4965, 128), (4967, 128), (4969, 128), (4971, 128), (4973, 128), (4975, 128), (4977, 128), (4979, 128), (4981, 128),
    (4983, 128), (4985, 128), (4987, 128), (4989, 128), (4991, 128), (4993, 128), (4995, 128), (4997, 128), (4999, 128), (5001, 128),
    (5003, 128), (5005, 128), (5007, 128), (5009, 128), (5011, 128), (5013, 128), (5015, 128), (5017, 128), (5019, 128), (5021, 128),
    (5023, 128), (5025, 128), (5027, 128), (5029, 128), (5031, 128), (5033, 128), (5035, 128), (5037, 128), (5039, 128), (5041, 128),
    (5043, 128), (5045, 128), (5047, 128), (5049, 128), (5051, 128), (5053, 128), (5055, 128), (5057, 128), (5059, 128), (5061, 128),
    (5063, 128), (5065, 128), (5067, 128), (5069, 128), (5071, 128), (5073, 128), (5075, 128), (5077, 128), (5079, 128), (5081, 128),
    (5083, 128), (5085, 128), (5087, 128), (5089, 128), (5091, 128), (5093, 128), (5095, 128), (5097, 128), (5099, 128), (5101, 128),
    (5103, 128), (5105, 128), (5107, 128), (5109, 128), (5111, 128), (5113, 128), (5115, 128), (5117, 128), (5119, 128), (5121, 128)]
def imgCells2 : List (Nat × Byte) :=
  [
    (5123, 128), (5125, 128), (5127, 128), (5129, 128), (5131, 128), (5133, 128), (5135, 128), (5137, 128), (5139, 128), (5141, 128),
    (5143, 128), (5145, 128), (5147, 128), (5149, 128), (5151, 128), (5153, 128), (5155, 128), (5157, 128), (5159, 128), (5161, 128),
    (5163, 128), (5165, 128), (5167, 128), (5169, 128), (5171, 128), (5173, 128), (5175, 128), (5177, 128), (5179, 128), (5181, 128),
    (5183, 128), (5185, 128), (5187, 128), (5189, 128), (5191, 128), (5193, 128), (5195, 128), (5197, 128), (5199, 128), (5201, 128),
    (5203, 128), (5205, 128), (5207, 128), (5209, 128), (5211, 128), (5213, 128), (5215, 128), (5217, 128), (5219, 128), (5221, 128),
    (5223, 128), (5225, 128), (5227, 128), (5229, 128), (5231, 128), (5233, 128), (5235, 128), (5237, 128), (5239, 128), (5241, 128),
    (5243, 128), (5245, 128), (5247, 128), (5249, 128), (5251, 128), (5253, 128), (5255, 128), (5257, 128), (5259, 128), (5261, 128),
    (5263, 128), (5265, 128), (5267, 128), (5269, 128), (5271, 128), (5273, 128), (5275, 128), (5277, 128), (5279, 128), (5281, 128),
    (5283, 128), (5285, 128), (5287, 128), (5289, 128), (5291, 128), (5293, 128), (5295, 128), (5297, 128), (5299, 128), (5301, 128),
    (5303, 128), (5305, 128), (5307, 128), (5309, 128), (5311, 128), (5313, 128), (5315, 128), (5317, 128), (5319, 128), (5321, 128)]
def imgCells3 : List (Nat × Byte) :=
  [
    (5323, 128), (5325, 128), (5327, 128), (5329, 128), (5331, 128), (5333, 128), (5335, 128), (5337, 128), (5339, 128), (5341, 128),
    (5343, 128), (5345, 128), (5347, 128), (5349, 128), (5351, 128), (5353, 128), (5355, 128), (5357, 128), (5359, 128), (5361, 128),
    (5363, 128), (5365, 128), (5367, 128), (5369, 128), (5371, 128), (5373, 128), (5375, 128), (5376, 1), (5440, 72), (5444, 1),
    (5506, 255), (5507, 255), (6016, 20), (6017, 11), (6018, 118), (6019, 87), (6020, 42), (6021, 119), (6022, 190), (6023, 212),
    (6024, 4), (6025, 90), (6026, 156), (6027, 106), (6028, 7), (6029, 127), (6030, 155), (6031, 123), (6032, 16), (6033, 9),
    (6034, 139), (6035, 198), (6036, 223), (6037, 130), (6038, 213), (6039, 5), (6040, 57), (6041, 220), (6042, 255), (6043, 141),
    (6044, 78), (6045, 40), (6046, 116), (6047, 74), (6048, 253), (6049, 239), (6050, 213), (6051, 213), (6064, 84), (6065, 246),
    (6066, 66), (6067, 243), (6068, 184), (6069, 49), (6070, 97), (6071, 187), (6072, 145), (6073, 101), (6074, 4), (6075, 99),
    (6076, 125), (6077, 162), (6078, 39), (6079, 43), (6080, 177), (6081, 124), (6082, 55), (6083, 238), (6084, 93), (6085, 187),
    (6086, 20), (6087, 166), (6088, 116), (6089, 239), (6090, 113), (6091, 126), (6092, 152), (6093, 40), (6094, 82), (6095, 54)]
def imgCells4 : List (Nat × Byte) :=
  [
    (6096, 165), (6097, 72), (6098, 205), (6099, 52), (6100, 93), (6101, 225), (6102, 123), (6103, 219), (6104, 254), (6105, 201),
    (6106, 252), (6107, 94), (6136, 255), (6137, 241), (6138, 127), (6143, 83)]
/-- The device bytes of the image, its check words and its row's metadata word. -/
def imgCells : List (Nat × Byte) := imgCells0 ++ imgCells1 ++ imgCells2 ++ imgCells3 ++ imgCells4

/-- Out of reset with the image in plan region 5, state region 0 for its unit table, spare region 6 for the step log, and stage `n` of bring-up. -/
def ldAt (n : Nat) : State :=
  { State.reset with
    pins := ⟨false, false, true, 0xFF, 0, false, true, false, none⟩
    regs := ([(Reg.BSTAGE, n), (Reg.R_EN 0, 1), (Reg.R_DEVMASK 0, 1), (Reg.R_CHMASK 0, 1),
      (Reg.R_BANKMASK 0, 1), (Reg.R_FIRSTROW 0, 90), (Reg.R_LASTROW 0, 90), (Reg.R_CLASS 5, 5), (Reg.R_EN 5, 1), (Reg.R_DEVMASK 5, 1), (Reg.R_CHMASK 5, 1), (Reg.R_BANKMASK 5, 1),
      (Reg.R_PERM_HOST 5, 3), (Reg.R_FIRSTROW 5, 2), (Reg.R_LASTROW 5, 6), (Reg.R_CLASS 6, 7), (Reg.R_EN 6, 1), (Reg.R_DEVMASK 6, 1),
      (Reg.R_CHMASK 6, 1), (Reg.R_BANKMASK 6, 1), (Reg.R_FIRSTROW 6, 50), (Reg.R_LASTROW 6, 80), (Reg.YLOG_REG, 6),
      (Reg.PRESENT, 3)] : List (Field × Nat)).map (fun x => (x.1.key, x.2))
    mem := imgCells }

/-- The device bytes from `a` to `a + n`. -/
def near (m : List Host.Cell) (a n : Nat) : List Host.Cell := m.filter (fun c => decide (a ≤ c.1) && decide (c.1 < a + n))

theorem memReads_near (m : List Host.Cell) (a n : Nat) : memReads m a n = memReads (near m a n) a n := by
  refine List.map_congr_left fun i hi => ?_
  have h : i < n := List.mem_range.mp hi
  simp only [memRead, sparseFind, near, List.find?_filter]
  congr 3
  funext c
  by_cases e : c.1 = a + i <;> simp [e, h]

/-- The bytes of a line are `b`, with the check word of `b`. -/
def stores (m : List Host.Cell) (x : LineLoc) (b : List Byte) : Bool :=
  decide (memReads (near m (x.loc.addr + 64 * x.line) 64) (x.loc.addr + 64 * x.line) 64 = b)
    && decide (BitVec.ofNat 32 (leNat (memReads (near m (x.loc.addr + 0x780 + 4 * x.line) 4) (x.loc.addr + 0x780 + 4 * x.line) 4))
        = rsCheck x.tag b)

/-- Line `i` of the image. -/
def imgData (i : Nat) : List Byte := leBytes 64 (imgLines.getD i 0)


theorem img_stores : (onBits 30 0x7ff1ff).all (fun i => stores imgCells ⟨⟨0, 0, 0, 2⟩, i⟩ (imgData i)) = true := by decide +kernel

/-- What line `i` of the image reads as. -/
def imgVal (i : Nat) : LineVal := if (0x7ff1ff : Nat).testBit i then .good (imgData i) else .zero

/-- The rows of the image as a state sees them. -/
structure Staged (s : State) : Prop where
  mem : s.mem = imgCells
  remap : s.fault.remap = []
  inside : s.mappedOut 0 0 = false
  plain : ∀ r ∈ [2, 3, 4], s.isDetectRow ⟨0, 0, 0, r⟩ = false
  row2 : s.rowMeta ⟨0, 0, 0, 2⟩ = some ⟨0, false, false, false, false, 0, 0, 0x7ff1ff⟩
  row3 : ∀ r ∈ [3, 4], s.rowMeta ⟨0, 0, 0, r⟩ = some ⟨0, false, false, false, false, 0, 0, 0⟩
  at5 : ∀ i < 73, (s.regionWords 5).lineAt (64 * i) = ⟨⟨0, 0, 0, 2 + i / 30⟩, i % 30⟩
  size : (s.regionWords 5).size = 9600

theorem staged_row2 {s : State} (h : Staged s) (i : Nat) (hi : i < 30) : s.lineVal ⟨⟨0, 0, 0, 2⟩, i⟩ = imgVal i := by
  by_cases v : (0x7ff1ff : Nat).testBit i = true
  · have hr := List.all_eq_true.mp img_stores i (by simp [onBits, List.mem_filter, v, hi])
    simp only [stores, Bool.and_eq_true, decide_eq_true_eq, ← memReads_near, ← h.mem] at hr
    have hd := h.plain 2 (by decide)
    have hh : s.lineHome ⟨⟨0, 0, 0, 2⟩, i⟩ = (⟨0, 0, 0, 2⟩, i) := by simp [State.lineHome, h.remap]
    simp [State.lineVal, h.inside, h.row2, v, State.lineStored, hh, hd, hr.1, hr.2, rsDecode, imgVal]
  · simp only [Bool.not_eq_true] at v
    simp [State.lineVal, h.row2, v, imgVal, h.inside]

theorem staged_line {s : State} (h : Staged s) (i : Nat) (hi : i < 73) : s.lineVal ((s.regionWords 5).lineAt (64 * i)) = imgVal i := by
  rw [h.at5 i hi]
  by_cases h2 : i < 30
  · rw [Nat.div_eq_of_lt h2, Nat.mod_eq_of_lt h2]
    exact staged_row2 h i h2
  · have hr : 2 + i / 30 ∈ [3, 4] := by simp; omega
    have hz : (0x7ff1ff : Nat).testBit i = false :=
      Nat.testBit_lt_two_pow (Nat.lt_of_lt_of_le (by decide) (Nat.pow_le_pow_right (by decide) (by omega : 23 ≤ i)))
    simp [State.lineVal, h.row3 _ hr, h.inside, imgVal, hz]

/-- The first `len` bytes of the image. -/
def imgBytes (len : Nat) : List Byte :=
  ((List.range ((len + 63) / 64)).flatMap (fun i => ((imgVal i).bytes?).getD (List.replicate 64 0))).take len

theorem regionBytes_of {s : State} {e : RegionWords} {f : Nat → LineVal} {len : Nat} (hb : ∀ i, (f i).isBad = false)
    (hv : ∀ i ∈ List.range ((len + 63) / 64), s.lineVal (e.lineAt (64 * i)) = f i) : s.regionBytes e 0 len
      = (((List.range ((len + 63) / 64)).flatMap (fun i => ((f i).bytes?).getD (List.replicate 64 0))).take len, []) := by
  simp only [State.regionBytes, Nat.zero_div, Nat.sub_zero, Nat.zero_add, Nat.mul_zero, List.drop_zero, Prod.mk.injEq]
  constructor
  · congr 1
    simp only [List.flatMap, List.map_map]
    congr 1
    refine List.map_congr_left fun i hi => ?_
    simp [hv i hi]
  · simp only [List.map_map, List.map_eq_nil_iff, List.filter_eq_nil_iff]
    intro p hp
    obtain ⟨i, hi, rfl⟩ := List.mem_map.mp hp
    simp [hv i hi, hb i]

theorem imgVal_good (i : Nat) : (imgVal i).isBad = false := by
  unfold imgVal
  split <;> rfl

theorem staged_bytes {s : State} (h : Staged s) (len : Nat) (hl : (len + 63) / 64 ≤ 73) :
    s.regionBytes (s.regionWords 5) 0 len = (imgBytes len, []) :=
  regionBytes_of imgVal_good fun i hi => staged_line h i (Nat.lt_of_lt_of_le (List.mem_range.mp hi) hl)

theorem img_len : leAt (imgBytes 1152) 0x10 4 + leAt (imgBytes 1152) 0x14 4 = 4609 := by decide +kernel

theorem staged_image {s : State} (h : Staged s) : s.imageBytes 5 = (imgBytes 4609, []) := by
  simp [State.imageBytes, h.size, staged_bytes h 1152 (by decide), img_len, staged_bytes h 4609 (by decide)]

/-- The plan of the image. -/
def imgPlan : Plan := parsePlan 5 (imgBytes 4609)

/-- The image staged in stage 4, in stage 5 under verification with the root of trust's yes, and under a plan with no swap in hand. -/
def ldA : State := ldAt 4
def ldV (swap : Bool) : State := { ldAt 5 with plan := ⟨none, none, some ⟨5, swap, some true⟩⟩ }
def ldS : State := { ldAt 7 with plan := ⟨some emPlan, none, none⟩ }

theorem staged_ldA : Staged ldA := ⟨rfl, rfl, by decide +kernel, by decide +kernel, by decide +kernel, by decide +kernel, by decide +kernel, by decide +kernel⟩
theorem staged_ldS : Staged ldS := ⟨rfl, rfl, by decide +kernel, by decide +kernel, by decide +kernel, by decide +kernel, by decide +kernel, by decide +kernel⟩
theorem staged_ldV (b : Bool) : Staged (ldV b) := by
  cases b <;> exact ⟨rfl, rfl, by decide +kernel, by decide +kernel, by decide +kernel, by decide +kernel, by decide +kernel, by decide +kernel⟩

theorem ldV_log (b : Bool) : (ldV b).logFits imgPlan ((ldV b).loadTable imgPlan) = true := by cases b <;> decide +kernel

theorem ldV_verify (b : Bool) : (ldV b).verify imgPlan = none := by
  simp only [State.verify, State.stage9, ldV_log]
  cases b <;> decide +kernel

theorem img_stage1 : stage1 (imgBytes 4609) 9600 = none ∧ 0x80 ≤ (imgBytes 4609).length := by decide +kernel

/-- In Run at a boundary with a plan and a swap pending. -/
def swapS : State := { run0 with plan := ⟨some emPlan, some emPlan, none⟩ }

theorem staged_passes {s : State} (h : Staged s) (ho : s.stagingOk 5 = true) (hr : s.req.rot = none) :
    s.stagingOk 5 = true ∧ (s.imageBytes 5).2 = [] ∧ 0x80 ≤ (s.imageBytes 5).1.length
      ∧ stage1 (s.imageBytes 5).1 (s.regionWords 5).size = none ∧ s.req.rot = none := by
  rw [staged_image h, h.size]
  exact ⟨ho, rfl, img_stage1.2, img_stage1.1, hr⟩

theorem test_PlanLoading_load_hyps :
    (ldA.served 0x0400 = true ∧ ldA.spent = false ∧ (0x80000005 : Word).getLsbD 31 = true ∧ (0x80000005 : Word).getLsbD 30 = false
      ∧ (0x80000005 : Word).toNat % 64 = 5 ∧ ldA.get Reg.BSTAGE = 4 ∧ ldA.plan = ⟨none, none, none⟩ ∧ ldA.trapped = false
      ∧ ldA.flag Reg.BFAIL = false)
    ∧ (ldA.stagingOk 5 = true ∧ (ldA.imageBytes 5).2 = [] ∧ 0x80 ≤ (ldA.imageBytes 5).1.length
      ∧ stage1 (ldA.imageBytes 5).1 (ldA.regionWords 5).size = none ∧ ldA.req.rot = none) :=
  ⟨by decide +kernel, staged_passes staged_ldA (by decide +kernel) rfl⟩

theorem test_PlanLoading_swap_hyps :
    (ldS.served 0x0400 = true ∧ ldS.spent = false ∧ (0xC0000005 : Word).getLsbD 31 = true ∧ (0xC0000005 : Word).getLsbD 30 = true
      ∧ (0xC0000005 : Word).toNat % 64 = 5 ∧ ldS.planLoaded = true ∧ ldS.trapped = false
      ∧ ldS.stepS = ldS.get64 Reg.SWAP_STEP_LO Reg.SWAP_STEP_HI ∧ ldS.inStep = false)
    ∧ (ldS.stagingOk 5 = true ∧ (ldS.imageBytes 5).2 = [] ∧ 0x80 ≤ (ldS.imageBytes 5).1.length
      ∧ stage1 (ldS.imageBytes 5).1 (ldS.regionWords 5).size = none ∧ ldS.req.rot = none) :=
  ⟨by decide +kernel, staged_passes staged_ldS (by decide +kernel) rfl⟩

theorem test_PlanLoading_refused_hyps :
    (ldA.served 0x0400 = true ∧ ldA.spent = false ∧ ldA.planLoaded = false)
    ∧ (∀ s ∈ [ldS.set Reg.STEP_LO 1, ldS.set Reg.PHASE 1], s.served 0x0400 = true ∧ s.spent = false ∧ s.planLoaded = true
        ∧ s.trapped = false)
    ∧ (0 < (ldS.set Reg.STEP_LO 1).stepS ∧ (ldS.set Reg.PHASE 1).stepS = 0 ∧ (ldS.set Reg.PHASE 1).inStep = true)
    ∧ (let s := seq1 openI (fun q => { q with trapped := true })
       s.served 0x0400 = true ∧ s.spent = false ∧ s.trapped = true) := by decide +kernel

theorem test_PlanLoading_verified_hyps : ∀ b, ((ldV b).plan.load = some ⟨5, b, some true⟩ ∧ (ldV b).log = none
    ∧ (ldV b).get Reg.BSTAGE = 5 ∧ (ldV b).trapped = false ∧ (ldV b).req.st = none ∧ (ldV b).plan.plan = none)
    ∧ ((ldV b).imageBytes 5).2 = [] ∧ (ldV b).verify (parsePlan 5 ((ldV b).imageBytes 5).1) = none := by
  intro b
  rw [staged_image (staged_ldV b)]
  exact ⟨by cases b <;> decide +kernel, rfl, ldV_verify b⟩

theorem test_PlanLoading_failed_hyps :
    (let s : State := { ldV false with mem := [] }
     s.plan.load = some ⟨5, false, some true⟩ ∧ (s.verify (parsePlan 5 (s.imageBytes 5).1)).isSome = true ∧ s.get Reg.BSTAGE = 5
       ∧ s.plan.plan = none ∧ s.req.st = none ∧ (s.imageBytes 5).2 = [])
    ∧ (let s := noImage (ldV false)
       s.plan.load = some ⟨5, false, some true⟩ ∧ (s.imageBytes 5).2 ≠ [] ∧ s.get Reg.BSTAGE = 5 ∧ s.plan.plan = none)
    ∧ swapS.hotBad emPlan = none
    ∧ (let p : Plan := { emPlan with hdr := { emPlan.hdr with hotLen := 64 } }
       let s : State := { noImage swapS with plan := ⟨some emPlan, some p, none⟩ }
       s.hotBad p = some 0 ∧ s.stepS = s.get64 Reg.SWAP_STEP_LO Reg.SWAP_STEP_HI ∧ s.req.st = none)
    ∧ (∀ s ∈ [swapS, swapS.set Reg.STEP_LO 1, swapS.set Reg.SWAP_STEP_LO 1], s.plan.pend = some emPlan ∧ s.plan.plan = some emPlan
        ∧ s.atBoundary = true ∧ s.trapped = false ∧ s.plan.load = none ∧ s.step.goHeld = false)
    ∧ (swapS.stepS = swapS.get64 Reg.SWAP_STEP_LO Reg.SWAP_STEP_HI
      ∧ (swapS.set Reg.STEP_LO 1).get64 Reg.SWAP_STEP_LO Reg.SWAP_STEP_HI < (swapS.set Reg.STEP_LO 1).stepS
      ∧ (swapS.set Reg.SWAP_STEP_LO 1).stepS < (swapS.set Reg.SWAP_STEP_LO 1).get64 Reg.SWAP_STEP_LO Reg.SWAP_STEP_HI) := by
  decide +kernel

/-- `run1` with only region 1, a line of it written. -/
def onlyAct : State :=
  lined { run1 with regs := ([(Reg.BSTAGE, 7), (Reg.LSTATE, 2)] ++ entry 1 6 0 1 ++ [(Reg.PRESENT, 3), (Reg.UDEV, 3)]
    : List (Field × Nat)).map (fun x => (x.1.key, x.2)) } 1 0 [0xAB]

def rloc0 : RowLoc := ⟨0, 0, 0, 0⟩
def rem (n : Nat) : RemapEntry := ⟨0, 0, n, 5, n⟩
def lastS (l : List RemapEntry) : State := { onlyAct with fault := { onlyAct.fault with remap := l, lasting := [⟨rloc0, 0⟩] } }

def tabRep (r : Repair) (s : State) : State := { s with req := { s.req with repairs := [r] } }

theorem test_FaultControls_hyps :
    (let s := withRegs run1 [(Reg.HELD, 1), (Reg.HOLD_CAUSE, 1)]
     s.step.goHeld = false ∧ s.served 0x2000 = true ∧ (0x80000000 : Word).getLsbD 31 = true ∧ (0x80000000 : Word).getLsbD 30 = false
       ∧ s.flag Reg.HELD = true ∧ s.holdMayEnd = true ∧ s.cloverTaken = true ∧ (0x40000000 : Word).getLsbD 30 = true
       ∧ (s.set Reg.PHASE 7).get Reg.PHASE = 7 ∧ (s.set Reg.PHASE 7).holdMayEnd = true ∧ (s.set Reg.SHL_N 1).holdMayEnd = false)
    ∧ (run1.served 0x2034 = true ∧ run1.inRun = true ∧ run1.served 0x3004 = true)
    ∧ (let s := tabRep (.mapout 0 0) onlyAct
       s.req.repairs = [.mapout 0 0] ∧ s.atBoundary = true ∧ s.entriesOn 0 0 = [1] ∧ (s.entriesOn 0 0).all s.disablesOnMapout = true
         ∧ (s.entriesOn 0 0).any s.losesOnMapout = false)
    ∧ (let s := tabRep (.mapout 0 0) run1
       s.atBoundary = true ∧ (s.entriesOn 0 0).any s.losesOnMapout = true)
    ∧ ((tabRep (.tables 1) run1).inService 1 = true ∧ (tabRep (.tables 2) run1).inService 2 = false
      ∧ (tabRep (.tables 2) run1).plan.plan = some emPlan ∧ (tabRep (.tables 1) run1).atBoundary = true)
    ∧ (let s := withRegs stage4 ((List.range 6).map (fun n => (Reg.R_EN n, 0)) ++ [(Reg.RM_DEV, 23)])
       s.served 0x3004 = true ∧ s.req.repairs.any Repair.isRemap = false ∧ s.get Reg.RM_DEV = 23 ∧ ∀ n < 64, s.enabled n = false)
    ∧ (run1.set Reg.RM_DEV 24).get Reg.RM_DEV = 24
    ∧ (∀ n < 4, let s := lastS ((List.range n).map rem)
       s.step.goHeld = false ∧ s.atBoundary = true ∧ s.req.repairs = [] ∧ s.fault.lasting = [⟨rloc0, 0⟩] ∧ rloc0.row ≠ s.spareRow 0
         ∧ (∀ e ∈ s.fault.remap, e.row ≠ s.spareRow e.dev)
         ∧ (List.range 4).find? (fun n => !(s.slotsUsed 0 rloc0.bankIx).contains n) = some n)
    ∧ (lastS []).lineVal ⟨rloc0, 0⟩ = .good (takePad 64 [0xAB]) := by decide +kernel

/-! ### Self-test -/

def stS (r : StReq) : State := { run0 with req := { run0.req with st := some r } }

theorem test_SelfTestResults_hyps :
    (run0.step.goHeld = false ∧ run0.step.cntHeld = false ∧ run0.served 0x4000 = true ∧ run0.req.st = none
      ∧ run0.inStep = false ∧ (run0.writeFields 0x4000 0x80000000).testRefusal ⟨0, 0, 0, false⟩ = none
      ∧ (let u := run0.writeFields 0x4000 0xF8000000
         ∃ c, u.testRefusal ⟨u.get Reg.ST_CLASS, u.get Reg.ST_DEV, u.get Reg.ST_ROW, false⟩ = some c))
    ∧ ((stS ⟨0, 0, 0, false⟩).served 0x4000 = true ∧ (stS ⟨0, 0, 0, false⟩).req.st ≠ none)
    ∧ (let s := run1.set Reg.PHASE 1
       s.served 0x4000 = true ∧ s.req.st = none ∧ s.inRun = true ∧ s.inStep = true)
    ∧ ((stS ⟨0, 0, 0, false⟩).testRefusal ⟨0, 0, 0, false⟩ = none ∧ (stS ⟨8, 0, 0, false⟩).testRefusal ⟨8, 0, 0, false⟩ = some 0x05)
    ∧ (∀ i < testInstances 0, testSignature (List.replicate 96 (testExpected 0)) 0 i = testExpected 0)
    ∧ (∀ i < testInstances 6, testSignature (List.replicate 32 (testExpected 6)) 6 i = testExpected 6)
    ∧ (stS ⟨6, 1, 0, true⟩).testWaits ⟨6, 1, 0, true⟩ = false ∧ ((stS ⟨6, 1, 0, true⟩).set Reg.HOT105 2).testWaits ⟨6, 1, 0, true⟩ = true
    ∧ ((stS ⟨6, 1, 0, true⟩).req.st = some ⟨6, 1, 0, true⟩ ∧ (1 : Nat) < testInstances 6
      ∧ testSignature [testExpected 6, 0] 6 1 ≠ testExpected 6
      ∧ ∀ j < 1, testSignature [testExpected 6, 0] 6 j = testExpected 6) :=
  ⟨⟨by decide +kernel, by decide +kernel, by decide +kernel, by decide +kernel, by decide +kernel, by decide +kernel, _, rfl⟩,
    by decide +kernel, by decide +kernel, by decide +kernel, by decide +kernel, by decide +kernel, by decide +kernel, by decide +kernel,
    by decide +kernel⟩

/-! ### Transfers -/

def xreq (imp : Bool) (off : Nat) : XReq := ⟨imp, 0, 0, false, 1, off, 0, 0, 0, 0, false⟩
def xS (x : XReq) : State := { run1 with req := { run1.req with x := some x } }
def shardCfg0 : ShardCfg := { shard0.cfg with sregion := 3 }

/-- The header of the record of shard 0 while its rows are zero, and the record. -/
def recHead : List Byte := recordHeader shardCfg0 0 0 0 [] 15854246699382582233
def rec0 : List Byte := recHead ++ List.replicate 640 0
def impS : State := { lined run1 1 0 recHead with req := { run1.req with x := some (xreq true 0) } }
def repS (n : Nat) : State := { run1 with req := { run1.req with r := some ⟨false, 2, 0, n, ⟨0, 0, 0, 10⟩, 0⟩ } }

theorem test_TransferResults_hyps :
    (run1.step.goHeld = false ∧ run1.served 0x0300 = true ∧ run1.req.x = none ∧ run1.served 0x0320 = true ∧ run1.req.r = none)
    ∧ ((xS (xreq false 0)).served 0x0300 = true ∧ (xS (xreq false 0)).req.x ≠ none)
    ∧ (let s := xS (xreq false 0)
       let z := (s.unitRecs emPlan (emPlan.shardUnits 0)).2
       let rows := (List.range 1).foldl (fun (a : XAcc) r => a.near 160 r 10 (emPlan.shardRow 0 r)) ⟨[], true, z⟩
       s.mayTransfer = true ∧ s.exportRefusal (xreq false 0) = none ∧ emPlan.shardCfg? 0 = some shardCfg0 ∧ emPlan.farHome 0 = none
         ∧ (shardCfg0.nrows = 1 ∧ shardCfg0.elems = 160 ∧ (s.unitRecs emPlan (emPlan.shardUnits 0)).1 = some [] ∧ rows.ok = true))
    ∧ ((xS (xreq false 3200)).exportRefusal (xreq false 3200) = some 0x02 ∧ (xS (xreq false 3136)).exportRefusal (xreq false 3136) = none)
    ∧ (impS.plan.plan = some emPlan ∧ impS.mayTransfer = true ∧ impS.otherEnd (xreq true 0) 64 = true
      ∧ holdsB impS 1 0 64 recHead = true ∧ badMagic recHead = false ∧ importLen recHead = 704 ∧ impS.otherEnd (xreq true 0) 704 = true
      ∧ holdsB impS 1 0 704 rec0 = true)
    ∧ (emPlan.importRefusal rec0 = none ∧ leAt rec0 4 2 = 0 ∧ impS.get Reg.SHL_N ≤ 16)
    ∧ (xS (xreq true 3777)).otherEnd (xreq true 3777) 64 = false
    ∧ ((repS 1).replayRefusal ⟨false, 2, 0, 1, ⟨0, 0, 0, 10⟩, 0⟩ = some 0x09 ∧ (repS 1).mayTransfer = true) := by decide +kernel

/-- Spare region 2 over banks 0 and 1; an export whose record is its header alone, to the last line of region 1. -/
def repT : State := (repS 1).set (Reg.R_BANKMASK 2) 3

theorem test_TransferResults_more_hyps :
    (repT.mayTransfer = true ∧ repT.replayRefusal ⟨false, 2, 0, 1, ⟨0, 0, 0, 10⟩, 0⟩ = none)
    ∧ (let p : Plan := { emPlan with shards := [{ shard0 with cfg := { shardCfg0 with nrows := 0 } }] }
       let s : State := { xS (xreq false 3776) with plan := ⟨some p, none, none⟩ }
       let z := (s.unitRecs p (p.shardUnits 0)).2
       let blank := recordHeader { shardCfg0 with nrows := 0 } 0 0 z.stepG [] 0
       s.exportRefusal (xreq false 3776) = none ∧ (z.sendRecord (xreq false 3776) blank (recordDigest blank)).1 = true)
    ∧ (let s : State := { xS (xreq false 0) with mem := [((emPlan.shardRow 0 0).addr + 0x7F8, 3)] }
       let z := (s.unitRecs emPlan (emPlan.shardUnits 0)).2
       s.exportRefusal (xreq false 0) = none ∧ (s.unitRecs emPlan (emPlan.shardUnits 0)).1 = some []
         ∧ ((List.range 1).foldl (fun (a : XAcc) r => a.near 160 r 10 (emPlan.shardRow 0 r)) ⟨[], true, z⟩).ok = false)
    ∧ (let x : RReq := ⟨true, 2, 0, 1, ⟨0, 0, 0, 10⟩, 0⟩
       repT.replayRefusal x = none ∧ repT.mustWait x.loc 4 = false ∧ (repT.set Reg.HOT105 1).mustWait x.loc 4 = true) := by
  decide +kernel

/-! ### Keeper, power, bring-up -/

def zS (r : Nat) (ran : Bool) : State :=
  { (run0.set Reg.ZBUSY 1) with req := { run0.req with z := some ⟨r, ran⟩ } }
def lcs (n : Nat) (s : State) : State := { s with fuses := { s.fuses with lcs := n } }
def rotS (kind item : Nat) : State := { run0 with req := { run0.req with rot := some ⟨kind, item, 255⟩ } }

theorem test_KeeperRequests_hyps :
    (run0.harebell = false ∧ run0.served 0x482C = true ∧ run0.req.z = none ∧ run0.inStep = false ∧ run0.zeroRefusal 1 = none
      ∧ run0.zeroRefusal 62 = some 0x01 ∧ (0x80000001 : Word).toNat % 64 = 1 ∧ (0x8000003E : Word).toNat % 64 = 62)
    ∧ (let s := run1.set Reg.PHASE 1
       s.served 0x482C = true ∧ s.inRun = true ∧ s.inStep = true)
    ∧ ((zS 1 false).flag Reg.ZBUSY = true ∧ (zS 1 false).inReset = false ∧ (zS 1 false).harebell = false
      ∧ ((zS 1 false).zeroRows 1).length = 2 ∧ (zS 1 false).fault.remap = [] ∧ (zS allRegions true).get Reg.ZERR = 0
      ∧ ((zS allRegions true).set Reg.ZERR 1).get Reg.ZERR ≠ 0)
    ∧ (run0.served 0x480C = true ∧ (0x0A000000 : Word).getLsbD 27 = true ∧ (0x0A000000 : Word).toNat / 2 ^ 25 % 4 = 1
      ∧ run0.advanceRefusal 1 = none ∧ run0.req.rot = none ∧ run0.advanceRefusal 2 = some 0x01 ∧ run0.advanceRefusal 3 = some 0x01
      ∧ (0x0E000000 : Word).toNat / 2 ^ 25 % 4 = 3)
    ∧ (run0.served 0x4810 = true ∧ run0.get Reg.DBG_LVL = 0 ∧ run0.fuses.lcs = 0 ∧ (lcs 1 run0).fuses.lcs = 1 ∧ (lcs 2 run0).harebell = false
      ∧ run0.flag Reg.DBG_PEND = false ∧ (lcs 2 run0).served 0x4810 = true ∧ (run0.set Reg.DBG_LVL 2).get Reg.DBG_LVL = 2
      ∧ [0x10000000, 0x20000000, 0x30000000].map (fun v : Word => v.toNat / 2 ^ 28 % 4) = [1, 2, 3])
    ∧ (∀ k < 4, (rotS k 1).req.rot = some ⟨k, 1, 255⟩ ∧ (rotS k 2).req.rotQueue = [])
    ∧ (let s : State := { (rotS 1 0).set Reg.BSTAGE 5 with plan := ⟨none, none, some ⟨5, false, none⟩⟩ }
       s.req.rot = some ⟨1, 0, 255⟩ ∧ s.plan.load.isSome = true ∧ s.get Reg.BSTAGE = 5 ∧ s.harebell = false) := by decide +kernel

/-- A device that trains. -/
def goodDev : TrainResult := ⟨true, true, false, 24, some 0x58420001, true, true⟩

def powS (n : Nat) : State := { run0 with req := { run0.req with power := some n } }
def hbS (n : Nat) : State := (powS n).set Reg.PSTATE 2

theorem test_PowerTransitions_hyps :
    (run0.step.goHeld = false ∧ run0.served 0x4820 = true ∧ run0.get Reg.PSTATE = 0 ∧ (run0.set Reg.PSTATE 1).get Reg.PSTATE = 1
      ∧ (run0.set Reg.PSTATE 1).served 0x4820 = true ∧ (run0.set Reg.PSTATE 2).served 0x4820 = true
      ∧ [0, 0x10000000, 0x20000000].map (fun v : Word => v.toNat / 2 ^ 28 % 4) = [0, 1, 2])
    ∧ (∀ n ∈ [1, 2], (powS n).atBoundary = true ∧ (powS n).inReset = false ∧ (powS n).harebell = false ∧ (powS n).req.power = some n)
    ∧ ((powS 2).set Reg.VKEEP_OK 1).harebellRefusal = none ∧ ((powS 2).set Reg.HELD 1).harebellRefusal = some 0x01
    ∧ (∀ n < 2, (hbS n).req.power = some n ∧ (hbS n).harebell = true ∧ (hbS n).inReset = false ∧ (hbS n).fuses.zpend = false
        ∧ (hbS n).wcb = [] ∧ (hbS n).step.entries = [] ∧ (hbS n).exitFailed = false)
    ∧ (withRegs (hbS 0) [(Reg.RST_CAUSE, 5), (Reg.BFAIL, 1), (Reg.BSTAGE, 2)]).exitFailed = true
    ∧ (∀ d < 24, trainCause (([goodDev] : List TrainResult).getD d noDevice) = if d = 0 then 0 else 1)
    ∧ trainCause ((List.replicate 23 goodDev ++ [{ goodDev with loopOk := false }]).getD 23 noDevice) = 5 := by decide +kernel

/-- In stage `n` of bring-up, out of reset. -/
def bringS (n : Nat) : State := run0.set Reg.BSTAGE n

theorem test_BringUpResults_hyps :
    (State.reset.inReset = true ∧ State.reset.pins.rstLow = true ∧ run0.pins.rstLow = false ∧ run0.inReset = false
      ∧ run0.harebell = false ∧ (hbS 0).harebell = true)
    ∧ ({ run0 with pins := { run0.pins with selfRefAt := some 400 } } : State).pins.selfRefAt = some 400
    ∧ (∀ n ∈ [2, 6], (bringS n).served 0x8000 = true ∧ (bringS n).get Reg.BSTAGE = n ∧ (bringS n).get Reg.TSTATE ≠ 1
        ∧ (bringS n).flag Reg.BFAIL = false)
    ∧ (∀ n ∈ [2, 3, 6], let s := (bringS n).set Reg.TSTATE 1
       s.get Reg.TSTATE = 1 ∧ s.get Reg.BSTAGE = n ∧ s.inReset = false ∧ s.harebell = false)
    ∧ run0.coldOnly = false ∧ (run0.set Reg.CHK_FAIL 1).coldOnly = true ∧ ((bringS 6).set Reg.BFAIL 1).flag Reg.BFAIL = true
    ∧ ((bringS 3).get Reg.BSTAGE = 3 ∧ (bringS 3).fuses.zpend = false)
    ∧ (let s := withRegs (bringS 6) [(Reg.BOUND, 1), (Reg.TICK_OK, 1)]
       s.get Reg.BSTAGE = 6 ∧ s.bwait = 0 ∧ s.journalOut = true ∧ s.step.goHeld = false)
    ∧ (bringS 6).bwait ≠ 0
    ∧ (run0.flag Reg.TICK_OK = false ∧ (run0.set Reg.TICK_OK 1).flag Reg.TICK_OK = true)
    ∧ (run1.plan.plan = some emPlan ∧ emPlan.hdr.topo = 9 ∧ emPlan.slices = [7] ∧ run1.inStep = false
      ∧ (run1.set Reg.PHASE 1).inStep = true) := by decide +kernel

/-! ### Tier, timed events, bank-side units, Yarrow -/

def srow : RowLoc := ⟨0, 0, 0, 8⟩
def mv (op : Nat) (begun : Bool) : Move := ⟨op, srow, 1, 1, 3, 0, 0, 0, begun, 0, 0, 0⟩
def mvS (m : Move) : State :=
  let s := withRegs run1 [(Reg.TEN, 1), (Reg.TIER_SLOTS, 4)]
  { s with tier := { s.tier with queue := [m] }, pins := { s.pins with tierUp := true } }

/-- The pieces of far slot 3 with one valid line. -/
def farPs (meta_ : Line) : List FarPiece :=
  (List.range 32).map (fun k => ⟨3, k, if k = 0 then 0xAB else if k = 30 then 1640105512 else if k = 31 then meta_ else 0, false⟩)
def pieced (m : Move) (ps : List FarPiece) : State := { mvS m with tier := { (mvS m).tier with pieces := ps } }
def movedRow (c : Bool) (st : MovedPhase) (left : Nat) : MovedRow := ⟨srow, 3, 0, c, st, left⟩
def outS (r : MovedRow) : State :=
  { mvS (mv 1 true) with tier := { (mvS (mv 1 true)).tier with queue := [], moved := [r], dueQ := [srow] } }

/-- The metadata piece of a far row whose line 0 is valid, and one that cannot be read. -/
def farMeta : Line := BitVec.ofNat 512 (3098476552220835841 * 2 ^ 448)
def farMetaBad : Line := farMeta ^^^ 3 <<< 448

theorem test_TierMoves_hyps :
    ((mvS (mv 1 false)).tier.queue = [mv 1 false] ∧ (mvS (mv 1 false)).tierOpen = true ∧ (mvS (mv 1 false)).inAllowed (mv 1 false) = true
      ∧ (mvS (mv 1 false)).tier.journal.length ≠ 4096 ∧ (mvS { mv 1 false with fslot := 4 }).inAllowed { mv 1 false with fslot := 4 } = false)
    ∧ (mvS (mv 1 false)).moverRoom = true ∧ (outS (movedRow true .due 0)).outRoom = true
    ∧ (let s := outS (movedRow true .due 0)
       let s : State := { s with tier := { s.tier with moved := movedRow true .due 0 :: List.replicate 512 { movedRow true .writing 1 with loc := rloc0 } } }
       s.outRoom = false ∧ s.moverRoom = false)
    ∧ ((mvS (mv 1 true)).xAwaits 3 31 = false ∧ (mvS (mv 1 true)).slotAwaited 3 31 = true ∧ (3 : Word).toNat = 3
      ∧ (31 : BitVec 5).toNat = 31 ∧ (mvS (mv 1 true)).tierOpen = true)
    ∧ (let s := outS (movedRow false .due 0)
       s.tier.dueQ = [srow] ∧ s.tier.moved.find? (fun r => r.loc == srow && r.st == .due) = some (movedRow false .due 0)
         ∧ s.tier.journal[0]? = none ∧ s.isStateRow srow = true)
    ∧ (let s := outS (movedRow true .due 0)
       s.tier.moved.find? (fun r => r.loc == srow && r.st == .due) = some (movedRow true .due 0) ∧ s.flag Reg.THALT = false
         ∧ (s.rowMeta srow).any (fun m => m.valid == 0) = true ∧ s.pairHeld 0 0 srow.pair = false)
    ∧ (let s := outS (movedRow true .writing 32)
       s.tier.moved.find? (fun r => r.fslot == 3 && r.st == .writing && r.left != 0) = some (movedRow true .writing 32))
    ∧ (let s := outS (movedRow true .writing 0)
       s.tier.moved.find? (fun r => r.st == .writing && r.left == 0) = some (movedRow true .writing 0)) := by decide +kernel

theorem test_TierMoves_data_hyps :
    (let b := (pieced (mv 1 true) (farPs farMeta)).slotPieces 3 32
     b.any (fun b => (farDecode 3 b).isLeft) = true)
    ∧ (let s := pieced (mv 1 true) (farPs farMeta)
       s.mappedOut 0 0 = false ∧ s.rowRemapped srow = false ∧ s.epochLines = [] ∧ (Meta.ofWord 3098476552220835841).phase ≠ 3)
    ∧ (let b := (pieced (mv 1 true) (farPs farMetaBad)).slotPieces 3 32
       b.any (fun b => (farDecode 3 b).isRight) = true)
    ∧ ((mvS (mv 2 false)).copyAllowed (mv 2 false) = true ∧ (mvS (mv 3 false)).copyAllowed (mv 3 false) = true
      ∧ (mvS { mv 2 false with funit := 2 }).copyAllowed { mv 2 false with funit := 2 } = false)
    ∧ (let s := pieced (mv 2 true) (farPs farMeta)
       (s.slotPieces 3 30).any (fun b => (lineWrites (s.regionWords 1) 0 b).all (fun w => plainB s w.1)) = true)
    ∧ holdsB (mvS (mv 3 false)) 1 0 1920 (List.replicate 1920 0) = true
    ∧ ((mvS (mv 3 true)).tier.queue = [mv 3 true] ∧ (mv 3 true).left = 0) := by decide +kernel

def heldPair : SeqFl := ⟨0, 0, 0, 0, 8, 8, 0, 0, 16000, 1, none, false, false⟩
def pairS (q : SeqFl) : State := { run1 with dev := { run1.dev with seqs := [q] } }

theorem test_TimedEvents_hyps :
    (run1.inReset = false ∧ run1.harebell = false ∧ run1.present 1 = true ∧ run1.pins.selfRef = false)
    ∧ (run1.channelLive 0 0 = true ∧ (0, 0, 0) ∉ run1.dev.refresh ∧ run1.retire.pairHeld 0 0 0 = false
      ∧ (pairS heldPair).channelLive 0 0 = true ∧ (pairS heldPair).retire.pairHeld 0 0 0 = true)
    ∧ (let s := run1.set Reg.SCRUB_EN 1
       s.scrubs = true ∧ s.present 0 = true ∧ s.pins.selfRef = false ∧ 0 ∉ s.fault.lapDone ∧ s.scrubNext 0 (s.scrubAt 0) = some ⟨0, 0, 0, 0⟩
         ∧ s.retire.dev.seqs = [] ∧ 0 ≠ s.spareRow 0 ∧ (s.rowMeta ⟨0, 0, 0, 0⟩).any (fun m => !m.far) = true)
    ∧ (({ run1 with waits := [⟨.seqStart, 1, 4, true⟩, ⟨.seqStart, 2, 5, false⟩] } : State).waits.find?
      (fun y => y.watch == .seqStart && !y.marked) = some ⟨.seqStart, 2, 5, false⟩)
    ∧ ((hbS 0).harebell = true ∧ (hbS 0).inReset = false) := by decide +kernel

/-! ### Yarrow -/

def log1 : StepLog := ⟨2, 0, 2, 5, 0, 0, 0, 0, 0, List.replicate 8 0, ⟨192, 192, 192, 192, 32960⟩, 0x200, 1, [], [], [], []⟩

/-- A plan whose emission list has one chunk for block 3 and whose instance list names emission instance 0. -/
def reP : Plan :=
  { emPlan with
    base := { sub0 with eeN := 1 }
    sections := [⟨0xC, false, 0x300, ([1, 0, 16, 0, 1, 0, 0, 0, 0x3FF01, 0, 0, 0] : List Nat).flatMap (leBytes 4)⟩,
      ⟨0xD, false, 0x200, ([0, 0x80FF, 0, 0, 1, 0, 0, 0, 0] : List Nat).flatMap (leBytes 4)⟩] }

def yarS (n : Nat) : State :=
  { run1.set Reg.YSTATE n with plan := ⟨some reP, none, none⟩, log := some log1, yarrow := ⟨some 1, some ⟨true, 0, []⟩⟩ }

theorem test_YarrowResults_hyps :
    (∀ n ∈ [1, 2], (yarS n).plan.plan = some reP ∧ (yarS n).log = some log1 ∧ (yarS n).get Reg.YSTATE = n)
    ∧ ((yarS 2).served 0x2048 = true ∧ (yarS 1).served 0x2048 = true ∧ (yarS 1).yarrow.verdict ≠ none ∧ (yarS 1).tier.queue = []
      ∧ ((yarS 1).set Reg.BSTAGE 5).get Reg.BSTAGE = 5)
    ∧ ([0x80010000, 0x80020000, 0x80030000, 0x80000000].map (fun v : Word => v.toNat / 2 ^ 16 % 4) = [1, 2, 3, 0])
    ∧ ((yarS 3).yarrow.reemit = some ⟨true, 0, []⟩ ∧ (yarS 3).inRun = true ∧ (yarS 3).inStep = false ∧ (yarS 3).step.chunks = []
      ∧ (yarS 3).step.insts = [] ∧ ((yarS 3).startReemit reP log1 ⟨true, 0, []⟩).step.insts.all (·.ended) = false)
    ∧ (let s := withStep (yarS 3) (fun t => { t with insts := [{ inst0 with ended := true }] })
       s.step.insts ≠ [] ∧ s.settleInsts.step.insts.all (·.ended) = true ∧ s.step.goHeld = false) := by decide +kernel

/-- The log's areas can be read, and cannot once their channel is mapped out. -/
theorem test_YarrowResults_areas_hyps :
    (yarS 1).areasLost log1 = false ∧ ((yarS 1).set Reg.MAPPED_LO 1).areasLost log1 = true := by decide +kernel

/-! ### Bank-side units -/

/-- An extended command's word for pair 0: opcode and the bits below. -/
def xw (op low : Nat) : BitVec 48 := BitVec.ofNat 48 (op * 2 ^ 44 + low)
def bsuQ (opn : Nat) : State := pairS { heldPair with opn := opn }

theorem test_BsuCommands_hyps :
    (run1.extendedOk 0 = true ∧ run1.mappedOut 0 0 = false)
    ∧ (let w := xw 1 (8 * 2 ^ 25 + 8 * 2 ^ 10 + 2 * 2 ^ 8)
       xop w = 1 ∧ xfld w 9 8 ≠ 3 ∧ run1.retire.pairStarts 0 0 (xk w) = true ∧ (run1.retire.startTime 0 1).isSome = true)
    ∧ (∀ o < 3, (bsuQ o).extendedOk 0 = true ∧ (bsuQ o).mappedOut 0 0 = false
        ∧ (bsuQ o).seqOn 0 0 0 = some { heldPair with opn := o })
    ∧ (∀ k ∈ [0, 5], xop (xw 2 (k * 2 ^ 37)) = 2 ∧ xk (xw 2 (k * 2 ^ 37)) = 0 ∧ badSect false (xfld (xw 2 (k * 2 ^ 37)) 39 37) = false)
    ∧ badSect false (xfld (xw 2 (6 * 2 ^ 37)) 39 37) = true ∧ badSect true (xfld (xw 2 (2 ^ 36 + 3 * 2 ^ 37)) 39 37) = true
    ∧ (xop (xw 3 0) = 3 ∧ badOperand false (PassRow.ofLine 0) = false ∧ (PassRow.ofLine 0).rule ≠ 15
      ∧ badOperand false (PassRow.ofLine 0xB0000000) = true ∧ badOperand false (PassRow.ofLine 0xF0000000) = false
      ∧ (PassRow.ofLine 0xF0000000).rule = 15)
    ∧ (xop (xw 4 0) = 4 ∧ badOperand true (PassRow.ofLine 0x04000000) = false ∧ badOperand true (PassRow.ofLine 0) = true)
    ∧ (let w := xw 5 (29 * 2 ^ 32 + 14 * 2 ^ 28 + 1 * 2 ^ 38)
       xop w = 5 ∧ atomicSize (xfld w 39 38) = some 8 ∧ xfld w 36 32 < 30 ∧ 4 * xfld w 31 28 % 8 = 0
         ∧ (((bsuQ 1).lineVal ⟨⟨0, 0, 0, 8⟩, 29⟩).bytes?).isSome = true)
    ∧ (atomicSize (xfld (xw 5 (3 * 2 ^ 38)) 39 38) = none ∧ xop (xw 5 (3 * 2 ^ 38)) = 5)
    ∧ (∀ k < 3, xop (xw 6 (k * 2 ^ 38)) = 6 ∧ xfld (xw 6 (k * 2 ^ 38)) 39 38 = k)
    ∧ (∀ k ∈ [0, 2, 3], xop (xw 7 (k * 2 ^ 36)) = 7 ∧ xfld (xw 7 (k * 2 ^ 36)) 39 36 = k ∧ xfld (xw 7 (k * 2 ^ 36)) 35 35 = 0)
    ∧ (xop (xw 7 (2 ^ 35)) = 7 ∧ xfld (xw 7 (2 ^ 35)) 35 35 = 1)
    ∧ (∀ k < 4, xop (xw 8 (k * 2 ^ 38)) = 8 ∧ xfld (xw 8 (k * 2 ^ 38)) 39 38 = k) := by
  refine ⟨?_, ?_, ?_, ?_, ?_, ?_, ?_, ?_, ?_, ?_, ?_, ?_, ?_, ?_⟩ <;> decide +kernel

def res0 : RowResult := ⟨0, 0, 0, 0, Flags.clear, 0, false, 0, 0, 0⟩

/-- A group out of service gets none of the commands that do work. -/
theorem test_BsuCommands_service_hyps :
    (run1.set Reg.OOS 1).bit Reg.OOS 0 = true ∧ outOfServiceOk (xw 2 0) = false ∧ outOfServiceOk (xw 8 0) = true
      ∧ run1.bit Reg.OOS 0 = false ∧ heldPair.sb < 2 := by decide +kernel

theorem test_BsuCommands_result_hyps :
    (let s := run1.modBsu 0 0 0 (fun b => { b with result := some res0 })
     (s.bsu 0 0 0).result = some res0) ∧ (run1.bsu 0 0 0).result = none ∧ (24 : BitVec 5).toNat = 24 := by decide +kernel

/-! ### The block as a whole -/

def answersNext (c : Instr) (s : State) : Bool :=
  match exec c s with
  | .next _ => true
  | .fault _ | .refused _ => false

theorem test_CommandFrames_hyps : answersNext (.go 0x80000000) run1 = true ∧ answersNext .coldReset run1 = true := by decide +kernel

theorem test_InvKept_hyps : run1.Inv ∧ answersNext (.go 0x80000000) run1 = true := by
  refine ⟨?_, by decide +kernel⟩
  unfold State.Inv regsOk Seq.ok
  decide +kernel

theorem test_StepRunsFront_hyps : run1.pending = [] := rfl

theorem test_SareninaRoundTrip_hyps :
    ∀ i ∈ [Instr.ld ⟨true, 7⟩ 15 7 3 0xFFFFFFFF, .wcr al 15 0x08FC, .jt al 15 4096, .shli al 15 15 63, .fclr al 0 5, .nop al],
      i.wf = true ∧ (sarEncode i).isSome = true := by decide +kernel

/-- `run1` with a row whose metadata word has two wrong bits, and the same row with none. -/
def badMeta : State := { run1 with mem := [(2048 * 8 + 0x7F8, 3)] }

theorem test_MetadataCode_hyps : metaDecode (BitVec.ofNat 64 (leNat (memReads badMeta.mem (srow.addr + 0x7F8) 8))) = none := by
  decide +kernel

theorem test_LineWritesReadBack_hyps :
    (let x : LineLoc := ⟨rloc0, 0⟩
     (onlyAct.rowMeta rloc0).any (fun m => !m.far) = true ∧ onlyAct.mappedOut 0 0 = false ∧ (List.replicate 64 (0 : Byte)).length = 64
       ∧ onlyAct.lineHome x = (rloc0, 0) ∧ (onlyAct.lineVal x).bytes? = some (takePad 64 [0xAB]))
    ∧ (let x : LineLoc := ⟨⟨0, 0, 0, 5⟩, 3⟩
       let s := lastS [rem 3]
       (s.rowMeta x.loc).any (fun m => !m.far) = true ∧ s.lineHome x = (⟨0, 0, 0, s.spareRow 0⟩, 3) ∧ x.loc.row ≠ s.spareRow 0) := by
  decide +kernel

/-! ### Words written out from R185 and the opcode lists -/

theorem test_words_decode :
    sarDecode 0x1392340000000000 = some (.add ⟨true, 1⟩ 2 3 4) ∧ sarDecode 0x10010000FFFFFFFF = some (.li al 1 0xFFFFFFFF)
    ∧ sarDecode 0x2295670000000000 = some (.cmplt ⟨true, 1⟩ 5 6 7) ∧ sarDecode 0x3001000000000005 = some (.rdk al 1 5)
    ∧ sarDecode 0x3902002000000040 = some (.addai al 2 1 0x40) ∧ sarDecode 0x4002006800000040 = some (.ld al 2 3 1 0x40)
    ∧ sarDecode 0x490F0000000008FC = some (.wcr al 15 0x08FC) ∧ sarDecode 0x0190000000000011 = some (.br ⟨true, 1⟩ 17)
    ∧ sarDecode 0x540000000000FFFF = some (.cwait al 0xFFFF) ∧ sarDecode 0x6220002000000000 = some (.bsutab ⟨false, 2⟩ 0 1)
    ∧ sarDecode 0x7000000000000001 = some (.fclr al 0 1) ∧ sarDecode 0x7C0F00E000000040 = some (.hsh al 15 7 64) := by decide +kernel

/-- A wrong opcode, a bit of the zero field, PN with PR 0, an immediate out of range. -/
theorem test_words_refused :
    sarDecode 0x0700000000000000 = none ∧ sarDecode 0x0000000100000000 = none ∧ sarDecode 0x0080000000000000 = none
    ∧ sarDecode 0x1C01200000000040 = none ∧ sarDecode 0x4900000000000900 = none := by decide +kernel

/-! ### Ill-formed commands -/

theorem test_illformed_sarenina :
    [Instr.nop ⟨true, 0⟩, .br ⟨true, 0⟩ 0, .jt al 0 0, .jt al 0 4097, .li ⟨true, 0⟩ 0 0, .add ⟨true, 0⟩ 0 0 0, .shli al 0 0 64,
      .rdk al 0 12, .vdig al 0 24, .sect al 0 0, .sect al 0 0x15, .ld ⟨true, 0⟩ 0 0 0 0, .rcr al 0 2, .rcr al 0 0x10000, .wcr al 0 0x08BC,
      .wcr al 0 0x0900, .cset ⟨true, 0⟩ 0 0, .fclr al 0 6, .fclr al 1 1, .hsh al 0 0 0, .hsh al 0 0 32].all (fun i => !i.wf) = true := by decide

def msgBad : Msg := ⟨0, ⟨1, 0, 0, 0, 0, 0, 0, 0, 0, 1⟩, [], 0⟩

theorem test_illformed_commands :
    [Instr.go 0, .load 0xC0000000, .swap 0x80000000, .cloverGo 0, .lcAdv 0, .thaltClear 0, .brkHitClear 0, .trainingDone [],
      .greq msgBad, .accw 0 0 0 ⟨[], 0⟩ 0, .tbld 0 0 0 ⟨[], 0⟩, .csuPass 0 0, .csuPass 0 4].all (fun i => !i.wf) = true := by decide

end Sys2Proof.Tests
end

section
/-! PROOFS. The metadata code (R17): its syndrome and its overall parity are linear over XOR, so that what a decode finds depends only
on the flipped bits; and what a row whose metadata word is uncorrectable answers. -/

namespace Sys2Proof.Machine

/-! ### Sums over GF(2) -/

/-- The XOR of `f 0` to `f (n - 1)`. -/
def xorSum (f : Nat → Nat) : Nat → Nat
  | 0 => 0
  | n + 1 => xorSum f n ^^^ f n

/-- The parity of the bits `f 0` to `f (n - 1)`. -/
def xorBits (f : Nat → Bool) : Nat → Bool
  | 0 => false
  | n + 1 => xorBits f n ^^ f n

theorem xorSum_congr {f g : Nat → Nat} {n : Nat} (h : ∀ i < n, f i = g i) : xorSum f n = xorSum g n := by
  induction n with
  | zero => rfl
  | succ n ih => rw [xorSum, xorSum, ih (fun i hi => h i (by omega)), h n (by omega)]

theorem xorSum_xor (f g : Nat → Nat) (n : Nat) : xorSum (fun i => f i ^^^ g i) n = xorSum f n ^^^ xorSum g n := by
  induction n with
  | zero => simp [xorSum]
  | succ n ih => simp only [xorSum, ih]; ac_rfl

theorem xorSum_lt {f : Nat → Nat} {k n : Nat} (h : ∀ i < n, f i < 2 ^ k) : xorSum f n < 2 ^ k := by
  induction n with
  | zero => exact Nat.two_pow_pos k
  | succ n ih => exact Nat.xor_lt_two_pow (ih (fun i hi => h i (by omega))) (h n (by omega))

theorem testBit_xorSum (f : Nat → Nat) (n j : Nat) : (xorSum f n).testBit j = xorBits (fun i => (f i).testBit j) n := by
  induction n with
  | zero => simp [xorSum, xorBits]
  | succ n ih => rw [xorSum, xorBits, Nat.testBit_xor, ih]

theorem xorBits_xor (f g : Nat → Bool) (n : Nat) : xorBits (fun i => f i ^^ g i) n = (xorBits f n ^^ xorBits g n) := by
  induction n with
  | zero => rfl
  | succ n ih => simp only [xorBits, ih, Bool.xor_assoc, Bool.xor_left_comm]

theorem xorBits_congr {f g : Nat → Bool} {n : Nat} (h : ∀ i < n, f i = g i) : xorBits f n = xorBits g n := by
  induction n with
  | zero => rfl
  | succ n ih => rw [xorBits, xorBits, ih (fun i hi => h i (by omega)), h n (by omega)]

theorem foldl_xor_range (f : Nat → Bool) (n : Nat) : (List.range n).foldl (fun acc i => acc ^^ f i) false = xorBits f n := by
  induction n with
  | zero => rfl
  | succ n ih => simp [List.range_succ, ih, xorBits]

/-! ### The syndrome and the parity of a word -/

/-- The check bits of R17 as a sum over the data bits. -/
theorem metaCheckBits_eq (w : DWord) :
    metaCheckBits w = xorSum (fun i => if w.getLsbD i then metaPositions.getD i 0 else 0) 56 := by
  have hz : metaPositions.zipIdx = (List.range 56).map (fun i => (metaPositions.getD i 0, i)) := by decide +kernel
  have fold : ∀ n, (List.range n).foldl (fun acc i => if w.getLsbD i then acc ^^^ metaPositions.getD i 0 else acc) 0
      = xorSum (fun i => if w.getLsbD i then metaPositions.getD i 0 else 0) n := by
    intro n
    induction n with
    | zero => rfl
    | succ n ih =>
      rw [List.range_succ, List.foldl_append, ih, xorSum]
      cases h : w.getLsbD n <;> simp [h]
  rw [metaCheckBits, hz, List.foldl_map]
  exact fold 56

theorem parityLow_eq (n : Nat) (w : DWord) : parityLow n w = xorBits w.getLsbD n := foldl_xor_range _ n

/-- The check bits read the data bits only. -/
theorem metaCheckBits_congr {u v : DWord} (h : ∀ i < 56, u.getLsbD i = v.getLsbD i) : metaCheckBits u = metaCheckBits v := by
  rw [metaCheckBits_eq, metaCheckBits_eq]
  exact xorSum_congr (fun i hi => by rw [h i hi])

theorem metaCheckBits_lt (w : DWord) : metaCheckBits w < 2 ^ 6 := by
  have hp : ∀ i < 56, metaPositions.getD i 0 < 2 ^ 6 := by decide +kernel
  rw [metaCheckBits_eq]
  refine xorSum_lt (fun i hi => ?_)
  split
  · exact hp i hi
  · decide

/-- Check bit `j` is the parity of the data bits whose position has bit `j` set. -/
theorem metaCheckBits_testBit (w : DWord) (j : Nat) :
    (metaCheckBits w).testBit j = xorBits (fun i => w.getLsbD i && (metaPositions.getD i 0).testBit j) 56 := by
  rw [metaCheckBits_eq, testBit_xorSum]
  exact xorBits_congr (fun i _ => by cases w.getLsbD i <;> simp)

theorem metaCheckBits_xor (u v : DWord) : metaCheckBits (u ^^^ v) = metaCheckBits u ^^^ metaCheckBits v := by
  rw [metaCheckBits_eq, metaCheckBits_eq, metaCheckBits_eq, ← xorSum_xor]
  refine xorSum_congr (fun i _ => ?_)
  rw [BitVec.getLsbD_xor]
  cases u.getLsbD i <;> cases v.getLsbD i <;> simp

theorem parityLow_xor (n : Nat) (u v : DWord) : parityLow n (u ^^^ v) = (parityLow n u ^^ parityLow n v) := by
  rw [parityLow_eq, parityLow_eq, parityLow_eq, ← xorBits_xor]
  exact xorBits_congr (fun i _ => BitVec.getLsbD_xor)

/-- The syndrome that a decode computes: the check bits of the data against those stored (R17). -/
def metaSyndrome (w : DWord) : Nat := metaCheckBits w ^^^ (w.extractLsb' 56 6).toNat

/-- A decode finds an odd number of bits wrong: MPAR is not the parity of the bits below it (R17). -/
def metaOdd (w : DWord) : Bool := parityLow 62 w ^^ w.getLsbD 62

theorem metaSyndrome_xor (u v : DWord) : metaSyndrome (u ^^^ v) = metaSyndrome u ^^^ metaSyndrome v := by
  unfold metaSyndrome
  rw [metaCheckBits_xor, BitVec.extractLsb'_xor, BitVec.toNat_xor]
  ac_rfl

theorem metaOdd_xor (u v : DWord) : metaOdd (u ^^^ v) = (metaOdd u ^^ metaOdd v) := by
  unfold metaOdd
  rw [parityLow_xor, BitVec.getLsbD_xor]
  simp only [Bool.xor_assoc, Bool.xor_left_comm]

/-! ### What a decode finds -/

/-- The bit that a decode with an odd parity flips for a syndrome, if there is one (R17). -/
def metaFlip (synd : Nat) : Option DWord :=
  if synd = 0 then some 0x4000000000000000
  else match metaPositions.idxOf? synd with
    | some i => some (BitVec.ofNat 64 (2 ^ i))
    | none => if synd < 63 then some (BitVec.ofNat 64 (2 ^ (56 + synd.log2))) else none

theorem metaDecode_eq (w : DWord) :
    metaDecode w = if metaOdd w then (metaFlip (metaSyndrome w)).map (fun m => (w ^^^ m, true))
      else if metaSyndrome w = 0 then some (w, false) else none := by
  unfold metaDecode metaFlip metaSyndrome metaOdd
  rw [← Bool.bne_eq_xor]
  generalize metaCheckBits w ^^^ (w.extractLsb' 56 6).toNat = y
  by_cases hy : y = 0
  · simp only [hy, if_pos, Option.map_some]
  · cases hi : metaPositions.idxOf? y with
    | some i => simp only [hy, hi, if_false, Option.map_some]
    | none =>
      by_cases hl : y < 63
      · simp only [hy, hi, hl, if_false, if_true, Option.map_some]
      · simp only [hy, hi, hl, if_false, Option.map_none]

/-- Bit `i` of the word alone. -/
def metaBit (i : Nat) : DWord := BitVec.ofNat 64 (2 ^ i)

theorem metaOdd_metaBit : ∀ i < 63, metaOdd (metaBit i) = true := by decide +kernel

/-- A flipped bit leads a decode back to itself. -/
theorem metaFlip_metaBit : ∀ i < 63, metaFlip (metaSyndrome (metaBit i)) = some (metaBit i) := by decide +kernel

/-- Two different bits have different syndromes. -/
theorem metaSyndrome_metaBit_ne {i j : Nat} (hi : i < 63) (hj : j < i) :
    metaSyndrome (metaBit i) ≠ metaSyndrome (metaBit j) := by
  intro h
  have hb : metaBit i = metaBit j := by
    simpa [h, metaFlip_metaBit j (by omega)] using (metaFlip_metaBit i hi).symm
  have h2 : (metaBit i).toNat = (metaBit j).toNat := by rw [hb]
  simp only [metaBit, BitVec.toNat_ofNat, Nat.mod_eq_of_lt (Nat.pow_lt_pow_right (by omega : 1 < 2) (by omega : i < 64)),
    Nat.mod_eq_of_lt (Nat.pow_lt_pow_right (by omega : 1 < 2) (by omega : j < 64))] at h2
  exact absurd (Nat.pow_right_injective (le_refl 2) h2) (by omega)

section
variable {c : DWord} (hs : metaSyndrome c = 0) (hp : metaOdd c = false)
include hs hp

/-- A code word decodes to itself. -/
theorem metaDecode_codeword : metaDecode c = some (c, false) := by
  simp [metaDecode_eq, hs, hp]

/-- One flipped bit of a code word is corrected. -/
theorem metaDecode_flip {i : Nat} (hi : i < 63) : metaDecode (c ^^^ metaBit i) = some (c, true) := by
  have ho : metaOdd (c ^^^ metaBit i) = true := by rw [metaOdd_xor, hp, metaOdd_metaBit i hi]; rfl
  have hy : metaSyndrome (c ^^^ metaBit i) = metaSyndrome (metaBit i) := by rw [metaSyndrome_xor, hs, Nat.zero_xor]
  rw [metaDecode_eq, if_pos ho, hy, metaFlip_metaBit i hi, Option.map_some, BitVec.xor_assoc, BitVec.xor_self,
    BitVec.xor_zero]

/-- Two flipped bits of a code word are detected. -/
theorem metaDecode_flip_flip {i j : Nat} (hi : i < 63) (hj : j < i) : metaDecode (c ^^^ metaBit i ^^^ metaBit j) = none := by
  have ho : metaOdd (c ^^^ metaBit i ^^^ metaBit j) = false := by
    rw [metaOdd_xor, metaOdd_xor, hp, metaOdd_metaBit i hi, metaOdd_metaBit j (by omega)]; rfl
  have hy : metaSyndrome (c ^^^ metaBit i ^^^ metaBit j) ≠ 0 := by
    rw [metaSyndrome_xor, metaSyndrome_xor, hs, Nat.zero_xor]
    exact fun h => metaSyndrome_metaBit_ne hi hj (Nat.xor_eq_zero_iff.mp h)
  rw [metaDecode_eq, ho, if_neg Bool.false_ne_true, if_neg hy]

end

/-! ### The word that is stored -/

theorem getLsbD_lowData (w : DWord) (i : Nat) : (w &&& 0x00FFFFFFFFFFFFFF).getLsbD i = (w.getLsbD i && decide (i < 56)) := by
  have h : (0x00FFFFFFFFFFFFFF : DWord) = BitVec.ofNat 64 (2 ^ 56 - 1) := rfl
  rw [BitVec.getLsbD_and, h, BitVec.getLsbD_ofNat, Nat.testBit_two_pow_sub_one]
  by_cases hi : i < 56
  · simp [hi, show i < 64 by omega]
  · simp [hi]

/-- The data bits of `w` with their check bits; MPAR still 0. -/
def metaChecked (w : DWord) : DWord :=
  (w &&& 0x00FFFFFFFFFFFFFF) ||| BitVec.ofNat 64 (metaCheckBits (w &&& 0x00FFFFFFFFFFFFFF) * 2 ^ 56)

theorem metaEncode_eq (w : DWord) :
    metaEncode w = if parityLow 62 (metaChecked w) then metaChecked w ||| 0x4000000000000000 else metaChecked w := rfl

theorem metaChecked_getLsbD (w : DWord) {i : Nat} (hi : i < 64) :
    (metaChecked w).getLsbD i = if i < 56 then w.getLsbD i else (metaCheckBits w).testBit (i - 56) := by
  have hk : metaCheckBits (w &&& 0x00FFFFFFFFFFFFFF) = metaCheckBits w :=
    metaCheckBits_congr (fun i hi => by rw [getLsbD_lowData, decide_eq_true hi, Bool.and_true])
  rw [metaChecked, hk, BitVec.getLsbD_or, getLsbD_lowData, BitVec.getLsbD_ofNat, Nat.testBit_mul_two_pow]
  split
  · next h => simp [h, show ¬ 56 ≤ i by omega]
  · next h => simp [h, hi, show 56 ≤ i by omega]

/-- Above the check bits a word without MPAR is 0. -/
theorem metaChecked_high (w : DWord) {i : Nat} (h1 : 62 ≤ i) (h2 : i < 64) : (metaChecked w).getLsbD i = false := by
  rw [metaChecked_getLsbD w h2, if_neg (by omega)]
  exact Nat.testBit_lt_two_pow (Nat.lt_of_lt_of_le (metaCheckBits_lt w) (Nat.pow_le_pow_right (by decide) (by omega)))

theorem metaEncode_getLsbD (w : DWord) (i : Nat) :
    (metaEncode w).getLsbD i = if i = 62 then parityLow 62 (metaChecked w) else (metaChecked w).getLsbD i := by
  have h62 : (metaChecked w).getLsbD 62 = false := metaChecked_high w (by omega) (by omega)
  have hbit : (0x4000000000000000 : DWord).getLsbD i = decide (i = 62) := by
    rw [show (0x4000000000000000 : DWord) = BitVec.twoPow 64 62 from rfl, BitVec.getLsbD_twoPow]
    by_cases h : i = 62 <;> simp [h, eq_comm]
  rw [metaEncode_eq]
  split
  · next hp =>
    rw [BitVec.getLsbD_or, hbit, hp]
    by_cases h : i = 62 <;> simp [h]
  · next hp =>
    rw [Bool.eq_false_iff.mpr hp]
    split
    · next h => rw [h, h62]
    · rfl

theorem metaEncode_data (w : DWord) {i : Nat} (hi : i < 56) : (metaEncode w).getLsbD i = w.getLsbD i := by
  rw [metaEncode_getLsbD, if_neg (by omega), metaChecked_getLsbD w (by omega), if_pos hi]

/-- The check bits of the stored word are those of its own data. -/
theorem metaEncode_check (w : DWord) {j : Nat} (hj : j < 6) :
    (metaEncode w).getLsbD (56 + j) = (metaCheckBits (metaEncode w)).testBit j := by
  rw [metaEncode_getLsbD, if_neg (by omega), metaChecked_getLsbD w (by omega), if_neg (by omega),
    metaCheckBits_congr (fun _ hi => metaEncode_data w hi), Nat.add_sub_cancel_left]

/-- MPAR of the stored word is the parity of its bits [61:0]. -/
theorem metaEncode_parity (w : DWord) : (metaEncode w).getLsbD 62 = parityLow 62 (metaEncode w) := by
  rw [metaEncode_getLsbD, if_pos rfl, parityLow_eq, parityLow_eq]
  exact xorBits_congr (fun i hi => by rw [metaEncode_getLsbD, if_neg (by omega)])

theorem metaEncode_and (w : DWord) : metaEncode w &&& 0x00FFFFFFFFFFFFFF = w &&& 0x00FFFFFFFFFFFFFF := by
  refine BitVec.eq_of_getLsbD_eq (fun i _ => ?_)
  rw [getLsbD_lowData, getLsbD_lowData]
  by_cases h : i < 56
  · rw [metaEncode_data w h]
  · simp [h]

theorem metaSyndrome_metaEncode (w : DWord) : metaSyndrome (metaEncode w) = 0 := by
  rw [metaSyndrome, Nat.xor_eq_zero_iff]
  refine Nat.eq_of_testBit_eq (fun j => ?_)
  rw [BitVec.testBit_toNat, BitVec.getLsbD_extractLsb']
  by_cases hj : j < 6
  · simp [hj, metaEncode_check w hj]
  · simp [hj, Nat.testBit_lt_two_pow (Nat.lt_of_lt_of_le (metaCheckBits_lt (metaEncode w))
      (Nat.pow_le_pow_right (by decide) (Nat.not_lt.mp hj)))]

theorem metaOdd_metaEncode (w : DWord) : metaOdd (metaEncode w) = false := by
  rw [metaOdd, metaEncode_parity, Bool.xor_self]

/-! ### A row whose metadata cannot be read -/

theorem State.rowMeta_of_metaDecode_none {s : State} {l : RowLoc}
    (h : metaDecode (BitVec.ofNat 64 (leNat (memReads s.mem (l.addr + 0x7F8) 8))) = none) : s.rowMeta l = none := by
  unfold State.rowMeta
  rw [h]

/-- No line of such a row gives data. -/
theorem State.lineVal_of_rowMeta_none {s : State} {x : LineLoc} (h : s.rowMeta x.loc = none) :
    ∃ c sy, s.lineVal x = .bad c sy := by
  unfold State.lineVal
  rw [h]
  split
  · exact ⟨_, _, rfl⟩
  · exact ⟨_, _, rfl⟩

/-- No line of such a row takes a write: the error is reported. -/
theorem State.writeLine_of_rowMeta_none {s : State} {x : LineLoc} (h : s.rowMeta x.loc = none) (a : ErrSrc) (w : WriteMode)
    (data : List Byte) (mask : Nat) : s.writeLine a w x data mask = (false, s.noteLine a x (.bad 0x05 0)) := by
  unfold State.writeLine
  rw [h]

/-- What is reported of a line changes no device byte and no changed sector. -/
theorem State.noteLine_mem_wcb (s : State) (a : ErrSrc) (x : LineLoc) (v : LineVal) :
    (s.noteLine a x v).mem = s.mem ∧ (s.noteLine a x v).wcb = s.wcb := by
  have k := (State.noteLine_kept (ms := [.fault, .step]) (List.Subset.refl _) (Kept.refl _ s) a x v).same
  exact ⟨k.mem.resolve_left (by decide), k.wcb.resolve_left (by decide)⟩

/-! ### The obligation -/

/-- The positions p(0) to p(55) of R17, with the powers of two written as such. -/
theorem metaPositions_eq : (List.range 63).filter (fun n => 3 ≤ n ∧ ∀ k < 6, n ≠ 2 ^ k) = metaPositions := by decide +kernel

theorem metaPositions_length : metaPositions.length = 56 := by decide +kernel

theorem foldl_xor_map_range (f : Nat → Bool) (n : Nat) : ((List.range n).map f).foldl xor false = xorBits f n := by
  rw [List.foldl_map]
  exact foldl_xor_range f n

/-- Settles O59: the encoder's word has syndrome 0 and even parity, both are linear over XOR, and one flipped bit is found by its
syndrome. -/
theorem metadataCode : Obligations.MetadataCode := by
  refine ⟨fun s a m x data mask h => ?_, fun w => ?_⟩
  · have hm := State.rowMeta_of_metaDecode_none h
    rw [State.writeLine_of_rowMeta_none hm]
    exact ⟨State.lineVal_of_rowMeta_none hm, rfl, State.noteLine_mem_wcb s a x (.bad 0x05 0)⟩
  · have hs := metaSyndrome_metaEncode w
    have hp := metaOdd_metaEncode w
    dsimp only
    rw [metaPositions_eq]
    refine ⟨metaPositions_length, metaEncode_and w, fun j hj => ?_, ?_, metaDecode_codeword hs hp,
      fun i hi => metaDecode_flip hs hp hi, fun i hi j hj => metaDecode_flip_flip hs hp hi hj⟩
    · rw [foldl_xor_map_range, metaEncode_check w hj, metaCheckBits_testBit]
    · rw [foldl_xor_map_range, metaEncode_parity, parityLow_eq]

end Sys2Proof.Machine
end

section
/-! PROOFS. The trap of R181 as `State.Trapped` states it: what it sets of the sequencer and of the registers, and what it leaves. -/

namespace Sys2Proof.Machine

/-! ### What the error log leaves -/

/-- A field up to HOLD_CAUSE keeps its value when one above it is set. -/
theorem State.get_set_above {s : State} {f g : Field} {v : Nat} (hf : f.key ≤ Reg.HOLD_CAUSE.key)
    (hg : Reg.HOLD_CAUSE.key < g.key) : (s.set g v).get f = s.get f :=
  State.get_set_ne s g f v (by omega)

/-- The fields of the error log's entries lie above HOLD_CAUSE. -/
theorem holdCause_lt_key {g : Field} (h : 0x2200 ≤ g.off) : Reg.HOLD_CAUSE.key < g.key := by
  show 0x2000 * 32 + 16 < g.off * 32 + g.lo
  omega

theorem State.get_raise {s : State} {f : Field} (hf : f.key ≠ Reg.IRQ_STAT.key) (n : Nat) : (s.raise n).get f = s.get f :=
  State.get_set_ne s Reg.IRQ_STAT f _ hf

theorem State.get_logEntry {s : State} {f : Field} (hf : f.key ≤ Reg.HOLD_CAUSE.key) (cls : Nat) (src : ErrSrc) (e : ErrInfo) :
    (s.logEntry cls src e).get f = s.get f := by
  have hlog : Reg.HOLD_CAUSE.key < Reg.LOG_SEQ.key := by decide
  simp (disch := exact holdCause_lt_key (Nat.le_add_right_of_le (by decide))) only [State.logEntry, State.set64, State.setFlag,
    State.get_set_above hf hlog, State.get_set_above hf]

/-- An error-log event leaves every field up to HOLD_CAUSE but IRQ_STAT. -/
theorem State.get_log_ {s : State} {f : Field} (hf : f.key ≤ Reg.HOLD_CAUSE.key) (hi : f.key ≠ Reg.IRQ_STAT.key) (cls : Nat)
    (src : ErrSrc) (e : ErrInfo) : (s.log_ cls src e).get f = s.get f := by
  have hany : Reg.HOLD_CAUSE.key < Reg.UE_ANY.key := by decide
  have htot : Reg.HOLD_CAUSE.key < Reg.UE_TOTAL.key := by decide
  have counted : ∀ t : State, ((t.setFlag Reg.UE_ANY true).bump Reg.UE_TOTAL 1).get f = t.get f := fun t => by
    rw [State.bump, State.get_set_above hf htot, State.setFlag, State.get_set_above hf hany]
  have entry : (s.logEntry cls src e).get f = s.get f := State.get_logEntry hf cls src e
  have total : (if 2 ≤ cls ∧ cls ≤ 6 then ((s.logEntry cls src e).setFlag Reg.UE_ANY true).bump Reg.UE_TOTAL 1
      else s.logEntry cls src e).get f = s.get f := by
    split
    · exact (counted _).trans entry
    · exact entry
  unfold State.log_
  dsimp only
  split
  · exact (State.get_raise hi 4).trans total
  · split
    · exact (State.get_raise hi 5).trans total
    · exact total

/-! ### The hold that a trap enters -/

/-- A trap leaves the block held, with cause 0x0A, whether or not a hold was in force (R181, R336). -/
theorem State.holdFor_trap_held (s : State) :
    (s.holdFor 0x0A).flag Reg.HELD = true ∧ (s.holdFor 0x0A).get Reg.HOLD_CAUSE = 0x0A := by
  show (s.enterHold 0x0A).flag Reg.HELD = true ∧ (s.enterHold 0x0A).get Reg.HOLD_CAUSE = 0x0A
  unfold State.enterHold
  cases hh : s.flag Reg.HELD with
  | true =>
    have kept : (s.set Reg.HOLD_CAUSE 0x0A).flag Reg.HELD = s.flag Reg.HELD := by
      simp (disch := decide) only [State.flag, State.get_set_ne]
    simp only [if_true, decide_true, Bool.or_true]
    exact ⟨kept.trans hh, by simp [Reg.HOLD_CAUSE, Field.width]⟩
  | false =>
    simp only [Bool.false_eq_true, if_false]
    split <;> simp (disch := decide) [State.flag, State.setFlag, State.get_set_ne, State.get_raise, Reg.HELD, Reg.HOLD_CAUSE,
      Field.width]

/-- Entering the hold sets HELD, HOLD_CAUSE, IRQ_STAT and PHASE. -/
theorem State.get_holdFor_trap {s : State} {f : Field}
    (h : f.key ∉ [Reg.HELD, Reg.HOLD_CAUSE, Reg.IRQ_STAT, Reg.PHASE].map Field.key) :
    (s.holdFor 0x0A).get f = s.get f := by
  simp only [List.map_cons, List.map_nil, List.mem_cons, List.not_mem_nil, or_false, not_or] at h
  obtain ⟨hheld, hcause, hirq, hphase⟩ := h
  show (s.enterHold 0x0A).get f = s.get f
  unfold State.enterHold State.setFlag
  dsimp only
  split
  · split
    · exact State.get_set_ne _ _ _ _ hcause
    · rfl
  · split <;> simp only [State.get_set_ne _ _ _ _ hheld, State.get_set_ne _ _ _ _ hcause, State.get_set_ne _ _ _ _ hphase,
      State.get_raise hirq]

/-! ### The trap -/

/-- The sequencer of a trapped block (R181). -/
def Seq.stopped (q : Seq) : Seq := { q with running := false, trapped := true, wait := none }

/-- The registers of a trap, before the hold. -/
def State.trapRegs (s : State) (cause info : Nat) : State :=
  ((((s.modSeq Seq.stopped).set Reg.TRAP_CAUSE cause).set Reg.TRAP_PC s.seq.pc).set Reg.TRAP_INFO info).set Reg.LSTATE 4

theorem State.trap_eq (s : State) (cause info : Nat) :
    ∃ c, s.trap cause info = (((s.trapRegs cause info).holdFor 0x0A).free.2.log_ c .sequencer (ErrInfo.plain info)).raise 2 :=
  ⟨_, rfl⟩

/-- After its own registers a trap changes the list of holds, the open values drawn, and the registers of hold and error log. -/
theorem State.trap_kept_trapRegs (s : State) (cause info : Nat) :
    Kept [.fault, .drawn] (s.trapRegs cause info) (s.trap cause info) := by
  obtain ⟨c, hc⟩ := State.trap_eq s cause info
  rw [hc]
  exact State.raise_kept (State.log__kept (State.free_kept (by decide) (State.holdFor_kept (by decide) (Kept.refl _ _) _)) _ _ _) _

/-- A field that the error log does not change shows what the trap or its hold has set. -/
theorem State.get_trap {s : State} {f : Field} (hf : f.key ≤ Reg.HOLD_CAUSE.key) (hi : f.key ≠ Reg.IRQ_STAT.key)
    (cause info : Nat) : (s.trap cause info).get f = ((s.trapRegs cause info).holdFor 0x0A).get f := by
  obtain ⟨c, hc⟩ := State.trap_eq s cause info
  rw [hc, State.get_raise hi, State.get_log_ hf hi, State.free_get]

/-- One that the hold does not change either shows what the trap has set. -/
theorem State.get_trap_trapRegs {s : State} {f : Field} (hf : f.key ≤ Reg.HOLD_CAUSE.key)
    (h : f.key ∉ [Reg.HELD, Reg.HOLD_CAUSE, Reg.IRQ_STAT, Reg.PHASE].map Field.key) (cause info : Nat) :
    (s.trap cause info).get f = (s.trapRegs cause info).get f := by
  rw [State.get_trap hf (fun e => h (by simp [e])), State.get_holdFor_trap h]

theorem State.bit_raise (s : State) : (s.raise 2).bit Reg.IRQ_STAT 2 = true := by
  rw [State.bit, State.raise, State.setBit, if_pos rfl, State.get_set_self, show Reg.IRQ_STAT.width = 8 from rfl,
    Nat.testBit_mod_two_pow, Nat.testBit_or, Nat.testBit_two_pow_self, Bool.or_true]
  rfl

theorem State.trapRegs_get (s : State) (cause info : Nat) :
    (s.trapRegs cause info).get Reg.TRAP_CAUSE = cause % 2 ^ 8 ∧ (s.trapRegs cause info).get Reg.TRAP_PC = s.seq.pc % 2 ^ 32
      ∧ (s.trapRegs cause info).get Reg.TRAP_INFO = info % 2 ^ 32 ∧ (s.trapRegs cause info).get Reg.LSTATE = 4 := by
  unfold State.trapRegs
  simp (disch := decide) only [State.get_set_ne, State.get_set_self]
  exact ⟨rfl, rfl, rfl, rfl⟩

/-- The trap of R181 (R191). -/
theorem State.trap_trapped (s : State) {cause : Nat} (hc : cause < 2 ^ 8) (info : Nat) :
    s.Trapped (s.trap cause info) cause info := by
  have k := (State.trap_kept_trapRegs s cause info).same
  have hseq : (s.trap cause info).seq = s.seq.stopped := k.seq.resolve_left (by decide)
  have hmem : (s.trap cause info).mem = s.mem := k.mem.resolve_left (by decide)
  obtain ⟨hheld, hcause⟩ := (s.trapRegs cause info).holdFor_trap_held
  obtain ⟨tcause, tpc, tinfo, lstate⟩ := s.trapRegs_get cause info
  refine { stopped := ?_, regs := ?_, cause := ?_, pc := ?_, info := ?_, lstate := ?_, held := ⟨?_, ?_⟩, irq := ?_, bytes := hmem }
  · rw [hseq]; exact ⟨rfl, rfl, rfl⟩
  · rw [hseq]; exact ⟨rfl, rfl, rfl, rfl⟩
  · rw [State.get_trap_trapRegs (by decide) (by decide), tcause, Nat.mod_eq_of_lt hc]
  · rw [State.get_trap_trapRegs (by decide) (by decide), tpc]
  · rw [State.get_trap_trapRegs (by decide) (by decide), tinfo]
  · rw [State.get_trap_trapRegs (by decide) (by decide), lstate]
  · rw [State.flag, State.get_trap (by decide) (by decide)]
    exact hheld
  · rw [State.get_trap (by decide) (by decide), hcause]
  · obtain ⟨c, e⟩ := State.trap_eq s cause info
    rw [e]
    exact State.bit_raise _

end Sys2Proof.Machine
end

section
/-! PROOFS. Which memory accesses of the sequencer trap (R33, R191, R198, R199), and which go on. -/

namespace Sys2Proof.Machine

/-! ### Regions and offsets -/

/-- No requester is served beyond a region's size (R33, R420). -/
theorem State.checkRegion_ne_ok {s : State} {n off len : Nat} (h : (s.regionWords n).size < off + len) (q : Requester)
    (w : Bool) : s.checkRegion q w n off len ≠ .ok := by
  unfold State.checkRegion
  dsimp only
  rw [if_pos h]
  split
  · simp
  · split <;> simp

theorem State.checkRequest_ne_ok {s : State} {n off len : Nat} (h : (s.regionWords n).size < off + len) (q : Requester)
    (w : Bool) : s.checkRequest q w n off len ≠ .ok := by
  unfold State.checkRequest
  cases hc : s.checkRegion q w n off len with
  | ok => exact absurd hc (State.checkRegion_ne_ok h q w)
  | notReady => simp
  | permission => simp
  | beyond =>
    dsimp only
    split <;> simp

theorem State.beyond_iff (s : State) (n off len : Nat) :
    s.beyond n off len = true ↔ s.enabled n = false ∨ (s.regionWords n).size < off + len := by
  simp [State.beyond]

/-- The sequencer may write region `n`, the plan `pl` being loaded (R199). -/
def State.mayWrite (s : State) (pl : Plan) (n : Nat) : Prop :=
  (s.regionWords n).cls = .activation ∨ (s.regionWords n).cls = .spare
    ∨ ((s.regionWords n).cls = .plan ∧ n ≠ pl.region ∧ (∀ q, s.plan.pend = some q → n ≠ q.region)
      ∧ ∀ l, s.plan.load = some l → n ≠ l.region)

theorem State.seqWritable_iff {s : State} {pl : Plan} (h : s.plan.plan = some pl) (n : Nat) :
    s.seqWritable n = true ↔ s.mayWrite pl n := by
  unfold State.mayWrite
  unfold State.seqWritable
  cases (s.regionWords n).cls with
  | plan => cases s.plan.pend <;> cases s.plan.load <;> simp [h, and_assoc, eq_comm (a := n)]
  | activation | spare | state | reduction | weight | frozen | factor => simp

/-- The sequencer may not write at the place of an access of `n` bytes (R198, R199). -/
def State.writeBarred (s : State) (ar : BitVec 3) (imm : Word) (n : Nat) : Bool :=
  s.beyond (s.accessAt ar imm n).1 (s.accessAt ar imm n).2 n || !s.seqWritable (s.accessAt ar imm n).1

/-- TRAP_INFO of an access of `n` bytes that traps (R191). -/
def State.accessInfo (s : State) (ar : BitVec 3) (imm : Word) (n : Nat) : Nat :=
  s.addrInfo (s.accessAt ar imm n).1 (s.accessAt ar imm n).2

/-! ### What an access does once it is issued -/

section
variable {s : State} {pl : Plan} {p : Pred} {r : BitVec 4} {ar : BitVec 3} {sz : BitVec 2} {imm : Word}

theorem exec_ld (h : s.Fetches pl (.ld p r ar sz imm)) (hp : s.takes p) :
    let a := s.accessAt ar imm (accessSize sz)
    exec (.ld p r ar sz imm) s = .next (
      if s.beyond a.1 a.2 (accessSize sz) then s.issued.trap 0x04 (s.accessInfo ar imm (accessSize sz))
      else
        let v := s.issued.seqRead a.1 a.2 (accessSize sz)
        (v.2.sset r (BitVec.ofNat 64 (v.1.getD 0))).seqDone) :=
  congrArg _ (State.issue_take _ h hp)

theorem exec_ldc (h : s.Fetches pl (.ldc p r ar sz imm)) (hp : s.takes p) :
    let a := s.accessAt ar imm (accessSize sz)
    exec (.ldc p r ar sz imm) s = .next (
      if s.beyond a.1 a.2 (accessSize sz) || !s.inConstSection a.1 a.2 (accessSize sz) then
        s.issued.trap 0x04 (s.accessInfo ar imm (accessSize sz))
      else match s.issued.seqRead a.1 a.2 (accessSize sz) with
        | (some v, t) => (t.sset r (BitVec.ofNat 64 v)).seqDone
        | (none, t) => t.trap 0x02 (a.2 / 1920)) := by
  show execLdc p r ar sz imm s = _
  rw [execLdc, State.issue_take _ h hp]
  rfl

theorem exec_st (h : s.Fetches pl (.st p r ar sz imm)) (hp : s.takes p) :
    let a := s.accessAt ar imm (accessSize sz)
    let e := s.regionWords a.1
    exec (.st p r ar sz imm) s = .next (
      if s.writeBarred ar imm (accessSize sz) then s.issued.trap 0x04 (s.accessInfo ar imm (accessSize sz))
      else ((s.issued.chargeWrites 15 [e.lineAt (a.2 - a.2 % 64)]).storeBytes .sequencer e a.2
        (leBytes (accessSize sz) (s.sget r).toNat)).seqDone) :=
  congrArg _ (State.issue_take _ h hp)

theorem exec_aadd (h : s.Fetches pl (.aadd p r ar imm)) (hp : s.takes p) :
    exec (.aadd p r ar imm) s = .next (s.issued.seqAtomic ar imm 8 1 (s.sget r).toNat) :=
  congrArg _ (State.issue_take _ h hp)

theorem exec_aaddf (h : s.Fetches pl (.aaddf p r ar imm)) (hp : s.takes p) :
    exec (.aaddf p r ar imm) s = .next (s.issued.seqAtomic ar imm 4 2 ((s.sget r).toNat % 2 ^ 32)) :=
  congrArg _ (State.issue_take _ h hp)

end

theorem State.atomicHeld_eq (s : State) (ar : BitVec 3) (imm : Word) (n : Nat) :
    s.atomicHeld ar imm n = (!s.writeBarred ar imm n
      && s.atomicWaits ((s.regionWords (s.accessAt ar imm n).1).lineAt (s.accessAt ar imm n).2)) := by
  rw [State.writeBarred, Bool.not_or, Bool.not_not]
  rfl

/-- An atomic add that is not held traps where the sequencer may not write, and else goes on (R199, R200). -/
theorem State.seqAtomic_issued {s : State} {ar : BitVec 3} {imm : Word} {n : Nat} (h : s.issued.atomicHeld ar imm n = false)
    (form op : Nat) :
    s.issued.seqAtomic ar imm n form op =
      if s.writeBarred ar imm n then s.issued.trap 0x04 (s.accessInfo ar imm n)
      else (s.issued.atomicAdd .sequencer 15 false ((s.regionWords (s.accessAt ar imm n).1).lineAt (s.accessAt ar imm n).2)
        ((s.accessAt ar imm n).2 % 64) form op).2.seqDone := by
  unfold State.seqAtomic
  dsimp only
  rw [h, if_neg Bool.false_ne_true]
  rfl

/-- One that the sequencer may not make is not held. -/
theorem State.atomicHeld_issued_of_writeBarred {s : State} {ar : BitVec 3} {imm : Word} {n : Nat}
    (h : s.writeBarred ar imm n = true) : s.issued.atomicHeld ar imm n = false := by
  have hi : s.issued.writeBarred ar imm n = true := h
  rw [State.atomicHeld_eq, hi, Bool.not_true, Bool.false_and]

/-! ### How an access ends -/

section
variable {s t : State} {i : Instr} {ar : BitVec 3} {imm : Word} {n : Nat}

/-- An access that traps has TRAP_INFO of R191: the row unit, or all ones for a disabled region. -/
theorem completes_accessTrap (he : exec i s = .next (s.issued.trap 0x04 (s.accessInfo ar imm n))) :
    completes i s (fun t => s.Trapped t 0x04
      (if s.enabled (s.accessAt ar imm n).1 then (s.accessAt ar imm n).2 / 1920 else 0xFFFFFFFF)) := by
  have k := s.issued.trap_trapped (cause := 0x04) (by decide) (s.accessInfo ar imm n)
  have hinfo : s.accessInfo ar imm n % 2 ^ 32
      = (if s.enabled (s.accessAt ar imm n).1 then (s.accessAt ar imm n).2 / 1920 else 0xFFFFFFFF) % 2 ^ 32 := by
    unfold State.accessInfo State.addrInfo
    split
    · exact Nat.mod_mod _ _
    · rfl
  exact ⟨_, he, k.stopped, k.regs, k.cause, k.pc, k.info.trans hinfo, k.lstate, k.held, k.irq, k.bytes⟩

/-- Reads and writes of lines leave the sequencer where it is. -/
theorem seq_kept (hk : Kept [.mem, .wcb, .fault, .step, .dev, .regul, .clock] s.issued t) :
    t.seq.pc = s.seq.pc ∧ t.seq.trapped = s.seq.trapped := by
  have hq : t.seq = s.issued.seq := hk.same.seq.resolve_left (by decide)
  rw [hq]
  exact ⟨rfl, rfl⟩

/-- An access that ends leaves the sequencer at the next instruction. -/
theorem completes_seqDone (he : exec i s = .next t.seqDone) (hq : t.seq.pc = s.seq.pc ∧ t.seq.trapped = s.seq.trapped) :
    completes i s (fun t => t.seq.pc = s.seq.pc + 1 ∧ t.seq.trapped = s.seq.trapped) :=
  ⟨_, he, congrArg (· + 1) hq.1, hq.2⟩

theorem completes_atomicTrap {form op : Nat} (he : exec i s = .next (s.issued.seqAtomic ar imm n form op))
    (hw : s.writeBarred ar imm n = true) : completes i s (fun t => s.Trapped t 0x04
      (if s.enabled (s.accessAt ar imm n).1 then (s.accessAt ar imm n).2 / 1920 else 0xFFFFFFFF)) := by
  rw [State.seqAtomic_issued (State.atomicHeld_issued_of_writeBarred hw), if_pos hw] at he
  exact completes_accessTrap he

theorem completes_atomic {form op : Nat} (he : exec i s = .next (s.issued.seqAtomic ar imm n form op))
    (hh : s.issued.atomicHeld ar imm n = false) (hw : ¬ s.writeBarred ar imm n = true) :
    completes i s (fun t => t.seq.pc = s.seq.pc + 1 ∧ t.seq.trapped = s.seq.trapped) := by
  rw [State.seqAtomic_issued hh, if_neg hw] at he
  exact completes_seqDone he (seq_kept (State.atomicAdd_kept (by decide) (Kept.refl _ _) _ _ _ _ _ _ _))

end

/-! ### The obligation -/

/-- The sequencer may not write where the region is disabled or too small, or not among those of R199. -/
theorem State.writeBarred_iff {s : State} {pl : Plan} (h : s.plan.plan = some pl) (ar : BitVec 3) (imm : Word) (n : Nat) :
    s.writeBarred ar imm n = true ↔
      (s.enabled (s.accessAt ar imm n).1 = false
        ∨ (s.regionWords (s.accessAt ar imm n).1).size < (s.accessAt ar imm n).2 + n)
      ∨ ¬ s.mayWrite pl (s.accessAt ar imm n).1 := by
  rw [State.writeBarred, Bool.or_eq_true, State.beyond_iff, ← State.seqWritable_iff h, Bool.not_eq_true, Bool.not_eq_true']

/-- Settles O10: an issued access traps where it is barred and else leaves the sequencer running. -/
theorem accessTraps : Obligations.AccessTraps := by
  intro s pl p r ar sz imm hp traps n
  refine ⟨fun e o => ⟨rfl, rfl⟩, fun q w reg off len h => State.checkRequest_ne_ok h q w, ?_⟩
  intro out
  refine ⟨fun hf hb => ?ld, fun hf hb => ?ldc, ?_⟩
  case ld =>
    exact completes_accessTrap ((exec_ld hf hp).trans (congrArg _ (if_pos ((State.beyond_iff _ _ _ _).mpr hb))))
  case ldc =>
    refine completes_accessTrap ((exec_ldc hf hp).trans (congrArg _ (if_pos ?_)))
    rw [Bool.or_eq_true, State.beyond_iff, Bool.not_eq_true']
    exact hb
  intro may goes
  have barred : ∀ k, s.plan.plan = some pl → (out k (s.accessAt ar imm k).1 (s.accessAt ar imm k).2
      ∨ ¬ may (s.accessAt ar imm k).1) → s.writeBarred ar imm k = true :=
    fun k h => (State.writeBarred_iff h ar imm k).mpr
  have allowed : ∀ k, s.plan.plan = some pl → ¬ out k (s.accessAt ar imm k).1 (s.accessAt ar imm k).2 →
      may (s.accessAt ar imm k).1 → ¬ s.writeBarred ar imm k = true :=
    fun k h ho hm hw => ((State.writeBarred_iff h ar imm k).mp hw).elim ho (· hm)
  refine ⟨fun hf hb => ?st, fun hf hb => ?aadd, fun hf hb => ?aaddf, fun hf ho hm _ => ?stGoes,
    fun hh hf ho hm _ => ?aaddGoes, fun hh hf ho hm _ => ?aaddfGoes, fun hf ho _ _ => ?ldGoes⟩
  case st => exact completes_accessTrap ((exec_st hf hp).trans (congrArg _ (if_pos (barred _ hf.plan hb))))
  case aadd => exact completes_atomicTrap (exec_aadd hf hp) (barred _ hf.plan hb)
  case aaddf => exact completes_atomicTrap (exec_aaddf hf hp) (barred _ hf.plan hb)
  case stGoes =>
    refine completes_seqDone ((exec_st hf hp).trans (congrArg _ (if_neg (allowed _ hf.plan ho hm)))) ?_
    exact seq_kept (State.storeBytes_kept (by decide) (State.chargeWrites_kept (by decide) (Kept.refl _ _) _ _) _ _ _ _)
  case aaddGoes => exact completes_atomic (exec_aadd hf hp) hh (allowed _ hf.plan ho hm)
  case aaddfGoes => exact completes_atomic (exec_aaddf hf hp) hh (allowed _ hf.plan ho hm)
  case ldGoes =>
    have hb : ¬ s.beyond (s.accessAt ar imm n).1 (s.accessAt ar imm n).2 n = true :=
      fun h => ho ((State.beyond_iff _ _ _ _).mp h)
    have hq := seq_kept (State.seqRead_kept (by decide) (Kept.refl _ s.issued) (s.accessAt ar imm n).1 (s.accessAt ar imm n).2 n)
    exact completes_seqDone ((exec_ld hf hp).trans (congrArg _ (if_neg hb))) hq

end Sys2Proof.Machine
end

section
/-! PROOFS. The tmov clause of O11 sets no bound on the region number of the step log. There are 64 region entries (R38), at 0x1000 to
0x13FF; for a log in "region" 1287 the model takes the words at 0x6070 to 0x607F, performance counters 12 and 13 (R415), as the entry.
tmov counts the sectors that it reads in counter 13, whose low word names the entry's channels, before it notes itself in the log: the
log has moved to another channel by then, and the record lies outside the lines that the statement names. -/

namespace Sys2Proof.Machine

/-! ### The counterexample -/

/-- tmov of one residency entry at offset 0 of region 0. -/
def strayTmov : Instr := .tmov ⟨false, 0⟩ 0 1

/-- A plan in region 0 whose code is `strayTmov` and whose section of residency entries is one entry of zeros. -/
def strayPlan : Plan :=
  { parsePlan 0 [] with
    hdr := { parseHeader [] with insnLimit := 1 }
    sections := [⟨0x01, false, 0x100, leBytes 8 ((sarEncode strayTmov).getD 0).toNat⟩,
      ⟨0x13, false, 0, List.replicate 16 0⟩] }

/-- A log as the "proceed" verdict begins it, but in no region that there is. -/
def strayLog : StepLog := { State.reset.newLog strayPlan with region := 1287 }

/-- Run, after the open verdict; counter 13 reads 1, which as the third word of an entry names channel 0. -/
def strayState : State :=
  { State.reset with
    regs := [(Reg.BSTAGE.key, 7), ((Reg.PC_LO 13).key, 1)]
    plan := ⟨some strayPlan, none, none⟩
    seq := { Seq.idle with running := true, openV := 1 }
    icache := ⟨[(0, false)], none, none⟩
    log := some strayLog }

/-- The first line of the move area, as the log lies before tmov. -/
def strayLine : LineLoc := ⟨⟨0, 0, 0, 0⟩, 3⟩

/-- The fifth byte of the first record of the move area in channel 1: the low byte of the record's count. -/
def strayByte : Nat := RowLoc.addr ⟨0, 1, 0, 0⟩ + 64 * 3 + 4

/-! ### It meets the hypotheses -/

theorem strayState_fetches : strayState.Fetches strayPlan strayTmov :=
  ⟨rfl, rfl, rfl, rfl, by decide +kernel, by decide +kernel, by decide +kernel⟩

theorem strayState_span : (strayState.regionWords 0).span 0 16 = [⟨⟨0, 0, 0, 0⟩, 0⟩] := by decide +kernel

theorem strayState_lineVal : strayState.lineVal ⟨⟨0, 0, 0, 0⟩, 0⟩ = .zero := by decide +kernel

theorem strayState_holds : strayState.holds 0 0 16 (List.replicate 16 0) := by
  unfold State.holds
  rw [strayState_span]
  constructor
  · intro x hx
    rw [List.mem_singleton.mp hx]
    exact ⟨.inl strayState_lineVal, by decide +kernel⟩
  · rw [List.flatMap_singleton, State.lineBytes, strayState_lineVal]
    rfl

/-! ### Where tmov writes -/

theorem strayState_logLines : strayState.logLines strayLog (strayLog.parts.moves + 8 * strayLog.moves.length)
    (List.replicate 12 0) = [strayLine] := by decide +kernel

theorem strayState_apart : strayState.apart strayLine strayByte := by
  unfold State.apart
  decide +kernel

/-- The device byte at `a` in the state that a command leaves, where it completes. -/
def byteAfter (r : Result) (a : Nat) : Option Byte :=
  match r with
  | .next t => some (memRead t.mem a)
  | .fault _ | .refused _ => none

theorem byteAfter_strayTmov : byteAfter (exec strayTmov strayState) strayByte = some 1 := by decide +kernel

/-! ### The obligation -/

/-- Refutes O11: for a step log in region 1287 tmov writes its record in channel 1, where the log did not lie. -/
theorem not_wcrHshDmixRecTmov : ¬ Obligations.WcrHshDmixRecTmov := by
  intro h
  obtain ⟨_, _, _, _, _, htmov⟩ := h strayState strayPlan ⟨false, 0⟩ 0 0 0 0 0 1 0 (List.replicate 16 0) rfl
  obtain ⟨t, hexec, _, _, _, hlines⟩ :=
    htmov strayState_fetches rfl (by decide +kernel) (by decide +kernel) (by decide +kernel) strayState_holds
  have hkept : memRead t.mem strayByte = memRead strayState.mem strayByte :=
    hlines strayByte fun x hx => by
      have hx' : x ∈ [strayLine] := strayState_logLines ▸ (show x ∈ strayState.logLines strayLog _ _ from hx)
      rw [List.mem_singleton.mp hx']
      exact strayState_apart
  have hwritten : some (memRead t.mem strayByte) = some 1 := by
    rw [← byteAfter_strayTmov, show exec strayTmov strayState = .next t from hexec]
    rfl
  rw [hkept] at hwritten
  exact absurd hwritten (by decide)

end Sys2Proof.Machine
end

section
/-! PROOFS. The counters of pin traffic are all that the passing of time and the charges of pin traffic change in the registers (R410, R411,
R413, R415). -/

namespace Sys2Proof.Machine

/-! ### Fields that count -/

theorem isCount_PC_LO {i : Nat} (h : i < 38) : (Reg.PC_LO i).isCount := by
  simp only [Field.isCount, Field.key, Reg.PC_LO]; omega

theorem isCount_PC_HI {i : Nat} (h : i < 38) : (Reg.PC_HI i).isCount := by
  simp only [Field.isCount, Field.key, Reg.PC_HI]; omega

theorem isCount_PSECT_LO {p : Nat} (h : p < 8) : (Reg.PSECT_LO p).isCount := by
  simp only [Field.isCount, Field.key, Reg.PSECT_LO]; omega

theorem isCount_PSECT_HI {p : Nat} (h : p < 8) : (Reg.PSECT_HI p).isCount := by
  simp only [Field.isCount, Field.key, Reg.PSECT_HI]; omega

theorem isCount_LASTUSE {n : Nat} (h : n < 8) : (Reg.LASTUSE n).isCount := by
  simp only [Field.isCount, Field.key, Reg.LASTUSE]; omega

theorem isCount_CAPHIT {p : Nat} (h : p < 8) : (Reg.CAPHIT p).isCount := by
  simp only [Field.isCount, Field.key, Reg.CAPHIT]; omega

/-! ### The relation -/

theorem State.countsOnly.refl (s : State) : s.countsOnly s := fun _ _ => rfl

theorem State.countsOnly.trans {r s t : State} (h : r.countsOnly s) (k : s.countsOnly t) : r.countsOnly t :=
  fun f hf => (k f hf).trans (h f hf)

theorem State.countsOnly.ite {s a b : State} {c : Prop} [Decidable c] (ha : s.countsOnly a) (hb : s.countsOnly b) :
    s.countsOnly (if c then a else b) := by
  split <;> assumption

theorem State.countsOnly_of_regs {s t : State} (h : t.regs = s.regs) : s.countsOnly t := fun f _ => by
  rw [State.get, State.get, h]

theorem State.set_countsOnly {g : Field} (hg : g.isCount) (s : State) (v : Nat) : s.countsOnly (s.set g v) := fun f hf =>
  State.get_set_ne s g f v fun hk => hf (by unfold Field.isCount at hg ⊢; rwa [hk])

theorem State.set64_countsOnly {lo hi : Field} (hlo : lo.isCount) (hhi : hi.isCount) (s : State) (v : Nat) :
    s.countsOnly (s.set64 lo hi v) :=
  (State.set_countsOnly hlo s _).trans (State.set_countsOnly hhi _ _)

theorem State.foldl_countsOnly {α : Type} {f : State → α → State} (l : List α) (h : ∀ x ∈ l, ∀ t : State, t.countsOnly (f t x))
    (s : State) : s.countsOnly (l.foldl f s) := by
  induction l generalizing s with
  | nil => exact .refl s
  | cons x xs ih =>
    exact (h x List.mem_cons_self s).trans (ih (fun y hy => h y (List.mem_cons_of_mem x hy)) (f s x))

/-! ### Time -/

theorem State.perf_countsOnly {i : Nat} (hi : i < 38) (s : State) (n : Nat) : s.countsOnly (s.perf i n) :=
  .ite (.refl s) (State.set64_countsOnly (isCount_PC_LO hi) (isCount_PC_HI hi) _ _)

@[simp] theorem State.perf_clock (s : State) (i n : Nat) : (s.perf i n).clock = s.clock := by
  unfold State.perf
  split <;> rfl

theorem State.pass_countsOnly (s : State) (n : Nat) : s.countsOnly (s.pass n) := by
  have counted : ∀ (c : Prop) [Decidable c] (i : Nat), i < 38 → ∀ t : State, s.countsOnly t →
      s.countsOnly (if c then t.perf i n else t) := fun c _ i hi t ht => .ite (ht.trans (State.perf_countsOnly hi t n)) ht
  unfold State.pass
  refine .ite (counted _ 22 (by decide) _ (counted _ 21 (by decide) _ (counted _ 20 (by decide) _ ?_))) ?_
  all_goals exact State.countsOnly_of_regs rfl

theorem State.pass_time (s : State) (n : Nat) : (s.pass n).clock.time = s.clock.time + n := by
  unfold State.pass
  dsimp only
  repeat' split
  all_goals simp only [State.perf_clock]

theorem State.advance_countsOnly (s : State) (t : Nat) : s.countsOnly (s.advance t) :=
  .ite (State.pass_countsOnly s _) (.refl s)

/-- The clock moves to the later of the two times. -/
theorem State.advance_time (s : State) (t : Nat) : (s.advance t).clock.time = max s.clock.time t := by
  unfold State.advance
  split
  · rw [State.pass_time]; omega
  · omega

/-! ### Charges -/

theorem State.partitionOf_lt (s : State) (src : Nat) : s.partitionOf src < 8 := Nat.mod_lt _ (by decide)

theorem State.newWindow_countsOnly (s : State) : s.countsOnly s.newWindow := by
  unfold State.newWindow
  dsimp only
  refine State.countsOnly.trans (State.foldl_countsOnly _ (fun n hn t => ?_) s) (State.countsOnly_of_regs rfl)
  exact State.set_countsOnly (isCount_LASTUSE (List.mem_range.mp hn)) t _

theorem State.regulate_countsOnly (s : State) (src : Nat) : s.countsOnly (s.regulate src) :=
  .ite ((State.advance_countsOnly s _).trans (State.newWindow_countsOnly _)) (.refl s)

theorem State.chargePartition_countsOnly {p : Nat} (hp : p < 8) (s : State) (n : Nat) : s.countsOnly (s.chargePartition p n) := by
  unfold State.chargePartition State.bump
  refine .ite ?_ (State.countsOnly_of_regs rfl)
  exact State.countsOnly.trans (State.countsOnly_of_regs rfl) (State.set_countsOnly (isCount_CAPHIT hp) _ _)

theorem State.chargeSectors_countsOnly (s : State) (src rd wr times : Nat) : s.countsOnly (s.chargeSectors src rd wr times) := by
  have hp := s.partitionOf_lt src
  have hperf {r t : State} (i n : Nat) (hi : i < 38) (h : r.countsOnly t) : r.countsOnly (t.perf i n) :=
    h.trans (State.perf_countsOnly hi t n)
  have moved : s.countsOnly ((s.perf 13 rd).perf 14 wr) := hperf 14 wr (by decide) (State.perf_countsOnly (by decide) s rd)
  unfold State.chargeSectors
  refine State.countsOnly.trans ?_ (State.chargePartition_countsOnly hp _ _)
  refine .ite (hperf _ _ (by split <;> decide) ?_) ?_
  all_goals exact .ite moved (moved.trans (State.set64_countsOnly (isCount_PSECT_LO hp) (isCount_PSECT_HI hp) _ _))

theorem State.charge_countsOnly (s : State) (src rd wr times : Nat) : s.countsOnly (s.charge src rd wr times) :=
  (State.regulate_countsOnly s src).trans (State.chargeSectors_countsOnly _ src rd wr times)

theorem State.chargeWrites_countsOnly (s : State) (src : Nat) (xs : List LineLoc) : s.countsOnly (s.chargeWrites src xs) :=
  (State.regulate_countsOnly s src).trans (State.foldl_countsOnly _ (fun _ _ t => State.chargeSectors_countsOnly t _ _ _ _) _)

end Sys2Proof.Machine
end

section
/-! PROOFS. What folding a result leaves alone: reports, block-set fields of the plan and records are written, and neither the running
step, nor the sequences and bank-side units, nor the registers that say which units are in service change (R276, R279, R319). -/

namespace Sys2Proof.Machine

/-! ### The relation -/

/-- The registers that tell which bank-side units are in service (R268, R340), and the counter of overruns (R279). -/
def bankFields : List Field := [Reg.UDEV, Reg.OOS, Reg.CLOVER, Reg.OVERRUN]

/-- A field that is none of `bankFields`. -/
abbrev Field.offBank (g : Field) : Prop := ∀ f ∈ bankFields, f.key ≠ g.key

/-- The sequences, the bank-side units and their registers are in `t` what they are in `s`, and a plan stays loaded. -/
structure State.SameUnits (s t : State) : Prop where
  dev  : t.dev = s.dev
  plan : t.plan.plan.isSome = s.plan.plan.isSome
  regs : ∀ f ∈ bankFields, t.get f = s.get f

/-- The running step is the same too. -/
structure State.Steady (s t : State) : Prop extends State.SameUnits s t where
  step : t.step = s.step

theorem State.SameUnits.refl (s : State) : s.SameUnits s := ⟨rfl, rfl, fun _ _ => rfl⟩

theorem State.SameUnits.trans {r s t : State} (h : r.SameUnits s) (k : s.SameUnits t) : r.SameUnits t :=
  ⟨k.dev.trans h.dev, k.plan.trans h.plan, fun f hf => (k.regs f hf).trans (h.regs f hf)⟩

theorem State.Steady.refl (s : State) : s.Steady s := ⟨.refl s, rfl⟩

theorem State.SameUnits.inService {s t : State} (h : s.SameUnits t) (d : Nat) : t.inService d = s.inService d := by
  simp only [State.inService, State.bit, State.flag, h.regs Reg.UDEV (by decide), h.regs Reg.OOS (by decide),
    h.regs Reg.CLOVER (by decide)]

theorem State.SameUnits.seqOn {s t : State} (h : s.SameUnits t) (d c k : Nat) : t.seqOn d c k = s.seqOn d c k := by
  rw [State.seqOn, State.seqOn, h.dev]

/-! ### Fields apart from the bank registers -/

theorem Field.offBank_of_isCount {g : Field} (hg : g.isCount) : g.offBank := by
  intro f hf hk
  have no : ∀ f ∈ bankFields, ¬ ((0x6010 ≤ f.key / 32 ∧ f.key / 32 < 0x6140) ∨ (0x1800 ≤ f.key / 32 ∧ f.key / 32 < 0x1880
      ∧ (f.key / 32 % 16 = 4 ∨ f.key / 32 % 16 = 8))) := by decide
  unfold Field.isCount at hg
  rw [← hk] at hg
  exact no f hf hg

/-- Offsets 0x2004 to 0x3FFF hold none of the bank registers. -/
theorem Field.offBank_of_off {g : Field} (h : 0x2004 ≤ g.off) (h' : g.off < 0x4000) (hlo : g.lo < 32) : g.offBank := by
  have out : ∀ f ∈ bankFields, f.key < 0x2004 * 32 ∨ 0x4000 * 32 ≤ f.key := by decide
  intro f hf
  have := out f hf
  have hk : g.key = g.off * 32 + g.lo := rfl
  omega

/-- A field of an entry of the error log. -/
theorem Field.offBank_of_errorLog {g : Field} {b m : Nat} (hg : g.off = b + 32 * (m % 64)) (hb : 0x2004 ≤ b) (hb' : b < 0x3000)
    (hlo : g.lo < 32) : g.offBank :=
  Field.offBank_of_off (by omega) (by omega) hlo

/-! ### Basic updates -/

namespace State.Steady

variable {s t u : State}

theorem ite {c : Prop} [Decidable c] (ht : s.Steady t) (hu : s.Steady u) : s.Steady (if c then t else u) := by
  split <;> assumption

theorem foldl {α : Type} {f : State → α → State} (l : List α) (hf : ∀ u x, s.Steady u → s.Steady (f u x)) (h : s.Steady t) :
    s.Steady (l.foldl f t) := by
  induction l generalizing t with
  | nil => exact h
  | cons x xs ih => exact ih (hf t x h)

/-- An update of other parts of the state. -/
theorem upd (h : s.Steady t) (hregs : u.regs = t.regs) (hstep : u.step = t.step) (hdev : u.dev = t.dev) (hplan : u.plan = t.plan) :
    s.Steady u where
  dev := hdev.trans h.dev
  plan := by rw [hplan, h.plan]
  regs f hf := by rw [← h.regs f hf, State.get, State.get, hregs]
  step := hstep.trans h.step

theorem set (h : s.Steady t) {g : Field} (hg : g.offBank) (v : Nat) : s.Steady (t.set g v) where
  dev := h.dev
  plan := h.plan
  regs f hf := (State.get_set_ne t g f v (hg f hf)).trans (h.regs f hf)
  step := h.step

/-- Counted and charged pin traffic. -/
theorem charged (h : s.Steady t) (k : Kept [.regul, .clock] t u) (hc : t.countsOnly u) : s.Steady u where
  dev := (k.same.dev.resolve_left (by decide)).trans h.dev
  plan := by rw [k.same.plan.resolve_left (by decide), h.plan]
  regs f hf := (hc f fun hi => Field.offBank_of_isCount hi f hf rfl).trans (h.regs f hf)
  step := (k.same.step.resolve_left (by decide)).trans h.step

theorem charge (h : s.Steady t) (src rd wr times : Nat) : s.Steady (t.charge src rd wr times) :=
  h.charged (State.charge_kept (List.Subset.refl _) (Kept.refl _ t) src rd wr times) (State.charge_countsOnly t src rd wr times)

theorem chargeWrites (h : s.Steady t) (src : Nat) (xs : List LineLoc) : s.Steady (t.chargeWrites src xs) :=
  h.charged (State.chargeWrites_kept (List.Subset.refl _) (Kept.refl _ t) src xs) (State.chargeWrites_countsOnly t src xs)

theorem advance (h : s.Steady t) (x : Nat) : s.Steady (t.advance x) :=
  h.charged (State.advance_kept (by decide) (Kept.refl _ t) x) (State.advance_countsOnly t x)

theorem modEntry (h : s.Steady t) (n : Nat) (f : EntrySt → EntrySt) : (s.modEntry n f).Steady (t.modEntry n f) where
  dev := h.dev
  plan := h.plan
  regs := h.regs
  step := by simp only [State.modEntry, State.modStep_step, h.step]

/-! ### Reports -/

theorem logEntry (h : s.Steady t) (cls : Nat) (src : ErrSrc) (e : ErrInfo) : s.Steady (t.logEntry cls src e) := by
  unfold State.logEntry State.setFlag State.set64
  dsimp only
  -- the fourteen fields of the entry, last first; LOG_SEQ remains
  iterate 14 refine Steady.set ?_ (Field.offBank_of_errorLog rfl (by decide) (by decide) (of_decide_eq_true rfl)) _
  exact h.set (by decide) _

theorem log_ (h : s.Steady t) (cls : Nat) (src : ErrSrc) (e : ErrInfo) : s.Steady (t.log_ cls src e) := by
  have entry := h.logEntry cls src e
  have counted (c : Prop) [Decidable c] : s.Steady (if c then ((t.logEntry cls src e).setFlag Reg.UE_ANY true).bump Reg.UE_TOTAL 1
      else t.logEntry cls src e) := .ite ((entry.set (by decide) _).set (by decide) _) entry
  exact .ite ((counted _).set (by decide) _) (.ite ((counted _).set (by decide) _) (counted _))

theorem noteBad (h : s.Steady t) (x : LineLoc) : s.Steady (t.noteBad x) := by
  unfold State.noteBad
  split <;> exact h.log_ _ _ _

theorem noteResult (h : s.Steady t) (e : EntrySt) (r : RowResult) : s.Steady (t.noteResult e r) := by
  have lines (xs : List LineLoc) {u : State} (hu : s.Steady u) : s.Steady (xs.foldl State.noteBad u) :=
    hu.foldl xs fun _ x hv => hv.noteBad x
  have state := h.foldl (onBits 30 r.uel) (f := fun u i => u.noteBad ⟨e.e.loc, i⟩) fun _ _ hv => hv.noteBad _
  exact .ite state (.ite (state.log_ _ _ _) (lines _ state))

/-! ### Lines and descriptors -/

theorem put (h : s.Steady t) (w : WriteMode) (l : RowLoc) (off : Nat) (bs : List Byte) : s.Steady (t.put w l off bs) :=
  .ite h (by cases w <;> exact h.upd rfl rfl rfl rfl)

theorem storeLine (h : s.Steady t) (w : WriteMode) (x : LineLoc) (data : List Byte) : s.Steady (t.storeLine w x data) := by
  unfold State.storeLine
  exact ((h.put w _ _ _).put w _ _ _).upd rfl rfl rfl rfl

theorem putLine (h : s.Steady t) (w : WriteMode) (x : LineLoc) (m : Meta) (data : List Byte) : s.Steady (t.putLine w x m data) :=
  (h.storeLine w x data).put w _ _ _

/-- The report of a line that takes no write. -/
theorem noteLine_bad (h : s.Steady t) (a : ErrSrc) (x : LineLoc) (c : Nat) (y : Word) : s.Steady (t.noteLine a x (.bad c y)) :=
  h.log_ c a _

theorem noteLine_far (h : s.Steady t) (a : ErrSrc) (x : LineLoc) : s.Steady (t.noteLine a x .far) :=
  h.set (g := Reg.TNRES) (by decide) _

/-- A write of a whole line. -/
theorem writeLine (h : s.Steady t) (a : ErrSrc) (w : WriteMode) (x : LineLoc) (data : List Byte) :
    s.Steady (t.writeLine a w x data fullMask).2 := by
  unfold State.writeLine
  split
  · exact h.noteLine_bad a x 0x05 0
  · split
    · exact h.noteLine_bad a x 0x06 0
    · split
      · exact h.noteLine_far a x
      · rw [if_pos rfl]
        exact h.putLine w x _ data

theorem patchImage (h : s.Steady t) (n i : Nat) (f : List Byte → List Byte) : s.Steady (t.patchImage n i f) := by
  unfold State.patchImage
  split
  · exact h
  · dsimp only
    split
    · exact .ite h ((h.chargeWrites _ _).writeLine _ _ _ _)
    · exact h

theorem modPlan (h : s.Steady t) (f : Plan → Plan) : s.Steady (t.modPlan f) where
  dev := h.dev
  plan := by rw [← h.plan, State.modPlan_plan, Option.isSome_map]
  regs := h.regs
  step := h.step

theorem modGroup (h : s.Steady t) (g : Nat) (f : Group → Group) : s.Steady (t.modGroup g f) := by
  unfold State.modGroup
  dsimp only
  split
  · exact (h.modPlan _).patchImage _ _ _
  · exact h.modPlan _

theorem modShard (h : s.Steady t) (i : Nat) (f : Shard → Shard) : s.Steady (t.modShard i f) := by
  unfold State.modShard
  dsimp only
  split
  · exact (h.modPlan _).patchImage _ _ _
  · exact h.modPlan _

theorem finishRecord (h : s.Steady t) (p : Plan) (e : EntrySt) (n : Nat) : s.Steady (t.finishRecord p e n) := by
  unfold State.finishRecord
  split
  · exact .ite (h.writeLine _ _ _ _) h
  · exact h

/-! ### Losses and holds -/

theorem enterHold (h : s.Steady t) (cause : Nat) : s.Steady (t.enterHold cause) := by
  have held := ((h.set (g := Reg.HELD) (by decide) 1).set (g := Reg.HOLD_CAUSE) (by decide) cause).set (g := Reg.IRQ_STAT) (by decide)
  exact .ite (.ite (h.set (by decide) _) h) (.ite ((held _).set (by decide) _) (held _))

theorem holdFor (h : s.Steady t) (cause : Nat) : s.Steady (t.holdFor cause) :=
  .ite ((h.enterHold cause).upd rfl rfl rfl rfl) (.ite (h.upd rfl rfl rfl rfl) (h.enterHold cause))

theorem listLoss (h : s.Steady t) (src : ErrSrc) (shard cause : Nat) : s.Steady (t.listLoss src shard cause) := by
  have logged := h.log_ 0x0F src (ErrInfo.plain shard)
  unfold State.listLoss
  refine .ite logged ?_
  split
  · next hn =>
    refine ((logged.set (Field.offBank_of_off (Nat.le_add_right_of_le (by decide)) ?_ (of_decide_eq_true rfl)) _).set
      (Field.offBank_of_off (Nat.le_add_right_of_le (by decide)) ?_ (of_decide_eq_true rfl)) _).set (by decide) _
    all_goals
      dsimp only [Reg.SHL_SHARD, Reg.SHL_CAUSE]
      omega
  · exact logged.set (by decide) _

theorem loseShard (h : s.Steady t) (src : ErrSrc) (shard cause : Nat) : s.Steady (t.loseShard src shard cause) :=
  (h.listLoss src shard cause).holdFor cause

theorem afterEntries (h : s.Steady t) : s.Steady t.afterEntries := by
  have stamped : s.Steady (if t.step.rowsEnded then t.stamp 4 else t) := .ite ((h.set (by decide) _).set (by decide) _) h
  have phase : s.Steady (if t.step.rowsEnded then t.stamp 4 else t).maybeEmission := .ite (stamped.set (by decide) _) stamped
  exact phase.upd rfl rfl rfl rfl

end State.Steady

end Sys2Proof.Machine
end

section
/-! PROOFS. How a sequence ends (R276, R279, R284, R319): its result is read and folded and its pair is free, or it overruns, stays on its
pair and is read again. -/

namespace Sys2Proof.Machine

/-! ### Entries of the commit list -/

theorem getElem?_modAt {α : Type} (l : List α) (i : Nat) (f : α → α) (j : Nat) :
    (modAt l i f)[j]? = if j = i then l[j]?.map f else l[j]? := by
  unfold modAt
  rw [List.getElem?_map, List.getElem?_zipIdx]
  cases l[j]? with
  | none => simp
  | some x => simp only [Option.map_some, Nat.zero_add]; split <;> rfl

@[simp] theorem State.modEntry_self (s : State) (n : Nat) (f : EntrySt → EntrySt) :
    (s.modEntry n f).step.entries[n]? = s.step.entries[n]?.map f :=
  (getElem?_modAt s.step.entries n f n).trans (if_pos rfl)

theorem State.modEntry_ne (s : State) {m n : Nat} (h : n ≠ m) (f : EntrySt → EntrySt) :
    (s.modEntry m f).step.entries[n]? = s.step.entries[n]? :=
  (getElem?_modAt s.step.entries m f n).trans (if_neg h)

theorem State.Steady.entries {s t : State} (h : s.Steady t) : t.step.entries = s.step.entries := by rw [h.step]

/-! ### Folding a result -/

/-- The result is clean: the row is at rest (R276). -/
def RowResult.clean (r : RowResult) : Bool := r.uel == 0 && !r.uex

/-- The entry once its result is folded (R276). -/
def EntrySt.withFolded (r : RowResult) (e : EntrySt) : EntrySt := { e with result := some r, folded := true }

/-- The entry once it has ended (R71). -/
def EntrySt.withEnd (ok : Bool) (e : EntrySt) : EntrySt := { e with st := if ok then .atRest else .unchanged }

section
variable {s : State} {n : Nat} {e : EntrySt} {r : RowResult}

theorem State.Steady.foldResult {t : State} (h : s.Steady t) (n : Nat) (e : EntrySt) (r : RowResult) :
    (s.modEntry n (EntrySt.withFolded r)).Steady (t.foldResult n e r) :=
  ((h.modShard _ _).modGroup _ _).modEntry n _

theorem State.Steady.endEntry {t : State} (h : s.Steady t) (a : ErrSrc) (n : Nat) (ok : Bool) :
    (s.modEntry n (EntrySt.withEnd ok)).Steady (t.endEntry a n ok) := by
  have ended : (s.modEntry n (EntrySt.withEnd ok)).Steady (t.modEntry n (EntrySt.withEnd ok)) := h.modEntry n _
  exact (State.Steady.ite ended (ended.loseShard _ _ _)).afterEntries

/-- Folding the result of an executed entry changes that entry alone. -/
theorem State.foldEntry_executed (hp : s.plan.plan.isSome = true) (hn : s.step.entries[n]? = some e) (hr : e.result = some r)
    (hx : e.st = .executed) (a : ErrSrc) :
    ((s.modEntry n (EntrySt.withFolded r)).modEntry n (EntrySt.withEnd r.clean)).Steady (s.foldEntry a n) := by
  obtain ⟨p, hp⟩ := Option.isSome_iff_exists.mp hp
  have noted : s.Steady (if a = .bsu then s.noteResult e r else s) := .ite ((State.Steady.refl s).noteResult e r) (.refl s)
  have folded := noted.foldResult n e r
  unfold State.foldEntry
  simp only [hp, hn, Option.bind_some, hr]
  rw [if_neg (by simp [hx])]
  generalize (if a = .bsu then s.noteResult e r else s).foldResult n e r = t at folded
  have recorded : (s.modEntry n (EntrySt.withFolded r)).Steady (if r.clean then t.finishRecord p e t.step.hdr.s else t) :=
    .ite (folded.finishRecord p e _) folded
  exact recorded.endEntry a n r.clean

/-- An entry that is not executed is left. -/
theorem State.foldEntry_of_ne (hn : s.step.entries[n]? = some e) (hx : e.st ≠ .executed) (a : ErrSrc) : s.foldEntry a n = s := by
  unfold State.foldEntry
  split
  · next e' _ _ hn' _ =>
    obtain rfl : e = e' := Option.some.inj (hn.symm.trans hn')
    exact if_pos (bne_iff_ne.mpr hx)
  · rfl

/-- Folding either leaves the state or changes the entry it names. -/
theorem State.foldEntry_cases (s : State) (a : ErrSrc) (n : Nat) :
    s.foldEntry a n = s ∨ ∃ f g, ((s.modEntry n f).modEntry n g).Steady (s.foldEntry a n) := by
  cases hp : s.plan.plan with
  | none => left; unfold State.foldEntry; rw [hp]
  | some p =>
    cases hn : s.step.entries[n]? with
    | none => left; unfold State.foldEntry; rw [hp, hn]
    | some e =>
      cases hr : e.result with
      | none => left; unfold State.foldEntry; simp only [hp, hn, Option.bind_some, hr]
      | some r =>
        by_cases hx : e.st = .executed
        · exact .inr ⟨_, _, State.foldEntry_executed (by rw [hp]; rfl) hn hr hx a⟩
        · exact .inl (State.foldEntry_of_ne hn hx a)

theorem State.foldEntry_sameUnits (s : State) (a : ErrSrc) (n : Nat) : s.SameUnits (s.foldEntry a n) := by
  obtain h | ⟨f, g, h⟩ := s.foldEntry_cases a n
  · rw [h]; exact .refl s
  · exact ⟨h.dev, h.plan, h.regs⟩

theorem State.foldEntry_entries_ne {m : Nat} (hm : n ≠ m) (a : ErrSrc) :
    (s.foldEntry a m).step.entries[n]? = s.step.entries[n]? := by
  obtain h | ⟨f, g, h⟩ := s.foldEntry_cases a m
  · rw [h]
  · rw [h.entries, State.modEntry_ne _ hm, State.modEntry_ne _ hm]

/-- An entry that is not executed stands as it is, whichever entry's result is folded. -/
theorem State.foldEntry_keeps (hn : s.step.entries[n]? = some e) (hx : e.st ≠ .executed) (a : ErrSrc) (m : Nat) :
    (s.foldEntry a m).step.entries[n]? = some e := by
  by_cases hm : n = m
  · rw [← hm, State.foldEntry_of_ne hn hx]; exact hn
  · rw [State.foldEntry_entries_ne hm]; exact hn

/-! ### Folding the results of a pair -/

theorem State.foldEntries_sameUnits (a : ErrSrc) (xs : List (EntrySt × Nat)) (s : State) :
    s.SameUnits (xs.foldl (fun s x => s.foldEntry a x.2) s) := by
  induction xs generalizing s with
  | nil => exact .refl s
  | cons x xs ih => exact (s.foldEntry_sameUnits a x.2).trans (ih _)

theorem State.foldEntries_keeps (a : ErrSrc) (xs : List (EntrySt × Nat)) (hn : s.step.entries[n]? = some e)
    (hx : e.st ≠ .executed) : (xs.foldl (fun s x => s.foldEntry a x.2) s).step.entries[n]? = some e := by
  induction xs generalizing s with
  | nil => exact hn
  | cons x xs ih => exact ih (State.foldEntry_keeps hn hx a x.2)

theorem EntrySt.withEnd_st_ne (ok : Bool) (e : EntrySt) : (e.withEnd ok).st ≠ .executed := by
  cases ok <;> exact EntryPhase.noConfusion

/-- An executed entry among those folded ends with its result. -/
theorem State.foldEntries_ends (a : ErrSrc) {xs : List (EntrySt × Nat)} (hmem : n ∈ xs.map (·.2)) (hp : s.plan.plan.isSome = true)
    (hn : s.step.entries[n]? = some e) (hr : e.result = some r) (hx : e.st = .executed) :
    (xs.foldl (fun s x => s.foldEntry a x.2) s).step.entries[n]? = some ((e.withFolded r).withEnd r.clean) := by
  induction xs generalizing s with
  | nil => simp at hmem
  | cons x xs ih =>
    rw [List.foldl_cons]
    by_cases hxn : n = x.2
    · refine State.foldEntries_keeps a xs ?_ (EntrySt.withEnd_st_ne _ _)
      rw [← hxn, (State.foldEntry_executed hp hn hr hx a).entries]
      simp [hn]
    · have htail : n ∈ xs.map (·.2) := by simpa [hxn] using hmem
      exact ih htail ((s.foldEntry_sameUnits a x.2).plan.trans hp) ((State.foldEntry_entries_ne hxn a).trans hn)

end

/-- The entry lies on the pair (d, c, k). -/
def EntrySt.onPair (e : EntrySt) (d c k : Nat) : Prop := e.e.loc.dev = d ∧ e.e.loc.ch = c ∧ e.e.loc.pair = k

/-- No row of the controller-side unit holds a pair of a device whose bank-side units are in service (R288). -/
theorem State.entryOn_eq_none {s : State} {d : Nat} (hd : s.inService d = true) (c k : Nat) : s.entryOn d c k = none := by
  unfold State.entryOn
  simp [hd]

/-- What a sequence leaves once its result is folded: its entry has ended with result `r`, and its pair is free. -/
structure State.Ends (t : State) (d c k n : Nat) (r : RowResult) : Prop where
  entry : ∃ e, t.step.entries[n]? = some ((EntrySt.withFolded r e).withEnd r.clean)
  free  : t.pairHeld d c k = false

theorem State.foldPair_ends {s : State} {d c k n : Nat} {e : EntrySt} {r : RowResult} (hp : s.plan.plan.isSome = true)
    (hd : s.inService d = true) (hq : s.seqOn d c k = none) (hn : s.step.entries[n]? = some e) (he : e.onPair d c k)
    (hx : e.st = .executed) (hr : e.result = some r) : (s.foldPair d c k).Ends d c k n r := by
  have units : s.SameUnits (s.foldPair d c k) := State.foldEntries_sameUnits _ _ s
  obtain ⟨hdev, hch, hpair⟩ := he
  refine ⟨⟨e, State.foldEntries_ends .bsu ?_ hp hn hr hx⟩, ?_⟩
  · refine List.mem_map.mpr ⟨(e, n), List.mem_filter.mpr ⟨List.mem_zipIdx_iff_getElem?.mpr hn, ?_⟩, rfl⟩
    simp [hx, hd, hdev, hch, hpair]
  · rw [State.pairHeld, units.seqOn, hq, State.entryOn_eq_none (by rw [units.inService, hd])]
    rfl

/-! ### Reading a result -/

theorem State.holds_of_seqOn {s : State} {d c k : Nat} {q : SeqFl} (h : s.seqOn d c k = some q) : q.dev = d ∧ q.ch = c ∧ q.k = k := by
  have := List.find?_some h
  simpa [SeqFl.holds, and_assoc] using this

/-- The state with no sequence on the pair. -/
def State.offPair (s : State) (d c k : Nat) : State := { s with dev := { s.dev with seqs := s.dev.seqs.filter (fun x => !x.holds d c k) } }

theorem State.seqOn_offPair (s : State) (d c k : Nat) : (s.offPair d c k).seqOn d c k = none := by
  simp [State.seqOn, State.offPair]

/-- Reading the result of an entry's sequence frees the pair and hands the result to the entry (R276, R279). -/
theorem State.readResult_steady (s : State) {q : SeqFl} {n : Nat} (hq : q.entry = some n) :
    ((s.offPair q.dev q.ch q.k).modEntry n (fun e => { e with st := .executed, result := (s.bsu q.dev q.ch q.k).result })).Steady
      (s.readResult q) := by
  unfold State.readResult
  rw [hq]
  exact ((State.Steady.refl (s.offPair q.dev q.ch q.k)).charge 11 1 0 1).modEntry n _

theorem State.seqOn_retire {s : State} {d c k : Nat} (h : s.seqOn d c k = none) : s.retire.seqOn d c k = none :=
  List.find?_eq_none.mpr fun q hq => List.find?_eq_none.mp h q (List.mem_filter.mp hq).1

theorem State.finishSeq_ends {s : State} {q : SeqFl} {n : Nat} {e : EntrySt} {r : RowResult} (hp : s.plan.plan.isSome = true)
    (hd : s.inService q.dev = true) (hq : q.entry = some n) (hn : s.step.entries[n]? = some e) (he : e.onPair q.dev q.ch q.k)
    (hr : (s.bsu q.dev q.ch q.k).result = some r) : (s.finishSeq q).Ends q.dev q.ch q.k n r := by
  have read := s.readResult_steady hq
  have units : (s.offPair q.dev q.ch q.k).SameUnits (s.readResult q) := ⟨read.dev, read.plan, read.regs⟩
  refine State.foldPair_ends (e := { e with st := .executed, result := some r }) (s := (s.readResult q).retire)
    ?_ ?_ ?_ ?_ he rfl rfl
  · exact units.plan.trans hp
  · exact (units.inService q.dev).trans hd
  · exact State.seqOn_retire ((units.seqOn _ _ _).trans (s.seqOn_offPair _ _ _))
  · rw [show (s.readResult q).retire.step = (s.readResult q).step from rfl, read.entries, State.modEntry_self, hr]
    exact congrArg (Option.map _) hn

/-! ### An overrun -/

/-- The state with the sequences on a pair marked as overrun. -/
def State.markOverrun (s : State) (d c k : Nat) : State :=
  { s with dev := { s.dev with seqs := s.dev.seqs.map (fun x => if x.holds d c k then { x with overran := true } else x) } }

theorem State.seqOn_markOverrun {s : State} {d c k : Nat} {q : SeqFl} (h : s.seqOn d c k = some q) :
    ((s.markOverrun d c k).seqOn d c k).isSome = true := by
  have hq := List.find?_some h
  refine List.find?_isSome.mpr ⟨_, List.mem_map.mpr ⟨q, List.mem_of_find?_eq_some h, rfl⟩, ?_⟩
  rw [if_pos hq]
  exact hq

/-- The BSU of a pair once it is changed. -/
theorem State.bsu_setBsu (s : State) (d c k : Nat) (b : Bsu) : (s.setBsu d c k b).bsu d c k = b :=
  sparsePut_self Bsu.blank s.dev.bsus (bsuIx d c k) b

theorem State.bit_setBit_BSU_REVIEW (s : State) {d : Nat} (hd : d < 24) :
    (s.setBit Reg.BSU_REVIEW d true).bit Reg.BSU_REVIEW d = true := by
  rw [State.bit, State.setBit, if_pos rfl, State.get_set_self, show Reg.BSU_REVIEW.width = 24 from rfl, Nat.testBit_mod_two_pow,
    Nat.testBit_or, Nat.testBit_two_pow_self, Bool.or_true, Bool.and_true, decide_eq_true hd]

theorem State.get_bump_OVERRUN (s : State) : (s.bump Reg.OVERRUN 1).get Reg.OVERRUN = min (s.get Reg.OVERRUN + 1) 0xFFFFFFFF := by
  rw [State.bump, State.get_set_self, show Reg.OVERRUN.width = 32 from rfl]
  exact Nat.mod_eq_of_lt (by omega)

/-- The state with an overrun logged. -/
def State.logOverrun (s : State) (q : SeqFl) : State := (s.markOverrun q.dev q.ch q.k).log_ 0x08 .bsu (ErrInfo.plain 0)

/-- The state with an overrun logged, counted and marked for review. -/
def State.noteOverrun (s : State) (q : SeqFl) : State := ((s.logOverrun q).bump Reg.OVERRUN 1).setBit Reg.BSU_REVIEW q.dev true

theorem State.overrun_eq (s : State) (q : SeqFl) :
    s.overrun q = (s.noteOverrun q).setBsu q.dev q.ch q.k { (s.noteOverrun q).bsu q.dev q.ch q.k with tout := true } := rfl

theorem State.logOverrun_steady (s : State) (q : SeqFl) : (s.markOverrun q.dev q.ch q.k).Steady (s.logOverrun q) :=
  (State.Steady.refl _).log_ _ _ _

theorem State.noteOverrun_OVERRUN (s : State) (q : SeqFl) :
    (s.noteOverrun q).get Reg.OVERRUN = min (s.get Reg.OVERRUN + 1) 0xFFFFFFFF := by
  have apart : (s.noteOverrun q).get Reg.OVERRUN = ((s.logOverrun q).bump Reg.OVERRUN 1).get Reg.OVERRUN :=
    State.get_set_ne _ Reg.BSU_REVIEW Reg.OVERRUN _ (by decide)
  have logged : (s.logOverrun q).get Reg.OVERRUN = (s.markOverrun q.dev q.ch q.k).get Reg.OVERRUN :=
    (s.logOverrun_steady q).regs Reg.OVERRUN (by decide)
  rw [apart, State.get_bump_OVERRUN, logged]
  rfl

/-- What an overrun leaves: it is counted and marked for review, the BSU shows TOUT, and the sequence stays on its pair (R279, R319). -/
theorem State.overrun_marks (s : State) {q : SeqFl} (hq : s.seqOn q.dev q.ch q.k = some q) (hd : q.dev < 24) :
    (s.overrun q).get Reg.OVERRUN = min (s.get Reg.OVERRUN + 1) 0xFFFFFFFF ∧ (s.overrun q).bit Reg.BSU_REVIEW q.dev = true
      ∧ (s.overrun q).pairHeld q.dev q.ch q.k = true ∧ ((s.overrun q).bsu q.dev q.ch q.k).tout = true := by
  have stays : (s.overrun q).seqOn q.dev q.ch q.k = (s.markOverrun q.dev q.ch q.k).seqOn q.dev q.ch q.k := by
    rw [← (s.logOverrun_steady q).seqOn]
    simp only [State.overrun_eq, State.noteOverrun, State.seqOn, State.setBsu_dev, State.setBit_dev, State.bump_dev]
  refine ⟨?_, ?_, by rw [State.pairHeld, stays, State.seqOn_markOverrun hq, Bool.true_or], ?_⟩
  all_goals rw [State.overrun_eq]
  · rw [State.setBsu_get, State.noteOverrun_OVERRUN]
  · rw [State.bit, State.setBsu_get]
    exact State.bit_setBit_BSU_REVIEW _ hd
  · rw [State.bsu_setBsu]

/-! ### The obligation -/

/-- What `SequenceEnds` says of the state `t` in which a sequence with result `r` has ended, from that and from what every command keeps. -/
theorem State.Ends.ended {s t : State} {ms : List Part} {d c k n : Nat} {r : RowResult} (h : t.Ends d c k n r)
    (hk : Kept ms s t) (hm : .out ∉ ms) :
    (t.step.entries[n]?).any (fun x => x.folded && (if r.uel = 0 ∧ r.uex = false then x.st == .atRest else x.st == .unchanged)) = true
      ∧ t.pairHeld d c k = false ∧ s.clock.time ≤ t.clock.time ∧ t.out = s.out := by
  obtain ⟨⟨e, he⟩, hfree⟩ := h
  refine ⟨?_, hfree, hk.time, hk.same.out.resolve_left hm⟩
  rw [he]
  by_cases hr : r.uel = 0 ∧ r.uex = false <;> simp [EntrySt.withFolded, EntrySt.withEnd, RowResult.clean, hr]

section
variable {s : State} {pl : Plan} {d : BitVec 5} {c : BitVec 2} {k : BitVec 3} {q : SeqFl}

/-- A sequence whose result is read at time `x` ends. -/
theorem State.finishSeq_advance_ends {n : Nat} {e : EntrySt} {r : RowResult} (hp : s.plan.plan = some pl) (hq : q.entry = some n)
    (hn : s.step.entries[n]? = some e) (he : e.onPair q.dev q.ch q.k) (hd : s.inService q.dev = true)
    (hr : (s.bsu q.dev q.ch q.k).result = some r) (x : Nat) :
    ((s.advance x).finishSeq q).Ends q.dev q.ch q.k n r ∧ x ≤ ((s.advance x).finishSeq q).clock.time := by
  have moved := (State.Steady.refl s).advance x
  constructor
  · refine State.finishSeq_ends ?_ ?_ hq ?_ he ?_
    · rw [moved.plan, hp]; rfl
    · rw [moved.inService, hd]
    · rw [moved.entries, hn]
    · rw [State.bsu, moved.dev]; exact hr
  · have later := (State.finishSeq_kept (List.Subset.refl _) (Kept.refl _ (s.advance x)) q).time
    have reached := s.advance_time x
    omega

/-- The times at which the result of an overrun is read again lie 40 ns apart from its bound on (R279). -/
theorem SeqFl.readAt_overran {q : SeqFl} (h : q.overran = true) (now : Nat) :
    q.bound ≤ q.readAt now ∧ (q.bound ≤ now → (q.readAt now - q.bound) % 40 = 0 ∧ now < q.readAt now) := by
  rw [SeqFl.readAt, if_pos h]
  omega

theorem exec_seqBoundEnd_eq (busy : Bool) (hq : s.seqOn d.toNat c.toNat k.toNat = some q) (ho : q.overran = false) (hr : q.ran = true) :
    exec (.seqBoundEnd d c k busy) s
      = .next (if busy then (s.advance q.bound).overrun q else (s.advance q.bound).finishSeq q) := by
  show execSeqBoundEnd d c k busy s = _
  simp only [execSeqBoundEnd, hq, ho, hr, Bool.not_true, Bool.or_self, Bool.false_eq_true, if_false]

theorem exec_resultReread_eq (busy : Bool) (hq : s.seqOn d.toNat c.toNat k.toNat = some q) (ho : q.overran = true) :
    exec (.resultReread d c k busy) s
      = .next (if busy then s.advance (q.readAt s.clock.time) else (s.advance (q.readAt s.clock.time)).finishSeq q) := by
  show execResultReread d c k busy s = _
  simp only [execResultReread, hq, ho, Bool.not_true, Bool.false_eq_true, if_false]

/-- A sequence that reads BUSY at its bound overruns. -/
theorem completes_seqBoundEnd_busy (hq : s.seqOn d.toNat c.toNat k.toNat = some q) (hdev : q.dev < 24) (ho : q.overran = false)
    (hran : q.ran = true) : completes (.seqBoundEnd d c k true) s (fun t =>
      t.get Reg.OVERRUN = min (s.get Reg.OVERRUN + 1) 0xFFFFFFFF ∧ t.bit Reg.BSU_REVIEW q.dev = true
      ∧ t.pairHeld d.toNat c.toNat k.toNat = true ∧ (t.bsu q.dev q.ch q.k).tout = true ∧ t.mem = s.mem ∧ t.step = s.step) := by
  obtain ⟨hqd, hqc, hqk⟩ := State.holds_of_seqOn hq
  have moved := (State.Steady.refl s).advance q.bound
  have kept := State.overrun_kept (by decide) (State.advance_kept (ms := [.clock, .dev]) (by decide) (Kept.refl _ s) q.bound) q
  have stands : (s.advance q.bound).seqOn q.dev q.ch q.k = some q := by rw [moved.seqOn, hqd, hqc, hqk, hq]
  obtain ⟨hcount, hreview, hheld, htout⟩ := State.overrun_marks _ stands hdev
  rw [moved.regs Reg.OVERRUN (by decide)] at hcount
  rw [hqd, hqc, hqk] at hheld
  exact ⟨_, exec_seqBoundEnd_eq true hq ho hran, hcount, hreview, hheld, htout, kept.same.mem.resolve_left (by decide),
    kept.same.step.resolve_left (by decide)⟩

/-- An overrun sequence that reads BUSY again: time passes to the next read, and nothing else does. -/
theorem completes_resultReread_busy (hq : s.seqOn d.toNat c.toNat k.toNat = some q) (ho : q.overran = true) :
    completes (.resultReread d c k true) s (fun t =>
      t.dev = s.dev ∧ t.step = s.step ∧ t.mem = s.mem ∧ s.countsOnly t ∧ s.clock.time ≤ t.clock.time
      ∧ (q.bound ≤ s.clock.time → (t.clock.time - q.bound) % 40 = 0 ∧ s.clock.time < t.clock.time)) := by
  have kept := State.advance_kept (List.Subset.refl _) (Kept.refl _ s) (q.readAt s.clock.time)
  have moved := (State.Steady.refl s).advance (q.readAt s.clock.time)
  refine ⟨_, exec_resultReread_eq true hq ho, moved.dev, moved.step, kept.same.mem.resolve_left (by decide),
    s.advance_countsOnly _, kept.time, fun hb => ?_⟩
  obtain ⟨hmod, hlt⟩ := (q.readAt_overran ho s.clock.time).2 hb
  rw [if_pos rfl, s.advance_time, max_eq_right hlt.le]
  exact ⟨hmod, hlt⟩

/-- An entry whose result an access to its pair has read ends. -/
theorem exec_seqBoundEnd_of_read (hq : s.seqOn d.toNat c.toNat k.toNat = none) :
    exec (.seqBoundEnd d c k false) s = .next (s.foldPair d.toNat c.toNat k.toNat) := by
  show execSeqBoundEnd d c k false s = _
  rw [execSeqBoundEnd, hq]

end

/-- Settles O30, through what folding a result leaves: the entry ends, and what holds the pair stands but for the sequence read. -/
theorem sequenceEnds : Obligations.SequenceEnds := by
  intro s pl d c k hp
  dsimp only
  refine ⟨fun q hq => ?_, fun hq n e r hn ⟨hdev, hch, hpair, hd⟩ hx hr => ?_⟩
  · obtain ⟨hqd, hqc, hqk⟩ := State.holds_of_seqOn hq
    refine ⟨fun n e r hentry hn ⟨hdev, hch, hpair, hd⟩ hr => ?_, fun hdev ho hran => ?_, fun ho => ?_⟩
    · have he : e.onPair q.dev q.ch q.k := ⟨hdev.trans hqd.symm, hch.trans hqc.symm, hpair.trans hqk.symm⟩
      have read := State.finishSeq_advance_ends hp hentry hn he (by rw [hqd]; exact hd) hr
      rw [hqd, hqc, hqk] at read
      refine ⟨fun ho hran => ?_, fun ho => ?_⟩
      · obtain ⟨ends, hbound⟩ := read q.bound
        have hexec := exec_seqBoundEnd_eq false hq ho hran
        exact ⟨_, hexec, ends.ended (execSeqBoundEnd_kept (List.Subset.refl _) (Kept.refl _ s) d c k false hexec) (by decide), hbound⟩
      · obtain ⟨ends, hread⟩ := read (q.readAt s.clock.time)
        have hexec := exec_resultReread_eq false hq ho
        exact ⟨_, hexec, ends.ended (execResultReread_kept (List.Subset.refl _) (Kept.refl _ s) d c k false hexec) (by decide),
          (q.readAt_overran ho s.clock.time).1.trans hread⟩
    · exact completes_seqBoundEnd_busy hq hdev ho hran
    · exact completes_resultReread_busy hq ho
  · have hexec := exec_seqBoundEnd_of_read hq
    have ends : (s.foldPair d.toNat c.toNat k.toNat).Ends d.toNat c.toNat k.toNat n r :=
      State.foldPair_ends (by rw [hp]; rfl) hd hq hn ⟨hdev, hch, hpair⟩ hx hr
    exact ⟨_, hexec, ends.ended (execSeqBoundEnd_kept (List.Subset.refl _) (Kept.refl _ s) d c k false hexec) (by decide)⟩

end Sys2Proof.Machine
end

section
/-! PROOFS. What a register write does (R399, R400, R405): a plain register's write is the write of its fields, each by its access code;
a write to a register that is not served, or at an offset that is no multiple of 4, leaves the state. -/

namespace Sys2Proof.Machine

/-! ### One field -/

/-- What field `f`, holding `old`, holds after a write of the word `v` (R400). -/
def Field.written (f : Field) (v old : Nat) : Nat :=
  match f.acc with
  | .rw => bits v f.hi f.lo
  | .w1c => (old - (old &&& bits v f.hi f.lo)) % 2 ^ f.width
  | .rd | .wo => old

/-- The step of `State.writeFields` at field `f`. -/
def State.writeField (s : State) (v : Nat) (f : Field) : State :=
  match f.acc with
  | .rw => s.set f (bits v f.hi f.lo)
  | .w1c => s.set f (s.get f - (s.get f &&& bits v f.hi f.lo))
  | .rd | .wo => s

theorem State.writeFields_eq_foldl (s : State) (off v : Nat) :
    s.writeFields off v = (regFields off).foldl (fun s f => s.writeField v f) s := rfl

theorem Field.bits_mod_width (f : Field) (v : Nat) : bits v f.hi f.lo % 2 ^ f.width = bits v f.hi f.lo := Nat.mod_mod _ _

theorem State.get_writeField_self (s : State) (v : Nat) (f : Field) : (s.writeField v f).get f = f.written v (s.get f) := by
  unfold State.writeField Field.written
  cases f.acc with
  | rw => rw [State.get_set_self, f.bits_mod_width]
  | w1c => exact s.get_set_self f _
  | rd => rfl
  | wo => rfl

theorem State.get_writeField_ne (s : State) (v : Nat) {f g : Field} (h : g.key ≠ f.key) : (s.writeField v f).get g = s.get g := by
  unfold State.writeField
  cases f.acc with
  | rw => exact s.get_set_ne f g _ h
  | w1c => exact s.get_set_ne f g _ h
  | rd => rfl
  | wo => rfl

theorem State.writeField_withRegs (s : State) (v : Nat) (f : Field) (r : RegFile) :
    { s.writeField v f with regs := r } = { s with regs := r } := by
  unfold State.writeField
  cases f.acc <;> rfl

/-! ### The fields of a register -/

theorem State.foldl_writeField_onlyRegs (v : Nat) (fs : List Field) (s : State) :
    s.onlyRegs (fs.foldl (fun s f => s.writeField v f) s) fs := by
  induction fs generalizing s with
  | nil => exact ⟨rfl, fun _ _ => rfl⟩
  | cons f fs ih =>
    obtain ⟨hrest, hkept⟩ := ih (s.writeField v f)
    refine ⟨hrest.trans (s.writeField_withRegs v f _), fun g hg => ?_⟩
    rw [List.map_cons, List.mem_cons, not_or] at hg
    exact (hkept g hg.2).trans (s.get_writeField_ne v hg.1)

theorem State.get_foldl_writeField (v : Nat) {fs : List Field} (hn : (fs.map Field.key).Nodup) {f : Field} (hf : f ∈ fs) (s : State) :
    (fs.foldl (fun s f => s.writeField v f) s).get f = f.written v (s.get f) := by
  induction fs generalizing s with
  | nil => cases hf
  | cons g fs ih =>
    obtain ⟨hg, hrest⟩ := List.nodup_cons.mp hn
    rw [List.foldl_cons]
    rcases List.mem_cons.mp hf with rfl | hf
    · rw [(State.foldl_writeField_onlyRegs v fs _).2 f hg, State.get_writeField_self]
    · have hne : f.key ≠ g.key := fun h => hg (h ▸ List.mem_map_of_mem hf)
      rw [ih hrest hf, s.get_writeField_ne v hne]

theorem State.writeFields_onlyRegs (s : State) (off v : Nat) : s.onlyRegs (s.writeFields off v) (regFields off) :=
  State.foldl_writeField_onlyRegs v (regFields off) s

theorem State.get_writeFields (s : State) {off : Nat} (v : Nat) (hn : ((regFields off).map Field.key).Nodup) {f : Field}
    (hf : f ∈ regFields off) : (s.writeFields off v).get f = f.written v (s.get f) :=
  State.get_foldl_writeField v hn hf s

theorem State.writeFields_step (s : State) (off v : Nat) : (s.writeFields off v).step = s.step := by
  rw [(s.writeFields_onlyRegs off v).1]

/-! ### Writes by offset -/

/-- The registers whose write `State.writeReg` names one by one: it starts work, or has a condition of its own (R403). -/
def workOffsets : List Nat :=
  [0x0200, 0x0204, 0x0208, 0x020C, 0x0300, 0x0320, 0x0400, 0x0430, 0x0800, 0x0900, 0x2000, 0x2034, 0x2048, 0x3000, 0x3010, 0x3014, 0x3018,
    0x301C, 0x3004, 0x4000, 0x480C, 0x4810, 0x481C, 0x4820, 0x482C, 0x5004, 0x5010, 0x6000, 0x8000, 0x8010]

/-- The register at `off` is a word of a region-table entry (R38). -/
def isEntryWord (off : Nat) : Bool := 0x1000 ≤ off && off < 0x1400

/-- The register at `off` is one that R412 checks. -/
def isChecked (off : Nat) : Bool := (0x1800 ≤ off && off < 0x1880 && off % 16 == 0) || off == 0x1880 || off == 0x1884

theorem State.writeReg_fields (s : State) {off : Nat} (v : Word) (h4 : off % 4 = 0) (he : isEntryWord off = false)
    (hc : isChecked off = false) (hw : off ∉ workOffsets) : s.writeReg off v = s.onWrite off v id := by
  unfold isEntryWord at he
  unfold isChecked at hc
  unfold State.writeReg
  rw [if_neg (by simp [h4]), if_neg (by simp [he]), if_neg (by rw [hc]; decide)]
  split
  on_goal -1 => rfl
  all_goals exact absurd (by decide) hw

theorem State.served_aligned {s : State} {off : Nat} (h : s.served off = true) : off % 4 = 0 := by
  simp only [State.served, Bool.and_eq_true, beq_iff_eq] at h
  exact h.1.2

theorem State.onWrite_of_served {s : State} {off : Nat} (h : s.served off = true) (v : Word) (act : State → State) :
    s.onWrite off v act = act (s.writeFields off v.toNat) := if_pos h

theorem State.onWrite_of_not_served {s : State} {off : Nat} (h : s.served off = false) (v : Word) (act : State → State) :
    s.onWrite off v act = s := by
  simp [State.onWrite, h]

theorem State.entryWrite_of_not_served {s : State} {off : Nat} (h : s.served off = false) (h4 : off % 4 = 0) (he : isEntryWord off = true)
    (v : Nat) : s.entryWrite ((off - 0x1000) / 16) (off % 16 / 4) v = s := by
  simp only [isEntryWord, Bool.and_eq_true, decide_eq_true_eq] at he
  have hoff : 0x1000 + 16 * ((off - 0x1000) / 16) + 4 * (off % 16 / 4) = off := by omega
  simp [State.entryWrite, hoff, h]

theorem State.writeRegulator_of_not_served {s : State} {off : Nat} (h : s.served off = false) (v : Word) :
    s.writeRegulator off v = s := by
  simp [State.writeRegulator, h]

/-- A write to a register that is not served is ignored (R405). The LOAD register is apart: in Spent its write is reported (R358). -/
theorem State.writeReg_of_not_served {s : State} {off : Nat} (h : s.served off = false) (hload : off ≠ 0x0400) (ht : s.settleTest = s)
    (v : Word) : s.writeReg off v = s := by
  unfold State.writeReg
  split
  · rfl
  next h4 =>
  split
  · next he => rw [State.entryWrite_of_not_served h (by simpa using h4) (by simpa [isEntryWord] using he), ht]
  split
  · exact State.writeRegulator_of_not_served h v
  split
  case h_7 => exact absurd rfl hload
  all_goals simp [State.writeTier, State.writeWindow, State.writeX, State.writeFaultControl, State.writeRepair, State.writeMirror,
    State.writeDebugControl, State.writeBreak, State.writePower, State.writePortFail, State.writeCounterControl, State.writeService,
    State.onWrite_of_not_served h]

/-! ### The commands -/

theorem State.releaseGo_of_not_held {s : State} (h : s.step.goHeld = false) : s.releaseGo = s := by
  simp [State.releaseGo, h]

theorem exec_registerWrite_aligned (s : State) {off : Half} (h4 : off.toNat % 4 = 0) (v : Word) :
    exec (.registerWrite off v) s = .next (s.writeReg off.toNat v).releaseGo := by
  show execRegisterWrite off v s = _
  simp [execRegisterWrite, h4]

theorem exec_registerWrite_misaligned (s : State) {off : Half} (h4 : off.toNat % 4 ≠ 0) (v : Word) :
    exec (.registerWrite off v) s = .next s := by
  show execRegisterWrite off v s = _
  simp [execRegisterWrite, h4]

theorem exec_debugRequest_regRead (s : State) (off : Half) :
    exec (.debugRequest (.regRead off)) s = .next (if s.inReset then s else s.debugRead off.toNat) := by
  show execDebugRequest (.regRead off) s = _
  unfold execDebugRequest
  split <;> rfl

theorem exec_debugRequest_regWrite (s : State) (off : Half) (v : Word) :
    exec (.debugRequest (.regWrite off v)) s = .next (if s.inReset then s else s.debugWrite off.toNat v) := by
  show execDebugRequest (.regWrite off v) s = _
  unfold execDebugRequest
  split <;> rfl

theorem State.cpRead_misaligned (s : State) {off : Nat} (h4 : off % 4 ≠ 0) : s.cpRead off = { s with out := s.out ++ [.reg off 0] } := by
  simp [State.cpRead, State.readPort, State.served, State.emit, h4]

theorem State.debugRead_misaligned (s : State) {off : Nat} (h4 : off % 4 ≠ 0) :
    s.debugRead off = { s with out := s.out ++ [.debugReg off 0] } := by
  simp [State.debugRead, State.emit, h4]

theorem State.debugWrite_misaligned (s : State) {off : Nat} (h4 : off % 4 ≠ 0) (v : Word) : s.debugWrite off v = s := by
  simp [State.debugWrite, h4]

/-! ### The plain registers -/

theorem plainOffsets_fieldsOnly :
    ∀ off ∈ plainOffsets, isEntryWord off = false ∧ isChecked off = false ∧ off ∉ workOffsets := by decide

theorem plainOffsets_keys_nodup : ∀ off ∈ plainOffsets, ((regFields off).map Field.key).Nodup := by decide +kernel

theorem exec_registerWrite_plain {s : State} {off : Half} (hgo : s.step.goHeld = false) (hp : off.toNat ∈ plainOffsets)
    (hs : s.served off.toNat = true) (v : Word) : exec (.registerWrite off v) s = .next (s.writeFields off.toNat v.toNat) := by
  have h4 := State.served_aligned hs
  obtain ⟨he, hc, hw⟩ := plainOffsets_fieldsOnly _ hp
  rw [exec_registerWrite_aligned s h4, s.writeReg_fields v h4 he hc hw, State.onWrite_of_served hs]
  exact congrArg _ (State.releaseGo_of_not_held (by rw [id, State.writeFields_step, hgo]))

/-! ### The obligation -/

/-- Settles O39, through the write of the fields, of which each acts by its access code and none touches another. -/
theorem registerWriteFields : Obligations.RegisterWriteFields := by
  intro s off v
  refine ⟨fun hgo hp hs => ⟨_, exec_registerWrite_plain hgo hp hs v, fun f hf => ?_, s.writeFields_onlyRegs _ _⟩,
    fun hgo hs hload ht => ?_, fun c hc => ?_, fun h4 => ?_⟩
  · rw [s.get_writeFields _ (plainOffsets_keys_nodup _ hp) hf, Field.written]
    cases f.acc <;> simp
  · by_cases h4 : off.toNat % 4 = 0
    · rw [exec_registerWrite_aligned s h4, State.writeReg_of_not_served hs hload ht, State.releaseGo_of_not_held hgo]
    · exact exec_registerWrite_misaligned s h4 v
  · simp only [List.mem_cons, List.not_mem_nil, or_false] at hc
    rcases hc with rfl | rfl | rfl | rfl
    · exact ⟨_, rfl⟩
    · exact ⟨_, rfl⟩
    · exact ⟨_, exec_debugRequest_regRead s off⟩
    · exact ⟨_, exec_debugRequest_regWrite s off v⟩
  · refine ⟨exec_registerWrite_misaligned s h4 v, ?_, ?_, fun hr => ?_⟩
    · rw [exec_debugRequest_regWrite, s.debugWrite_misaligned h4, ite_self]
    · exact congrArg _ (s.cpRead_misaligned h4)
    · rw [exec_debugRequest_regRead, hr, s.debugRead_misaligned h4]
      rfl

end Sys2Proof.Machine
end
